-- ==== Sys2Proof/Word.lean ====
section
/-!
DEFINITION. The word types of the TL64 and the sparse tables that hold its storage.
A table is a list of (key, value) pairs with strictly rising keys; a key that is not listed reads as the table's
default. `Tab.set` keeps the form in which no listed value is the default, so that equal tables are equal lists.
-/
namespace Sys2Proof

/-- A byte of memory. -/
abbrev Byte := BitVec 8
/-- A 32-bit vector-register word (R47). -/
abbrev Word := BitVec 32
/-- A 64-bit uniform-register word, and a generic address (R47, R92). -/
abbrev DWord := BitVec 64
/-- A lane mask: 128 bits, of which W are used (R47, R51). -/
abbrev Mask := BitVec 128

/-- A sparse table from natural-number keys. -/
abbrev Tab (α : Type) := List (Nat × α)

namespace Tab

/-- The value at key `k`; an unlisted key reads as `d`. -/
def get {α : Type} (d : α) : Tab α → Nat → α
  | [], _ => d
  | (j, u) :: t, k => if k = j then u else get d t k

/-- Write `v` at key `k`, keeping the keys rising and dropping an entry that equals the default `d`. -/
def set {α : Type} [DecidableEq α] (d : α) : Tab α → Nat → α → Tab α
  | [], k, v => if v = d then [] else [(k, v)]
  | (j, u) :: t, k, v =>
    if k < j then (if v = d then (j, u) :: t else (k, v) :: (j, u) :: t)
    else if k = j then (if v = d then t else (k, v) :: t)
    else (j, u) :: set d t k v

/-- Write `v` at key `k`, keeping the keys rising (for records, which are always listed once written). -/
def put {α : Type} : Tab α → Nat → α → Tab α
  | [], k, v => [(k, v)]
  | (j, u) :: t, k, v =>
    if k < j then (k, v) :: (j, u) :: t
    else if k = j then (k, v) :: t
    else (j, u) :: put t k v

/-- Every key is above `n` and the keys rise strictly. -/
def sortedFrom {α : Type} (n : Nat) : Tab α → Bool
  | [] => true
  | (j, _) :: t => decide (n ≤ j) && sortedFrom (j + 1) t

/-- The canonical form: keys rising strictly, no value equal to the default. -/
def wf {α : Type} [DecidableEq α] (d : α) (t : Tab α) : Bool :=
  sortedFrom 0 t && t.all (fun e => decide (e.2 ≠ d))

end Tab
end Sys2Proof
end

