-- ==== Sys2Proof/Config.lean ====
section
/-!
DEFINITION. What the TL64 fixes (R2), and the free values: values the manual leaves open, which nothing in the model
can see.
-/
namespace Sys2Proof.Config

/-- The warp width W of the TL64 (R2: 32). Log entry 1. -/
def W : Nat := 32

/-- The lanes 0 to W - 1. -/
def lanes : List Nat := List.range W

/-- The mask of the W lanes in use (R51). -/
def laneMask : Mask := BitVec.ofNat 128 (2 ^ W - 1)

/-- FREE VALUES (log entry 7): the n-th value the manual leaves open. No body: nothing constrains it. -/
opaque freeBits : Nat → BitVec 64

/-- FREE VALUE (log entry 70): which of the elements that an operation writes to one address is left there. -/
opaque aliasPick : Nat → Nat

/-- FREE VALUE (log entry 30): how the content of a region of a save record whose layout no rule gives lies in its bytes
(R388): the region's kind, its content, and the byte's number. -/
opaque saveLayout : Nat → List Nat → Nat → BitVec 8

/-- FREE VALUE (log entry 71): the version word's data as the signature of a TSTORE through an aon map folds it (R167), by its
address: the value is written only when the tile pours (R174). -/
opaque verData : Nat → BitVec 64

/-- FREE VALUE (log entry 69): whether a line of L2 has been replaced by the time of a step. -/
opaque lineLeft : Nat → Nat → Bool

/-- FREE VALUE (log entry 41): the L2 set, of the 16 slices of 2,048, of a line of a die, by its number there (R100): the mapping
is not architectural, and does not change. -/
opaque homeSet : Nat → Nat

/-- FREE VALUE (log entry 51): whether the read-back of a zeroing of a die's crucible, by the time of a step, finds a nonzero
bit (R444). -/
opaque zeroFailed : Nat → Nat → Bool

/-- FREE VALUE (log entry 53): the frames of a die in which a patrol scrub corrects errors, one for each, by the time of a step. -/
opaque scrubFound : Nat → Nat → List Nat

/-- FREE VALUE (log entry 7): the r and s words of a heat-record signature (R441), from the digest's content. -/
opaque signature : Nat → Nat → BitVec 384

/-- FREE VALUE (log entry 7): the SHA-384 digest of some bytes (R441, R450), as a function nothing constrains. -/
opaque digest : List Nat → BitVec 384

/-- FREE VALUE (log entry 7): what SPDM measures at an index that no rule gives content (R450). -/
opaque measured : Nat → BitVec 384

end Sys2Proof.Config
end

