-- ==== Sys2Proof/Syntax.lean ====
section
/-!
DEFINITION. The syntax of the TL64: one constructor of `Instr` for each row of the opcode table. The first 157 are the
instructions of the opcode map (R200) with their operands as the chapters of the instructions give them; the other 96
are the device's events, whose operands name what the hardware, the firmware or the outside chooses.
-/
namespace Sys2Proof

/-! ### Operand kinds (R188) and common modifiers (R190) -/

/-- A predicate source: p0 to p14, 15 is pt, and its negate bit (R188). -/
structure PSrc where
  neg : Bool
  n : Fin 16
  deriving DecidableEq, Repr

/-- The header fields an instruction carries whatever it is: marker S and predicate (R184). -/
structure Hd where
  mark : Bool
  pr : PSrc
  deriving DecidableEq, Repr

/-- A vector register v0 to v383 (R47). -/
abbrev VReg := Fin 384
/-- A uniform register s0 to s127 (R47). -/
abbrev SReg := Fin 128
/-- A mask register m0 to m7 (R47). -/
abbrev MReg := Fin 8
/-- A predicate destination p0 to p14; 15 is pt, whose result is discarded (R188). -/
abbrev PReg := Fin 16

/-- A V operand: a vector register or a queue register (R188). -/
inductive VOp where
  | v (n : VReg)
  | q (n : Fin 8)
  deriving DecidableEq, Repr

/-- Source b of the classes VR, VS and VI (R186, R203). -/
inductive SrcB where
  | v (r : VOp)
  | s (r : SReg)
  | imm (i : BitVec 32)
  deriving DecidableEq, Repr

/-- Source b of an instruction that takes no q code. -/
inductive SrcV where
  | v (r : VReg)
  | s (r : SReg)
  | imm (i : BitVec 32)
  deriving DecidableEq, Repr

/-- Source b of the classes SR and SI (R186). -/
inductive SrcU where
  | s (r : SReg)
  | imm (i : BitVec 32)
  deriving DecidableEq, Repr

/-- Integer and untyped types (R190). -/
inductive IT where
  | b8 | b16 | b32 | b64 | b128 | s8 | s16 | s32 | s64 | n8 | n16 | n32 | n64
  deriving DecidableEq, Repr

/-- Floating types (R190). -/
inductive FT where
  | f16 | bf16 | f32 | f64
  deriving DecidableEq, Repr

/-- Narrow types (R190). -/
inductive NT where
  | f8a | f8b | t8 | f4 | i8
  deriving DecidableEq, Repr

/-- Rounding attributes as encoded (R68). -/
inductive RM where
  | rne | rtz | rup | rdn | rna | dyn
  deriving DecidableEq, Repr

/-- Scopes (R7, R190). -/
inductive Scope where
  | ln | wp | bk | gg | di | qd | wd | hs | dm
  deriving DecidableEq, Repr

/-- Compare codes of SCMP and ICMP (R225). -/
inductive Cmp where
  | eq | ne | lt | le | gt | ge
  deriving DecidableEq, Repr

/-- Compare codes of FCMP (R247). -/
inductive FCmp where
  | eq | ne | lt | le | gt | ge | num | nan
  deriving DecidableEq, Repr

/-- Operations of PBOOL (R237). -/
inductive BoolOp where
  | and | or | xor
  deriving DecidableEq, Repr

/-! ### Operands of the control page (R206 to R221) -/

/-- An instruction with no operand. -/
structure Plain where
  hd : Hd
  deriving DecidableEq, Repr

/-- BRA and CALL: the signed target offset in words (R188). -/
structure Br where
  hd : Hd
  off : BitVec 32
  deriving DecidableEq, Repr

/-- BRD: target and join offsets (R208). -/
structure Brd where
  hd : Hd
  toff : BitVec 32
  joff : BitVec 32
  deriving DecidableEq, Repr

/-- One uniform source. -/
structure Src1 where
  hd : Hd
  a : SReg
  deriving DecidableEq, Repr

/-- Barrier and count of BAR and ARRV (R214, R215). -/
inductive BarArg where
  | reg (bar cnt : SReg)
  | imm (bar : Fin 16) (cnt : BitVec 7)
  deriving DecidableEq, Repr

structure BarOp where
  hd : Hd
  arg : BarArg
  deriving DecidableEq, Repr

structure Arrv where
  hd : Hd
  d : SReg
  arg : BarArg
  deriving DecidableEq, Repr

/-- The barrier AWAIT names (R215). -/
inductive AwArg where
  | reg (bar : SReg)
  | imm (bar : Fin 16)
  deriving DecidableEq, Repr

structure Await where
  hd : Hd
  a : SReg
  arg : AwArg
  deriving DecidableEq, Repr

structure Trap where
  hd : Hd
  imm : BitVec 32
  deriving DecidableEq, Repr

/-- Destination of SRD (R220). -/
inductive SrdDst where
  | s (r : SReg)
  | v32 (r : VOp)
  | v64 (r : VOp)
  deriving DecidableEq, Repr

structure Srd where
  hd : Hd
  dst : SrdDst
  code : BitVec 8
  deriving DecidableEq, Repr

structure Srw where
  hd : Hd
  code : BitVec 8
  src : SrcU
  deriving DecidableEq, Repr

/-! ### Operands of the uniform, mask and vote page (R222 to R229) -/

structure UBin where
  hd : Hd
  ty : IT
  d : SReg
  a : SReg
  b : SrcU
  deriving DecidableEq, Repr

structure UMad where
  hd : Hd
  ty : IT
  d : SReg
  a : SReg
  b : SReg
  c : SReg
  deriving DecidableEq, Repr

structure USel where
  hd : Hd
  d : SReg
  a : SReg
  b : SReg
  q : PSrc
  deriving DecidableEq, Repr

structure UMov where
  hd : Hd
  d : SReg
  a : SReg
  deriving DecidableEq, Repr

/-- The immediate of SMOVI and MOVI: 32 bits with a type, or the 64-bit extension word (R224, R240). -/
inductive MovImm where
  | short (ty : IT) (imm : BitVec 32)
  | long (imm : BitVec 64)
  deriving DecidableEq, Repr

structure UMovi where
  hd : Hd
  d : SReg
  v : MovImm
  deriving DecidableEq, Repr

structure Scmp where
  hd : Hd
  ty : IT
  cmp : Cmp
  d : PReg
  a : SReg
  b : SrcU
  deriving DecidableEq, Repr

structure Sld where
  hd : Hd
  ty : IT
  d : SReg
  a : SReg
  off : SrcU
  deriving DecidableEq, Repr

structure MBin where
  hd : Hd
  d : MReg
  a : MReg
  b : MReg
  deriving DecidableEq, Repr

structure MUn where
  hd : Hd
  d : MReg
  a : MReg
  deriving DecidableEq, Repr

structure MCnt where
  hd : Hd
  d : SReg
  a : MReg
  hi : Bool
  deriving DecidableEq, Repr

structure Vote where
  hd : Hd
  d : MReg
  a : PSrc
  deriving DecidableEq, Repr

structure VoteP where
  hd : Hd
  d : PReg
  a : PSrc
  deriving DecidableEq, Repr

/-! ### Operands of the vector integer and address page (R230 to R241) -/

structure VBin where
  hd : Hd
  ty : IT
  d : VOp
  a : VOp
  b : SrcB
  sat : Bool
  deriving DecidableEq, Repr

structure VTri where
  hd : Hd
  ty : IT
  d : VOp
  a : VOp
  b : SrcB
  c : VOp
  left : Bool
  deriving DecidableEq, Repr

/-- IADDC (R231); with cien = 0 its field ci, which then names nothing, may hold any value (log entry 80). -/
structure Iaddc where
  hd : Hd
  ty : IT
  d : VOp
  a : VOp
  b : SrcB
  cien : Bool
  ci : PReg
  co : PReg
  deriving DecidableEq, Repr

structure VUn where
  hd : Hd
  ty : IT
  d : VOp
  a : VOp
  deriving DecidableEq, Repr

structure Lut3 where
  hd : Hd
  d : VOp
  a : VOp
  b : SrcB
  c : Fin 256
  lut : BitVec 8
  deriving DecidableEq, Repr

structure Icmp where
  hd : Hd
  ty : IT
  cmp : Cmp
  d : PReg
  a : VOp
  b : VOp
  c : PSrc
  deriving DecidableEq, Repr

structure Pbool where
  hd : Hd
  op1 : BoolOp
  op2 : BoolOp
  d : PReg
  a : PSrc
  b : PSrc
  c : PSrc
  deriving DecidableEq, Repr

structure Sel where
  hd : Hd
  ty : IT
  d : VOp
  a : VOp
  b : SrcB
  q : PSrc
  deriving DecidableEq, Repr

inductive MovSrc where
  | v (r : VOp)
  | s (r : SReg)
  deriving DecidableEq, Repr

structure Mov where
  hd : Hd
  ty : IT
  d : VOp
  src : MovSrc
  deriving DecidableEq, Repr

structure Movi where
  hd : Hd
  d : VOp
  v : MovImm
  deriving DecidableEq, Repr

structure Lea where
  hd : Hd
  ty : IT
  d : VOp
  a : VOp
  b : SrcB
  sh : Fin 8
  deriving DecidableEq, Repr

/-! ### Operands of the floating-point page (R242 to R262) -/

structure FBin where
  hd : Hd
  ft : FT
  rm : RM
  d : VOp
  a : VOp
  b : SrcB
  deriving DecidableEq, Repr

structure FFma where
  hd : Hd
  ft : FT
  nc : Bool
  rm : RM
  d : VOp
  a : VOp
  b : SrcB
  c : VOp
  deriving DecidableEq, Repr

structure FMinMax where
  hd : Hd
  ft : FT
  nan : Bool
  d : VOp
  a : VOp
  b : SrcB
  deriving DecidableEq, Repr

structure Fcmp where
  hd : Hd
  ft : FT
  u : Bool
  cmp : FCmp
  d : PReg
  a : VOp
  b : VOp
  c : PSrc
  deriving DecidableEq, Repr

/-- FCLASS, FGETX and the approximations. -/
structure FUn where
  hd : Hd
  ft : FT
  d : VOp
  a : VOp
  deriving DecidableEq, Repr

/-- FSQRT, and FRND with its .x bit. -/
structure FUnR where
  hd : Hd
  ft : FT
  rm : RM
  x : Bool
  d : VOp
  a : VOp
  deriving DecidableEq, Repr

structure F2f where
  hd : Hd
  dt : FT
  st : FT
  rm : RM
  d : VOp
  a : VOp
  deriving DecidableEq, Repr

/-- F2I (ft source, it destination) and I2F (ft destination, it source). -/
structure FIcvt where
  hd : Hd
  ft : FT
  it : IT
  rm : RM
  d : VOp
  a : VOp
  deriving DecidableEq, Repr

/-- The scale of CVTN and CVTW: a register, or a code of the extension word (R259). -/
inductive ScaleSrc where
  | v (r : VOp)
  | imm (c : BitVec 8)
  deriving DecidableEq, Repr

structure Cvt where
  hd : Hd
  nt : NT
  cs : Bool
  hi : Bool
  d : VOp
  a : VOp
  sc : ScaleSrc
  deriving DecidableEq, Repr

structure Fpstr where
  hd : Hd
  d : VOp
  clr : BitVec 6
  deriving DecidableEq, Repr

inductive FpstwSrc where
  | v (r : VOp)
  | imm (i : BitVec 6)
  deriving DecidableEq, Repr

structure Fpstw where
  hd : Hd
  src : FpstwSrc
  deriving DecidableEq, Repr

/-! ### Operands of the cross-lane page (R263 to R269) -/

inductive ShflMode where
  | idx | up | down | xor
  deriving DecidableEq, Repr

structure Shfl where
  hd : Hd
  ty : IT
  mode : ShflMode
  seg : BitVec 3
  d : VOp
  p : PReg
  a : VOp
  n : SrcB
  deriving DecidableEq, Repr

structure Perm where
  hd : Hd
  d : VOp
  a : VOp
  b : SrcB
  c : VOp
  deriving DecidableEq, Repr

/-- Integer operations of RDX and SCANX, codes 0 to 5 (R267). -/
inductive RdxI where
  | add | min | max | and | or | xor
  deriving DecidableEq, Repr

/-- Floating operations of RDX and SCANX, codes 8 to 10 (R267). -/
inductive RdxF where
  | add (rm : RM) | min | max
  deriving DecidableEq, Repr

inductive RdxOp where
  | i (op : RdxI) (ty : IT)
  | f (op : RdxF) (ft : FT)
  deriving DecidableEq, Repr

structure Rdx where
  hd : Hd
  op : RdxOp
  d : VOp
  a : VOp
  deriving DecidableEq, Repr

inductive MatchDst where
  | first (d : MReg)
  | all (d : PReg)
  deriving DecidableEq, Repr

structure MatchOp where
  hd : Hd
  ty : IT
  dst : MatchDst
  a : VOp
  b : MReg
  deriving DecidableEq, Repr

/-! ### Operands of the memory page (R270 to R297) -/

/-- Address forms (R270). -/
inductive MemAddr where
  | vr (a b : VReg) (sh : Fin 8)
  | vs (s : SReg) (a : VReg) (sh : Fin 8)
  | vi (a : VReg) (imm : BitVec 32)
  deriving DecidableEq, Repr

inductive Hint where
  | none | ev | nc
  deriving DecidableEq, Repr

/-- LD and ST: weak when `sc` is none, relaxed at the scope otherwise (R271). -/
structure LdSt where
  hd : Hd
  ty : IT
  d : VReg
  mem : MemAddr
  sc : Option Scope
  hint : Hint
  deriving DecidableEq, Repr

/-- LDA and STR. -/
structure LdaStr where
  hd : Hd
  ty : IT
  d : VReg
  mem : MemAddr
  sc : Scope
  hint : Hint
  deriving DecidableEq, Repr

/-- Operations of ATOM and RED (R279). -/
inductive AtomI where
  | add | min | max | and | or | xor | exch | cas | inc
  deriving DecidableEq, Repr

inductive AtomOp where
  | i (op : AtomI) (ty : IT)
  | fadd (ft : FT)
  deriving DecidableEq, Repr

/-- Orderings an access or fence names (R190). -/
inductive Ord where
  | rlx | acq | rel | ar | sc
  deriving DecidableEq, Repr

structure Atom where
  hd : Hd
  op : AtomOp
  ord : Ord
  sc : Scope
  d : VReg
  a : VReg
  b : VReg
  c : VReg
  off : BitVec 32
  deriving DecidableEq, Repr

structure Red where
  hd : Hd
  op : AtomOp
  ord : Ord
  sc : Scope
  a : VReg
  b : VReg
  off : BitVec 32
  deriving DecidableEq, Repr

structure Fence where
  hd : Hd
  ord : Ord
  sc : Scope
  deriving DecidableEq, Repr

inductive CctlOp where
  | il1 | evl2 | drep
  deriving DecidableEq, Repr

structure Cctl where
  hd : Hd
  op : CctlOp
  mem : MemAddr
  deriving DecidableEq, Repr

/-- PREF: into L2 only, or into L1 too (R284). -/
structure Pref where
  hd : Hd
  l1 : Bool
  mem : MemAddr
  deriving DecidableEq, Repr

structure Disc where
  hd : Hd
  mem : MemAddr
  deriving DecidableEq, Repr

/-- MWAIT; `d` is none under .nr (R286). -/
structure Mwait where
  hd : Hd
  d : Option VReg
  a : VReg
  v : SrcV
  sc : Scope
  deriving DecidableEq, Repr

inductive PwLen where
  | v (r : VReg)
  | imm (i : BitVec 32)
  deriving DecidableEq, Repr

structure Pwait where
  hd : Hd
  a : VReg
  len : PwLen
  deriving DecidableEq, Repr

/-- A V or S register. -/
inductive RegVS where
  | v (r : VReg)
  | s (r : SReg)
  deriving DecidableEq, Repr

structure Subs where
  hd : Hd
  size : Fin 5
  queue : Bool
  depth : Fin 8
  sc : Scope
  d : VReg
  a : VReg
  off : RegVS
  deriving DecidableEq, Repr

structure Unsub where
  hd : Hd
  d : VReg
  off : RegVS
  deriving DecidableEq, Repr

structure Spoll where
  hd : Hd
  d : VReg
  off : VReg
  deriving DecidableEq, Repr

structure Qcfg where
  hd : Hd
  q : Fin 8
  src : RegVS
  deriving DecidableEq, Repr

structure Qfence where
  hd : Hd
  mask : BitVec 32
  deriving DecidableEq, Repr

/-! ### Operands of the matrix, tile, copy, link, collective, random, grid and S-level pages (R298 to R340) -/

/-- Matrix formats (R308). -/
inductive MF where
  | f8a | f8b | t8 | f4 | i8 | f16 | bf16 | f32 | f64
  deriving DecidableEq, Repr

/-- A scale operand: first register and byte select (R83). -/
structure ScaleReg where
  r : VReg
  sel : BitVec 8
  deriving DecidableEq, Repr

structure Mloop where
  hd : Hd
  mf : MF
  rm : RM
  a : SReg
  sa : Option ScaleReg
  sb : Option ScaleReg
  zs : Bool
  opn : Bool
  deriving DecidableEq, Repr

structure Rinit where
  hd : Hd
  claim : Bool
  deriving DecidableEq, Repr

structure Rwait where
  hd : Hd
  tail : Bool
  deriving DecidableEq, Repr

inductive EpiAct where
  | none | relu | clamp
  deriving DecidableEq, Repr

structure Epi where
  hd : Hd
  a : SReg
  act : EpiAct
  scale : BitVec 8
  sc : Option Scope
  deriving DecidableEq, Repr

structure Tcopy where
  hd : Hd
  a : SReg
  q : Fin 4
  ver : Bool
  sc : Option Scope
  deriving DecidableEq, Repr

structure Tstore where
  hd : Hd
  a : SReg
  q : Fin 4
  sc : Option Scope
  deriving DecidableEq, Repr

structure Tcopym where
  hd : Hd
  a : SReg
  q : Fin 4
  mask : BitVec 4
  sc : Option Scope
  deriving DecidableEq, Repr

structure Slotret where
  hd : Hd
  mask : BitVec 4
  deriving DecidableEq, Repr

structure Gath where
  hd : Hd
  q : Bool
  a : SReg
  b : VReg
  deriving DecidableEq, Repr

/-- Directions of NBPUSH and NBPOP (R321). -/
inductive NbDir where
  | e | w | n | s | prev | next
  deriving DecidableEq, Repr

structure Nb where
  hd : Hd
  dir : NbDir
  v : VReg
  deriving DecidableEq, Repr

/-- Operations of COLL (R323). -/
inductive CollOp where
  | sum | max | min | gather | rsum | bcast
  deriving DecidableEq, Repr

inductive CollTy where
  | i (ty : IT)
  | f (ft : FT)
  deriving DecidableEq, Repr

structure Coll where
  hd : Hd
  op : CollOp
  ty : CollTy
  sc : Scope
  d : SReg
  a : SReg
  deriving DecidableEq, Repr

inductive CabortArg where
  | s (r : SReg)
  | imm (g : BitVec 16)
  deriving DecidableEq, Repr

structure Cabort where
  hd : Hd
  g : CabortArg
  deriving DecidableEq, Repr

structure Rngx where
  hd : Hd
  d : VReg
  a : VReg
  key : RegVS
  deriving DecidableEq, Repr

/-- Forms of RNGU (R327). -/
inductive RnguForm where
  | f32 | f64 | below (b : RegVS)
  deriving DecidableEq, Repr

/-- RNGU; `vs` is the class (VS when true) of the float forms, whose field b is zero in both. -/
structure Rngu where
  hd : Hd
  form : RnguForm
  vs : Bool
  d : VReg
  a : VReg
  deriving DecidableEq, Repr

/-- GRID and GWAIT. -/
structure GridOp where
  hd : Hd
  d : SReg
  a : SReg
  deriving DecidableEq, Repr

structure Mbxrd where
  hd : Hd
  d : SReg
  sel : SrcU
  deriving DecidableEq, Repr

inductive MbxArg where
  | reg (mbx val : SReg)
  | imm (mbx : Fin 32) (val : SReg)
  deriving DecidableEq, Repr

structure Mbxwr where
  hd : Hd
  arg : MbxArg
  deriving DecidableEq, Repr

structure Seqopen where
  hd : Hd
  d : SReg
  deriving DecidableEq, Repr

/-- SEQBIND, SEQEND and TLBI. -/
structure S2 where
  hd : Hd
  a : SReg
  b : SReg
  deriving DecidableEq, Repr

inductive HnoteArg where
  | reg (a : SReg)
  | imm (n : Fin 32)
  deriving DecidableEq, Repr

structure Hnote where
  hd : Hd
  arg : HnoteArg
  deriving DecidableEq, Repr

structure Wstate where
  hd : Hd
  d : SReg
  a : SReg
  code : SrcU
  deriving DecidableEq, Repr

/-- WRESUME (flag .skip) and WKILL (flag .warp). -/
structure S2f where
  hd : Hd
  a : SReg
  b : SReg
  flag : Bool
  deriving DecidableEq, Repr

/-! ### Operands of the device's events -/

/-- The two masters (R368). -/
inductive Master where
  | host | phiham
  deriving DecidableEq, Repr

/-- What firmware writes into one bind record (R378): die and index, and the words' fields. -/
structure BindWrite where
  die : Nat
  idx : Nat
  kind : Nat
  prio : Nat
  stage : Nat
  cluster : Nat
  coremap : List Nat
  handle : BitVec 64
  gx : Nat
  gy : Nat
  gz : Nat
  start : BitVec 64
  slink : Option (Nat × Nat)
  save : BitVec 64
  gate : Bool
  hdr : BitVec 64
  resv : Bool
  deriving DecidableEq, Repr

/-- Bytes that firmware writes to physical memory of a die under the world key (page tables, tables of the world). -/
structure PhysWrite where
  die : Nat
  pa : Nat
  bytes : List Byte
  deriving DecidableEq, Repr

/-- What firmware chooses at START (R364, R365): where the world's structures lie, the tables it builds, and where the
resident gangs go. -/
structure StartChoice where
  mbx : BitVec 64
  fq : BitVec 64
  hwt : BitVec 64
  info : BitVec 64
  tables : List PhysWrite
  place : List BindWrite
  deriving DecidableEq, Repr

/-- A register firmware or the host writes that has no row of its own (R357, R371, R397, R429, R447); of a vector's mask bit,
the host's write that sets it. -/
inductive RegName where
  | tblreg (die : Nat) | trcfg (die : Nat) | ladlecfg (die : Nat) | dlatchHold (die : Nat) | hbeatPeriod (world : Nat)
  | msixMask (world vec : Nat)
  deriving DecidableEq, Repr

/-- A world's function as a host port shows it (R371). -/
structure HostFn where
  world : Nat
  port : Nat
  deriving DecidableEq, Repr

/-- An access of a host to a world function's BAR0 (R371). -/
inductive HostAcc where
  | write (bytes : List Byte)
  | read (len : Nat)
  deriving DecidableEq, Repr

/-- Where an uncorrectable SRAM error strikes (R422). -/
inductive SramPlace where
  | ladle (gang : Nat) (hold : Nat)
  | core (run : Nat) (block : Nat)
  deriving DecidableEq, Repr

/-- A link of the package (R427). -/
inductive LinkName where
  | boundary (row : Bool) (ring : Nat) (pos : Nat) (second : Bool)
  | neighbour (c1 c2 : Nat)
  | port (n : Nat)
  deriving DecidableEq, Repr

/-- What an accepted Uliteby packet asks for (R158, R325, R449, R452). -/
inductive UlbBody where
  /-- a write: of a strong one its scope, and whether it carries a release (R158) -/
  | write (world : Nat) (asid : Nat) (addr : BitVec 64) (bytes : List Byte) (strong : Option (Scope × Bool))
  | read (world : Nat) (asid : Nat) (addr : BitVec 64) (len : Nat)
  /-- an atomic on one location: address, operation, operand and compare value; its scope, and whether it carries a release -/
  | atom (world : Nat) (asid : Nat) (addr : BitVec 64) (op : AtomOp) (b c : BitVec 128) (sc : Scope) (rel : Bool)
  /-- an instruction fetch of a 32-byte block (R401) -/
  | fetch (world : Nat) (asid : Nat) (addr : BitVec 64)
  /-- the access that this device sent by a port, in an epoch, under a number, has been performed -/
  | ack (port : Nat) (epochBit : Bool) (num : Nat)
  | coll (world : Nat) (group : BitVec 16) (attempt : BitVec 16) (rank : Nat) (sig : Nat) (data : List Byte)
  | abort (world : Nat) (group : BitVec 16) (attempt : BitVec 16)
  deriving DecidableEq, Repr

/-- The identity of a link key (R448): the domain secret, the source's node identifier, and the epoch it is derived from. -/
structure LinkKey where
  secret : BitVec 256
  node : Nat
  epoch : BitVec 32
  deriving DecidableEq, Repr

/-- A Uliteby packet as it arrives (R449): `key` is the key under which its tag is that of its bytes, if there is one. -/
structure UlbPacket where
  src : Nat
  port : Nat
  epochBit : Bool
  num : Nat
  key : Option LinkKey
  body : UlbBody
  deriving DecidableEq, Repr

/-- What a PTP message makes the servo do (R377). -/
structure PtpAct where
  offset : BitVec 32
  locked : Bool
  step : Nat
  deriving DecidableEq, Repr

/-- What self-test and configuration find at cold boot (R454). -/
structure BootFind where
  fwOk : Bool
  standbyOk : Bool
  birth : List (Nat × BitVec 16)
  tables : List (Nat × BitVec 64 × BitVec 64 × BitVec 64)
  linksDown : List LinkName
  /-- what fails the self-tests of step 3: places in HBM (die, address), and crucibles (die) -/
  badHbm : List (Nat × Nat) := []
  badCrucible : List Nat := []
  deriving DecidableEq, Repr

/-- A peer-window access on its way to its target block (R44). -/
structure PeerAcc where
  warp : Nat
  lane : Nat
  target : Nat
  off : Nat
  va : BitVec 64
  write : Option (List Byte)
  dst : Nat
  size : Nat
  deriving DecidableEq, Repr

/-! ### The instructions and events -/

/-- Every row of the opcode table. -/
inductive Instr where
  | nop (o : Plain)
  | bra (o : Br)
  | brd (o : Brd)
  | join (o : Plain)
  | call (o : Br)
  | ret (o : Plain)
  | jmpi (o : Src1)
  | exit (o : Plain)
  | bar (o : BarOp)
  | arrv (o : Arrv)
  | await (o : Await)
  | gbar (o : Plain)
  | yield (o : Plain)
  | trap (o : Trap)
  | bkpt (o : Plain)
  | segend (o : Plain)
  | srd (o : Srd)
  | srw (o : Srw)
  | sadd (o : UBin)
  | ssub (o : UBin)
  | smul (o : UBin)
  | smad (o : UMad)
  | sand (o : UBin)
  | sor (o : UBin)
  | sxor (o : UBin)
  | sshl (o : UBin)
  | sshr (o : UBin)
  | ssra (o : UBin)
  | smin (o : UBin)
  | smax (o : UBin)
  | ssel (o : USel)
  | smov (o : UMov)
  | smovi (o : UMovi)
  | scmp (o : Scmp)
  | sld (o : Sld)
  | mand (o : MBin)
  | mor (o : MBin)
  | mxor (o : MBin)
  | mnot (o : MUn)
  | mpopc (o : MCnt)
  | mfind (o : MCnt)
  | vote (o : Vote)
  | voteAny (o : VoteP)
  | voteAll (o : VoteP)
  | iadd (o : VBin)
  | iaddc (o : Iaddc)
  | isub (o : VBin)
  | imul (o : VBin)
  | imulh (o : VBin)
  | imad (o : VTri)
  | imadw (o : VTri)
  | imin (o : VBin)
  | imax (o : VBin)
  | iabs (o : VUn)
  | ineg (o : VUn)
  | vand (o : VBin)
  | vor (o : VBin)
  | vxor (o : VBin)
  | vnot (o : VUn)
  | lut3 (o : Lut3)
  | shl (o : VBin)
  | shr (o : VBin)
  | sra (o : VBin)
  | rot (o : VBin)
  | shf (o : VTri)
  | bfe (o : VBin)
  | bfi (o : VTri)
  | popc (o : VUn)
  | clz (o : VUn)
  | brev (o : VUn)
  | icmp (o : Icmp)
  | pbool (o : Pbool)
  | sel (o : Sel)
  | mov (o : Mov)
  | movi (o : Movi)
  | lea (o : Lea)
  | fadd (o : FBin)
  | fsub (o : FBin)
  | fmul (o : FBin)
  | ffma (o : FFma)
  | fmin (o : FMinMax)
  | fmax (o : FMinMax)
  | fcmp (o : Fcmp)
  | fclass (o : FUn)
  | fdiv (o : FBin)
  | fsqrt (o : FUnR)
  | frcp (o : FUn)
  | frsq (o : FUn)
  | fex2 (o : FUn)
  | flg2 (o : FUn)
  | fsin (o : FUn)
  | fcos (o : FUn)
  | frnd (o : FUnR)
  | fscale (o : FBin)
  | fgetx (o : FUn)
  | f2f (o : F2f)
  | f2i (o : FIcvt)
  | i2f (o : FIcvt)
  | pkfma (o : FFma)
  | pkadd (o : FBin)
  | pkmul (o : FBin)
  | cvtn (o : Cvt)
  | cvtw (o : Cvt)
  | fpstr (o : Fpstr)
  | fpstw (o : Fpstw)
  | shfl (o : Shfl)
  | perm (o : Perm)
  | bcast (o : VBin)
  | rdx (o : Rdx)
  | scanx (o : Rdx)
  | matchX (o : MatchOp)
  | ld (o : LdSt)
  | st (o : LdSt)
  | lda (o : LdaStr)
  | str (o : LdaStr)
  | atom (o : Atom)
  | red (o : Red)
  | fence (o : Fence)
  | cctl (o : Cctl)
  | pref (o : Pref)
  | disc (o : Disc)
  | mwait (o : Mwait)
  | pwait (o : Pwait)
  | subs (o : Subs)
  | unsub (o : Unsub)
  | spoll (o : Spoll)
  | qcfg (o : Qcfg)
  | qfence (o : Qfence)
  | mloop (o : Mloop)
  | mstep (o : Mloop)
  | rinit (o : Rinit)
  | rwait (o : Rwait)
  | epi (o : Epi)
  | tstore (o : Tstore)
  | tcopy (o : Tcopy)
  | tcopym (o : Tcopym)
  | slotret (o : Slotret)
  | gath (o : Gath)
  | nbpush (o : Nb)
  | nbpop (o : Nb)
  | coll (o : Coll)
  | cabort (o : Cabort)
  | rngx (o : Rngx)
  | rngu (o : Rngu)
  | grid (o : GridOp)
  | gwait (o : GridOp)
  | mbxrd (o : Mbxrd)
  | mbxwr (o : Mbxwr)
  | seqopen (o : Seqopen)
  | seqbind (o : S2)
  | seqend (o : S2)
  | hnote (o : Hnote)
  | wstate (o : Wstate)
  | wresume (o : S2f)
  | wkill (o : S2f)
  | tlbi (o : S2)
  | eret (o : Plain)
  | unassignedOpcode
  | fetchFault (protect : Bool)
  | runResultsReturned (w : Nat)
  | runCounterLimit (w : Nat)
  | waitConditionMet (w : Nat)
  | mwaitSatisfied (w lane : Nat)
  | presenceSet (blk line : Nat)
  | watchdog (w : Nat)
  | deferredFault (op : Nat)
  | faultPostWaiting (world : Nat)
  | mloopStep (op : Nat)
  | mloopComplete (op : Nat)
  | epiComplete (op : Nat)
  | copyComplete (op : Nat)
  | aonVersionRetry (op : Nat)
  | tcopyVerRetry (op : Nat)
  | streamReadAhead (blk eng : Nat)
  | streamStorePerform (blk eng : Nat)
  | push (sub : Nat)
  | peerAccessArrival (acc : PeerAcc)
  | blockRetire (blk : Nat)
  | gridComplete (grid : Nat)
  | waitStampSatisfied (grid k : Nat)
  | firmwarePlace (world : Nat) (recs : List BindWrite)
  | queueHeadBlock (world grid : Nat)
  | bindValidSet (die idx : Nat)
  | dispatchReserve (die idx : Nat)
  | bindGateClear (recs : List (Nat × Nat))
  | gangStart (die idx : Nat)
  | bindValidClear (die idx : Nat)
  | bindEvict (recs : List (Nat × Nat)) (saves : List (BitVec 64))
  | saveComplete (die idx : Nat)
  | shadowStart (die idx : Nat)
  | feedRecordAvailable (w : Nat)
  | feedExtentTaken (w : Nat)
  | fettlerCompare (gang warp seg : Nat)
  | arbiterStart (gang : Nat) (w : BindWrite)
  | pour (gang : Nat)
  | ladleWayFreed (w : Nat)
  | seqendRetire (world slot : Nat)
  | collPacket (world : Nat) (group attempt : BitVec 16) (rank sig : Nat) (data : List Byte)
  | collComplete (op : Nat)
  | collTimeout (op : Nat)
  | abortToken (world : Nat) (group attempt : BitVec 16)
  | cabortUnreachable (world : Nat) (group : BitVec 16) (rank : Nat)
  | tableWalk (die world asid core : Nat) (off : Nat)
  | contextEnd (world asid : Nat) (cause : BitVec 16)
  | pageEvict (world : Nat) (k : Nat)
  | pageReturn (world : Nat) (k : Nat)
  | pageMigrate (world : Nat) (k : Nat)
  | pageClearcnt (world : Nat) (k : Nat)
  | pagingComplete (world : Nat) (k : Nat)
  | delayedNotification (world : Nat)
  | hostWrite (fn : HostFn) (off : Nat) (bytes : List Byte)
  | msixUnmask (world vec : Nat)
  | worldAssign (m : Master) (world : Nat) (mask : BitVec 64) (port : Nat) (regs : List (Nat × BitVec 64 × BitVec 64 × BitVec 64))
  | worldRelease (m : Master) (world : Nat) (regs : List (Nat × BitVec 64 × BitVec 64 × BitVec 64))
  | worldStart (m : Master) (world : Nat) (img : BitVec 64) (len hdr : Nat) (ch : StartChoice)
  | worldReset (m : Master) (world : Nat)
  /-- STATUS is code 5; a code that no command has is answered too (R369) -/
  | worldStatus (m : Master) (code : Nat)
  | heatRead (m : Master) (world off : Nat)
  | crashlogRead (m : Master) (world off : Nat)
  | setcfg (m : Master) (world : Nat) (hi : BitVec 8) (lo : BitVec 32)
  | worldStop (world : Nat) (cause : BitVec 8)
  | dlatchLatchChange (die world : Nat)
  | scrubComplete (die : Nat)
  | dlatchHoldClear (die : Nat)
  | corestatFenceClear (die core : Nat)
  | secalmRaise (die det : Nat) (level : BitVec 2)
  | secalmTripClear (die : Nat) (bits : BitVec 10)
  | heartbeatBeat (world : Nat) (beat : BitVec 32) (inStream : Bool)
  | heartbeatTimeout (world : Nat)
  | registerWrite (reg : RegName) (val : BitVec 64)
  | detectorTrip (die det : Nat)
  | hbmUncorrectable (die pa : Nat)
  | dirtyLineError (die slice set way : Nat) (pa : Nat)
  | sramUncorrectable (place : SramPlace)
  | frameRetire (die frame : Nat) (cause : BitVec 2) (spare : Nat)
  | patrolScrub (die : Nat)
  | demeritDecay (die core : Nat)
  | ageingMeasure (cluster : Nat) (count : BitVec 16)
  | flitReplay (link : LinkName)
  | linkDown (link : LinkName)
  | routerWatchdog (die : Nat)
  | ulitebyPacket (p : UlbPacket)
  | epochAdvance (port : Nat)
  | hostTlp (fn : HostFn) (stream : Nat) (off : Nat) (acc : HostAcc)
  | ptpMessage (act : PtpAct)
  | getCertificate (slot : Nat)
  | challenge (nonce : BitVec 256)
  | getMeasurements (index : Nat) (signed : Bool)
  | keyExchange (world : Nat)
  | ideKm (world stream port : Nat)
  | domainSecretInstall (secret node : Nat)
  | coldBoot (find : BootFind)
  | detectorReadsNormal (die det : Nat)
  deriving DecidableEq, Repr

end Sys2Proof
end

