-- ==== Sys2Proof/WellFormed.lean ====
section
/-!
DEFINITION. What makes an instruction legal beyond the shape of its fields: the registers each instruction names
(R48, R188, R193), the type codes each accepts (R190 and each description), and the check `Instr.wf`. An instruction
word whose instruction is not well formed raises ILLOP (R201, steps 5 and 6).
-/
namespace Sys2Proof

/-- A register as the run rules count it (R193). -/
inductive Reg where
  | v (n : Nat) | q (n : Nat) | s (n : Nat) | p (n : Nat) | m (n : Nat) | fpcr
  deriving DecidableEq, Repr

/-- 32-bit registers an operand of the type takes (R48, R272). -/
def IT.words : IT → Nat
  | .b64 | .s64 | .n64 => 2
  | .b128 => 4
  | _ => 1

def IT.bytes : IT → Nat
  | .b8 | .s8 | .n8 => 1
  | .b16 | .s16 | .n16 => 2
  | .b32 | .s32 | .n32 => 4
  | .b64 | .s64 | .n64 => 8
  | .b128 => 16

/-- Operand width in bits. -/
def IT.bits (t : IT) : Nat := 8 * t.bytes

def IT.signed : IT → Bool
  | .s8 | .s16 | .s32 | .s64 => true
  | _ => false

def FT.words : FT → Nat
  | .f64 => 2
  | _ => 1

/-- A vector operand: the register, how many consecutive registers it takes, and whether it is read, written. -/
structure VRef where
  r : VOp
  words : Nat
  rd : Bool
  wr : Bool
  deriving DecidableEq, Repr

/-- Every register an instruction reads and writes, as its fields and its description name them (R193). -/
structure Regs where
  v : List VRef := []
  rd : List Reg := []
  wr : List Reg := []
  /-- vector ranges of which only the first register is checked (R194) -/
  ranges : List (Nat × Nat) := []
  deriving DecidableEq, Repr

def PSrc.regs (p : PSrc) : List Reg := if p.n.val = 15 then [] else [.p p.n.val]
def pDst (p : PReg) : List Reg := if p.val = 15 then [] else [.p p.val]
def rdV (r : VOp) (w : Nat) : VRef := ⟨r, w, true, false⟩
def wrV (r : VOp) (w : Nat) : VRef := ⟨r, w, false, true⟩
def rdR (r : VReg) (w : Nat) : VRef := ⟨.v r, w, true, false⟩
def wrR (r : VReg) (w : Nat) : VRef := ⟨.v r, w, false, true⟩

def SrcB.vrefs (b : SrcB) (w : Nat) : List VRef := match b with | .v r => [rdV r w] | _ => []
def SrcB.sregs : SrcB → List Reg | .s r => [.s r.val] | _ => []
def SrcV.vrefs (b : SrcV) (w : Nat) : List VRef := match b with | .v r => [rdR r w] | _ => []
def SrcV.sregs : SrcV → List Reg | .s r => [.s r.val] | _ => []
def SrcU.sregs : SrcU → List Reg | .s r => [.s r.val] | _ => []
def RegVS.vrefs (b : RegVS) (w : Nat) : List VRef := match b with | .v r => [rdR r w] | _ => []
def RegVS.sregs : RegVS → List Reg | .s r => [.s r.val] | _ => []
def BarArg.sregs : BarArg → List Reg | .reg a b => [.s a.val, .s b.val] | .imm _ _ => []

def MemAddr.vrefs : MemAddr → List VRef
  | .vr a b _ => [rdR a 2, rdR b 1]
  | .vs _ a _ => [rdR a 1]
  | .vi a _ => [rdR a 2]
def MemAddr.sregs : MemAddr → List Reg | .vs s _ _ => [.s s.val] | _ => []

/-- A run of n uniform registers from `a` (R298). -/
def sRun (a : SReg) (n : Nat) : List Reg := (List.range n).map fun i => .s (a.val + i)

def MovImm.words : MovImm → Nat
  | .short ty _ => ty.words
  | .long _ => 2

def RM.fpcr : RM → List Reg | .dyn => [.fpcr] | _ => []

/-- The predicate of the header. -/
def Instr.hd : Instr → Option Hd
  | .nop o => some o.hd
  | .bra o => some o.hd
  | .brd o => some o.hd
  | .join o => some o.hd
  | .call o => some o.hd
  | .ret o => some o.hd
  | .jmpi o => some o.hd
  | .exit o => some o.hd
  | .bar o => some o.hd
  | .arrv o => some o.hd
  | .await o => some o.hd
  | .gbar o => some o.hd
  | .yield o => some o.hd
  | .trap o => some o.hd
  | .bkpt o => some o.hd
  | .segend o => some o.hd
  | .srd o => some o.hd
  | .srw o => some o.hd
  | .sadd o => some o.hd
  | .ssub o => some o.hd
  | .smul o => some o.hd
  | .smad o => some o.hd
  | .sand o => some o.hd
  | .sor o => some o.hd
  | .sxor o => some o.hd
  | .sshl o => some o.hd
  | .sshr o => some o.hd
  | .ssra o => some o.hd
  | .smin o => some o.hd
  | .smax o => some o.hd
  | .ssel o => some o.hd
  | .smov o => some o.hd
  | .smovi o => some o.hd
  | .scmp o => some o.hd
  | .sld o => some o.hd
  | .mand o => some o.hd
  | .mor o => some o.hd
  | .mxor o => some o.hd
  | .mnot o => some o.hd
  | .mpopc o => some o.hd
  | .mfind o => some o.hd
  | .vote o => some o.hd
  | .voteAny o => some o.hd
  | .voteAll o => some o.hd
  | .iadd o => some o.hd
  | .iaddc o => some o.hd
  | .isub o => some o.hd
  | .imul o => some o.hd
  | .imulh o => some o.hd
  | .imad o => some o.hd
  | .imadw o => some o.hd
  | .imin o => some o.hd
  | .imax o => some o.hd
  | .iabs o => some o.hd
  | .ineg o => some o.hd
  | .vand o => some o.hd
  | .vor o => some o.hd
  | .vxor o => some o.hd
  | .vnot o => some o.hd
  | .lut3 o => some o.hd
  | .shl o => some o.hd
  | .shr o => some o.hd
  | .sra o => some o.hd
  | .rot o => some o.hd
  | .shf o => some o.hd
  | .bfe o => some o.hd
  | .bfi o => some o.hd
  | .popc o => some o.hd
  | .clz o => some o.hd
  | .brev o => some o.hd
  | .icmp o => some o.hd
  | .pbool o => some o.hd
  | .sel o => some o.hd
  | .mov o => some o.hd
  | .movi o => some o.hd
  | .lea o => some o.hd
  | .fadd o => some o.hd
  | .fsub o => some o.hd
  | .fmul o => some o.hd
  | .ffma o => some o.hd
  | .fmin o => some o.hd
  | .fmax o => some o.hd
  | .fcmp o => some o.hd
  | .fclass o => some o.hd
  | .fdiv o => some o.hd
  | .fsqrt o => some o.hd
  | .frcp o => some o.hd
  | .frsq o => some o.hd
  | .fex2 o => some o.hd
  | .flg2 o => some o.hd
  | .fsin o => some o.hd
  | .fcos o => some o.hd
  | .frnd o => some o.hd
  | .fscale o => some o.hd
  | .fgetx o => some o.hd
  | .f2f o => some o.hd
  | .f2i o => some o.hd
  | .i2f o => some o.hd
  | .pkfma o => some o.hd
  | .pkadd o => some o.hd
  | .pkmul o => some o.hd
  | .cvtn o => some o.hd
  | .cvtw o => some o.hd
  | .fpstr o => some o.hd
  | .fpstw o => some o.hd
  | .shfl o => some o.hd
  | .perm o => some o.hd
  | .bcast o => some o.hd
  | .rdx o => some o.hd
  | .scanx o => some o.hd
  | .matchX o => some o.hd
  | .ld o => some o.hd
  | .st o => some o.hd
  | .lda o => some o.hd
  | .str o => some o.hd
  | .atom o => some o.hd
  | .red o => some o.hd
  | .fence o => some o.hd
  | .cctl o => some o.hd
  | .pref o => some o.hd
  | .disc o => some o.hd
  | .mwait o => some o.hd
  | .pwait o => some o.hd
  | .subs o => some o.hd
  | .unsub o => some o.hd
  | .spoll o => some o.hd
  | .qcfg o => some o.hd
  | .qfence o => some o.hd
  | .mloop o => some o.hd
  | .mstep o => some o.hd
  | .rinit o => some o.hd
  | .rwait o => some o.hd
  | .epi o => some o.hd
  | .tstore o => some o.hd
  | .tcopy o => some o.hd
  | .tcopym o => some o.hd
  | .slotret o => some o.hd
  | .gath o => some o.hd
  | .nbpush o => some o.hd
  | .nbpop o => some o.hd
  | .coll o => some o.hd
  | .cabort o => some o.hd
  | .rngx o => some o.hd
  | .rngu o => some o.hd
  | .grid o => some o.hd
  | .gwait o => some o.hd
  | .mbxrd o => some o.hd
  | .mbxwr o => some o.hd
  | .seqopen o => some o.hd
  | .seqbind o => some o.hd
  | .seqend o => some o.hd
  | .hnote o => some o.hd
  | .wstate o => some o.hd
  | .wresume o => some o.hd
  | .wkill o => some o.hd
  | .tlbi o => some o.hd
  | .eret o => some o.hd
  | _ => none

def vbin (o : VBin) (wb wd : Nat) : Regs :=
  { v := [wrV o.d wd, rdV o.a o.ty.words] ++ o.b.vrefs wb, rd := o.b.sregs }
def vtri (o : VTri) (wb wc wd : Nat) : Regs :=
  { v := [wrV o.d wd, rdV o.a o.ty.words, rdV o.c wc] ++ o.b.vrefs wb, rd := o.b.sregs }
def ubin (o : UBin) : Regs := { rd := .s o.a.val :: o.b.sregs, wr := [.s o.d.val] }
def fbin (o : FBin) (wb : Nat) : Regs :=
  { v := [wrV o.d o.ft.words, rdV o.a o.ft.words] ++ o.b.vrefs wb, rd := .fpcr :: o.b.sregs }
def ffmaRegs (o : FFma) : Regs :=
  { v := [wrV o.d o.ft.words, rdV o.a o.ft.words, rdV o.c o.ft.words] ++ o.b.vrefs o.ft.words,
    rd := .fpcr :: o.b.sregs }
def fminmax (o : FMinMax) : Regs :=
  { v := [wrV o.d o.ft.words, rdV o.a o.ft.words] ++ o.b.vrefs o.ft.words, rd := .fpcr :: o.b.sregs }
def mloopRegs (o : Mloop) : Regs :=
  { v := (o.sa.toList ++ o.sb.toList).map (fun s => rdR s.r 1),
    rd := sRun o.a 6 ++ (if o.mf = .f64 then o.rm.fpcr else []) }
def mdst (m : MReg) : List Reg := [.m m.val]

/-- The registers of each instruction (R193); the header predicate is added by `Instr.allRegs`. -/
def Instr.regs : Instr → Regs
  | .jmpi o => { rd := [.s o.a.val] }
  | .bar o => { rd := o.arg.sregs }
  | .arrv o => { rd := o.arg.sregs, wr := [.s o.d.val] }
  | .await o => { rd := .s o.a.val :: (match o.arg with | .reg b => [.s b.val] | .imm _ => []) }
  | .srd o => match o.dst with
    | .s r => { wr := [.s r.val] }
    | .v32 r => { v := [wrV r 1] }
    | .v64 r => { v := [wrV r 2] }
  | .srw o => { rd := o.src.sregs, wr := if o.code = 0x10 then [.fpcr] else [] }
  | .sadd o | .ssub o | .smul o | .sand o | .sor o | .sxor o | .sshl o | .sshr o | .ssra o | .smin o | .smax o => ubin o
  | .smad o => { rd := [.s o.a.val, .s o.b.val, .s o.c.val], wr := [.s o.d.val] }
  | .ssel o => { rd := [.s o.a.val, .s o.b.val] ++ o.q.regs, wr := [.s o.d.val] }
  | .smov o => { rd := [.s o.a.val], wr := [.s o.d.val] }
  | .smovi o => { wr := [.s o.d.val] }
  | .scmp o => { rd := .s o.a.val :: o.b.sregs, wr := pDst o.d }
  | .sld o => { rd := .s o.a.val :: o.off.sregs, wr := [.s o.d.val] }
  | .mand o | .mor o | .mxor o => { rd := [.m o.a.val, .m o.b.val], wr := mdst o.d }
  | .mnot o => { rd := [.m o.a.val], wr := mdst o.d }
  | .mpopc o | .mfind o => { rd := [.m o.a.val], wr := [.s o.d.val] }
  | .vote o => { rd := o.a.regs, wr := mdst o.d }
  | .voteAny o | .voteAll o => { rd := o.a.regs, wr := pDst o.d }
  | .iadd o | .isub o | .imul o | .imulh o | .imin o | .imax o | .vand o | .vor o | .vxor o => vbin o o.ty.words o.ty.words
  | .shl o | .shr o | .sra o | .rot o | .bfe o => vbin o 1 o.ty.words
  | .bcast o => vbin o 1 o.ty.words
  | .imad o => vtri o o.ty.words o.ty.words o.ty.words
  | .imadw o => vtri o 1 2 2
  | .shf o | .bfi o => vtri o 1 o.ty.words o.ty.words
  | .iaddc o => { v := [wrV o.d o.ty.words, rdV o.a o.ty.words] ++ o.b.vrefs o.ty.words,
                  rd := o.b.sregs ++ (if o.cien then PSrc.regs ⟨false, o.ci⟩ else []), wr := pDst o.co }
  | .iabs o | .ineg o | .vnot o | .brev o => { v := [wrV o.d o.ty.words, rdV o.a o.ty.words] }
  | .popc o | .clz o => { v := [wrV o.d 1, rdV o.a o.ty.words] }
  | .lut3 o => { v := [wrV o.d 1, rdV o.a 1, rdR ⟨o.c.val, by omega⟩ 1] ++ o.b.vrefs 1, rd := o.b.sregs }
  | .icmp o => { v := [rdV o.a o.ty.words, rdV o.b o.ty.words], rd := o.c.regs, wr := pDst o.d }
  | .pbool o => { rd := o.a.regs ++ o.b.regs ++ o.c.regs, wr := pDst o.d }
  | .sel o => { v := [wrV o.d o.ty.words, rdV o.a o.ty.words] ++ o.b.vrefs o.ty.words, rd := o.b.sregs ++ o.q.regs }
  | .mov o => match o.src with
    | .v r => { v := [wrV o.d o.ty.words, rdV r o.ty.words] }
    | .s r => { v := [wrV o.d o.ty.words], rd := [.s r.val] }
  | .movi o => { v := [wrV o.d o.v.words] }
  | .lea o => { v := [wrV o.d 2, rdV o.a 2] ++ o.b.vrefs (if o.ty = .b64 then 2 else 1), rd := o.b.sregs }
  | .fadd o | .fsub o | .fmul o | .fdiv o | .pkadd o | .pkmul o => fbin o o.ft.words
  | .fscale o => fbin o 1
  | .ffma o | .pkfma o => ffmaRegs o
  | .fmin o | .fmax o => fminmax o
  | .fcmp o => { v := [rdV o.a o.ft.words, rdV o.b o.ft.words], rd := .fpcr :: o.c.regs, wr := pDst o.d }
  | .fclass o => { v := [wrV o.d 1, rdV o.a o.ft.words] }
  | .fgetx o => { v := [wrV o.d 1, rdV o.a o.ft.words], rd := [.fpcr] }
  | .frcp o | .frsq o | .fex2 o | .flg2 o | .fsin o | .fcos o => { v := [wrV o.d 1, rdV o.a 1], rd := [.fpcr] }
  | .fsqrt o | .frnd o => { v := [wrV o.d o.ft.words, rdV o.a o.ft.words], rd := [.fpcr] }
  | .f2f o => { v := [wrV o.d o.dt.words, rdV o.a o.st.words], rd := [.fpcr] }
  | .f2i o => { v := [wrV o.d o.it.words, rdV o.a o.ft.words], rd := [.fpcr] }
  | .i2f o => { v := [wrV o.d o.ft.words, rdV o.a o.it.words], rd := o.rm.fpcr }
  | .cvtn o => { v := [⟨o.d, 1, o.hi, true⟩, rdV o.a 4] ++
                   (match o.sc with | .v r => [⟨r, 1, !o.cs, true⟩] | .imm _ => []), rd := [.fpcr] }
  | .cvtw o => { v := [wrV o.d 4, rdV o.a 1] ++ (match o.sc with | .v r => [rdV r 1] | .imm _ => []), rd := [.fpcr] }
  | .fpstr o => { v := [wrV o.d 1] }
  | .fpstw o => { v := match o.src with | .v r => [rdV r 1] | .imm _ => [] }
  | .shfl o => { v := [wrV o.d o.ty.words, rdV o.a o.ty.words] ++ o.n.vrefs 1, rd := o.n.sregs, wr := pDst o.p }
  | .perm o => { v := [wrV o.d 1, rdV o.a 1, rdV o.c 1] ++ o.b.vrefs 1, rd := o.b.sregs }
  | .rdx o | .scanx o => match o.op with
    | .i _ ty => { v := [wrV o.d ty.words, rdV o.a ty.words] }
    | .f _ ft => { v := [wrV o.d ft.words, rdV o.a ft.words], rd := [.fpcr] }
  | .matchX o => { v := [rdV o.a o.ty.words], rd := [.m o.b.val],
                   wr := match o.dst with | .first d => mdst d | .all d => pDst d }
  | .ld o => { v := wrR o.d o.ty.words :: o.mem.vrefs, rd := o.mem.sregs }
  | .st o => { v := rdR o.d o.ty.words :: o.mem.vrefs, rd := o.mem.sregs }
  | .lda o => { v := wrR o.d o.ty.words :: o.mem.vrefs, rd := o.mem.sregs }
  | .str o => { v := rdR o.d o.ty.words :: o.mem.vrefs, rd := o.mem.sregs }
  | .atom o =>
    let w := match o.op with | .i _ ty => ty.words | .fadd ft => ft.words
    let cas := match o.op with | .i .cas _ => true | _ => false
    { v := [wrR o.d w, rdR o.a 2, rdR o.b w] ++ (if cas then [rdR o.c w] else []) }
  | .red o =>
    let w := match o.op with | .i _ ty => ty.words | .fadd ft => ft.words
    { v := [rdR o.a 2, rdR o.b w] }
  | .cctl o => { v := o.mem.vrefs, rd := o.mem.sregs }
  | .pref o => { v := o.mem.vrefs, rd := o.mem.sregs }
  | .disc o => { v := o.mem.vrefs, rd := o.mem.sregs }
  | .mwait o => { v := (o.d.toList.map fun d => wrR d 2) ++ [rdR o.a 2] ++ o.v.vrefs 2, rd := o.v.sregs }
  | .pwait o => { v := [rdR o.a 2] ++ (match o.len with | .v r => [rdR r 1] | .imm _ => []) }
  | .subs o => { v := [wrR o.d 1, rdR o.a 2] ++ o.off.vrefs 1, rd := o.off.sregs }
  | .unsub o => { v := wrR o.d 2 :: o.off.vrefs 1, rd := o.off.sregs }
  | .spoll o => { v := [wrR o.d 2, rdR o.off 1] }
  | .qcfg o => { v := o.src.vrefs 2, rd := o.src.sregs, wr := [.q o.q.val] }
  | .mloop o | .mstep o => mloopRegs o
  | .epi o => { rd := sRun o.a 8 }
  | .tcopy o => { rd := sRun o.a 10 }
  | .tstore o => { rd := sRun o.a 10 }
  | .tcopym o => { rd := sRun o.a 10 }
  | .gath o => { v := [rdR o.b 1], rd := sRun o.a 3 }
  | .nbpush o => { v := [rdR o.v 1] }
  | .nbpop o => { v := [wrR o.v 1] }
  | .coll o => { rd := sRun o.a 6, wr := [.s o.d.val] }
  | .cabort o => { rd := match o.g with | .s r => [.s r.val] | .imm _ => [] }
  | .rngx o => { v := [wrR o.d 1, rdR o.a 4] ++ o.key.vrefs 4,
                 rd := match o.key with | .s r => [.s r.val, .s (r.val + 1)] | .v _ => [], ranges := [(o.d.val, 8)] }
  | .rngu o =>
    let w := match o.form with | .f64 => 2 | _ => 1
    { v := [wrR o.d w, rdR o.a w] ++ (match o.form with | .below b => b.vrefs 1 | _ => []),
      rd := match o.form with | .below b => b.sregs | _ => [] }
  | .grid o | .gwait o => { rd := [.s o.a.val], wr := [.s o.d.val] }
  | .mbxrd o => { rd := o.sel.sregs, wr := [.s o.d.val] }
  | .mbxwr o => match o.arg with
    | .reg a b => { rd := [.s a.val, .s b.val] }
    | .imm _ a => { rd := [.s a.val] }
  | .seqopen o => { wr := [.s o.d.val] }
  | .seqbind o | .seqend o | .tlbi o => { rd := [.s o.a.val, .s o.b.val] }
  | .hnote o => { rd := match o.arg with | .reg a => [.s a.val] | .imm _ => [] }
  | .wstate o => { rd := .s o.a.val :: o.code.sregs, wr := [.s o.d.val] }
  | .wresume o | .wkill o => { rd := [.s o.a.val, .s o.b.val] }
  | .eret _ => { wr := [.s 2] }
  | _ => {}

/-- The 32-bit registers a vector operand covers. -/
def VRef.list (x : VRef) : List Reg :=
  match x.r with
  | .v n => (List.range x.words).map fun i => .v (n.val + i)
  | .q n => [.q n.val]

/-- Registers read: pairs and quads whole, and the header predicate (R193). -/
def Instr.readSet (i : Instr) : List Reg :=
  ((i.regs.v.filter (·.rd)).flatMap VRef.list) ++ i.regs.rd ++ (match i.hd with | some h => h.pr.regs | none => [])

/-- Registers written (R193). -/
def Instr.writeSet (i : Instr) : List Reg :=
  ((i.regs.v.filter (·.wr)).flatMap VRef.list) ++ i.regs.wr

/-- The q codes an instruction names (R188). -/
def Instr.qRefs (i : Instr) : List Nat :=
  i.regs.v.filterMap fun x => match x.r with | .q n => some n.val | .v _ => none

/-- A vector operand is aligned to its size and lies within v0 to v383; a q code is not for a 128-bit operand (R48, R188). -/
def VRef.ok (x : VRef) : Bool :=
  match x.r with
  | .v n => decide (n.val % (if x.words = 3 then 4 else x.words) = 0) && decide (n.val + x.words ≤ 384)
  | .q _ => decide (x.words ≤ 2)

def IT.six (t : IT) : Bool := decide (t ∈ [IT.s32, .n32, .b32, .s64, .n64, .b64])
def IT.four (t : IT) : Bool := decide (t ∈ [IT.s32, .n32, .s64, .n64])
def IT.bb (t : IT) : Bool := decide (t ∈ [IT.b32, .b64])
def IT.u3 (t : IT) : Bool := decide (t ∈ [IT.b64, .s64, .n64])
def SrcB.isImm : SrcB → Bool | .imm _ => true | _ => false
def SrcB.isV : SrcB → Bool | .v _ => true | _ => false
def SrcB.noImm (b : SrcB) : Bool := !b.isImm
/-- A VI control of BFE and BFI has bits 31:16 zero (R236). -/
def SrcB.ctlOk : SrcB → Bool | .imm i => decide (i.toNat < 65536) | .s _ => false | .v _ => true
/-- A VI immediate of a 16-bit type has bits 95:80 zero (R242). -/
def SrcB.fOk (ft : FT) : SrcB → Bool
  | .imm i => decide (ft = .f32 ∨ ft = .f64 ∨ i.toNat < 65536)
  | _ => true
def FT.wide (t : FT) : Bool := decide (t = .f32 ∨ t = .f64)
def FT.half (t : FT) : Bool := decide (t = .f16 ∨ t = .bf16)

def AtomOp.ok : AtomOp → Bool
  | .i .add t => t.six
  | .i .min t | .i .max t => t.four
  | .i .and t | .i .or t | .i .xor t => t.bb
  | .i .exch t | .i .cas t => decide (t ∈ [IT.b32, .b64, .b128])
  | .i .inc t => decide (t ∈ [IT.n32, .n64])
  | .fadd ft => decide (ft ≠ .f16)
def RdxOp.ok : RdxOp → Bool
  | .i .add t => t.six
  | .i .min t | .i .max t => t.four
  | .i _ t => t.bb
  | .f _ ft => ft.wide
def CollOp.ok (op : CollOp) (ty : CollTy) : Bool :=
  match op, ty with
  | .gather, .i t | .bcast, .i t => decide (t ∈ [IT.b8, .b16, .b32, .b64])
  | .gather, .f _ | .bcast, .f _ => false
  | _, .i t => t.four
  | _, .f ft => ft.wide
/-- The codes of R56. -/
def srCodes : List (BitVec 8) :=
  [0x00, 0x01, 0x02, 0x03, 0x04, 0x05, 0x06, 0x07, 0x08, 0x10, 0x11, 0x12, 0x18, 0x19, 0x1A, 0x1B, 0x1C, 0x1D, 0x20, 0x21]
/-- The codes SRW may write: FPCR and the S registers (R56, R57). -/
def srwCodes : List (BitVec 8) := [0x10, 0x18, 0x19, 0x1A, 0x1B, 0x1C, 0x1D]
def MF.narrow (m : MF) : Bool := decide (m ∈ [MF.f8a, .f8b, .t8, .f4, .i8])
def VOp.isV : VOp → Bool | .v _ => true | .q _ => false

def mloopOk (o : Mloop) : Bool :=
  decide (o.a.val ≤ 122) && (o.mf.narrow || (o.sa.isNone && o.sb.isNone)) && !(o.zs && decide (o.mf = .f64))
    && (decide (o.mf = .f64) || decide (o.rm = .rne))
def movImmOk (xt : Bool) : MovImm → Bool
  | .short ty _ => decide (ty = .b64 ∨ ty = .s64) || (if xt then decide (ty = .n64) else decide (ty = .b32))
  | .long _ => true
def scOk (sc : Option Scope) : Bool :=
  match sc with
  | none => true
  | some s => decide (s ∈ [Scope.gg, .di, .qd, .wd, .hs, .dm])
def cvtOk (o : Cvt) : Bool :=
  (!o.hi || decide (o.nt = .f4)) && (match o.sc with | .imm c => decide (c ≠ 255) && !o.cs | .v _ => true)

/-- The types and field values each instruction accepts. Events are not instruction words and always pass. -/
def Instr.fieldsOk : Instr → Bool
  | .bar o => match o.arg with | .imm _ c => decide (c.toNat ≤ 64) | _ => true
  | .arrv o => match o.arg with | .imm _ c => decide (c.toNat ≤ 64) | _ => true
  | .srd o => decide (o.code ∈ srCodes)
  | .srw o => decide (o.code ∈ srwCodes)
  | .sadd o | .ssub o | .smul o => o.ty.u3
  | .sand o | .sor o | .sxor o | .sshl o => decide (o.ty = .b64)
  | .sshr o => decide (o.ty = .b64 ∨ o.ty = .n64)
  | .ssra o => decide (o.ty = .s64)
  | .smin o | .smax o => decide (o.ty = .s64 ∨ o.ty = .n64)
  | .smad o => o.ty.u3
  | .smovi o => movImmOk true o.v
  | .scmp o => decide (o.ty = .s64 ∨ o.ty = .n64 ∨ (o.ty = .b64 ∧ (o.cmp = .eq ∨ o.cmp = .ne)))
  | .sld o => decide (o.ty ≠ .b128)
  | .mpopc o => !o.hi
  | .iadd o | .isub o => o.ty.six && !(o.sat && o.ty.bb)
  | .imul o => o.ty.six && !o.sat
  | .imulh o => o.ty.four && !o.sat && o.b.noImm
  | .imad o => o.ty.six && !o.left
  | .imadw o => decide (o.ty = .s32 ∨ o.ty = .n32) && !o.left && o.b.noImm
  | .iaddc o => decide (o.ty = .n32 ∨ o.ty = .n64) && o.b.noImm
  | .imin o | .imax o => o.ty.four && !o.sat
  | .iabs o | .ineg o => decide (o.ty = .s32 ∨ o.ty = .s64)
  | .vand o | .vor o | .vxor o | .shl o | .shr o | .rot o => o.ty.bb && !o.sat
  | .sra o => decide (o.ty = .s32 ∨ o.ty = .s64) && !o.sat
  | .vnot o | .popc o | .clz o | .brev o => o.ty.bb
  | .lut3 o => o.b.noImm
  | .shf o => o.ty.bb && o.b.noImm
  | .bfe o => o.ty.four && !o.sat && o.b.ctlOk
  | .bfi o => o.ty.bb && !o.left && o.b.ctlOk
  | .icmp o => o.ty.four || (o.ty.bb && decide (o.cmp = .eq ∨ o.cmp = .ne))
  | .sel o => o.ty.bb
  | .mov o => o.ty.bb
  | .movi o => movImmOk false o.v
  | .lea o => decide (o.ty ∈ [IT.s32, .n32, .b64])
  | .fadd o | .fsub o | .fmul o => o.b.fOk o.ft
  | .ffma o => o.b.noImm
  | .fmin o | .fmax o => o.b.noImm
  | .fcmp o => !(o.u && decide (o.cmp = .num ∨ o.cmp = .nan))
  | .fdiv o => o.ft.wide && o.b.isV
  | .fsqrt o => o.ft.wide && !o.x
  | .frcp o | .frsq o | .fex2 o | .flg2 o | .fsin o | .fcos o => decide (o.ft = .f32)
  | .fscale o => o.b.noImm
  | .f2f o => decide (o.dt ≠ o.st)
  | .f2i o => decide (o.it ∈ [IT.s8, .s16, .s32, .s64, .n8, .n16, .n32, .n64])
  | .i2f o => o.it.four
  | .pkfma o => o.ft.half && o.b.noImm
  | .pkadd o | .pkmul o => o.ft.half && o.b.noImm
  | .cvtn o => cvtOk o && o.a.isV
  | .cvtw o => cvtOk o && o.d.isV && !o.cs
  | .shfl o => o.ty.bb && decide (2 ^ o.seg.toNat ≤ Config.W)
  | .perm o => o.b.noImm
  | .bcast o => o.ty.bb && !o.sat && (match o.b with | .imm i => decide (i.toNat < Config.W) | _ => true)
  | .rdx o | .scanx o => o.op.ok
  | .matchX o => o.ty.bb
  | .st o => decide (o.hint ≠ .nc)
  | .str o => decide (o.hint ≠ .nc)
  | .atom o => o.op.ok && decide (o.ord ≠ .sc)
      && (match o.op with | .i .cas _ => true | _ => decide (o.c.val = 0))
  | .red o => o.op.ok && decide (o.ord = .rlx ∨ o.ord = .rel)
      && (match o.op with | .i .exch _ | .i .cas _ => false | _ => true)
  | .fence o => decide (o.ord = .acq ∨ o.ord = .rel ∨ o.ord = .sc)
  | .pwait o => match o.len with | .imm i => decide (i ≠ 0) | _ => true
  | .subs o => decide (o.sc ≠ .ln) && (o.queue || decide (o.depth.val = 0))
  | .qfence o => decide (o.mask.toNat < 2 ^ 21)
  | .mloop o | .mstep o => mloopOk o
  | .epi o => decide (o.a.val ≤ 120) && decide (o.scale ≠ 255)
  | .tcopy o => decide (o.a.val ≤ 118)
  | .tstore o => decide (o.a.val ≤ 118)
  | .tcopym o => decide (o.a.val ≤ 118)
  | .gath o => decide (o.a.val ≤ 125)
  | .coll o => decide (o.a.val ≤ 122) && o.op.ok o.ty && scOk (some o.sc)
  | .rngx o => decide (o.d.val % 8 = 0) && decide (o.d.val + 8 ≤ 384)
      && (match o.key with | .s r => decide (r.val ≤ 126) | .v _ => true)
  | .rngu o => match o.form with | .below (.s _) => o.vs | .below (.v _) => !o.vs | _ => true
  | .mbxrd o => match o.sel with | .imm i => decide (i &&& 0xFFFFFCE0#32 = 0) | .s _ => true
  | .wstate _ => true
  | _ => true

/-- Well formed: field values accepted, vector operands aligned and in range, no q code twice (R48, R187, R188). -/
def Instr.wf (i : Instr) : Bool :=
  i.fieldsOk && i.regs.v.all VRef.ok && decide i.qRefs.Nodup

end Sys2Proof
end

