-- ==== Sys2Proof/Decode.lean ====
section
/-!
DEFINITION. The instruction formats (R183 to R190), the opcode map (R200), the decoder and the encoder.
A word is read field by field; it decodes only when the instruction read encodes to that very word, so that a nonzero
unused field or a reserved code is rejected (R187, R190), and only when the instruction is well formed (R48, R188).
-/
namespace Sys2Proof

/-- The fields of an instruction word (R184, R187); `ext` is bits 95:64 or 127:64. -/
structure Raw where
  len : Nat
  s : Nat
  pred : Nat
  neg : Nat
  op : Nat
  cls : Nat
  dst : Nat
  a : Nat
  b : Nat
  c : Nat
  mod : Nat
  ext : Nat
  deriving DecidableEq, Repr

/-- The word: bit 0 is the least significant bit of the first byte (R183). -/
def Raw.word (r : Raw) : Nat :=
  r.len + 2 ^ 2 * r.s + 2 ^ 3 * r.pred + 2 ^ 7 * r.neg + 2 ^ 8 * r.op + 2 ^ 18 * r.cls + 2 ^ 21 * r.dst + 2 ^ 30 * r.a
    + 2 ^ 39 * r.b + 2 ^ 48 * r.c + 2 ^ 57 * r.mod + 2 ^ 64 * r.ext

/-- Bits hi:lo of a word, given lo and the width. -/
def bitsAt (w lo n : Nat) : Nat := w / 2 ^ lo % 2 ^ n

/-- The fields of a word. -/
def Raw.ofWord (w : Nat) : Raw :=
  { len := bitsAt w 0 2, s := bitsAt w 2 1, pred := bitsAt w 3 4, neg := bitsAt w 7 1, op := bitsAt w 8 10,
    cls := bitsAt w 18 3, dst := bitsAt w 21 9, a := bitsAt w 30 9, b := bitsAt w 39 9, c := bitsAt w 48 9,
    mod := bitsAt w 57 7, ext := bitsAt w 64 64 }

/-- The len code of each format class (R186). -/
def clsLen (cls : Nat) : Nat :=
  match cls with
  | 2 | 4 | 6 => 1
  | 7 => 2
  | _ => 0

/-- Bytes of an instruction by its len code (R184). -/
def lenBytes (len : Nat) : Nat :=
  match len with
  | 0 => 8
  | 1 => 12
  | _ => 16

/-! ### Codes of operands and modifiers -/

def VOp.code : VOp → Nat | .v n => n.val | .q n => 384 + n.val
def PSrc.code (p : PSrc) : Nat := p.n.val + 16 * p.neg.toNat
def IT.code : IT → Nat
  | .b8 => 0 | .b16 => 1 | .b32 => 2 | .b64 => 3 | .b128 => 4 | .s8 => 5 | .s16 => 6 | .s32 => 7 | .s64 => 8
  | .n8 => 9 | .n16 => 10 | .n32 => 11 | .n64 => 12
def FT.code : FT → Nat | .f16 => 0 | .bf16 => 1 | .f32 => 2 | .f64 => 3
def NT.code : NT → Nat | .f8a => 0 | .f8b => 1 | .t8 => 2 | .f4 => 3 | .i8 => 4
def RM.code : RM → Nat | .rne => 0 | .rtz => 1 | .rup => 2 | .rdn => 3 | .rna => 4 | .dyn => 7
def Scope.code : Scope → Nat
  | .ln => 1 | .wp => 2 | .bk => 3 | .gg => 4 | .di => 5 | .qd => 6 | .wd => 7 | .hs => 8 | .dm => 9
def scCode : Option Scope → Nat | none => 0 | some s => s.code
def Ord.code : Ord → Nat | .rlx => 1 | .acq => 2 | .rel => 3 | .ar => 4 | .sc => 5
def Cmp.code : Cmp → Nat | .eq => 0 | .ne => 1 | .lt => 2 | .le => 3 | .gt => 4 | .ge => 5
def FCmp.code : FCmp → Nat | .eq => 0 | .ne => 1 | .lt => 2 | .le => 3 | .gt => 4 | .ge => 5 | .num => 6 | .nan => 7
def BoolOp.code : BoolOp → Nat | .and => 0 | .or => 1 | .xor => 2
def ShflMode.code : ShflMode → Nat | .idx => 0 | .up => 1 | .down => 2 | .xor => 3
def RdxI.code : RdxI → Nat | .add => 0 | .min => 1 | .max => 2 | .and => 3 | .or => 4 | .xor => 5
def Hint.code : Hint → Nat | .none => 0 | .ev => 1 | .nc => 2
def AtomI.code : AtomI → Nat
  | .add => 0 | .min => 1 | .max => 2 | .and => 3 | .or => 4 | .xor => 5 | .exch => 6 | .cas => 7 | .inc => 8
def CctlOp.code : CctlOp → Nat | .il1 => 0 | .evl2 => 1 | .drep => 2
def MF.code : MF → Nat
  | .f8a => 0 | .f8b => 1 | .t8 => 2 | .f4 => 3 | .i8 => 4 | .f16 => 5 | .bf16 => 6 | .f32 => 7 | .f64 => 8
def EpiAct.code : EpiAct → Nat | .none => 0 | .relu => 1 | .clamp => 2
def NbDir.code : NbDir → Nat | .e => 0 | .w => 1 | .n => 2 | .s => 3 | .prev => 4 | .next => 5
def CollOp.code : CollOp → Nat | .sum => 0 | .max => 1 | .min => 2 | .gather => 3 | .rsum => 4 | .bcast => 5

/-! ### Reading codes. A code outside the range reads as some value, and the re-encoding check rejects it. -/

def sregOf (n : Nat) : SReg := Fin.ofNat 128 n
def vregOf (n : Nat) : VReg := Fin.ofNat 384 n
def pregOf (n : Nat) : PReg := Fin.ofNat 16 n
def mregOf (n : Nat) : MReg := Fin.ofNat 8 (n - 16)
def msrcOf (n : Nat) : MReg := Fin.ofNat 8 n
def vopOf (n : Nat) : VOp := if n < 384 then .v (vregOf n) else .q (Fin.ofNat 8 (n - 384))
def psrcOf (n : Nat) : PSrc := { neg := decide (n / 16 % 2 = 1), n := Fin.ofNat 16 n }
def itOf (n : Nat) : IT :=
  match n with
  | 0 => .b8 | 1 => .b16 | 2 => .b32 | 3 => .b64 | 4 => .b128 | 5 => .s8 | 6 => .s16 | 7 => .s32 | 8 => .s64
  | 9 => .n8 | 10 => .n16 | 11 => .n32 | _ => .n64
def ftOf (n : Nat) : FT := match n with | 0 => .f16 | 1 => .bf16 | 2 => .f32 | _ => .f64
def ntOf (n : Nat) : NT := match n with | 0 => .f8a | 1 => .f8b | 2 => .t8 | 3 => .f4 | _ => .i8
def rmOf (n : Nat) : RM := match n with | 0 => .rne | 1 => .rtz | 2 => .rup | 3 => .rdn | 4 => .rna | _ => .dyn
def scopeOf (n : Nat) : Scope :=
  match n with
  | 1 => .ln | 2 => .wp | 3 => .bk | 4 => .gg | 5 => .di | 6 => .qd | 7 => .wd | 8 => .hs | _ => .dm
def scOf (n : Nat) : Option Scope := if n = 0 then none else some (scopeOf n)
def ordOf (n : Nat) : Ord := match n with | 1 => .rlx | 2 => .acq | 3 => .rel | 4 => .ar | _ => .sc
def cmpOf (n : Nat) : Cmp := match n with | 0 => .eq | 1 => .ne | 2 => .lt | 3 => .le | 4 => .gt | _ => .ge
def fcmpOf (n : Nat) : FCmp :=
  match n with
  | 0 => .eq | 1 => .ne | 2 => .lt | 3 => .le | 4 => .gt | 5 => .ge | 6 => .num | _ => .nan
def boolOpOf (n : Nat) : BoolOp := match n with | 0 => .and | 1 => .or | _ => .xor
def shflOf (n : Nat) : ShflMode := match n with | 0 => .idx | 1 => .up | 2 => .down | _ => .xor
def rdxIOf (n : Nat) : RdxI := match n with | 0 => .add | 1 => .min | 2 => .max | 3 => .and | 4 => .or | _ => .xor
def hintOf (n : Nat) : Hint := match n with | 0 => .none | 1 => .ev | _ => .nc
def atomIOf (n : Nat) : AtomI :=
  match n with
  | 0 => .add | 1 => .min | 2 => .max | 3 => .and | 4 => .or | 5 => .xor | 6 => .exch | 7 => .cas | _ => .inc
def cctlOf (n : Nat) : CctlOp := match n with | 0 => .il1 | 1 => .evl2 | _ => .drep
def mfOf (n : Nat) : MF :=
  match n with
  | 0 => .f8a | 1 => .f8b | 2 => .t8 | 3 => .f4 | 4 => .i8 | 5 => .f16 | 6 => .bf16 | 7 => .f32 | _ => .f64
def actOf (n : Nat) : EpiAct := match n with | 0 => .none | 1 => .relu | _ => .clamp
def nbOf (n : Nat) : NbDir := match n with | 0 => .e | 1 => .w | 2 => .n | 3 => .s | 4 => .prev | _ => .next
def collOf (n : Nat) : CollOp := match n with | 0 => .sum | 1 => .max | 2 => .min | 3 => .gather | 4 => .rsum | _ => .bcast

/-! ### Building words -/

def rawOf (op cls : Nat) (h : Hd) (dst a b c mod ext : Nat) : Raw :=
  { len := clsLen cls, s := h.mark.toNat, pred := h.pr.n.val, neg := h.pr.neg.toNat, op := op, cls := cls,
    dst := dst, a := a, b := b, c := c, mod := mod, ext := ext }

/-- Classes VR, VS and VI by the kind of source b (R186). -/
def rawB (op : Nat) (h : Hd) (dst a : Nat) (b : SrcB) (c mod : Nat) : Raw :=
  match b with
  | .v r => rawOf op 0 h dst a r.code c mod 0
  | .s r => rawOf op 1 h dst a r.val c mod 0
  | .imm i => rawOf op 2 h dst a 0 c mod i.toNat

/-- Classes SR and SI by the kind of source b. -/
def rawU (op : Nat) (h : Hd) (dst a : Nat) (b : SrcU) (c mod : Nat) : Raw :=
  match b with
  | .s r => rawOf op 3 h dst a r.val c mod 0
  | .imm i => rawOf op 4 h dst a 0 c mod i.toNat

def rawVS (op : Nat) (h : Hd) (dst a : Nat) (b : RegVS) (c mod : Nat) : Raw :=
  match b with
  | .v r => rawOf op 0 h dst a r.val c mod 0
  | .s r => rawOf op 1 h dst a r.val c mod 0

def rawPlain (op : Nat) (o : Plain) : Raw := rawOf op 0 o.hd 0 0 0 0 0 0

/-- The address forms of R270: fields a and b, sh in mod 59:57, and the class. `hi` is mod 63:60. -/
def rawMem (op : Nat) (h : Hd) (dst : Nat) (m : MemAddr) (c hi : Nat) : Raw :=
  match m with
  | .vr a b sh => rawOf op 0 h dst a.val b.val c (8 * hi + sh.val) 0
  | .vs s a sh => rawOf op 1 h dst a.val s.val c (8 * hi + sh.val) 0
  | .vi a imm => rawOf op 2 h dst a.val 0 c (8 * hi) imm.toNat

def encBar (op : Nat) (h : Hd) (dst : Nat) (x : BarArg) : Raw :=
  match x with
  | .reg a b => rawOf op 3 h dst a.val b.val 0 0 0
  | .imm n c => rawOf op 4 h dst 0 0 0 0 (n.val + 2 ^ 8 * c.toNat)

def encUBin (op : Nat) (o : UBin) : Raw := rawU op o.hd o.d.val o.a.val o.b 0 (8 * o.ty.code)
def encVBin (op : Nat) (o : VBin) : Raw := rawB op o.hd o.d.code o.a.code o.b 0 (8 * o.ty.code + o.sat.toNat)
def encVTri (op : Nat) (o : VTri) : Raw := rawB op o.hd o.d.code o.a.code o.b o.c.code (8 * o.ty.code + o.left.toNat)
def encVUn (op : Nat) (o : VUn) : Raw := rawOf op 0 o.hd o.d.code o.a.code 0 0 (8 * o.ty.code) 0
def encMBin (op : Nat) (o : MBin) : Raw := rawOf op 5 o.hd (16 + o.d.val) o.a.val o.b.val 0 0 0
def encMCnt (op : Nat) (o : MCnt) : Raw := rawOf op 3 o.hd o.d.val o.a.val 0 0 o.hi.toNat 0
def encVoteP (op : Nat) (o : VoteP) : Raw := rawOf op 5 o.hd o.d.val o.a.code 0 0 0 0
def encFBin (op : Nat) (o : FBin) : Raw := rawB op o.hd o.d.code o.a.code o.b 0 (16 * o.ft.code + o.rm.code)
def encFFma (op : Nat) (o : FFma) : Raw :=
  rawB op o.hd o.d.code o.a.code o.b o.c.code (16 * o.ft.code + 8 * o.nc.toNat + o.rm.code)
def encFMinMax (op : Nat) (o : FMinMax) : Raw := rawB op o.hd o.d.code o.a.code o.b 0 (16 * o.ft.code + 8 * o.nan.toNat)
def encFUn (op : Nat) (o : FUn) : Raw := rawOf op 0 o.hd o.d.code o.a.code 0 0 (16 * o.ft.code) 0
def encFUnR (op : Nat) (o : FUnR) : Raw :=
  rawOf op 0 o.hd o.d.code o.a.code 0 0 (16 * o.ft.code + 8 * o.x.toNat + o.rm.code) 0
def encFI (op : Nat) (o : FIcvt) : Raw :=
  rawOf op 0 o.hd o.d.code o.a.code 0 o.it.code (16 * o.ft.code + o.rm.code) 0
def encCvt (op : Nat) (o : Cvt) : Raw :=
  match o.sc with
  | .v r => rawOf op 0 o.hd o.d.code o.a.code r.code o.hi.toNat (16 * o.nt.code + 8 * o.cs.toNat) 0
  | .imm c => rawOf op 7 o.hd o.d.code o.a.code 0 o.hi.toNat (16 * o.nt.code + 8 * o.cs.toNat) c.toNat
def encMov (op cls : Nat) (h : Hd) (d : Nat) (v : MovImm) : Raw :=
  match v with
  | .short ty i => rawOf op cls h d 0 0 0 (8 * ty.code) i.toNat
  | .long i => rawOf op 7 h d 0 0 0 (8 * IT.b64.code) i.toNat
def encRdx (op : Nat) (o : Rdx) : Raw :=
  match o.op with
  | .i k ty => rawOf op 0 o.hd o.d.code o.a.code 0 k.code (8 * ty.code) 0
  | .f (.add rm) ft => rawOf op 0 o.hd o.d.code o.a.code 0 8 (16 * ft.code + rm.code) 0
  | .f .min ft => rawOf op 0 o.hd o.d.code o.a.code 0 9 (16 * ft.code) 0
  | .f .max ft => rawOf op 0 o.hd o.d.code o.a.code 0 10 (16 * ft.code) 0
def encLdSt (op : Nat) (o : LdSt) : Raw :=
  rawMem op o.hd o.d.val o.mem (2 ^ 5 * scCode o.sc + 2 ^ 2 * (if o.sc.isSome then 1 else 0) + o.hint.code) o.ty.code
def encLdaStr (op ord : Nat) (o : LdaStr) : Raw :=
  rawMem op o.hd o.d.val o.mem (2 ^ 5 * o.sc.code + 2 ^ 2 * ord + o.hint.code) o.ty.code
def AtomOp.opc : AtomOp → Nat | .i k _ => k.code | .fadd _ => 9
def AtomOp.modc : AtomOp → Nat | .i _ t => 8 * t.code | .fadd ft => 16 * ft.code
def encMloop (op : Nat) (o : Mloop) : Raw :=
  let f (x : Option ScaleReg) : Nat := match x with | some s => s.r.val | none => 0
  let g (x : Option ScaleReg) : Nat := match x with | some s => s.sel.toNat | none => 0
  rawOf op 7 o.hd 0 o.a.val (f o.sa) (f o.sb) (8 * o.mf.code + o.rm.code)
    (g o.sa + 2 ^ 8 * g o.sb + 2 ^ 16 * o.sa.isSome.toNat + 2 ^ 17 * o.sb.isSome.toNat + 2 ^ 18 * o.zs.toNat
      + 2 ^ 19 * o.opn.toNat)
def encNb (op : Nat) (o : Nb) (push : Bool) : Raw :=
  if push then rawOf op 0 o.hd 0 o.v.val 0 0 o.dir.code 0 else rawOf op 0 o.hd o.v.val 0 0 0 o.dir.code 0
def encS2 (op : Nat) (o : S2) : Raw := rawOf op 3 o.hd 0 o.a.val o.b.val 0 0 0
def encS2f (op : Nat) (o : S2f) : Raw := rawOf op 3 o.hd 0 o.a.val o.b.val 0 o.flag.toNat 0
def encGridOp (op : Nat) (o : GridOp) : Raw := rawOf op 3 o.hd o.d.val o.a.val 0 0 0 0

/-- The encoding of every instruction (R200 and each description); an event has none. -/
def Instr.raw : Instr → Option Raw
  | .nop o => some (rawPlain 0x001 o)
  | .bra o => some (rawOf 0x002 6 o.hd 0 0 0 0 0 o.off.toNat)
  | .brd o => some (rawOf 0x003 7 o.hd 0 0 0 0 0 (o.toff.toNat + 2 ^ 32 * o.joff.toNat))
  | .join o => some (rawPlain 0x004 o)
  | .call o => some (rawOf 0x005 6 o.hd 0 0 0 0 0 o.off.toNat)
  | .ret o => some (rawPlain 0x006 o)
  | .jmpi o => some (rawOf 0x007 3 o.hd 0 o.a.val 0 0 0 0)
  | .exit o => some (rawPlain 0x008 o)
  | .bar o => some (encBar 0x009 o.hd 0 o.arg)
  | .arrv o => some (encBar 0x00A o.hd o.d.val o.arg)
  | .await o => some (match o.arg with
    | .reg b => rawOf 0x00B 3 o.hd 0 o.a.val b.val 0 0 0
    | .imm n => rawOf 0x00B 4 o.hd 0 o.a.val 0 0 0 n.val)
  | .gbar o => some (rawPlain 0x00C o)
  | .yield o => some (rawPlain 0x00D o)
  | .trap o => some (rawOf 0x00E 4 o.hd 0 0 0 0 0 o.imm.toNat)
  | .bkpt o => some (rawPlain 0x00F o)
  | .segend o => some (rawPlain 0x010 o)
  | .srd o => some (match o.dst with
    | .s r => rawOf 0x011 3 o.hd r.val o.code.toNat 0 0 0 0
    | .v32 r => rawOf 0x011 0 o.hd r.code o.code.toNat 0 0 (8 * 2) 0
    | .v64 r => rawOf 0x011 0 o.hd r.code o.code.toNat 0 0 (8 * 3) 0)
  | .srw o => some (rawU 0x012 o.hd 0 o.code.toNat o.src 0 0)
  | .sadd o => some (encUBin 0x040 o)
  | .ssub o => some (encUBin 0x041 o)
  | .smul o => some (encUBin 0x042 o)
  | .smad o => some (rawOf 0x043 3 o.hd o.d.val o.a.val o.b.val o.c.val (8 * o.ty.code) 0)
  | .sand o => some (encUBin 0x044 o)
  | .sor o => some (encUBin 0x045 o)
  | .sxor o => some (encUBin 0x046 o)
  | .sshl o => some (encUBin 0x047 o)
  | .sshr o => some (encUBin 0x048 o)
  | .ssra o => some (encUBin 0x049 o)
  | .smin o => some (encUBin 0x04A o)
  | .smax o => some (encUBin 0x04B o)
  | .ssel o => some (rawOf 0x04C 3 o.hd o.d.val o.a.val o.b.val o.q.code 0 0)
  | .smov o => some (rawOf 0x04D 3 o.hd o.d.val o.a.val 0 0 0 0)
  | .smovi o => some (encMov 0x04E 4 o.hd o.d.val o.v)
  | .scmp o => some (rawU 0x04F o.hd o.d.val o.a.val o.b 0 (8 * o.ty.code + o.cmp.code))
  | .sld o => some (rawU 0x050 o.hd o.d.val o.a.val o.off 0 (8 * o.ty.code))
  | .mand o => some (encMBin 0x058 o)
  | .mor o => some (encMBin 0x059 o)
  | .mxor o => some (encMBin 0x05A o)
  | .mnot o => some (rawOf 0x05B 5 o.hd (16 + o.d.val) o.a.val 0 0 0 0)
  | .mpopc o => some (encMCnt 0x05C o)
  | .mfind o => some (encMCnt 0x05D o)
  | .vote o => some (rawOf 0x060 5 o.hd (16 + o.d.val) o.a.code 0 0 0 0)
  | .voteAny o => some (encVoteP 0x061 o)
  | .voteAll o => some (encVoteP 0x062 o)
  | .iadd o => some (encVBin 0x080 o)
  | .iaddc o => some (rawB 0x081 o.hd o.d.code o.a.code o.b
      (o.co.val + 2 ^ 4 * o.ci.val + 2 ^ 8 * o.cien.toNat) (8 * o.ty.code))
  | .isub o => some (encVBin 0x082 o)
  | .imul o => some (encVBin 0x083 o)
  | .imulh o => some (encVBin 0x084 o)
  | .imad o => some (encVTri 0x085 o)
  | .imadw o => some (encVTri 0x086 o)
  | .imin o => some (encVBin 0x087 o)
  | .imax o => some (encVBin 0x088 o)
  | .iabs o => some (encVUn 0x089 o)
  | .ineg o => some (encVUn 0x08A o)
  | .vand o => some (encVBin 0x090 o)
  | .vor o => some (encVBin 0x091 o)
  | .vxor o => some (encVBin 0x092 o)
  | .vnot o => some (encVUn 0x093 o)
  | .lut3 o => some (rawB 0x094 o.hd o.d.code o.a.code o.b
      (o.c.val + 2 ^ 8 * (o.lut.toNat / 2 ^ 7)) (o.lut.toNat % 2 ^ 7))
  | .shl o => some (encVBin 0x098 o)
  | .shr o => some (encVBin 0x099 o)
  | .sra o => some (encVBin 0x09A o)
  | .rot o => some (encVBin 0x09B o)
  | .shf o => some (encVTri 0x09C o)
  | .bfe o => some (encVBin 0x09D o)
  | .bfi o => some (encVTri 0x09E o)
  | .popc o => some (encVUn 0x09F o)
  | .clz o => some (encVUn 0x0A0 o)
  | .brev o => some (encVUn 0x0A1 o)
  | .icmp o => some (rawOf 0x0A8 5 o.hd o.d.val o.a.code o.b.code o.c.code (8 * o.ty.code + o.cmp.code) 0)
  | .pbool o => some (rawOf 0x0A9 5 o.hd o.d.val o.a.code o.b.code o.c.code (2 ^ 5 * o.op1.code + 2 ^ 3 * o.op2.code) 0)
  | .sel o => some (rawB 0x0AA o.hd o.d.code o.a.code o.b o.q.code (8 * o.ty.code))
  | .mov o => some (match o.src with
    | .v r => rawOf 0x0AB 0 o.hd o.d.code r.code 0 0 (8 * o.ty.code) 0
    | .s r => rawOf 0x0AB 1 o.hd o.d.code 0 r.val 0 (8 * o.ty.code) 0)
  | .movi o => some (encMov 0x0AC 2 o.hd o.d.code o.v)
  | .lea o => some (rawB 0x0AD o.hd o.d.code o.a.code o.b 0 (8 * o.ty.code + o.sh.val))
  | .fadd o => some (encFBin 0x0C0 o)
  | .fsub o => some (encFBin 0x0C1 o)
  | .fmul o => some (encFBin 0x0C2 o)
  | .ffma o => some (encFFma 0x0C3 o)
  | .fmin o => some (encFMinMax 0x0C4 o)
  | .fmax o => some (encFMinMax 0x0C5 o)
  | .fcmp o => some (rawOf 0x0C6 5 o.hd o.d.val o.a.code o.b.code o.c.code (16 * o.ft.code + 8 * o.u.toNat + o.cmp.code) 0)
  | .fclass o => some (encFUn 0x0C7 o)
  | .fdiv o => some (encFBin 0x0C8 o)
  | .fsqrt o => some (encFUnR 0x0C9 o)
  | .frcp o => some (encFUn 0x0D0 o)
  | .frsq o => some (encFUn 0x0D1 o)
  | .fex2 o => some (encFUn 0x0D2 o)
  | .flg2 o => some (encFUn 0x0D3 o)
  | .fsin o => some (encFUn 0x0D4 o)
  | .fcos o => some (encFUn 0x0D5 o)
  | .frnd o => some (encFUnR 0x0D8 o)
  | .fscale o => some (encFBin 0x0D9 o)
  | .fgetx o => some (encFUn 0x0DA o)
  | .f2f o => some (rawOf 0x0E0 0 o.hd o.d.code o.a.code 0 o.st.code (16 * o.dt.code + o.rm.code) 0)
  | .f2i o => some (encFI 0x0E1 o)
  | .i2f o => some (encFI 0x0E2 o)
  | .pkfma o => some (encFFma 0x0E8 o)
  | .pkadd o => some (encFBin 0x0E9 o)
  | .pkmul o => some (encFBin 0x0EA o)
  | .cvtn o => some (encCvt 0x0F0 o)
  | .cvtw o => some (encCvt 0x0F1 o)
  | .fpstr o => some (rawOf 0x0F8 0 o.hd o.d.code 0 0 0 o.clr.toNat 0)
  | .fpstw o => some (match o.src with
    | .v r => rawOf 0x0F9 0 o.hd 0 r.code 0 0 0 0
    | .imm i => rawOf 0x0F9 2 o.hd 0 0 0 0 0 i.toNat)
  | .shfl o => some (rawB 0x100 o.hd o.d.code o.a.code o.n (o.seg.toNat + 2 ^ 3 * o.p.val) (8 * o.ty.code + 2 * o.mode.code))
  | .perm o => some (rawB 0x101 o.hd o.d.code o.a.code o.b o.c.code (8 * 2))
  | .bcast o => some (encVBin 0x102 o)
  | .rdx o => some (encRdx 0x103 o)
  | .scanx o => some (encRdx 0x104 o)
  | .matchX o => some (match o.dst with
    | .first d => rawOf 0x105 5 o.hd (16 + d.val) o.a.code o.b.val 0 (8 * o.ty.code) 0
    | .all d => rawOf 0x105 5 o.hd d.val o.a.code o.b.val 0 (8 * o.ty.code + 1) 0)
  | .ld o => some (encLdSt 0x140 o)
  | .st o => some (encLdSt 0x141 o)
  | .lda o => some (encLdaStr 0x142 2 o)
  | .str o => some (encLdaStr 0x143 3 o)
  | .atom o => some (rawOf 0x144 7 o.hd o.d.val o.a.val o.b.val o.c.val o.op.modc
      (o.sc.code + 2 ^ 4 * o.ord.code + 2 ^ 8 * o.op.opc + 2 ^ 32 * o.off.toNat))
  | .red o => some (rawOf 0x145 7 o.hd 0 o.a.val o.b.val 0 o.op.modc
      (o.sc.code + 2 ^ 4 * o.ord.code + 2 ^ 8 * o.op.opc + 2 ^ 32 * o.off.toNat))
  | .fence o => some (rawOf 0x146 0 o.hd 0 0 0 (2 ^ 5 * o.sc.code + 2 ^ 2 * o.ord.code) 0 0)
  | .cctl o => some (rawMem 0x147 o.hd 0 o.mem 0 o.op.code)
  | .pref o => some (rawMem 0x148 o.hd 0 o.mem 0 o.l1.toNat)
  | .disc o => some (rawMem 0x149 o.hd 0 o.mem 0 0)
  | .mwait o =>
    let d : Nat := match o.d with | some r => r.val | none => 0
    let c : Nat := 2 ^ 5 * o.sc.code + 2 ^ 2 * 2 + 2 * (if o.d.isSome then 0 else 1)
    some (match o.v with
    | .v r => rawOf 0x14A 0 o.hd d o.a.val r.val c 0 0
    | .s r => rawOf 0x14A 1 o.hd d o.a.val r.val c 0 0
    | .imm i => rawOf 0x14A 2 o.hd d o.a.val 0 c 0 i.toNat)
  | .pwait o => some (match o.len with
    | .v r => rawOf 0x14B 0 o.hd 0 o.a.val r.val 0 0 0
    | .imm i => rawOf 0x14B 2 o.hd 0 o.a.val 0 0 0 i.toNat)
  | .subs o => some (rawVS 0x14C o.hd o.d.val o.a.val o.off (2 ^ 5 * o.sc.code)
      (2 ^ 4 * o.size.val + 2 ^ 3 * o.queue.toNat + o.depth.val))
  | .unsub o => some (rawVS 0x14D o.hd o.d.val 0 o.off 0 0)
  | .spoll o => some (rawOf 0x14E 0 o.hd o.d.val 0 o.off.val 0 0 0)
  | .qcfg o => some (match o.src with
    | .v r => rawOf 0x14F 0 o.hd (384 + o.q.val) r.val 0 0 0 0
    | .s r => rawOf 0x14F 1 o.hd (384 + o.q.val) 0 r.val 0 0 0)
  | .qfence o => some (rawOf 0x150 2 o.hd 0 0 0 0 0 o.mask.toNat)
  | .mloop o => some (encMloop 0x180 o)
  | .mstep o => some (encMloop 0x181 o)
  | .rinit o => some (rawOf 0x182 4 o.hd 0 0 0 0 0 o.claim.toNat)
  | .rwait o => some (rawOf 0x183 4 o.hd 0 0 0 0 0 o.tail.toNat)
  | .epi o => some (rawOf 0x184 7 o.hd 0 o.a.val 0 0 0 (scCode o.sc + 2 ^ 8 * o.act.code + 2 ^ 16 * o.scale.toNat))
  | .tstore o => some (rawOf 0x188 7 o.hd 0 o.a.val 0 0 0 (scCode o.sc + 2 ^ 8 * o.q.val))
  | .tcopy o => some (rawOf 0x189 7 o.hd 0 o.a.val 0 0 0 (scCode o.sc + 2 ^ 8 * o.q.val + 2 ^ 10 * o.ver.toNat))
  | .tcopym o => some (rawOf 0x18A 7 o.hd 0 o.a.val 0 0 0 (scCode o.sc + 2 ^ 8 * o.q.val + 2 ^ 12 * o.mask.toNat))
  | .slotret o => some (rawOf 0x18B 4 o.hd 0 0 0 0 0 o.mask.toNat)
  | .gath o => some (rawOf 0x18C 7 o.hd 0 o.a.val o.b.val 0 0 o.q.toNat)
  | .nbpush o => some (encNb 0x1C0 o true)
  | .nbpop o => some (encNb 0x1C1 o false)
  | .coll o => some (match o.ty with
    | .i t => rawOf 0x1C2 7 o.hd o.d.val o.a.val 0 0 (8 * t.code) (o.sc.code + 2 ^ 8 * o.op.code)
    | .f t => rawOf 0x1C2 7 o.hd o.d.val o.a.val 0 0 (16 * t.code) (o.sc.code + 2 ^ 8 * o.op.code + 2 ^ 12))
  | .cabort o => some (match o.g with
    | .s r => rawOf 0x1C3 3 o.hd 0 r.val 0 0 0 0
    | .imm g => rawOf 0x1C3 4 o.hd 0 0 0 0 0 g.toNat)
  | .rngx o => some (rawVS 0x1C8 o.hd o.d.val o.a.val o.key 0 0)
  | .rngu o => some (match o.form with
    | .f32 => rawOf 0x1C9 o.vs.toNat o.hd o.d.val o.a.val 0 0 (2 ^ 4 * 2) 0
    | .f64 => rawOf 0x1C9 o.vs.toNat o.hd o.d.val o.a.val 0 0 (2 ^ 4 * 3) 0
    | .below b => rawVS 0x1C9 o.hd o.d.val o.a.val b 0 (2 ^ 3))
  | .grid o => some (encGridOp 0x1D0 o)
  | .gwait o => some (encGridOp 0x1D1 o)
  | .mbxrd o => some (match o.sel with
    | .s r => rawOf 0x1D2 3 o.hd o.d.val r.val 0 0 0 0
    | .imm i => rawOf 0x1D2 4 o.hd o.d.val 0 0 0 0 i.toNat)
  | .mbxwr o => some (match o.arg with
    | .reg a b => rawOf 0x1D3 3 o.hd 0 a.val b.val 0 0 0
    | .imm n a => rawOf 0x1D3 4 o.hd 0 a.val 0 0 0 n.val)
  | .seqopen o => some (rawOf 0x200 3 o.hd o.d.val 0 0 0 0 0)
  | .seqbind o => some (encS2 0x201 o)
  | .seqend o => some (encS2 0x202 o)
  | .hnote o => some (match o.arg with
    | .reg a => rawOf 0x203 3 o.hd 0 a.val 0 0 0 0
    | .imm n => rawOf 0x203 4 o.hd 0 0 0 0 0 n.val)
  | .wstate o => some (rawU 0x204 o.hd o.d.val o.a.val o.code 0 0)
  | .wresume o => some (encS2f 0x205 o)
  | .wkill o => some (encS2f 0x206 o)
  | .tlbi o => some (encS2 0x207 o)
  | .eret o => some (rawPlain 0x208 o)
  | _ => none

/-- The encoding as a word; an event has none. -/
def encode (i : Instr) : Option Nat := i.raw.map Raw.word

/-! ### Reading an instruction from the fields -/

def Raw.hd (r : Raw) : Hd := { mark := decide (r.s = 1), pr := { neg := decide (r.neg = 1), n := Fin.ofNat 16 r.pred } }
def Raw.imm (r : Raw) : BitVec 32 := BitVec.ofNat 32 r.ext
def Raw.srcB (r : Raw) : SrcB :=
  match r.cls with
  | 0 => .v (vopOf r.b)
  | 1 => .s (sregOf r.b)
  | _ => .imm r.imm
def Raw.srcU (r : Raw) : SrcU := if r.cls = 3 then .s (sregOf r.b) else .imm r.imm
def Raw.regVS (r : Raw) (f : Nat) : RegVS := if r.cls = 0 then .v (vregOf f) else .s (sregOf f)
def Raw.plain (r : Raw) : Plain := { hd := r.hd }
def Raw.br (r : Raw) : Br := { hd := r.hd, off := r.imm }
def Raw.barArg (r : Raw) : BarArg :=
  if r.cls = 3 then .reg (sregOf r.a) (sregOf r.b) else .imm (Fin.ofNat 16 r.ext) (BitVec.ofNat 7 (r.ext / 2 ^ 8))
def Raw.ubin (r : Raw) : UBin := { hd := r.hd, ty := itOf (r.mod / 8), d := sregOf r.dst, a := sregOf r.a, b := r.srcU }
def Raw.vbin (r : Raw) : VBin :=
  { hd := r.hd, ty := itOf (r.mod / 8), d := vopOf r.dst, a := vopOf r.a, b := r.srcB, sat := decide (r.mod % 8 = 1) }
def Raw.vtri (r : Raw) : VTri :=
  { hd := r.hd, ty := itOf (r.mod / 8), d := vopOf r.dst, a := vopOf r.a, b := r.srcB, c := vopOf r.c,
    left := decide (r.mod % 8 = 1) }
def Raw.vun (r : Raw) : VUn := { hd := r.hd, ty := itOf (r.mod / 8), d := vopOf r.dst, a := vopOf r.a }
def Raw.mbin (r : Raw) : MBin := { hd := r.hd, d := mregOf r.dst, a := msrcOf r.a, b := msrcOf r.b }
def Raw.mcnt (r : Raw) : MCnt := { hd := r.hd, d := sregOf r.dst, a := msrcOf r.a, hi := decide (r.mod = 1) }
def Raw.voteP (r : Raw) : VoteP := { hd := r.hd, d := pregOf r.dst, a := psrcOf r.a }
def Raw.fbin (r : Raw) : FBin :=
  { hd := r.hd, ft := ftOf (r.mod / 16), rm := rmOf (r.mod % 8), d := vopOf r.dst, a := vopOf r.a, b := r.srcB }
def Raw.ffma (r : Raw) : FFma :=
  { hd := r.hd, ft := ftOf (r.mod / 16), nc := decide (r.mod / 8 % 2 = 1), rm := rmOf (r.mod % 8), d := vopOf r.dst,
    a := vopOf r.a, b := r.srcB, c := vopOf r.c }
def Raw.fminmax (r : Raw) : FMinMax :=
  { hd := r.hd, ft := ftOf (r.mod / 16), nan := decide (r.mod / 8 % 2 = 1), d := vopOf r.dst, a := vopOf r.a, b := r.srcB }
def Raw.funU (r : Raw) : FUn := { hd := r.hd, ft := ftOf (r.mod / 16), d := vopOf r.dst, a := vopOf r.a }
def Raw.funR (r : Raw) : FUnR :=
  { hd := r.hd, ft := ftOf (r.mod / 16), rm := rmOf (r.mod % 8), x := decide (r.mod / 8 % 2 = 1), d := vopOf r.dst,
    a := vopOf r.a }
def Raw.fi (r : Raw) : FIcvt :=
  { hd := r.hd, ft := ftOf (r.mod / 16), it := itOf r.c, rm := rmOf (r.mod % 8), d := vopOf r.dst, a := vopOf r.a }
def Raw.cvt (r : Raw) : Cvt :=
  { hd := r.hd, nt := ntOf (r.mod / 16), cs := decide (r.mod / 8 % 2 = 1), hi := decide (r.c = 1), d := vopOf r.dst,
    a := vopOf r.a, sc := if r.cls = 7 then .imm (BitVec.ofNat 8 r.ext) else .v (vopOf r.b) }
def Raw.movImm (r : Raw) : MovImm :=
  if r.cls = 7 then .long (BitVec.ofNat 64 r.ext) else .short (itOf (r.mod / 8)) r.imm
def Raw.rdx (r : Raw) : Rdx :=
  let op : RdxOp := match r.c with
    | 8 => .f (.add (rmOf (r.mod % 8))) (ftOf (r.mod / 16))
    | 9 => .f .min (ftOf (r.mod / 16))
    | 10 => .f .max (ftOf (r.mod / 16))
    | k => .i (rdxIOf k) (itOf (r.mod / 8))
  { hd := r.hd, op := op, d := vopOf r.dst, a := vopOf r.a }
def Raw.mem (r : Raw) : MemAddr :=
  match r.cls with
  | 0 => .vr (vregOf r.a) (vregOf r.b) (Fin.ofNat 8 r.mod)
  | 1 => .vs (sregOf r.b) (vregOf r.a) (Fin.ofNat 8 r.mod)
  | _ => .vi (vregOf r.a) r.imm
def Raw.ldst (r : Raw) : LdSt :=
  { hd := r.hd, ty := itOf (r.mod / 8), d := vregOf r.dst, mem := r.mem, sc := scOf (r.c / 2 ^ 5), hint := hintOf (r.c % 4) }
def Raw.ldaStr (r : Raw) : LdaStr :=
  { hd := r.hd, ty := itOf (r.mod / 8), d := vregOf r.dst, mem := r.mem, sc := scopeOf (r.c / 2 ^ 5), hint := hintOf (r.c % 4) }
def Raw.atomOp (r : Raw) : AtomOp :=
  let k := r.ext / 2 ^ 8 % 16
  if k = 9 then .fadd (ftOf (r.mod / 16)) else .i (atomIOf k) (itOf (r.mod / 8))
def Raw.scale (on : Bool) (reg sel : Nat) : Option ScaleReg :=
  if on then some { r := vregOf reg, sel := BitVec.ofNat 8 sel } else none
def Raw.mloop (r : Raw) : Mloop :=
  { hd := r.hd, mf := mfOf (r.mod / 8), rm := rmOf (r.mod % 8), a := sregOf r.a,
    sa := Raw.scale (decide (r.ext / 2 ^ 16 % 2 = 1)) r.b r.ext,
    sb := Raw.scale (decide (r.ext / 2 ^ 17 % 2 = 1)) r.c (r.ext / 2 ^ 8),
    zs := decide (r.ext / 2 ^ 18 % 2 = 1), opn := decide (r.ext / 2 ^ 19 % 2 = 1) }
def Raw.sc (r : Raw) : Option Scope := scOf (r.ext % 16)
def Raw.gridOp (r : Raw) : GridOp := { hd := r.hd, d := sregOf r.dst, a := sregOf r.a }
def Raw.s2 (r : Raw) : S2 := { hd := r.hd, a := sregOf r.a, b := sregOf r.b }
def Raw.s2f (r : Raw) : S2f := { hd := r.hd, a := sregOf r.a, b := sregOf r.b, flag := decide (r.mod = 1) }

/-- Codes 0x001 to 0x03F: control. -/
def parseControl (r : Raw) : Option Instr :=
  match r.op with
  | 0x001 => some (.nop r.plain)
  | 0x002 => some (.bra r.br)
  | 0x003 => some (.brd { hd := r.hd, toff := r.imm, joff := BitVec.ofNat 32 (r.ext / 2 ^ 32) })
  | 0x004 => some (.join r.plain)
  | 0x005 => some (.call r.br)
  | 0x006 => some (.ret r.plain)
  | 0x007 => some (.jmpi { hd := r.hd, a := sregOf r.a })
  | 0x008 => some (.exit r.plain)
  | 0x009 => some (.bar { hd := r.hd, arg := r.barArg })
  | 0x00A => some (.arrv { hd := r.hd, d := sregOf r.dst, arg := r.barArg })
  | 0x00B => some (.await { hd := r.hd, a := sregOf r.a, arg := if r.cls = 3 then .reg (sregOf r.b) else .imm (Fin.ofNat 16 r.ext) })
  | 0x00C => some (.gbar r.plain)
  | 0x00D => some (.yield r.plain)
  | 0x00E => some (.trap { hd := r.hd, imm := r.imm })
  | 0x00F => some (.bkpt r.plain)
  | 0x010 => some (.segend r.plain)
  | 0x011 => some (.srd { hd := r.hd, code := BitVec.ofNat 8 r.a, dst := if r.cls = 3 then .s (sregOf r.dst) else if r.mod / 8 = 2 then .v32 (vopOf r.dst) else .v64 (vopOf r.dst) })
  | 0x012 => some (.srw { hd := r.hd, code := BitVec.ofNat 8 r.a, src := r.srcU })
  | _ => none

/-- Codes 0x040 to 0x07F: uniform, mask and vote. -/
def parseUniform (r : Raw) : Option Instr :=
  match r.op with
  | 0x040 => some (.sadd r.ubin)
  | 0x041 => some (.ssub r.ubin)
  | 0x042 => some (.smul r.ubin)
  | 0x043 => some (.smad { hd := r.hd, ty := itOf (r.mod / 8), d := sregOf r.dst, a := sregOf r.a, b := sregOf r.b, c := sregOf r.c })
  | 0x044 => some (.sand r.ubin)
  | 0x045 => some (.sor r.ubin)
  | 0x046 => some (.sxor r.ubin)
  | 0x047 => some (.sshl r.ubin)
  | 0x048 => some (.sshr r.ubin)
  | 0x049 => some (.ssra r.ubin)
  | 0x04A => some (.smin r.ubin)
  | 0x04B => some (.smax r.ubin)
  | 0x04C => some (.ssel { hd := r.hd, d := sregOf r.dst, a := sregOf r.a, b := sregOf r.b, q := psrcOf r.c })
  | 0x04D => some (.smov { hd := r.hd, d := sregOf r.dst, a := sregOf r.a })
  | 0x04E => some (.smovi { hd := r.hd, d := sregOf r.dst, v := r.movImm })
  | 0x04F => some (.scmp { hd := r.hd, ty := itOf (r.mod / 8), cmp := cmpOf (r.mod % 8), d := pregOf r.dst, a := sregOf r.a, b := r.srcU })
  | 0x050 => some (.sld { hd := r.hd, ty := itOf (r.mod / 8), d := sregOf r.dst, a := sregOf r.a, off := r.srcU })
  | 0x058 => some (.mand r.mbin)
  | 0x059 => some (.mor r.mbin)
  | 0x05A => some (.mxor r.mbin)
  | 0x05B => some (.mnot { hd := r.hd, d := mregOf r.dst, a := msrcOf r.a })
  | 0x05C => some (.mpopc r.mcnt)
  | 0x05D => some (.mfind r.mcnt)
  | 0x060 => some (.vote { hd := r.hd, d := mregOf r.dst, a := psrcOf r.a })
  | 0x061 => some (.voteAny r.voteP)
  | 0x062 => some (.voteAll r.voteP)
  | _ => none

/-- Codes 0x080 to 0x0BF: vector integer and address. -/
def parseVInt (r : Raw) : Option Instr :=
  match r.op with
  | 0x080 => some (.iadd r.vbin)
  | 0x081 => some (.iaddc { hd := r.hd, ty := itOf (r.mod / 8), d := vopOf r.dst, a := vopOf r.a, b := r.srcB, cien := decide (r.c / 2 ^ 8 % 2 = 1), ci := pregOf (r.c / 2 ^ 4), co := pregOf r.c })
  | 0x082 => some (.isub r.vbin)
  | 0x083 => some (.imul r.vbin)
  | 0x084 => some (.imulh r.vbin)
  | 0x085 => some (.imad r.vtri)
  | 0x086 => some (.imadw r.vtri)
  | 0x087 => some (.imin r.vbin)
  | 0x088 => some (.imax r.vbin)
  | 0x089 => some (.iabs r.vun)
  | 0x08A => some (.ineg r.vun)
  | 0x090 => some (.vand r.vbin)
  | 0x091 => some (.vor r.vbin)
  | 0x092 => some (.vxor r.vbin)
  | 0x093 => some (.vnot r.vun)
  | 0x094 => some (.lut3 { hd := r.hd, d := vopOf r.dst, a := vopOf r.a, b := r.srcB, c := Fin.ofNat 256 r.c, lut := BitVec.ofNat 8 (r.mod + 2 ^ 7 * (r.c / 2 ^ 8)) })
  | 0x098 => some (.shl r.vbin)
  | 0x099 => some (.shr r.vbin)
  | 0x09A => some (.sra r.vbin)
  | 0x09B => some (.rot r.vbin)
  | 0x09C => some (.shf r.vtri)
  | 0x09D => some (.bfe r.vbin)
  | 0x09E => some (.bfi r.vtri)
  | 0x09F => some (.popc r.vun)
  | 0x0A0 => some (.clz r.vun)
  | 0x0A1 => some (.brev r.vun)
  | 0x0A8 => some (.icmp { hd := r.hd, ty := itOf (r.mod / 8), cmp := cmpOf (r.mod % 8), d := pregOf r.dst, a := vopOf r.a, b := vopOf r.b, c := psrcOf r.c })
  | 0x0A9 => some (.pbool { hd := r.hd, op1 := boolOpOf (r.mod / 2 ^ 5), op2 := boolOpOf (r.mod / 2 ^ 3 % 4), d := pregOf r.dst, a := psrcOf r.a, b := psrcOf r.b, c := psrcOf r.c })
  | 0x0AA => some (.sel { hd := r.hd, ty := itOf (r.mod / 8), d := vopOf r.dst, a := vopOf r.a, b := r.srcB, q := psrcOf r.c })
  | 0x0AB => some (.mov { hd := r.hd, ty := itOf (r.mod / 8), d := vopOf r.dst, src := if r.cls = 0 then .v (vopOf r.a) else .s (sregOf r.b) })
  | 0x0AC => some (.movi { hd := r.hd, d := vopOf r.dst, v := r.movImm })
  | 0x0AD => some (.lea { hd := r.hd, ty := itOf (r.mod / 8), d := vopOf r.dst, a := vopOf r.a, b := r.srcB, sh := Fin.ofNat 8 r.mod })
  | _ => none

/-- Codes 0x0C0 to 0x13F: floating point, conversion and cross-lane. -/
def parseFloat (r : Raw) : Option Instr :=
  match r.op with
  | 0x0C0 => some (.fadd r.fbin)
  | 0x0C1 => some (.fsub r.fbin)
  | 0x0C2 => some (.fmul r.fbin)
  | 0x0C3 => some (.ffma r.ffma)
  | 0x0C4 => some (.fmin r.fminmax)
  | 0x0C5 => some (.fmax r.fminmax)
  | 0x0C6 => some (.fcmp { hd := r.hd, ft := ftOf (r.mod / 16), u := decide (r.mod / 8 % 2 = 1), cmp := fcmpOf (r.mod % 8), d := pregOf r.dst, a := vopOf r.a, b := vopOf r.b, c := psrcOf r.c })
  | 0x0C7 => some (.fclass r.funU)
  | 0x0C8 => some (.fdiv r.fbin)
  | 0x0C9 => some (.fsqrt r.funR)
  | 0x0D0 => some (.frcp r.funU)
  | 0x0D1 => some (.frsq r.funU)
  | 0x0D2 => some (.fex2 r.funU)
  | 0x0D3 => some (.flg2 r.funU)
  | 0x0D4 => some (.fsin r.funU)
  | 0x0D5 => some (.fcos r.funU)
  | 0x0D8 => some (.frnd r.funR)
  | 0x0D9 => some (.fscale r.fbin)
  | 0x0DA => some (.fgetx r.funU)
  | 0x0E0 => some (.f2f { hd := r.hd, dt := ftOf (r.mod / 16), st := ftOf r.c, rm := rmOf (r.mod % 8), d := vopOf r.dst, a := vopOf r.a })
  | 0x0E1 => some (.f2i r.fi)
  | 0x0E2 => some (.i2f r.fi)
  | 0x0E8 => some (.pkfma r.ffma)
  | 0x0E9 => some (.pkadd r.fbin)
  | 0x0EA => some (.pkmul r.fbin)
  | 0x0F0 => some (.cvtn r.cvt)
  | 0x0F1 => some (.cvtw r.cvt)
  | 0x0F8 => some (.fpstr { hd := r.hd, d := vopOf r.dst, clr := BitVec.ofNat 6 r.mod })
  | 0x0F9 => some (.fpstw { hd := r.hd, src := if r.cls = 0 then .v (vopOf r.a) else .imm (BitVec.ofNat 6 r.ext) })
  | 0x100 => some (.shfl { hd := r.hd, ty := itOf (r.mod / 8), mode := shflOf (r.mod / 2 % 4), seg := BitVec.ofNat 3 r.c, d := vopOf r.dst, p := pregOf (r.c / 2 ^ 3), a := vopOf r.a, n := r.srcB })
  | 0x101 => some (.perm { hd := r.hd, d := vopOf r.dst, a := vopOf r.a, b := r.srcB, c := vopOf r.c })
  | 0x102 => some (.bcast r.vbin)
  | 0x103 => some (.rdx r.rdx)
  | 0x104 => some (.scanx r.rdx)
  | 0x105 => some (.matchX { hd := r.hd, ty := itOf (r.mod / 8), a := vopOf r.a, b := msrcOf r.b, dst := if r.mod % 8 = 1 then .all (pregOf r.dst) else .first (mregOf r.dst) })
  | _ => none

/-- Codes 0x140 to 0x17F: memory, standing loads, queues. -/
def parseMem (r : Raw) : Option Instr :=
  match r.op with
  | 0x140 => some (.ld r.ldst)
  | 0x141 => some (.st r.ldst)
  | 0x142 => some (.lda r.ldaStr)
  | 0x143 => some (.str r.ldaStr)
  | 0x144 => some (.atom { hd := r.hd, op := r.atomOp, ord := ordOf (r.ext / 2 ^ 4 % 8), sc := scopeOf (r.ext % 16), d := vregOf r.dst, a := vregOf r.a, b := vregOf r.b, c := vregOf r.c, off := BitVec.ofNat 32 (r.ext / 2 ^ 32) })
  | 0x145 => some (.red { hd := r.hd, op := r.atomOp, ord := ordOf (r.ext / 2 ^ 4 % 8), sc := scopeOf (r.ext % 16), a := vregOf r.a, b := vregOf r.b, off := BitVec.ofNat 32 (r.ext / 2 ^ 32) })
  | 0x146 => some (.fence { hd := r.hd, ord := ordOf (r.c / 2 ^ 2 % 8), sc := scopeOf (r.c / 2 ^ 5) })
  | 0x147 => some (.cctl { hd := r.hd, op := cctlOf (r.mod / 8), mem := r.mem })
  | 0x148 => some (.pref { hd := r.hd, l1 := decide (r.mod / 8 = 1), mem := r.mem })
  | 0x149 => some (.disc { hd := r.hd, mem := r.mem })
  | 0x14A => some (.mwait { hd := r.hd, d := if r.c / 2 % 2 = 1 then none else some (vregOf r.dst), a := vregOf r.a, v := (match r.cls with | 0 => .v (vregOf r.b) | 1 => .s (sregOf r.b) | _ => .imm r.imm), sc := scopeOf (r.c / 2 ^ 5) })
  | 0x14B => some (.pwait { hd := r.hd, a := vregOf r.a, len := if r.cls = 0 then .v (vregOf r.b) else .imm r.imm })
  | 0x14C => some (.subs { hd := r.hd, size := Fin.ofNat 5 (r.mod / 2 ^ 4), queue := decide (r.mod / 2 ^ 3 % 2 = 1), depth := Fin.ofNat 8 r.mod, sc := scopeOf (r.c / 2 ^ 5), d := vregOf r.dst, a := vregOf r.a, off := r.regVS r.b })
  | 0x14D => some (.unsub { hd := r.hd, d := vregOf r.dst, off := r.regVS r.b })
  | 0x14E => some (.spoll { hd := r.hd, d := vregOf r.dst, off := vregOf r.b })
  | 0x14F => some (.qcfg { hd := r.hd, q := Fin.ofNat 8 (r.dst - 384), src := if r.cls = 0 then .v (vregOf r.a) else .s (sregOf r.b) })
  | 0x150 => some (.qfence { hd := r.hd, mask := r.imm })
  | _ => none

/-- Codes 0x180 to 0x1FF: matrix, tile, copy, link, collective, random, grid and mailbox. -/
def parseTensor (r : Raw) : Option Instr :=
  match r.op with
  | 0x180 => some (.mloop r.mloop)
  | 0x181 => some (.mstep r.mloop)
  | 0x182 => some (.rinit { hd := r.hd, claim := decide (r.ext = 1) })
  | 0x183 => some (.rwait { hd := r.hd, tail := decide (r.ext = 1) })
  | 0x184 => some (.epi { hd := r.hd, a := sregOf r.a, act := actOf (r.ext / 2 ^ 8 % 4), scale := BitVec.ofNat 8 (r.ext / 2 ^ 16), sc := r.sc })
  | 0x188 => some (.tstore { hd := r.hd, a := sregOf r.a, q := Fin.ofNat 4 (r.ext / 2 ^ 8), sc := r.sc })
  | 0x189 => some (.tcopy { hd := r.hd, a := sregOf r.a, q := Fin.ofNat 4 (r.ext / 2 ^ 8), ver := decide (r.ext / 2 ^ 10 % 2 = 1), sc := r.sc })
  | 0x18A => some (.tcopym { hd := r.hd, a := sregOf r.a, q := Fin.ofNat 4 (r.ext / 2 ^ 8), mask := BitVec.ofNat 4 (r.ext / 2 ^ 12), sc := r.sc })
  | 0x18B => some (.slotret { hd := r.hd, mask := BitVec.ofNat 4 r.ext })
  | 0x18C => some (.gath { hd := r.hd, q := decide (r.ext = 1), a := sregOf r.a, b := vregOf r.b })
  | 0x1C0 => some (.nbpush { hd := r.hd, dir := nbOf r.mod, v := vregOf r.a })
  | 0x1C1 => some (.nbpop { hd := r.hd, dir := nbOf r.mod, v := vregOf r.dst })
  | 0x1C2 => some (.coll { hd := r.hd, op := collOf (r.ext / 2 ^ 8 % 16), sc := scopeOf (r.ext % 16), d := sregOf r.dst, a := sregOf r.a, ty := if r.ext / 2 ^ 12 % 2 = 1 then .f (ftOf (r.mod / 16)) else .i (itOf (r.mod / 8)) })
  | 0x1C3 => some (.cabort { hd := r.hd, g := if r.cls = 3 then .s (sregOf r.a) else .imm (BitVec.ofNat 16 r.ext) })
  | 0x1C8 => some (.rngx { hd := r.hd, d := vregOf r.dst, a := vregOf r.a, key := r.regVS r.b })
  | 0x1C9 => some (.rngu { hd := r.hd, vs := decide (r.cls = 1), d := vregOf r.dst, a := vregOf r.a, form := if r.mod / 2 ^ 3 % 2 = 1 then .below (r.regVS r.b) else if r.mod / 2 ^ 4 = 2 then .f32 else .f64 })
  | 0x1D0 => some (.grid r.gridOp)
  | 0x1D1 => some (.gwait r.gridOp)
  | 0x1D2 => some (.mbxrd { hd := r.hd, d := sregOf r.dst, sel := if r.cls = 3 then .s (sregOf r.a) else .imm r.imm })
  | 0x1D3 => some (.mbxwr { hd := r.hd, arg := if r.cls = 3 then .reg (sregOf r.a) (sregOf r.b) else .imm (Fin.ofNat 32 r.ext) (sregOf r.a) })
  | _ => none

/-- Codes 0x200 to 0x23F: S level. -/
def parseS (r : Raw) : Option Instr :=
  match r.op with
  | 0x200 => some (.seqopen { hd := r.hd, d := sregOf r.dst })
  | 0x201 => some (.seqbind r.s2)
  | 0x202 => some (.seqend r.s2)
  | 0x203 => some (.hnote { hd := r.hd, arg := if r.cls = 3 then .reg (sregOf r.a) else .imm (Fin.ofNat 32 r.ext) })
  | 0x204 => some (.wstate { hd := r.hd, d := sregOf r.dst, a := sregOf r.a, code := r.srcU })
  | 0x205 => some (.wresume r.s2f)
  | 0x206 => some (.wkill r.s2f)
  | 0x207 => some (.tlbi r.s2)
  | 0x208 => some (.eret r.plain)
  | _ => none

/-- The instruction the opcode and fields name, whatever its unused bits; none for an unassigned opcode (R200). -/
def parse (r : Raw) : Option Instr :=
  match r.op / 64 with
  | 0 => parseControl r
  | 1 => parseUniform r
  | 2 => parseVInt r
  | 3 | 4 => parseFloat r
  | 5 => parseMem r
  | 6 | 7 => parseTensor r
  | 8 => parseS r
  | _ => none

/-- Why a word is no instruction; each raises ILLOP (R201, steps 1, 3, 4, 5 and 6). -/
inductive DecErr where
  /-- len = 11 -/
  | len
  /-- an unassigned opcode -/
  | opcode
  /-- a class, field, modifier or register code the instruction does not accept -/
  | field
  deriving DecidableEq, Repr

/-- Decode a word whose bits above the instruction are zero. -/
def decodeWord (w : Nat) : Except DecErr Instr :=
  let r := Raw.ofWord w
  if r.len = 3 then .error .len
  else match parse r with
    | none => .error .opcode
    | some i => if encode i = some w ∧ i.wf = true then .ok i else .error .field

/-- A little-endian number from its bytes (R183). -/
def leNat : List Byte → Nat
  | [] => 0
  | b :: t => b.toNat + 256 * leNat t

/-- The n low bytes of a number, least significant first. -/
def leBytes : Nat → Nat → List Byte
  | 0, _ => []
  | n + 1, v => BitVec.ofNat 8 v :: leBytes n (v / 256)

/-- Decode the instruction at the head of a list of bytes, with the rest of the list; total on any bytes. -/
def decodeBytes (bs : List Byte) : Except DecErr (Instr × List Byte) :=
  match bs with
  | [] => .error .len
  | b :: _ =>
    let n := lenBytes (b.toNat % 4)
    if bs.length < n then .error .len
    else match decodeWord (leNat (bs.take n)) with
      | .ok i => .ok (i, bs.drop n)
      | .error e => .error e

/-- The bytes of an instruction (R183). -/
def encodeBytes (i : Instr) : Option (List Byte) := i.raw.map fun r => leBytes (lenBytes r.len) r.word

/-- The instruction the decoder reads from the table's bits, laid out in memory with zeros above. -/
def decodeTableWord (nbits w : Nat) : Option Instr :=
  match decodeBytes (leBytes 16 (w % 2 ^ nbits)) with
  | .ok (i, _) => some i
  | .error _ => none

/-- Length in bytes of an encoded instruction. -/
def Instr.len (i : Instr) : Nat := match i.raw with | some r => lenBytes r.len | none => 0

end Sys2Proof
end

