-- ==== Sys2Proof/Machine/State.lean ====
section
/-!
DEFINITION. The state of the TL64 as plain data: warps, blocks, runs, gangs, grids, worlds, dies, rings, engine
operations, standing loads, memory and the device's management state. Keys of the tables:
a core is die·16 + core; a run (one placed execution of a gang) has a fresh number; a block is run·4 + index; a warp is
block·64 + index; a grid is world·2^48 + the number its handle holds in bits 63:16; a gang is grid·2^32 + linear index.
-/
namespace Sys2Proof.Machine

/-- Nothing raises a machine fault: every fault of the spec is a state (R60), so the meanings are total. -/
inductive Fault where
  /-- Never raised. Safe. -/
  | none
  deriving DecidableEq, Repr

/-- Why a step can be refused. -/
inductive Refusal where
  /-- Raised by an arm of `exec` whose instruction has no meaning yet. Safe: the machine stops. -/
  | notModelled (mnemonic : String)
  deriving DecidableEq, Repr

/-! ### Happens-before (R131 to R140) -/

/-- An instance of a scope (R131), as it stood when an access was performed: the scope, and the block, gang, die, quad or
world that it is about. -/
structure Inst where
  sc : Scope
  id : Nat
  deriving DecidableEq, Repr

/-- What is known to happen before (R135, R140): of each agent the last turn of its events; of each byte, by its line's
identity·128 + offset, the turn as of which it was read. Agents are warps (by number), engine queues, streams, host ports and the device (`Agent`). -/
structure View where
  clock : Tab Nat := []
  seen : Tab Nat := []
  deriving DecidableEq, Repr

/-- A release that a strong write carries (R138): its warp, the instances that must hold the acquiring warp, and what it
orders. -/
structure Rel where
  warp : Nat
  insts : List Inst
  view : View
  deriving DecidableEq, Repr

/-- The last strong write of a byte (R132, R137): size, warp it acts for, agent, turn, its scope's instance, and the releases
it carries: its own, those of release fences before it, and of the release sequence that it ends (R138); and what happens
before it, itself with it (R140). -/
structure Msg where
  size : Nat
  warp : Nat
  agent : Nat
  turn : Nat
  inst : Inst
  rels : List Rel
  view : View := {}
  deriving DecidableEq, Repr

/-- The strong writes of a byte: the last write, when it is strong; every release whose release sequence a read-modify-write
would go on (R138); and of each size and agent the turn of the last strong write (R137). -/
structure ByteMsg where
  last : Option Msg := none
  rels : List Rel := []
  strong : List (Nat × Nat × Nat) := []
  deriving DecidableEq, Repr

/-- A strong read's finding, for the acquire fence after it (R138, R140): the write's warp, agent and turn, whether the two
are morally strong, the releases that the read may take, and what happens before the write. -/
structure Obs where
  warp : Nat
  agent : Nat
  turn : Nat
  strong : Bool
  rels : List Rel
  view : View := {}
  deriving DecidableEq, Repr

/-- What a push brings with its bytes (R151): the turn of the write that caused it, and the releases that write carries. -/
structure PushMsg where
  turn : Nat := 0
  rels : List Rel := []
  deriving DecidableEq, Repr

/-- A standing-load entry as it was filled (R151): the target's line and covered bytes, the push, and the subscription's
scope. -/
structure EntMsg where
  line : Nat
  pos : Nat
  size : Nat
  msg : PushMsg
  sc : Scope
  deriving DecidableEq, Repr

/-! ### Warps -/

/-- Kinds of reconvergence-stack entries (R35). -/
inductive EntKind where
  | path | join | ret
  deriving DecidableEq, Repr

/-- A reconvergence-stack entry (R35). -/
structure StackEntry where
  kind : EntKind
  addr : DWord
  mask : Mask
  deriving DecidableEq, Repr

/-- The fault record (R56, R58, R60). -/
structure FaultRec where
  fpc : DWord := 0
  fcause : DWord := 0
  faddr : DWord := 0
  flanesl : DWord := 0
  flanesh : DWord := 0
  rprog : DWord := 0
  deriving DecidableEq, Repr

/-- What a marker park waits for beyond the results of its run (R192 and the descriptions). -/
inductive ParkCond where
  /-- nothing more -/
  | results
  /-- QFENCE: the operations the warp issued into the masked queues before number `upTo` (R297) -/
  | queues (mask : BitVec 32) (upTo : Nat)
  /-- SUBS: push 0 of the block's subscriptions up to this one has landed (R290) -/
  | pushes (upTo : Nat)
  /-- CABORT: every member accepted or was reported unreachable (R325) -/
  | tokens (group : BitVec 16)
  /-- TLBI: the engine operations, the held writes (gang, hold number) and the pushed stream elements (block, engine, number)
  translated through the entries that match, the turn of the drop, and those of the entries that had been dropped before: die,
  turn, context, leaf (R339, R417) -/
  | drops (ops : List Nat) (held : List (Nat × Nat)) (pushed : List (Nat × Nat × Nat)) (turn : Nat)
      (before : List (Nat × Nat × Nat × Nat))
  deriving DecidableEq, Repr

/-- What a waiting warp waits for (R39). Unless the kind says otherwise the instruction issues again when the condition
holds. -/
inductive Wait where
  /-- an absent scratchpad line of a block (R98), and the address that reached it -/
  | line (blk line : Nat) (addr : DWord)
  /-- PWAIT: of each lane its address and its scratchpad lines, given as block·2^20 + line (R288) -/
  | pwait (lanes : List (DWord × List Nat))
  /-- MWAIT: address and value of each lane; the lanes done are in `Ctl.mwDone`, their words in `Ctl.mwWords` (R287) -/
  | mwait (addrs vals : Tab DWord) (sc : Scope)
  /-- BAR: the phase the warp arrived in (R214) -/
  | bar (bar : Nat) (phase : Nat)
  /-- AWAIT (R215) -/
  | await (bar : Nat) (phase : Nat)
  /-- GBAR: the phase the warp arrived in (R216) -/
  | gbar (phase : Nat)
  /-- a queue register's engine with fewer than `n` elements (R296) -/
  | queue (engine n : Nat)
  /-- a queue register's full store engine, which holds `n` elements or more (R296) -/
  | room (engine n : Nat)
  /-- QCFG: a store engine with elements not performed (R295) -/
  | drain (engine : Nat)
  /-- TCOPYM: the peers whose free-slot counters must be nonzero (R117) -/
  | slots (peers : BitVec 4)
  /-- RWAIT .head or .tail (R307) -/
  | rwait (tail : Bool)
  /-- RINIT (R306) -/
  | rinit
  /-- MLOOP: the head slot empty (R310); EPI: the tail slot not empty (R313) -/
  | ringHead
  | ringTail
  /-- a load from a ring slot being filled (R96) -/
  | ringFill (slot : Nat)
  /-- NBPOP of a direction (R322) -/
  | nbpop (dir : Nat)
  /-- NBPUSH into the FIFO `dir` of a block (R322) -/
  | nbpush (blk dir : Nat)
  /-- GWAIT of a handle (R329) -/
  | gwait (handle : DWord)
  /-- a held write that finds no Ladle way under STALL (R177) -/
  | ladle
  /-- room for a record of so many bytes in the feed log (R170); 0: for the records that wait before it -/
  | extent (need : Nat)
  /-- a feed-log record of the primary (R342) -/
  | record
  /-- ATOM.rel or GRID of a checked primary: held writes below this hold number (R176) -/
  | pour (hold : Nat)
  /-- a core and a die between which no path is left (R427), and the address accessed -/
  | route (core die : Nat) (addr : DWord)
  /-- a release at .dm: accesses to other devices not yet acknowledged (R158) -/
  | remote
  /-- ERET: an undelivered fault-queue entry; the warp continues after the ERET (R340) -/
  | eret
  deriving DecidableEq, Repr

/-- What a warp is doing. -/
inductive WStatus where
  | exited
  | ready
  | parked (c : ParkCond)
  | waiting (w : Wait)
  /-- parked at the recorded fault (R60, R301) -/
  | faulted
  /-- stopped with its grid (R46) or world (R366) -/
  | stopped
  deriving DecidableEq, Repr

/-- How a handler resolved a fault (R303, R337, R338). -/
inductive Resolution where
  | retry | skip | kill
  deriving DecidableEq, Repr

/-- One instruction of the current run, as the run rules see it (R193). -/
structure RunItem where
  addr : DWord
  reads : List Reg
  writes : List Reg
  side : Bool
  deriving DecidableEq, Repr

/-- A deferred fault the device holds behind the recorded one (R302). -/
structure HeldFault where
  op : Nat
  frec : FaultRec
  deriving DecidableEq, Repr

/-- The registers of a warp. -/
structure WRegs where
  /-- V[v][l] at key v·128 + l (R47) -/
  v : Tab Word := []
  /-- s0 to s127 (R49) -/
  s : Tab DWord := []
  /-- p0 to p14 as lane masks -/
  p : Tab Mask := []
  /-- m0 to m7 (R51) -/
  m : Tab Mask := []
  /-- FPSR of each lane (R53) -/
  fpsr : Tab (BitVec 6) := []
  /-- FPCR (R52) -/
  fpcr : Word := 0
  deriving DecidableEq, Repr

/-- The rest of a warp's state. -/
structure Ctl where
  pc : DWord := 0
  launched : Mask := 0
  /-- lanes that executed EXIT (R51) -/
  exitedLanes : Mask := 0
  /-- the run counter (R55); at 16 the warp no longer issues and parks -/
  runCnt : Fin 17 := 0
  runLog : List RunItem := []
  /-- vector registers the run's instructions wrote, as they stood before the run, lane by lane (R194) -/
  runOld : Tab (List Word) := []
  status : WStatus := .exited
  fault : FaultRec := {}
  /-- the operation of a recorded deferred fault (R301) -/
  deferred : Option Nat := none
  held : List HeldFault := []
  /-- the QFENCE park in which a deferred fault was recorded, which goes on after its resolution (R297, R301) -/
  parkedIn : Option ParkCond := none
  /-- parked at a fault: FPC, or the continue address of a deferred fault (R301); else the address of the last instruction
  issued -/
  contPc : DWord := 0
  /-- the lanes that an instruction still runs, on a retry (R62) or with peer accesses already performed (R44); none means all -/
  retry : Option Mask := none
  /-- the precise fault was taken at an instruction of R274: a retry runs the lanes of FLANES only (R62) -/
  memFault : Bool := false
  /-- it was parked at its fault when its grid stopped (R456) -/
  stoppedAt : Bool := false
  /-- .skip is refused: the precise fault's instruction has no known length (R303) -/
  noLen : Bool := false
  /-- a pending resolution of a saved warp (R390) -/
  pending : Option Resolution := none
  epoch : Nat := 0
  /-- die·16 + core on which the warp started (R392) -/
  home : Nat := 0
  alloc : Nat := 0
  role : Nat := 0
  roleIdx : Nat := 0
  /-- queue bindings: 0 unbound, e + 1 bound to stream engine e of the block (R54) -/
  qbind : Tab Nat := []
  /-- the phase in which the warp's BAR or GBAR has arrived, while it waits (R214, R216) -/
  arrived : Option Nat := none
  mwDone : Mask := 0
  mwWords : Tab DWord := []
  /-- when the wait began, moved on by time spent saved (R394) -/
  waitFrom : Option Nat := none
  /-- issue order: the turn of the last issue (R31) -/
  lastIssue : Nat := 0
  /-- L1 lines filled before this turn are missed (R99) -/
  acq : Nat := 0
  /-- what happens before the warp's next event (R140) -/
  view : View := {}
  /-- its release fences, the last of each scope: they order what precedes them before later strong writes (R138) -/
  rels : List Rel := []
  /-- findings of its strong reads, for a later acquire fence (R138, R140) -/
  obs : List Obs := []
  /-- instructions issued, for the feed log's segment ends -/
  issued : Nat := 0
  /-- the open segment: signature, number, lines written (R165, R168) -/
  sig : DWord := 0
  seg : Nat := 0
  lines : Nat := 0
  /-- turn of the segment's first event, or 0 (R180) -/
  segFirst : Nat := 0
  /-- engine CRC sums by segment (R167) -/
  engSig : Tab DWord := []
  /-- of a primary that took over: it behaves as a copy below this count of instructions, which the primary before it had
  performed (R181) -/
  copyTo : Nat := 0
  /-- the turn at which the fault was recorded (R456) -/
  faultAt : Nat := 0
  /-- the recorded fault is posted, or waits to be (R182) -/
  posted : Bool := false
  /-- a copy runs only the lanes that the primary had performed before its fault (R182): no segment ends there -/
  partly : Bool := false
  /-- next feed-log record to append or take (R169) -/
  logPos : Nat := 0
  /-- a wait for held writes below this hold number is over; 0: none (R176) -/
  poured : Nat := 0
  /-- the fault-queue entry a handler holds, plus one; 0 holds none (R340) -/
  entry : Nat := 0
  /-- accesses to other devices that are not yet acknowledged: port, epoch bit, packet number (R158) -/
  away : List (Nat × Bool × Nat) := []
  deriving DecidableEq, Repr

/-- A warp. -/
structure Warp where
  regs : WRegs := {}
  /-- the reconvergence stack, top first (R35) -/
  stack : List StackEntry := []
  ctl : Ctl := {}
  deriving DecidableEq, Repr

/-! ### Blocks -/

/-- A block barrier (R40, R215): completed phases C, arrivals, count, open. -/
structure Bar where
  c : Word := 0
  arr : Nat := 0
  cnt : Nat := 0
  isOpen : Bool := false
  /-- what the arrivals of the open phase order, and those of completed phases (R145) -/
  view : View := {}
  passed : View := {}
  deriving DecidableEq, Repr

/-- A standing-load region of a block (R122): what is not in its status word. -/
structure Region where
  depth : Nat := 1
  queue : Bool := false
  size : Nat := 8
  /-- active, or ended -/
  active : Bool := false
  /-- its subscription -/
  sub : Nat := 0
  scope : Scope := .bk
  deriving DecidableEq, Repr

/-- An element a load stream read ahead: its value, or the cause and address of its fault (R118). -/
inductive Elem where
  | val (v : DWord)
  | bad (cause : Nat) (addr : DWord)
  deriving DecidableEq, Repr

/-- An element pushed to a store stream and not performed: its number, address, value, segment, hold number (0: the
write is not held), and the instruction that pushed it with its active lanes (R301). -/
structure PushedElem where
  n : Nat
  addr : DWord
  val : DWord
  seg : Nat
  hold : Nat
  fpc : DWord := 0
  lanes : Mask := 0
  /-- turn of the push -/
  turn : Nat := 0
  deriving DecidableEq, Repr

/-- A stream engine of a block (R118): its record and its position. -/
structure Stream where
  warp : Nat := 0
  q : Nat := 0
  bound : Bool := false
  base : DWord := 0
  stride : DWord := 0
  count : Nat := 0
  sext : Bool := false
  store : Bool := false
  esize : Nat := 1
  /-- load: elements delivered; store: elements pushed -/
  pos : Nat := 0
  ahead : List Elem := []
  pend : List PushedElem := []
  deriving DecidableEq, Repr

/-- A block of a run. -/
structure Block where
  run : Nat := 0
  idx : Nat := 0
  /-- die·16 + core -/
  core : Nat := 0
  spadSize : Nat := 0
  /-- scratchpad bytes (R97) -/
  spad : Tab Byte := []
  /-- per 128-byte line, the operations that write it and have not completed (R98) -/
  busy : Tab Nat := []
  /-- lines whose presence bit is clear: 1 cleared by an engine operation (R98), 2 an empty standing-load entry (R122,
  R352), 3 both -/
  unset : Tab Nat := []
  /-- the strong writes of each byte (R132, R137, R138) -/
  strongs : Tab ByteMsg := []
  /-- what a line's presence bit releases to the warp that finds it set (R98, R149) -/
  lineView : Tab View := []
  /-- standing-load entries as filled, by their line (R151) -/
  entMsgs : Tab EntMsg := []
  /-- what the completed operations of each engine queue and stream order (R149) -/
  engViews : Tab View := []
  bars : Tab Bar := []
  /-- free-slot counters (R117), held as 15 less the counter, by peer index -/
  used : Tab Nat := []
  /-- what the SLOTRETs to this block order, by the index of the receiver (R319) -/
  slotViews : Tab View := []
  /-- inbound neighbour FIFOs by direction, oldest first; an entry is a list of W words (R121) -/
  fifos : Tab (List (List Word)) := []
  /-- regions by their scratchpad offset (R122) -/
  regions : Tab Region := []
  streams : Tab Stream := []
  /-- arrivals of the block's warps in the open GBAR phase (R389) -/
  gbarArr : Nat := 0
  nwarps : Nat := 0
  retired : Bool := false
  deriving DecidableEq, Repr

/-! ### Tensor maps and engine operations -/

/-- A tensor-map dimension (R108): stride in 16-byte units, element count, box extent. -/
structure TDim where
  stride : Nat
  size : Nat
  box : Nat
  deriving DecidableEq, Repr

/-- A walk entry (R109). -/
structure TWalk where
  on : Bool
  offset : Int
  step : Nat
  dil : Nat
  padlo : Nat
  padhi : Nat
  deriving DecidableEq, Repr

/-- A tensor map as read at issue (R106, R107). -/
structure TMap where
  addr : DWord
  base : DWord
  fmt : Nat
  aon : Bool
  bnd : Bool
  bidx : Nat
  ver : DWord
  dims : List TDim
  walks : List TWalk
  deriving DecidableEq, Repr

/-- The stamp of an operation (R116): address, value, scope. -/
structure Stamp where
  addr : DWord
  val : DWord
  sc : Scope
  deriving DecidableEq, Repr

/-- An MLOOP or MSTEP (R309), with the scale bytes and the rounding attribute copied at issue (R310). -/
structure MOp where
  mf : MF
  rm : RM
  baseA : DWord
  baseB : DWord
  csA : Int
  rsA : Int
  csB : Int
  rsB : Int
  incA : Int
  incB : Int
  rows : Nat
  cols : Nat
  count : Nat
  /-- scale byte of row i, K-block of step t at key t·64 + i; absent when unscaled -/
  scA : Option (Tab Byte)
  scB : Option (Tab Byte)
  zs : Bool
  opn : Bool
  slot : Nat
  /-- whole steps accumulated -/
  step : Nat
  deriving DecidableEq, Repr

/-- An EPI (R312). -/
structure EOp where
  map : TMap
  c : List Nat
  alpha : Word
  beta : Word
  bias : DWord
  lo : Word
  hi : Word
  act : EpiAct
  scale : Nat
  stamp : Option Stamp
  slot : Nat
  deriving DecidableEq, Repr

/-- A COLL (R323). -/
structure COp where
  op : CollOp
  ty : CollTy
  src : DWord
  dst : DWord
  count : Nat
  group : BitVec 16
  attempt : BitVec 16
  stamp : Stamp
  /-- members, this member's rank, and the members' nodes by rank (R451) -/
  n : Nat
  rank : Nat
  nodes : List Nat
  deriving DecidableEq, Repr

/-- The kinds of engine operation, with their descriptors as read at issue. -/
inductive OpKind where
  | copy (m : TMap) (c h : List Nat) (dst : DWord) (stamp : Option Stamp) (ver : Option Scope)
  | store (m : TMap) (c h : List Nat) (src : DWord) (stamp : Option Stamp) (sc : Option Scope)
  | mcast (m : TMap) (c h : List Nat) (off : DWord) (mask : BitVec 4) (stamp : Option Stamp)
  | gath (m : TMap) (c0 : Nat) (dst : DWord) (rows : Tab Nat)
  | mloop (m : MOp)
  | epi (e : EOp)
  | coll (c : COp)
  /-- a store-stream element that met a cause: engine, element size (R105, R301) -/
  | elem (engine esize : Nat) (e : PushedElem)
  deriving DecidableEq, Repr

/-- An operation accepted into an engine queue and not yet performed (R119, R120). -/
structure Op where
  blk : Nat := 0
  warp : Nat := 0
  /-- QFENCE bit of the queue (R119) -/
  queue : Nat := 0
  fpc : DWord := 0
  lanes : Mask := 0
  seg : Nat := 0
  kind : OpKind := .coll ⟨.sum, .i .n32, 0, 0, 0, 0, 0, ⟨0, 0, .gg⟩, 1, 0, []⟩
  /-- a deferred fault of the operation is unresolved; its queue is stopped (R301) -/
  stopped : Bool := false
  /-- first hold number of its block, or 0 (R173) -/
  hold : Nat := 0
  /-- scratchpad lines whose presence the operation cleared: block·2^20 + line -/
  lines : List Nat := []
  /-- its bytes and stamp are in place; its presence bits are being set (R98, R120) -/
  finished : Bool := false
  /-- TSTORE with aon: steps of R155 done -/
  phase : Nat := 0
  /-- version word read by R155 or R156 -/
  vword : DWord := 0
  /-- lines of its payload that are written, in increasing address order: 4 KiB at a time (R384), with the bytes written -/
  wrote : List (DWord × Tab Byte) := []
  /-- when a TCOPY.ver first found its tile being written (R394) -/
  retryFrom : Option Nat := none
  issuedAt : Nat := 0
  /-- turn of its issue -/
  turn : Nat := 0
  /-- what happens before its issue (R148) -/
  view : View := {}
  /-- TCOPY.ver of a checked gang: its record in the warp's feed log (R169) -/
  log : Option Nat := none
  /-- TCOPYM: the elements as they were read, once (R318) -/
  read : Option (List Nat) := none
  /-- its packets to other devices, and those of its warp that were under way at its issue: port, epoch bit, packet number
  (R149, R158) -/
  away : List (Nat × Bool × Nat) := []
  before : List (Nat × Bool × Nat) := []
  /-- its payload is written; the stamp, under this hold number, waits until the payload is performed (R116) -/
  sent : Option Nat := none
  deriving DecidableEq, Repr

/-- States of a result-ring slot (R305). -/
inductive SlotSt where
  | empty | filling | full | draining
  deriving DecidableEq, Repr

/-- A slot of the result ring (R305). -/
structure RSlot where
  st : SlotSt := .empty
  mf : MF := .f32
  rows : Nat := 0
  cols : Nat := 0
  opn : Bool := false
  /-- an EPI took the slot -/
  taken : Bool := false
  /-- accumulator (i, j) at key i·64 + j: an FP32 or FP64 word -/
  acc : Tab DWord := []
  deriving DecidableEq, Repr

/-- The result ring of a core (R305, R306). -/
structure Ring where
  holder : Option Nat := none
  slots : Tab RSlot := []
  head : Fin 8 := 0
  tail : Fin 8 := 0
  deriving DecidableEq, Repr

/-! ### Standing loads -/

/-- A subscription in the runner table of the target's die (R124). The target is named by its leaf entry, so that it
follows its page (R410, R412). -/
structure Sub where
  world : Nat := 0
  blk : Nat := 0
  off : Nat := 0
  die : Nat := 0
  asid : Nat := 0
  addr : DWord := 0
  /-- logical line, and offset of the covered bytes in it -/
  line : Nat := 0
  pos : Nat := 0
  size : Nat := 8
  next : Nat := 0
  /-- pushes on their way, oldest first: number, bytes, and what they bring -/
  flight : List (Nat × List Byte × PushMsg) := []
  scope : Scope := .bk
  /-- entered in the runner table; false once removed, with pushes still in flight -/
  live : Bool := false
  deriving DecidableEq, Repr

/-! ### Runs, gangs and grids -/

/-- A role descriptor (R21). -/
structure RoleDesc where
  entry : DWord
  last : Nat
  nwarps : Nat
  alloc : Nat
  deriving DecidableEq, Repr

/-- A grid header as read by GRID or START (R19, R20). -/
structure Hdr where
  roles : List RoleDesc := []
  prio : Nat := 0
  redund : Nat := 0
  k : Nat := 0
  allres : Bool := false
  tstart : Bool := false
  spad : Nat := 0
  chain : Nat := 1
  gsize : Nat := 1
  gx : Nat := 1
  gy : Nat := 1
  gz : Nat := 1
  seed : DWord := 0
  start : DWord := 0
  waits : List (DWord × DWord) := []
  feedBase : DWord := 0
  feedSize : DWord := 0
  boundTab : DWord := 0
  compl : DWord := 0
  arg : DWord := 0
  fpcr : Word := 0
  shift : Nat := 10000
  deriving DecidableEq, Repr

/-- A write held in the Ladle, or a private version (R164, R173). -/
inductive HeldKind where
  /-- bytes of one 128-byte line of a generic address, by offset; the size of a strong write, or 0 -/
  | bytes (line : DWord) (data : Tab Byte) (size : Nat)
  /-- RED: address, operation, operand of each lane (R174) -/
  | red (line : DWord) (lanes : List (DWord × AtomOp × BitVec 128))
  /-- DISC of the page of 2^bits bytes at an address -/
  | disc (page : DWord) (bits : Nat)
  /-- a TSTORE through an aon map: version word, payload lines, stamp (R155) -/
  | tile (ver : DWord) (data : List (DWord × Tab Byte))
  deriving DecidableEq, Repr

structure Held where
  hold : Nat
  /-- the run that made it -/
  run : Nat
  /-- block·64 + warp within the gang -/
  warp : Nat
  seg : Nat
  asid : Nat
  kind : HeldKind
  /-- its agent, the turn of its issue, what happens before it, and what a strong write carries (R138) -/
  agent : Nat := 0
  turn : Nat := 0
  clock : Tab Nat := []
  msg : Option Msg := none
  /-- an ATOM's (R138) -/
  rmw : Bool := false
  deriving DecidableEq, Repr

/-- A fault as the feed log holds it (R182). -/
structure LogFault where
  cause : Nat
  faddr : DWord
  lanes : Mask
  part : Bool
  mem : Bool
  deriving DecidableEq, Repr

/-- A feed-log record: the warp in the gang and the values its instruction obtained, lane·2^128 + value (R169), with the
fault that stopped its other lanes; or a fault with its resolution, and how many instructions the warp had issued when
it met it (R182). -/
structure LogRec where
  warp : Nat
  data : List Nat := []
  fault : Option LogFault := none
  res : Option Resolution := none
  issued : Nat := 0
  bytes : Nat := 8
  /-- false while the operation whose box it holds is not performed (R169), or while a resolution waits for room (R170) -/
  ready : Bool := true
  /-- where it lies in the feed-log area (R170) -/
  offset : Nat := 0
  /-- the entry an NBPOP removed, under its direction plus one (R181) -/
  popped : Option (Nat × List Word) := none
  /-- what happened before the primary's next event (R140) -/
  view : View := {}
  deriving DecidableEq, Repr

/-- An early action or a RELEASE write: its run, warp in the gang, place among the warp's instructions, and turn (R176,
R180). -/
structure Early where
  run : Nat
  warp : Nat
  issued : Nat
  turn : Nat
  deriving DecidableEq, Repr

/-- A segment end of one run (R168, R428). -/
structure SegEnd where
  run : Nat
  warp : Nat
  seg : Nat
  crc : DWord
  /-- instructions the warp had issued, turn of the first event, turn of the end, log position -/
  issued : Nat
  first : Nat
  last : Nat
  logPos : Nat
  /-- ended because an extent was full (R168) -/
  extent : Bool
  deriving DecidableEq, Repr

/-- A record of the primary that waits for room in the feed log (R168, R170): a segment end; or the resolution of a fault,
which is the n-th record of a warp, with its payload (R182). -/
inductive LogWait where
  | seg (e : SegEnd)
  | res (warp n : Nat) (payload : List Byte)
  deriving DecidableEq, Repr

/-- What became of a warp segment (R174, R179). -/
inductive Verdict where
  | matched | shadowWins
  deriving DecidableEq, Repr

/-- A gang of a grid, whatever runs it has (R160 to R181). -/
structure Gang where
  primary : Nat := 0
  shadow : Nat := 0
  arbiter : Nat := 0
  checked : Bool := false
  nextHold : Nat := 1
  holds : List Held := []
  /-- private versions of the shadow and arbiter (R164) -/
  priv : List Held := []
  log : List LogRec := []
  segs : List SegEnd := []
  verdicts : List (Nat × Nat × Verdict) := []
  early : List Early := []
  /-- the segment whose signatures differ (R178) -/
  mismatch : Option (Nat × Nat) := none
  /-- the segment with which the primary lost a vote (true), or in which it was stopped (R422), until the shadow takes over -/
  lost : Option (Nat × Nat × Bool) := none
  /-- die·4 + cluster where the gang was first placed: its links' directions stay as they were then (R13, R386) -/
  place : Option Nat := none
  /-- extents taken, and bytes used in the last (R170) -/
  extents : List Nat := []
  extUsed : Nat := 0
  /-- records that wait for an extent, in their order -/
  backlog : List LogWait := []
  ended : Bool := false
  deriving DecidableEq, Repr

/-- States of a bind record (R378). -/
inductive BState where
  | pending | reserved | resident | saving | saved | ended | refused
  deriving DecidableEq, Repr

/-- A run: one placed execution of a gang. -/
structure Run where
  world : Nat := 0
  gang : Nat := 0
  /-- 0 unchecked, 1 primary, 2 shadow, 3 arbiter, 4 resident (R378) -/
  kind : Nat := 0
  die : Nat := 0
  idx : Nat := 0
  stage : Nat := 0
  cluster : Nat := 0
  /-- cores of its blocks, 0 to 15 on the die -/
  cores : List Nat := []
  st : BState := .pending
  startAt : Nat := 0
  restoredAt : Nat := 0
  savedAt : Nat := 0
  /-- completed GBAR phases (R216) -/
  gbar : Nat := 0
  /-- what the arrivals of the open GBAR phase order (R145) -/
  gview : View := {}
  save : DWord := 0
  deriving DecidableEq, Repr

/-- Life of a grid. -/
inductive GSt where
  | live | stopping | complete
  deriving DecidableEq, Repr

/-- A bound-table entry (R114): low, high, action. -/
structure BoundEnt where
  low : DWord := 0
  high : DWord := 0
  action : Nat := 0
  deriving DecidableEq, Repr

structure Grid where
  asid : Nat := 0
  hdr : Hdr := {}
  resident : Bool := false
  sat : List Bool := []
  bounds : List BoundEnt := []
  boundBit : Bool := false
  unchecked : Bool := false
  cause : BitVec 16 := 0
  st : GSt := .live
  word : DWord := 0
  /-- order of acceptance (R375) -/
  order : Nat := 0
  /-- turn at which the grid started: acceptance, or its last wait stamp (R455) -/
  startTurn : Nat := 0
  /-- time at which it became eligible (R376) -/
  eligibleAt : Option Nat := none
  /-- what the grid's GRID and its satisfied wait stamps order before its warps (R147), and its ended warps' events -/
  view : View := {}
  ended : View := {}
  /-- gangs placed, by linear index -/
  placed : List Nat := []
  done : List Nat := []
  freeExt : List Nat := []
  /-- a grid event for an unmapped stamp or log page is posted and not retired (R24) -/
  held : Bool := false
  deriving DecidableEq, Repr

/-! ### Dies -/

/-- A memory-side TLB entry (R402, R414). -/
structure TlbEnt where
  world : Nat
  asid : Nat
  /-- page number at its level: offset div page size -/
  page : Nat
  /-- 1: 64 KiB, 2: 2 MiB, 3: 1 GiB -/
  level : Nat
  w0 : DWord
  w1 : DWord
  /-- physical address of the leaf entry -/
  leaf : Nat
  count : Nat
  queued : Bool
  ovfl : Bool
  /-- the last requesting die (R415) -/
  last : Nat
  deriving DecidableEq, Repr

/-- A bind record (R378). -/
structure BindRec where
  valid : Bool := false
  evict : Bool := false
  st : BState := .pending
  why : Nat := 0
  w : BindWrite := ⟨0, 0, 0, 0, 0, 0, [], 0, 0, 0, 0, 0, none, 0, false, 0, false⟩
  /-- its run, or 0 -/
  run : Nat := 0
  deriving DecidableEq, Repr

/-- A crucible slot (R443): key identity (0: no key) and generation. -/
structure Slot where
  key : Nat := 0
  gen : BitVec 8 := 0
  deriving DecidableEq, Repr

structure Die where
  /-- DLATCH (R357): reset hold 1 -/
  dlatch : BitVec 64 := 0x400
  /-- the world a latch change in progress goes to -/
  latchTo : Nat := 0
  /-- a latch change has been made since cold boot (R357) -/
  changed : Bool := false
  tblreg : BitVec 64 := 0
  trcfg : BitVec 64 := 0
  /-- LADLECFG (R429): reset ways 4 -/
  ladlecfg : BitVec 64 := 0x400
  /-- CORESTAT.fenced (R379); busy is computed -/
  fenced : BitVec 16 := 0
  /-- CRUSTAT.failed, .erased (R444); open is computed -/
  failed : Bool := false
  erased : Word := 0
  /-- SECALM (R446) -/
  secalm : BitVec 64 := 0
  slots : Tab Slot := []
  tlb : List TlbEnt := []
  /-- first-level TLBs by core (R101, R402): ASID, level and page number of the entries of `tlb` that a core caches, newest
  first -/
  tlb1 : Tab (List (Nat × Nat × Nat)) := []
  /-- entries dropped, each with the turn of the drop, that operations translated before then still use (R300, R410, R417) -/
  tlbOld : List (Nat × TlbEnt) := []
  binds : Tab BindRec := []
  /-- epoch of each warp slot, by core·64 + warp (R392) -/
  epochs : Tab Nat := []
  /-- time at which a detector last read abnormal, by detector (R446) -/
  normalAt : Tab Nat := []
  deriving DecidableEq, Repr

/-! ### Worlds -/

/-- World states (R359), numbered as WCTL.state. -/
inductive WSt where
  | free | assigned | starting | running | stopping | stopped
  deriving DecidableEq, Repr

/-- A paging command that the device took and that the count of completed ones has not passed (R408): its number, code,
status once it is known (0 while it runs), page (owning die, leaf entry, generic address), target, stamp, and whether it has
ended. -/
structure PageCmd where
  k : Nat
  code : Nat
  status : Nat
  die : Nat
  leaf : Nat
  va : DWord
  asid : Nat
  loc : Nat
  frame : Nat
  stamp : DWord
  value : DWord
  done : Bool
  deriving DecidableEq, Repr

/-- A SEQEND accepted and not finished (R334). -/
structure SeqEnd where
  slot : Nat
  gen : BitVec 8
  stamp : DWord
  asid : Nat
  deriving DecidableEq, Repr

/-- A collective packet at this member (R452). -/
structure CollPkt where
  attempt : BitVec 16
  rank : Nat
  sig : Nat
  data : List Byte
  deriving DecidableEq, Repr

/-- A group as its record enrols this member (R451): the record's index, the attempt in it, members, this member's rank, the
members' nodes by rank, and the line and offset where the record lies. -/
structure GroupRec where
  idx : Nat
  attempt : BitVec 16
  n : Nat
  rank : Nat
  nodes : List Nat
  line : Nat
  off : Nat
  deriving DecidableEq, Repr

/-- A collective group (R324, R451): attempt in force, packets received, members reached by the last abort token. -/
structure Group where
  attempt : BitVec 16 := 0
  pkts : List CollPkt := []
  /-- ranks that accepted or were reported unreachable; meaningful while a CABORT waits -/
  answered : List Nat := []
  size : Nat := 0
  /-- the record as the device read it, until its valid bit is written again (R451) -/
  read : Option GroupRec := none
  deriving DecidableEq, Repr

structure World where
  /-- WCTL as firmware holds it, state bits apart (R358): reset fence 3 -/
  wctl : BitVec 64 := 0x00C0000000000000
  /-- WCTL as read at STARTING -/
  cfg : BitVec 64 := 0x00C0000000000000
  st : WSt := .free
  /-- WSTAT.stop, .fcause (R367) -/
  stop : BitVec 8 := 0
  fcause : BitVec 16 := 0
  mask : BitVec 64 := 0
  /-- HBEAT (R447): period in ms (0 acts as 1,000), beat -/
  period : BitVec 16 := 1000
  beat : Word := 0
  beatAt : Nat := 0
  runningAt : Nat := 0
  stopAt : Nat := 0
  mbx : DWord := 0
  fq : DWord := 0
  hwt : DWord := 0
  info : DWord := 0
  /-- transport key identity (R443) -/
  tkey : Nat := 0
  nextHandle : Nat := 1
  /-- completed grids, newest first, at most 65,536 (R329) -/
  recent : List (Nat × DWord) := []
  /-- faulted warps not yet posted, oldest first (R393) -/
  unposted : List Nat := []
  /-- handler warps parked at ERET, longest first -/
  handlers : List Nat := []
  /-- entries delivered to a handler -/
  delivered : Nat := 0
  /-- entries retired out of order -/
  retiredOut : List Nat := []
  /-- grid of a grid-event entry, by entry number -/
  gridEnts : Tab Nat := []
  seqEnds : List SeqEnd := []
  cmds : List PageCmd := []
  /-- pages whose notification was delayed: die, leaf (R415) -/
  overflow : List (Nat × Nat) := []
  groups : Tab Group := []
  /-- MSI-X mask and pending bits of vectors 0 to 31 (R371) -/
  msixMask : BitVec 32 := 0xFFFFFFFF
  msixPend : BitVec 32 := 0
  /-- the crash log (R456) as 64-bit words -/
  crash : List DWord := []
  /-- heat-record events before the world last entered STARTING -/
  eventsAt : Nat := 0
  /-- identity of the resident image's measurement (R450) -/
  meas : Nat := 0
  /-- grid of the resident program, and the grids at the heads of queues that block lower queues under R376 -/
  resident : Nat := 0
  blocked : List Nat := []
  /-- zones of the alarms that reached the world since its last START (R360, R446): a die, or 64 for the package -/
  alarms : List Nat := []
  deriving DecidableEq, Repr

/-! ### Device -/

/-- An event of the heat record (R439). -/
structure HeatEvent where
  time : Nat
  kind : Nat
  die : Nat
  core : Nat
  world : Nat
  asid : Nat
  a : DWord
  b : DWord
  deriving DecidableEq, Repr

/-- A core entry of the heat record (R437): when the last demerit was received, and `since` when that or the last decay was,
both in powered time. -/
structure HeatCore where
  lastDemerit : Option Nat := none
  since : Nat := 0
  sramue : Nat := 0
  given : Nat := 0
  fences : Nat := 0
  fenced : Bool := false
  demerits : Fin 16 := 0
  deriving DecidableEq, Repr

/-- The heat record (R434 to R438). -/
structure Heat where
  serial : DWord := 0
  seq : Nat := 0
  changed : Nat := 0
  /-- nanoseconds powered before the last power-on -/
  powered : Nat := 0
  /-- counter i of die d at key d·16 + i -/
  counts : Tab Nat := []
  cores : Tab HeatCore := []
  /-- AGEMON at last measurement, by die·4 + cluster -/
  clusters : Tab DWord := []
  retired : List DWord := []
  quarantine : List Word := []
  /-- newest first, at most 1,024 -/
  events : List HeatEvent := []
  total : Nat := 0
  signed : Bool := true
  retFull : Bool := false
  quaFull : Bool := false
  deriving DecidableEq, Repr

/-- Receive window of a (source, port, epoch bit) (R449), and the epoch whose key the receiver holds there. -/
structure RxWin where
  epoch : Nat := 0
  top : Nat := 0
  seen : List Nat := []
  deriving DecidableEq, Repr

/-- What the device sends to the outside. -/
inductive Out where
  | msix (world vec : Nat)
  | reply (m : Master) (code status : Nat) (body : List Byte)
  | firmware (code : Nat) (data : DWord)
  /-- a packet, under its source's key of the epoch (R449) -/
  | ulb (port : Nat) (key : LinkKey) (num : Nat) (dst : Nat) (body : UlbBody)
  | ulbReply (src : Nat) (ok : Bool) (data : List Byte)
  | host (world : Nat) (stream : Nat) (ok : Bool)
  /-- what a host's read of BAR0 returns (R371) -/
  | hostData (world off : Nat) (bytes : List Byte)
  | spdm (code : Nat) (ok : Bool) (data : Nat)
  | ptp (offset : Word)
  deriving DecidableEq, Repr

/-- A START that management firmware has received and not ended (R364, R369): it waits while its world is STOPPING, and has
begun while its world is STARTING. -/
structure StartCmd where
  m : Master
  world : Nat
  img : DWord
  len : Nat
  hdr : Nat
  begun : Bool
  deriving DecidableEq, Repr

/-- Boot stages (R454). -/
inductive Boot where
  | off | recovery | ready
  deriving DecidableEq, Repr

/-- A context whose data a dirty-line error lost (R420): what it owned, and whether firmware has ended it. -/
structure LostPage where
  world : Nat
  asid : Nat
  die : Nat
  page : Nat
  /-- space·2^64 + address of the page's frame -/
  frame : Nat
  /-- the owner tag posted -/
  tag : DWord
  ended : Bool
  deriving DecidableEq, Repr

structure Dev where
  boot : Boot := .off
  /-- TBSTAT (R377) -/
  tbstat : BitVec 64 := 0
  /-- AGEMON by die·4 + cluster (R432); an unlisted one is at reset: ceil 20 -/
  agemon : Tab DWord := []
  /-- identity keys derived at cold boot exist (R446, R450) -/
  idKeys : Bool := false
  /-- a level-3 alarm since cold boot (R446) -/
  level3 : Bool := false
  /-- the domain secret, once it is installed (R448) -/
  secret : Option (BitVec 256) := none
  heat : Heat := {}
  snapHost : Option Heat := none
  snapPhiham : Option Heat := none
  linksDown : List LinkName := []
  /-- this device's link epoch, and the last packet number of each Uliteby port in it (R449) -/
  ulbEpoch : Nat := 0
  ulbNum : Tab Nat := []
  rx : Tab RxWin := []
  /-- SPDM sessions open: worlds, 0 for the domain manager's (R450) -/
  sessions : List Nat := []
  /-- selective IDE streams bound through a session: world, stream, port (R449) -/
  ide : List (Nat × Nat × Nat) := []
  /-- package detectors tripped now, and when they last read abnormal -/
  pkgNow : BitVec 5 := 0
  pkgNormalAt : Tab Nat := []
  /-- messages, replies and packets sent, newest first -/
  out : List Out := []
  /-- table nodes posted as failed: die and physical address (R407) -/
  failedNodes : List (Nat × Nat) := []
  /-- pages whose dirty line was lost, until firmware has retired the frame (R420, R423) -/
  lost : List LostPage := []
  /-- frames in which an uncorrectable HBM error was found and that are not retired: die and frame number (R423) -/
  badFrames : List (Nat × Nat) := []
  /-- of each link since it came up: how often its last flit was replayed, and when the link replayed one, within a second
  (R427) -/
  replays : List (LinkName × Nat × List Nat) := []
  /-- corrected errors of a frame within 24 hours: die, frame number, and when (R423) -/
  corrected : List (Nat × Nat × Nat) := []
  /-- events that the heat record held at the last power-on: none of them merges with one of now (R440) -/
  bootTotal : Nat := 0
  /-- when a die was last scrubbed (R418), and a cluster last measured (R432) -/
  scrubbedAt : Tab Nat := []
  agedAt : Tab Nat := []
  /-- how far the servo has stepped the time base since power-on (R377) -/
  stepped : Nat := 0
  /-- the servo has locked since cold boot (R377) -/
  lockedOnce : Bool := false
  /-- this device's Uliteby node identifier (R93); 0x1FFF when it has none -/
  node : Nat := 0x1FFF
  /-- STARTs under way -/
  starts : List StartCmd := []
  deriving DecidableEq, Repr

/-! ### Memory -/

/-- What a 128-byte line of memory was encrypted under (R103, R408): key identity, page tweak, owning die and page, and
whether it is poisoned (R419). -/
structure LineTag where
  key : Nat := 0
  tweak : BitVec 16 := 0
  die : Nat := 0
  page : Nat := 0
  poison : Bool := false
  deriving DecidableEq, Repr

/-- A write performed at the home of a line after a copy of it was filled: agent, turn of the write's issue, turn it was
performed, and the offsets written. -/
structure Newer where
  agent : Nat
  turn : Nat
  now : Nat
  offs : List Nat
  deriving DecidableEq, Repr

/-- A copy of a line, in an L1 (R99) or as a replica in another die's L2 (R100): its bytes, the turn it was filled, and the
writes made at the home since. -/
structure L1Line where
  data : List Byte := []
  filled : Nat := 0
  newer : List Newer := []
  deriving DecidableEq, Repr

/-- An L2 line's tag (R137, R420). -/
structure L2Line where
  asid : Nat := 0
  slot : Nat := 0
  page : Nat := 0
  dirty : Bool := false
  /-- size of the last strong write to each 16-byte chunk (R137) -/
  sizes : Tab Nat := []
  /-- where the line's bytes lie: space·2^64 + address -/
  phys : Nat := 0
  deriving DecidableEq, Repr

/-- A turn of the schedule: an event, or the issue of a warp. -/
inductive Turn where
  | event (i : Instr)
  | warp (w : Nat)
  deriving DecidableEq, Repr

/-- The machine. -/
structure State where
  /-- the time base in ns (R27) -/
  time : Nat := 0
  /-- physical memory: space·2^64 + address; spaces 0 to 63 are the dies' HBM, 65 and 66 the PCIe ports, 68 to 71 the
  CXL ports (R399). An unlisted byte reads 0. -/
  mem : List Host.Cell := []
  /-- of each 128-byte line, by its physical address -/
  tags : Tab LineTag := []
  /-- code words overwritten after they could be fetched: physical address of the 4-byte word, and
  its earlier values with the turn each was overwritten (R455) -/
  oldCode : Tab (List (Nat × Word)) := []
  l1 : Tab L1Line := []
  l2 : Tab L2Line := []
  /-- replicas: die·2^80 + line (R100) -/
  reps : Tab L1Line := []
  /-- of each line, the strong writes of each of its bytes (R132, R137, R138) -/
  msgs : Tab (Tab ByteMsg) := []
  /-- the SC order (R139): of each warp and instance, what its last FENCE.sc orders -/
  scOrder : List (Nat × Inst × View) := []
  warps : Tab Warp := []
  blocks : Tab Block := []
  runs : Tab Run := []
  gangs : Tab Gang := []
  grids : Tab Grid := []
  worlds : Tab World := []
  dies : Tab Die := []
  rings : Tab Ring := []
  ops : Tab Op := []
  subs : Tab Sub := []
  dev : Dev := {}
  /-- MODEL: the warp that issues -/
  cur : Nat := 0
  /-- MODEL: the schedule; the turns to take first -/
  turns : List Turn := []
  /-- MODEL: since which turn each ready warp is ready (R31) -/
  readyAt : Tab Nat := []
  /-- MODEL: the last turn that the policy without a schedule gave each warp -/
  served : Tab Nat := []
  /-- MODEL: free values taken -/
  free : Nat := 0
  /-- MODEL: turns taken and identities given -/
  seqNo : Nat := 1
  deriving DecidableEq, Repr

/-- The machine right after reset: every field at its reset value; no world, no grid, nothing in memory. -/
def State.reset : State := {}

end Sys2Proof.Machine
end

