-- ==== Sys2Proof/Machine/Prog.lean ====
section
/-!
DEFINITION. Meanings as programs. A meaning reads the state and makes updates from one closed set, `Upd`; each update
keeps the canonical form of what it writes (memory, registers, masks, FPCR, the stack's depth), so that what every step
keeps is proved once, over the updates.
-/
namespace Sys2Proof.Machine

/-- Defaults of records that the tables do not list. -/
def State.warp (s : State) (w : Nat) : Warp := s.warps.get {} w
def State.block (s : State) (b : Nat) : Block := s.blocks.get {} b
def State.runOf (s : State) (r : Nat) : Run := s.runs.get {} r
def State.gang (s : State) (g : Nat) : Gang := s.gangs.get {} g
def State.grid (s : State) (g : Nat) : Grid := s.grids.get {} g
def State.world (s : State) (w : Nat) : World := s.worlds.get {} w
def State.die (s : State) (d : Nat) : Die := s.dies.get {} d
def State.ring (s : State) (c : Nat) : Ring := s.rings.get {} c
def State.op (s : State) (k : Nat) : Op := s.ops.get {} k
def State.sub (s : State) (k : Nat) : Sub := s.subs.get {} k

/-- Drop the entry of key `k`. -/
def Tab.drop {α : Type} (t : Tab α) (k : Nat) : Tab α := t.filter fun e => e.1 != k

/-- FPCR legality (R52): bits 31:10 zero and RM from 000 to 100. -/
def fpcrOk (x : Word) : Bool := decide (x.toNat < 1024) && decide (x.toNat % 8 ≤ 4)

/-- The updates of the state. -/
inductive Upd where
  /-- a byte of physical memory -/
  | mem (a : Nat) (b : Byte)
  | tag (line : Nat) (t : LineTag)
  | oldCode (a : Nat) (l : List (Nat × Word))
  /-- V[v][l] at key v·128 + l -/
  | v (w k : Nat) (x : Word)
  | sreg (w r : Nat) (x : DWord)
  | preg (w n : Nat) (x : Mask)
  | mreg (w n : Nat) (x : Mask)
  | fpsr (w l : Nat) (x : BitVec 6)
  | fpcr (w : Nat) (x : Word)
  | stack (w : Nat) (l : List StackEntry)
  | ctl (w : Nat) (f : Ctl → Ctl)
  /-- a fresh warp (R28): registers zero -/
  | warp (w : Nat) (c : Ctl)
  /-- a block's record but its scratchpad -/
  | block (b : Nat) (f : Block → Block)
  /-- the scratchpad is gone -/
  | spadClear (b : Nat)
  | spad (b a : Nat) (x : Byte)
  | run (r : Nat) (f : Run → Run)
  | gang (g : Nat) (f : Gang → Gang)
  | grid (g : Nat) (f : Grid → Grid)
  | world (w : Nat) (f : World → World)
  | die (d : Nat) (f : Die → Die)
  | ring (c : Nat) (f : Ring → Ring)
  | op (k : Nat) (f : Op → Op)
  | opDrop (k : Nat)
  | sub (k : Nat) (f : Sub → Sub)
  | subDrop (k : Nat)
  | l1 (f : Tab L1Line → Tab L1Line)
  | l2 (f : Tab L2Line → Tab L2Line)
  | reps (f : Tab L1Line → Tab L1Line)
  | msgs (line : Nat) (t : Tab ByteMsg)
  | scOrder (l : List (Nat × Inst × View))
  | dev (f : Dev → Dev)
  | time (t : Nat)
  | cur (w : Nat)
  | turns (l : List Turn)
  /-- power-on -/
  | powerOn
  | free
  | seqNo

/-- A change of one warp's registers. -/
def State.regs (s : State) (w : Nat) (f : WRegs → WRegs) : State :=
  { s with warps := s.warps.put w { s.warp w with regs := f (s.warp w).regs } }

/-- Nanoseconds since power-on: the time base, but for its steps. -/
def State.upNs (s : State) : Nat := s.time - s.dev.stepped

/-- Nanoseconds that the device has been powered in its life (R430, R435). -/
def State.poweredNs (s : State) : Nat := s.dev.heat.powered + s.upNs

/-- The machine at power-on (R454): as at reset, but for what outlives power: the heat record and the crash logs in flash
(R434, R456), the fuses, the bytes behind the host ports, and the model's own counters. -/
def State.poweredOn (s : State) : State :=
  { mem := s.mem.filter fun e => decide (65 * 2 ^ 64 ≤ e.1)
    worlds := s.worlds.map fun e => (e.1, { crash := e.2.crash })
    dev := { heat := { s.dev.heat with powered := s.poweredNs }, agemon := s.dev.agemon, bootTotal := s.dev.heat.total }
    turns := s.turns, served := s.served, free := s.free, seqNo := s.seqNo }

/-- What an update does. Bits W to 127 of mask and predicate registers stay zero (R51), FPCR stays legal (R57), and the
stack stays at most 1,024 deep (R35). -/
def Upd.apply (s : State) : Upd → State
  | .mem a b => { s with mem := Tab.set (0 : Byte) s.mem a b }
  | .tag l t => { s with tags := Tab.set {} s.tags l t }
  | .oldCode a l => { s with oldCode := s.oldCode.put a l }
  | .v w k x => s.regs w fun r => { r with v := Tab.set 0 r.v k x }
  | .sreg w n x => s.regs w fun r => { r with s := Tab.set 0 r.s n x }
  | .preg w n x => s.regs w fun r => { r with p := Tab.set 0 r.p n (x &&& Config.laneMask) }
  | .mreg w n x => s.regs w fun r => { r with m := Tab.set 0 r.m n (x &&& Config.laneMask) }
  | .fpsr w l x => s.regs w fun r => { r with fpsr := Tab.set 0 r.fpsr l x }
  | .fpcr w x => if fpcrOk x then s.regs w fun r => { r with fpcr := x } else s
  | .stack w l => { s with warps := s.warps.put w { s.warp w with stack := l.take 1024 } }
  | .ctl w f => { s with warps := s.warps.put w { s.warp w with ctl := f (s.warp w).ctl } }
  | .warp w c => { s with warps := s.warps.put w { ctl := c } }
  | .block b f => { s with blocks := s.blocks.put b { f (s.block b) with spad := (s.block b).spad } }
  | .spadClear b => { s with blocks := s.blocks.put b { s.block b with spad := [] } }
  | .spad b a x => { s with blocks := s.blocks.put b { s.block b with spad := Tab.set 0 (s.block b).spad a x } }
  | .run r f => { s with runs := s.runs.put r (f (s.runOf r)) }
  | .gang g f => { s with gangs := s.gangs.put g (f (s.gang g)) }
  | .grid g f => { s with grids := s.grids.put g (f (s.grid g)) }
  | .world w f => { s with worlds := s.worlds.put w (f (s.world w)) }
  | .die d f => { s with dies := s.dies.put d (f (s.die d)) }
  | .ring c f => { s with rings := s.rings.put c (f (s.ring c)) }
  | .op k f => { s with ops := s.ops.put k (f (s.op k)) }
  | .opDrop k => { s with ops := Tab.drop s.ops k }
  | .sub k f => { s with subs := s.subs.put k (f (s.sub k)) }
  | .subDrop k => { s with subs := Tab.drop s.subs k }
  | .l1 f => { s with l1 := f s.l1 }
  | .l2 f => { s with l2 := f s.l2 }
  | .reps f => { s with reps := f s.reps }
  | .msgs l t => { s with msgs := s.msgs.put l t }
  | .scOrder l => { s with scOrder := l }
  | .dev f => { s with dev := f s.dev }
  | .time t => { s with time := t }
  | .cur w => { s with cur := w }
  | .turns l => { s with turns := l }
  | .powerOn => s.poweredOn
  | .free => { s with free := s.free + 1 }
  | .seqNo => { s with seqNo := s.seqNo + 1 }

/-- A program over the state. -/
inductive Prog (α : Type) where
  | ret (a : α)
  | get (k : State → Prog α)
  | upd (u : Upd) (k : Prog α)

namespace Prog

def bind {α β : Type} : Prog α → (α → Prog β) → Prog β
  | .ret a, f => f a
  | .get k, f => .get fun s => bind (k s) f
  | .upd u k, f => .upd u (bind k f)

/-- Run a program: its answer and the state after it. -/
def run {α : Type} : Prog α → State → α × State
  | .ret a, s => (a, s)
  | .get k, s => run (k s) s
  | .upd u k, s => run k (u.apply s)

end Prog

/-- Programs as a monad, for `do`. -/
@[reducible] def progMonad : Monad Prog := { pure := .ret, bind := Prog.bind }

/-- Read the state. -/
def st : Prog State := .get .ret
/-- Read a part of the state. -/
def gets {α : Type} (f : State → α) : Prog α := .get fun s => .ret (f s)
/-- Make an update. -/
def upd (u : Upd) : Prog Unit := .upd u (.ret ())
/-- A fresh identity. -/
def fresh : Prog Nat := .get fun s => .upd .seqNo (.ret s.seqNo)
/-- A free value (log entry 7): nothing constrains it. -/
def freeVal : Prog (BitVec 64) := .get fun s => .upd .free (.ret (Config.freeBits s.free))

/-- Do a program for each element of a list, in order. -/
def forAll {α : Type} (l : List α) (f : α → Prog Unit) : Prog Unit :=
  match l with
  | [] => .ret ()
  | a :: t => Prog.bind (f a) fun _ => forAll t f

/-- Do a program for each element and collect the answers. -/
def mapAll {α β : Type} (l : List α) (f : α → Prog β) : Prog (List β) :=
  match l with
  | [] => .ret []
  | a :: t => Prog.bind (f a) fun b => Prog.bind (mapAll t f) fun bs => .ret (b :: bs)

/-- Do a program when a condition holds. -/
def whenP (b : Bool) (p : Prog Unit) : Prog Unit := if b then p else .ret ()

/-- The next state of a meaning. -/
def next (p : Prog Unit) (s : State) : Host.Outcome State Fault Refusal := .next (p.run s).2

end Sys2Proof.Machine
end

