-- ==== Sys2Proof/Machine/Bits.lean ====
section
/-!
DEFINITION. Bit-field, sign and lane helpers, fault causes (R59), and the keys and look-ups of the state's tables.
-/
namespace Sys2Proof.Machine

/-- Bits lo + n − 1 : lo of a word, as a number. -/
def field {k : Nat} (x : BitVec k) (lo n : Nat) : Nat := bitsAt x.toNat lo n

/-- One bit. -/
def bitAt {k : Nat} (x : BitVec k) (n : Nat) : Bool := x.getLsbD n

/-- A word with bits lo + n − 1 : lo replaced. -/
def setField {k : Nat} (x : BitVec k) (lo n v : Nat) : BitVec k :=
  BitVec.ofNat k (x.toNat - 2 ^ lo * bitsAt x.toNat lo n + 2 ^ lo * (v % 2 ^ n))

/-- An n-bit field read as signed. -/
def signed (n v : Nat) : Int := if v % 2 ^ n < 2 ^ (n - 1) then (v % 2 ^ n : Nat) else ((v % 2 ^ n : Nat) : Int) - (2 ^ n : Nat)

/-- An integer modulo 2^64. -/
def dword (x : Int) : DWord := BitVec.ofInt 64 x

/-- The lanes of a mask, increasing. -/
def lanesOf (m : Mask) : List Nat := Config.lanes.filter fun l => m.getLsbD l

/-- The mask of some lanes. -/
def maskOf (l : List Nat) : Mask := BitVec.ofNat 128 (l.foldl (fun a n => a ||| 2 ^ n) 0)

/-- Fault causes (R59), in code order. -/
inductive Cause where
  | illop | priv | runrule | diverge | queue | align | spadbound | peergone | protect | translate | keyretired
  | integrity | poison | mixsize | bounds | fpexc | softtrap | bkpt | watchdog | collabort | unresolved
  deriving DecidableEq, Repr

/-- The code of a cause (R59). -/
def Cause.code : Cause → Nat
  | .illop => 0x1 | .priv => 0x2 | .runrule => 0x3 | .diverge => 0x4 | .queue => 0x5 | .align => 0x6
  | .spadbound => 0x7 | .peergone => 0x8 | .protect => 0x9 | .translate => 0xA | .keyretired => 0xB
  | .integrity => 0xC | .poison => 0xD | .mixsize => 0xE | .bounds => 0xF | .fpexc => 0x10 | .softtrap => 0x11
  | .bkpt => 0x12 | .watchdog => 0x13 | .collabort => 0x14 | .unresolved => 0x15

/-- The cause of a code; codes outside the table read as ILLOP (only codes of the table are ever stored). -/
def Cause.ofCode (n : Nat) : Cause :=
  match n with
  | 0x2 => .priv | 0x3 => .runrule | 0x4 => .diverge | 0x5 => .queue | 0x6 => .align | 0x7 => .spadbound
  | 0x8 => .peergone | 0x9 => .protect | 0xA => .translate | 0xB => .keyretired | 0xC => .integrity
  | 0xD => .poison | 0xE => .mixsize | 0xF => .bounds | 0x10 => .fpexc | 0x11 => .softtrap | 0x12 => .bkpt
  | 0x13 => .watchdog | 0x14 => .collabort | 0x15 => .unresolved | _ => .illop

/-! ### Keys -/

def blockOfWarp (w : Nat) : Nat := w / 64
def runOfBlock (b : Nat) : Nat := b / 4
def runOfWarp (w : Nat) : Nat := w / 256
/-- block·64 + warp within the gang -/
def gangWarp (w : Nat) : Nat := w % 256
def gridOfGang (g : Nat) : Nat := g / 2 ^ 32
def worldOfGrid (g : Nat) : Nat := g / 2 ^ 48
/-- The handle of a grid (R328): bits 15:0 zero. -/
def handleOf (g : Nat) : DWord := BitVec.ofNat 64 (g % 2 ^ 48 * 2 ^ 16)
/-- The grid a handle names in a world. -/
def gridOfHandle (world : Nat) (h : DWord) : Nat := world * 2 ^ 48 + h.toNat / 2 ^ 16

/-- The gang, grid and world of a warp. -/
def State.gangOfWarp (s : State) (w : Nat) : Nat := (s.runOf (runOfWarp w)).gang
def State.gridOfWarp (s : State) (w : Nat) : Nat := gridOfGang (s.gangOfWarp w)
def State.worldOfWarp (s : State) (w : Nat) : Nat := (s.runOf (runOfWarp w)).world
def State.asidOfWarp (s : State) (w : Nat) : Nat := (s.grid (s.gridOfWarp w)).asid
def State.coreOfWarp (s : State) (w : Nat) : Nat := (s.block (blockOfWarp w)).core

/-- The gang of the warp is checked (R160). -/
def State.checkedWarp (s : State) (w : Nat) : Bool := (s.gang (s.gangOfWarp w)).checked
/-- A segment of a warp is decided (R174). -/
def Gang.decided (g : Gang) (warp seg : Nat) : Bool := g.verdicts.any fun v => v.1 == warp && v.2.1 == seg
/-- The warp belongs to the gang's primary run. -/
def State.isPrimary (s : State) (w : Nat) : Bool := (s.gang (s.gangOfWarp w)).primary == runOfWarp w
/-- The warp belongs to a shadow or arbiter run (R164), or to a primary that took over and repeats what the one before it
had performed (R181). -/
def State.isCopy (s : State) (w : Nat) : Bool :=
  s.checkedWarp w && (!s.isPrimary w || decide ((s.warp w).ctl.issued < (s.warp w).ctl.copyTo))
/-- The warp's grid has a redundancy mode other than none. -/
def State.gridChecked (s : State) (w : Nat) : Bool := (s.grid (s.gridOfWarp w)).hdr.redund != 0

/-- The warps of a block, a run, and every warp of some runs, in key order. -/
def State.warpsOfBlock (s : State) (b : Nat) : List Nat := (s.warps.map Prod.fst).filter fun w => blockOfWarp w == b
def State.warpsOfRun (s : State) (r : Nat) : List Nat := (s.warps.map Prod.fst).filter fun w => runOfWarp w == r
def State.blocksOfRun (s : State) (r : Nat) : List Nat := (s.blocks.map Prod.fst).filter fun b => runOfBlock b == r

/-- The active mask m0 (R33). -/
def State.m0 (s : State) (w : Nat) : Mask := (s.warp w).regs.m.get 0 0
/-- Live lanes (R51): launched, not exited. -/
def Ctl.live (c : Ctl) : Mask := c.launched &&& ~~~c.exitedLanes

/-- A predicate source in every lane (R50): 15 is true. -/
def State.predMask (s : State) (w : Nat) (p : PSrc) : Mask :=
  let v : Mask := if p.n.val = 15 then Config.laneMask else (s.warp w).regs.p.get 0 p.n.val
  if p.neg then ~~~v &&& Config.laneMask else v

/-- Registers as they stand: V[r][l], S[r], pairs and wider as numbers. -/
def State.vreg (s : State) (w r l : Nat) : Word := (s.warp w).regs.v.get 0 (r * 128 + l)
def State.sreg (s : State) (w r : Nat) : DWord := (s.warp w).regs.s.get 0 r
def State.mreg (s : State) (w n : Nat) : Mask := (s.warp w).regs.m.get 0 n
def State.vpair (s : State) (w r l : Nat) : DWord := (s.vreg w (r + 1) l) ++ (s.vreg w r l)
/-- `n` consecutive registers, least significant first (R48). -/
def State.vwide (s : State) (w r l n : Nat) : Nat :=
  (List.range n).foldl (fun a i => a + (s.vreg w (r + i) l).toNat * 2 ^ (32 * i)) 0

/-- A die is latched to the world (R357, R361). -/
def State.latched (s : State) (d world : Nat) : Bool :=
  bitAt (s.die d).dlatch 8 && field (s.die d).dlatch 0 4 == world

/-- The dies of a world, increasing. -/
def World.dies (w : World) : List Nat := (List.range 64).filter fun d => bitAt w.mask d

/-- W is a power of two; lanes above it do not exist. -/
def laneCount : Nat := Config.W

end Sys2Proof.Machine
end

