-- ==== Sys2Proof/Machine/Fp.lean ====
section
/-!
DEFINITION. The interchange formats and their exact arithmetic (R65 to R73, R245 to R257): a finite value is
m·2^e, every result is the exact one rounded once.
-/
namespace Sys2Proof.Machine

/-! ### Flags (R53, R70) -/

/-- FPSR flags in its bit order. -/
abbrev Fl := BitVec 6
def flIV : Fl := 1
def flDZ : Fl := 2
def flOF : Fl := 4
def flUF : Fl := 8
def flNX : Fl := 16
def flDN : Fl := 32
def flIf (b : Bool) (f : Fl) : Fl := if b then f else 0

/-! ### Formats (R65, R66) -/

/-- Precision, the least exponent of a normal, the largest exponent, and the width. -/
def fPrec : FT → Nat | .f16 => 11 | .bf16 => 8 | .f32 => 24 | .f64 => 53
def fEmin : FT → Int | .f16 => -14 | .bf16 => -126 | .f32 => -126 | .f64 => -1022
def fEmax : FT → Int | .f16 => 15 | .bf16 => 127 | .f32 => 127 | .f64 => 1023
def fWidth : FT → Nat | .f16 => 16 | .bf16 => 16 | .f32 => 32 | .f64 => 64

/-- Bits of the fraction field. -/
def fFrac (t : FT) : Nat := fPrec t - 1
def fSignBit (t : FT) : Nat := 2 ^ (fWidth t - 1)
/-- The encoding of +∞: an exponent field of ones. -/
def fInfBits (t : FT) : Nat := fSignBit t - 2 ^ fFrac t
def fQuiet (t : FT) : Nat := 2 ^ (fFrac t - 1)
/-- The default NaN (R66). -/
def fDefNan (t : FT) : Nat := fInfBits t + fQuiet t
def fMaxBits (t : FT) : Nat := fInfBits t - 1
def fSigned (t : FT) (neg : Bool) (bits : Nat) : Nat := bits + (if neg then fSignBit t else 0)
def fZero (t : FT) (neg : Bool) : Nat := fSigned t neg 0
def fInf (t : FT) (neg : Bool) : Nat := fSigned t neg (fInfBits t)

/-- What an encoding holds. -/
inductive FVal where
  | nan (signalling : Bool)
  | inf (neg : Bool)
  /-- (−1)^neg · m · 2^e -/
  | fin (neg : Bool) (m : Nat) (e : Int)
  deriving DecidableEq, Repr

/-- The value of an encoding (R65). -/
def fVal (t : FT) (x : Nat) : FVal :=
  let x := x % 2 ^ fWidth t
  let neg := decide (fSignBit t ≤ x)
  let r := x % fSignBit t
  let f := r % 2 ^ fFrac t
  let ex := r / 2 ^ fFrac t
  if fInfBits t < r then .nan (decide (f < fQuiet t))
  else if r = fInfBits t then .inf neg
  else if ex = 0 then .fin neg f (fEmin t - (fFrac t : Nat))
  else .fin neg (f + 2 ^ fFrac t) (fEmin t - (fFrac t : Nat) + ((ex : Nat) - 1))

/-- An encoding is a subnormal. -/
def fSubnormal (t : FT) (x : Nat) : Bool :=
  let r := x % fSignBit t
  decide (r < 2 ^ fFrac t) && decide (r ≠ 0)

/-- The flush bit of a format in FPCR (R52, R71). -/
def fFlush (fpcr : Word) : FT → Bool
  | .f16 | .bf16 => bitAt fpcr 9
  | .f32 => bitAt fpcr 8
  | .f64 => false

/-- Read an operand as a number: a flushed subnormal is a zero of its sign; DN for every subnormal (R70, R71). -/
def fRead (t : FT) (fz : Bool) (x : Nat) : Nat × Fl :=
  let x := x % 2 ^ fWidth t
  if fSubnormal t x then (if fz then x / fSignBit t * fSignBit t else x, flDN) else (x, 0)

def isNan : FVal → Bool | .nan _ => true | _ => false
def isSnan : FVal → Bool | .nan s => s | _ => false

/-- The NaN an operation returns (R67), from its operands in field order. -/
def nanOf (t : FT) (xs : List Nat) : Nat :=
  match xs.find? fun x => isSnan (fVal t x) with
  | some x => if x % 2 ^ fFrac t < fQuiet t then x + fQuiet t else x
  | none => match xs.find? fun x => isNan (fVal t x) with
    | some x => x
    | none => fDefNan t

/-- A NaN result with its flag. -/
def nanRes (t : FT) (xs : List Nat) (invalid : Bool) : Nat × Fl :=
  (nanOf t xs, flIf (invalid || xs.any fun x => isSnan (fVal t x)) flIV)

/-! ### Rounding (R68, R69) -/

/-- The dynamic attribute of FPCR, or the instruction's own. -/
def rmOfFpcr (fpcr : Word) : RM := rmOf (fpcr.toNat % 8)
def rmAt (fpcr : Word) (rm : RM) : RM := match rm with | .dyn => rmOfFpcr fpcr | r => r

/-- Round n + r/d to an integer, where the remainder compares with one half as `half` says and `inexact` says that it is
not zero. -/
def roundUp (rm : RM) (neg odd inexact : Bool) (half : Ordering) : Bool :=
  match rm with
  | .rtz => false
  | .rup => inexact && !neg
  | .rdn => inexact && neg
  | .rna => half != .lt
  | _ => half == .gt || (half == .eq && odd)

/-- m·2^e as a whole number of units 2^q, rounded; the second answer says that it was inexact. A sticky value lies
strictly between m and m + 1 units of 2^e. -/
def roundAt (rm : RM) (neg : Bool) (m : Nat) (e : Int) (sticky : Bool) (q : Int) : Nat × Bool :=
  if q ≤ e then
    let n := m * 2 ^ (e - q).toNat
    (if roundUp rm neg (n % 2 = 1) sticky .lt then n + 1 else n, sticky)
  else
    let k := (q - e).toNat
    let n := m / 2 ^ k
    let r := m % 2 ^ k
    let inexact := sticky || decide (r ≠ 0)
    let half : Ordering :=
      if r < 2 ^ (k - 1) then .lt else if r = 2 ^ (k - 1) ∧ sticky = false then .eq else .gt
    (if roundUp rm neg (n % 2 = 1) inexact half then n + 1 else n, inexact)

/-- The result on overflow (R69). -/
def overflowRes (t : FT) (rm : RM) (neg : Bool) : Nat :=
  let toInf : Bool := match rm with | .rtz => false | .rup => !neg | .rdn => neg | _ => true
  if toInf then fInf t neg else fSigned t neg (fMaxBits t)

/-- Round a nonzero exact value to a format: one rounding, overflow (R69), tininess after rounding (R70), flushing
(R71). -/
def roundFin (t : FT) (rm : RM) (fz : Bool) (neg : Bool) (m : Nat) (e : Int) (sticky : Bool) : Nat × Fl :=
  let p : Int := (fPrec t : Nat)
  let ex : Int := (Nat.log2 m : Nat) + e
  let u := roundAt rm neg m e sticky (ex - (p - 1))
  let eu : Int := if u.1 = 2 ^ fPrec t then ex + 1 else ex
  if fEmax t < eu then (overflowRes t rm neg, flOF ||| flNX)
  else
    let tiny := decide (eu < fEmin t)
    if tiny && fz then (fZero t neg, flUF ||| flNX)
    else
      let q : Int := max ex (fEmin t) - (p - 1)
      let r := roundAt rm neg m e sticky q
      let k := (q - (fEmin t - (p - 1))).toNat
      (fSigned t neg (k * 2 ^ fFrac t + r.1), flIf r.2 flNX ||| flIf (tiny && r.2) flUF)

/-- Round an exact value that may be zero; `zneg` is the sign of a zero. -/
def roundVal (t : FT) (rm : RM) (fz : Bool) (v : Int) (e : Int) (zneg : Bool) : Nat × Fl :=
  if v = 0 then (fZero t zneg, 0) else roundFin t rm fz (decide (v < 0)) v.natAbs e false

/-! ### Exact sums and products -/

def signedMag (neg : Bool) (m : Nat) : Int := if neg then -(m : Int) else m

/-- m·2^e in units of 2^q, for q at most e. -/
def scaleTo (v : Int) (e q : Int) : Int := v * (2 ^ (e - q).toNat : Nat)

/-- The sum of two finite values: units and exponent. -/
def addFin (n1 : Bool) (m1 : Nat) (e1 : Int) (n2 : Bool) (m2 : Nat) (e2 : Int) : Int × Int :=
  let q := min e1 e2
  (scaleTo (signedMag n1 m1) e1 q + scaleTo (signedMag n2 m2) e2 q, q)

/-- Round the sum of two values that are no NaN: ∞ − ∞ is invalid; an exact zero of unlike signs is +0, and −0 under RDN
(R245). -/
def sumRes (t : FT) (rm : RM) (fz : Bool) (x y : FVal) (nans : List Nat) : Nat × Fl :=
  match x, y with
  | .inf a, .inf b => if a = b then (fInf t a, 0) else nanRes t nans true
  | .inf a, _ => (fInf t a, 0)
  | _, .inf b => (fInf t b, 0)
  | .fin n1 m1 e1, .fin n2 m2 e2 =>
    let s := addFin n1 m1 e1 n2 m2 e2
    roundVal t rm fz s.1 s.2 (if n1 = n2 then n1 else rm == .rdn)
  | _, _ => nanRes t nans true

/-- The sign flip of R245: a NaN keeps its sign. -/
def flipSign (t : FT) (x : Nat) : Nat :=
  if isNan (fVal t x) then x else if x < fSignBit t then x + fSignBit t else x - fSignBit t

/-- FADD on encodings (R245). -/
def fAdd (t : FT) (rm : RM) (fpcr : Word) (a b : Nat) : Nat × Fl :=
  let fz := fFlush fpcr t
  let x := fRead t fz a
  let y := fRead t fz b
  let vx := fVal t x.1
  let vy := fVal t y.1
  let r := if isNan vx || isNan vy then nanRes t [x.1, y.1] false
           else sumRes t (rmAt fpcr rm) fz vx vy [x.1, y.1]
  (r.1, r.2 ||| x.2 ||| y.2)

/-- FSUB (R245). -/
def fSub (t : FT) (rm : RM) (fpcr : Word) (a b : Nat) : Nat × Fl := fAdd t rm fpcr a (flipSign t (b % 2 ^ fWidth t))

/-- The product of two values that are no NaN; none is 0·∞. -/
def mulVal (x y : FVal) : Option FVal :=
  match x, y with
  | .inf a, .inf b => some (.inf (a != b))
  | .inf a, .fin n m _ => if m = 0 then none else some (.inf (a != n))
  | .fin n m _, .inf b => if m = 0 then none else some (.inf (b != n))
  | .fin n1 m1 e1, .fin n2 m2 e2 => some (.fin (n1 != n2) (m1 * m2) (e1 + e2))
  | _, _ => none

/-- FMUL (R245). -/
def fMul (t : FT) (rm : RM) (fpcr : Word) (a b : Nat) : Nat × Fl :=
  let fz := fFlush fpcr t
  let x := fRead t fz a
  let y := fRead t fz b
  let vx := fVal t x.1
  let vy := fVal t y.1
  let r := if isNan vx || isNan vy then nanRes t [x.1, y.1] false
           else match mulVal vx vy with
             | none => nanRes t [] true
             | some (.fin n m e) => roundVal t (rmAt fpcr rm) fz (signedMag n m) e n
             | some (.inf n) => (fInf t n, 0)
             | some (.nan _) => nanRes t [] true
  (r.1, r.2 ||| x.2 ||| y.2)

/-- FFMA (R245): one rounding of A·B + C; 0·∞ is invalid even when C is a NaN (R67). -/
def fFma (t : FT) (rm : RM) (nc : Bool) (fpcr : Word) (a b c : Nat) : Nat × Fl :=
  let fz := fFlush fpcr t
  let x := fRead t fz a
  let y := fRead t fz b
  let z := fRead t fz c
  let zc := if nc then flipSign t z.1 else z.1
  let vx := fVal t x.1
  let vy := fVal t y.1
  let vz := fVal t zc
  let ops := [x.1, y.1, zc]
  let r :=
    if isNan vx || isNan vy then nanRes t ops false
    else match mulVal vx vy with
      | none => nanRes t ops true
      | some pr => if isNan vz then nanRes t ops false else sumRes t (rmAt fpcr rm) fz pr vz ops
  (r.1, r.2 ||| x.2 ||| y.2 ||| z.2)

/-! ### Comparison (R246, R247) -/

/-- Order of two values that are no NaN, zeros equal. -/
def cmpVal (x y : FVal) : Ordering :=
  match x, y with
  | .inf a, .inf b => if a = b then .eq else if a then .lt else .gt
  | .inf a, _ => if a then .lt else .gt
  | _, .inf b => if b then .gt else .lt
  | .fin n1 m1 e1, .fin n2 m2 e2 =>
    let q := min e1 e2
    compare (scaleTo (signedMag n1 m1) e1 q) (scaleTo (signedMag n2 m2) e2 q)
  | _, _ => .eq

def valNeg : FVal → Bool | .nan _ => false | .inf n => n | .fin n _ _ => n

/-- FMIN (`mx` false) and FMAX; `nan` is .nan (R246). −0 is below +0. -/
def fMinMax (t : FT) (mx nan : Bool) (fpcr : Word) (a b : Nat) : Nat × Fl :=
  let fz := fFlush fpcr t
  let x := fRead t fz a
  let y := fRead t fz b
  let vx := fVal t x.1
  let vy := fVal t y.1
  let iv := flIf (isSnan vx || isSnan vy) flIV
  let r :=
    if isNan vx && isNan vy then nanOf t [x.1, y.1]
    else if isNan vx || isNan vy then
      (if nan then nanOf t [x.1, y.1] else if isNan vx then y.1 else x.1)
    else
      let below := match cmpVal vx vy with | .lt => true | .gt => false | .eq => valNeg vx
      if below == mx then y.1 else x.1
  (r, iv ||| x.2 ||| y.2)

/-- FCMP: the value r and the flags (R247). -/
def fCompare (t : FT) (c : FCmp) (u : Bool) (fpcr : Word) (a b : Nat) : Bool × Fl :=
  let fz := fFlush fpcr t
  let x := fRead t fz a
  let y := fRead t fz b
  let vx := fVal t x.1
  let vy := fVal t y.1
  let un := isNan vx || isNan vy
  let o := cmpVal vx vy
  let quietIv : Bool := match c with | .lt | .le | .gt | .ge => un | _ => false
  let r : Bool := match c with
    | .num => !un
    | .nan => un
    | .eq => if un then u else o == .eq
    | .ne => if un then u else o != .eq
    | .lt => if un then u else o == .lt
    | .le => if un then u else o != .gt
    | .gt => if un then u else o == .gt
    | .ge => if un then u else o != .lt
  (r, flIf (quietIv || isSnan vx || isSnan vy) flIV ||| x.2 ||| y.2)

/-- FCLASS (R248). -/
def fClass (t : FT) (x : Nat) : Nat :=
  match fVal t x with
  | .nan s => if s then 1 else 2
  | .inf n => if n then 2 ^ 2 else 2 ^ 9
  | .fin n m _ =>
    if m = 0 then (if n then 2 ^ 5 else 2 ^ 6)
    else if fSubnormal t x then (if n then 2 ^ 4 else 2 ^ 7)
    else if n then 2 ^ 3 else 2 ^ 8

/-! ### Division and square root (R249) -/

/-- ⌊√n⌋ of a number below 4^k. -/
def isqrt (k n : Nat) : Nat :=
  (List.range k).reverse.foldl (fun r i => if (r + 2 ^ i) * (r + 2 ^ i) ≤ n then r + 2 ^ i else r) 0

/-- Round (m1/m2)·2^e, for m1 and m2 not zero. -/
def roundQuot (t : FT) (rm : RM) (fz : Bool) (neg : Bool) (m1 m2 : Nat) (e : Int) : Nat × Fl :=
  let k := 64 + fPrec t + Nat.log2 m2
  let q := m1 * 2 ^ k / m2
  roundFin t rm fz neg q (e - (k : Nat)) (decide (m1 * 2 ^ k % m2 ≠ 0))

/-- FDIV (R249). -/
def fDiv (t : FT) (rm : RM) (fpcr : Word) (a b : Nat) : Nat × Fl :=
  let fz := fFlush fpcr t
  let x := fRead t fz a
  let y := fRead t fz b
  let vx := fVal t x.1
  let vy := fVal t y.1
  let r := if isNan vx || isNan vy then nanRes t [x.1, y.1] false
    else match vx, vy with
      | .inf _, .inf _ => nanRes t [] true
      | .inf n, v => (fInf t (n != valNeg v), 0)
      | v, .inf n => (fZero t (n != valNeg v), 0)
      | .fin n1 m1 e1, .fin n2 m2 e2 =>
        if m2 = 0 then (if m1 = 0 then nanRes t [] true else (fInf t (n1 != n2), flDZ))
        else if m1 = 0 then (fZero t (n1 != n2), 0)
        else roundQuot t (rmAt fpcr rm) fz (n1 != n2) m1 m2 (e1 - e2)
      | _, _ => nanRes t [] true
  (r.1, r.2 ||| x.2 ||| y.2)

/-- Round √(m·2^e), for m not zero. -/
def roundSqrt (t : FT) (rm : RM) (fz : Bool) (m : Nat) (e : Int) : Nat × Fl :=
  let m' := if e % 2 = 0 then m else 2 * m
  let e' := if e % 2 = 0 then e else e - 1
  let k := 64
  let n := m' * 2 ^ (2 * k)
  let r := isqrt (k + 28) n
  roundFin t rm fz false r (e' / 2 - (k : Nat)) (decide (r * r ≠ n))

/-- FSQRT (R249). -/
def fSqrt (t : FT) (rm : RM) (fpcr : Word) (a : Nat) : Nat × Fl :=
  let fz := fFlush fpcr t
  let x := fRead t fz a
  let r := match fVal t x.1 with
    | .nan _ => nanRes t [x.1] false
    | .inf n => if n then nanRes t [] true else (fInf t false, 0)
    | .fin n m e => if m = 0 then (x.1, 0) else if n then nanRes t [] true else roundSqrt t (rmAt fpcr rm) fz m e
  (r.1, r.2 ||| x.2)

/-! ### Rounding to integers, scaling, exponents (R253 to R255) -/

/-- FRND (R253). -/
def fRnd (t : FT) (rm : RM) (ex : Bool) (fpcr : Word) (a : Nat) : Nat × Fl :=
  let fz := fFlush fpcr t
  let x := fRead t fz a
  let r := match fVal t x.1 with
    | .nan _ => nanRes t [x.1] false
    | .inf _ => (x.1, 0)
    | .fin n m e =>
      if m = 0 ∨ 0 ≤ e then (x.1, 0)
      else
        let i := roundAt (rmAt fpcr rm) n m e false 0
        ((roundVal t .rtz false (signedMag n i.1) 0 n).1, flIf (ex && i.2) flNX)
  (r.1, r.2 ||| x.2)

/-- FSCALE (R254). An n beyond every format's range gives the result of one at its edge. -/
def fScale (t : FT) (rm : RM) (fpcr : Word) (a : Nat) (n : Int) : Nat × Fl :=
  let fz := fFlush fpcr t
  let x := fRead t fz a
  let r := match fVal t x.1 with
    | .nan _ => nanRes t [x.1] false
    | .inf _ => (x.1, 0)
    | .fin s m e => if m = 0 then (x.1, 0) else roundFin t (rmAt fpcr rm) fz s m (e + max (-5000) (min 5000 n)) false
  (r.1, r.2 ||| x.2)

/-- FGETX (R255). -/
def fGetx (t : FT) (fpcr : Word) (a : Nat) : Nat × Fl :=
  let x := fRead t (fFlush fpcr t) a
  let r : Nat × Fl := match fVal t x.1 with
    | .nan _ => (0x80000000, flIV)
    | .inf _ => (0x7FFFFFFF, flIV)
    | .fin _ m e => if m = 0 then (0x80000000, flDZ) else ((BitVec.ofInt 32 ((Nat.log2 m : Nat) + e)).toNat, 0)
  (r.1, r.2 ||| x.2)

/-! ### Conversions (R73, R256, R257) -/

/-- F2F (R256): a NaN's fraction is cut from its low end or extended, and made quiet. -/
def fConv (dt st_ : FT) (rm : RM) (fpcr : Word) (a : Nat) : Nat × Fl :=
  let x := fRead st_ (fFlush fpcr st_) a
  let r := match fVal st_ x.1 with
    | .nan s =>
      let f := x.1 % 2 ^ fFrac st_
      let g := if fFrac st_ ≤ fFrac dt then f * 2 ^ (fFrac dt - fFrac st_) else f / 2 ^ (fFrac st_ - fFrac dt)
      (fSigned dt (decide (fSignBit st_ ≤ x.1)) (fInfBits dt + (g % fQuiet dt + fQuiet dt)), flIf s flIV)
    | .inf n => (fInf dt n, 0)
    | .fin n m e => roundVal dt (rmAt fpcr rm) (fFlush fpcr dt) (signedMag n m) e n
  (r.1, r.2 ||| x.2)

/-- The least and largest values of an integer type. -/
def itMin (t : IT) : Int := if t.signed then -((2 ^ (t.bits - 1) : Nat) : Int) else 0
def itMax (t : IT) : Int := if t.signed then ((2 ^ (t.bits - 1) : Nat) : Int) - 1 else ((2 ^ t.bits : Nat) : Int) - 1

/-- F2I (R73, R257): the integer and the flags. -/
def fToInt (t : FT) (it : IT) (rm : RM) (fpcr : Word) (a : Nat) : Int × Fl :=
  let x := fRead t (fFlush fpcr t) a
  let r : Int × Fl := match fVal t x.1 with
    | .nan _ => (0, flIV)
    | .inf n => (if n then itMin it else itMax it, flIV)
    | .fin n m e =>
      let i := roundAt (rmAt fpcr rm) n m e false 0
      let v := signedMag n i.1
      if itMax it < v then (itMax it, flIV)
      else if v < itMin it then (itMin it, flIV)
      else (v, flIf i.2 flNX)
  (r.1, r.2 ||| x.2)

/-- I2F (R73, R257). -/
def intToF (t : FT) (rm : RM) (fpcr : Word) (v : Int) : Nat × Fl :=
  roundVal t (rmAt fpcr rm) (fFlush fpcr t) v 0 false

end Sys2Proof.Machine
end

