-- ==== Sys2Proof/Machine/Order.lean ====
section
/-!
DEFINITION. Happens-before (R131 to R140): scope instances, moral strength, what a strong write carries and what a strong
read takes from it, and the fences. A view holds, of each agent, the last turn of its events that happens before.
-/
namespace Sys2Proof.Machine

/-! ### Agents -/

/-- The agent of an engine queue or a stream of a block: QFENCE bits 0 to 31 (R119, R297). -/
def Agent.engine (blk bit : Nat) : Nat := 2 ^ 60 + blk * 32 + bit
/-- The agent of a host port of a world (R157). -/
def Agent.port (world port : Nat) : Nat := 2 ^ 90 + world * 8 + port
/-- The device: dispatch hardware and firmware. -/
def Agent.device : Nat := 2 ^ 91
/-- Another device of the domain, by its node (R158). -/
def Agent.far (node : Nat) : Nat := 2 ^ 92 + node

/-! ### Views -/

/-- The larger number at each key of two tables. -/
def Tab.maxWith (a b : Tab Nat) : Tab Nat := b.foldl (fun t e => if t.get 0 e.1 < e.2 then t.put e.1 e.2 else t) a

/-- What either view knows. -/
def View.join (a b : View) : View := { clock := Tab.maxWith a.clock b.clock, seen := Tab.maxWith a.seen b.seen }

/-- The view, with every event of an agent up to a turn. -/
def View.upTo (v : View) (agent turn : Nat) : View := { v with clock := Tab.maxWith v.clock [(agent, turn)] }

/-- An event of an agent at a turn happens before what has the view. -/
def View.knows (v : View) (agent turn : Nat) : Bool := decide (turn ≤ v.clock.get 0 agent)

/-- What a warp's release orders: what happens before it, and its own events so far (R138). -/
def State.relView (s : State) (w : Nat) : View := (s.warp w).ctl.view.upTo w s.seqNo

/-- A warp comes to know a view. -/
def joinView (w : Nat) (v : View) : Prog Unit :=
  if v = {} then .ret () else upd (.ctl w fun c => { c with view := c.view.join v })

/-! ### Scope instances (R131) -/

/-- What an instance of a scope that holds a warp is about: its warp, block, gang, die, quad or world. -/
def scopeId (s : State) (sc : Scope) (w : Nat) : Nat :=
  let die := s.coreOfWarp w / 16
  match sc with
  | .ln | .wp => w
  | .bk => blockOfWarp w
  | .gg => s.gangOfWarp w
  | .di => die
  | .qd => die % 8 / 2 + die / 16 * 4
  | .wd | .hs => s.worldOfWarp w
  | .dm => 0

/-- The instance of a scope that holds a warp, as the machine stands. -/
def instOf (s : State) (sc : Scope) (w : Nat) : Inst := ⟨sc, scopeId s sc w⟩

/-- The warp runs: its gang is placed. -/
def placed (s : State) (w : Nat) : Bool :=
  let r := (s.runOf (runOfWarp w)).st
  r == .resident || r == .saving

/-- Numbers that no warp has stand for what else accesses memory (R131): 0 the device, which every instance from .wd on holds;
1 the hosts, from .hs on; 2 the warps of other devices, at .dm. -/
def hostWarp : Nat := 1
def farWarp : Nat := 2

/-- An instance holds a warp (R131): that of a lane holds no other warp, those of a die and a quad hold the warps that run
there. -/
def Inst.has (s : State) (i : Inst) (w : Nat) : Bool :=
  if w ≤ farWarp then decide (7 + w ≤ i.sc.code)
  else i.id == scopeId s i.sc w && (match i.sc with | .ln => false | .di | .qd => placed s w | _ => true)

/-- The scope of a strong access to a window is at most .gg (R95, R133). -/
def capScope (window : Bool) (sc : Scope) : Scope := if window && decide (4 < sc.code) then .gg else sc

/-- A strong access of a warp at a scope, and a strong write, are morally strong (R132). -/
def morallyStrong (s : State) (w : Nat) (sc : Scope) (m : Msg) : Bool :=
  m.warp == w || (m.inst.has s w && (instOf s sc w).has s m.warp)

/-- The releases of a write that an acquire of a warp at a scope synchronises with (R138). -/
def relsFor (s : State) (w : Nat) (sc : Scope) (m : Msg) : List Rel :=
  m.rels.filter fun r => r.warp == w || (r.insts.all (·.has s w) && (instOf s sc w).has s r.warp)

/-! ### Strong reads and fences (R138 to R140) -/

/-- The strong writes that a read of the bytes from an offset on finds, once each. -/
def msgsAt (t : Tab ByteMsg) (off n : Nat) : List Msg :=
  (t.filter fun e => decide (off ≤ e.1) && decide (e.1 < off + n)).foldl
    (fun l e => match e.2.last with
      | some m => if l.any fun x => x.agent == m.agent && x.turn == m.turn then l else m :: l
      | none => l) []

/-- A strong read of a warp finds the writes listed: an acquire takes their releases, and an acquire fence after it may. -/
def strongRead (w : Nat) (sc : Scope) (acq : Bool) (ms : List Msg) : Prog Unit :=
  .get fun s =>
    let found := ms.filter fun m => m.agent != w || !m.rels.isEmpty
    if found.isEmpty then .ret ()
    else
      let obs (m : Msg) : Obs := ⟨m.warp, m.agent, m.turn, morallyStrong s w sc m, relsFor s w sc m, m.view⟩
      let new := (found.map obs).filter fun o => o.strong || !o.rels.isEmpty
      upd (.ctl w fun c => { c with
        view := if acq then (new.flatMap (·.rels)).foldl (fun v r => v.join r.view) c.view else c.view
        obs := new ++ c.obs.filter fun o => !new.any fun n => n.agent == o.agent && n.turn == o.turn })

/-- An acquire at .gg or wider makes the warp's later weak loads miss every L1 line filled so far (R99). -/
def acquire (w : Nat) (sc : Scope) : Prog Unit :=
  .get fun s => upd (.ctl w fun c => { c with acq := if 4 ≤ sc.code then s.seqNo + 1 else c.acq })

/-- An acquire fence (R138): the releases that earlier strong reads found, of warps in its instance. -/
def acquireFence (w : Nat) (sc : Scope) : Prog Unit :=
  .get fun s =>
    let i := instOf s sc w
    upd (.ctl w fun c =>
      { c with view := ((c.obs.flatMap (·.rels)).filter fun r => r.warp == w || i.has s r.warp).foldl (fun v r => v.join r.view) c.view })

/-- A release fence (R138): it orders what precedes it before the warp's later strong writes. -/
def releaseFence (w : Nat) (sc : Scope) : Prog Unit :=
  .get fun s =>
    let i := instOf s sc w
    upd (.ctl w fun c => { c with rels := ⟨w, [i], s.relView w⟩ :: c.rels.filter fun r => r.insts != [i] })

/-- FENCE.sc (R139, R140): it comes after every FENCE.sc so far whose instance and its own hold each other's warps, and after
the strong writes that the warp's strong reads observed, and what happens before them. -/
def scFence (w : Nat) (sc : Scope) : Prog Unit :=
  letI := progMonad
  do
    let s ← st
    let i := instOf s sc w
    let before := s.scOrder.filter fun e => e.1 == w || (i.has s e.1 && e.2.1.has s w)
    upd (.ctl w fun c =>
      { c with view := (c.obs.filter fun o => o.strong && (o.warp == w || i.has s o.warp)).foldl (fun v o => v.join (o.view.upTo o.agent o.turn))
                         (before.foldl (fun v e => v.join e.2.2) c.view) })
    let s ← st
    upd (.scOrder ((w, i, s.relView w) :: s.scOrder.filter fun e => !(e.1 == w && e.2.1 == i)))

/-! ### Writers -/

/-- Who performs a write and what it carries: core, agent, the warp it acts for, what happens before it, the turn of its
issue, and of a strong write its record. -/
structure Writer where
  core : Nat
  agent : Nat
  warp : Nat
  clock : Tab Nat
  turn : Nat
  msg : Option Msg
  deriving DecidableEq, Repr

/-- Size of a strong write, or 0. -/
def Writer.size (wr : Writer) : Nat := match wr.msg with | some m => m.size | none => 0

/-- The record of a strong write of a warp (R138): `rel` when it is a release; the warp's release fences come with it. -/
def strongMsg (s : State) (w size : Nat) (sc : Scope) (rel : Bool) : Msg :=
  let i := instOf s sc w
  let fences := (s.warp w).ctl.rels.map fun r => { r with insts := i :: r.insts }
  { size, warp := w, agent := w, turn := s.seqNo, inst := i, view := s.relView w,
    rels := if rel then ⟨w, [i], s.relView w⟩ :: fences else fences }

/-- A strong write as it stands where its warp runs now (R131: when it is performed). -/
def Msg.here (s : State) (m : Msg) : Msg :=
  let i := instOf s m.inst.sc m.warp
  { m with inst := i, rels := m.rels.map fun r => { r with insts := i :: r.insts.drop 1 } }

/-- A warp's weak write, or its strong write at a scope. -/
def warpWriter (s : State) (w size : Nat) (sc : Option Scope) (rel : Bool) : Writer :=
  { core := s.coreOfWarp w, agent := w, warp := w, clock := (s.warp w).ctl.view.clock, turn := s.seqNo,
    msg := sc.map fun c => strongMsg s w size c rel }

/-- The device's own write: none of a warp, and a release at .wd when it is strong (R45, R391). -/
def deviceWriter (s : State) (world core size : Nat) (v : View) : Writer :=
  let i : Inst := ⟨.wd, world⟩
  let all := v.upTo Agent.device s.seqNo
  { core, agent := Agent.device, warp := 0, clock := v.clock, turn := s.seqNo,
    msg := if size = 0 then none else some { size, warp := 0, agent := Agent.device, turn := s.seqNo, inst := i, rels := [⟨0, [i], all⟩], view := all } }

/-- A write of another device (R158): a strong one stands at .dm for its warps, and its release orders what that device wrote here
before (log entry 56). -/
def farWriter (s : State) (src size : Nat) (strong : Option (Scope × Bool)) : Writer :=
  let agent := Agent.far src
  let before : View := ({} : View).upTo agent s.seqNo
  { core := 2 ^ 20, agent, warp := farWarp, clock := [], turn := s.seqNo
    msg := strong.map fun t =>
      let i : Inst := ⟨t.1, if t.1 = .dm then 0 else 2 ^ 64 + src⟩
      { size, warp := farWarp, agent, turn := s.seqNo, inst := i, rels := if t.2 then [⟨farWarp, [i], before⟩] else [], view := before } }

/-- Two strong writes of different sizes that overlap, of which neither happens before the other, leave unpredictable values
in the bytes they share (R137): free values. -/
def raceBytes (old : Tab ByteMsg) (wr : Writer) (data : Tab Byte) : Prog (Tab Byte) :=
  if wr.size = 0 || old.isEmpty then .ret data
  else mapAll data fun d =>
    if (Tab.get {} old d.1).strong.any fun e => e.1 != wr.size && e.2.1 != wr.agent && decide (wr.clock.get 0 e.2.1 < e.2.2) then
      .bind freeVal fun f => .ret (d.1, f.setWidth 8)
    else .ret d

/-- Releases with others before them; of one warp and the same instances the newer one says all. -/
def moreRels (new old : List Rel) : List Rel := new ++ old.filter fun r => !new.any fun n => n.warp == r.warp && n.insts == r.insts

/-- The records of a place after a write: a strong write's in its bytes, none in those of a weak one. A read-modify-write
goes on the release sequences of all the writes it follows (R138). -/
def recordWrite (old : Tab ByteMsg) (wr : Writer) (rmw : Bool) (data : Tab Byte) : Tab ByteMsg :=
  match wr.msg with
  | none => if old.isEmpty then old else old.map fun e => if data.any fun d => d.1 == e.1 then (e.1, { e.2 with last := none }) else e
  | some m => data.foldl (fun t d =>
      let b := Tab.get {} old d.1
      let all := moreRels m.rels b.rels
      Tab.put t d.1
        { last := some { m with rels := if rmw then all else m.rels }, rels := all,
          strong := (m.size, m.agent, m.turn) :: b.strong.filter fun e => !(e.1 == m.size && e.2.1 == m.agent) }) old

end Sys2Proof.Machine
end

