-- ==== Sys2Proof/Machine/Mem.lean ====
section
/-!
DEFINITION. Memory as accesses reach it: physical bytes, line MACs (R103), the mirrored tables and their walk (R398 to
R407), the TLB (R402), the host windows (R372, R373), and where a generic address leads with the checks of R273.
-/
namespace Sys2Proof.Machine

/-! ### The heat record's counters and events (R435, R436, R439, R440) -/

/-- A change of the heat record (R435: sequence and time of change). -/
def heatUpd (f : Heat → Heat) : Prog Unit :=
  .get fun s => upd (.dev fun d => { d with heat := { f d.heat with seq := d.heat.seq + 1, changed := s.time } })

/-- Count in counter i of a die's entry, saturating (R436). -/
def heatCount (die i : Nat) : Prog Unit :=
  heatUpd fun h => { h with counts := h.counts.put (die * 16 + i) (min (2 ^ 64 - 1) (h.counts.get 0 (die * 16 + i) + 1)) }

/-- Post an event entry (R439). -/
def heatEvent (kind die core world asid : Nat) (a b : DWord) : Prog Unit :=
  .get fun s => heatUpd fun h =>
    { h with events := ({ time := s.time, kind, die, core, world, asid, a, b } :: h.events).take 1024, total := h.total + 1 }

/-- Post or merge a security event (R440): events of one source on one die within 1 ms merge, those since power-on, for the time
base begins again there. -/
def secEvent (source die world level : Nat) : Prog Unit :=
  .get fun s => heatUpd fun h =>
    let same (e : HeatEvent × Nat) : Bool :=
      e.1.kind == 11 && e.1.a.toNat == source && e.1.die == die && decide (s.time ≤ e.1.time + 1000000)
        && decide (e.2 < h.total - s.dev.bootTotal)
    if h.events.zipIdx.any same then
      { h with events := h.events.zipIdx.map fun e =>
          if same e then { e.1 with b := setField e.1.b 32 32 (min (2 ^ 32 - 1) (field e.1.b 32 32 + 1)) } else e.1 }
    else
      { h with
        events := ({ time := s.time, kind := 11, die, core := 0, world, asid := 0, a := BitVec.ofNat 64 source,
                     b := BitVec.ofNat 64 (level + 2 ^ 32) } :: h.events).take 1024
        total := h.total + 1 }

/-- Send a message to the outside. -/
def send (o : Out) : Prog Unit := upd (.dev fun d => { d with out := o :: d.out })

/-! ### The die grid (R425, R427) -/

/-- Both links of the boundary between positions p and p + 1 of a ring are down; a ring is a row or a column of the grid. -/
def boundaryDown (s : State) (row : Bool) (ring p : Nat) : Bool :=
  s.dev.linksDown.contains (.boundary row ring p false) && s.dev.linksDown.contains (.boundary row ring p true)

/-- A packet travels in a ring from one position to another, in one direction or the other. -/
def ringJoins (s : State) (row : Bool) (ring a b : Nat) : Bool :=
  let up (a b : Nat) : Bool := (List.range ((b + 8 - a) % 8)).all fun i => !boundaryDown s row ring ((a + i) % 8)
  up a b || up b a

/-- Packets travel from a die to another in dimension order. -/
def routed (s : State) (a b : Nat) : Bool :=
  ringJoins s true (a / 8) (a % 8) (b % 8) && ringJoins s false (b % 8) (a / 8) (b / 8)

/-- A request from a core and its response find no path (R427). -/
def unreachable (s : State) (core die : Nat) : Bool :=
  decide (core < 1024) && !(routed s (core / 16) die && routed s die (core / 16))

/-! ### Physical memory -/

/-- The n bytes from a physical address on. -/
def physBytes (s : State) (a n : Nat) : List Byte := (List.range n).map fun i => Tab.get 0 s.mem (a + i)

/-- Store bytes from a physical address on. -/
def physStore (a : Nat) (bs : List Byte) : Prog Unit :=
  match bs with
  | [] => .ret ()
  | b :: t => .upd (.mem a b) (physStore (a + 1) t)

/-- Key of the byte at address `pa` of a space. -/
def physKey (space pa : Nat) : Nat := space * 2 ^ 64 + pa
/-- Key of the line that holds a physical byte. -/
def lineKey (p : Nat) : Nat := p / 128

/-- The space of a location code of R399 on a die. -/
def locSpace (die loc : Nat) : Nat := if loc = 0 then die else 64 + loc

/-- Base and size of a die's table region (R397). -/
def tabBase (s : State) (d : Nat) : Nat := field (s.die d).tblreg 16 20 * 2 ^ 16
def tabSize (s : State) (d : Nat) : Nat := field (s.die d).tblreg 40 20 * 2 ^ 16
/-- The die and base of the mirror (R397). -/
def mirDie (s : State) (d : Nat) : Nat := field (s.die d).trcfg 58 6
def mirBase (s : State) (d : Nat) : Nat := field (s.die d).trcfg 16 20 * 2 ^ 16

def inTable (s : State) (d pa : Nat) : Bool := decide (tabBase s d ≤ pa) && decide (pa < tabBase s d + tabSize s d)

/-- A physical address of the die's HBM lies in a mirror region, its own or another die's (R400). -/
def inMirror (s : State) (d pa : Nat) : Bool :=
  s.dies.any fun e => mirDie s e.1 == d && decide (mirBase s e.1 ≤ pa) && decide (pa < mirBase s e.1 + tabSize s e.1)

/-- n bytes of the die's HBM from an address meet its table region, or a mirror region (R400). -/
def meetsTable (s : State) (d pa n : Nat) : Bool :=
  decide (tabBase s d < pa + n) && decide (pa < tabBase s d + tabSize s d)
def meetsMirror (s : State) (d pa n : Nat) : Bool :=
  s.dies.any fun e => mirDie s e.1 == d && decide (mirBase s e.1 < pa + n) && decide (pa < mirBase s e.1 + tabSize s e.1)

/-- The key a crucible slot of a die holds; 0 is none (R443). -/
def slotKey (s : State) (d n : Nat) : Nat := ((s.die d).slots.get {} n).key
def slotGen (s : State) (d n : Nat) : BitVec 8 := ((s.die d).slots.get {} n).gen

/-- The tag of a table line: the world key, named by its primary address (log entry 14). -/
def tabTag (s : State) (d pa : Nat) : LineTag := { key := slotKey s d 0, die := d, page := pa / 2 ^ 16 }

/-- A line is readable under a tag: the same key, tweak, die and page, a key that exists, no poison. -/
def tagOk (have_ want : LineTag) : Bool := have_ == want && want.key != 0

/-! ### The table walk (R398 to R407) -/

/-- Sixteen bytes of the table region at the primary, or else at the mirror; the second answer says that the mirror
was used (R407). -/
def tabRead (s : State) (d pa : Nat) : Option (DWord × DWord × Bool) :=
  let at_ (k : Nat) : Option (DWord × DWord) :=
    if tagOk (s.tags.get {} (lineKey k)) (tabTag s d pa) then
      some (BitVec.ofNat 64 (leNat (physBytes s k 8)), BitVec.ofNat 64 (leNat (physBytes s (k + 8) 8)))
    else none
  match at_ (physKey d pa) with
  | some (a, b) => some (a, b, false)
  | none => match at_ (physKey (mirDie s d) (mirBase s d + (pa - tabBase s d))) with
    | some (a, b) => some (a, b, true)
    | none => none

/-- How a walk ends. -/
inductive WalkEnd where
  /-- an entry that is a leaf, or has V = 0: its words, physical address and level -/
  | entry (w0 w1 : DWord) (pa level : Nat)
  | fail (c : Cause)
  /-- both copies of a line of the node at this physical address failed, in this walk or an earlier one (R407) -/
  | poison (pa : Nat)
  deriving DecidableEq, Repr

/-- Page size of a level (R398). -/
def levelBits (level : Nat) : Nat := match level with | 1 => 16 | 2 => 21 | _ => 30
/-- Index bits and node size of a level. -/
def levelIdx (level off : Nat) : Nat :=
  match level with | 1 => off / 2 ^ 16 % 32 | 2 => off / 2 ^ 21 % 512 | _ => off / 2 ^ 30 % 32768
def nodeSize (level : Nat) : Nat := match level with | 1 => 512 | 2 => 8192 | _ => 524288

/-- A node address is legal: inside the table region and aligned to its size (R398, R400). -/
def nodeOk (s : State) (d pa level : Nat) : Bool :=
  pa % nodeSize level == 0 && inTable s d pa && inTable s d (pa + nodeSize level - 1)

/-- Walk from a node of a level down; the list collects table lines read from the mirror. -/
def walkFrom (s : State) (d off : Nat) : Nat → Nat → List Nat → WalkEnd × List Nat
  | 0, _, rep => (.fail .protect, rep)
  | level + 1, node, rep =>
    if !nodeOk s d node (level + 1) then (.fail .protect, rep)
    else
      let pa := node + 16 * levelIdx (level + 1) off
      match (if s.dev.failedNodes.contains (d, node) then none else tabRead s d pa) with
      | none => (.poison node, rep)
      | some (w0, w1, m) =>
        let rep := if m then rep ++ [pa] else rep
        if !bitAt w0 63 || bitAt w0 62 then (.entry w0 w1 pa (level + 1), rep)
        else if level = 0 || w1 != 0 || w0.toNat != 2 ^ 63 + 2 ^ 9 * field w0 9 27 then (.fail .protect, rep)
        else walkFrom s d off level (2 ^ 9 * field w0 9 27) rep

/-- The walk of an offset in a context of a die (R397, R398), whatever the entry's validity. -/
def walk (s : State) (d asid off : Nat) : WalkEnd × List Nat :=
  if tabSize s d = 0 then (.fail .translate, [])
  else
    let pa := tabBase s d + 16 * (asid / 2)
    match (if s.dev.failedNodes.contains (d, tabBase s d) then none else tabRead s d pa) with
    | none => (.poison (tabBase s d), [])
    | some (x, y, m) =>
      let e := if asid % 2 = 0 then x else y
      let rep := if m then [pa] else []
      if !bitAt e 63 then (.fail .translate, rep)
      else if e.toNat != 2 ^ 63 + 2 ^ 19 * field e 19 17 then (.fail .protect, rep)
      else walkFrom s d off 3 (2 ^ 19 * field e 19 17) rep

/-- A leaf breaks R400: a reserved bit, loc 3, an unaligned frame, or a frame in a table or mirror region. A frame in the
table region is accepted under owner ASID 0, which is how software writes tables (R406, R417; log entry 12). -/
def leafBad (s : State) (d : Nat) (w0 w1 : DWord) (level : Nat) : Bool :=
  let fr := field w0 16 36 * 2 ^ 16
  bitAt w0 52 || field w0 10 6 != 0 || field w1 24 4 != 0 || field w0 53 3 == 3 || fr % 2 ^ levelBits level != 0
    || (field w0 53 3 == 0 && ((meetsTable s d fr (2 ^ levelBits level) && field w0 0 10 != 0)
          || meetsMirror s d fr (2 ^ levelBits level)))

/-- Judge the entry a walk reached (R400, R405). -/
def judge (s : State) (d : Nat) (w0 w1 : DWord) (level : Nat) : Option Cause :=
  if !bitAt w0 63 then
    if bitAt w0 62 && bitAt w0 57 && field w1 44 8 != (slotGen s d (field w1 52 12)).toNat then some .keyretired
    else some .translate
  else if leafBad s d w0 w1 level then some .protect
  else none

/-- Repair a table line from the mirror (R407). -/
def repairLine (d pa : Nat) : Prog Unit :=
  .get fun s =>
    let base := pa / 128 * 128
    let m := physKey (mirDie s d) (mirBase s d + (base - tabBase s d))
    .bind (physStore (physKey d base) (physBytes s m 128)) fun _ =>
    .bind (upd (.tag (lineKey (physKey d base)) (tabTag s d base))) fun _ => heatCount d 7

/-! ### Translation -/

/-- A translated address: its page's entry, and where the byte lies. -/
structure Xl where
  die : Nat
  asid : Nat
  off : Nat
  space : Nat
  pa : Nat
  w0 : DWord
  w1 : DWord
  leaf : Nat
  level : Nat
  deriving DecidableEq, Repr

def Xl.slot (x : Xl) : Nat := field x.w1 52 12
def Xl.gen (x : Xl) : Nat := field x.w1 44 8
def Xl.fresh (x : Xl) : Bool := bitAt x.w0 61
def Xl.owner (x : Xl) : Nat := field x.w0 0 10
/-- Physical key of the byte, and of its line. -/
def Xl.key (x : Xl) : Nat := physKey x.space x.pa
def Xl.line (x : Xl) : Nat := lineKey x.key
/-- Identity of a page: its leaf entry. -/
def pageId (die leaf : Nat) : Nat := (die * 2 ^ 36 + leaf) * 2 ^ 24
/-- Identity of a line, which follows its page to any frame. -/
def Xl.lid (x : Xl) : Nat := pageId x.die x.leaf + x.off % 2 ^ levelBits x.level / 128
/-- The tag under which the line is readable (R103). -/
def Xl.want (s : State) (x : Xl) : LineTag :=
  if decide (x.space = x.die) && inTable s x.die x.pa then tabTag s x.die x.pa
  else { key := slotKey s x.die x.slot, tweak := BitVec.ofNat 16 (field x.w1 28 16), die := x.die, page := x.off / 2 ^ 16 }

def Xl.ofEntry (d asid off : Nat) (w0 w1 : DWord) (leaf level : Nat) : Xl :=
  let sp := locSpace d (field w0 53 3)
  { die := d, asid, off, space := sp, pa := field w0 16 36 * 2 ^ 16 + off % 2 ^ levelBits level, w0, w1, leaf, level }

def TlbEnt.hits (e : TlbEnt) (asid off : Nat) : Bool := e.asid == asid && e.page == off / 2 ^ levelBits e.level

/-- Keep only some entries of a die's memory-side TLB; the first-level TLBs of its cores lose the others too (R402). -/
def keepTlb (d : Nat) (keep : TlbEnt → Bool) : Prog Unit :=
  upd (.die d fun x =>
    let t := x.tlb.filter keep
    { x with tlb := t, tlb1 := x.tlb1.map fun c => (c.1, c.2.filter fun k => t.any fun e => (e.asid, e.level, e.page) == k) })

/-- The turns of what was translated at its issue and is not performed: operations, pushed elements, held writes (R118, R173,
R300). -/
def translatedTurns (s : State) : List Nat :=
  List.flatten
    [ (s.ops.filter fun e => !e.2.finished).map fun e => e.2.turn,
      s.blocks.flatMap fun b => b.2.streams.flatMap fun t => t.2.pend.map fun p => p.turn,
      s.gangs.flatMap fun g => g.2.holds.map fun h => h.turn ]

/-- Keep only some entries of a die's TLBs; what was translated through the others before goes on using them (R410, R417). -/
def dropEnts (d : Nat) (keep : TlbEnt → Bool) : Prog Unit :=
  .get fun s =>
    let since := translatedTurns s
    .bind (whenP (!since.isEmpty) (upd (.die d fun x => { x with
        tlbOld := List.append (x.tlbOld.filter fun e => since.any fun t => decide (t < e.1))
          ((x.tlb.filter fun e => !keep e).map fun e => (s.seqNo, e)) }))) fun _ => keepTlb d keep

/-- Nothing uses some dropped entries of a die any more. -/
def forgetEnts (d : Nat) (gone : Nat × TlbEnt → Bool) : Prog Unit :=
  .get fun s => whenP ((s.die d).tlbOld.any gone) (upd (.die d fun x => { x with tlbOld := x.tlbOld.filter fun e => !gone e }))

/-- The dropped entry that an access translated at a turn still uses. -/
def oldEnt (s : State) (d asid off turn : Nat) : Option TlbEnt :=
  ((s.die d).tlbOld.find? fun e => decide (turn < e.1) && e.2.hits asid off).map (·.2)

/-- Cache an entry in the memory-side TLB of 16,384 entries (R2); when it is full, a free value names the entry that leaves
(R414: its mark and count are lost). -/
def fillTlb (d : Nat) (e : TlbEnt) : Prog Unit :=
  .get fun s =>
    let t := (s.die d).tlb
    let put := upd (.die d fun x => { x with tlb := x.tlb ++ [e] })
    if t.length < 16384 then put
    else .bind freeVal fun f => .bind (dropEnts d fun x => some x != t[f.toNat % t.length]?) fun _ => put

/-- A core's first-level TLB caches an entry of its own die: the 128 newest stay (R2, R402). -/
def fillTlb1 (core : Nat) (x : TlbEnt) : Prog Unit :=
  let k := (x.asid, x.level, x.page)
  upd (.die (core / 16) fun v => { v with tlb1 := v.tlb1.put (core % 16) ((k :: (v.tlb1.get [] (core % 16)).filter (· != k)).take 128) })

/-- Post a table node of which a line failed at both places (R407, R439). A node that is posted as failed is not posted again by
later walks, nor by those that merged with the first (R403). -/
def postNode (d node world asid : Nat) : Prog Unit :=
  letI := progMonad
  do
    let s ← st
    whenP (!s.dev.failedNodes.contains (d, node)) (do
      send (.firmware 10 (BitVec.ofNat 64 node))
      upd (.dev fun v => { v with failedNodes := (d, node) :: v.failedNodes })
      heatEvent 10 d 0 world asid (BitVec.ofNat 64 node) 0)

/-- A walk, and what it does to the tables (R407): lines are repaired, or a failed node is posted. -/
def walkFx (world d asid off : Nat) : Prog WalkEnd :=
  letI := progMonad
  do
    let s ← st
    let r := walk s d asid off
    forAll r.2 (repairLine d)
    match r.1 with
    | .poison node => do
      postNode d node world asid
      pure r.1
    | e => pure e

/-- A walk for an access (R402, R403): its cause, or the entry, which is cached when it is valid. -/
def walkP (world d asid off : Nat) : Prog (Except Cause Xl) :=
  letI := progMonad
  do
    let r ← walkFx world d asid off
    let s ← st
    match r with
    | .fail c => pure (.error c)
    | .poison _ => pure (.error .poison)
    | .entry w0 w1 pa level =>
      match judge s d w0 w1 level with
      | some c => pure (.error c)
      | none =>
        let e : TlbEnt := ⟨world, asid, off / 2 ^ levelBits level, level, w0, w1, pa, 0, false, false, 0⟩
        fillTlb d e
        pure (.ok (Xl.ofEntry d asid off w0 w1 pa level))

/-- Translate an offset of a die in a context: a TLB entry answers, or a walk (R101, R402). A first-level TLB holds nothing
that its die's memory-side TLB does not, so the answer is the same whichever level gives it. -/
def xlate (world d asid off : Nat) : Prog (Except Cause Xl) :=
  .get fun s =>
    match (s.die d).tlb.find? fun e => e.hits asid off with
    | some e => .ret (.ok (Xl.ofEntry d asid off e.w0 e.w1 e.leaf e.level))
    | none => walkP world d asid off

/-- Translate for a core: the entry that a walk brings goes to the core's first-level TLB too, when the die is its own (R402;
log entry 34). -/
def xlateFor (core world d asid off : Nat) : Prog (Except Cause Xl) :=
  letI := progMonad
  do
    let s ← st
    let r ← xlate world d asid off
    let t ← st
    let miss := !((s.die d).tlb.any fun e => e.hits asid off)
    match (t.die d).tlb.find? fun e => e.hits asid off with
    | some e => whenP (miss && core / 16 == d) (fillTlb1 core e)
    | none => pure ()
    pure r

/-! ### Lines -/

/-- Bytes of a die's HBM stack: 48 GB, decimal (R2, R4). -/
def hbmSize : Nat := 48 * 10 ^ 9

/-- A line lies past the 48 GB of a die's HBM stack (R2). -/
def Xl.past (x : Xl) : Bool := decide (x.space < 64) && decide (hbmSize ≤ x.pa)

/-- The 128 bytes of a translated line: the data, zeros on an F page whose MAC fails, or INTEGRITY (R103, R419). A line past
the end of the HBM stack has no good MAC, whatever is written to it (log entry 68). -/
def lineRead (s : State) (x : Xl) : Except Cause (List Byte) :=
  let t := s.tags.get {} x.line
  if t.poison || x.past then .error .integrity
  else if tagOk t (x.want s) then .ok (physBytes s (x.line * 128) 128)
  else if x.fresh then .ok (List.replicate 128 0)
  else .error .integrity

/-- Count a MAC failure on a page with F clear (R436, counter 15). -/
def lineFailed (x : Xl) : Prog Unit :=
  .get fun s => if (s.tags.get {} x.line).poison then .ret () else heatCount x.die 15

/-- Overwrite bytes at the offsets listed. -/
def mergeBytes (old : List Byte) (data : Tab Byte) : List Byte :=
  old.zipIdx.map fun e => match data.find? fun d => d.1 == e.2 with | some d => d.2 | none => e.1

/-- The bytes of a line as the state's lines hold them: 128 offsets. -/
def fullLine (bs : List Byte) : Tab Byte := bs.zipIdx.map fun e => (e.2, e.1)

/-- Remember the code words of an executable page that a store overwrites (R455). -/
def saveCode (key : Nat) (old : List Byte) (data : Tab Byte) : Prog Unit :=
  forAll (List.range 32) fun i =>
    if data.any fun d => d.1 / 4 == i then
      .get fun s => upd (.oldCode (key + 4 * i)
        ((s.seqNo, BitVec.ofNat 32 (leNat ((old.drop (4 * i)).take 4))) :: s.oldCode.get [] (key + 4 * i)))
    else .ret ()

/-- Send the pushes that a write of bytes at offsets of a line causes (R124, R151). -/
def pushSubs (lid : Nat) (data : Tab Byte) (now : List Byte) (m : PushMsg) : Prog Unit :=
  .get fun s => forAll s.subs fun e =>
    let b := e.2
    if b.live && b.line == lid && data.any fun d => decide (b.pos ≤ d.1) && decide (d.1 < b.pos + b.size) then
      upd (.sub e.1 fun b => { b with next := (b.next + 1) % 2 ^ 32,
                                      flight := b.flight ++ [(b.next, (now.drop b.pos).take b.size, m)] })
    else .ret ()

/-- Lines that a die's L2 holds: 64 MiB of 128 bytes (R2). -/
def l2Lines : Nat := 2 ^ 19

/-- Enter a line in its home L2. In a full L2 another line leaves for it, which one a free value names (log entry 69). -/
def l2Put (lid : Nat) (e : L2Line) : Prog Unit :=
  .get fun s =>
    let mine := s.l2.filter fun x => x.1 / 2 ^ 60 == lid / 2 ^ 60 && x.1 != lid
    if mine.length < l2Lines then upd (.l2 fun t => Tab.put t lid e)
    else .bind freeVal fun f =>
      upd (.l2 fun t => Tab.put (t.filter fun x => some x.1 != (mine[f.toNat % mine.length]?).map (·.1)) lid e)

/-- Another line has taken the place of this one in its home L2 since, by a policy that is open (R2): a free value says
whether, where the die's L2 has met more lines than the 16 ways of a set (log entry 69). What a line that has left takes along
is its record of sizes (R137). -/
def lineLeft (s : State) (lid : Nat) : Bool :=
  decide (16 < (s.l2.filter fun x => x.1 / 2 ^ 60 == lid / 2 ^ 60).length) && Config.lineLeft lid s.seqNo

/-- The debug mode MIXSIZE of the world that a die is latched to (R137). -/
def mixsizeOn (s : State) (d : Nat) : Bool := bitAt (s.world (field (s.die d).dlatch 0 4)).cfg 60

/-- The sizes recorded for a line after a strong write of a size to some chunks (R137). -/
def sizesAfter (s : State) (x : Xl) (size : Nat) (chunks : List Nat) : Tab Nat :=
  let z := (s.l2.get {} x.lid).sizes
  if size = 0 then z
  else chunks.foldl (fun z c => Tab.put z c size) (if mixsizeOn s x.die && z.any (fun e => e.2 != size) && lineLeft s x.lid then [] else z)

/-- The line of a copy, of an L1 or a replica. -/
def copyLine (k : Nat) : Nat := k % 2 ^ 80

/-- Before an access at the home of a line, replicas that a store has made old are gone (R100). -/
def dropOldReps (lid : Nat) : Prog Unit :=
  .get fun s => whenP (s.reps.any fun e => copyLine e.1 == lid && !e.2.newer.isEmpty)
    (upd (.reps fun t => t.filter fun e => !(copyLine e.1 == lid && !e.2.newer.isEmpty)))

/-- Every copy of a line is older than a write of some of its bytes (R143). -/
def ageCopies (lid : Nat) (wr : Writer) (now : Nat) (data : Tab Byte) : Prog Unit :=
  let n : Newer := ⟨wr.agent, wr.turn, now, data.map (·.1)⟩
  let age (t : Tab L1Line) : Tab L1Line := t.map fun e =>
    if copyLine e.1 = lid then (e.1, { e.2 with newer := n :: e.2.newer }) else e
  .get fun s =>
    .bind (whenP (s.l1.any fun e => copyLine e.1 == lid) (upd (.l1 age))) fun _ =>
      whenP (s.reps.any fun e => copyLine e.1 == lid) (upd (.reps age))

/-- A write of the valid bit of a group record that the device has read: it reads the record again (R451). -/
def noteRecords (lid : Nat) (data : Tab Byte) : Prog Unit :=
  .get fun s =>
    let hit (g : Group) : Bool := match g.read with
      | some r => r.line == lid && data.any fun d => d.1 == r.off + 7
      | none => false
    forAll (s.worlds.filter fun w => w.2.groups.any fun g => hit g.2) fun w => upd (.world w.1 fun x =>
      { x with groups := x.groups.map fun g => if hit g.2 then (g.1, { g.2 with read := none }) else g })

/-- Write bytes of one line at its home as one event (R124, R134): memory and MAC, the mirror of a table line (R406),
the L2 tag, the records of strong writes, and pushes; copies of the line grow old (R143). `rmw` marks a read-modify-write
(R138). Any line may be written here: the checks come before. -/
def lineWrite (wr : Writer) (rmw : Bool) (x : Xl) (data0 : Tab Byte) : Prog Unit :=
  letI := progMonad
  do
    dropOldReps x.lid
    let s ← st
    let msgs := s.msgs.get [] x.lid
    let data ← raceBytes msgs wr data0
    let old := match lineRead s x with | .ok b => b | .error _ => List.replicate 128 0
    let now := mergeBytes old data
    let base := x.line * 128
    whenP (bitAt x.w0 58) (saveCode base old data)
    physStore base now
    upd (.tag x.line (x.want s))
    whenP (decide (x.space = x.die) && inTable s x.die x.pa) (do
      let m := physKey (mirDie s x.die) (mirBase s x.die + (x.pa / 128 * 128 - tabBase s x.die))
      physStore m now
      upd (.tag (lineKey m) (x.want s)))
    let chunks := (List.range 8).filter fun c => data.any fun d => d.1 / 16 == c
    l2Put x.lid
      { asid := x.owner, slot := x.slot, page := x.off / 2 ^ 16, dirty := true, phys := base,
        sizes := sizesAfter s x wr.size chunks }
    let msgs' := recordWrite msgs wr rmw data
    whenP (msgs' != msgs) (upd (.msgs x.lid msgs'))
    ageCopies x.lid wr s.seqNo data
    noteRecords x.lid data
    pushSubs x.lid data now ⟨s.seqNo, match wr.msg with | some m => m.rels | none => []⟩

/-- The check of a write to a line (R103, R419): a partial write of an unreadable or poisoned line raises INTEGRITY. -/
def lineWriteOk (s : State) (x : Xl) (bytes : Nat) : Bool :=
  (decide (bytes = 128) && !x.past) || (match lineRead s x with | .ok _ => true | .error _ => false)

/-! ### Accesses the device makes to its own structures (fault queue, mailboxes, stamps) -/

/-- The die and offset of a node-0x1FFF address, or of this device's own identifier (R92, R93). -/
def ownAddr (s : State) (a : DWord) : Option (Nat × Nat) :=
  if field a 51 13 = 0x1FFF ∨ field a 51 13 = s.dev.node then some (field a 45 6, field a 0 45) else none

/-- Split a range of addresses at line boundaries: address, length of each piece. `n` bounds the pieces. -/
def pieces : Nat → Nat → Nat → List (Nat × Nat)
  | 0, _, _ => []
  | k + 1, a, n =>
    if n = 0 then []
    else
      let m := min n (128 - a % 128)
      (a, m) :: pieces k (a + m) (n - m)

/-- Read bytes at a generic address in a context of a world, each page's access counted in a way (R414); none where it cannot. -/
def devReadBy (count : Xl → Prog Unit) (world asid : Nat) (a : DWord) (n : Nat) : Prog (Option (List Byte)) :=
  letI := progMonad
  do
    let parts ← mapAll (pieces (n / 128 + 2) a.toNat n) fun p => do
      let s ← st
      match ownAddr s (BitVec.ofNat 64 p.1) with
      | none => pure none
      | some (d, off) =>
        if !s.latched d world then pure none
        else
          let r ← xlate world d asid off
          let s ← st
          match r with
          | .error _ => pure none
          | .ok x => if x.gen ≠ (slotGen s d x.slot).toNat then pure none else do
            count x
            dropOldReps x.lid
            let s ← st
            match lineRead s x with
            | .error _ => pure none
            | .ok b => pure (some ((b.drop (off % 128)).take p.2))
    pure (if parts.any Option.isNone then none else some (parts.flatMap fun o => o.getD []))

/-- Write bytes at a generic address in a context of a world, for a writer that is named for each piece by its size, each page's
access counted in a way (R414); false where it cannot, as at a line that it would have to merge with and cannot read (R103,
R419). -/
def devWriteAs (count : Xl → Prog Unit) (wr : State → Nat → Writer) (rmw : Bool) (world asid : Nat) (a : DWord) (bs : List Byte) :
    Prog Bool :=
  letI := progMonad
  do
    let n := bs.length
    let r ← mapAll (pieces (n / 128 + 2) a.toNat n) fun p => do
      let s ← st
      match ownAddr s (BitVec.ofNat 64 p.1) with
      | none => pure false
      | some (d, off) =>
        if !s.latched d world then pure false
        else
          let r ← xlate world d asid off
          match r with
          | .error _ => pure false
          | .ok x => .get fun s =>
            if x.gen ≠ (slotGen s d x.slot).toNat then pure false
            else if !lineWriteOk s x p.2 then do
              lineFailed x
              pure false
            else do
            let part := (bs.drop (p.1 - a.toNat)).take p.2
            count x
            lineWrite (wr s p.2) rmw x (part.zipIdx.map fun e => (off % 128 + e.2, e.1))
            pure true
    pure (r.all id)

/-! ### Access counters and their notifications (R414, R415) -/

/-- An access that counts at no page. -/
def uncounted (_ : Xl) : Prog Unit := .ret ()

/-- The paging queue of a world (R408). -/
def pagingQueue (s : State) (world : Nat) : DWord := (s.world world).fq + 0x41000

/-- Post a notification of a page, or mark it delayed when the ring is full (R415). Its own accesses count nowhere (log entry 76). -/
def notify (world : Nat) (d asid : Nat) (e : TlbEnt) (late : Bool) : Prog Bool :=
  letI := progMonad
  do
    let s ← st
    let pq := pagingQueue s world
    let read (a : DWord) : Prog DWord := .bind (devReadBy uncounted world 0 a 8) fun o => .ret (BitVec.ofNat 64 (leNat (o.getD [])))
    let k ← read (pq + 0x10)
    let taken ← read (pq + 0x18)
    if decide (taken.toNat + 1023 < k.toNat) then pure false
    else
      let va : Nat := 0x1FFF * 2 ^ 51 + d * 2 ^ 45 + e.page * 2 ^ levelBits e.level
      let w1 : Nat := asid + e.last * 2 ^ 10 + (if field e.w0 53 3 = 0 then 0 else 2 ^ 16) + (if late then 2 ^ 17 else 0)
      let _ ← devWriteAs uncounted (fun s _ => deviceWriter s world (2 ^ 20) 0 {}) false world 0
        (pq + 0x4040 + BitVec.ofNat 64 (16 * (k.toNat % 1024))) (leBytes 8 va ++ leBytes 8 w1)
      let _ ← devWriteAs uncounted (fun s n => deviceWriter s world (2 ^ 20) n {}) false world 0 (pq + 0x10) (leBytes 8 (k.toNat + 1))
      pure true

/-- Count an access performed at the home through a TLB entry (R414). A page that is queued, through whichever entry of its leaf,
posts nothing more. -/
def touch (world fromDie : Nat) (x : Xl) : Prog Unit :=
  letI := progMonad
  do
    let s ← st
    let thr := field (s.die x.die).trcfg 40 16
    let hit (e : TlbEnt) : Bool := e.hits x.asid x.off
    match (s.die x.die).tlb.find? hit with
    | none => pure ()
    | some e =>
      if thr = 0 || (fromDie == x.die && field e.w0 53 3 == 0) then pure ()
      else
        let e' := { e with count := min thr (e.count + 1), last := fromDie }
        let fire := decide (e'.count = thr) && !(s.die x.die).tlb.any fun t => t.leaf == e.leaf && (t.queued || t.ovfl)
        upd (.die x.die fun v => { v with tlb := v.tlb.map fun t => if hit t then e' else t })
        whenP fire (do
          let ok ← notify world x.die x.asid e' false
          let mark (t : TlbEnt) : TlbEnt := if hit t then { t with queued := ok, ovfl := !ok } else t
          upd (.die x.die fun v => { v with tlb := v.tlb.map mark })
          whenP (!ok) (upd (.world world fun w =>
            { w with overflow := w.overflow.filter (fun p => p != (x.die, x.leaf)) ++ [(x.die, x.leaf)] })))

/-- Count an access of the device's own: it is made at the page's die (log entry 76). -/
def touchDev (world : Nat) (x : Xl) : Prog Unit := touch world x.die x

/-- Read bytes as the device's own access; none where it cannot. -/
def devRead (world asid : Nat) (a : DWord) (n : Nat) : Prog (Option (List Byte)) := devReadBy (touchDev world) world asid a n

/-- Write bytes as the device's own access, for a writer named by the size. -/
def devWriteBy (wr : State → Nat → Writer) (rmw : Bool) (world asid : Nat) (a : DWord) (bs : List Byte) : Prog Bool :=
  devWriteAs (touchDev world) wr rmw world asid a bs

/-- Write bytes as the device's own weak access; false where it cannot. -/
def devWrite (world asid : Nat) (a : DWord) (bs : List Byte) : Prog Bool :=
  devWriteBy (fun s _ => deviceWriter s world (2 ^ 20) 0 {}) false world asid a bs

def devRead64 (world asid : Nat) (a : DWord) : Prog DWord :=
  .bind (devRead world asid a 8) fun o => .ret (BitVec.ofNat 64 (leNat (o.getD [])))
/-- Write a word with release at .wd (R391, R408). -/
def devWrite64 (world asid : Nat) (a v : DWord) : Prog Unit :=
  .bind (devWriteBy (fun s n => deviceWriter s world (2 ^ 20) n {}) false world asid a (leBytes 8 v.toNat)) fun _ => .ret ()

/-- Translate what an access at a turn of issue, or now (0), uses: where no TLB holds the page, an entry dropped since. -/
def xlateAt (issued core world d asid off : Nat) : Prog (Except Cause Xl) :=
  .get fun s =>
    match (if issued = 0 || ((s.die d).tlb.any fun e => e.hits asid off) then none else oldEnt s d asid off issued) with
    | some e => .ret (.ok (Xl.ofEntry d asid off e.w0 e.w1 e.leaf e.level))
    | none => xlateFor core world d asid off

/-! ### Where a warp's access leads: the checks of R273 -/

/-- On whose behalf an access is made. -/
structure Who where
  world : Nat
  asid : Nat
  /-- die·16 + core of the accessor -/
  core : Nat
  /-- the accessor's block, when windows have a meaning -/
  blk : Option Nat
  /-- what happens before it, when it is the device's (R147) -/
  view : View := {}
  /-- the turn at which it was translated, of an operation, a pushed element or a held write; 0: now -/
  issued : Nat := 0
  deriving DecidableEq, Repr

def State.whoWarp (s : State) (w : Nat) : Who :=
  { world := s.worldOfWarp w, asid := s.asidOfWarp w, core := s.coreOfWarp w, blk := some (blockOfWarp w) }

/-- Count an access made for someone (R414): at the accessor's die, or for the device itself at the page's. -/
def touchWho (who : Who) (x : Xl) : Prog Unit := touch who.world (if who.core < 1024 then who.core / 16 else x.die) x

/-- What an access needs. -/
structure Need where
  rd : Bool := false
  wr : Bool := false
  /-- a weak load or engine read, which alone may reach the ring window (R94) -/
  ringOk : Bool := false
  /-- a window address is allowed (R95) -/
  winOk : Bool := true
  /-- host-space atomics that PCIe lacks (R281) -/
  hostOk : Bool := true
  deriving DecidableEq, Repr

/-- Where a generic address leads. -/
inductive Loc where
  | spad (blk off : Nat)
  | ring (core off : Nat)
  | mem (x : Xl)
  /-- a byte of a host port's space (R373) -/
  | host (key : Nat)
  /-- another device of the domain -/
  | remote
  deriving DecidableEq, Repr

/-- A store, atomic or DISC touches an active subscription region of the block (R122). -/
def inRegion (b : Block) (off n : Nat) : Bool :=
  b.regions.any fun e => e.2.active && decide (off < e.1 + 128 * (e.2.depth + 1)) && decide (e.1 < off + n)

/-- The window space (R94), rows 2 to 5 of R273. -/
def locWindow (s : State) (who : Who) (a : DWord) (n : Nat) (need : Need) : Except Cause Loc :=
  match who.blk with
  | none => .error .protect
  | some me =>
    let code := field a 40 5
    let off := field a 0 40
    let gsize := (s.runOf (runOfBlock me)).cores.length
    if field a 45 6 ≠ 0 then .error .protect
    else if code = 8 then
      if off + n > 131072 then .error .spadbound
      else if !need.ringOk || !need.winOk then .error .protect
      else .ok (.ring who.core off)
    else if code ≤ 4 then
      let k := if code = 0 then me else runOfBlock me * 4 + (code - 1)
      if code ≠ 0 ∧ gsize ≤ code - 1 then .error .protect
      else if off + n > (s.block k).spadSize then .error .spadbound
      else if (s.block k).retired then .error .peergone
      else if !need.winOk || (need.wr && inRegion (s.block k) off n) then .error .protect
      else .ok (.spad k off)
    else .error .protect

/-- The host-window entry that covers an offset (R372, R373): permission bits and the port address. -/
def hostWindow (world : Nat) (off : Nat) : Prog (Option (Nat × Nat × Nat × Nat)) :=
  letI := progMonad
  do
    let s ← st
    let t ← devRead world 0 (s.world world).hwt 512
    let tab := t.getD []
    let ents := (List.range 16).filterMap fun i =>
      let e := tab.drop (32 * i)
      let base := leNat (e.take 8) % 2 ^ 51
      let size := leNat ((e.drop 8).take 8)
      let target := leNat ((e.drop 16).take 8)
      let w3 := leNat ((e.drop 24).take 8)
      if size ≠ 0 ∧ base ≤ off ∧ off < base + size then
        let port := w3 / 2 ^ 5 % 8
        some (w3 % 4, if port < 2 then 65 + port else 66 + port, target + (off - base), base + size - off)
      else none
    pure ents.head?

/-- Resolve an access of n bytes at a generic address: rows 1 to 9 of R273; the error carries FADDR. -/
def locate (who : Who) (a : DWord) (n : Nat) (need : Need) : Prog (Except (Cause × DWord) Loc) :=
  letI := progMonad
  do
    let s ← st
    let node := field a 51 13
    if n ≠ 0 ∧ a.toNat % n ≠ 0 then pure (.error (.align, a))
    else if node = 0x1FFE then
      pure (match locWindow s who a n need with | .error c => .error (c, a) | .ok l => .ok l)
    else match ownAddr s a with
    | some (d, off) =>
      if !s.latched d who.world then pure (.error (.protect, a))
      else
        let r ← xlateAt who.issued who.core who.world d who.asid off
        let s ← st
        pure (match r with
        | .error c => .error (c, a)
        | .ok x =>
          if (need.rd && !bitAt x.w0 60) || (need.wr && !bitAt x.w0 59) then .error (.protect, a)
          else if x.gen ≠ (slotGen s d x.slot).toNat then .error (.keyretired, a)
          else .ok (.mem x))
    | none =>
      if node = 0x1FFD then do
        let r ← hostWindow who.world (field a 0 51)
        pure (match r with
        | none => .error (.translate, a)
        | some (perm, space, addr, left) =>
          if (need.rd && perm % 2 == 0) || (need.wr && perm / 2 == 0) || !need.hostOk then .error (.protect, a)
          else if left < n then .error (.translate, a + BitVec.ofNat 64 left)
          else .ok (.host (physKey space addr)))
      else pure (.ok .remote)

end Sys2Proof.Machine
end

