-- ==== Sys2Proof/Machine/Ops.lean ====
section
/-!
DEFINITION. The shared operations of the instructions: results and the signature they fold into (R165, R166), segments
(R168), the feed log (R169, R170), taking a fault (R60, R301, R391, R393), ending a grid (R46), and the issue of an
instruction (R33, R55, R191 to R194, R201).
-/
namespace Sys2Proof.Machine

/-! ### Signatures (R165, R166) -/

/-- One byte step of Sig.Fold (R165). -/
def foldByte (sig : DWord) (b : Nat) : DWord :=
  (List.range 8).foldl (fun s _ => if bitAt s 63 then (s <<< 1) ^^^ 0x42F0E1EBA9EA3693 else s <<< 1)
    (sig ^^^ BitVec.ofNat 64 (b * 2 ^ 56))

/-- Sig.Fold of a 64-bit word (R165): byte 0 first. -/
def sigFold (sig d : DWord) : DWord :=
  (List.range 8).foldl (fun s i => foldByte s (field d (8 * i) 8)) sig

/-- Fold words into the warp's segment signature; an unchecked warp keeps none. -/
def foldSig (w : Nat) (ds : List DWord) : Prog Unit :=
  .get fun s =>
    if s.checkedWarp w && !ds.isEmpty then
      upd (.ctl w fun c => { c with sig := ds.foldl sigFold c.sig, segFirst := if c.segFirst = 0 then s.seqNo else c.segFirst })
    else .ret ()

/-- The words a lane result folds as: zero-extended to 64 bits, 128 bits as two words, low first (R166). -/
def foldWords (words v : Nat) : List DWord :=
  if words = 4 then [BitVec.ofNat 64 v, BitVec.ofNat 64 (v / 2 ^ 64)] else [BitVec.ofNat 64 v]

/-! ### Writing results -/

/-- Write one lane's value into `words` consecutive registers, least significant first (R48). -/
def putV (w r l words v : Nat) : Prog Unit :=
  forAll (List.range words) fun i => upd (.v w ((r + i) * 128 + l) (BitVec.ofNat 32 (v / 2 ^ (32 * i))))

/-- Write a vector-register result in the lanes listed, and fold it (R166). -/
def writeV (w r words : Nat) (res : List (Nat × Nat)) : Prog Unit :=
  .bind (forAll res fun e => putV w r e.1 words e.2) fun _ =>
    foldSig w (res.flatMap fun e => foldWords words e.2)

/-- Write a uniform-register result (R166). -/
def writeS (w r : Nat) (v : DWord) : Prog Unit :=
  .bind (upd (.sreg w r v)) fun _ => foldSig w [v]

/-- Two words of a lane mask, bits 63:0 first. -/
def maskWords (m : Mask) : List DWord := [BitVec.ofNat 64 m.toNat, BitVec.ofNat 64 (m.toNat / 2 ^ 64)]

/-- Write a predicate result in the lanes that receive it; pt discards it (R50). The fold is of the lanes `on`, those with
effect; without any, the instruction folds nothing (R166). -/
def writeP (w : Nat) (p : PReg) (lanes val : Mask) (on : Mask := lanes) : Prog Unit :=
  if p.val = 15 then .ret ()
  else .get fun s =>
    let old := (s.warp w).regs.p.get 0 p.val
    .bind (upd (.preg w p.val ((old &&& ~~~lanes) ||| (val &&& lanes)))) fun _ =>
      foldSig w (if on = 0 then [] else maskWords (val &&& on))

/-- Write a mask register other than through m0's check (R51); the fold is the W-bit result, of an instruction that has a lane
with effect (R166). -/
def writeM (w n : Nat) (v : Mask) (acts : Bool) : Prog Unit :=
  .bind (upd (.mreg w n v)) fun _ => foldSig w (if acts then maskWords (v &&& Config.laneMask) else [])

/-- Raise FPSR flags in lanes (R53), folding each change in a lane with effect (R166). -/
def raiseFlags (w : Nat) (fl : List (Nat × BitVec 6)) (on : Nat → Bool) : Prog Unit :=
  forAll fl fun e => .get fun s =>
    let old := (s.warp w).regs.fpsr.get 0 e.1
    let new := old ||| e.2
    if new = old then .ret ()
    else .bind (upd (.fpsr w e.1 new)) fun _ => foldSig w (if on e.1 then [BitVec.ofNat 64 (e.1 * 256 + new.toNat)] else [])

/-! ### The fault queue's entries (R391, R393) -/

/-- Deliver the oldest undelivered entry to the handler parked longest (R340, R393). -/
def deliver (world : Nat) : Prog Unit :=
  letI := progMonad
  do
    let s ← st
    let x := s.world world
    let posted ← devRead64 world 0 x.fq
    match x.handlers with
    | h :: t =>
      whenP (decide (x.delivered < posted.toNat)) (do
        upd (.world world fun x => { x with handlers := t, delivered := x.delivered + 1 })
        upd (.sreg h 2 (x.fq + 64 + BitVec.ofNat 64 (64 * (x.delivered % 4096))))
        upd (.ctl h fun c => { c with entry := x.delivered + 1, status := .ready }))
    | [] => pure ()

/-- Write an entry of the fault queue and wake a handler; false when the queue is full (R391, R393). -/
def postEntry (world : Nat) (ws : List DWord) : Prog Bool :=
  letI := progMonad
  do
    let s ← st
    let fq := (s.world world).fq
    let posted ← devRead64 world 0 fq
    let retired ← devRead64 world 0 (fq + 8)
    if decide (retired.toNat + 4096 ≤ posted.toNat) then pure false
    else do
      let _ ← devWrite world 0 (fq + 64 + BitVec.ofNat 64 (64 * (posted.toNat % 4096))) (ws.flatMap fun d => leBytes 8 d.toNat)
      devWrite64 world 0 fq (posted + 1)
      deliver world
      pure true

/-! ### The feed log's memory, and segments (R162, R168, R170) -/

/-- The context of a grid, for accesses the device makes in it. -/
def gridWho (s : State) (g : Nat) : Who :=
  { world := worldOfGrid g, asid := (s.grid g).asid, core := 2 ^ 20, blk := none, view := (s.grid g).view }

/-- Translate an address of a header in the new grid's context, with the permission its use needs (R24, R273): a window
address raises PROTECT. -/
def transAs (who : Who) (a : DWord) (need : Need) : Prog (Option (Cause × DWord)) :=
  .bind (locate who a 1 need) fun r => .ret (match r with | .error e => some e | .ok _ => none)

/-- Post that a stamp or log page of a grid is unmapped, once until system software resolves it (R24, R162). -/
def postGridEvent (g : Nat) (cause : Cause) (addr : DWord) : Prog Unit :=
  letI := progMonad
  do
    let s ← st
    let world := worldOfGrid g
    whenP (!(s.grid g).held) (do
      let n ← devRead64 world 0 (s.world world).fq
      let ok ← postEntry world
        [0, 0, BitVec.ofNat 64 cause.code, addr, 0, 0, 0, BitVec.ofNat 64 (3 * 2 ^ 53 + g % 2 ^ 48)]
      whenP ok (do
        upd (.grid g fun x => { x with held := true })
        upd (.world world fun x => { x with gridEnts := x.gridEnts.put n.toNat g })))

/-- Write a record of a gang's feed log in memory (R170), at an offset of the log's area: a tag of 8 bytes, whose content no
rule gives, and the payload padded to 8 bytes. -/
def logWrite (gk off : Nat) (payload : List Byte) : Prog Unit :=
  letI := progMonad
  do
    let s ← st
    let g := s.grid (gridOfGang gk)
    let tag ← freeVal
    let pad : List Byte := List.replicate ((payload.length + 7) / 8 * 8 - payload.length) 0
    let _ ← devWrite (worldOfGrid (gridOfGang gk)) g.asid (g.hdr.feedBase + BitVec.ofNat 64 off) (leBytes 8 tag.toNat ++ payload ++ pad)

/-- The feed-log page that an offset of the log's area lies on can be written. One that is unmapped is posted, and what needs
it waits (R24, R162). -/
def logMapped (gk off : Nat) : Prog Bool :=
  letI := progMonad
  do
    let s ← st
    let grid := gridOfGang gk
    let r ← transAs (gridWho s grid) ((s.grid grid).hdr.feedBase + BitVec.ofNat 64 off) { wr := true }
    match r with
    | none => pure true
    | some (c, f) => do
      postGridEvent grid c f
      pure false

/-- Where the next record of a gang lies in the feed log's area (R170). -/
def Gang.logEnd (g : Gang) : Nat := 65536 * (g.extents.getLast?.getD 0) + g.extUsed

/-- The gang holds an extent with room for a record of so many bytes. -/
def Gang.fits (g : Gang) (need : Nat) : Bool := !g.extents.isEmpty && decide (g.extUsed + need ≤ 65536)

/-- A record of so many bytes can be written where the log ends: an extent has room for it, and its page is mapped. -/
def logOpen (gk need : Nat) : Prog Bool :=
  .get fun s => if (s.gang gk).fits need then logMapped gk (s.gang gk).logEnd else .ret false

/-- A new record of so many bytes can be appended: no record waits before it. -/
def logReady (gk need : Nat) : Prog Bool :=
  .get fun s => if (s.gang gk).backlog.isEmpty then logOpen gk need else .ret false

/-- Append a record of so many bytes to a warp's log, with its payload. -/
def logAppend (w need : Nat) (r : LogRec) (payload : List Byte) : Prog Unit :=
  letI := progMonad
  do
    let s ← st
    let gk := s.gangOfWarp w
    let g := s.gang gk
    upd (.gang gk fun x => { x with log := x.log ++ [{ r with offset := g.logEnd }], extUsed := x.extUsed + need })
    upd (.ctl w fun c => { c with logPos := c.logPos + 1 })
    logWrite gk g.logEnd payload

/-- Engine work of a warp's segment is not all performed (R167). -/
def segBusy (s : State) (w seg : Nat) : Bool :=
  (s.ops.any fun e => e.2.warp == w && e.2.seg == seg && !e.2.finished)
    || (s.block (blockOfWarp w)).streams.any fun t => t.2.warp == w && t.2.pend.any fun p => p.seg == seg

/-- Replace the n-th record of a warp in a log. -/
def setRec (gw : Nat) (f : LogRec → LogRec) : Nat → List LogRec → List LogRec
  | _, [] => []
  | n, r :: t => if r.warp = gw then (match n with | 0 => f r :: t | n + 1 => r :: setRec gw f n t) else r :: setRec gw f n t

/-- Bytes of a record that waits for room. -/
def LogWait.bytes : LogWait → Nat
  | .seg _ => 16
  | .res _ _ p => 8 + p.length

/-- Write a record that had to wait, or a segment end, where the log ends. A segment end holds the segment's signature (R428),
which engine work still under way leaves open (R167). -/
def logPut (gk : Nat) (x : LogWait) : Prog Unit :=
  letI := progMonad
  do
    let s ← st
    let off := (s.gang gk).logEnd
    upd (.gang gk fun g => { g with extUsed := g.extUsed + x.bytes })
    match x with
    | .seg e => do
      let w := e.run * 256 + e.warp
      let v ← (if segBusy s w e.seg then freeVal else pure (e.crc + (s.warp w).ctl.engSig.get 0 e.seg))
      logWrite gk off (leBytes 8 v.toNat)
    | .res gw n p => do
      upd (.gang gk fun g => { g with log := setRec gw (fun r => { r with ready := true, offset := off }) n g.log })
      logWrite gk off p

/-- Write the records that wait, in their order, as far as they fit (R170). -/
def drainLog (gk : Nat) : List LogWait → Prog Unit
  | [] => .ret ()
  | x :: t => .bind (logOpen gk x.bytes) fun ok =>
      if ok then .bind (upd (.gang gk fun g => { g with backlog := t })) fun _ => .bind (logPut gk x) fun _ => drainLog gk t
      else .ret ()

/-- Append a record that no instruction waits for: it is written at once, or waits for room. -/
def logAdd (gk : Nat) (x : LogWait) : Prog Unit :=
  .bind (logReady gk x.bytes) fun ok =>
    if ok then logPut gk x else upd (.gang gk fun g => { g with backlog := g.backlog ++ [x] })

/-- End the warp's segment: record its signature and open the next (R165, R168, R428); the primary's end enters its feed log. -/
def segEnd (w : Nat) (extent : Bool) : Prog Unit :=
  .get fun s =>
    if s.checkedWarp w && !(s.warp w).ctl.partly then
      let c := (s.warp w).ctl
      let gk := s.gangOfWarp w
      let e : SegEnd := { run := runOfWarp w, warp := gangWarp w, seg := c.seg, crc := c.sig, issued := c.issued,
                          first := c.segFirst, last := s.seqNo, logPos := c.logPos, extent }
      .bind (upd (.gang gk fun g => { g with segs := g.segs ++ [e] })) fun _ =>
      .bind (upd (.ctl w fun c => { c with sig := 0, seg := c.seg + 1, lines := 0, segFirst := 0 })) fun _ =>
        whenP (s.isPrimary w) (logAdd gk (.seg e))
    else .ret ()

/-- Record that the primary performed an early action or a RELEASE write (R176, R180). -/
def earlyAct (w : Nat) : Prog Unit :=
  .get fun s => if s.checkedWarp w then upd (.gang (s.gangOfWarp w) fun g => 
    { g with early := g.early ++ [⟨runOfWarp w, gangWarp w, (s.warp w).ctl.issued, s.seqNo⟩] }) else .ret ()

/-- A scope wider than .gg. -/
def scopeWide (sc : Scope) : Bool := decide (4 < sc.code)

/-! ### What an instruction ends in -/

/-- A precise cause as an instruction raises it (R60). -/
structure FaultInfo where
  cause : Cause
  faddr : DWord := 0
  /-- FLANES; none is every active lane -/
  lanes : Option Mask := none
  part : Bool := false
  /-- RPROG of a fault taken inside an MLOOP -/
  rprog : Option DWord := none
  /-- FPC, when it is not the instruction's address (R185) -/
  fpc : Option DWord := none
  noLen : Bool := false
  /-- taken at an instruction of R274 -/
  mem : Bool := false
  deriving DecidableEq, Repr

/-- How an instruction ends. -/
inductive Res where
  | ok
  /-- continue at an address; the fetch there checks it (R185) -/
  | jump (a : DWord)
  | fault (f : FaultInfo)
  /-- it has no effect yet and issues again when the condition holds (R39) -/
  | wait (k : Wait)
  /-- it is issued, and the warp then waits (ERET) -/
  | waitAfter (k : Wait)
  /-- the marker park lasts until more than the run's results (R192) -/
  | park (c : ParkCond)
  /-- the warp has exited (R38) -/
  | exited
  deriving DecidableEq, Repr

def faultAt (c : Cause) (a : DWord) : Res := .fault { cause := c, faddr := a }
def faultOf (c : Cause) : Res := .fault { cause := c }
/-- DIVERGE with its sub-reason (R59). -/
def diverge (n : Nat) : Res := .fault { cause := .diverge, faddr := BitVec.ofNat 64 n }

/-! ### The feed log (R169, R170, R342) -/

/-- The records of a warp of a gang, in its order. -/
def Gang.logOf (g : Gang) (gw : Nat) : List LogRec := g.log.filter fun r => r.warp == gw

/-- A mismatch of a warp's segment: the Fettler of the shadow's die counts it with its comparison (R428), and firmware is
asked for an arbiter (R178). -/
def mismatchAt (gk warp seg : Nat) : Prog Unit :=
  letI := progMonad
  do
    let s ← st
    let g := s.gang gk
    whenP g.mismatch.isNone (do
      heatCount (s.runOf g.shadow).die 8
      heatCount (s.runOf g.shadow).die 9
      upd (.gang gk fun g => { g with mismatch := some (warp, seg) })
      send (.firmware 9 (BitVec.ofNat 64 gk)))

/-- Force a mismatch of the warp's open segment (R182: a fault or a result that only one run meets). -/
def forceMismatch (w : Nat) : Prog Unit :=
  .get fun s => mismatchAt (s.gangOfWarp w) (gangWarp w) (s.warp w).ctl.seg

/-- A warp's segment already ended here because an extent was full. -/
def endedForExtent (g : Gang) (run gw issued : Nat) : Bool :=
  g.segs.any fun e => e.run == run && e.warp == gw && e.issued == issued && e.extent

/-- A fault and its form in the log. -/
def logFaultOf (f : FaultInfo) (m0 : Mask) : LogFault := ⟨f.cause.code, f.faddr, f.lanes.getD m0, f.part, f.mem⟩
def faultOfLog (f : LogFault) : FaultInfo :=
  { cause := Cause.ofCode f.cause, faddr := f.faddr, lanes := some f.lanes, part := f.part, mem := f.mem }

/-- The record is that of a fault's resolution (R182). -/
def LogRec.resolves (r : LogRec) : Bool := r.res.isSome && r.fault.isSome

/-- The record at a warp's place in its log, once it is there. -/
def State.nextRec (s : State) (w : Nat) : Option LogRec :=
  (((s.gang (s.gangOfWarp w)).logOf (gangWarp w))[(s.warp w).ctl.logPos]?).filter fun r => r.ready || !r.resolves

/-- The resolution that the primary logged where a copy run stands: at the instruction that the copy is about to perform. -/
def State.resHere (s : State) (w : Nat) : Option LogRec :=
  (s.nextRec w).filter fun r => r.resolves && r.issued == (s.warp w).ctl.issued

/-- The fault the primary met at the instruction a copy run is about to perform (R182). -/
def State.loggedFault (s : State) (w : Nat) : Option LogFault :=
  if s.isCopy w then (s.resHere w).bind (·.fault) else none

/-- A copy finds no result in its log yet: it waits for one; or, where the primary met a fault in place of a result, meets that
fault (R182, R342). -/
def noRecord (s : State) (w : Nat) : Res :=
  match s.loggedFault w with
  | some f => .fault (faultOfLog f)
  | none => .wait .record

/-- Wait for room in the feed log. Where an extent is full, the segment ends before the instruction (R168). -/
def waitExtent (w need : Nat) : Prog Res :=
  letI := progMonad
  do
    let s ← st
    let g := s.gang (s.gangOfWarp w)
    whenP (!g.extents.isEmpty && !g.fits need && !endedForExtent g (runOfWarp w) (gangWarp w) (s.warp w).ctl.issued) (segEnd w true)
    pure (.wait (.extent need))

/-- What an instruction obtained: a value per lane, and the fault that stopped its other lanes. -/
abbrev Got := List (Nat × Nat) × Option FaultInfo

/-- Obtain values that enter the feed log: the primary obtains them and appends a record, which needs room in an extent;
a shadow or arbiter takes them, and the fault with them, from the record; an unchecked warp only
obtains them. `bytes` is the payload. -/
def withLog (w bytes : Nat) (live : Prog (Except Res Got)) : Prog (Except Res Got) :=
  letI := progMonad
  do
    let s ← st
    if !s.checkedWarp w then live
    else if !s.isCopy w then do
      let need := 8 + (bytes + 7) / 8 * 8
      let ok ← logReady (s.gangOfWarp w) need
      if !ok then do
        let r ← waitExtent w need
        pure (.error r)
      else do
        let r ← live
        match r with
        | .error e => pure (.error e)
        | .ok v => do
          let t ← st
          let rec_ : LogRec := { warp := gangWarp w, data := v.1.map fun e => e.1 * 2 ^ 128 + e.2,
                                 fault := v.2.map fun f => logFaultOf f (s.m0 w), issued := (s.warp w).ctl.issued, bytes := need,
                                 view := (t.warp w).ctl.view }
          logAppend w need rec_ (v.1.flatMap fun e => leBytes (bytes / v.1.length) e.2)
          pure (.ok v)
    else match s.nextRec w with
      | none => pure (.error (.wait .record))
      | some r =>
        if r.resolves then pure (.error (noRecord s w))
        else do
          upd (.ctl w fun c => { c with logPos := c.logPos + 1 })
          joinView w r.view
          pure (.ok (r.data.map (fun d => (d / 2 ^ 128, d % 2 ^ 128)), r.fault.map faultOfLog))

/-! ### Ending warps, grids and worlds -/

/-- A block is retired (R43): its scratchpad, regions, FIFOs and engine queues are gone. -/
def retireBlock (k : Nat) : Prog Unit :=
  .bind (upd (.spadClear k)) fun _ => upd (.block k fun b =>
    { b with
      retired := true, busy := [], unset := [], strongs := [], lineView := [], entMsgs := [], regions := [], fifos := []
      streams := [] })

/-- A world leaves STARTING or RUNNING for STOPPING; the stop cause is recorded (R366, R367). -/
def enterStopping (world : Nat) (cause : Nat) (fcause : Nat) : Prog Unit :=
  .get fun s => upd (.world world fun x =>
    if x.st = .running ∨ x.st = .starting then
      { x with st := .stopping, stop := BitVec.ofNat 8 cause, fcause := BitVec.ofNat 16 fcause, stopAt := s.time }
    else x)

/-! ### Faults (R60, R391 to R393) -/

/-- The warp reference of R392: it stays the one of the slot in which the warp started. -/
def warpRef (s : State) (w : Nat) : DWord :=
  let core := (s.warp w).ctl.home
  BitVec.ofNat 64 ((s.warp w).ctl.epoch % 2 ^ 16 * 2 ^ 16 + w % 64 * 2 ^ 10 + core % 16 * 2 ^ 6 + core / 16)

/-- The run code of an entry (R391). -/
def runCode (s : State) (w : Nat) : Nat :=
  let g := s.gang (s.gangOfWarp w)
  if g.checked && g.shadow == runOfWarp w then 1 else if g.checked && g.arbiter == runOfWarp w then 2 else 0

/-- The words of a faulted warp's entry (R391). `kind`: 0 precise, 1 deferred, 2 met only by a shadow or arbiter. -/
def entryWords (s : State) (w kind : Nat) : List DWord :=
  let f := (s.warp w).ctl.fault
  [warpRef s w, f.fpc, f.fcause, f.faddr, f.flanesl, f.flanesh, f.rprog,
   BitVec.ofNat 64 (kind * 2 ^ 53 + runCode s w * 2 ^ 51 + s.gridOfWarp w % 2 ^ 48)]

/-- Post a faulted warp's entry, or keep it waiting while the queue is full or other warps wait to be posted (R393). A fault of a role-0 warp of the resident
grid is not posted: it ends the resident grid and the world stops (R393). -/
def postFault (w kind : Nat) : Prog Unit :=
  letI := progMonad
  do
    let s ← st
    let world := s.worldOfWarp w
    let g := s.grid (s.gridOfWarp w)
    upd (.ctl w fun c => { c with posted := true })
    if g.resident && (s.warp w).ctl.role == 0 then
      enterStopping world 2 (field (s.warp w).ctl.fault.fcause 0 16)
    else
      let ok ← (if (s.world world).unposted.isEmpty then postEntry world (entryWords s w kind) else pure false)
      whenP (!ok) (do
        upd (.world world fun x => { x with unposted := x.unposted ++ [w] })
        let n ← devRead64 world 0 ((s.world world).fq + 16)
        devWrite64 world 0 ((s.world world).fq + 16) (n + 1))

/-- Write the fault record (R58, R60). -/
def recordFault (w : Nat) (fpc : DWord) (f : FaultInfo) : Prog Unit :=
  .get fun s =>
    let lanes := f.lanes.getD (s.m0 w)
    upd (.ctl w fun c => { c with
      posted := false
      faultAt := s.seqNo
      fault :=
        { fpc := fpc
          fcause := BitVec.ofNat 64 (f.cause.code + (if f.part then 2 ^ 16 else 0))
          faddr := f.faddr
          flanesl := BitVec.ofNat 64 lanes.toNat
          flanesh := BitVec.ofNat 64 (lanes.toNat / 2 ^ 64)
          rprog := match f.rprog with | some r => r | none => setField c.fault.rprog 63 1 0 } })

/-- Fold a precise fault (R166). -/
def foldFault (w : Nat) : Prog Unit :=
  .get fun s => let f := (s.warp w).ctl.fault; foldSig w [f.fcause, f.faddr]

/-- The fault a warp parked at is the one the record holds. -/
def sameFault (c : Ctl) (r : LogRec) : Bool :=
  match r.fault with
  | some f => r.resolves && r.issued == c.issued && f.cause == field c.fault.fcause 0 16 && f.faddr == c.fault.faddr
  | none => false

/-- A copy run is alone with the fault it is parked at (R182): the primary has gone past the place, or met another fault there. -/
def faultAlone (s : State) (w : Nat) : Bool :=
  let c := (s.warp w).ctl
  match s.nextRec w with
  | some r => !sameFault c r
  | none => decide (c.issued < (s.warp ((s.gang (s.gangOfWarp w)).primary * 256 + gangWarp w)).ctl.issued)

/-- A copy alone with its fault: a replayable one is posted for its run, any other shows as a mismatch (R182). -/
def postAlone (w : Nat) : Prog Unit :=
  .get fun s =>
    let c := (s.warp w).ctl
    if !faultAlone s w || c.posted then .ret ()
    else if field c.fault.fcause 0 16 = Cause.translate.code then postFault w 2 else forceMismatch w

/-- TAKE A PRECISE FAULT (R60): record it, park, and post it (R393). Of a checked gang FCAUSE and FADDR are folded with the
fault's resolution, as the warp's next event (R166): the primary's when it is logged, and a copy's when it applies it
(R182). POISON has no handler (R64). -/
def takeFault (w : Nat) (f : FaultInfo) : Prog Unit :=
  letI := progMonad
  do
    let s ← st
    let c := (s.warp w).ctl
    recordFault w (f.fpc.getD c.pc) f
    upd (.ctl w fun c => { c with status := .faulted, deferred := none, contPc := f.fpc.getD c.pc, noLen := f.noLen,
                                   memFault := f.mem })
    let s ← st
    if f.cause = .poison then pure ()
    else if !s.isCopy w then postFault w 0
    else if !s.isPrimary w then postAlone w
    else whenP (!(s.nextRec w).any (sameFault (s.warp w).ctl)) (postFault w 0)

/-! ### Issue -/

/-- A warp stands ready in a resident block (R30, R31). -/
def isReady (s : State) (w : Nat) (c : Ctl) : Bool := c.status == .ready && (s.runOf (runOfWarp w)).st == .resident

/-- The key of a list whose number is the least. -/
def leastOf (l : List (Nat × Nat)) : Option Nat :=
  (l.foldl (fun (b : Option (Nat × Nat)) e => match b with
    | some x => if e.2 < x.2 then some e else b
    | none => some e) none).map Prod.fst

/-- Two warps share an issue port (R17). -/
def samePort (s : State) (v w : Nat) : Bool := s.coreOfWarp v == s.coreOfWarp w && v % 4 == w % 4

/-- The warp that must issue before a warp issues again: one of its port that was ready when it issued last, and has not issued
since (R31, and R217 after a YIELD). -/
def heldBack (s : State) (w : Nat) : Option Nat :=
  let last (v : Nat) : Nat := (s.warp v).ctl.lastIssue
  leastOf ((s.readyAt.filter fun e => e.1 != w && samePort s e.1 w && decide (e.2 ≤ last w) && decide (last e.1 < last w)).map
    fun e => (e.1, last e.1))

/-- Opcodes marked E (R200): side-effecting. -/
def isE : Instr → Bool
  | .arrv _ | .str _ | .atom _ | .red _ | .cctl _ | .disc _ | .subs _ | .unsub _ | .spoll _ | .qcfg _ | .mloop _
  | .mstep _ | .rinit _ | .epi _ | .tstore _ | .tcopy _ | .tcopym _ | .slotret _ | .gath _ | .nbpush _ | .nbpop _
  | .coll _ | .cabort _ | .grid _ | .mbxrd _ | .mbxwr _ | .seqopen _ | .seqbind _ | .seqend _ | .hnote _ | .wresume _
  | .wkill _ | .tlbi _ => true
  | _ => false

/-- Opcodes marked M (R200): the warp parks after them. -/
def isM : Instr → Bool
  | .brd _ | .join _ | .call _ | .ret _ | .jmpi _ | .exit _ | .bar _ | .await _ | .gbar _ | .yield _ | .trap _
  | .bkpt _ | .segend _ | .srw _ | .fence _ | .mwait _ | .pwait _ | .qfence _ | .rwait _ | .gwait _ | .eret _ => true
  | _ => false

/-- S-level opcodes (R200, R331). -/
def isS : Instr → Bool
  | .seqopen _ | .seqbind _ | .seqend _ | .hnote _ | .wstate _ | .wresume _ | .wkill _ | .tlbi _ | .eret _ => true
  | _ => false

/-- The warp runs at S level (R363): role 0 of the resident grid. -/
def sLevel (s : State) (w : Nat) : Bool := (s.grid (s.gridOfWarp w)).resident && (s.warp w).ctl.role == 0

/-- Every vector register named lies below the allotment A (R16, R48). -/
def belowAllot (i : Instr) (a : Nat) : Bool :=
  (i.regs.v.all fun x => match x.r with | .v n => decide (n.val + x.words ≤ a) | .q _ => true)
    && i.regs.ranges.all fun r => decide (r.1 + r.2 ≤ a)

/-- Registers an instruction writes to m0 count for the run rules (R193). -/
def m0Writes : Instr → List Reg
  | .brd _ | .join _ | .ret _ | .exit _ => [.m 0]
  | _ => []

/-- Rule 1 (R193): two instructions of a run conflict. -/
def conflicts (e l : RunItem) : Bool :=
  (l.reads.any fun r => e.writes.contains r) || (l.writes.any fun r => e.reads.contains r || e.writes.contains r)

/-- The instruction as the run rules see it. -/
def runItem (i : Instr) (addr : DWord) : RunItem :=
  { addr, reads := i.readSet, writes := i.writeSet ++ m0Writes i, side := isE i || !i.qRefs.isEmpty }

/-- The marker of an instruction: its S bit, or M (R192). -/
def marked (i : Instr) : Bool := (match i.hd with | some h => h.mark | none => false) || isM i

/-- The checks of R201 from step 5 on, at an address. -/
def issueCheck (s : State) (w : Nat) (i : Instr) : Option FaultInfo :=
  let c := (s.warp w).ctl
  let it := runItem i c.pc
  if !i.wf || !belowAllot i c.alloc then some { cause := .illop }
  else if isS i && !sLevel s w then some { cause := .priv }
  else if isS i && s.gridChecked w && (match i with | .eret _ => false | _ => true) then some { cause := .illop }
  else match c.runLog.find? fun e => conflicts e it with
    | some e => some { cause := .runrule, faddr := e.addr }
    | none => if it.side && !(match i.hd with | some h => h.mark | none => false)
        then some { cause := .runrule, faddr := c.pc } else none

/-- The address of the next sequential instruction: offset 28 of a block is skipped (R185). -/
def skip28 (a : DWord) : DWord := if a.toNat % 32 = 28 then a + 4 else a
def nextPc (pc : DWord) (i : Instr) : DWord := skip28 (pc + BitVec.ofNat 64 i.len)

/-- A branch target is legal (R185): a multiple of 4, not at offset 28. -/
def targetOk (a : DWord) : Bool := a.toNat % 4 == 0 && a.toNat % 32 != 28

/-- Record the deferred fault at the head of the held list, if none is recorded (R301, R302): the warp parks and the
entry is posted, but POISON's, for which no handler runs (R64). -/
def recordDeferred (w : Nat) : Prog Unit :=
  letI := progMonad
  do
    let s ← st
    let c := (s.warp w).ctl
    match c.held with
    | [] => pure ()
    | h :: t =>
      if c.deferred.isSome || c.status = .faulted then pure ()
      else do
        upd (.ctl w fun c => { c with fault := h.frec, faultAt := s.seqNo, deferred := some h.op, held := t, contPc := c.pc,
                                      parkedIn := match c.status with | .parked p => some p | _ => none,
                                      status := if c.status = .exited then .exited else .faulted })
        whenP (field h.frec.fcause 0 16 != Cause.poison.code) (postFault w 1)

/-- Count an issued instruction in its run and honour its marker (R55, R192): the warp goes on at `pc`, parks, or
waits; one that its own effect stopped stays stopped (R46, R338). -/
def complete (w : Nat) (i : Instr) (pc : DWord) (stat : WStatus) : Prog Unit :=
  letI := progMonad
  do
    let s ← st
    let it := runItem i (s.warp w).ctl.pc
    let park := marked i
    upd (.ctl w fun c => { c with
      pc := pc
      contPc := c.pc
      issued := c.issued + 1
      runCnt := if park then 0 else Fin.ofNat 17 (c.runCnt.val + 1)
      runLog := if park then [] else c.runLog ++ [it]
      runOld := if park then [] else c.runOld
      status := if c.status = .stopped then .stopped else if stat = .ready ∧ park then .parked .results else stat
      retry := none
      poured := 0
      arrived := none
      mwDone := 0
      mwWords := []
      waitFrom := if stat = .ready then none else some s.time
      lastIssue := s.seqNo })
    whenP (decide (2048 ≤ (s.warp w).ctl.lines)) (segEnd w false)
    whenP (decide (stat = .ready) && !park) (recordDeferred w)

/-- Finish an instruction by how it ended. -/
def finish (w : Nat) (i : Instr) (r : Res) : Prog Unit :=
  .get fun s =>
    let pc := (s.warp w).ctl.pc
    match r with
    | .ok => complete w i (nextPc pc i) .ready
    | .jump a => complete w i a .ready
    | .fault f => takeFault w f
    | .wait k => upd (.ctl w fun c => { c with
        status := .waiting k
        waitFrom := some (c.waitFrom.getD s.time)
        lastIssue := s.seqNo
        segFirst := if s.checkedWarp w && decide (c.lastIssue < c.segFirst) then 0 else c.segFirst })
    | .waitAfter k => complete w i (nextPc pc i) (.waiting k)
    | .park c => complete w i (nextPc pc i) (.parked c)
    | .exited => complete w i pc .exited

/-- A copy run ends its segment where the primary's log says that an extent was full (R168); the instruction about to be
issued is the segment's first event, when it has none (R180). -/
def copySegEnd (w : Nat) : Prog Unit :=
  .get fun s =>
    if !s.checkedWarp w then .ret ()
    else
      let g := s.gang (s.gangOfWarp w)
      let c := (s.warp w).ctl
      .bind (whenP (s.isCopy w && g.segs.any fun e => e.run == g.primary && e.warp == gangWarp w && e.seg == c.seg && e.extent
        && e.issued == c.issued) (segEnd w true)) fun _ =>
        upd (.ctl w fun c => { c with segFirst := if c.segFirst = 0 then s.seqNo else c.segFirst })

/-- Vector registers an instruction writes, whole ranges included. -/
def vWrites (i : Instr) : List Nat :=
  (i.writeSet.filterMap fun r => match r with | .v n => some n | _ => none)
    ++ i.regs.ranges.flatMap fun r => (List.range r.2).map (r.1 + ·)

/-- A register written in this run that the instruction reads without a detected conflict (R194): of a range the device
checks only by its first register. -/
def readsHidden (i : Instr) (r : Nat) : Bool :=
  i.readSet.contains (.v r) || (match i with
    | .mloop o | .mstep o => (o.sa.toList ++ o.sb.toList).any fun x => decide (x.r.val < r)
    | _ => false)

/-- The words of a vector register, lane by lane. -/
def laneWords (s : State) (w r : Nat) : List Word := Config.lanes.map fun l => s.vreg w r l
def putLanes (w r : Nat) (ws : List Word) : Prog Unit := forAll ws.zipIdx fun e => upd (.v w (r * 128 + e.2) e.1)

/-- Keep what the registers held before the run, for the reads of R194. -/
def noteRun (w : Nat) (i : Instr) : Prog Unit :=
  .get fun s =>
    let new := (vWrites i).filter fun r => !((s.warp w).ctl.runOld.any fun e => e.1 == r)
    if marked i || new.isEmpty then .ret ()
    else
      let olds := new.map fun r => (r, laneWords s w r)
      upd (.ctl w fun c => { c with runOld := olds.foldl (fun t e => Tab.put t e.1 e.2) c.runOld })

/-- Run an effect that may see, for each register of an undetected conflict, the value before the run or the run's own:
which one is a free value (R194). `before` is what registers held before earlier instructions of the run wrote them. An
instruction that reads such a register before the run writes it sees the value before the run (log entry 29). -/
def seeEither (w : Nat) (i : Instr) (before : Tab (List Word)) (eff : Prog Res) : Prog Res :=
  letI := progMonad
  do
    let hid := before.filter fun e => readsHidden i e.1
    if hid.isEmpty then eff
    else do
      let picks ← mapAll hid fun e => do
        let f ← freeVal
        pure (e, bitAt f 0)
      let old := (picks.filter (·.2)).map (·.1)
      let s ← st
      let now := old.map fun e => (e.1, laneWords s w e.1)
      forAll old fun e => putLanes w e.1 e.2
      let r ← eff
      forAll (now.filter fun e => !(vWrites i).contains e.1) fun e => putLanes w e.1 e.2
      pure r

/-- The lanes in which an instruction has effect (R33): m0 and the predicate, and on a retry only the lanes left
(R62). -/
def effMask (s : State) (w : Nat) (h : Hd) : Mask :=
  let m := s.m0 w &&& s.predMask w h.pr
  match (s.warp w).ctl.retry with | some r => m &&& r | none => m

/-- Meet the replayable fault that the primary met here, and that its handler has repaired (R182): the lanes it had performed
are performed, then the fault is taken. -/
def meetFault (w : Nat) (i : Instr) (f : LogFault) (eff : Prog Res) : Prog Unit :=
  letI := progMonad
  do
    let s ← st
    let c := (s.warp w).ctl
    let done := (match i.hd with | some h => effMask s w h | none => 0) &&& ~~~f.lanes
    if f.mem && done != 0 then do
      upd (.ctl w fun c => { c with retry := some done, partly := true })
      let r ← eff
      upd (.ctl w fun x => { x with retry := c.retry, partly := false })
      match r with
      | .ok => takeFault w (faultOfLog f)
      | r => finish w i r
    else takeFault w (faultOfLog f)

/-- ISSUE an instruction of the warp `cur`: the checks of R201, its effect, and what it ends in. A warp that is not
ready, or whose block is not resident, issues nothing (R30, R39). No instruction past a faulting one of its run is performed,
which R195 would allow (log entry 78). -/
def issue (i : Instr) (eff : Nat → Prog Res) : Prog Unit :=
  letI := progMonad
  do
    let s ← st
    let w := s.cur
    let c := (s.warp w).ctl
    if c.status ≠ .ready ∨ c.runCnt.val = 16 ∨ (s.runOf (runOfWarp w)).st ≠ .resident then pure ()
    else match issueCheck s w i with
      | some f => takeFault w f
      | none => do
        copySegEnd w
        noteRun w i
        match (s.loggedFault w).filter fun f => f.cause == Cause.translate.code with
        | some f => meetFault w i f (seeEither w i c.runOld (eff w))
        | none => do
          let r ← seeEither w i c.runOld (eff w)
          finish w i r

/-- The lowest-numbered lane of a mask. -/
def lowest (m : Mask) : Option Nat := (lanesOf m).head?

/-- A uniform instruction executes when its predicate is true in the lowest lane of m0 (R191, R205). -/
def uniformOn (s : State) (w : Nat) (h : Hd) : Bool :=
  match lowest (s.m0 w) with | some l => (s.predMask w h.pr).getLsbD l | none => false

/-- Issue of an instruction that acts once for the warp (R191, R205). -/
def issueU (i : Instr) (h : Hd) (eff : Nat → Prog Res) : Prog Unit :=
  issue i fun w => .get fun s => if uniformOn s w h then eff w else .ret .ok

end Sys2Proof.Machine
end

