-- ==== Sys2Proof/Machine/Flags.lean ====
section
/-!
DEFINITION. Floating-point flags of an instruction: the traps FPCR enables (R63, R72, R244) and the merge into FPSR (R53).
-/
namespace Sys2Proof.Machine

/-- A lane's outcome: its result and the flags it raises. -/
abbrev FLane := Nat × Nat × Fl

/-- The enabled flags among those raised, in FPSR order (R72): DN has no enable. -/
def trapBits (fpcr : Word) (f : Fl) : Nat := f.toNat % 32 &&& field fpcr 3 5

/-- The FPEXC an instruction raises, if an enabled flag would be set in a lane (R63): FADDR holds the flags of every such
lane, FLANES the lanes. -/
def fpTrap (fpcr : Word) (fl : List (Nat × Fl)) : Option FaultInfo :=
  let t := fl.filter fun e => trapBits fpcr e.2 != 0
  if t.isEmpty then none
  else some { cause := .fpexc, faddr := BitVec.ofNat 64 (t.foldl (fun a e => a ||| trapBits fpcr e.2) 0),
              lanes := some (maskOf (t.map (·.1))) }

def State.fpcr (s : State) (w : Nat) : Word := (s.warp w).regs.fpcr
def State.fpsr (s : State) (w l : Nat) : BitVec 6 := (s.warp w).regs.fpsr.get 0 l

/-- Complete a floating-point instruction: trap, or write and then merge the flags (R244); the lanes `on` have effect (R166). -/
def finishFp (w : Nat) (fl : List (Nat × Fl)) (write : Prog Res) (on : Nat → Bool := fun _ => true) : Prog Res :=
  .get fun s => match fpTrap (s.fpcr w) fl with
    | some f => .ret (.fault f)
    | none => .bind write fun r => match r with
      | .ok => .bind (raiseFlags w fl on) fun _ => .ret .ok
      | r => .ret r

end Sys2Proof.Machine
end

