-- ==== Sys2Proof/Machine/Operands.lean ====
section
/-!
DEFINITION. Operands: vector and queue registers as sources and destinations (R48, R203, R242, R296), and the issue of an
instruction that acts per lane.
-/
namespace Sys2Proof.Machine

/-! ### Queue registers -/

/-- The stream a queue register is bound to: engine and record. -/
def State.streamOf (s : State) (w q : Nat) : Option (Nat × Stream) :=
  match (s.warp w).ctl.qbind.get 0 q with
  | 0 => none
  | e + 1 => some (e, (s.block (blockOfWarp w)).streams.get {} e)

/-- Width of the operand and element size pair as R296 lists. -/
def esizeOk (words esize : Nat) : Bool := if words = 1 then decide (esize ≤ 4) else words == 2 && esize == 8

/-- A use of a queue register is one of R296's uses, for so many lanes read and written. -/
def qUseOk (s : State) (w : Nat) (x : VRef) (nr nw : Nat) : Bool :=
  match x.r with
  | .v _ => true
  | .q n => match s.streamOf w n.val with
    | none => false
    | some (_, t) => esizeOk x.words t.esize && (!x.rd || (!t.store && decide (nr ≤ t.count - t.pos)))
        && (!x.wr || (t.store && decide (nw ≤ t.count - t.pos)))

/-- Engines of the queue registers an instruction reads, each once. -/
def qReads (s : State) (w : Nat) (i : Instr) : List Nat :=
  ((i.regs.v.filterMap fun x => match x.r with
    | .q n => if x.rd then (s.streamOf w n.val).map (·.1) else none
    | .v _ => none)).eraseDups

/-- Queue registers an instruction writes, each once. -/
def qWrites (i : Instr) : List Nat :=
  (i.regs.v.filterMap fun x => match x.r with
    | .q n => if x.wr then some n.val else none
    | .v _ => none).eraseDups

/-- The rank of a lane among those with effect (R296: increasing lane order). -/
def rankOf (ls : List Nat) (l : Nat) : Nat := (ls.filter fun k => decide (k < l)).length

/-- A lane's cause: lane, cause, FADDR. -/
abbrev Bad := Nat × Cause × DWord

/-- The cause that is recorded among those of lanes: the lowest code, in the lowest lane that has it (R61). -/
def worstBad (bad : List Bad) : Bad :=
  bad.tail.foldl (fun m e => if e.2.1.code < m.2.1.code ∨ (e.2.1.code = m.2.1.code ∧ e.1 < m.1) then e else m)
    (bad.headD (0, .illop, 0))

/-- The fault of an instruction that is none of R274's: FLANES holds the lanes in which the recorded cause arose (R60, R61). -/
def causeFault (bad : List Bad) : FaultInfo :=
  let m := worstBad bad
  { cause := m.2.1, faddr := m.2.2, lanes := some (maskOf ((bad.filter fun e => e.2.1 == m.2.1).map (·.1))) }

/-- The causes of the elements that lanes would take from a queue. -/
def badElems (ls : List Nat) (es : List Elem) : List Bad :=
  (ls.zip es).filterMap fun e => match e.2 with
    | .bad c a => some (e.1, Cause.ofCode c, a)
    | .val _ => none

/-- The elements lanes would push to a queue register: lane, number, address (R118). -/
def pushElems (s : State) (w q : Nat) (ls : List Nat) : List (Nat × Nat × DWord) :=
  match s.streamOf w q with
  | none => []
  | some (_, t) => ls.zipIdx.map fun e => (e.1, t.pos + e.2, t.base + BitVec.ofNat 64 (t.pos + e.2) * t.stride)

/-- The causes of the elements that lanes would push to a queue register: each is translated when it is pushed (R118, R296). -/
def badPushes (w q : Nat) (ls : List Nat) : Prog (List Bad) :=
  letI := progMonad
  do
    let s ← st
    let size := match s.streamOf w q with | some (_, t) => t.esize | none => 1
    let bad ← mapAll (pushElems s w q ls) fun x => do
      let r ← locate (s.whoWarp w) x.2.2 size { wr := true, winOk := false }
      pure (match r with | .error (c, a) => some (x.1, c, a) | .ok _ => none)
    pure (bad.filterMap id)

/-- A full store queue among some registers holds issue until its engine catches up (R296). How many elements a queue holds is
not architectural: whether one that holds any is full is a free value (log entry 6). -/
def pushWait (w : Nat) (qs : List Nat) : Prog (Option Res) :=
  .get fun s => match qs.findSome? fun q => (s.streamOf w q).bind fun e => if e.2.pend.isEmpty then none else some (e.1, e.2.pend.length) with
    | none => .ret none
    | some (e, n) => .bind freeVal fun f => .ret (if bitAt f 0 then some (.wait (.room e n)) else none)

/-- What holds an instruction that names queue registers: QUEUE, the causes of the elements it would take and push (a bad
element the engine will read again), an empty queue, or a full one (R296). `lw` gives the lanes that push to a register. -/
def qGate (w : Nat) (i : Instr) (ls : List Nat) (lw : Nat → List Nat) : Prog (Option Res) :=
  letI := progMonad
  do
    let s ← st
    let n := ls.length
    let pushes (x : VRef) : Nat := match x.r with | .q k => (lw k.val).length | .v _ => 0
    match i.regs.v.find? fun x => !qUseOk s w x n (pushes x) with
    | some x => pure (some (.fault { cause := .queue, faddr := match x.r with | .q k => BitVec.ofNat 64 k.val | .v _ => 0 }))
    | none => do
      let blk := s.block (blockOfWarp w)
      let es := (qReads s w i).map fun e => (e, (blk.streams.get {} e).ahead)
      let pops := es.flatMap fun e => badElems ls (e.2.take n)
      match (if pops.isEmpty then es.find? fun e => decide (e.2.length < n) else none) with
      | some e => pure (some (.wait (.queue e.1 n)))
      | none => do
        let pushes ← mapAll (qWrites i) fun q => badPushes w q (lw q)
        let bad := pops ++ pushes.flatten
        let good (x : Elem) : Bool := match x with | .val _ => true | .bad _ _ => false
        forAll es fun e => upd (.block (blockOfWarp w) fun b =>
          { b with streams := b.streams.put e.1 { b.streams.get {} e.1 with ahead := (b.streams.get {} e.1).ahead.takeWhile good } })
        if bad.isEmpty then pushWait w (qWrites i) else pure (some (.fault (causeFault bad)))

/-- Take the elements delivered (R296). -/
def qPop (w : Nat) (i : Instr) (n : Nat) : Prog Unit :=
  .get fun s => forAll (qReads s w i) fun e =>
    upd (.block (blockOfWarp w) fun b =>
      let t := b.streams.get {} e
      { b with streams := b.streams.put e { t with ahead := t.ahead.drop n, pos := t.pos + n } })

/-- The next hold number of the warp's gang when it is a checked primary, taken; else 0 (R173). -/
def newHold (w : Nat) : Prog Nat :=
  .get fun s =>
    if s.checkedWarp w && s.isPrimary w then
      .bind (upd (.gang (s.gangOfWarp w) fun g => { g with nextHold := g.nextHold + 1 })) fun _ =>
        .ret (s.gang (s.gangOfWarp w)).nextHold
    else .ret 0

/-- Count lines written in the warp's segment, at issue (R168). -/
def countLines (w n : Nat) : Prog Unit :=
  .get fun s => if s.checkedWarp w && n != 0 then upd (.ctl w fun c => { c with lines := c.lines + n }) else .ret ()

/-- Push the results of lanes to the store engine of a queue register (R118, R296); `qGate` has checked the elements. -/
def qPush (w q : Nat) (res : List (Nat × Nat)) : Prog Unit :=
  letI := progMonad
  do
    let s ← st
    match s.streamOf w q with
    | none => pure ()
    | some (e, t) => do
      let es := (pushElems s w q (res.map (·.1))).zip (res.map (·.2))
      let els ← mapAll es fun x => do
        let h ← newHold w
        pure { n := x.1.2.1, addr := x.1.2.2, val := BitVec.ofNat 64 (x.2 % 2 ^ (8 * t.esize)), seg := (s.warp w).ctl.seg,
               hold := h, fpc := (s.warp w).ctl.pc, lanes := s.m0 w, turn := s.seqNo : PushedElem }
      upd (.block (blockOfWarp w) fun b =>
        let t := b.streams.get {} e
        { b with streams := b.streams.put e { t with pend := t.pend ++ els, pos := t.pos + els.length } })
      countLines w ((es.map fun x => x.1.2.2.toNat / 128).eraseDups.length)

/-! ### Reading operands -/

/-- The word or pair a V operand gives a lane: a register's, or the queue element of the lane's rank. -/
def State.opnd (s : State) (w : Nat) (ls : List Nat) (r : VOp) (words l : Nat) : Nat :=
  match r with
  | .v n => s.vwide w n.val l words
  | .q n => match s.streamOf w n.val with
    | none => 0
    | some (_, t) => match t.ahead[rankOf ls l]? with
      | some (.val v) => v.toNat % 2 ^ (32 * words)
      | _ => 0

/-- An immediate extended from 32 bits (R203). -/
def extImm (sx : Bool) (i : BitVec 32) : Nat := if sx then (i.signExtend 64).toNat else i.toNat

/-- Source b at a width of one or two words (R203): the class VI extends by the type. -/
def State.srcB (s : State) (w : Nat) (ls : List Nat) (b : SrcB) (words : Nat) (sx : Bool) (l : Nat) : Nat :=
  match b with
  | .v r => s.opnd w ls r words l
  | .s r => (s.sreg w r.val).toNat % 2 ^ (32 * words)
  | .imm i => if words = 1 then i.toNat else extImm sx i

/-- Source b of a uniform instruction (R222): the immediate is sign-extended. -/
def State.srcU (s : State) (w : Nat) (b : SrcU) : DWord :=
  match b with
  | .s r => s.sreg w r.val
  | .imm i => i.signExtend 64

/-- Source b of a floating-point instruction (R242). -/
def State.srcF (s : State) (w : Nat) (ls : List Nat) (b : SrcB) (t : FT) (l : Nat) : Nat :=
  match b with
  | .v r => s.opnd w ls r t.words l % 2 ^ fWidth t
  | .s r => (s.sreg w r.val).toNat % 2 ^ fWidth t
  | .imm i => if t = .f64 then i.toNat * 2 ^ 32 else i.toNat % 2 ^ fWidth t

/-- A floating-point V source (R242): a 16-bit type reads bits 15:0. -/
def State.opndF (s : State) (w : Nat) (ls : List Nat) (r : VOp) (t : FT) (l : Nat) : Nat :=
  s.opnd w ls r t.words l % 2 ^ fWidth t

/-- A V register or S register source of `words` words. -/
def State.regVS (s : State) (w : Nat) (r : RegVS) (words l : Nat) : Nat :=
  match r with
  | .v n => s.vwide w n.val l words
  | .s n => (s.sreg w n.val).toNat % 2 ^ (32 * words)

/-! ### Writing a V destination -/

/-- Write a result to a V destination: a register, or pushes to a store engine. -/
def putRes (w : Nat) (d : VOp) (words : Nat) (res : List (Nat × Nat)) : Prog Res :=
  match d with
  | .v n => .bind (writeV w n.val words res) fun _ => .ret .ok
  | .q n => .bind (qPush w n.val res) fun _ => .ret .ok

/-! ### Issue of instructions that act per lane -/

/-- Issue of an instruction with the lanes in which it has effect, even when there are none; `wr` are the lanes it
writes. -/
def issueL (i : Instr) (h : Hd) (wr : State → Nat → List Nat → List Nat) (eff : Nat → List Nat → Prog Res) : Prog Unit :=
  letI := progMonad
  issue i fun w => do
    let s ← st
    let ls := lanesOf (effMask s w h)
    let g ← qGate w i ls fun _ => wr s w ls
    match g with
    | some r => pure r
    | none => do
      let r ← eff w ls
      match r with
      | .ok => do
        qPop w i ls.length
        pure .ok
      | r => pure r

/-- Issue of an instruction that has effect in the lanes of m0 whose predicate is true; nothing happens when there are
none (R33). -/
def issueV (i : Instr) (h : Hd) (eff : Nat → List Nat → Prog Res) : Prog Unit :=
  letI := progMonad
  issue i fun w => do
    let s ← st
    match lanesOf (effMask s w h) with
    | [] => pure .ok
    | l :: t => do
      let g ← qGate w i (l :: t) fun _ => l :: t
      match g with
      | some r => pure r
      | none => do
        let r ← eff w (l :: t)
        match r with
        | .ok => do
          qPop w i (t.length + 1)
          pure .ok
        | r => pure r

/-- An instruction that computes a V destination lane by lane. -/
def vectorOp (i : Instr) (h : Hd) (d : VOp) (words : Nat) (f : State → Nat → List Nat → Nat → Nat) : Prog Unit :=
  issueV i h fun w ls => .get fun s => putRes w d words (ls.map fun l => (l, f s w ls l))

/-- A floating-point instruction that computes a V destination and flags lane by lane. -/
def floatOp (i : Instr) (h : Hd) (d : VOp) (words : Nat) (f : State → Nat → List Nat → Nat → Nat × Fl) : Prog Unit :=
  issueV i h fun w ls => .get fun s =>
    let rs := ls.map fun l => (l, f s w ls l)
    finishFp w (rs.map fun r => (r.1, r.2.2)) (putRes w d words (rs.map fun r => (r.1, r.2.1)))

end Sys2Proof.Machine
end

