-- ==== Sys2Proof/Machine/Barrier.lean ====
section
/-!
DEFINITION. Barriers (R40, R214 to R216).
-/
namespace Sys2Proof.Machine

/-- Warps of a block or run that have not exited, other than one that is exiting. -/
def notExited (s : State) (ws : List Nat) (leaving : Option Nat) : Nat :=
  (ws.filter fun w => (s.warp w).ctl.status != .exited && leaving != some w).length

/-- Arrivals a phase needs: its count, or for 0 every non-exited warp of the block (R40). -/
def barNeeds (s : State) (blk cnt : Nat) (leaving : Option Nat) : Nat :=
  if cnt = 0 then notExited s (s.warpsOfBlock blk) leaving else cnt

/-- Complete the open phase of a barrier when its arrivals suffice. -/
def barCheck (blk n : Nat) (leaving : Option Nat) : Prog Unit :=
  .get fun s =>
    let b := (s.block blk).bars.get {} n
    if b.isOpen && decide (barNeeds s blk b.cnt leaving ≤ b.arr) then
      upd (.block blk fun x => { x with bars := x.bars.put n { c := b.c + 1, passed := b.passed.join b.view } })
    else .ret ()

/-- Arrive at a barrier, a release fence at .bk, for BAR after the acquire fence that FENCE.ar has too (R145): the number of the
phase, or the fault (R40, R214). -/
def barArrive (w n cnt : Nat) (acq : Bool) : Prog (Except Res Word) :=
  .get fun s =>
    let blk := blockOfWarp w
    let b := (s.block blk).bars.get {} n
    if 15 < n ∨ 64 < cnt then .ret (.error (faultOf .illop))
    else if b.isOpen ∧ b.cnt ≠ cnt then .ret (.error (diverge 5))
    else
      .bind (whenP acq (acquireFence w .bk)) fun _ => .get fun s =>
      let v := b.view.join (s.relView w)
      .bind (releaseFence w .bk) fun _ =>
      .bind (upd (.block blk fun x => { x with bars := x.bars.put n { b with arr := b.arr + 1, cnt := cnt, isOpen := true, view := v } }))
        fun _ => .bind (barCheck blk n none) fun _ => .ret (.ok b.c)

/-- Barrier and count of BAR and ARRV. -/
def barArgs (s : State) (w : Nat) (a : BarArg) : Nat × Nat :=
  match a with
  | .reg x y => ((s.sreg w x.val).toNat, (s.sreg w y.val).toNat)
  | .imm n c => (n.val, c.toNat)

/-- A phase is complete: (C − p) mod 2^32 lies between 1 and 2^31 (R215). -/
def phaseDone (c p : Word) : Bool := decide (1 ≤ (c - p).toNat) && decide ((c - p).toNat ≤ 2 ^ 31)

def State.barC (s : State) (w n : Nat) : Word := ((s.block (blockOfWarp w)).bars.get {} n).c

/-- Complete a barrier instruction: an acquire fence at .bk, and what the arrivals of the phase order (R145). -/
def passBar (w n : Nat) : Prog Res :=
  .get fun s => .bind (joinView w ((s.block (blockOfWarp w)).bars.get {} n).passed) fun _ =>
    .bind (acquireFence w .bk) fun _ => .ret .ok

/-- Wait in a phase the warp has arrived in. -/
def waitIn (w : Nat) (k : Wait) (phase : Nat) : Prog Res :=
  .bind (upd (.ctl w fun c => { c with arrived := some phase })) fun _ => .ret (.wait k)

/-- BAR (R214): arrive once, and wait until the phase completes. -/
def execBar (o : BarOp) (s : State) : Host.Outcome State Fault Refusal :=
  next (issueU (.bar o) o.hd fun w => .get fun s =>
    let a := barArgs s w o.arg
    match (s.warp w).ctl.arrived with
    | some p => if phaseDone (s.barC w a.1) (BitVec.ofNat 32 p) then passBar w a.1 else .ret (.wait (.bar a.1 p))
    | none => .bind (barArrive w a.1 a.2 true) fun r => .get fun s => match r with
      | .error e => .ret e
      | .ok p => if phaseDone (s.barC w a.1) p then passBar w a.1 else waitIn w (.bar a.1 p.toNat) p.toNat) s

/-- ARRV (R215): arrive and write the phase's number. -/
def execArrv (o : Arrv) (s : State) : Host.Outcome State Fault Refusal :=
  next (issueU (.arrv o) o.hd fun w => .get fun s =>
    let a := barArgs s w o.arg
    .bind (barArrive w a.1 a.2 false) fun r => match r with
      | .error e => .ret e
      | .ok p => .bind (writeS w o.d.val (p.setWidth 64)) fun _ => .ret .ok) s

/-- AWAIT (R215): wait until the phase is complete. -/
def execAwait (o : Await) (s : State) : Host.Outcome State Fault Refusal :=
  next (issueU (.await o) o.hd fun w => .get fun s =>
    let p : Word := (s.sreg w o.a.val).setWidth 32
    let n := match o.arg with | .reg b => (s.sreg w b.val).toNat | .imm n => n.val
    if 15 < n then .ret (faultOf .illop)
    else if phaseDone (s.barC w n) p then passBar w n else .ret (.wait (.await n p.toNat))) s

/-- Complete the gang's GBAR phase when every non-exited warp of every block has arrived (R216): an acquire at .gg in
every warp (R99, R145). -/
def gbarCheck (run : Nat) (leaving : Option Nat) : Prog Unit :=
  letI := progMonad
  do
    let s ← st
    let blks := s.blocksOfRun run
    let arr := blks.foldl (fun n b => n + (s.block b).gbarArr) 0
    whenP (decide (0 < arr) && decide (notExited s (s.warpsOfRun run) leaving ≤ arr)) (do
      upd (.run run fun r => { r with gbar := r.gbar + 1, gview := {} })
      forAll blks fun b => upd (.block b fun x => { x with gbarArr := 0 })
      forAll (s.warpsOfRun run) fun w => .bind (joinView w (s.runOf run).gview) fun _ =>
        .bind (acquireFence w .gg) fun _ => acquire w .gg)

/-- GBAR (R216): it arrives with a FENCE.ar at .gg (R145). -/
def execGbar (o : Plain) (s : State) : Host.Outcome State Fault Refusal :=
  next (issueU (.gbar o) o.hd fun w => .get fun s =>
    let run := runOfWarp w
    let p := (s.runOf run).gbar
    match (s.warp w).ctl.arrived with
    | some q => .ret (if q < p then .ok else .wait (.gbar q))
    | none =>
      .bind (upd (.block (blockOfWarp w) fun x => { x with gbarArr := x.gbarArr + 1 })) fun _ =>
      .bind (acquireFence w .gg) fun _ =>
      .bind (releaseFence w .gg) fun _ => .get fun s =>
      .bind (upd (.run run fun r => { r with gview := r.gview.join (s.relView w) })) fun _ =>
      .bind (gbarCheck run none) fun _ => .get fun s =>
        if p < (s.runOf run).gbar then .ret .ok else waitIn w (.gbar p) p) s

end Sys2Proof.Machine
end

