-- ==== Sys2Proof/Machine/Narrow.lean ====
section
/-!
DEFINITION. The narrow element formats and block scales (R74 to R82).
-/
namespace Sys2Proof.Machine

/-- Width of a code. -/
def ntBits : NT → Nat | .f4 => 4 | _ => 8

/-- Sign, magnitude m·2^e of an F8A, F8B or F4 code (R74): exponent and fraction widths and the bias. -/
def smallFloat (eb fb bias : Nat) (c : Nat) : Bool × Nat × Int :=
  let f := c % 2 ^ fb
  let e := c / 2 ^ fb % 2 ^ eb
  let neg := decide (c / 2 ^ (eb + fb) % 2 = 1)
  if e = 0 then (neg, f, 1 - (bias : Int) - (fb : Int)) else (neg, f + 2 ^ fb, (e : Int) - (bias : Int) - (fb : Int))

/-- A T8 code (R76). -/
def t8Val (c : Nat) : Bool × Nat × Int :=
  let neg := decide (c / 128 % 2 = 1)
  let d := c / 64 % 2
  let y := c % 64
  if y = 0 then (neg, if d = 0 then 0 else 1, 24)
  else
    let n := Nat.log2 y
    let z := 5 - n
    let k0 := min n 2
    let below := y - 2 ^ n
    let w := n - k0
    let g := if n = 1 then 2 * (below / 2 ^ w) else below / 2 ^ w
    let m := below % 2 ^ w
    let k : Int := ((4 * z + g : Nat) : Int)
    (neg, 2 ^ w + m, (if d = 1 then k else -k - 1) - (w : Int))

/-- The value of a code (R74, R76): sign, magnitude m·2^e. -/
def ntVal (t : NT) (c : Nat) : Bool × Nat × Int :=
  match t with
  | .f8a => smallFloat 4 3 7 c
  | .f8b => smallFloat 5 2 15 c
  | .f4 => smallFloat 2 1 1 c
  | .t8 => t8Val (c % 256)
  | .i8 => let v := signed 8 c; (decide (v < 0), v.natAbs, 0)

/-- The magnitude codes of a format, of either sign. -/
def ntCodes (t : NT) (neg : Bool) : List Nat :=
  match t with
  | .f4 => List.range 8
  | .i8 => List.range (if neg then 129 else 128)
  | _ => List.range 128

/-- Magnitude of a magnitude code in units of 2^q, q at most −21 (for I8 the code is the magnitude). -/
def ntMag (t : NT) (c : Nat) (q : Int) : Nat :=
  match t with
  | .i8 => c * 2 ^ (-q).toNat
  | _ => let v := ntVal t c; v.2.1 * 2 ^ (v.2.2 - q).toNat

/-- The largest magnitude and the smallest normal of a format as m·2^e (R75, R76, R79). -/
def ntTop (t : NT) (neg : Bool) : Nat × Int :=
  match t with | .f8a => (480, 0) | .f8b => (114688, 0) | .f4 => (6, 0) | .t8 => (1, 24) | .i8 => (if neg then 128 else 127, 0)
def ntTopCode (t : NT) (neg : Bool) : Nat :=
  match t with | .f8a => 0x7F | .f8b => 0x7F | .f4 => 0x7 | .t8 => 0x40 | .i8 => if neg then 128 else 127
def ntMinExp : NT → Option Int
  | .f8a => some (-6) | .f8b => some (-14) | .f4 => some 0 | .t8 => some (-21) | .i8 => none

/-- The code of a sign and a magnitude code. -/
def ntSigned (t : NT) (neg : Bool) (c : Nat) : Nat :=
  match t with
  | .i8 => if neg then (256 - c) % 256 else c
  | _ => if neg then c + 2 ^ (ntBits t - 1) else c

/-- Narrow (R79) of q = ±m·2^e: the nearest value; a tie goes to a code with bit 0 clear, then to the smaller magnitude. -/
def narrow (t : NT) (neg : Bool) (m : Nat) (e : Int) : Nat × Fl :=
  if m = 0 then (ntSigned t neg 0, 0)
  else
    let top := ntTop t neg
    let u := min e (-21)
    let x := m * 2 ^ (e - u).toNat
    if top.1 * 2 ^ (top.2 - u).toNat < x then (ntSigned t neg (ntTopCode t neg), flOF ||| flNX)
    else
      let dist (c : Nat) : Nat := ((x : Int) - (ntMag t c u : Int)).natAbs
      let better (a b : Nat) : Bool :=
        decide (dist a < dist b) || (decide (dist a = dist b) &&
          (decide (a % 2 < b % 2) || (decide (a % 2 = b % 2) && decide (ntMag t a u < ntMag t b u))))
      let c := (ntCodes t neg).foldl (fun b c => if better c b then c else b) 0
      let inexact := decide (dist c ≠ 0)
      let small := match ntMinExp t with
        | some k => decide (x < 2 ^ (k - u).toNat)
        | none => false
      (ntSigned t neg c, flIf inexact flNX ||| flIf (inexact && small) flUF)

/-- T of R81. -/
def ntT : NT → Int | .f8a => 8 | .f8b => 16 | .f4 => 2 | .t8 => 0 | .i8 => 6

/-- The scale code computed for a block whose largest exponent ⌊log2 amax⌋ is given (R81). -/
def autoScale (t : NT) (amax : Option Int) : Nat :=
  match amax with
  | none => 127
  | some k => (max 0 (min 254 (k - ntT t + 127))).toNat

/-- Widening to a floating type (R82). -/
def widen (t : NT) (dst : FT) (fz : Bool) (code c : Nat) : Nat × Fl :=
  if c = 255 then (fDefNan dst, 0)
  else
    let v := ntVal t code
    if v.2.1 = 0 then (fZero dst v.1, 0) else roundFin dst .rne fz v.1 v.2.1 (v.2.2 + (c : Int) - 127) false

end Sys2Proof.Machine
end

