-- ==== Sys2Proof/Machine/Uniform.lean ====
section
/-!
DEFINITION. Uniform instructions (R222 to R225); SLD stands with the memory instructions.
-/
namespace Sys2Proof.Machine

/-- A uniform instruction that writes S[d] (R222). -/
def uniformOp (i : Instr) (h : Hd) (d : SReg) (f : State → Nat → DWord) : Prog Unit :=
  issueU i h fun w => .get fun s => .bind (writeS w d.val (f s w)) fun _ => .ret .ok

/-- The shift amount: B as an unsigned number. -/
def shiftL (a b : DWord) : DWord := if b.toNat < 64 then a <<< b.toNat else 0
def shiftR (a b : DWord) : DWord := if b.toNat < 64 then a >>> b.toNat else 0
def shiftA (a b : DWord) : DWord := a.sshiftRight (min b.toNat 63)

/-- A ≤ B as the type compares (R222). -/
def leU (ty : IT) (a b : DWord) : Bool := if ty.signed then decide (a.toInt ≤ b.toInt) else decide (a.toNat ≤ b.toNat)

/-- A compare code on two integers (R225). -/
def cmpInt (c : Cmp) (a b : Int) : Bool :=
  match c with
  | .eq => decide (a = b) | .ne => decide (a ≠ b) | .lt => decide (a < b) | .le => decide (a ≤ b)
  | .gt => decide (b < a) | .ge => decide (b ≤ a)

def execSadd (o : UBin) (s : State) : Host.Outcome State Fault Refusal :=
  next (uniformOp (.sadd o) o.hd o.d fun s w => s.sreg w o.a.val + s.srcU w o.b) s
def execSsub (o : UBin) (s : State) : Host.Outcome State Fault Refusal :=
  next (uniformOp (.ssub o) o.hd o.d fun s w => s.sreg w o.a.val - s.srcU w o.b) s
def execSmul (o : UBin) (s : State) : Host.Outcome State Fault Refusal :=
  next (uniformOp (.smul o) o.hd o.d fun s w => s.sreg w o.a.val * s.srcU w o.b) s
def execSmad (o : UMad) (s : State) : Host.Outcome State Fault Refusal :=
  next (uniformOp (.smad o) o.hd o.d fun s w => s.sreg w o.a.val * s.sreg w o.b.val + s.sreg w o.c.val) s
def execSand (o : UBin) (s : State) : Host.Outcome State Fault Refusal :=
  next (uniformOp (.sand o) o.hd o.d fun s w => s.sreg w o.a.val &&& s.srcU w o.b) s
def execSor (o : UBin) (s : State) : Host.Outcome State Fault Refusal :=
  next (uniformOp (.sor o) o.hd o.d fun s w => s.sreg w o.a.val ||| s.srcU w o.b) s
def execSxor (o : UBin) (s : State) : Host.Outcome State Fault Refusal :=
  next (uniformOp (.sxor o) o.hd o.d fun s w => s.sreg w o.a.val ^^^ s.srcU w o.b) s
def execSshl (o : UBin) (s : State) : Host.Outcome State Fault Refusal :=
  next (uniformOp (.sshl o) o.hd o.d fun s w => shiftL (s.sreg w o.a.val) (s.srcU w o.b)) s
def execSshr (o : UBin) (s : State) : Host.Outcome State Fault Refusal :=
  next (uniformOp (.sshr o) o.hd o.d fun s w => shiftR (s.sreg w o.a.val) (s.srcU w o.b)) s
def execSsra (o : UBin) (s : State) : Host.Outcome State Fault Refusal :=
  next (uniformOp (.ssra o) o.hd o.d fun s w => shiftA (s.sreg w o.a.val) (s.srcU w o.b)) s
def execSmin (o : UBin) (s : State) : Host.Outcome State Fault Refusal :=
  next (uniformOp (.smin o) o.hd o.d fun s w =>
    let a := s.sreg w o.a.val
    let b := s.srcU w o.b
    if leU o.ty a b then a else b) s
def execSmax (o : UBin) (s : State) : Host.Outcome State Fault Refusal :=
  next (uniformOp (.smax o) o.hd o.d fun s w =>
    let a := s.sreg w o.a.val
    let b := s.srcU w o.b
    if leU o.ty b a then a else b) s

/-- A predicate source in the lowest-numbered lane of m0 (R223). -/
def State.predLow (s : State) (w : Nat) (p : PSrc) : Bool :=
  match lowest (s.m0 w) with | some l => (s.predMask w p).getLsbD l | none => false

def execSsel (o : USel) (s : State) : Host.Outcome State Fault Refusal :=
  next (uniformOp (.ssel o) o.hd o.d fun s w => if s.predLow w o.q then s.sreg w o.a.val else s.sreg w o.b.val) s
def execSmov (o : UMov) (s : State) : Host.Outcome State Fault Refusal :=
  next (uniformOp (.smov o) o.hd o.d fun s w => s.sreg w o.a.val) s

/-- The value of a move immediate as 64 bits (R224, R240): a 32-bit one is sign-extended under .s types. -/
def moveImm : MovImm → DWord
  | .short ty i => BitVec.ofNat 64 (extImm ty.signed i)
  | .long i => i

def execSmovi (o : UMovi) (s : State) : Host.Outcome State Fault Refusal :=
  next (uniformOp (.smovi o) o.hd o.d fun _ _ => moveImm o.v) s

/-- SCMP (R225): the result goes to every lane of m0. -/
def execScmp (o : Scmp) (s : State) : Host.Outcome State Fault Refusal :=
  next (issueU (.scmp o) o.hd fun w => .get fun s =>
    let a := s.sreg w o.a.val
    let b := s.srcU w o.b
    let r := if o.ty.signed then cmpInt o.cmp a.toInt b.toInt else cmpInt o.cmp a.toNat b.toNat
    .bind (writeP w o.d (s.m0 w) (if r then Config.laneMask else 0)) fun _ => .ret .ok) s

end Sys2Proof.Machine
end

