-- ==== Sys2Proof/Machine/VInt.lean ====
section
/-!
DEFINITION. Vector integer and address instructions (R230 to R241).
-/
namespace Sys2Proof.Machine

/-- A number read as the type gives: two's complement for .s types (R230). -/
def rdInt (ty : IT) (x : Nat) : Int := if ty.signed then signed ty.bits x else ((x % 2 ^ ty.bits : Nat) : Int)
/-- An integer modulo 2^w. -/
def wrInt (w : Nat) (x : Int) : Nat := (x % (2 ^ w : Nat)).toNat

/-- The result of R230: wrapped, or saturated to the type. -/
def satInt (ty : IT) (sat : Bool) (x : Int) : Nat :=
  wrInt ty.bits (if sat then min (max x (itMin ty)) (itMax ty) else x)

/-- An instruction of sources a and b at the type's width, as exact integers (R230). -/
def intOp (i : Instr) (o : VBin) (f : Int → Int → Int) : Prog Unit :=
  vectorOp i o.hd o.d o.ty.words fun s w ls l =>
    satInt o.ty o.sat (f (rdInt o.ty (s.opnd w ls o.a o.ty.words l)) (rdInt o.ty (s.srcB w ls o.b o.ty.words o.ty.signed l)))

/-- An instruction of sources a and b at the type's width, as bits. -/
def bitOp (i : Instr) (o : VBin) (f : Nat → Nat → Nat) : Prog Unit :=
  vectorOp i o.hd o.d o.ty.words fun s w ls l =>
    f (s.opnd w ls o.a o.ty.words l) (s.srcB w ls o.b o.ty.words o.ty.signed l) % 2 ^ o.ty.bits

/-- An instruction of source a and a 32-bit source b (shifts and fields: R202). -/
def ctlOp (i : Instr) (o : VBin) (f : Nat → Nat → Nat) : Prog Unit :=
  vectorOp i o.hd o.d o.ty.words fun s w ls l =>
    f (s.opnd w ls o.a o.ty.words l) (s.srcB w ls o.b 1 false l) % 2 ^ o.ty.bits

/-- An instruction of source a alone. -/
def unOp (i : Instr) (o : VUn) (words : Nat) (f : Nat → Nat) : Prog Unit :=
  vectorOp i o.hd o.d words fun s w ls l => f (s.opnd w ls o.a o.ty.words l)

def execIadd (o : VBin) (s : State) : Host.Outcome State Fault Refusal := next (intOp (.iadd o) o fun a b => a + b) s
def execIsub (o : VBin) (s : State) : Host.Outcome State Fault Refusal := next (intOp (.isub o) o fun a b => a - b) s
def execImul (o : VBin) (s : State) : Host.Outcome State Fault Refusal := next (intOp (.imul o) o fun a b => a * b) s
/-- The high half of the product (R230): the division rounds toward −∞. -/
def execImulh (o : VBin) (s : State) : Host.Outcome State Fault Refusal :=
  next (intOp (.imulh o) o fun a b => a * b / ((2 ^ o.ty.bits : Nat) : Int)) s
def execImin (o : VBin) (s : State) : Host.Outcome State Fault Refusal :=
  next (intOp (.imin o) o fun a b => if a ≤ b then a else b) s
def execImax (o : VBin) (s : State) : Host.Outcome State Fault Refusal :=
  next (intOp (.imax o) o fun a b => if b ≤ a then a else b) s
def execIabs (o : VUn) (s : State) : Host.Outcome State Fault Refusal :=
  next (unOp (.iabs o) o o.ty.words fun a => wrInt o.ty.bits ((rdInt o.ty a).natAbs : Int)) s
def execIneg (o : VUn) (s : State) : Host.Outcome State Fault Refusal :=
  next (unOp (.ineg o) o o.ty.words fun a => wrInt o.ty.bits (-(rdInt o.ty a))) s

def execImad (o : VTri) (s : State) : Host.Outcome State Fault Refusal :=
  next (vectorOp (.imad o) o.hd o.d o.ty.words fun s w ls l =>
    wrInt o.ty.bits (rdInt o.ty (s.opnd w ls o.a o.ty.words l) * rdInt o.ty (s.srcB w ls o.b o.ty.words o.ty.signed l)
      + rdInt o.ty (s.opnd w ls o.c o.ty.words l))) s
/-- IMADW (R232): 32-bit factors, a pair added and written. -/
def execImadw (o : VTri) (s : State) : Host.Outcome State Fault Refusal :=
  next (vectorOp (.imadw o) o.hd o.d 2 fun s w ls l =>
    wrInt 64 (rdInt o.ty (s.opnd w ls o.a 1 l) * rdInt o.ty (s.srcB w ls o.b 1 o.ty.signed l)
      + ((s.opnd w ls o.c 2 l : Nat) : Int))) s

/-- IADDC (R231): the sum with the carry predicate, and the carry out. -/
def execIaddc (o : Iaddc) (s : State) : Host.Outcome State Fault Refusal :=
  next (issueV (.iaddc o) o.hd fun w ls => .get fun s =>
    let cin := if o.cien then s.predMask w ⟨false, o.ci⟩ else 0
    let sum (l : Nat) : Nat := s.opnd w ls o.a o.ty.words l + s.srcB w ls o.b o.ty.words o.ty.signed l + (cin.getLsbD l).toNat
    .bind (putRes w o.d o.ty.words (ls.map fun l => (l, sum l % 2 ^ o.ty.bits))) fun r => match r with
      | .ok => .bind (writeP w o.co (maskOf ls) (maskOf (ls.filter fun l => decide (2 ^ o.ty.bits ≤ sum l)))) fun _ => .ret .ok
      | r => .ret r) s

def execVand (o : VBin) (s : State) : Host.Outcome State Fault Refusal := next (bitOp (.vand o) o fun a b => a &&& b) s
def execVor (o : VBin) (s : State) : Host.Outcome State Fault Refusal := next (bitOp (.vor o) o fun a b => a ||| b) s
def execVxor (o : VBin) (s : State) : Host.Outcome State Fault Refusal := next (bitOp (.vxor o) o fun a b => a ^^^ b) s
def execVnot (o : VUn) (s : State) : Host.Outcome State Fault Refusal :=
  next (unOp (.vnot o) o o.ty.words fun a => 2 ^ o.ty.bits - 1 - a % 2 ^ o.ty.bits) s

/-- LUT3 of three words (R233): bit i of the result is bit a_i + 2·b_i + 4·c_i of the table. -/
def lut3Word (lut : BitVec 8) (a b c : Word) : Word :=
  (List.range 8).foldl (fun r k =>
    if lut.getLsbD k then
      r ||| ((if k % 2 = 1 then a else ~~~a) &&& (if k / 2 % 2 = 1 then b else ~~~b) &&& (if k / 4 = 1 then c else ~~~c))
    else r) 0
def execLut3 (o : Lut3) (s : State) : Host.Outcome State Fault Refusal :=
  next (vectorOp (.lut3 o) o.hd o.d 1 fun s w ls l =>
    (lut3Word o.lut (BitVec.ofNat 32 (s.opnd w ls o.a 1 l)) (BitVec.ofNat 32 (s.srcB w ls o.b 1 false l)) (s.vreg w o.c.val l)).toNat) s

/-- The shifts of R234 at width w. -/
def shlBits (w a n : Nat) : Nat := if n < w then a * 2 ^ n % 2 ^ w else 0
def shrBits (w a n : Nat) : Nat := if n < w then a / 2 ^ n else 0
def sraBits (w a n : Nat) : Nat := wrInt w (signed w a / ((2 ^ min n (w - 1) : Nat) : Int))
def rotBits (w a n : Nat) : Nat := (a * 2 ^ (n % w) + a / 2 ^ (w - n % w)) % 2 ^ w

def execShl (o : VBin) (s : State) : Host.Outcome State Fault Refusal := next (ctlOp (.shl o) o (shlBits o.ty.bits)) s
def execShr (o : VBin) (s : State) : Host.Outcome State Fault Refusal := next (ctlOp (.shr o) o (shrBits o.ty.bits)) s
def execSra (o : VBin) (s : State) : Host.Outcome State Fault Refusal := next (ctlOp (.sra o) o (sraBits o.ty.bits)) s
def execRot (o : VBin) (s : State) : Host.Outcome State Fault Refusal := next (ctlOp (.rot o) o (rotBits o.ty.bits)) s

/-- SHF (R235). -/
def shfBits (w : Nat) (left : Bool) (c a n : Nat) : Nat :=
  let x := c * 2 ^ w + a
  let m := min n w
  if left then x * 2 ^ m / 2 ^ w % 2 ^ w else x / 2 ^ m % 2 ^ w
def execShf (o : VTri) (s : State) : Host.Outcome State Fault Refusal :=
  next (vectorOp (.shf o) o.hd o.d o.ty.words fun s w ls l =>
    shfBits o.ty.bits o.left (s.opnd w ls o.c o.ty.words l) (s.opnd w ls o.a o.ty.words l) (s.srcB w ls o.b 1 false l)) s

/-- Position and length of a bit field, clipped to the width (R236). -/
def bfPos (w ctl : Nat) : Nat := min (ctl % 256) w
def bfLen (w ctl : Nat) : Nat := min (ctl / 256 % 256) (w - bfPos w ctl)
def bfeBits (w : Nat) (sx : Bool) (a ctl : Nat) : Nat :=
  let n := bfLen w ctl
  if n = 0 then 0
  else
    let f := a / 2 ^ bfPos w ctl % 2 ^ n
    if sx then wrInt w (signed n f) else f
def bfiBits (w a c ctl : Nat) : Nat :=
  let p := bfPos w ctl
  let n := bfLen w ctl
  let f := a / 2 ^ p % 2 ^ n
  a - f * 2 ^ p + (c % 2 ^ n) * 2 ^ p
def execBfe (o : VBin) (s : State) : Host.Outcome State Fault Refusal :=
  next (ctlOp (.bfe o) o (bfeBits o.ty.bits o.ty.signed)) s
def execBfi (o : VTri) (s : State) : Host.Outcome State Fault Refusal :=
  next (vectorOp (.bfi o) o.hd o.d o.ty.words fun s w ls l =>
    bfiBits o.ty.bits (s.opnd w ls o.a o.ty.words l) (s.opnd w ls o.c o.ty.words l) (s.srcB w ls o.b 1 false l)) s

def popBits (w a : Nat) : Nat := ((List.range w).filter fun i => a.testBit i).length
def clzBits (w a : Nat) : Nat := if a % 2 ^ w = 0 then w else w - 1 - Nat.log2 (a % 2 ^ w)
def brevBits (w a : Nat) : Nat := (List.range w).foldl (fun r i => 2 * r + (a.testBit i).toNat) 0
def execPopc (o : VUn) (s : State) : Host.Outcome State Fault Refusal := next (unOp (.popc o) o 1 (popBits o.ty.bits)) s
def execClz (o : VUn) (s : State) : Host.Outcome State Fault Refusal := next (unOp (.clz o) o 1 (clzBits o.ty.bits)) s
def execBrev (o : VUn) (s : State) : Host.Outcome State Fault Refusal :=
  next (unOp (.brev o) o o.ty.words (brevBits o.ty.bits)) s

/-- Write P[d] in the lanes with effect: the lanes of a list hold true. -/
def predRes (w : Nat) (d : PReg) (ls trues : List Nat) : Prog Res :=
  .bind (writeP w d (maskOf ls) (maskOf trues)) fun _ => .ret .ok

/-- ICMP (R238). -/
def execIcmp (o : Icmp) (s : State) : Host.Outcome State Fault Refusal :=
  next (issueV (.icmp o) o.hd fun w ls => .get fun s =>
    predRes w o.d ls (ls.filter fun l =>
      cmpInt o.cmp (rdInt o.ty (s.opnd w ls o.a o.ty.words l)) (rdInt o.ty (s.opnd w ls o.b o.ty.words l))
        && (s.predMask w o.c).getLsbD l)) s

def boolOp (k : BoolOp) (a b : Mask) : Mask := match k with | .and => a &&& b | .or => a ||| b | .xor => a ^^^ b
/-- PBOOL (R237). -/
def execPbool (o : Pbool) (s : State) : Host.Outcome State Fault Refusal :=
  next (issueV (.pbool o) o.hd fun w ls => .get fun s =>
    let r := boolOp o.op2 (boolOp o.op1 (s.predMask w o.a) (s.predMask w o.b)) (s.predMask w o.c)
    predRes w o.d ls (ls.filter fun l => r.getLsbD l)) s

/-- SEL (R239). -/
def execSel (o : Sel) (s : State) : Host.Outcome State Fault Refusal :=
  next (vectorOp (.sel o) o.hd o.d o.ty.words fun s w ls l =>
    if (s.predMask w o.q).getLsbD l then s.opnd w ls o.a o.ty.words l else s.srcB w ls o.b o.ty.words o.ty.signed l) s
/-- MOV (R240). -/
def execMov (o : Mov) (s : State) : Host.Outcome State Fault Refusal :=
  next (vectorOp (.mov o) o.hd o.d o.ty.words fun s w ls l =>
    match o.src with
    | .v r => s.opnd w ls r o.ty.words l
    | .s r => (s.sreg w r.val).toNat % 2 ^ o.ty.bits) s
/-- MOVI (R240). -/
def execMovi (o : Movi) (s : State) : Host.Outcome State Fault Refusal :=
  next (vectorOp (.movi o) o.hd o.d o.v.words fun _ _ _ _ => (moveImm o.v).toNat % 2 ^ (32 * o.v.words)) s

/-- B of LEA (R241): sign- or zero-extended from 32 bits, or 64 bits; a .b64 immediate is sign-extended. -/
def leaIndex (s : State) (w : Nat) (ls : List Nat) (o : Lea) (l : Nat) : Int :=
  if o.ty = .b64 then ((s.srcB w ls o.b 2 true l : Nat) : Int) else rdInt o.ty (s.srcB w ls o.b 1 false l)
def execLea (o : Lea) (s : State) : Host.Outcome State Fault Refusal :=
  next (vectorOp (.lea o) o.hd o.d 2 fun s w ls l =>
    wrInt 64 (((s.opnd w ls o.a 2 l : Nat) : Int) + leaIndex s w ls o l * ((2 ^ o.sh.val : Nat) : Int))) s

end Sys2Proof.Machine
end

