-- ==== Sys2Proof/Machine/Convert.lean ====
section
/-!
DEFINITION. Conversions among formats, integers and narrow codes (R256, R257, R259 to R261).
-/
namespace Sys2Proof.Machine

def execF2f (o : F2f) (s : State) : Host.Outcome State Fault Refusal :=
  next (floatOp (.f2f o) o.hd o.d o.dt.words fun s w ls l => fConv o.dt o.st o.rm (s.fpcr w) (s.opndF w ls o.a o.st l)) s
def execF2i (o : FIcvt) (s : State) : Host.Outcome State Fault Refusal :=
  next (floatOp (.f2i o) o.hd o.d o.it.words fun s w ls l =>
    let r := fToInt o.ft o.it o.rm (s.fpcr w) (s.opndF w ls o.a o.ft l)
    (wrInt (32 * o.it.words) r.1, r.2)) s
def execI2f (o : FIcvt) (s : State) : Host.Outcome State Fault Refusal :=
  next (floatOp (.i2f o) o.hd o.d o.ft.words fun s w ls l =>
    intToF o.ft o.rm (s.fpcr w) (rdInt o.it (s.opnd w ls o.a o.it.words l))) s

/-! ### CVTN and CVTW -/

/-- The code of a V operand (R188). -/
def vopReg : VOp → Nat | .v n => n.val | .q n => 384 + n.val

/-- Bit position of element e's code in the code register (R259). -/
def codeAt (nt : NT) (hi : Bool) (e : Nat) : Nat := ntBits nt * e + (if hi then 16 else 0)

/-- Blocks of eight lanes that have a lane with effect, as their present lanes (R259). -/
def cvtBlocks (ls : List Nat) : List (List Nat) :=
  ((List.range (Config.W / 8)).map fun b => ls.filter fun l => l / 8 == b).filter fun p => !p.isEmpty

/-- The scale of a block as given: the immediate, or bits 7:0 of the register in the lowest present lane (R260, R261). -/
def scaleGiven (s : State) (w : Nat) (ls : List Nat) (sc : ScaleSrc) (p : List Nat) : Nat :=
  match sc with
  | .imm c => c.toNat
  | .v r => s.opnd w ls r 1 (p.head?.getD 0) % 256

/-- What CVTN does in one lane: code bits, flags, and whether an element is NaN or infinity. -/
def isSpecial : FVal → Bool | .fin _ _ _ => false | _ => true

/-- CVTN of one block (R80, R81, R260): for each present lane the codes, the flags, and the new scale register. -/
def cvtnBlock (s : State) (w : Nat) (o : Cvt) (p : List Nat) : List (Nat × Nat × Fl × Option Nat) :=
  let fz := fFlush (s.fpcr w) .f32
  let elem (l e : Nat) : Nat × Fl := fRead .f32 fz (s.vreg w (vopReg o.a + e) l).toNat
  let val (l e : Nat) : FVal := fVal .f32 (elem l e).1
  let idx := [0, 1, 2, 3]
  let poisoned := p.any fun l => idx.any fun e => isSpecial (val l e)
  let amax : Option Int := (p.flatMap fun l => idx.map fun e => val l e).foldl (fun a v => match v with
    | .fin _ m e => if m = 0 then a else
        let k : Int := (Nat.log2 m : Nat) + e
        match a with | some j => some (max j k) | none => some k
    | _ => a) none
  let c := if o.cs then autoScale o.nt amax else scaleGiven s w p o.sc p
  p.map fun l =>
    let one (e : Nat) : Nat × Fl :=
      if poisoned then (0, flIf (isSpecial (val l e)) flIV ||| (elem l e).2)
      else if c = 255 then (0, 0)
      else match val l e with
        | .fin n m x => let r := narrow o.nt n m (x - ((c : Int) - 127)); (r.1, r.2 ||| (elem l e).2)
        | _ => (0, 0)
    let code := idx.foldl (fun a e => a + (one e).1 * 2 ^ codeAt o.nt o.hi e) 0
    let fl : Fl := idx.foldl (fun a e => a ||| (one e).2) 0
    let old := (s.vreg w (vopReg o.d) l).toNat
    let new := if o.hi then code + old % 65536 else code
    let sc : Option Nat := match o.sc with
      | .imm _ => none
      | .v r => if o.cs then some (if poisoned then 255 else c)
                else if poisoned then
                  some ((if vopReg r = vopReg o.d then new else (s.vreg w (vopReg r) l).toNat) / 256 * 256 + 255) else none
    (l, new, fl, sc)

def execCvtn (o : Cvt) (s : State) : Host.Outcome State Fault Refusal :=
  next (issueV (.cvtn o) o.hd fun w ls => .get fun s =>
    let rs := (cvtBlocks ls).flatMap (cvtnBlock s w o)
    finishFp w (rs.map fun r => (r.1, r.2.2.1))
      (.bind (putRes w o.d 1 (rs.map fun r => (r.1, r.2.1))) fun r => match r, o.sc with
        | .ok, .v n => putRes w n 1 (rs.filterMap fun r => r.2.2.2.map fun c => (r.1, c))
        | r, _ => .ret r)) s

/-- CVTW of one lane (R82, R261): four FP32 words and the flags. -/
def cvtwLane (s : State) (w : Nat) (ls : List Nat) (o : Cvt) (c l : Nat) : Nat × Fl :=
  let word := s.opnd w ls o.a 1 l
  let fz := fFlush (s.fpcr w) .f32
  let one (e : Nat) : Nat × Fl := widen o.nt .f32 fz (word / 2 ^ codeAt o.nt o.hi e % 2 ^ ntBits o.nt) c
  ([0, 1, 2, 3].foldl (fun a e => a + (one e).1 * 2 ^ (32 * e)) 0, [0, 1, 2, 3].foldl (fun a e => a ||| (one e).2) 0)

def execCvtw (o : Cvt) (s : State) : Host.Outcome State Fault Refusal :=
  next (issueV (.cvtw o) o.hd fun w ls => .get fun s =>
    let rs := (cvtBlocks ls).flatMap fun p => p.map fun l => (l, cvtwLane s w ls o (scaleGiven s w ls o.sc p) l)
    finishFp w (rs.map fun r => (r.1, r.2.2)) (putRes w o.d 4 (rs.map fun r => (r.1, r.2.1)))) s

end Sys2Proof.Machine
end

