-- ==== Sys2Proof/Machine/Access.lean ====
section
/-!
DEFINITION. Memory accesses of a warp: the lanes' addresses and causes (R270, R273, R274), the line as the warp sees it
(R99, R153), stores and their line events (R124, R130, R276), atomics (R279 to R282), and the writes of a checked gang
(R164, R173, R177).
-/
namespace Sys2Proof.Machine

/-! ### Atomic operations (R279, R280) -/

/-- Access size and register width of an atomic. -/
def atomBytes : AtomOp → Nat
  | .i _ t => t.bytes
  | .fadd ft => if ft = .f64 then 8 else 4
def atomWidth : AtomOp → Nat
  | .i _ t => t.words
  | .fadd ft => if ft = .f64 then 2 else 1

/-- old ≤ b as the type compares. -/
def leT (ty : IT) (a b : Nat) : Bool := if ty.signed then decide (signed ty.bits a ≤ signed ty.bits b) else decide (a ≤ b)

/-- Round(old + B) to nearest even, with the default NaN (R280). -/
def atomFadd (ft : FT) (a b : Nat) : Nat :=
  let r := (fAdd ft .rne 0 a b).1
  if isNan (fVal ft r) then fDefNan ft else r

/-- The new value at the address; none writes nothing (R279). -/
def atomNew (op : AtomOp) (old b c : Nat) : Option Nat :=
  match op with
  | .i k ty => match k with
    | .add => some ((old + b) % 2 ^ ty.bits)
    | .min => some (if leT ty old b then old else b)
    | .max => some (if leT ty old b then b else old)
    | .and => some (old &&& b)
    | .or => some (old ||| b)
    | .xor => some (old ^^^ b)
    | .exch => some b
    | .cas => if old = c then some b else none
    | .inc => some (if b ≤ old then 0 else old + 1)
  | .fadd .bf16 => some (atomFadd .bf16 (old % 65536) (b % 65536) + 65536 * atomFadd .bf16 (old / 65536) (b / 65536))
  | .fadd ft => some (atomFadd ft old b)

/-- Atomics a PCIe host port takes (R281). -/
def atomHostOk : AtomOp → Bool
  | .i .add ty | .i .exch ty => decide (ty.bytes ≤ 8)
  | .i .cas _ => true
  | _ => false

/-! ### Lines -/

/-- A line's bytes; none where they cannot be read. -/
abbrev Line := List (Option Byte)

/-- The generic address of the line of an address, with this device's own identifier written as node 0x1FFF (R93). -/
def lineAddr (s : State) (a : DWord) : DWord :=
  let b := a.toNat / 128 * 128
  BitVec.ofNat 64 (if field a 51 13 = s.dev.node then 0x1FFF * 2 ^ 51 + b % 2 ^ 51 else b)

/-- n bytes of a line from an offset; none when one cannot be read. -/
def lineBytes (l : Line) (o n : Nat) : Option (List Byte) :=
  ((l.drop o).take n).foldr (fun x r => match x, r with | some b, some t => some (b :: t) | _, _ => none) (some [])

def linePut (l : Line) (d : Tab Byte) : Line :=
  l.zipIdx.map fun e => match d.find? fun x => x.1 == e.2 with | some x => some x.2 | none => e.1

/-- The bytes of a value at an offset. -/
def bytesAt (o n v : Nat) : Tab Byte := (leBytes n v).zipIdx.map fun e => (o + e.2, e.1)

/-- A RED of one lane on a line (R282). -/
def lineRed (l : Line) (e : DWord × AtomOp × BitVec 128) : Line :=
  let o := e.1.toNat % 128
  match lineBytes l o (atomBytes e.2.1) with
  | none => l
  | some v => match atomNew e.2.1 (leNat v) (e.2.2.toNat % 2 ^ (8 * (atomBytes e.2.1))) 0 with
    | none => l
    | some x => linePut l (bytesAt o (atomBytes e.2.1) x)

/-- A pending version's effect on the line at `line` (R153, R173). -/
def lineHeld (line : DWord) (l : Line) (h : Held) : Line :=
  match h.kind with
  | .bytes a d _ => if a = line then linePut l d else l
  | .red a ops => if a = line then ops.foldl lineRed l else l
  | .disc p bits => if p.toNat / 2 ^ bits = line.toNat / 2 ^ bits then l.map fun _ => some 0 else l
  | .tile ver data =>
    let l := data.foldl (fun l d => if d.1 = line then linePut l d.2 else l) l
    if ver.toNat / 128 = line.toNat / 128 then lineRed l (ver, .i .add .b64, 2) else l

/-- The pending versions a warp reads (R153, R164), in the order they are applied. -/
def State.pending (s : State) (w : Nat) : List Held :=
  let g := s.gang (s.gangOfWarp w)
  if !g.checked then []
  else if s.isPrimary w then g.holds
  else g.priv.filter fun h => h.run == runOfWarp w

/-- The line as it stands at its home, and the bytes of a host port (R134, R157). -/
def lineHome (s : State) (a : DWord) (loc : Loc) : Line :=
  match loc with
  | .mem x => (match lineRead s x with | .ok b => b.map some | .error _ => List.replicate 128 none)
  | .host key => (physBytes s (key - a.toNat % 128) 128).map some
  | _ => List.replicate 128 none

/-- The line as the warp sees it at its home: pending versions over the home's bytes. -/
def lineSeen (s : State) (w : Nat) (a : DWord) (loc : Loc) : Line :=
  (s.pending w).foldl (lineHeld (lineAddr s a)) (lineHome s a loc)

/-- Free bytes: a line of another device (log entry 7). -/
def freeLine : Prog Line :=
  .bind (mapAll (List.range 16) fun _ => freeVal) fun ws => .ret ((ws.flatMap fun w => leBytes 8 w.toNat).map some)

/-- Identity of the L1 copy of a line on a core, and of its replica on a die. -/
def l1Key (core lid : Nat) : Nat := core * 2 ^ 80 + lid
def repKey (die lid : Nat) : Nat := die * 2 ^ 80 + lid

/-- Key of a byte of a line in `View.seen`. -/
def seenKey (lid o : Nat) : Nat := lid * 128 + o

/-- A copy of a line may answer a weak read of some of its bytes by a warp (R135, R143): no write of one of them made since it
was filled is the warp's own, happens before the read, or was seen by a read that happens before it. -/
def copyOk (s : State) (w lid : Nat) (os : List Nat) (c : L1Line) : Bool :=
  let v := (s.warp w).ctl.view
  c.newer.all fun n =>
    let both := os.filter fun o => n.offs.contains o
    both.isEmpty || (n.agent != w && !v.knows n.agent n.turn && both.all fun o => decide (v.seen.get 0 (seenKey lid o) < n.now))

/-- A copy answers as the home does: nothing wrote the line since the copy was filled, the home can read it, and the access
counts nowhere (R414). -/
def asHome (s : State) (fromDie : Nat) (x : Xl) (c : L1Line) : Bool :=
  c.newer.isEmpty && (field (s.die x.die).trcfg 40 16 == 0 || (fromDie == x.die && field x.w0 53 3 == 0))
    && (match lineRead s x with | .ok b => b == c.data | .error _ => false)

/-- The copies of a line that may answer a weak read of some of its bytes (R99, R143): the L1 line of the warp's core, unless it
was filled before the warp's last acquire at .gg or wider, and the replica of its die; not those that answer as the home
would. -/
def copiesFor (s : State) (w : Nat) (x : Xl) (os : List Nat) : List L1Line :=
  let core := s.coreOfWarp w
  let l1 := (s.l1.find? fun e => e.1 == l1Key core x.lid).filter fun e => decide ((s.warp w).ctl.acq ≤ e.2.filled)
  let rep := s.reps.find? fun e => e.1 == repKey (core / 16) x.lid
  ((l1.toList ++ rep.toList).map (·.2)).filter fun c => copyOk s w x.lid os c && !asHome s (core / 16) x c

/-- The warp has read bytes of a line as they stood at a turn: it reads nothing older of them later (R135). Nothing need be kept
where no copy of the line stands. -/
def noteSeen (w lid : Nat) (os : List Nat) (turn : Nat) : Prog Unit :=
  .get fun s => whenP ((s.l1.any fun e => copyLine e.1 == lid) || (s.reps.any fun e => copyLine e.1 == lid))
    (upd (.ctl w fun c => { c with view := { c.view with
      seen := Tab.maxWith c.view.seen (os.map fun o => (seenKey lid o, turn)) } }))

/-- A line has an active subscription: it has no replica (R100). -/
def subscribed (s : State) (lid : Nat) : Bool := s.subs.any fun e => e.2.live && e.2.line == lid

/-- An access of a warp at the home of a line: it counts (R414), and old replicas are gone (R100). -/
def atHome (w : Nat) (x : Xl) : Prog Unit :=
  .bind (dropOldReps x.lid) fun _ => .get fun s => touch (s.worldOfWarp w) (s.coreOfWarp w / 16) x

/-- Read a line at its home for a warp. A weak read may fill the core's L1, except under .nc (R277), and a replica of a line of
another die; a strong one passes by (R99, R100). -/
def homeRead (w : Nat) (x : Xl) (fill nc : Bool) : Prog Line :=
  letI := progMonad
  do
    atHome w x
    let s ← st
    let core := s.coreOfWarp w
    match lineRead s x with
    | .ok b => do
      let copy : L1Line := { data := b, filled := s.seqNo }
      whenP (fill && !nc) (upd (.l1 fun t => Tab.put t (l1Key core x.lid) copy))
      whenP (fill && core / 16 != x.die && !subscribed s x.lid) (upd (.reps fun t => Tab.put t (repKey (core / 16) x.lid) copy))
      pure (b.map some)
    | .error _ => do
      lineFailed x
      pure (List.replicate 128 none)

/-- Offsets of the n bytes from one on, in a line. -/
def offsFrom (o n : Nat) : List Nat := (List.range n).map fun i => o + i

/-- Read a line for each piece of a warp's access to it, given by the offsets read (R130, R136): a weak piece may be answered by
a copy or by the home, each by a free value; all that the home answers are one read there, which replaces the copies or, by
a free value, does not. A read of another device is answered by free values (log entry 7). -/
def readPieces (w : Nat) (a : DWord) (loc : Loc) (weak nc : Bool) (ps : List (List Nat)) : Prog (List Line) :=
  letI := progMonad
  do
    let s ← st
    let over_ (l : Line) : Line := (s.pending w).foldl (lineHeld (lineAddr s a)) l
    match loc with
    | .mem x => do
      let cs := ps.map fun os => (os, if weak then copiesFor s w x os else [])
      if cs.all fun c => c.2.isEmpty then do
        let l ← homeRead w x weak nc
        noteSeen w x.lid ps.flatten s.seqNo
        pure (ps.map fun _ => over_ l)
      else do
        let picks ← mapAll cs fun c => (if c.2.isEmpty then pure (c.1, none) else do
          let f ← freeVal
          pure (c.1, if f.toNat % (c.2.length + 1) = 0 then none else c.2[f.toNat % (c.2.length + 1) - 1]?))
        let home ← (if picks.any fun p => p.2.isNone then do
            let f ← freeVal
            homeRead w x (weak && bitAt f 0) nc
          else pure [])
        forAll picks fun p => noteSeen w x.lid p.1 (match p.2 with | some c => c.filled | none => s.seqNo)
        pure (picks.map fun p => over_ (match p.2 with | some c => c.data.map some | none => home))
    | .remote => mapAll ps fun _ => do
      let l ← freeLine
      pure (over_ l)
    | _ => pure (ps.map fun _ => lineSeen s w a loc)

/-- Read a line for a warp, as one access to some of its bytes. -/
def readLine (w : Nat) (a : DWord) (loc : Loc) (weak nc : Bool) (os : List Nat) : Prog Line :=
  .bind (readPieces w a loc weak nc [os]) fun l => .ret (l.headD (List.replicate 128 none))

/-! ### The lanes of an access -/

/-- A lane's access, checked through row 9 of R273. -/
structure Acc where
  lane : Nat
  addr : DWord
  loc : Loc
  deriving DecidableEq, Repr

/-- Rows 1 to 9 of R273 for the lanes. -/
def locateLanes (w : Nat) (ls : List Nat) (addr : Nat → DWord) (n : Nat) (need : Need) : Prog (List Acc × List Bad) :=
  letI := progMonad
  do
    let s ← st
    let rs ← mapAll ls fun l => do
      let r ← locate (s.whoWarp w) (addr l) n need
      pure (l, r)
    pure (rs.filterMap fun e => (match e.2 with | .ok x => some ⟨e.1, addr e.1, x⟩ | .error _ => none),
          rs.filterMap fun e => (match e.2 with | .ok _ => none | .error (c, a) => some (e.1, c, a)))

/-- A scratchpad line is absent (R98). -/
def absent (s : State) (blk line : Nat) : Bool := (s.block blk).unset.get 0 line != 0

/-- What an access waits for: an absent line, a ring slot being filled (R96, R98), or a path (R427). -/
def accWait (s : State) (as : List Acc) : Option Wait :=
  as.findSome? fun a => match a.loc with
    | .spad b o => if absent s b (o / 128) then some (.line b (o / 128) a.addr) else none
    | .ring core o =>
      if (s.ring core).holder = some (blockOfWarp s.cur) ∧ ((s.ring core).slots.get {} (o / 0x4000)).st = .filling
      then some (.ringFill (o / 0x4000)) else none
    | .mem x => if unreachable s (s.coreOfWarp s.cur) x.die then some (.route (s.coreOfWarp s.cur) x.die a.addr) else none
    | _ => none

/-- A window address (R94). -/
def inWindow (a : DWord) : Bool := field a 51 13 == 0x1FFE

/-- The accesses outside the windows, by line, in order of first lane: one event at the home each (R124). -/
def byLine (s : State) (as : List Acc) : List (DWord × List Acc) :=
  let out := as.filter fun a => !inWindow a.addr
  (out.map fun a => lineAddr s a.addr).eraseDups.map fun l => (l, out.filter fun a => lineAddr s a.addr == l)

/-- The fault of an access of R274: FLANES the faulting lanes when the other lanes are performed, else every active lane:
m0's, as the warp had them left to run (log entry 64); part when a lane with effect was performed, now or before a retry
(R60); the lowest code, and FADDR of the lowest lane that has it (R61). -/
def accFault (s : State) (w : Nat) (h : Hd) (allOrNone : Bool) (bad : List Bad) : FaultInfo :=
  let act := s.m0 w &&& s.predMask w h.pr
  let m := worstBad bad
  let fl := if allOrNone then s.m0 w &&& ((s.warp w).ctl.retry.getD (~~~0)) else maskOf (bad.map fun e => e.1)
  { cause := m.2.1, faddr := m.2.2, lanes := some fl, part := act &&& ~~~fl != 0, mem := true }

/-- A scope wider than .gg in which some lane with effect is performed; the named one when there is none (R95). -/
def wideLanes (sc : Scope) (ls : List Nat) (addr : Nat → DWord) : Bool :=
  scopeWide sc && (ls.isEmpty || ls.any fun l => !inWindow (addr l))

/-- The address of a lane (R270). -/
def memAddrOf (s : State) (w : Nat) (m : MemAddr) (l : Nat) : DWord :=
  match m with
  | .vr a b sh => s.vpair w a.val l + ((s.vreg w b.val l).signExtend 64 <<< sh.val)
  | .vs r a sh => s.sreg w r.val + ((s.vreg w a.val l).signExtend 64 <<< sh.val)
  | .vi a imm => s.vpair w a.val l + imm.signExtend 64

/-- A load's value in its registers (R272). -/
def loadVal (ty : IT) (v : Nat) : Nat :=
  if ty.signed ∧ ty.bytes ≤ 2 then (BitVec.ofInt 32 (signed ty.bits v)).toNat else v

/-! ### Reading -/

def spadBytes (b : Block) (o n : Nat) : List Byte := (List.range n).map fun i => b.spad.get 0 (o + i)

/-- A byte of a result-ring slot as the window shows it (R96). -/
def slotByte (t : RSlot) (k : Nat) : Byte :=
  if t.st ≠ .full then 0
  else if t.mf = .f64 then
    (if k < 8192 then BitVec.ofNat 8 (field (t.acc.get 0 (k / 8 / 32 * 64 + k / 8 % 32)) (8 * (k % 8)) 8) else 0)
  else BitVec.ofNat 8 (field (t.acc.get 0 (k / 4)) (8 * (k % 4)) 8)

def ringBytes (s : State) (core blk o n : Nat) : List Byte :=
  (List.range n).map fun i =>
    if (s.ring core).holder = some blk then slotByte ((s.ring core).slots.get {} ((o + i) / 0x4000)) ((o + i) % 0x4000) else 0

/-- How lanes are read: weak, or strong at a scope; under .nc; and which lanes, by the value they read, acquire. -/
structure RdKind where
  sc : Option Scope := none
  nc : Bool := false
  acq : Nat → Nat → Bool := fun _ _ => false

/-- The strong writes that n bytes of a lane's access read, where they are known: those of the gang's pending versions, over
those performed (R138, R153). -/
def accMsgs (s : State) (w n : Nat) (a : Acc) : List Msg :=
  match a.loc with
  | .spad b o => msgsAt (s.block b).strongs o n
  | .mem x =>
    let line := lineAddr s a.addr
    let t := (s.pending w).foldl (fun (t : Tab ByteMsg) h =>
      let wr : Writer := { core := 0, agent := 0, warp := 0, clock := [], turn := 0, msg := h.msg }
      match h.kind with
      | .bytes l d _ => if l = line then recordWrite t wr h.rmw d else t
      | .red l ops => if l = line then ops.foldl (fun t e => recordWrite t wr true (bytesAt (e.1.toNat % 128) (atomBytes e.2.1) 0)) t else t
      | _ => t) (s.msgs.get [] x.lid)
    msgsAt t (a.addr.toNat % 128) n
  | .host key => msgsAt (s.msgs.get [] (2 ^ 100 + key / 128)) (key % 128) n
  | _ => []

/-- What a lane's read of a scratchpad finds present (R98, R133, R151): the release of the presence bit at .bk, and of the
push that filled a standing-load entry, at the subscription's scope. -/
def findPresent (w blk off n : Nat) : Prog Unit :=
  letI := progMonad
  do
    let s ← st
    let b := s.block blk
    forAll (List.range ((off + n - 1) / 128 + 1 - off / 128)) fun i => do
      let line := off / 128 + i
      joinView w (b.lineView.get {} line)
      match b.entMsgs.find? fun e => e.1 == line with
      | none => pure ()
      | some e => do
        let m := e.2
        noteSeen w m.line (offsFrom m.pos m.size) m.msg.turn
        let rels := m.msg.rels.filter fun r => r.warp == w || (r.insts.all (·.has s w) && (instOf s m.sc w).has s r.warp)
        joinView w (rels.foldl (fun v r => v.join r.view) {})
        acquire w m.sc

/-- Read n bytes for each lane: the values, and the lanes whose line cannot be read (row 10 of R273). Each lane, and each
half of a weak 16-byte one, reads by itself (R130, R136). -/
def readLanes (w n : Nat) (k : RdKind) (as : List Acc) : Prog (List (Nat × Nat) × List Bad) :=
  letI := progMonad
  do
    let s ← st
    let weak := k.sc.isNone
    let p := if weak && n == 16 then 2 else 1
    let lines ← mapAll (byLine s as) fun g => (match g.2 with
      | a :: _ => do
        let half (a : Acc) (i : Nat) : List Nat := offsFrom (a.addr.toNat % 128 + i * (n / p)) (n / p)
        let l ← readPieces w a.addr a.loc weak k.nc (g.2.flatMap fun a => (List.range p).map (half a))
        pure (g.2.zipIdx.map fun e => (e.1.lane, (l.drop (p * e.2)).take p))
      | [] => pure [])
    let tab := lines.flatten
    let get (a : Acc) : Option (List Byte) := match a.loc with
      | .spad b o => some (spadBytes (s.block b) o n)
      | .ring c o => some (ringBytes s c (blockOfWarp w) o n)
      | _ => match tab.find? fun e => e.1 == a.lane with
        | some e => (e.2.zipIdx.map fun l => lineBytes l.1 (a.addr.toNat % 128 + l.2 * (n / p)) (n / p)).foldr
            (fun x r => match x, r with | some b, some t => some (b ++ t) | _, _ => none) (some [])
        | none => none
    let vals := as.filterMap fun a => (get a).map fun b => (a, leNat b)
    forAll vals fun v => do
      match v.1.loc with
      | .spad b o => findPresent w b o n
      | _ => pure ()
      match k.sc with
      | some sc => strongRead w (capScope (inWindow v.1.addr) sc) (k.acq v.1.lane v.2) (accMsgs s w n v.1)
      | none => pure ()
    pure (vals.map fun v => (v.1.lane, v.2),
          as.filterMap fun a => if (get a).isNone then some (a.lane, .integrity, lineAddr s a.addr) else none)

/-! ### Held writes -/

/-- Insert a held write in hold order. -/
def insertHeld (h : Held) : List Held → List Held
  | [] => [h]
  | e :: t => if h.hold < e.hold then h :: e :: t else e :: insertHeld h t

/-- A warp segment of the gang is decided and none of its writes is held any more (R174). -/
def Gang.poured (g : Gang) (warp seg : Nat) : Bool :=
  (g.verdicts.any fun v => v.1 == warp && v.2.1 == seg) && !(g.holds.any fun h => h.warp == warp && h.seg == seg)

/-- Hold a write of a warp of a checked gang: in the Ladle for the primary, privately for a copy, whether or
not the segment has poured, as an arbiter's may have (R164, R173; log entry 73). -/
def putHeld (wr : Writer) (rmw : Bool) (w seg hold : Nat) (k : HeldKind) : Prog Unit :=
  .get fun s =>
    let h : Held := { hold, run := runOfWarp w, warp := gangWarp w, seg, asid := s.asidOfWarp w, kind := k,
                      agent := wr.agent, turn := wr.turn, clock := wr.clock, msg := wr.msg, rmw }
    upd (.gang (s.gangOfWarp w) fun g =>
      if s.isPrimary w then { g with holds := insertHeld h g.holds } else { g with priv := g.priv ++ [h] })

/-- Hold a write at its issue, under the gang's next hold number. -/
def holdNow (wr : Writer) (rmw : Bool) (w : Nat) (k : HeldKind) : Prog Unit :=
  .get fun s => .bind (newHold w) fun h => putHeld wr rmw w (s.warp w).ctl.seg h k

/-- The addresses that a held write writes: a version for each (R173). -/
def Held.places (h : Held) : List DWord :=
  match h.kind with
  | .bytes a _ _ | .red a _ | .disc a _ => [a]
  | .tile v d => v :: d.map Prod.fst

/-- Where the Ladle versions of a world's gangs lie: die and line on the die. -/
def ladleLines (s : State) : List (Nat × Nat) :=
  s.gangs.flatMap fun g => g.2.holds.flatMap fun h => h.places.filterMap fun a => (ownAddr s a).map fun p => (p.1, p.2 / 128)

/-- The L2 set that holds a line (R2, R100). -/
def homeSet (line : Nat) : Nat := Config.homeSet line % 32768

/-- Ladle versions per set (R429). -/
def ladleWays (s : State) (d : Nat) : Nat := let n := field (s.die d).ladlecfg 8 4; if n = 0 ∨ 8 < n then 4 else n

/-- What the held writes of an instruction find: a stall, or lines that pour early. -/
inductive Room where
  | stall
  | go (early : List DWord)
  deriving DecidableEq, Repr

/-- A line pours early, under RELEASE. -/
def Room.early (r : Room) (line : DWord) : Bool := match r with | .stall => false | .go l => l.contains line

/-- A version more of a line finds its set with as many as it has ways, beside others (R429). -/
def setFull (s : State) (d line : Nat) (others : List (Nat × Nat)) : Bool :=
  let mine := others.filter fun p => p.1 == d
  decide (ladleWays s d ≤ mine.length) && decide (ladleWays s d ≤ (mine.filter fun p => homeSet p.2 == homeSet line).length)

/-- Held writes to some lines of some dies, one after the other, each find a Ladle way, or not (R177, R429). -/
def ladleRoom (s : State) (w : Nat) (lines : List (DWord × Nat)) : Room :=
  if !s.checkedWarp w || !s.isPrimary w then .go []
  else
    let r := lines.foldl (fun (acc : List (Nat × Nat) × List DWord) l =>
      let n := field l.1 0 45 / 128
      if setFull s l.2 n acc.1 then (acc.1, l.1 :: acc.2) else ((l.2, n) :: acc.1, acc.2)) (ladleLines s, [])
    if !r.2.isEmpty && !bitAt (s.world (s.worldOfWarp w)).cfg 58 then .stall else .go r.2

/-- The lines of some accesses in the memory of dies, with the die. -/
def memLines (s : State) (as : List Acc) : List (DWord × Nat) :=
  (as.filterMap fun a => match a.loc with | .mem x => some (lineAddr s a.addr, x.die) | _ => none).eraseDups

/-- Held writes of a gang with a hold number below a bound, the reserved ones of engines included. -/
def heldBelow (s : State) (g bound : Nat) : Bool :=
  ((s.gang g).holds.any fun h => decide (h.hold < bound))
    || (s.ops.any fun o => o.2.hold != 0 && decide (o.2.hold < bound) && s.gangOfWarp o.2.warp == g && !o.2.finished)
    || (s.blocks.any fun b => (s.runOf b.2.run).gang == g
          && b.2.streams.any fun t => t.2.pend.any fun p => p.hold != 0 && decide (p.hold < bound))

/-- Before an ATOM.rel, ATOM.ar or GRID wider than .gg a checked primary waits for its gang's held writes (R176): the hold
number it waits for, while it waits. -/
def pourWait (w : Nat) : Prog (Option Wait) :=
  letI := progMonad
  do
    let s ← st
    let g := s.gangOfWarp w
    if !s.checkedWarp w || !s.isPrimary w then pure none
    else do
      let c := (s.warp w).ctl
      let bound := if c.poured ≠ 0 then c.poured else (s.gang g).nextHold
      if heldBelow s g bound then do
        upd (.ctl w fun c => { c with poured := bound })
        pure (some (.pour bound))
      else pure none

/-! ### Writing -/

/-- This device advances its epoch: its key changes, and every port's numbers restart (R448, R449). -/
def advanceEpoch : Prog Unit := upd (.dev fun d => { d with ulbEpoch := d.ulbEpoch + 1, ulbNum := [] })

/-- The link key of a node in an epoch (R448): the epoch enters as 4 bytes. -/
def linkKey (secret : BitVec 256) (node epoch : Nat) : LinkKey := ⟨secret, node, BitVec.ofNat 32 epoch⟩

/-- Send a packet to another device (R448, R449): under this device's key, by a port that is up (R427), with its next number: its
name. None leaves while no domain secret is installed (log entry 56). -/
def sendUlb (dst : Nat) (body : UlbBody) : Prog (Option (Nat × Bool × Nat)) :=
  letI := progMonad
  do
    let f ← freeVal
    let s ← st
    let ports := (List.range 72).filter fun p => !s.dev.linksDown.contains (.port p)
    let port := ports.getD (f.toNat % ports.length) 0
    match (if ports.isEmpty then none else s.dev.secret) with
    | none => pure none
    | some secret => do
      whenP (decide (2 ^ 62 ≤ s.dev.ulbNum.get 0 port + 1)) advanceEpoch
      let s ← st
      let num := s.dev.ulbNum.get 0 port + 1
      let bit := s.dev.ulbEpoch % 2 == 1
      upd (.dev fun d => { d with ulbNum := d.ulbNum.put port num })
      send (.ulb port (linkKey secret s.dev.node s.dev.ulbEpoch) num dst body)
      pure (some (port, bit, num))

/-- Send a packet whose name nothing needs. -/
def sendUlbQuiet (dst : Nat) (body : UlbBody) : Prog Unit := .bind (sendUlb dst body) fun _ => .ret ()

/-- Send an access of a warp to another device: it is under way until that device acknowledges it (R158). -/
def sendFor (w dst : Nat) (body : UlbBody) : Prog Unit :=
  letI := progMonad
  do
    let r ← sendUlb dst body
    match r with
    | some p => upd (.ctl w fun c => { c with away := p :: c.away })
    | none => pure ()

/-- A release at .dm waits until every earlier access of its warp to another device has been performed there (R158). -/
def awaitRemote (s : State) (w : Nat) (sc : Scope) : Bool := decide (9 ≤ sc.code) && !(s.warp w).ctl.away.isEmpty

/-- Runs of consecutive offsets of written bytes, each with its first offset. -/
def byteRuns (d : Tab Byte) : List (Nat × List Byte) :=
  d.foldr (fun e r => match r with
    | (o, bs) :: t => if e.1 + 1 = o then (e.1, e.2 :: bs) :: t else (e.1, [e.2]) :: (o, bs) :: t
    | [] => [(e.1, [e.2])]) []

/-- Write bytes of a line as one event at its home, port or device (R124, R157, R158). `a` is the address `loc` came
from. -/
def writeLine (wr : Writer) (rmw : Bool) (w : Nat) (a : DWord) (loc : Loc) (data : Tab Byte) : Prog Unit :=
  letI := progMonad
  do
    let s ← st
    match loc with
    | .mem x => do
      touch (s.worldOfWarp w) (wr.core / 16) x
      lineWrite wr rmw x data
    | .host key => do
      let lid := 2 ^ 100 + key / 128
      let old := s.msgs.get [] lid
      let data ← raceBytes old wr data
      let msgs := recordWrite old wr rmw data
      whenP (msgs != old) (upd (.msgs lid msgs))
      forAll data fun d => do
        upd (.mem (key - a.toNat % 128 + d.1) d.2)
        upd (.tag (lineKey (key - a.toNat % 128 + d.1)) {})
    | .remote => forAll (byteRuns data) fun r =>
        (sendFor w (field a 51 13) (UlbBody.write (s.worldOfWarp w) (s.asidOfWarp w) (lineAddr s a + BitVec.ofNat 64 r.1) r.2
          (wr.msg.map fun m => (m.inst.sc, !m.rels.isEmpty))))
    | .spad _ _ => pure ()
    | .ring _ _ => pure ()

/-- Store bytes in a scratchpad; strong writes of different sizes may race (R137). -/
def spadWrite (wr : Writer) (rmw : Bool) (blk : Nat) (data : Tab Byte) : Prog Unit :=
  letI := progMonad
  do
    let s ← st
    let old := (s.block blk).strongs
    let d ← raceBytes old wr data
    forAll d fun e => upd (.spad blk e.1 e.2)
    let new := recordWrite old wr rmw data
    whenP (new != old) (upd (.block blk fun b => { b with strongs := new }))

/-- A write performed under RELEASE (R177, R180): each line that pours early counts. -/
def noteRelease (w : Nat) (a : DWord) : Prog Unit :=
  .get fun s =>
    .bind (upd (.grid (s.gridOfWarp w) fun g => { g with unchecked := true })) fun _ =>
    .bind (heatCount ((ownAddr s a).getD (0, 0)).1 12) fun _ => earlyAct w

/-- Write a line for a warp: performed, held in the Ladle, or kept privately (R164, R173, R177). -/
def storeLine (wr : Writer) (rmw : Bool) (w : Nat) (room : Room) (a : DWord) (loc : Loc) (data : Tab Byte) : Prog Unit :=
  .get fun s =>
    if !s.checkedWarp w then writeLine wr rmw w a loc data
    else if room.early (lineAddr s a) then
      .bind (noteRelease w a) fun _ => writeLine wr rmw w a loc data
    else holdNow wr rmw w (.bytes (lineAddr s a) data wr.size)

/-- The bytes n-byte stores of a group write, later lanes over earlier (R130). -/
def groupBytes (as : List Acc) (n : Nat) (val : Nat → Nat) : Tab Byte :=
  as.foldl (fun t a => (bytesAt (a.addr.toNat % 128) n (val a.lane)).foldl (fun t e => Tab.put t e.1 e.2) t) []

/-- Under MIXSIZE, a strong write of another size than the one recorded for its chunk (row 11 of R273, R137). -/
def mixedSize (s : State) (w : Nat) (a : DWord) (loc : Loc) (size : Nat) : Bool :=
  match loc with
  | .mem x =>
    let z := (s.l2.get {} x.lid).sizes.get 0 (a.toNat % 128 / 16)
    bitAt (s.world (s.worldOfWarp w)).cfg 60 && z != 0 && z != size && !lineLeft s x.lid
  | _ => false

/-- Rows 10 and 11 of R273 for the lanes of a write of n bytes: a partial write of an unreadable line, or a
read-modify-write of one, and a strong write of another size than recorded. An atomic performed at once acts on the line at
its home. -/
def writeBad (s : State) (w n strong : Nat) (rmw now : Bool) (g : DWord × List Acc) : List Bad :=
  match g.2 with
  | [] => []
  | a :: _ => match a.loc with
    | .mem x =>
      let covers (as : List Acc) : Bool := !rmw && !x.past && (groupBytes as n fun _ => 0).length == 128
      let unread := (if now then lineHome s a.addr a.loc else lineSeen s w a.addr a.loc).any Option.isNone
      let integ (as : List Acc) : List Bad := as.map fun a => (a.lane, Cause.integrity, g.1)
      if unread && !covers g.2 then integ g.2
      else if strong ≠ 0 then
        let mixed (a : Acc) : Bool := mixedSize s w a.addr a.loc strong
        let rest := g.2.filter fun a => !mixed a
        ((g.2.filter mixed).map fun a => (a.lane, Cause.mixsize, a.addr))
          ++ (if unread && !covers rest then integ rest else [])
      else []
    | _ => []

/-- Lanes without a cause. -/
def goodOf (as : List Acc) (bad : List Bad) : List Acc := as.filter fun a => !bad.any fun b => b.1 == a.lane

/-- Row 10 of R273 again for the lines that are performed early, under RELEASE: at their homes. The lanes left, and those with
a cause. -/
def earlyBad (s : State) (w n strong : Nat) (rmw : Bool) (room : Room) (good : List Acc) (bad : List Bad) : List Acc × List Bad :=
  let more := ((byLine s good).filter fun g => room.early g.1).flatMap (writeBad s w n strong rmw true)
  (goodOf good more, bad ++ more)

/-- The words a written lane folds (R166): address, data, byte mask. -/
def storeWords (n : Nat) (a : DWord) (v : Nat) : List DWord :=
  a :: List.append (foldWords (if n = 16 then 4 else 1) v) [BitVec.ofNat 64 (2 ^ n - 1)]

/-- Perform n-byte stores of lanes without causes: windows at once, at most at .gg (R95), other lines as events. -/
def storeLanes (w n : Nat) (sc : Option Scope) (rel : Bool) (room : Room) (as : List Acc) (val : Nat → Nat) : Prog Unit :=
  letI := progMonad
  do
    let s ← st
    let near := warpWriter s w n (sc.map (capScope true)) rel
    let far := warpWriter s w n sc rel
    forAll as fun a => (match a.loc with
      | .spad b o => spadWrite near false b (bytesAt o n (val a.lane))
      | _ => pure ())
    forAll (byLine s as) fun g => (match g.2 with
      | a :: _ => storeLine far false w room a.addr a.loc (groupBytes g.2 n val)
      | [] => pure ())

/-- A store by lanes (R276): weak when `sc` is none; `rel` is a release, which all lanes perform or none. -/
def storeOp (w : Nat) (h : Hd) (ls : List Nat) (addr : Nat → DWord) (val : Nat → Nat) (n : Nat) (sc : Option Scope)
    (rel : Bool) : Prog Res :=
  letI := progMonad
  do
    let (as, bad0) ← locateLanes w ls addr n { wr := true }
    let s ← st
    match accWait s as with
    | some k => pure (.wait k)
    | none =>
      let strong := if sc.isSome then n else 0
      let bad := bad0 ++ (byLine s as).flatMap (writeBad s w n strong false false)
      let good := goodOf as bad
      if rel && !bad.isEmpty then pure (.fault (accFault s w h true bad))
      else if rel && awaitRemote s w (sc.getD .ln) then pure (.wait .remote)
      else do
        let room := ladleRoom s w (memLines s good)
        let (good, bad) := earlyBad s w n strong false room good bad
        if room = .stall then pure (.wait .ladle)
        else if rel && !bad.isEmpty then pure (.fault (accFault s w h true bad))
        else do
          storeLanes w n sc rel room good val
          foldSig w (good.flatMap fun a => storeWords n a.addr (val a.lane))
          countLines w (byLine s good).length
          if bad.isEmpty then do
            whenP (rel && wideLanes (sc.getD .ln) ls addr) (segEnd w false)
            pure .ok
          else pure (.fault (accFault s w h false bad))

/-! ### Subscription regions and the feed log -/

/-- A window address lies in a subscription region of its block, active or ended (R169). -/
def inAnyRegion (s : State) (w : Nat) (a : DWord) (n : Nat) : Bool :=
  inWindow a && (match locWindow s (s.whoWarp w) a n {} with
    | .ok (.spad b o) => (s.block b).regions.any fun e => decide (o < e.1 + 128 * (e.2.depth + 1)) && decide (e.1 < o + n)
    | _ => false)

/-- Run an access under the feed log when its results are logged (R169), else directly. -/
def logWhen (logged : Bool) (w bytes : Nat) (live : Prog (Except Res Got)) : Prog (Except Res Got) :=
  if logged then withLog w bytes live else live

/-- Payload of per-lane values (R170). -/
def laneBytes (k n : Nat) : Nat := k * (if n ≤ 4 then 4 else n)

/-- Read n bytes in each lane, with its causes, as an access whose results may be logged (R274). -/
def readOp (w : Nat) (h : Hd) (ls : List Nat) (addr : Nat → DWord) (n : Nat) (k : RdKind) (logged : Bool) : Prog (Except Res Got) :=
  letI := progMonad
  logWhen logged w (laneBytes ls.length n) do
    let (as, bad0) ← locateLanes w ls addr n { rd := true, ringOk := k.sc.isNone }
    let s ← st
    match accWait s as with
    | some k => pure (.error (.wait k))
    | none => do
      let (vals, bad1) ← readLanes w n k as
      let bad := bad0 ++ bad1
      if bad.isEmpty then pure (.ok (vals, none))
      else
        let f := accFault s w h false bad
        pure (if vals.isEmpty then .error (.fault f) else .ok (vals, some f))

/-- A load by lanes (R275): weak when `sc` is none; `acq` is an acquire. -/
def loadOp (w : Nat) (h : Hd) (ls : List Nat) (addr : Nat → DWord) (ty : IT) (d : VReg) (sc : Option Scope) (acq nc : Bool) :
    Prog Res :=
  letI := progMonad
  do
    let s ← st
    let wide := match sc with | some c => wideLanes c ls addr | none => false
    let logged := wide || ls.any fun l => inAnyRegion s w (addr l) ty.bytes
    let r ← readOp w h ls addr ty.bytes { sc, nc, acq := fun _ _ => acq } logged
    match r with
    | .error e => pure e
    | .ok (vals, f) => do
      writeV w d.val ty.words (vals.map fun v => (v.1, loadVal ty v.2))
      whenP acq (acquire w (sc.getD .ln))
      pure (match f with | some f => .fault f | none => .ok)

/-! ### Atomics -/

/-- The operand, compare value and address of a lane's atomic. -/
structure AtomArg where
  op : AtomOp
  b : Nat → Nat
  c : Nat → Nat

/-- Run the lanes of a group on a line, in the order given (R281): the old values, and the bytes written. -/
def atomLine (o : AtomArg) (as : List Acc) (l : Line) : List (Nat × Nat) × Tab Byte :=
  let r := as.foldl (fun (st : Line × List (Nat × Nat) × Tab Byte) a =>
    let off := a.addr.toNat % 128
    match lineBytes st.1 off (atomBytes o.op) with
    | none => st
    | some v =>
      let old := leNat v
      match atomNew o.op old (o.b a.lane) (o.c a.lane) with
      | none => (st.1, st.2.1 ++ [(a.lane, old)], st.2.2)
      | some x =>
        let d := bytesAt off (atomBytes o.op) x
        (linePut st.1 d, st.2.1 ++ [(a.lane, old)], d.foldl (fun t e => Tab.put t e.1 e.2) st.2.2)) (l, [], [])
  (r.2.1, r.2.2)

/-- Atomics of lanes in scratchpads, in the order given: the old values (R281, R282). -/
def atomSpad (w : Nat) (o : AtomArg) (ord : Ord) (sc : Scope) (as : List Acc) : Prog (List (Nat × Nat)) :=
  letI := progMonad
  do
    let rs ← mapAll as fun a => (match a.loc with
      | .spad b off => do
        let s ← st
        let near := capScope true sc
        let old := leNat (spadBytes (s.block b) off (atomBytes o.op))
        findPresent w b off (atomBytes o.op)
        strongRead w near (decide (ord = .acq ∨ ord = .ar)) (accMsgs s w (atomBytes o.op) a)
        let s ← st
        let wr := warpWriter s w (atomBytes o.op) (some near) (decide (ord = .rel ∨ ord = .ar))
        (match atomNew o.op old (o.b a.lane) (o.c a.lane) with
          | none => pure ()
          | some x => spadWrite wr true b (bytesAt off (atomBytes o.op) x))
        pure [(a.lane, old)]
      | _ => pure [])
    pure rs.flatten

/-- Atomics of lanes outside the windows, one event per line. `now` performs them at the home on the home's bytes (an
unchecked gang, an early action); otherwise they act on the gang's pending version and are held (R282). -/
def atomLines (w : Nat) (o : AtomArg) (ord : Ord) (sc : Scope) (now : Bool) (room : Room) (as : List Acc) :
    Prog (List (Nat × Nat)) :=
  letI := progMonad
  do
    let s ← st
    let rs ← mapAll (byLine s as) fun g => (match g.2 with
      | a :: _ => do
        let s ← st
        let held (l : Line) : Line := if now then l else (s.pending w).foldl (lineHeld g.1) l
        let base ← (match a.loc with
          | .remote => .bind freeLine fun l => .ret (held l)
          | l => pure (held (lineHome s a.addr l)))
        let r := atomLine o g.2 base
        forAll g.2 fun a => strongRead w sc (decide (ord = .acq ∨ ord = .ar)) (accMsgs s w (atomBytes o.op) a)
        (match a.loc with
          | .mem x => do
            noteSeen w x.lid (g.2.flatMap fun a => offsFrom (a.addr.toNat % 128) (atomBytes o.op)) s.seqNo
            whenP (r.2.isEmpty || !now) (atHome w x)
          | _ => pure ())
        let s ← st
        let wr := warpWriter s w (atomBytes o.op) (some sc) (decide (ord = .rel ∨ ord = .ar))
        (match a.loc, now with
          | .remote, true => forAll g.2 fun a => sendFor w (field a.addr 51 13) (UlbBody.atom (s.worldOfWarp w) (s.asidOfWarp w) a.addr
              o.op (BitVec.ofNat 128 (o.b a.lane)) (BitVec.ofNat 128 (o.c a.lane)) sc (match wr.msg with | some m => !m.rels.isEmpty | none => false))
          | _, _ => whenP (!r.2.isEmpty) (if now then writeLine wr true w a.addr a.loc r.2
                                          else storeLine wr true w room a.addr a.loc r.2))
        pure r.1
      | [] => pure [])
    pure rs.flatten

/-- The words an atomic lane folds (R166): a store's, the operation code, and the compare value of .cas. -/
def atomWords (o : AtomArg) (a : DWord) (l : Nat) : List DWord :=
  List.append (storeWords (atomBytes o.op) a (o.b l))
    (BitVec.ofNat 64 o.op.opc :: (match o.op with | .i .cas _ => foldWords (atomWidth o.op) (o.c l) | _ => []))

/-- Locate and check the lanes of an atomic: both permissions, and rows 10 and 11. -/
def atomCheck (w : Nat) (ls : List Nat) (addr : Nat → DWord) (op : AtomOp) (now : Bool) : Prog (Except Res (List Acc × List Bad)) :=
  letI := progMonad
  do
    let (as, bad0) ← locateLanes w ls addr (atomBytes op) { rd := true, wr := true, hostOk := atomHostOk op }
    let s ← st
    match accWait s as with
    | some k => pure (.error (.wait k))
    | none =>
      let bad := bad0 ++ (byLine s as).flatMap (writeBad s w (atomBytes op) (atomBytes op) true now)
      pure (.ok (goodOf as bad, bad))

/-- A list in an order that free values choose. -/
def shuffle {α : Type} : List α → Prog (List α)
  | [] => .ret []
  | a :: t => .bind (shuffle t) fun r => .bind freeVal fun f =>
      let i := f.toNat % (r.length + 1)
      .ret (r.take i ++ a :: r.drop i)

/-- The location of an atomic. -/
def Acc.place (a : Acc) : Nat × Nat :=
  match a.loc with
  | .spad b o | .ring b o => (b, o)
  | .mem x => (2 ^ 70, x.key)
  | .host k => (2 ^ 70, k)
  | .remote => (2 ^ 71, a.addr.toNat)

/-- Operations whose order among lanes no final value shows. -/
def commutes : AtomOp → Bool
  | .i .add _ | .i .min _ | .i .max _ | .i .and _ | .i .or _ | .i .xor _ => true
  | _ => false

/-- The order in which the device performs the lanes of an atomic (R130, R281): its choice where lanes name one location and
the order shows (log entry 13). -/
def atomOrder (op : AtomOp) (red : Bool) (as : List Acc) : Prog (List Acc) :=
  if decide ((as.map Acc.place).Nodup) || (red && commutes op) then .ret as else shuffle as

/-- Put lane results in lane order. -/
def sortLanes (l : List (Nat × Nat)) : List (Nat × Nat) := l.foldl (fun t e => Tab.put t e.1 e.2) []

/-- ATOM by lanes (R278 to R282). -/
def atomOp (w : Nat) (h : Hd) (ls : List Nat) (addr : Nat → DWord) (o : AtomArg) (d : VReg) (ord : Ord) (sc : Scope) :
    Prog Res :=
  letI := progMonad
  do
    let wide := wideLanes sc ls addr
    let rel := decide (ord = .rel ∨ ord = .ar)
    let s ← st
    let copyWide := wide && s.isCopy w
    let pw ← (if wide && rel then pourWait w else pure none)
    match pw with
    | some k => pure (.wait k)
    | none => if rel && awaitRemote s w sc then pure (.wait .remote) else do
      let live : Prog (Except Res Got) := do
        let now := !s.checkedWarp w || wide
        let r ← atomCheck w ls addr o.op now
        match r with
        | .error e => pure (.error e)
        | .ok (good, bad) => do
          let s ← st
          if (rel && !bad.isEmpty) || (good.isEmpty && !bad.isEmpty) then pure (.error (.fault (accFault s w h rel bad)))
          else do
            let room := if now then Room.go [] else ladleRoom s w (memLines s good)
            let (good, bad) := earlyBad s w (atomBytes o.op) (atomBytes o.op) true room good bad
            if room = .stall then pure (.error (.wait .ladle))
            else if (rel && !bad.isEmpty) || (good.isEmpty && !bad.isEmpty) then pure (.error (.fault (accFault s w h rel bad)))
            else do
              let seq ← atomOrder o.op false good
              let v1 ← atomSpad w o ord sc seq
              let v2 ← atomLines w o ord sc now room seq
              whenP wide (earlyAct w)
              pure (.ok (sortLanes (v1 ++ v2), if bad.isEmpty then none else some (accFault s w h false bad)))
      let r ← logWhen wide w (laneBytes ls.length (atomBytes o.op)) live
      match r with
      | .error e => pure e
      | .ok (vals, f) => do
        whenP copyWide (do
          let (as, _) ← locateLanes w (vals.map (·.1)) addr (atomBytes o.op) { rd := true, wr := true }
          let seq ← atomOrder o.op true as
          let _ ← atomSpad w o ord sc seq)
        writeV w d.val (atomWidth o.op) vals
        foldSig w (vals.flatMap fun v => atomWords o (addr v.1) v.1)
        countLines w (((vals.filter fun v => !inWindow (addr v.1)).map fun v => lineAddr s (addr v.1)).eraseDups.length)
        whenP (decide (ord = .acq ∨ ord = .ar)) (acquire w sc)
        match f with
        | some f => pure (.fault f)
        | none => do
          whenP wide (segEnd w false)
          pure .ok

/-- RED by lanes (R278 to R282): held as an operation in a checked gang. Its operation code is folded as an atomic's is, beside the
address and the data (R166; log entry 22). -/
def redOp (w : Nat) (h : Hd) (ls : List Nat) (addr : Nat → DWord) (o : AtomArg) (rel : Bool) (sc : Scope) : Prog Res :=
  letI := progMonad
  do
    let s ← st
    let ord : Ord := if rel then .rel else .rlx
    let r ← atomCheck w ls addr o.op (!s.checkedWarp w)
    match r with
    | .error e => pure e
    | .ok (good, bad) => do
      let s ← st
      if rel && !bad.isEmpty then pure (.fault (accFault s w h true bad))
      else if rel && awaitRemote s w sc then pure (.wait .remote)
      else do
        let room := ladleRoom s w (memLines s good)
        let (good, bad) := earlyBad s w (atomBytes o.op) (atomBytes o.op) true room good bad
        if room = .stall then pure (.wait .ladle)
        else if rel && !bad.isEmpty then pure (.fault (accFault s w h true bad))
        else do
          let seq ← atomOrder o.op true good
          let _ ← atomSpad w o ord sc seq
          if !s.checkedWarp w then do
            let _ ← atomLines w o ord sc true room seq
            pure ()
          else forAll (byLine s seq) fun g => do
            let held : HeldKind := .red g.1 (g.2.map fun a => (a.addr, o.op, BitVec.ofNat 128 (o.b a.lane)))
            if room.early g.1 then do
              noteRelease w g.1
              let _ ← atomLines w o ord sc true room g.2
              pure ()
            else holdNow (warpWriter s w (atomBytes o.op) (some sc) rel) true w held
          foldSig w (good.flatMap fun a => atomWords o a.addr a.lane)
          countLines w (byLine s good).length
          if bad.isEmpty then do
            whenP (wideLanes sc ls addr) (segEnd w false)
            pure .ok
          else pure (.fault (accFault s w h false bad))

end Sys2Proof.Machine
end

