-- ==== Sys2Proof/Machine/Pages.lean ====
section
/-!
DEFINITION. Pages: leaf entries as the device writes them (R399, R406), the lines of a page in the caches, and DISC of a
page (R104, R126).
-/
namespace Sys2Proof.Machine

/-- Write a leaf entry, at the primary and the mirror, and in every TLB entry made from it (R406). -/
def setLeaf (d leaf : Nat) (w0 w1 : DWord) : Prog Unit :=
  letI := progMonad
  do
    let s ← st
    let bs := leBytes 8 w0.toNat ++ leBytes 8 w1.toNat
    let m := physKey (mirDie s d) (mirBase s d + (leaf - tabBase s d))
    physStore (physKey d leaf) bs
    upd (.tag (lineKey (physKey d leaf)) (tabTag s d leaf))
    physStore m bs
    upd (.tag (lineKey m) (tabTag s d leaf))
    upd (.die d fun x => { x with tlb := x.tlb.map fun e => if e.leaf = leaf then { e with w0 := w0, w1 := w1 } else e })

/-- A page has moved to another frame: what was translated through entries dropped before finds it there (R412). -/
def moveOld (d leaf : Nat) (w0 : DWord) : Prog Unit :=
  .get fun s => whenP ((s.die d).tlbOld.any fun e => e.2.leaf == leaf) (upd (.die d fun x => { x with tlbOld := x.tlbOld.map fun e =>
    if e.2.leaf = leaf then (e.1, { e.2 with w0 := setField (setField e.2.w0 53 3 (field w0 53 3)) 16 36 (field w0 16 36) }) else e }))

/-- Drop the first-level copies of the entries made from a leaf (R412). -/
def dropTlb1 (d leaf : Nat) : Prog Unit :=
  upd (.die d fun x =>
    let gone := (x.tlb.filter fun e => e.leaf == leaf).map fun e => (e.asid, e.level, e.page)
    { x with tlb1 := x.tlb1.map fun c => (c.1, c.2.filter fun k => !gone.contains k) })

/-- The count and the mark of a page clear (R414). -/
def clearCount (world d leaf : Nat) : Prog Unit :=
  .bind (upd (.die d fun x => { x with tlb := x.tlb.map fun e =>
      if e.leaf = leaf then { e with count := 0, queued := false, ovfl := false } else e })) fun _ =>
    upd (.world world fun w => { w with overflow := w.overflow.filter fun p => p != (d, leaf) })

/-- A page has been copied to another frame (R412): its entry is written in one, the memory-side TLB is updated in place, and
the first-level copies go; what was translated through entries dropped before finds it there. -/
def pageMoved (d leaf : Nat) (w0 w1 : DWord) : Prog Unit :=
  .bind (setLeaf d leaf w0 w1) fun _ => .bind (moveOld d leaf w0) fun _ => dropTlb1 d leaf

/-- Drop the TLB entries made from a leaf, and the first-level copies of them (R402, R410). -/
def dropTlb (d leaf : Nat) : Prog Unit := dropEnts d fun e => e.leaf != leaf

/-- The words of the leaf entry at an address of the table region. -/
def leafWords (s : State) (d leaf : Nat) : DWord × DWord :=
  (BitVec.ofNat 64 (leNat (physBytes s (physKey d leaf) 8)), BitVec.ofNat 64 (leNat (physBytes s (physKey d leaf + 8) 8)))

/-- A line identity lies in a page. -/
def lidIn (die leaf lid : Nat) : Bool := lid / 2 ^ 24 == pageId die leaf / 2 ^ 24

/-- Drop the page's lines from every L1 and L2, replicas with them. -/
def dropLines (die leaf : Nat) : Prog Unit :=
  .bind (upd (.l1 fun t => t.filter fun e => !lidIn die leaf (copyLine e.1))) fun _ =>
  .bind (upd (.reps fun t => t.filter fun e => !lidIn die leaf (copyLine e.1))) fun _ =>
    upd (.l2 fun t => t.filter fun e => !lidIn die leaf e.1)

/-- Push zeros to the subscriptions of a page (R126). -/
def pushZeros (die leaf : Nat) : Prog Unit :=
  .get fun s => forAll s.subs fun e =>
    whenP (e.2.live && lidIn die leaf e.2.line) (upd (.sub e.1 fun b =>
      { b with next := (b.next + 1) % 2 ^ 32, flight := b.flight ++ [(b.next, List.replicate b.size 0, ⟨s.seqNo, []⟩)] }))

/-- Key of the first byte of the page's frame. -/
def Xl.frame (x : Xl) : Nat := x.key - x.off % 2 ^ levelBits x.level
/-- The physical lines of the page that memory has tags of. -/
def taggedLines (s : State) (x : Xl) : List (Nat × LineTag) :=
  s.tags.filter fun e => decide (x.frame / 128 ≤ e.1) && decide (e.1 < x.frame / 128 + 2 ^ levelBits x.level / 128)

/-- A generic line address lies in the page. -/
def pageHas (s : State) (x : Xl) (a : DWord) : Bool :=
  match ownAddr s a with
  | some (d, off) => d == x.die && off / 2 ^ levelBits x.level == x.off / 2 ^ levelBits x.level
  | none => false

/-- What is left of a pending version when the versions of some lines go: of a tile, its other lines and its version word. -/
def heldLess (gone : DWord → Bool) (h : Held) : Option Held :=
  match h.kind with
  | .bytes a _ _ | .red a _ => if gone a then none else some h
  | .tile v d => some { h with kind := .tile v (d.filter fun e => !gone e.1) }
  | .disc _ _ => some h

/-- Drop Ladle versions of a world, and the private versions of its gangs' copies: those of lines that go, given by context
and address, but for one gang's. -/
def cutHeld (world : Nat) (but : Option Nat) (gone : Nat → DWord → Bool) : Prog Unit :=
  .get fun s =>
    let cut (l : List Held) : List Held := l.filterMap fun h => heldLess (gone h.asid) h
    forAll (s.gangs.map Prod.fst) fun g =>
      whenP (some g != but && worldOfGrid (gridOfGang g) == world && !((s.gang g).holds.isEmpty && (s.gang g).priv.isEmpty))
        (upd (.gang g fun e => { e with holds := cut e.holds, priv := cut e.priv }))

/-- An address leads to the page in a context: to its leaf, which contexts may share (R400). -/
def leadsTo (s : State) (x : Xl) (asid : Nat) (a : DWord) : Bool :=
  if asid = x.asid then pageHas s x a
  else match ownAddr s a with
  | some (d, off) => d == x.die && (match (walk s d asid off).1 with | .entry _ _ pa _ => pa == x.leaf | _ => false)
  | none => false

/-- Drop the Ladle versions of a page that gangs other than `but` hold, and the private versions of their copies (R104). -/
def dropHeld (world : Nat) (but : Option Nat) (x : Xl) : Prog Unit :=
  .get fun s => cutHeld world but (leadsTo s x)

/-- Drop the Ladle versions of a page that one gang holds (R104). -/
def dropOwn (gk : Nat) (x : Xl) : Prog Unit :=
  .get fun s => upd (.gang gk fun g => { g with holds := g.holds.filterMap (fun h => heldLess (leadsTo s x h.asid) h) })

/-- Make a page fresh as one event at its die, under new words of its entry (R104, R333): F is set, cached lines go, and
poison ends (R419). -/
def freshPage (x : Xl) (w1 : DWord) : Prog Unit :=
  letI := progMonad
  do
    let s ← st
    let old (l : Nat) : List Byte := physBytes s (l * 128) 128
    whenP (bitAt x.w0 58) (forAll (taggedLines s x) fun e => saveCode (e.1 * 128) (old e.1) (fullLine (List.replicate 128 0)))
    forAll ((taggedLines s x).filter fun e => e.2.poison) fun e => upd (.tag e.1 { e.2 with poison := false })
    setLeaf x.die x.leaf (setField x.w0 61 1 1) w1
    dropLines x.die x.leaf
    forAll (s.msgs.filter fun e => lidIn x.die x.leaf e.1 && !e.2.isEmpty) fun e => upd (.msgs e.1 [])

/-- DISC of a page as one event at its die (R104): cached lines go, the tweak rises, F is set, poison ends (R419), and
zeros are pushed. -/
def discPage (world : Nat) (but : Option Nat) (x : Xl) : Prog Unit :=
  letI := progMonad
  do
    freshPage x (setField x.w1 28 16 (field x.w1 28 16 + 1))
    dropHeld world but x
    pushZeros x.die x.leaf

end Sys2Proof.Machine
end

