-- ==== Sys2Proof/Machine/Memory.lean ====
section
/-!
DEFINITION. Loads, stores, atomics, fences, cache operations, DISC and the waits on memory (R226, R270 to R288).
-/
namespace Sys2Proof.Machine

/-- Issue of a memory instruction by the lanes with effect, even when there are none (R95). -/
def issueMem (i : Instr) (h : Hd) (eff : State → Nat → List Nat → Prog Res) : Prog Unit :=
  issue i fun w => .get fun s => eff s w (lanesOf (effMask s w h))

/-- SLD (R226): one weak read for the warp. -/
def execSld (o : Sld) (s : State) : Host.Outcome State Fault Refusal :=
  next (issueU (.sld o) o.hd fun w => .get fun s =>
    let a := s.sreg w o.a.val + s.srcU w o.off
    .bind (readOp w o.hd [0] (fun _ => a) o.ty.bytes {} (inAnyRegion s w a o.ty.bytes)) fun r => match r with
      | .error (.fault f) => .ret (.fault { f with lanes := none, part := false, mem := false })
      | .error e => .ret e
      | .ok (v, _) =>
        let x := (v.head?.map (·.2)).getD 0
        .bind (writeS w o.d.val (if o.ty.signed then BitVec.ofInt 64 (signed o.ty.bits x) else BitVec.ofNat 64 x))
          fun _ => .ret .ok) s

/-- LD by lanes (R275, R277). -/
def ldLanes (o : LdSt) (s : State) (w : Nat) (ls : List Nat) : Prog Res :=
  loadOp w o.hd ls (memAddrOf s w o.mem) o.ty o.d o.sc false (o.hint == .nc)

/-- LD (R275, R277). -/
def execLd (o : LdSt) (s : State) : Host.Outcome State Fault Refusal :=
  next (issueMem (.ld o) o.hd (ldLanes o)) s

/-- LDA (R275). -/
def execLda (o : LdaStr) (s : State) : Host.Outcome State Fault Refusal :=
  next (issueMem (.lda o) o.hd fun s w ls =>
    loadOp w o.hd ls (memAddrOf s w o.mem) o.ty o.d (some o.sc) (!ls.isEmpty) (o.hint == .nc)) s

/-- The low bytes of a store's data register (R272). -/
def storeVal (s : State) (w : Nat) (d : VReg) (ty : IT) (l : Nat) : Nat := s.vwide w d.val l ty.words % 2 ^ ty.bits

/-- ST by lanes (R276). -/
def stLanes (o : LdSt) (s : State) (w : Nat) (ls : List Nat) : Prog Res :=
  storeOp w o.hd ls (memAddrOf s w o.mem) (storeVal s w o.d o.ty) o.ty.bytes o.sc false

/-- ST (R276). -/
def execSt (o : LdSt) (s : State) : Host.Outcome State Fault Refusal :=
  next (issueMem (.st o) o.hd (stLanes o)) s

/-- STR (R276). -/
def execStr (o : LdaStr) (s : State) : Host.Outcome State Fault Refusal :=
  next (issueMem (.str o) o.hd fun s w ls =>
    storeOp w o.hd ls (memAddrOf s w o.mem) (storeVal s w o.d o.ty) o.ty.bytes (some o.sc) true) s

/-- The address of a lane of ATOM and RED (R278). -/
def atomAddr (s : State) (w : Nat) (a : VReg) (off : BitVec 32) (l : Nat) : DWord := s.vpair w a.val l + off.signExtend 64

/-- A lane's operand at the width of the operation. -/
def atomVal (s : State) (w : Nat) (op : AtomOp) (r : VReg) (l : Nat) : Nat := s.vwide w r.val l (atomWidth op)

/-- ATOM (R278 to R282). -/
def execAtom (o : Atom) (s : State) : Host.Outcome State Fault Refusal :=
  next (issueMem (.atom o) o.hd fun s w ls =>
    atomOp w o.hd ls (atomAddr s w o.a o.off) ⟨o.op, atomVal s w o.op o.b, atomVal s w o.op o.c⟩ o.d o.ord o.sc) s

/-- RED (R278 to R282). -/
def execRed (o : Red) (s : State) : Host.Outcome State Fault Refusal :=
  next (issueMem (.red o) o.hd fun s w ls =>
    redOp w o.hd ls (atomAddr s w o.a o.off) ⟨o.op, atomVal s w o.op o.b, fun _ => 0⟩ (o.ord == .rel) o.sc) s

/-- What a fence of a warp does (R138, R139, R283): an acquire fence takes what earlier strong reads found, and makes later weak
loads miss older L1 lines; an SC fence takes its place in the SC order; a release fence orders what precedes it. A release
fence at .dm waits for accesses to other devices (R158). -/
def fenceOp (w : Nat) (ord : Ord) (sc : Scope) : Prog Unit :=
  .bind (whenP (ord == .acq || ord == .sc) (.bind (acquireFence w sc) fun _ => acquire w sc)) fun _ =>
  .bind (whenP (ord == .sc) (scFence w sc)) fun _ =>
    whenP (ord == .rel || ord == .sc) (releaseFence w sc)

/-- FENCE (R283): a release or SC fence wider than .gg ends the segment. -/
def execFence (o : Fence) (s : State) : Host.Outcome State Fault Refusal :=
  next (issueV (.fence o) o.hd fun w _ => .get fun s =>
    if (o.ord == .rel || o.ord == .sc) && awaitRemote s w o.sc then .ret (.wait .remote) else
    .bind (fenceOp w o.ord o.sc) fun _ =>
    .bind (whenP ((o.ord == .rel || o.ord == .sc) && scopeWide o.sc) (segEnd w false)) fun _ => .ret .ok) s

/-- The lines a cache operation acts on: device memory that a read could reach (R284). -/
def cacheLines (w : Nat) (ls : List Nat) (addr : Nat → DWord) : Prog (List Xl) :=
  letI := progMonad
  do
    let (as, _) ← locateLanes w (ls.filter fun l => !inWindow (addr l)) addr 1 { rd := true }
    let s ← st
    pure (as.filterMap fun a => match a.loc with
      | .mem x => (match lineRead s x with | .ok _ => some x | .error _ => none)
      | _ => none)

/-- CCTL (R284): no value that an access can read changes. -/
def execCctl (o : Cctl) (s : State) : Host.Outcome State Fault Refusal :=
  next (issueV (.cctl o) o.hd fun w ls => .get fun s =>
    .bind (cacheLines w ls (memAddrOf s w o.mem)) fun xs =>
    .bind (forAll xs fun x => match o.op with
      | .il1 => upd (.l1 fun t => t.filter fun e => e.1 != l1Key (s.coreOfWarp w) x.lid)
      | .evl2 => .bind (upd (.l2 fun t => t.filter fun e => e.1 != x.lid)) fun _ =>
          upd (.reps fun t => t.filter fun e => copyLine e.1 != x.lid)
      | .drep => upd (.reps fun t => t.filter fun e => copyLine e.1 != x.lid)) fun _ => .ret .ok) s

/-- Fetch a line into its home L2, and into an L1. -/
def prefLine (core : Nat) (l1 : Bool) (x : Xl) : Prog Unit :=
  .get fun s =>
    .bind (whenP (!s.l2.any fun e => e.1 == x.lid)
      (l2Put x.lid { asid := x.owner, slot := x.slot, page := x.off / 2 ^ 16, phys := x.line * 128 })) fun _ =>
    match lineRead s x with
    | .ok b => whenP l1 (upd (.l1 fun t => Tab.put t (l1Key core x.lid) { data := b, filled := s.seqNo }))
    | .error _ => .ret ()

/-- PREF (R284). -/
def execPref (o : Pref) (s : State) : Host.Outcome State Fault Refusal :=
  next (issueV (.pref o) o.hd fun w ls => .get fun s =>
    .bind (cacheLines w ls (memAddrOf s w o.mem)) fun xs =>
    .bind (forAll xs (prefLine (s.coreOfWarp w) o.l1)) fun _ => .ret .ok) s

/-- The first lane of each page named. -/
def pagesOf (as : List (Nat × DWord × Xl)) : List (DWord × Xl) :=
  (as.foldl (fun (t : List (Nat × DWord × Xl)) a =>
    let k := pageId a.2.2.die a.2.2.leaf
    if t.any fun e => e.1 == k then t else t ++ [(k, a.2)]) []).map (·.2)

/-- DISC (R285): every page named, once; in a checked gang it is held. -/
def execDisc (o : Disc) (s : State) : Host.Outcome State Fault Refusal :=
  letI := progMonad
  next (issueV (.disc o) o.hd fun w ls => do
    let s ← st
    let addr := memAddrOf s w o.mem
    let (own, out) := ls.partition fun l => (ownAddr s (addr l)).isSome
    let (as, bad0) ← locateLanes w own addr 0 { wr := true }
    let bad := bad0 ++ out.map fun l => (l, Cause.protect, addr l)
    if bad.isEmpty then do
      let xs := as.filterMap fun a => match a.loc with | .mem x => some (a.lane, a.addr, x) | _ => none
      let room := ladleRoom s w ((pagesOf xs).map fun p => (lineAddr s p.1, p.2.die))
      if room = .stall then pure (.wait .ladle)
      else do
        forAll (pagesOf xs) fun p => do
          let held : HeldKind := .disc (lineAddr s p.1) (levelBits p.2.level)
          if !s.checkedWarp w then discPage (s.worldOfWarp w) (some (s.gangOfWarp w)) p.2
          else if room.early (lineAddr s p.1) then do
            noteRelease w p.1
            discPage (s.worldOfWarp w) (some (s.gangOfWarp w)) p.2
            dropOwn (s.gangOfWarp w) p.2
          else holdNow (warpWriter s w 0 none false) false w held
        pure .ok
    else pure (.fault (accFault s w o.hd true bad))) s

/-! ### Waits on memory -/

/-- The value a lane of MWAIT waits for (R286). -/
def mwaitVal (s : State) (w : Nat) (v : SrcV) (l : Nat) : DWord :=
  match v with
  | .v r => s.vpair w r.val l
  | .s r => s.sreg w r.val
  | .imm i => i.setWidth 64

/-- A lane of an access can be read now: its line is present and its die has a path (R98, R427). -/
def readyLane (s : State) (a : Acc) : Bool := (accWait s [a]).isNone

/-- One pass of MWAIT's loop over the lanes not done (R287): the checks of R273 are made for every lane; a lane whose word is
at least its value is done, and its read is the acquire. A lane whose scratchpad line is absent is read once it is present
(R98). A fault performs no lane: every active lane is in FLANES (R274). -/
def mwaitPass (w : Nat) (h : Hd) (ls : List Nat) (addr val : Nat → DWord) (sc : Scope) : Prog (Except Res Got) :=
  letI := progMonad
  do
    let s ← st
    let left := ls.filter fun l => !(s.warp w).ctl.mwDone.getLsbD l
    let (as, bad0) ← locateLanes w left addr 8 { rd := true }
    let s ← st
    let (vals, bad1) ← (if bad0.isEmpty then readLanes w 8 { sc := some sc, acq := fun l v => decide ((val l).toNat ≤ v) }
      (as.filter (readyLane s)) else pure ([], []))
    let bad := bad0 ++ bad1
    if !bad.isEmpty then pure (.error (.fault (accFault s w h true bad)))
    else do
      let hit := vals.filter fun v => decide ((val v.1).toNat ≤ v.2)
      upd (.ctl w fun c => { c with
        mwDone := c.mwDone ||| maskOf (hit.map (·.1))
        mwWords := hit.foldl (fun t v => Tab.put t v.1 (BitVec.ofNat 64 v.2)) c.mwWords })
      let s ← st
      let c := (s.warp w).ctl
      if ls.all fun l => c.mwDone.getLsbD l then pure (.ok (ls.map fun l => (l, (c.mwWords.get 0 l).toNat), none))
      else
        let tab (f : Nat → DWord) : Tab DWord := ls.map fun l => (l, f l)
        pure (.error (.wait (.mwait (tab addr) (tab val) sc)))

/-- MWAIT (R286, R287). -/
def execMwait (o : Mwait) (s : State) : Host.Outcome State Fault Refusal :=
  letI := progMonad
  next (issueV (.mwait o) o.hd fun w ls => do
    let s ← st
    let addr (l : Nat) : DWord := s.vpair w o.a.val l
    let r ← logWhen (wideLanes o.sc ls addr) w (8 * ls.length) (mwaitPass w o.hd ls addr (mwaitVal s w o.v) o.sc)
    match r with
    | .error e => pure e
    | .ok (vals, _) => do
      acquire w o.sc
      match o.d with
      | some d => writeV w d.val 2 vals
      | none => pure ()
      pure .ok) s

/-- The scratchpad lines of a lane's range, or its cause (R288). -/
def pwaitLane (s : State) (w : Nat) (a : DWord) (len : Nat) : Except Cause (List (Nat × Nat)) :=
  if len = 0 then .ok []
  else if !inWindow a || field a 40 5 == 8 then .error .protect
  else match locWindow s (s.whoWarp w) a len {} with
    | .ok (.spad b o) => .ok ((List.range ((o + len - 1) / 128 + 1 - o / 128)).map fun i => (b, o / 128 + i))
    | .ok _ => .error .protect
    | .error c => .error c

/-- PWAIT (R288). -/
def execPwait (o : Pwait) (s : State) : Host.Outcome State Fault Refusal :=
  letI := progMonad
  next (issueV (.pwait o) o.hd fun w ls => do
    let s ← st
    let addr (l : Nat) : DWord := s.vpair w o.a.val l
    let len (l : Nat) : Nat := match o.len with | .v r => (s.vreg w r.val l).toNat | .imm i => i.toNat
    let rs := ls.map fun l => (l, pwaitLane s w (addr l) (len l))
    let bad := rs.filterMap fun r => match r.2 with | .error c => some (r.1, c, addr r.1) | .ok _ => none
    let lines := (rs.flatMap fun r => match r.2 with | .ok l => l | .error _ => []).eraseDups
    if bad.isEmpty then do
      let live : Prog (Except Res Got) := .get fun s =>
        let gone := lines.filter fun e => absent s e.1 e.2
        let all := rs.map fun r => (addr r.1, match r.2 with | .ok l => l.map (fun e => e.1 * 2 ^ 20 + e.2) | .error _ => [])
        .ret (if gone.isEmpty then .ok (ls.map fun l => (l, 1), none) else .error (.wait (.pwait all)))
      let r ← logWhen (ls.any fun l => len l != 0 && inAnyRegion s w (addr l) (len l)) w (laneBytes ls.length 4) live
      match r with
      | .error e => pure e
      | .ok _ => do
        forAll lines fun e => findPresent w e.1 (128 * e.2) 1
        pure .ok
    else pure (.fault (accFault s w o.hd true bad))) s

/-! ### Structures in memory -/

/-- Read a structure of n bytes, n a power of two, at an address, as one weak read of the warp: a stream record (R294), a
tensor map (R106). Every active lane is in FLANES. -/
def structRead (w : Nat) (a : DWord) (n : Nat) : Prog (Except Res (List Byte)) :=
  letI := progMonad
  do
    let s ← st
    let r ← locate (s.whoWarp w) a n { rd := true, ringOk := true }
    match r with
    | .error (c, f) => pure (.error (faultAt c f))
    | .ok loc => do
      let as : List Acc := [⟨0, a, loc⟩]
      let s ← st
      match accWait s as with
      | some k => pure (.error (.wait k))
      | none => do
        let (v, _) ← readLanes w n {} as
        match v with
        | x :: _ => pure (.ok (leBytes n x.2))
        | [] => pure (.error (faultAt .integrity (lineAddr s a)))

end Sys2Proof.Machine
end

