-- ==== Sys2Proof/Machine/Engine.lean ====
section
/-!
DEFINITION. What the engines share: tensor maps and their positions (R106 to R113), bound registers (R114, R115), engine
reads and writes (R148, R167, R173), stamps (R116), engine queues (R119, R120), and presence (R98).
-/
namespace Sys2Proof.Machine

/-! ### Tensor maps (R106 to R113) -/

/-- Element width in bits of a map format (R107). -/
def fmtBits (f : Nat) : Nat :=
  match f with
  | 1 | 6 | 7 => 16
  | 2 | 4 | 5 | 8 => 32
  | 3 | 9 => 64
  | 13 => 4
  | _ => 8

/-- A field of a structure: n bytes from an offset. -/
def leAt (bs : List Byte) (o n : Nat) : Nat := leNat ((bs.drop o).take n)

/-- Dimension i of a map (R108). -/
def mapDim (bs : List Byte) (i : Nat) : TDim :=
  let e := leAt bs (0x18 + 8 * i) 8
  { stride := e / 2 ^ 32, size := bitsAt e 8 24 + 1, box := e % 256 + 1 }

/-- Walk entry i of a map (R109). -/
def mapWalk (bs : List Byte) (ctl i : Nat) : TWalk :=
  let b (k : Nat) : Nat := leAt bs (0x68 + 5 * i + k) 1
  { on := bitsAt ctl (44 + i) 1 == 1, offset := signed 8 (b 0), step := b 1, dil := b 2, padlo := b 3, padhi := b 4 }

def walkZero (t : TWalk) : Bool := t.offset == 0 && t.step == 0 && t.dil == 0 && t.padlo == 0 && t.padhi == 0

/-- The map in 128 bytes, if it passes R113 (the rules of R111 and R112 apart). -/
def parseMap (addr : DWord) (bs : List Byte) : Option TMap :=
  let ctl := leAt bs 8 8
  let n := bitsAt ctl 48 4
  let fmt := bitsAt ctl 52 4
  let base : DWord := BitVec.ofNat 64 (leAt bs 0 8)
  let ver : DWord := BitVec.ofNat 64 (leAt bs 16 8)
  let dims := (List.range (n + 1)).map (mapDim bs)
  let walks := (List.range 4).map (mapWalk bs ctl)
  let aon := bitsAt ctl 43 1 == 1
  let bnd := bitsAt ctl 42 1 == 1
  let badWalk (i : Nat) (t : TWalk) : Bool :=
    if t.on then decide (n < i) || t.step == 0 || t.dil == 0 else !walkZero t
  if bitsAt ctl 56 8 ≠ 1 ∨ fmt = 15 ∨ 9 < n ∨ ctl % 2 ^ 36 ≠ 0 ∨ leAt bs 0x7C 4 ≠ 0 ∨ (mapDim bs 0).stride ≠ 0
      ∨ ((List.range 10).any fun i => decide (n < i) && leAt bs (0x18 + 8 * i) 8 != 0)
      ∨ (walks.zipIdx.any fun e => badWalk e.2 e.1)
      ∨ (aon ∧ (bitsAt ctl 44 4 ≠ 0 ∨ ver = 0)) ∨ (bnd ∧ fmt ≤ 3) ∨ base.toNat % 16 ≠ 0 then none
  else some { addr, base, fmt, aon, bnd, bidx := bitsAt ctl 36 6, ver, dims, walks }

def TMap.ebits (m : TMap) : Nat := fmtBits m.fmt
/-- Bytes an element's access touches. -/
def TMap.ebytes (m : TMap) : Nat := (m.ebits + 7) / 8
/-- Bytes of a dense row (R111). -/
def TMap.pitch (m : TMap) : Nat := ((m.dims.headD ⟨0, 0, 0⟩).box * m.ebits + 127) / 128 * 16
/-- Rows of the box, and bytes of the dense box. -/
def TMap.rows (m : TMap) : Nat := m.dims.tail.foldl (fun n d => n * d.box) 1
def TMap.dense (m : TMap) : Nat := m.rows * m.pitch

/-- States of a position (R110). -/
inductive PosSt where
  | inside | pad | clipped
  deriving DecidableEq, Repr

/-- An element of a box: its state, address through the map (with the high nibble for F4), and its place in the dense
box in nibbles. -/
structure Elt where
  st : PosSt
  addr : DWord
  hi : Bool
  dst : Nat
  deriving DecidableEq, Repr

/-- Coordinate x[i] of dimension i and what it makes of the state (R110). -/
def mapCoord (d : TDim) (t : TWalk) (c h j : Nat) (st : PosSt) : Int × PosSt :=
  if t.on then
    let x : Int := ((c + j) * t.step + h * t.dil : Nat) + t.offset - (t.padlo : Nat)
    (x, if x < -(t.padlo : Int) ∨ (d.size + t.padhi : Nat) ≤ x then .clipped
        else if (x < 0 ∨ (d.size : Nat) ≤ x) ∧ st = .inside then .pad else st)
  else (((c + j : Nat) : Int), if d.size ≤ c + j then .clipped else st)

/-- The position (j0, …) of a map (R110). -/
def mapPos (m : TMap) (c h j : List Nat) : PosSt × Int :=
  let r := (m.dims.zip j).zipIdx.foldl (fun (a : PosSt × Int) e =>
    let i := e.2
    let x := mapCoord e.1.1 (m.walks.getD i ⟨false, 0, 0, 0, 0, 0⟩) (c.getD i 0) (h.getD i 0) e.1.2 a.1
    (x.2, a.2 + x.1 * (if i = 0 then m.ebits else 128 * e.1.1.stride : Nat))) (PosSt.inside, (0 : Int))
  (r.1, (m.base.toNat * 8 : Nat) + r.2)

/-- The index tuples of a box, dimension 0 innermost. -/
def boxIdx : List TDim → List (List Nat)
  | [] => [[]]
  | d :: t => (boxIdx t).flatMap fun o => (List.range d.box).map fun j => j :: o

/-- An element at a bit address and a dense place. -/
def mkElt (st : PosSt) (bit : Int) (dst : Nat) : Elt :=
  let n := (bit % (2 ^ 67 : Nat)).toNat
  { st, addr := BitVec.ofNat 64 (n / 8), hi := n % 8 == 4, dst }

/-- The elements of a box (R110, R111). -/
def boxElts (m : TMap) (c h : List Nat) : List Elt :=
  let b0 := (m.dims.headD ⟨0, 0, 0⟩).box
  (boxIdx m.dims).zipIdx.map fun e =>
    let p := mapPos m c h e.1
    mkElt p.1 p.2 (e.2 / b0 * (2 * m.pitch) + e.2 % b0 * m.ebits / 4)

/-- R111 for F4: an even box0, and an even x[0] at j0 = 0. -/
def f4Ok (m : TMap) (c h : List Nat) : Bool :=
  m.fmt != 13 || ((m.dims.headD ⟨0, 0, 0⟩).box % 2 == 0
    && (mapCoord (m.dims.headD ⟨0, 1, 1⟩) (m.walks.headD ⟨false, 0, 0, 0, 0, 0⟩) (c.headD 0) (h.headD 0) 0 .inside).1 % 2 == 0)

/-- R112: every coordinate a multiple of its box extent under aon. -/
def aonOk (m : TMap) (c : List Nat) : Bool := !m.aon || (m.dims.zip c).all fun e => e.2 % e.1.box == 0

/-- The version word of a tile (R112). -/
def verAddr (m : TMap) (c : List Nat) : DWord :=
  let idx := (m.dims.zip c).foldr (fun e n => e.2 / e.1.box + (e.1.size + e.1.box - 1) / e.1.box * n) 0
  m.ver + BitVec.ofNat 64 (8 * idx)

/-- Read and check the map of an instruction (R106, R113). -/
def readMap (w : Nat) (a : DWord) : Prog (Except Res TMap) :=
  .bind (structRead w a 128) fun r => .ret (match r with
    | .error e => .error e
    | .ok bs => match parseMap a bs with
      | some m => .ok m
      | none => .error (faultAt .protect a))

/-! ### Values and bounds (R115) -/

/-- The exact value of an element of a map format with a scale code; block NaN is NaN. -/
def eltVal (fmt scale bits : Nat) : FVal :=
  let nv (t : NT) : FVal := if scale = 255 then .nan false else let v := ntVal t bits; .fin v.1 v.2.1 (v.2.2 + (scale : Int) - 127)
  match fmt with
  | 4 => .fin (decide (signed 32 bits < 0)) (signed 32 bits).natAbs 0
  | 5 => .fin false (bits % 2 ^ 32) 0
  | 6 => fVal .f16 bits
  | 7 => fVal .bf16 bits
  | 8 => fVal .f32 bits
  | 9 => fVal .f64 bits
  | 10 => nv .f8a
  | 11 => nv .f8b
  | 12 => nv .t8
  | 13 => nv .f4
  | _ => nv .i8

/-- A limit of a bound register, in the type the map's format gives it (R114). -/
def limitVal (fmt : Nat) (x : DWord) : FVal :=
  if fmt = 4 ∨ fmt = 5 ∨ fmt = 14 then .fin (decide (x.toInt < 0)) x.toInt.natAbs 0 else fVal .f64 x.toNat

/-- a < b of values that are no NaN. -/
def ltVal (a b : FVal) : Bool := cmpVal a b == .lt

/-- A violation: the value, or the limits, against [low, high]. -/
def violates (lo hi v : FVal) : Bool := isNan lo || isNan hi || isNan v || ltVal hi lo || ltVal v lo || ltVal hi v

/-- The best of some codes inside the limits: the least value, or the greatest. -/
def bestCode (fmt scale : Nat) (lo hi : FVal) (least : Bool) (codes : List Nat) : Option Nat :=
  (codes.filter fun c => !violates lo hi (eltVal fmt scale c)).foldl (fun b c => match b with
    | none => some c
    | some d => if (if least then ltVal (eltVal fmt scale c) (eltVal fmt scale d) else ltVal (eltVal fmt scale d) (eltVal fmt scale c))
        then some c else some d) none

/-- A limit as a number of a floating format, rounded toward the inside. -/
def limitCode (t : FT) (v : FVal) (up : Bool) : Nat :=
  match v with
  | .fin n m e => (roundFin t (if up then .rup else .rdn) false n m e false).1
  | .inf n => fInf t n
  | .nan _ => fDefNan t

/-- Clamp (R115): the representable value nearest the violated limit inside [low, high]; none when there is none. `up`
says that the low limit is the one. -/
def clampCode (fmt scale : Nat) (lo hi : FVal) (up : Bool) : Option Nat :=
  let lim := if up then lo else hi
  let check (c : Nat) : Option Nat := if violates lo hi (eltVal fmt scale c) then none else some c
  if isNan lo || isNan hi || ltVal hi lo then none
  else match fmt with
  | 4 | 5 =>
    let x : Int := match lim with | .fin n m e => signedMag n (m * 2 ^ e.toNat) | _ => 0
    let tlo : Int := if fmt = 4 then -(2 ^ 31 : Nat) else 0
    let thi : Int := if fmt = 4 then (2 ^ 31 - 1 : Nat) else (2 ^ 32 - 1 : Nat)
    check ((max tlo (min thi x)) % (2 ^ 32 : Nat)).toNat
  | 6 => check (limitCode .f16 lim up)
  | 7 => check (limitCode .bf16 lim up)
  | 8 => check (limitCode .f32 lim up)
  | 9 => check (limitCode .f64 lim up)
  | 13 => bestCode fmt scale lo hi up (List.range 16)
  | _ => bestCode fmt scale lo hi up (List.range 256)

/-- What a bound register makes of the values written (R115): address, bits, block NaN. The answer is the values, whether
a flag is raised, and the lowest violating address of a trap. -/
def boundApply (b : BoundEnt) (m : TMap) (scale : Nat) (items : List (DWord × Nat × Bool)) :
    List Nat × Bool × Option DWord :=
  if !m.bnd || b.action = 0 then (items.map fun e => e.2.1, false, none)
  else
    let lo := limitVal m.fmt b.low
    let hi := limitVal m.fmt b.high
    let val (e : DWord × Nat × Bool) : FVal := if e.2.2 then .nan false else eltVal m.fmt scale e.2.1
    let bad (e : DWord × Nat × Bool) : Bool := violates lo hi (val e)
    let fix (e : DWord × Nat × Bool) : Option Nat := clampCode m.fmt scale lo hi (isNan (val e) || ltVal (val e) lo)
    let worst : Option DWord := (items.filter bad).foldl (fun r e => match r with
      | none => some e.1
      | some a => if e.1.toNat < a.toNat then some e.1 else some a) none
    if b.action = 1 then (items.map fun e => e.2.1, items.any bad, none)
    else if b.action = 2 ∧ ¬items.any fun e => bad e && (fix e).isNone then
      (items.map fun e => if bad e then (fix e).getD e.2.1 else e.2.1, false, none)
    else (items.map fun e => e.2.1, false, worst)

/-- The bound register a map names; an entry that the grid does not have has the action none (R114). -/
def State.boundOf (s : State) (w : Nat) (m : TMap) : BoundEnt := (s.grid (s.gridOfWarp w)).bounds.getD m.bidx {}

/-! ### Engine reads and writes -/

/-- Why an engine does not go on: something it waits for, or a cause (R301). -/
inductive Stop where
  | blocked
  | cause (c : Cause) (a : DWord)
  deriving DecidableEq, Repr

/-- Causes an engine other than the matrix unit can meet after its instruction's checks (R301); a translation that is
gone since is waited for (log entry 21). -/
def lateCause (all : Bool) (c : Cause) (a : DWord) : Stop :=
  if all || c == .keyretired || c == .integrity then .cause c a else .blocked

/-- Pair the first address of each line with its line, in order. -/
def firstOfLines (s : State) (as : List DWord) : List (DWord × DWord) :=
  as.foldl (fun (t : List (DWord × DWord)) a =>
    let l := lineAddr s a
    if t.any fun e => e.1 == l then t else t ++ [(l, a)]) []

/-- Locate the lines of some addresses for a warp, as they were translated at a turn, or now (0); the first cause stops. -/
def engPlaces (w issued : Nat) (need : Need) : List (DWord × DWord) → Prog (Except (Cause × DWord) (List (DWord × DWord × Loc)))
  | [] => .ret (.ok [])
  | (l, a) :: t => .get fun s => .bind (locate { s.whoWarp w with issued := issued } a 1 need) fun r => match r with
    | .error e => .ret (.error e)
    | .ok loc => .bind (engPlaces w issued need t) fun r => .ret (match r with
      | .error e => .error e
      | .ok x => .ok ((l, a, loc) :: x))

/-- A line's bytes as an engine reads them. -/
def engLine (w : Nat) (a : DWord) (loc : Loc) : Prog Line :=
  .get fun s => match loc with
    | .spad b o => .ret ((spadBytes (s.block b) (o / 128 * 128) 128).map some)
    | _ => readLine w a loc false false []

/-- A located line is an absent scratchpad line (R98), or has no path to it (R427). -/
def placeAbsent (s : State) (core : Nat) (p : DWord × DWord × Loc) : Bool :=
  match p.2.2 with | .spad b o => absent s b (o / 128) | .mem x => unreachable s core x.die | _ => false

/-- The bytes of a piece in the lines read. -/
def pieceOf (s : State) (lines : List (DWord × Line)) (a : DWord) (n : Nat) : Option (List Byte) :=
  match lines.find? fun e => e.1 == lineAddr s a with
  | some e => lineBytes e.2 (a.toNat % 128) n
  | none => none

/-- An operation's reads find pieces of lines as they stand now: what it orders knows it (R135, R148). -/
def noteOpSeen (op : Nat) (places : List (DWord × DWord × Loc)) (s : State) (ps : List (DWord × Nat)) : Prog Unit :=
  let seen := places.flatMap fun p => match p.2.2 with
    | .mem x =>
      if (s.l1.any fun e => copyLine e.1 == x.lid) || (s.reps.any fun e => copyLine e.1 == x.lid) then
        (ps.filter fun q => lineAddr s q.1 == p.1).flatMap fun q =>
          (offsFrom (q.1.toNat % 128) q.2).map fun o => (seenKey x.lid o, s.seqNo)
      else []
    | _ => []
  whenP ((s.ops.any fun e => e.1 == op) && !seen.isEmpty)
    (upd (.op op fun o => { o with view := { o.view with seen := Tab.maxWith o.view.seen seen } }))

/-- Read the lines of some pieces for an engine: each address and its length, inside one line (R148). -/
def engFetch (w issued : Nat) (all : Bool) (ps : List (DWord × Nat)) : Prog (Except Stop (List (DWord × Line))) :=
  letI := progMonad
  do
    let s ← st
    let r ← engPlaces w issued { rd := true } (firstOfLines s (ps.map (·.1)))
    let s ← st
    match r with
    | .error (c, a) => pure (.error (lateCause all c a))
    | .ok places =>
      if places.any (placeAbsent s (s.coreOfWarp w)) then pure (.error .blocked)
      else do
        let lines ← mapAll places fun p => do
          let l ← engLine w p.2.1 p.2.2
          pure (p.1, l)
        noteOpSeen issued places s ps
        match ps.find? fun p => (pieceOf s lines p.1 p.2).isNone with
        | some p => pure (.error (.cause .integrity (lineAddr s p.1)))
        | none => pure (.ok lines)

/-- An element's bits in the lines read. -/
def eltBits (s : State) (lines : List (DWord × Line)) (ebits : Nat) (a : DWord) (hi : Bool) : Nat :=
  let v := leNat ((pieceOf s lines a ((ebits + 7) / 8)).getD [])
  if ebits = 4 then (if hi then v / 16 % 16 else v % 16) else v

/-- A byte an engine writes: address, the bits written, their values. -/
abbrev WByte := DWord × Byte × Byte

/-- The bytes of an element written at an address. -/
def eltBytes (ebits : Nat) (a : DWord) (hi : Bool) (v : Nat) : List WByte :=
  if ebits = 4 then [(a, if hi then 0xF0 else 0x0F, BitVec.ofNat 8 (if hi then 16 * v else v))]
  else (leBytes (ebits / 8) v).zipIdx.map fun e => (a + BitVec.ofNat 64 e.2, 0xFF, e.1)

/-- Elements written to one address, which a map with overlapping rows or a step of the same place gives (R110): one of them
is left there, the same in every run of a gang; which one is open (log entry 70). -/
def settleElts (els : List (Elt × Nat)) : List (Elt × Nat) :=
  let place (e : Elt × Nat) : DWord × Bool := (e.1.addr, e.1.hi)
  if decide ((els.map place).Nodup) then els
  else (els.zipIdx.filter fun e =>
    let same := els.zipIdx.filter fun f => place f.1 == place e.1
    (same[Config.aliasPick e.1.1.addr.toNat % same.length]?).map (·.2) == some e.2).map (·.1)

/-- Engine writes by line, in increasing address order: line, first address, and the bytes by offset. -/
def engLines (s : State) (ws : List WByte) : List (DWord × DWord × Tab (Byte × Byte)) :=
  let t : Tab (DWord × Tab (Byte × Byte)) := ws.foldl (fun t w =>
    let k := (lineAddr s w.1).toNat
    let e := Tab.get (w.1, []) t k
    let o := w.1.toNat % 128
    let b := Tab.get ((0, 0) : Byte × Byte) e.2 o
    Tab.put t k (e.1, Tab.put e.2 o (b.1 ||| w.2.1, (b.2 &&& ~~~w.2.1) ||| w.2.2))) []
  t.map fun e => (BitVec.ofNat 64 e.1, e.2.1, e.2.2)

/-- The old bytes of a line, for nibbles not written. -/
def oldLine (s : State) (w : Nat) (a : DWord) (loc : Loc) : Line :=
  match loc with
  | .spad b o => (spadBytes (s.block b) (o / 128 * 128) 128).map some
  | .remote => List.replicate 128 (some 0)
  | _ => lineSeen s w a loc

/-- The whole bytes of a line's writes. -/
def wholeBytes (old : Line) (d : Tab (Byte × Byte)) : Tab Byte :=
  d.map fun e => (e.1, (e.2.2 &&& e.2.1) ||| (((old.getD e.1 none).getD 0) &&& ~~~e.2.1))

/-- A partial write of an unreadable line (row 10 of R273). `now`: the write is performed at once, on the line at its home. -/
def lineUnwritable (s : State) (w : Nat) (a : DWord) (loc : Loc) (n : Nat) (now : Bool) : Bool :=
  match loc with
  | .mem x => (decide (n < 128) || x.past) && (if now then lineHome s a loc else lineSeen s w a loc).any Option.isNone
  | _ => false

/-- The CRC of a line an engine writes (R167): address, sixteen data words, byte mask. -/
def crcLine (crc : DWord) (line : DWord) (d : Tab Byte) : DWord :=
  let word (i : Nat) : DWord := BitVec.ofNat 64 (leNat ((List.range 8).map fun k => Tab.get (0 : Byte) d (8 * i + k)))
  let mask := d.foldl (fun m e => m ||| 2 ^ e.1) 0
  [BitVec.ofNat 64 mask, BitVec.ofNat 64 (mask / 2 ^ 64)].foldl sigFold
    (((List.range 16).map word).foldl sigFold (sigFold crc line))

/-- A line an engine wrote, with the bytes written. -/
abbrev LineOut := DWord × Tab Byte

/-- The CRC of the lines an operation wrote, in increasing address order, from 0 (R167). -/
def crcLines (ds : List LineOut) : DWord :=
  let t : Tab (Tab Byte) := ds.foldl (fun t d =>
    Tab.put t d.1.toNat (d.2.foldl (fun b e => Tab.put b e.1 e.2) (Tab.get [] t d.1.toNat))) []
  t.foldl (fun c e => crcLine c (BitVec.ofNat 64 e.1) e.2) 0

/-- Add the CRC of an operation to the signature of a segment of its warp (R167). -/
def addEngSig (w seg : Nat) (ds : List LineOut) : Prog Unit :=
  .get fun s => if s.checkedWarp w then
      upd (.ctl w fun c => { c with engSig := Tab.put c.engSig seg (c.engSig.get 0 seg + crcLines ds) })
    else .ret ()

/-! ### Who writes (R148, R149) -/

/-- The agent of an operation: its queue. -/
def Op.agent (o : Op) : Nat := Agent.engine o.blk o.queue

/-- What an operation orders once performed: what happens before its issue, and its own writes and those of the operations
before it in its queue (R149). The turn of an engine's event is that of its operation's issue. -/
def engView (o : Op) : View := o.view.upTo o.agent o.turn
def opView (s : State) (k : Nat) : View := engView (s.op k)

/-- An operation's weak write, or its strong one of 8 bytes, a release at a scope: a stamp or a version word (R148, R149). -/
def Op.writer (o : Op) (s : State) (sc : Option Scope) : Writer :=
  { core := s.coreOfWarp o.warp, agent := o.agent, warp := o.warp, clock := o.view.clock, turn := o.turn
    msg := sc.map fun c =>
      let i := instOf s c o.warp
      { size := 8, warp := o.warp, agent := o.agent, turn := o.turn, inst := i, rels := [⟨o.warp, [i], engView o⟩], view := engView o } }

/-- What the warp's operations in an engine queue, by its QFENCE bit, order once performed (R149). -/
def noteEngine (blk queue warp : Nat) (v : View) : Prog Unit :=
  let key := queue * 64 + warp % 64
  upd (.block blk fun b => { b with engViews := b.engViews.put key ((b.engViews.get {} key).join v) })

/-- Write one line for an engine: at once, or held under the number `hold`. -/
def engWrite (wr : Writer) (rmw held : Bool) (w seg hold : Nat) (room : Room) (line a : DWord) (loc : Loc) (d : Tab Byte) :
    Prog Unit :=
  match loc with
  | .spad b o => spadWrite wr rmw b (d.map fun e => (o / 128 * 128 + e.1, e.2))
  | .ring _ _ => .ret ()
  | loc =>
    if !held then writeLine wr rmw w a loc d
    else if room.early line then .bind (noteRelease w a) fun _ => writeLine wr rmw w a loc d
    else putHeld wr rmw w seg hold (.bytes line d wr.size)

/-- The lines in the memory of dies among some places, with the die. -/
def placeLines (ps : List (DWord × DWord × Loc)) : List (DWord × Nat) :=
  (ps.filterMap fun p => match p.2.2 with | .mem x => some (p.1, x.die) | _ => none).eraseDups

/-- Perform an engine's writes, line by line in increasing address order, each line as one event (R124): the lines written.
Those of a checked gang are held, unless they are performed `now`. Nothing is written when a cause or a wait is met. -/
def engStore (wr : Writer) (rmw now : Bool) (w seg hold : Nat) (ws : List WByte) : Prog (Except Stop (List LineOut)) :=
  letI := progMonad
  do
    let s ← st
    let lines := engLines s ws
    let r ← engPlaces w wr.turn { wr := true } (lines.map fun e => (e.1, e.2.1))
    let s ← st
    match r with
    | .error (c, a) => pure (.error (lateCause false c a))
    | .ok places =>
      let both := lines.zip places
      let held := s.checkedWarp w && !now
      match both.find? fun e => lineUnwritable s w e.1.2.1 e.2.2.2 e.1.2.2.length (!held) with
      | some e => pure (.error (.cause .integrity e.1.1))
      | none =>
        if places.any fun p => (match p.2.2 with | .mem x => unreachable s (s.coreOfWarp w) x.die | _ => false) then
          pure (.error .blocked)
        else do
        let room := if held then ladleRoom s w (placeLines places) else .go []
        if room = .stall then pure (.error .blocked)
        else do
          let ds := both.map fun e => (e.1.1, e.1.2.1, e.2.2.2, wholeBytes (oldLine s w e.1.2.1 e.2.2.2) e.1.2.2)
          forAll ds.zipIdx fun e => engWrite wr rmw held w seg (hold + e.2) room e.1.1 e.1.2.1 e.1.2.2.1 e.1.2.2.2
          pure (.ok (ds.map fun e => (e.1, e.2.2.2)))

/-- The bytes of a 64-bit word written at an address. -/
def wordBytes (a v : DWord) : List WByte := eltBytes 64 a false v.toNat

/-- Do a part of an operation, and note its packets to other devices (R149, R158). -/
def sending {α : Type} (k w : Nat) (p : Prog (Except Stop α)) : Prog (Except Stop α) :=
  letI := progMonad
  do
    let s ← st
    let r ← p
    let t ← st
    let new := (t.warp w).ctl.away.filter fun x => !(s.warp w).ctl.away.contains x
    whenP (!new.isEmpty) (upd (.op k fun o => { o with away := new ++ o.away }))
    pure r

/-- Packets of a list are not yet acknowledged. -/
def underWay (s : State) (w : Nat) (ps : List (Nat × Bool × Nat)) : Bool := ps.any fun p => (s.warp w).ctl.away.contains p

/-- A release of an operation waits until its own writes are performed, and at .dm until those of its warp before it are, at
other devices too (R116, R158). -/
def releaseWaits (s : State) (o : Op) (sc : Scope) : Bool :=
  underWay s o.warp o.away || (decide (9 ≤ sc.code) && underWay s o.warp o.before)

/-- An operation that has written its payload waits for its acknowledgements before it writes the stamp or leaves the queue. -/
def endWaits (s : State) (o : Op) (stamp : Option Stamp) : Bool :=
  match stamp with | some t => releaseWaits s o t.sc | none => underWay s o.warp o.away

/-- Write an operation's stamp (R116), if there is one: the lines written. -/
def engStamp (o : Op) (now : Bool) (hold : Nat) (t : Option Stamp) : Prog (Except Stop (List LineOut)) :=
  match t with
  | none => .ret (.ok [])
  | some t => .get fun s => engStore (o.writer s (some t.sc)) false now o.warp o.seg hold (wordBytes t.addr t.val)

/-! ### Checks at issue (R300) -/

/-- Check the pieces an engine will read: the first cause. -/
def checkReads (w : Nat) (ps : List (DWord × Nat)) : Prog (Option (Cause × DWord)) :=
  letI := progMonad
  do
    let s ← st
    let r ← engPlaces w 0 { rd := true } (firstOfLines s (ps.map (·.1)))
    let s ← st
    match r with
    | .error e => pure (some e)
    | .ok places =>
      let lines := places.map fun p => (p.1, match p.2.2 with
        | .mem _ => lineSeen s w p.2.1 p.2.2
        | _ => List.replicate 128 (some 0))
      pure ((ps.find? fun p => (pieceOf s lines p.1 p.2).isNone).map fun p => (.integrity, lineAddr s p.1))

/-- Check the bytes an engine will write: the first cause. -/
def checkWrites (w : Nat) (winOk : Bool) (ws : List WByte) : Prog (Option (Cause × DWord)) :=
  letI := progMonad
  do
    let s ← st
    let lines := engLines s ws
    let r ← engPlaces w 0 { wr := true, winOk } (lines.map fun e => (e.1, e.2.1))
    let s ← st
    match r with
    | .error e => pure (some e)
    | .ok places =>
      pure (((lines.zip places).find? fun e => lineUnwritable s w e.1.2.1 e.2.2.2 e.1.2.2.length false).map
        fun e => (.integrity, e.1.1))

/-- Check a word of 8 bytes that the device will read, or write as a strong access: a stamp (R116), or a version word (R112,
R155, R156). Neither lies in a window: a stamp by R95, a version word because it has a home (log entry 72). -/
def checkWord (w : Nat) (a : DWord) (rd wr : Bool) : Prog (Option (Cause × DWord)) :=
  letI := progMonad
  do
    let s ← st
    let r ← locate (s.whoWarp w) a 8 { rd, wr, winOk := false }
    let s ← st
    match r with
    | .error e => pure (some e)
    | .ok loc => pure (if lineUnwritable s w a loc 8 false then some (.integrity, lineAddr s a)
        else if wr && mixedSize s w a loc 8 then some (.mixsize, a) else none)

/-- The first cause of some checks. -/
def firstCause : List (Prog (Option (Cause × DWord))) → Prog (Option (Cause × DWord))
  | [] => .ret none
  | p :: t => .bind p fun r => match r with | some e => .ret (some e) | none => firstCause t

/-! ### Operations and queues -/

/-- Lines of a scratchpad written by an operation, as block·2^20 + line. -/
def spadLines (s : State) (w : Nat) (ws : List WByte) : List Nat :=
  (engLines s ws).filterMap fun e => if !inWindow e.1 then none else
    match locWindow s (s.whoWarp w) e.2.1 1 {} with
    | .ok (.spad b o) => some (b * 2 ^ 20 + o / 128)
    | _ => none

/-- Clear the presence bits of lines an operation writes (R98). -/
def clearLines (ls : List Nat) : Prog Unit :=
  forAll ls fun k => upd (.block (k / 2 ^ 20) fun b =>
    let l := k % 2 ^ 20
    { b with busy := Tab.set 0 b.busy l (b.busy.get 0 l + 1), unset := Tab.set 0 b.unset l (b.unset.get 0 l / 2 * 2 + 1) })

/-- The operation no longer writes its lines; their presence bits are set by PRESENCE_SET (R98). -/
def leaveLines (ls : List Nat) : Prog Unit :=
  forAll ls fun k => upd (.block (k / 2 ^ 20) fun b =>
    let l := k % 2 ^ 20
    { b with busy := Tab.set 0 b.busy l (b.busy.get 0 l - 1) })

/-- Reserve hold numbers for an operation's writes at its issue (R173): the first of them, or 0. -/
def reserveHolds (w n : Nat) : Prog Nat :=
  .get fun s =>
    if s.checkedWarp w && s.isPrimary w && n != 0 then
      .bind (upd (.gang (s.gangOfWarp w) fun g => { g with nextHold := g.nextHold + n })) fun _ =>
        .ret (s.gang (s.gangOfWarp w)).nextHold
    else .ret 0

/-- Accept an operation into a queue of the warp's block. `lines` are the global lines its destination range covers
(R168), `stamps` the stamps it writes. -/
def acceptOp (w queue : Nat) (lanes : Mask) (kind : OpKind) (lines stamps : Nat) (spad : List Nat) (log : Option Nat) :
    Prog Unit :=
  letI := progMonad
  do
    let s ← st
    let view := s.relView w
    let k ← fresh
    let hold ← reserveHolds w (lines + stamps)
    countLines w lines
    clearLines spad
    upd (.op k fun _ =>
      { blk := blockOfWarp w, warp := w, queue, fpc := (s.warp w).ctl.pc, lanes, seg := (s.warp w).ctl.seg,
        kind, hold, lines := spad, issuedAt := s.time, turn := k, view, log, before := (s.warp w).ctl.away })

/-- The operation is the next of its queue (R120), and its queue runs. -/
def opHead (s : State) (k : Nat) : Bool :=
  let o := s.op k
  (s.ops.any fun e => e.1 == k) && !o.finished && !o.stopped
    && !(s.ops.any fun e => decide (e.1 < k) && e.2.blk == o.blk && e.2.queue == o.queue && !e.2.finished)

/-- Run an engine's attempt when it succeeds; otherwise nothing happens. -/
def whenDone (p : Prog (Except Stop Unit)) : Prog Unit :=
  .get fun s => match (p.run s).1 with
    | .ok _ => .bind p fun _ => .ret ()
    | .error _ => .ret ()

/-- An operation has written everything: its lines lose it, and it goes when no presence bit of it is left to set. -/
def opPerformed (k : Nat) : Prog Unit :=
  .get fun s =>
    let o := s.op k
    let v := engView o
    .bind (leaveLines o.lines) fun _ => .bind (noteEngine o.blk o.queue o.warp v) fun _ =>
      if o.lines.isEmpty then upd (.opDrop k) else upd (.op k fun o => { o with finished := true })

/-- Check that a warp's block holds the ring of its core (R306). -/
def holdsRing (s : State) (w : Nat) : Bool := (s.ring (s.coreOfWarp w)).holder == some (blockOfWarp w)
/-- The base of the ring window (R306). -/
def ringBase : DWord := 0xFFF0080000000000

end Sys2Proof.Machine
end

