-- ==== Sys2Proof/Machine/Tile.lean ====
section
/-!
DEFINITION. Copies: TCOPY, TCOPYM, TSTORE, SLOTRET and GATH, and how an engine performs them (R155, R156, R315 to R320).
-/
namespace Sys2Proof.Machine

/-- A copy's descriptor as read at issue (R315). -/
structure CopyDesc where
  map : TMap
  c : List Nat
  h : List Nat
  dst : DWord
  stamp : Option Stamp

/-- Scope of a descriptor's stamp: SC 4 to 9 when one is needed, else 0 (R316). -/
def scAgrees (need : Bool) (sc : Option Scope) : Bool :=
  match sc with | none => !need | some x => need && decide (4 ≤ x.code)

/-- Read a copy's descriptor and map: the map first (R113, with R111 and R112), then the extension word (R316). `ver`
asks for an aon map; `aonSc` says that aon needs a scope. S[a+7] is 16-byte aligned, as a TSTORE's source too: R111 says so of
the destination, and R316 has its dense layout apply to every side (log entry 72). -/
def copyDesc (w : Nat) (a : SReg) (sc : Option Scope) (ver aonSc : Bool) : Prog (Except Res CopyDesc) :=
  .get fun s =>
    let d (i : Nat) : DWord := s.sreg w (a.val + i)
    .bind (readMap w (d 0)) fun r => .ret (match r with
      | .error e => .error e
      | .ok m =>
        let n := m.dims.length
        let c := (List.range 10).map fun i => field (d (1 + i / 2)) (32 * (i % 2)) 32
        let h := (List.range 4).map fun i => field (d 6) (8 * i) 8
        let stamp := d 8
        let badTap (e : TWalk × Nat) : Bool := !e.1.on && h.getD e.2 0 != 0
        if !f4Ok m c h || !aonOk m c || (d 7).toNat % 16 ≠ 0 then .error (faultAt .protect (d 0))
        else if field (d 6) 32 32 ≠ 0 ∨ (c.drop n).any (fun x => x != 0) ∨ m.walks.zipIdx.any badTap
            ∨ !scAgrees (stamp != 0 || ver || (aonSc && m.aon)) sc ∨ (ver ∧ !m.aon) then .error (faultOf .illop)
        else .ok { map := m, c, h, dst := d 7, stamp := if stamp = 0 then none else some ⟨stamp, d 9, sc.getD .gg⟩ })

/-- An address in the dense box. -/
def denseAddr (dst : DWord) (e : Elt) : DWord := dst + BitVec.ofNat 64 (e.dst / 2)
def denseHi (e : Elt) : Bool := e.dst % 2 == 1

/-- Elements read through the map, and written. -/
def insideElts (els : List Elt) : List Elt := els.filter fun e => e.st == .inside
def writtenElts (els : List Elt) : List Elt := els.filter fun e => e.st != .clipped

/-- What a copy of values to a dense box writes. -/
def denseWrites (m : TMap) (dst : DWord) (vals : List (Elt × Nat)) : List WByte :=
  vals.flatMap fun e => eltBytes m.ebits (denseAddr dst e.1) (denseHi e.1) e.2

/-- The bytes a dense box's elements cover, with no value yet. -/
def denseMask (m : TMap) (dst : DWord) (els : List Elt) : List WByte := denseWrites m dst (els.map fun e => (e, 0))

/-- The cause of a dense scratchpad range at issue: R273's rows for the window, and the range's end (R98, R316). -/
def spadRange (s : State) (w : Nat) (a : DWord) (n : Nat) : Option Cause :=
  if field a 40 5 > 4 then some .protect
  else match locWindow s (s.whoWarp w) a n {} with
    | .error c => some c
    | .ok _ => none

/-- Lines a range of bytes covers. -/
def rangeLines (a : DWord) (n : Nat) : Nat := if n = 0 then 0 else (a.toNat + n - 1) / 128 + 1 - a.toNat / 128

/-- Turn a cause at issue into its fault: every active lane, nothing performed (R300). -/
def causeRes (e : Cause × DWord) : Res := faultAt e.1 e.2

/-- The word checks a stamp and a version word need. -/
def wordChecks (w : Nat) (stamp : Option Stamp) (ver : Option DWord) (verWr : Bool) : List (Prog (Option (Cause × DWord))) :=
  List.append (match ver with | some a => [checkWord w a true verWr] | none => [])
    (match stamp with | some t => [checkWord w t.addr false true] | none => [])

/-- Reserve the record of a TCOPY.ver in the feed log (R169, R170): its place in the warp's log. A copy run waits until the
record is appended (R342). -/
def reserveLog (w bytes : Nat) : Prog (Except Res (Option Nat)) :=
  letI := progMonad
  do
    let s ← st
    let c := (s.warp w).ctl
    if !s.checkedWarp w then pure (.ok none)
    else if !s.isCopy w then do
      let ok ← logReady (s.gangOfWarp w) (8 + bytes)
      if !ok then do
        let r ← waitExtent w (8 + bytes)
        pure (.error r)
      else do
        logAppend w (8 + bytes) { warp := gangWarp w, issued := c.issued, bytes := 8 + bytes, ready := false } []
        pure (.ok (some c.logPos))
    else match s.nextRec w with
      | some r =>
        if r.resolves || !r.ready then pure (.error (noRecord s w))
        else do
          upd (.ctl w fun c => { c with logPos := c.logPos + 1 })
          joinView w r.view
          pure (.ok (some c.logPos))
      | none => pure (.error (.wait .record))

/-- The elements a copy reads lie outside the windows, and each can be read (R300, R316). -/
def sourceChecks (w : Nat) (m : TMap) (els : List Elt) : List (Prog (Option (Cause × DWord))) :=
  [.ret (((insideElts els).find? fun e => inWindow e.addr).map fun e => (.protect, e.addr)),
   checkReads w ((insideElts els).map fun e => (e.addr, m.ebytes))]

/-- The checks of TCOPY at issue, after its descriptor's (R300); `taken`: the box comes from the feed log, and nothing of the
source is accessed (R169). -/
def tcopyChecks (w : Nat) (o : Tcopy) (d : CopyDesc) (els : List Elt) (taken : Bool) : Prog (Option (Cause × DWord)) :=
  firstCause (List.append (if taken then [] else sourceChecks w d.map els)
    (checkWrites w true (denseMask d.map d.dst (writtenElts els)) ::
      wordChecks w d.stamp (if o.ver && !taken then some (verAddr d.map d.c) else none) false))

/-- TCOPY (R316, R317). -/
def execTcopy (o : Tcopy) (s : State) : Host.Outcome State Fault Refusal :=
  letI := progMonad
  next (issueU (.tcopy o) o.hd fun w => do
    let r ← copyDesc w o.a o.sc o.ver false
    match r with
    | .error e => pure e
    | .ok d => do
      let s ← st
      let m := d.map
      let els := boxElts m d.c d.h
      let win := inWindow d.dst
      let logged := o.ver && scopeWide (o.sc.getD .gg) && s.checkedWarp w
      match (if win then spadRange s w d.dst m.dense else none) with
      | some c => pure (causeRes (c, d.dst))
      | none =>
        if !win && decide (16 * 2 ^ 20 < m.dense) then pure (faultAt .protect d.dst)
        else do
          let c ← tcopyChecks w o d els (logged && s.isCopy w)
          match c with
          | some e => pure (causeRes e)
          | none =>
            let box := (m.dense + 127) / 128 * 128
            if logged && decide (65536 < 8 + box) then pure (faultAt .protect m.addr)
            else do
              let l ← (if logged then reserveLog w box else pure (.ok none))
              match l with
              | .error e => pure e
              | .ok log => do
                let s ← st
                acceptOp w o.q.val (s.m0 w) (.copy m d.c d.h d.dst d.stamp (if o.ver then some (o.sc.getD .gg) else none))
                  (if win then 0 else rangeLines d.dst m.dense) (if d.stamp.isSome then 1 else 0)
                  (spadLines s w (denseMask m d.dst (writtenElts els))) log
                pure .ok) s

/-- A line of a window is absent. -/
def anyAbsent (s : State) (w : Nat) (ws : List WByte) : Option Wait :=
  (engLines s ws).findSome? fun e => match locWindow s (s.whoWarp w) e.2.1 1 {} with
    | .ok (.spad b o) => if inWindow e.1 && absent s b (o / 128) then some (.line b (o / 128) e.2.1) else none
    | _ => none

/-- The values of a dense box's elements. -/
def denseVals (s : State) (m : TMap) (src : DWord) (lines : List (DWord × Line)) (els : List Elt) : List Nat :=
  els.map fun e => eltBits s lines m.ebits (denseAddr src e) (denseHi e)

/-- The checks of TSTORE at issue, after its descriptor's (R300). -/
def tstoreChecks (w : Nat) (d : CopyDesc) (els : List Elt) : Prog (Option (Cause × DWord)) :=
  firstCause (checkWrites w false (els.flatMap fun e => eltBytes d.map.ebits e.addr e.hi 0) ::
    wordChecks w d.stamp (if d.map.aon then some (verAddr d.map d.c) else none) true)

/-- TSTORE (R316, R317). Its destination range (R168) covers the lines of its inside elements; the version word and the stamp
are no part of it (log entry 72). A bound register is tried at issue, when the source is present (R115, R301). -/
def execTstore (o : Tstore) (s : State) : Host.Outcome State Fault Refusal :=
  letI := progMonad
  next (issueU (.tstore o) o.hd fun w => do
    let r ← copyDesc w o.a o.sc false true
    match r with
    | .error e => pure e
    | .ok d => do
      let s ← st
      let m := d.map
      let els := insideElts (boxElts m d.c d.h)
      if !inWindow d.dst then pure (faultAt .protect d.dst)
      else match spadRange s w d.dst m.dense with
      | some c => pure (causeRes (c, d.dst))
      | none => do
        let ws := els.flatMap fun e => eltBytes m.ebits e.addr e.hi 0
        let c ← tstoreChecks w d els
        match c with
        | some e => pure (causeRes e)
        | none => do
          let s ← st
          let src := denseMask m d.dst els
          let accept : Prog Res := .bind (acceptOp w o.q.val (s.m0 w) (.store m d.c d.h d.dst d.stamp (if m.aon then o.sc else none))
            (engLines s ws).length ((if d.stamp.isSome then 1 else 0) + (if m.aon then 1 else 0)) [] none) fun _ => .ret .ok
          if m.bnd && (s.boundOf w m).action != 0 then
            match anyAbsent s w src with
            | some k => pure (.wait k)
            | none => do
              let f ← engFetch w 0 true (els.map fun e => (denseAddr d.dst e, m.ebytes))
              let vals := match f with | .ok lines => denseVals s m d.dst lines els | .error _ => []
              match (boundApply (s.boundOf w m) m 127 ((els.zip vals).map fun e => (e.1.addr, e.2, false))).2.2 with
              | some a => pure (faultAt .bounds a)
              | none => accept
          else accept) s

/-- The blocks of a mask of the gang, and the window address of an offset in one (R94, R318). -/
def maskBlocks (m : BitVec 4) : List Nat := (List.range 4).filter fun b => bitAt m b
def peerAddr (b off : Nat) : DWord := BitVec.ofNat 64 (0x1FFE * 2 ^ 51 + (b + 1) * 2 ^ 40 + off)

/-- What a TCOPYM writes in every receiver. -/
def mcastMask (m : TMap) (off : Nat) (mask : BitVec 4) (els : List Elt) : List WByte :=
  (maskBlocks mask).flatMap fun b => denseMask m (peerAddr b off) els

/-- The checks of TCOPYM at issue, after those of its receivers (R300, R318): the bytes it reads, those it writes in every
receiver, and its stamp. -/
def tcopymChecks (w : Nat) (d : CopyDesc) (off : Nat) (mask : BitVec 4) (els : List Elt) : Prog (Option (Cause × DWord)) :=
  firstCause (List.append (sourceChecks w d.map els)
    (checkWrites w true (mcastMask d.map off mask (writtenElts els)) :: wordChecks w d.stamp none false))

/-- TCOPYM (R117, R318). -/
def execTcopym (o : Tcopym) (s : State) : Host.Outcome State Fault Refusal :=
  letI := progMonad
  next (issueU (.tcopym o) o.hd fun w => do
    let r ← copyDesc w o.a o.sc false false
    match r with
    | .error e => pure e
    | .ok d => do
      let s ← st
      let m := d.map
      let me := (s.block (blockOfWarp w)).idx
      let run := runOfWarp w
      let gsize := (s.runOf run).cores.length
      let off := field d.dst 0 40
      let els := boxElts m d.c d.h
      if !inWindow d.dst || field d.dst 40 11 != 0 || o.mask = 0 || (maskBlocks o.mask).any fun b => decide (gsize ≤ b) then
        pure (faultAt .protect d.dst)
      else
        let peers := (maskBlocks o.mask).map fun b => (b, run * 4 + b)
        match peers.find? fun b => decide ((s.block b.2).spadSize < off + m.dense) with
        | some b => pure (faultAt .spadbound (peerAddr b.1 off))
        | none => match peers.find? fun b => (s.block b.2).retired with
          | some b => pure (faultAt .peergone (peerAddr b.1 off))
          | none => do
            let c ← tcopymChecks w d off o.mask els
            match c with
            | some e => pure (causeRes e)
            | none =>
              let others := (maskBlocks o.mask).filter fun b => b != me
              let used (b : Nat) : Nat := (s.block (blockOfWarp w)).used.get 0 b
              if others.any fun b => used b == 15 then pure (.wait (.slots (o.mask &&& ~~~(BitVec.ofNat 4 (2 ^ me)))))
              else do
                forAll others fun b => upd (.block (blockOfWarp w) fun x => { x with used := Tab.set 0 x.used b (x.used.get 0 b + 1) })
                let s ← st
                acceptOp w o.q.val (s.m0 w) (.mcast m d.c d.h (BitVec.ofNat 64 off) o.mask d.stamp) 0
                  (if d.stamp.isSome then 1 else 0) (spadLines s w (mcastMask m off o.mask (writtenElts els))) none
                upd (.op s.seqNo fun x => { x with
                  view := (s.block (blockOfWarp w)).slotViews.foldl (fun v e => v.join e.2) x.view })
                pure .ok) s

/-- SLOTRET (R117, R319): the senders' counters for this block rise, to 15 at most; a release at .gg to what they send later. -/
def execSlotret (o : Slotret) (s : State) : Host.Outcome State Fault Refusal :=
  letI := progMonad
  next (issueU (.slotret o) o.hd fun w => do
    let s ← st
    let me := (s.block (blockOfWarp w)).idx
    let run := runOfWarp w
    let gsize := (s.runOf run).cores.length
    if (maskBlocks o.mask).any fun b => b == me || decide (gsize ≤ b) then pure (faultOf .illop)
    else do
      releaseFence w .gg
      forAll (maskBlocks o.mask) fun b => upd (.block (run * 4 + b) fun x => { x with
        used := Tab.set 0 x.used me (x.used.get 0 me - 1)
        slotViews := x.slotViews.put me ((x.slotViews.get {} me).join (s.relView w)) })
      pure .ok) s

/-- The elements of one lane's row of a GATH (R320). -/
def gathElts (m : TMap) (c0 lane row : Nat) : List Elt :=
  let d := m.dims.headD ⟨0, 0, 0⟩
  (List.range d.box).map fun j =>
    let p := mapPos m [c0, row] [] [j, 0]
    mkElt p.1 p.2 (lane * (2 * m.pitch) + j * m.ebits / 4)

/-- The first cause of each lane of a GATH: in the row of the window it writes, in the elements it reads, and in those it
writes (R300, R320). -/
def gathBad (w : Nat) (m : TMap) (c0 : Nat) (dst : DWord) (rows : List (Nat × Nat)) : Prog (List Bad) :=
  letI := progMonad
  do
    let s ← st
    let rs ← mapAll rows fun e => do
      let els := gathElts m c0 e.1 e.2
      let row := dst + BitVec.ofNat 64 (e.1 * m.pitch)
      let r ← firstCause (.ret ((spadRange s w row m.pitch).map fun c => (c, row)) :: List.append (sourceChecks w m els) [checkWrites w true (denseMask m dst (writtenElts els))])
      pure (r.map fun x => (e.1, x.1, x.2))
    pure (rs.filterMap id)

/-- GATH (R320). -/
def execGath (o : Gath) (s : State) : Host.Outcome State Fault Refusal :=
  letI := progMonad
  next (issueV (.gath o) o.hd fun w ls => do
    let s ← st
    let d (i : Nat) : DWord := s.sreg w (o.a.val + i)
    let r ← readMap w (d 0)
    match r with
    | .error e => pure e
    | .ok m => do
      let s ← st
      let c0 := field (d 1) 0 32
      let dst := d 2
      let els := ls.flatMap fun l => gathElts m c0 l (s.vreg w o.b.val l).toNat
      if m.dims.length ≠ 2 ∨ m.walks.any (fun t => t.on) ∨ m.aon ∨ !f4Ok m [c0, 0] [] ∨ dst.toNat % 16 ≠ 0 then
        pure (faultAt .protect (d 0))
      else if field (d 1) 32 32 ≠ 0 then pure (faultOf .illop)
      else if !inWindow dst then pure (faultAt .protect dst)
      else do
        let bad ← gathBad w m c0 dst (ls.map fun l => (l, (s.vreg w o.b.val l).toNat))
        if !bad.isEmpty then pure (causeRes (worstBad bad).2)
        else do
          let s ← st
          acceptOp w (if o.q then 5 else 4) (s.m0 w) (.gath m c0 dst (ls.map fun l => (l, (s.vreg w o.b.val l).toNat))) 0 0
            (spadLines s w (denseMask m dst (writtenElts els))) none
          pure .ok) s

/-! ### How the engines perform them -/

/-- Values of the elements: read through the map, zero for a pad. -/
def eltVals (s : State) (m : TMap) (lines : List (DWord × Line)) (els : List Elt) : List (Elt × Nat) :=
  els.map fun e => (e, if e.st = .inside then eltBits s lines m.ebits e.addr e.hi else 0)

/-- Write the stamp after a payload that is performed or held (R116), add the CRC of all the lines written, and leave the
queue (R120, R167); while other devices have not acknowledged the payload, wait. -/
def endOp (k : Nat) (o : Op) (now : Bool) (hold : Nat) (ds : List LineOut) (stamp : Option Stamp) : Prog (Except Stop Unit) :=
  letI := progMonad
  do
    let s ← st
    if endWaits s (s.op k) stamp then do
      upd (.op k fun o => { o with wrote := ds, sent := some hold })
      pure (if o.sent.isSome then .error .blocked else .ok ())
    else do
      let r ← engStamp o now hold stamp
      match r with
      | .error e => pure (.error e)
      | .ok last => do
        addEngSig o.warp o.seg (ds ++ last)
        opPerformed k
        pure (.ok ())

/-- The part of a payload that is written next: all that is left; or, of more than 4 KiB, 4 KiB, when a free value says so
(R384). The answer says whether it is the last. -/
def nextChunk (o : Op) (whole : Bool) (ws : List WByte) : Prog (List WByte × Bool) :=
  letI := progMonad
  do
    let s ← st
    let left := ((engLines s ws).drop o.wrote.length).map (·.1)
    if o.wrote.isEmpty && (whole || decide (left.length ≤ 32)) then pure (ws, true)
    else do
      let f ← (if left.length ≤ 32 then pure 0 else freeVal)
      let take := if bitAt f 0 then left.take 32 else left
      pure (ws.filter fun b => take.contains (lineAddr s b.1), !bitAt f 0)

/-- Write a payload, `whole` or in parts, and then the stamp. -/
def payload (k : Nat) (o : Op) (whole : Bool) (ws : List WByte) (stamp : Option Stamp) : Prog (Except Stop Unit) :=
  letI := progMonad
  do
    let s ← st
    let n := ((engLines s ws).filter fun e => !inWindow e.1).length
    let (part, last) ← nextChunk o whole ws
    let r ← sending k o.warp (engStore (o.writer s none) false false o.warp o.seg (o.hold + o.wrote.length) part)
    match r with
    | .error e => pure (.error e)
    | .ok ds =>
      if last then endOp k o false (o.hold + n) (o.wrote ++ ds) stamp
      else do
        upd (.op k fun o => { o with wrote := o.wrote ++ ds })
        pure (.ok ())

/-! ### Version words (R155, R156) -/

/-- Read a tile's version word. -/
def verRead (o : Op) (va : DWord) : Prog (Except Stop DWord) :=
  .bind (engFetch o.warp o.turn false [(va, 8)]) fun r => .get fun s => .ret (match r with
    | .error e => .error e
    | .ok lines => .ok (BitVec.ofNat 64 (eltBits s lines 64 va false)))

/-- The acquire of a version word by an operation: it orders what the releases that the word carries order. -/
def verAcquire (k : Nat) (o : Op) (va : DWord) (sc : Scope) : Prog Unit :=
  letI := progMonad
  do
    let s ← st
    let r ← locate { s.whoWarp o.warp with issued := o.turn } va 8 { rd := true }
    let s ← st
    match r with
    | .error _ => pure ()
    | .ok loc =>
      let rels := (accMsgs s o.warp 8 ⟨0, va, loc⟩).flatMap (relsFor s o.warp sc)
      upd (.op k fun o => { o with view := rels.foldl (fun v r => v.join r.view) o.view })

/-- Add 1 to a version word that reads `v`, as one read-modify-write at its home, a release. Another device does it there: when
the word has not changed since it was read, or, where the operation has taken its tile (`own`), whatever it holds. -/
def verAdd (k : Nat) (o : Op) (va v : DWord) (sc : Scope) (own : Bool) : Prog (Except Stop Unit) :=
  letI := progMonad
  do
    let s ← st
    let r ← locate { s.whoWarp o.warp with issued := o.turn } va 8 { rd := true, wr := true }
    let s ← st
    match r with
    | .ok .remote => do
      let op : AtomOp := if own then .i .add .b64 else .i .cas .b64
      let r ← sending k o.warp (.bind (sendFor o.warp (field va 51 13) (.atom (s.worldOfWarp o.warp) (s.asidOfWarp o.warp) va op
        (if own then 1 else (v + 1).setWidth 128) (v.setWidth 128) sc true)) fun _ => .ret (.ok ()))
      pure r
    | _ => do
      let r ← engStore (o.writer s (some sc)) true true o.warp o.seg 0 (wordBytes va (v + 1))
      pure (match r with | .error e => .error e | .ok _ => .ok ())

/-- The record of an operation in its warp's log. -/
def opRec (s : State) (o : Op) : Option LogRec :=
  match o.log with
  | some i => ((s.gang (s.gangOfWarp o.warp)).logOf (gangWarp o.warp))[i]?
  | none => none

/-- Write the box of a TCOPY.ver in its record's bytes, line by line (R169, R170). -/
def logBox (s : State) (o : Op) (box : List WByte) : Prog Unit :=
  match opRec s o with
  | none => .ret ()
  | some r =>
    let t : Tab Byte := box.foldl (fun t b => Tab.put t b.1.toNat ((Tab.get (0 : Byte) t b.1.toNat &&& ~~~b.2.1) ||| b.2.2)) []
    logWrite (s.gangOfWarp o.warp) r.offset ((List.range (r.bytes - 8)).map fun i => Tab.get (0 : Byte) t i)

/-- The page of an operation's record, if it has one, can be written (R162). -/
def boxMapped (o : Op) : Prog Bool :=
  .get fun s => match opRec s o with
    | some r => logMapped (s.gangOfWarp o.warp) r.offset
    | none => .ret true

/-- TCOPY (R156, R317): what it reads, from memory or from the log. A record whose operation the primary abandoned delivers
nothing. -/
def copyAttempt (k : Nat) (o : Op) (m : TMap) (c h : List Nat) (dst : DWord) (stamp : Option Stamp) (ver : Option Scope) :
    Prog (Except Stop Unit) :=
  letI := progMonad
  do
    let s ← st
    let els := writtenElts (boxElts m c h)
    let done := match opRec s o with | some r => if r.ready then some r else none | none => none
    match done, s.isCopy o.warp && o.log.isSome with
    | some r, _ =>
      if r.res.isSome then do
        opPerformed k
        pure (.ok ())
      else payload k o true (denseWrites m dst (els.map fun e =>
        (e, ((r.data.find? fun d => d / 2 ^ 128 == e.dst).map fun d => d % 2 ^ 128).getD 0))) stamp
    | none, true => pure (.error .blocked)
    | none, false => do
      let ok ← boxMapped o
      let va := verAddr m c
      let pieces_ := List.append (if ver.isSome then [(va, 8)] else []) ((insideElts els).map fun e => (e.addr, m.ebytes))
      let r ← (if ok then engFetch o.warp o.turn false pieces_ else pure (.error .blocked))
      let s ← st
      match r with
      | .error e => pure (.error e)
      | .ok lines =>
        if ver.isSome && eltBits s lines 64 va false % 2 == 1 then pure (.error .blocked)
        else do
          (match ver with
            | some sc => verAcquire k o va sc
            | none => pure ())
          let s ← st
          let vals := eltVals s m lines els
          let r ← payload k (s.op k) ver.isSome (denseWrites m dst vals) stamp
          (match r, o.log with
            | .ok _, some i => do
              upd (.gang (s.gangOfWarp o.warp) fun g => { g with
                log := setRec (gangWarp o.warp) (fun r => { r with ready := true, data := vals.map fun e => e.1.dst * 2 ^ 128 + e.2 }) i g.log })
              logBox s o (denseWrites m 0 vals)
            | _, _ => pure ())
          pure r

/-- The elements of a TCOPYM as they were read, or read now. -/
def mcastRead (k : Nat) (o : Op) (m : TMap) (els : List Elt) : Prog (Except Stop (List Nat)) :=
  letI := progMonad
  match o.read with
  | some vs => pure (.ok vs)
  | none => do
    let r ← engFetch o.warp o.turn false ((insideElts els).map fun e => (e.addr, m.ebytes))
    let s ← st
    match r with
    | .error e => pure (.error e)
    | .ok lines => do
      let vs := (eltVals s m lines els).map (·.2)
      upd (.op k fun o => { o with read := some vs })
      pure (.ok vs)

/-- TCOPYM (R318): the source is read once, and written to the receivers from what was read. -/
def mcastAttempt (k : Nat) (o : Op) (m : TMap) (c h : List Nat) (off : Nat) (mask : BitVec 4) (stamp : Option Stamp) :
    Prog (Except Stop Unit) :=
  letI := progMonad
  do
    let els := writtenElts (boxElts m c h)
    let r ← mcastRead k o m els
    match r with
    | .error e => pure (.error e)
    | .ok vs => payload k o false ((maskBlocks mask).flatMap fun b => denseWrites m (peerAddr b off) (els.zip vs)) stamp

/-- GATH (R320). -/
def gathAttempt (k : Nat) (o : Op) (m : TMap) (c0 : Nat) (dst : DWord) (rows : Tab Nat) : Prog (Except Stop Unit) :=
  letI := progMonad
  do
    let els := writtenElts (rows.flatMap fun e => gathElts m c0 e.1 e.2)
    let r ← engFetch o.warp o.turn false ((insideElts els).map fun e => (e.addr, m.ebytes))
    let s ← st
    match r with
    | .error e => pure (.error e)
    | .ok lines => payload k o false (denseWrites m dst (eltVals s m lines els)) none

/-- Raise the grid's bound bit (R45, R115); a copy run has no effect outside itself (R164). -/
def flagBound (w : Nat) (b : Bool) : Prog Unit :=
  .get fun s => whenP (b && !s.isCopy w) (upd (.grid (s.gridOfWarp w) fun g => { g with boundBit := true }))

/-- Step 1 of R155 by an operation: an even version word rises by one, as an acq_rel read-modify-write; of an odd one only the
value is noted. -/
def aonStep (k : Nat) (o : Op) (va : DWord) (sc : Scope) : Prog (Except Stop Unit) :=
  letI := progMonad
  do
    let r ← verRead o va
    match r with
    | .error e => pure (.error e)
    | .ok v =>
      if v.toNat % 2 = 1 then do
        upd (.op k fun o => { o with vword := v })
        pure (.ok ())
      else do
        verAcquire k o va sc
        let s ← st
        let r ← (if releaseWaits s (s.op k) sc then pure (.error .blocked) else verAdd k (s.op k) va v sc false)
        match r with
        | .error e => pure (.error e)
        | .ok _ => do
          upd (.op k fun o => { o with vword := v + 1, phase := 1 })
          pure (.ok ())

/-- The line of a version word as a TSTORE's signature holds it (R167): its address and mask, and for its data, which is known
only once the tile pours, a value that the address gives (log entry 71). -/
def verLine (s : State) (va : DWord) : LineOut :=
  (lineAddr s va, bytesAt (va.toNat % 128) 8 (Config.verData va.toNat).toNat)

/-- Step 3 of R155, when the tile's bytes are performed: the second add, and the stamp after it (R317). In a checked gang this is
a write under RELEASE: each line counts (R177). -/
def aonEnd (k : Nat) (va : DWord) (sc : Scope) (stamp : Option Stamp) : Prog (Except Stop Unit) :=
  letI := progMonad
  do
    let s ← st
    let o := s.op k
    if releaseWaits s o sc then pure (.error .blocked)
    else do
      let r ← verRead o va
      match r with
      | .error e => pure (.error e)
      | .ok v => do
        let r ← verAdd k o va v sc true
        match r with
        | .error e => pure (.error e)
        | .ok _ => do
          upd (.op k fun o => { o with phase := 3 })
          let all := verLine s va :: o.wrote
          whenP (s.checkedWarp o.warp) (forAll all fun d => noteRelease o.warp d.1)
          endOp k o true 0 all stamp

/-- Steps 2 and 3 of R155: the tile's bytes, and what comes when all of them are performed. -/
def aonFinish (k : Nat) (o : Op) (va : DWord) (sc : Scope) (ws : List WByte) (stamp : Option Stamp) : Prog (Except Stop Unit) :=
  letI := progMonad
  do
    let s ← st
    let (part, last) ← nextChunk o false ws
    let r ← sending k o.warp (engStore (o.writer s none) false true o.warp o.seg 0 part)
    match r with
    | .error e => pure (.error e)
    | .ok ds => do
      upd (.op k fun o => { o with wrote := o.wrote ++ ds, phase := if last then 2 else 1 })
      let s ← st
      if last && !releaseWaits s (s.op k) sc then aonEnd k va sc stamp else pure (.ok ())

/-- A TSTORE through an aon map in a checked gang: one held write that pours as R155's steps (R174), or, under RELEASE in a
full Ladle set, step 1 at once (R177). -/
def aonHold (k : Nat) (o : Op) (va : DWord) (sc : Scope) (ws : List WByte) (stamp : Option Stamp) : Prog (Except Stop Unit) :=
  letI := progMonad
  do
    let s ← st
    let w := o.warp
    let lines := engLines s ws
    let r ← engPlaces w o.turn { wr := true } (lines.map fun e => (e.1, e.2.1))
    match r with
    | .error (c, a) => pure (.error (lateCause false c a))
    | .ok places => do
      let home := match ownAddr s va with | some (d, _) => [(lineAddr s va, d)] | none => []
      let room := ladleRoom s w (placeLines places ++ home)
      if room = .stall then pure (.error .blocked)
      else if room ≠ .go [] then aonStep k o va sc
      else do
        let ds : List LineOut := lines.map fun e => (e.1, wholeBytes (List.replicate 128 (some 0)) e.2.2)
        putHeld (o.writer s (some sc)) true w o.seg o.hold (.tile va ds)
        endOp k o false (o.hold + lines.length + 1) (verLine s va :: ds) stamp

/-- TSTORE (R155, R317): the source, the bound register, and the payload. -/
def storeAttempt (k : Nat) (o : Op) (m : TMap) (c h : List Nat) (src : DWord) (stamp : Option Stamp) (sc : Option Scope) :
    Prog (Except Stop Unit) :=
  letI := progMonad
  do
    let s ← st
    let w := o.warp
    let els := insideElts (boxElts m c h)
    let va := verAddr m c
    let sc := sc.getD .gg
    let f ← engFetch w o.turn false (els.map fun e => (denseAddr src e, m.ebytes))
    let s1 ← st
    match f with
    | .error e => pure (.error e)
    | .ok lines =>
      let vals := denseVals s1 m src lines els
      let b := boundApply (s.boundOf w m) m 127 ((els.zip vals).map fun e => (e.1.addr, e.2, false))
      match b.2.2 with
      | some a => pure (.error (.cause .bounds a))
      | none => do
        let ws := (settleElts (els.zip b.1)).flatMap fun e => eltBytes m.ebits e.1.addr e.1.hi e.2
        if m.aon && o.phase == 0 && !s.checkedWarp w then aonStep k o va sc
        else do
          flagBound w b.2.1
          if !m.aon then payload k o false ws stamp
          else if o.phase == 0 then aonHold k o va sc ws stamp
          else aonFinish k o va sc ws stamp

/-- The stamp of a copy engine's operation. -/
def OpKind.stamp : OpKind → Option Stamp
  | .copy _ _ _ _ t _ | .store _ _ _ _ t _ | .mcast _ _ _ _ _ t => t
  | .epi e => e.stamp
  | _ => none

/-- The next thing a copy engine does for an operation; the matrix unit's and COLL's operations are not its. One whose payload is
written ends once other devices have acknowledged it (R116). -/
def engineAttempt (k : Nat) : Prog (Except Stop Unit) :=
  .get fun s =>
    let o := s.op k
    if !opHead s k then .ret (.error .blocked)
    else match o.sent with
    | some hold => endOp k o (o.phase == 3) hold o.wrote o.kind.stamp
    | none => match o.kind with
      | .copy m c h dst stamp ver => copyAttempt k o m c h dst stamp ver
      | .store m c h src stamp sc =>
        if o.phase = 2 then aonEnd k (verAddr m c) (sc.getD .gg) stamp else storeAttempt k o m c h src stamp sc
      | .mcast m c h off mask stamp => mcastAttempt k o m c h off.toNat mask stamp
      | .gath m c0 dst rows => gathAttempt k o m c0 dst rows
      | .elem _ esize e => payload k o true (eltBytes (8 * esize) e.addr false e.val.toNat) none
      | .mloop _ | .epi _ | .coll _ => .ret (.error .blocked)

end Sys2Proof.Machine
end

