-- ==== Sys2Proof/Machine/Matrix.lean ====
section
/-!
DEFINITION. The result ring and the matrix unit: RINIT, RWAIT, MLOOP, MSTEP and their steps, EPI (R83 to R89, R305 to
R314).
-/
namespace Sys2Proof.Machine

/-! ### Formats (R86, R87, R308) -/

def mfBits : MF → Nat
  | .f16 | .bf16 => 16
  | .f32 => 32
  | .f64 => 64
  | .f4 => 4
  | .f8a | .f8b | .t8 | .i8 => 8
/-- K of a step. -/
def mfK : MF → Nat
  | .f16 | .bf16 => 16
  | .f32 => 4
  | .f64 => 2
  | .f8a | .f8b | .t8 | .f4 | .i8 => 32
/-- The exact value of an element with its scale code (R78). -/
def mfVal (f : MF) (scale bits : Nat) : FVal :=
  let nv (t : NT) : FVal := let v := ntVal t bits; .fin v.1 v.2.1 (v.2.2 + (scale : Int) - 127)
  match f with
  | .f8a => nv .f8a
  | .f8b => nv .f8b
  | .t8 => nv .t8
  | .f4 => nv .f4
  | .i8 => nv .i8
  | .f16 => fVal .f16 bits
  | .bf16 => fVal .bf16 bits
  | .f32 => fVal .f32 bits
  | .f64 => fVal .f64 bits

/-! ### Step arithmetic (R86, R87) -/

/-- An exact sum in the making: NaN, +∞, −∞, and a finite part v·2^e. -/
structure Sum where
  nan : Bool := false
  pinf : Bool := false
  ninf : Bool := false
  v : Int := 0
  e : Int := 0

def Sum.add (s : Sum) (x : Option FVal) : Sum :=
  match x with
  | none | some (.nan _) => { s with nan := true }
  | some (.inf n) => if n then { s with ninf := true } else { s with pinf := true }
  | some (.fin n m e) =>
    let q := min s.e e
    { s with v := scaleTo s.v s.e q + scaleTo (signedMag n m) e q, e := q }

/-- The exact sum of products; none is NaN. -/
def dot (ps : List (FVal × FVal)) : Option FVal :=
  let s := ps.foldl (fun s p => s.add (if isNan p.1 || isNan p.2 then none else mulVal p.1 p.2)) ({} : Sum)
  if s.nan || (s.pinf && s.ninf) then none
  else if s.pinf then some (.inf false)
  else if s.ninf then some (.inf true)
  else some (.fin (decide (s.v < 0)) s.v.natAbs s.e)

/-- Round a value to a format, ties to even; NaN is the default NaN. -/
def roundF (t : FT) (v : FVal) : Nat :=
  match v with
  | .nan _ => fDefNan t
  | .inf n => fInf t n
  | .fin n m e => (roundVal t .rne false (signedMag n m) e n).1

/-- acc := Round(acc + G, f32, RNE); an exact zero is not added (R86). -/
def accAdd (acc : Nat) (g : Option FVal) : Nat :=
  match g with
  | none => fDefNan .f32
  | some (.fin n m e) => if m = 0 then acc else
      if isNan (fVal .f32 acc) then fDefNan .f32 else (sumRes .f32 .rne false (fVal .f32 acc) (.fin n m e) []).1
  | some g => if isNan (fVal .f32 acc) then fDefNan .f32 else (sumRes .f32 .rne false (fVal .f32 acc) g []).1

/-- One fused multiply-add of the FP64 form, with the default NaN (R87). -/
def accFma (rm : RM) (acc a b : Nat) : Nat :=
  let r := (fFma .f64 rm false 0 a b acc).1
  if isNan (fVal .f64 r) then fDefNan .f64 else r

/-- The scale code of a row or column at a step; 127 when unscaled (R78, R83). -/
def scaleAt (t : Option (Tab Byte)) (step i : Nat) : Nat :=
  match t with | none => 127 | some x => (x.get 0 (step * 64 + i)).toNat

/-- Accumulate one step: rows of A and columns of B as element bits (R86, R87). -/
def stepAcc (m : MOp) (acc : Tab DWord) (as bs : List (List Nat)) : Tab DWord :=
  as.zipIdx.flatMap fun a => bs.zipIdx.map fun b =>
    let key := a.2 * 64 + b.2
    let old := (Tab.get (0 : DWord) acc key).toNat
    let new :=
      if m.mf = .f64 then (a.1.zip b.1).foldl (fun r p => accFma m.rm r p.1 p.2) old
      else
        let ca := scaleAt m.scA m.step a.2
        let cb := scaleAt m.scB m.step b.2
        accAdd old (if ca = 255 ∨ cb = 255 then none else dot ((a.1.map (mfVal m.mf ca)).zip (b.1.map (mfVal m.mf cb))))
    (key, BitVec.ofNat 64 new)

/-! ### RINIT and RWAIT (R306, R307) -/

/-- An MLOOP, MSTEP or EPI of the block is not performed. -/
def ringBusy (s : State) (blk : Nat) : Bool := s.ops.any fun e => e.2.blk == blk && !e.2.finished && (e.2.queue == 6 || e.2.queue == 7)

/-- RINIT (R306). -/
def execRinit (o : Rinit) (s : State) : Host.Outcome State Fault Refusal :=
  next (issueU (.rinit o) o.hd fun w => .get fun s =>
    let core := s.coreOfWarp w
    let me := blockOfWarp w
    let empty (h : Option Nat) (g : Ring) : Ring := { g with holder := h, slots := [] }
    match (s.ring core).holder with
    | some b =>
      if b = me then
        (if ringBusy s me then .ret (.wait .rinit)
         else .bind (upd (.ring core fun g => if o.claim then { empty (some me) g with head := 0, tail := 0 } else empty none g))
           fun _ => .ret .ok)
      else .ret (if o.claim then .wait .rinit else .ok)
    | none =>
      if o.claim then .bind (upd (.ring core fun g => { empty (some me) g with head := 0, tail := 0 })) fun _ => .ret .ok
      else .ret .ok) s

/-- The slot at an index of a core's ring. -/
def State.slot (s : State) (core i : Nat) : RSlot := (s.ring core).slots.get {} i

/-- RWAIT holds (R307). -/
def rwaitDone (s : State) (core : Nat) (tail : Bool) : Bool :=
  if tail then (s.slot core (s.ring core).tail.val).st == .full else (s.slot core (s.ring core).head.val).st == .empty

/-- RWAIT (R307). -/
def execRwait (o : Rwait) (s : State) : Host.Outcome State Fault Refusal :=
  next (issueU (.rwait o) o.hd fun w => .get fun s =>
    .ret (if rwaitDone s (s.coreOfWarp w) o.tail then .ok else .wait (.rwait o.tail))) s

/-! ### MLOOP and MSTEP (R308 to R311) -/

/-- Change a ring slot. -/
def setSlot (core i : Nat) (f : RSlot → RSlot) : Prog Unit :=
  upd (.ring core fun g => { g with slots := Tab.put g.slots i (f (g.slots.get {} i)) })

/-- The scale bytes the steps need, copied at issue (R83, R310). -/
def scaleCopy (s : State) (w : Nat) (r : ScaleReg) (count n : Nat) : Tab Byte :=
  (List.range count).flatMap fun t => (List.range n).map fun i =>
    let q := r.sel.toNat + t
    let e := 64 * (q % (Config.W / 16)) + i
    (t * 64 + i, BitVec.ofNat 8 (field (s.vreg w (r.r.val + q / (Config.W / 16)) (e / 4)) (8 * (e % 4)) 8))

/-- The last register of a scale operand lies in the allotment (R83). -/
def scaleFits (s : State) (w : Nat) (r : Option ScaleReg) (count : Nat) : Bool :=
  match r with
  | none => true
  | some r => decide (r.r.val + (r.sel.toNat + count - 1) / (Config.W / 16) < (s.warp w).ctl.alloc)

/-- The signed halves of a descriptor word. -/
def hiS (d : DWord) : Int := signed 32 (field d 32 32)
def loS (d : DWord) : Int := signed 32 (field d 0 32)

/-- The operation a descriptor describes, if its fields are in range (R309). -/
def mloopOp (s : State) (w : Nat) (o : Mloop) : Option MOp :=
  let d (i : Nat) : DWord := s.sreg w (o.a.val + i)
  let c := d 5
  let lim := if o.mf = .f64 then 32 else 64
  let rows := field c 16 6 + 1
  let cols := field c 24 6 + 1
  let count := field c 0 16
  if field c 30 34 ≠ 0 ∨ field c 22 2 ≠ 0 ∨ count = 0 ∨ lim < rows ∨ lim < cols then none
  else some
    { mf := o.mf, rm := rmAt (s.fpcr w) o.rm, baseA := d 0, baseB := d 1, csA := hiS (d 2), rsA := loS (d 2),
      csB := hiS (d 3), rsB := loS (d 3), incA := loS (d 4), incB := hiS (d 4), rows, cols, count,
      scA := o.sa.map fun r => scaleCopy s w r count rows, scB := o.sb.map fun r => scaleCopy s w r count cols,
      zs := o.zs, opn := o.opn, slot := 0, step := 0 }

/-- The base that ALIGN names, if an address or stride is not a multiple of the element size (R310). -/
def mloopAlign (m : MOp) : Option DWord :=
  let n := mfBits m.mf / 8
  if mfBits m.mf < 16 then none
  else if m.baseA.toNat % n ≠ 0 then some m.baseA
  else if m.baseB.toNat % n ≠ 0 then some m.baseB
  else if [m.csA, m.rsA, m.csB, m.rsB, m.incA, m.incB].any fun x => x % (n : Int) != 0 then some m.baseA
  else none

/-- The slot an MLOOP of the block left open (R310). -/
def openSlot (s : State) (core : Nat) : Option Nat := (List.range 8).find? fun i => (s.slot core i).opn

/-- Issue of MLOOP (`step` false) and MSTEP: the checks of R310 in their order, the slot, and the queue. -/
def mloopIssue (w : Nat) (o : Mloop) (step : Bool) : Prog Res :=
  letI := progMonad
  do
    let s ← st
    let core := s.coreOfWarp w
    let opn := openSlot s core
    if !holdsRing s w then pure (faultAt .protect ringBase)
    else match mloopOp s w o with
      | none => pure (faultOf .illop)
      | some m =>
        let fits := if step then (match opn with
            | some i => let t := s.slot core i; t.mf == m.mf && t.rows == m.rows && t.cols == m.cols
            | none => false)
          else !(o.opn && opn.isSome)
        if !fits then pure (faultOf .illop)
        else match mloopAlign m with
          | some a => pure (faultAt .align a)
          | none =>
            if !scaleFits s w o.sa m.count || !scaleFits s w o.sb m.count then pure (faultOf .illop)
            else if step then do
              let i := opn.getD 0
              setSlot core i fun t => { t with opn := o.opn }
              acceptOp w 6 (s.m0 w) (.mloop { m with slot := i }) 0 0 [] none
              pure .ok
            else
              let i := (s.ring core).head.val
              if (s.slot core i).st ≠ .empty then pure (.wait .ringHead)
              else do
                setSlot core i fun _ => { st := .filling, mf := m.mf, rows := m.rows, cols := m.cols, opn := o.opn }
                upd (.ring core fun g => { g with head := g.head + 1 })
                acceptOp w 6 (s.m0 w) (.mloop { m with slot := i }) 0 0 [] none
                pure .ok

/-- MLOOP (R308 to R311). -/
def execMloop (o : Mloop) (s : State) : Host.Outcome State Fault Refusal :=
  next (issueU (.mloop o) o.hd fun w => mloopIssue w o false) s

/-- MSTEP (R308 to R311). -/
def execMstep (o : Mloop) (s : State) : Host.Outcome State Fault Refusal :=
  next (issueU (.mstep o) o.hd fun w => mloopIssue w o true) s

/-- An operand element at an offset from a base, in bytes, or in nibbles for F4 (R309). -/
def operand (f : MF) (base : DWord) (u : Int) : DWord × Bool :=
  if f = .f4 then (base + dword (u / 2), u % 2 == 1) else (base + dword u, false)

/-- The elements of row i of A and of column j of B at the operation's step (R309). -/
def rowA (m : MOp) (i : Nat) : List (DWord × Bool) :=
  (List.range (mfK m.mf)).map fun (k : Nat) => operand m.mf m.baseA ((m.step : Int) * m.incA + (i : Int) * m.rsA + (k : Int) * m.csA)
def colB (m : MOp) (j : Nat) : List (DWord × Bool) :=
  (List.range (mfK m.mf)).map fun (k : Nat) => operand m.mf m.baseB ((m.step : Int) * m.incB + (k : Int) * m.rsB + (j : Int) * m.csB)

/-- Read rows or columns one after another: their bits, or the stop and how many were read. -/
def readRows (w : Nat) (f : MF) : Nat → List (List (DWord × Bool)) → Prog (Except (Stop × Nat) (List (List Nat)))
  | _, [] => .ret (.ok [])
  | n, r :: t => .bind (engFetch w 0 true (r.map fun e => (e.1, (mfBits f + 7) / 8))) fun x => .get fun s => match x with
    | .error e => .ret (.error (e, n))
    | .ok lines =>
      let v := r.map fun e => eltBits s lines (mfBits f) e.1 e.2
      .bind (readRows w f (n + 1) t) fun y => .ret (match y with | .error e => .error e | .ok l => .ok (v :: l))

/-- RPROG of an MLOOP interrupted at its step (R58). -/
def rprogOf (m : MOp) (bph : Bool) (row : Nat) : DWord :=
  BitVec.ofNat 64 (2 ^ 63 + m.slot * 2 ^ 32 + m.step * 2 ^ 16 + (if bph then 64 else 0) + row)

/-- Perform the next step of an MLOOP or MSTEP (R311); a cause comes with RPROG. -/
def mloopAttempt (k : Nat) : Prog (Except (Stop × DWord) Unit) :=
  letI := progMonad
  do
    let s ← st
    let o := s.op k
    match o.kind with
    | .mloop m =>
      if !opHead s k || decide (m.count ≤ m.step) then pure (.error (.blocked, 0))
      else do
        let core := s.coreOfWarp o.warp
        let ra ← readRows o.warp m.mf 0 ((List.range m.rows).map (rowA m))
        match ra with
        | .error (e, n) => pure (.error (e, rprogOf m false n))
        | .ok as => do
          let rb ← readRows o.warp m.mf 0 ((List.range m.cols).map (colB m))
          match rb with
          | .error (e, n) => pure (.error (e, rprogOf m true n))
          | .ok bs => do
            setSlot core m.slot fun t => if t.st = .filling then { t with acc := stepAcc m t.acc as bs } else t
            upd (.op k fun o => { o with kind := .mloop { m with step := m.step + 1 } })
            pure (.ok ())
    | _ => pure (.error (.blocked, 0))

/-- The last step of an MLOOP or MSTEP is done (R305, R311): the slot is full, or draining when an EPI has taken it;
`.open` leaves it filling. -/
def mloopDone (k : Nat) : Prog Unit :=
  .get fun s =>
    let o := s.op k
    match o.kind with
    | .mloop m =>
      if opHead s k && m.step == m.count then
        .bind (setSlot (s.coreOfWarp o.warp) m.slot fun t =>
          if t.st = .filling ∧ ¬m.opn then { t with st := if t.taken then .draining else .full } else t) fun _ => opPerformed k
      else .ret ()
    | _ => .ret ()

/-! ### EPI (R312 to R314) -/

/-- The elements of an EPI: row, column, x0 and the place through the map, the inside ones only. -/
def epiElts (m : TMap) (c : List Nat) (rows cols : Nat) : List (Nat × Nat × Elt) :=
  ((List.range rows).flatMap fun i => (List.range cols).map fun j =>
    let p := mapPos m c [] [j, i, 0, 0]
    (i, j, mkElt p.1 p.2 0)).filter fun e => e.2.2.st == .inside

/-- The address of a bias entry. -/
def biasAddr (e : EOp) (f64 : Bool) (j : Nat) : DWord := e.bias + BitVec.ofNat 64 ((if f64 then 8 else 4) * j)

/-- What an EPI reads: elements when beta is not zero, and the bias. -/
def epiReads (e : EOp) (t : RSlot) : List (DWord × Nat) :=
  let f64 := t.mf == .f64
  List.append (if e.beta.toNat % 2 ^ 31 = 0 then [] else (epiElts e.map e.c t.rows t.cols).map fun x => (x.2.2.addr, e.map.ebytes))
    (if e.bias = 0 then [] else (List.range t.cols).map fun j => (biasAddr e f64 j, if f64 then 8 else 4))

/-- The bytes an EPI writes, with no value yet. -/
def epiWrites (e : EOp) (t : RSlot) : List WByte :=
  (epiElts e.map e.c t.rows t.cols).flatMap fun x => eltBytes e.map.ebits x.2.2.addr x.2.2.hi 0

/-- The operation an EPI's registers describe. -/
def epiOp (s : State) (w : Nat) (o : Epi) (m : TMap) : EOp :=
  let d (i : Nat) : DWord := s.sreg w (o.a.val + i)
  { map := m, c := [field (d 1) 0 32, field (d 1) 32 32, field (d 2) 0 32, field (d 2) 32 32],
    alpha := BitVec.ofNat 32 (field (d 3) 0 32), beta := BitVec.ofNat 32 (field (d 3) 32 32), bias := d 4,
    lo := BitVec.ofNat 32 (field (d 5) 0 32), hi := BitVec.ofNat 32 (field (d 5) 32 32), act := o.act, scale := o.scale.toNat,
    stamp := if d 6 = 0 then none else some ⟨d 6, d 7, o.sc.getD .gg⟩, slot := 0 }

/-- The checks of EPI at issue on a slot, after those of its registers (R300, R313): of the bytes that the slot's size and
format name. -/
def epiChecks (w : Nat) (e : EOp) (t : RSlot) : Prog (Option (Cause × DWord)) :=
  let misBias := e.bias != 0 && e.bias.toNat % (if t.mf = .f64 then 8 else 4) != 0
  firstCause [.ret (if misBias then some (.align, e.bias) else none), checkReads w (epiReads e t),
    checkWrites w false (epiWrites e t)]

/-- EPI (R312, R313). -/
def execEpi (o : Epi) (s : State) : Host.Outcome State Fault Refusal :=
  letI := progMonad
  next (issueU (.epi o) o.hd fun w => do
    let s ← st
    let core := s.coreOfWarp w
    let ma := s.sreg w o.a.val
    if !holdsRing s w then pure (faultAt .protect ringBase)
    else do
      let r ← readMap w ma
      match r with
      | .error e => pure e
      | .ok m => do
        let s ← st
        let e := epiOp s w o m
        if m.walks.any (fun t => t.on) || m.aon || decide (4 < m.dims.length) || decide (m.fmt < 6) || !f4Ok m e.c [] then
          pure (faultAt .protect ma)
        else if !scAgrees e.stamp.isSome o.sc || (decide (m.fmt < 10) && e.scale != 0) then pure (faultOf .illop)
        else do
          let first ← firstCause (wordChecks w e.stamp none false)
          let s ← st
          match first with
          | some x => pure (causeRes x)
          | none =>
          let i := (s.ring core).tail.val
          let t := s.slot core i
          if t.st = .empty ∨ t.taken then pure (.wait .ringTail)
          else do
            let f64 := t.mf == .f64
            let c ← epiChecks w e t
            match c with
            | some x => pure (causeRes x)
            | none =>
              if f64 && !(m.fmt == 9 || m.fmt == 8) then pure (faultAt .protect ma)
              else do
                let s ← st
                setSlot core i fun t => { t with taken := true, st := if t.st = .full then .draining else t.st }
                upd (.ring core fun g => { g with tail := g.tail + 1 })
                acceptOp w 7 (s.m0 w) (.epi { e with slot := i }) (engLines s (epiWrites e t)).length (if e.stamp.isSome then 1 else 0) [] none
                pure .ok) s

/-- Exact values rounded once: a product, and a product plus a value. -/
def mulRound (t : FT) (x y : FVal) : FVal :=
  if isNan x || isNan y then .nan false
  else match mulVal x y with | none => .nan false | some v => fVal t (roundF t v)
def fmaRound (t : FT) (x y z : FVal) : FVal :=
  if isNan x || isNan y || isNan z then .nan false
  else match mulVal x y with | none => .nan false | some v => fVal t (sumRes t .rne false v z []).1

/-- y of an element of EPI (R314). A limit of .clamp that is a NaN limits nothing, and of zeros y is kept (log entry 83). -/
def epiY (e : EOp) (f64 : Bool) (acc : DWord) (cv : FVal) (bias : Nat) : FVal :=
  let t : FT := if f64 then .f64 else .f32
  let y0 := mulRound t (fVal .f32 e.alpha.toNat) (fVal t acc.toNat)
  let y1 := if e.beta.toNat % 2 ^ 31 = 0 then y0 else fmaRound t (fVal .f32 e.beta.toNat) cv y0
  let y2 := if e.bias = 0 then y1 else fmaRound t y1 (.fin false 1 0) (fVal t bias)
  let lo := fVal .f32 e.lo.toNat
  let hi := fVal .f32 e.hi.toNat
  match e.act with
  | .none => y2
  | .relu => if isNan y2 then y2 else if valNeg y2 then .fin false 0 0 else y2
  | .clamp =>
    if isNan y2 then y2
    else
      let y3 := if !isNan lo && ltVal y2 lo then lo else y2
      if !isNan hi && ltVal hi y3 then hi else y3

/-- y in the map's format (R314). -/
def epiOut (fmt scale : Nat) (y : FVal) : Nat :=
  let nv (t : NT) : Nat := match y with | .fin n m e => (narrow t n m (e - ((scale : Int) - 127))).1 | _ => 0
  match fmt with
  | 6 => roundF .f16 y
  | 7 => roundF .bf16 y
  | 8 => roundF .f32 y
  | 9 => roundF .f64 y
  | 10 => nv .f8a
  | 11 => nv .f8b
  | 12 => nv .t8
  | 13 => nv .f4
  | _ => nv .i8

/-- EPI at the engine (R314): outputs, bound register, payload, stamp, and the empty slot. -/
def epiAttempt (k : Nat) : Prog (Except Stop Unit) :=
  letI := progMonad
  do
    let s ← st
    let o := s.op k
    let w := o.warp
    let core := s.coreOfWarp w
    match o.kind with
    | .epi e =>
      let t := s.slot core e.slot
      if !opHead s k || t.st != .draining then pure (.error .blocked)
      else match o.sent with
      | some hold => do
        let r ← endOp k o false hold o.wrote e.stamp
        match r with
        | .error x => pure (.error x)
        | .ok _ => do
          setSlot core e.slot fun _ => {}
          pure (.ok ())
      | none => do
        let m := e.map
        let f64 := t.mf == .f64
        let els := epiElts m e.c t.rows t.cols
        let f ← engFetch w o.turn false (epiReads e t)
        let s1 ← st
        match f with
        | .error x => pure (.error x)
        | .ok lines =>
          let cv (x : Elt) : FVal := if e.beta.toNat % 2 ^ 31 = 0 then .fin false 0 0 else eltVal m.fmt e.scale (eltBits s1 lines m.ebits x.addr x.hi)
          let bias (j : Nat) : Nat := if e.bias = 0 then 0 else eltBits s1 lines (if f64 then 64 else 32) (biasAddr e f64 j) false
          let ys := els.map fun x => (x, epiY e f64 (t.acc.get 0 (x.1 * 64 + x.2.1)) (cv x.2.2) (bias x.2.1))
          let blockKey (x : Nat × Nat × Elt) : Nat × Nat := (x.1, (e.c.headD 0 + x.2.1) / 32)
          let poisoned := (ys.filter fun y => isSpecial y.2).map fun y => blockKey y.1
          let narrow_ := decide (10 ≤ m.fmt)
          let items := ys.map fun y =>
            let p := narrow_ && poisoned.contains (blockKey y.1)
            (y.1.2.2, if p then 0 else epiOut m.fmt e.scale y.2, p)
          let b := boundApply (s.boundOf w m) m e.scale (items.map fun x => (x.1.addr, x.2.1, x.2.2))
          match b.2.2 with
          | some a => pure (.error (.cause .bounds a))
          | none => do
            flagBound w b.2.1
            let outs := settleElts ((items.zip b.1).map fun x => (x.1.1, x.2))
            let r ← payload k o true (outs.flatMap fun x => eltBytes m.ebits x.1.addr x.1.hi x.2) e.stamp
            match r with
            | .error x => pure (.error x)
            | .ok _ => do
              let s ← st
              whenP (!(s.ops.any fun x => x.1 == k && x.2.sent.isSome)) (setSlot core e.slot fun _ => {})
              pure (.ok ())
    | _ => pure (.error .blocked)

end Sys2Proof.Machine
end

