-- ==== Sys2Proof/Machine/Defer.lean ====
section
/-!
DEFINITION. Deferred faults of engine operations and what resolves them (R301 to R303).
-/
namespace Sys2Proof.Machine

/-- The warp stands at an instruction boundary (R301): a waiting instruction that has done nothing yet issues again, so it
counts as not begun; a warp parked at a QFENCE has issued it, and would wait for the stopped queue for ever. -/
def atBoundary (c : Ctl) : Bool :=
  match c.status with
  | .ready | .exited | .parked (.queues ..) => true
  | .waiting k => c.arrived.isNone && c.mwDone == 0 && k != .eret
  | _ => false

/-- The engines work for an operation: its gang is resident, or it is a COLL (R384). -/
def opRuns (s : State) (k : Nat) : Bool :=
  let o := s.op k
  (s.runOf (runOfWarp o.warp)).st == .resident || (match o.kind with | .coll _ => true | _ => false)

/-- Leave an operation undone (R303): no stamp, its presence bits become set again, its ring slot is empty, and the queue
runs on. Of a TCOPY.ver of a checked gang the log says so (R182). An EPI that took the slot of an MLOOP left undone never finds
it full (log entry 81). -/
def abandonOp (k : Nat) : Prog Unit :=
  .get fun s =>
    let o := s.op k
    let core := s.coreOfWarp o.warp
    let undone (r : LogRec) : LogRec := { r with ready := true, res := some .skip }
    .bind (match o.kind with
      | .mloop m => setSlot core m.slot fun t => if t.st = .filling then {} else t
      | .epi e => setSlot core e.slot fun _ => {}
      | _ => .ret ()) fun _ =>
    .bind (match o.log with
      | some i => whenP (!s.isCopy o.warp) (upd (.gang (s.gangOfWarp o.warp) fun g => { g with log := setRec (gangWarp o.warp) undone i g.log }))
      | none => .ret ()) fun _ => opPerformed k

/-- Run an operation again (R303): from its start, with its presence bits cleared again; an MLOOP from RPROG. -/
def retryOp (k : Nat) : Prog Unit :=
  .get fun s =>
    .bind (forAll (s.op k).lines fun x => upd (.block (x / 2 ^ 20) fun b =>
      let l := x % 2 ^ 20
      { b with unset := Tab.set 0 b.unset l (b.unset.get 0 l / 2 * 2 + 1) })) fun _ =>
      upd (.op k fun o => { o with stopped := false, wrote := [], sent := none, read := none })

/-- RAISE A DEFERRED FAULT of an operation (R301, R302): its queue stops; the fault is recorded at the warp's next
instruction boundary, behind the one the record shows. The operation of a stopped warp is abandoned. A warp `inside` an
instruction reaches its boundary after it. -/
def deferFault (k : Nat) (cause : Cause) (faddr : DWord) (rprog : Option DWord) (inside : Option Nat) : Prog Unit :=
  letI := progMonad
  do
    let s ← st
    let o := s.op k
    let w := o.warp
    let c := (s.warp w).ctl
    if c.status = .stopped then abandonOp k
    else do
      let f : FaultRec :=
        { fpc := o.fpc, fcause := BitVec.ofNat 64 cause.code, faddr := faddr,
          flanesl := BitVec.ofNat 64 o.lanes.toNat, flanesh := BitVec.ofNat 64 (o.lanes.toNat / 2 ^ 64),
          rprog := match rprog with | some r => r | none => setField c.fault.rprog 63 1 0 }
      upd (.op k fun o => { o with stopped := true })
      upd (.ctl w fun c => { c with held := c.held ++ [⟨k, f⟩] })
      whenP (atBoundary c && inside != some w) (recordDeferred w)

/-! ### Stopping warps and grids (R46, R302, R366) -/

/-- Stop a warp at an instruction boundary (R46, R366): the operations of its deferred faults are abandoned, recorded or held
(R302, R338). One that has exited stays so. -/
def stopWarp (w : Nat) : Prog Unit :=
  letI := progMonad
  do
    let s ← st
    let c := (s.warp w).ctl
    forAll (c.deferred.toList ++ c.held.map (·.op)) abandonOp
    upd (.ctl w fun c => { c with
      deferred := none
      held := []
      status := if c.status = .exited then .exited else .stopped
      stoppedAt := c.status == .faulted || c.stoppedAt })

/-- End a grid with a cause (R46): its warps stop, its unpoured writes are dropped. With the resident grid the world stops
(R366). -/
def endGrid (g : Nat) (cause : Nat) : Prog Unit :=
  letI := progMonad
  do
    let s ← st
    if (s.grid g).st ≠ .live then pure ()
    else do
      upd (.grid g fun x => { x with st := .stopping, cause := BitVec.ofNat 16 cause })
      let s ← st
      forAll ((s.warps.map Prod.fst).filter fun w => s.gridOfWarp w == g) stopWarp
      forAll ((s.gangs.map Prod.fst).filter fun k => gridOfGang k == g) fun k =>
        upd (.gang k fun x => { x with holds := [], priv := [], mismatch := none })
      whenP (s.grid g).resident (enterStopping (worldOfGrid g) 2 cause)

end Sys2Proof.Machine
end

