-- ==== Sys2Proof/Machine/Coll.lean ====
section
/-!
DEFINITION. Collectives: group records and attempts (R451, R452), COLL (R323, R324), CABORT (R325), and what a member
does with packets and tokens.
-/
namespace Sys2Proof.Machine

/-! ### Group records (R451) -/

/-- The address of a world's group table. -/
def groupTable (s : State) (world : Nat) : DWord := (s.world world).fq + 0x50000

/-- The valid records of a group in a line of the table, of four records: index and bytes. -/
def recordsIn (g : BitVec 16) (line : Nat) (bs : List Byte) : List (Nat × List Byte) :=
  ((List.range 4).map fun i => (4 * line + i, (bs.drop (32 * i)).take 32)).filter fun e =>
    decide (128 ≤ leAt e.2 7 1) && leAt e.2 0 2 == g.toNat

/-- The valid records of a group in the table's 256, read line by line. -/
def findGroup (world : Nat) (table : DWord) (g : BitVec 16) : Prog (List (Nat × List Byte)) :=
  .bind (mapAll (List.range 64) fun i => .bind (devRead world 0 (table + BitVec.ofNat 64 (128 * i)) 128) fun o =>
    .ret (recordsIn g i (o.getD []))) fun rs => .ret rs.flatten

/-- What the bytes of a valid record say, with its line and the address of its members; none when its fields break R451. -/
def groupFields (i line : Nat) (r : List Byte) : Option (GroupRec × DWord) :=
  let n := leAt r 2 2
  if leAt r 6 2 ≠ 0x8000 ∨ n = 0 ∨ 8189 < n ∨ n ≤ leAt r 8 8 ∨ leAt r 24 8 ≠ 0 then none
  else some ({ idx := i, attempt := BitVec.ofNat 16 (leAt r 4 2), n, rank := leAt r 8 8, nodes := [], line, off := 32 * (i % 4) },
             BitVec.ofNat 64 (leAt r 16 8))

/-- The nodes of a group's members, by rank. -/
def groupNodes (world n : Nat) (members : DWord) : Prog (List Nat) :=
  .bind (devRead world 0 members (8 * n)) fun bs => .ret ((List.range n).map fun i => leAt (bs.getD []) (8 * i) 2 % 2 ^ 13)

/-- The identity of the line of an address of the device's own memory, in ASID 0. -/
def lineOf (world : Nat) (a : DWord) : Prog Nat :=
  .get fun s => match ownAddr s a with
    | none => .ret 0
    | some (d, off) => .bind (xlate world d 0 off) fun r => .ret (match r with | .ok x => x.lid | .error _ => 0)

/-- The record of a group, read at its first use after valid was set; the first reading of all gives the member's attempt in force.
Two valid records of one number break a limit, as bad fields do (R451). -/
def groupRec (world : Nat) (g : BitVec 16) : Prog (Option GroupRec) :=
  letI := progMonad
  do
    let s ← st
    match ((s.world world).groups.get {} g.toNat).read with
    | some r => pure (some r)
    | none => do
      let o ← findGroup world (groupTable s world) g
      let line ← (match o with | [e] => lineOf world (groupTable s world + BitVec.ofNat 64 (32 * e.1)) | _ => pure 0)
      match (match o with | [e] => groupFields e.1 line e.2 | _ => none) with
      | none => pure none
      | some (r, members) => do
        let nodes ← groupNodes world r.n members
        let r := { r with nodes := nodes }
        upd (.world world fun x =>
          let e := x.groups.get ({} : Group) g.toNat
          let e' := { e with attempt := if e.size = 0 then r.attempt else e.attempt, size := r.n, read := some r }
          { x with groups := x.groups.put g.toNat e' })
        pure (some r)

/-- The group as this member knows it. -/
def State.group (s : State) (world : Nat) (g : BitVec 16) : Group := (s.world world).groups.get {} g.toNat

/-- An attempt older than the one in force (R452). -/
def olderAttempt (a f : BitVec 16) : Bool := decide (1 ≤ (f - a).toNat) && decide ((f - a).toNat ≤ 32767)

/-- Put an attempt in force at this member: in its record too (R451); packets of older attempts go (R325). -/
def setAttempt (world : Nat) (g a : BitVec 16) : Prog Unit :=
  letI := progMonad
  do
    let r ← groupRec world g
    upd (.world world fun x =>
      let e := x.groups.get {} g.toNat
      { x with groups := x.groups.put g.toNat { e with attempt := a, pkts := e.pkts.filter fun p => !olderAttempt p.attempt a } })
    match r with
    | some r => do
      let s ← st
      let _ ← devWrite world 0 (groupTable s world + BitVec.ofNat 64 (32 * r.idx + 4)) (leBytes 2 a.toNat)
    | none => pure ()

/-- An operation is a COLL of a group of a world that has not ended. -/
def collOf? (s : State) (world : Nat) (g : BitVec 16) (e : Nat × Op) : Bool :=
  s.worldOfWarp e.2.warp == world && !e.2.finished && !e.2.stopped
    && (match e.2.kind with | .coll c => c.group == g | _ => false)

/-! ### The result (R323) -/

/-- Bytes of an element. -/
def collBytes : CollTy → Nat
  | .i ty => ty.bytes
  | .f ft => if ft = .f64 then 8 else 4

/-- ⊕ of two elements: the first has the lower ranks. -/
def collStep (op : CollOp) (ty : CollTy) (a b : Nat) : Nat :=
  match ty with
  | .f ft =>
    let dflt (r : Nat) : Nat := if isNan (fVal ft r) then fDefNan ft else r
    (match op with
    | .max => dflt (fMinMax ft true false 0 a b).1
    | .min => dflt (fMinMax ft false false 0 a b).1
    | _ => atomFadd ft a b)
  | .i t => match op with
    | .max => if leT t a b then b else a
    | .min => if leT t a b then a else b
    | _ => (a + b) % 2 ^ t.bits

/-- Elements of the source of a rank, and of the destination. -/
def collSrc (op : CollOp) (rank n count : Nat) : Nat :=
  match op with
  | .rsum => n * count
  | .bcast => if rank = 0 then count else 0
  | _ => count
def collDst (op : CollOp) (n count : Nat) : Nat := match op with | .gather => n * count | _ => count

/-- Element i of some bytes. -/
def collElt (ty : CollTy) (bs : List Byte) (i : Nat) : Nat := leAt bs (collBytes ty * i) (collBytes ty)

/-- The destination's bytes from every rank's data, in rank order. -/
def collResult (c : COp) (data : List (List Byte)) : List Byte :=
  match c.op with
  | .gather => data.flatten
  | .bcast => data.headD []
  | _ =>
    let first := if c.op = .rsum then c.rank * c.count else 0
    (List.range c.count).flatMap fun i =>
      let es := data.map fun d => collElt c.ty d (first + i)
      leBytes (collBytes c.ty) (es.tail.foldl (collStep c.op c.ty) (es.headD 0))

/-- What members must agree on: operation, type, count (R324). -/
def collSig (c : COp) : Nat :=
  c.op.code + 8 * (match c.ty with | .i t => t.code | .f t => 16 + t.code) + 256 * c.count

/-! ### The engine (R324) -/

/-- A range of bytes as pieces inside lines. -/
def rangePieces (a : DWord) (n : Nat) : List (DWord × Nat) :=
  (pieces (n / 128 + 2) a.toNat n).map fun p => (BitVec.ofNat 64 p.1, p.2)

/-- The bytes of a range as writes. -/
def rangeWrites (a : DWord) (bs : List Byte) : List WByte := bs.zipIdx.map fun e => (a + BitVec.ofNat 64 e.2, 0xFF, e.1)

/-- Store bytes for a COLL. Its effects are early actions: nothing of it is held (R176; log entry 24). -/
def collStore (o : Op) (sc : Option Scope) (ws : List WByte) : Prog (Except Stop Unit) :=
  .get fun s => .bind (engStore (o.writer s sc) false true o.warp o.seg 0 ws) fun r =>
    .ret (match r with | .error e => .error e | .ok _ => .ok ())

/-- Read the source and send it to every member (R324). -/
def collSend (k : Nat) (o : Op) (c : COp) : Prog (Except Stop Unit) :=
  letI := progMonad
  do
    let ps := rangePieces c.src (collSrc c.op c.rank c.n c.count * collBytes c.ty)
    let r ← engFetch o.warp o.turn false ps
    let s ← st
    match r with
    | .error e => pure (.error e)
    | .ok lines => do
      let data := ps.flatMap fun p => (pieceOf s lines p.1 p.2).getD []
      let world := s.worldOfWarp o.warp
      upd (.world world fun x =>
        let e := x.groups.get {} c.group.toNat
        { x with groups := x.groups.put c.group.toNat { e with pkts := e.pkts ++ [⟨c.attempt, c.rank, collSig c, data⟩] } })
      forAll (c.nodes.zipIdx.filter fun e => e.2 != c.rank) fun e => sendUlbQuiet e.1 (.coll world c.group c.attempt c.rank (collSig c) data)
      upd (.op k fun o => { o with phase := 1, retryFrom := some s.time })
      pure (.ok ())

/-- The packets of an attempt by rank, if every needed one is here. -/
def collData (g : Group) (c : COp) : Option (List (List Byte)) :=
  let get (r : Nat) : Option (List Byte) := (g.pkts.find? fun p => p.attempt == c.attempt && p.rank == r).map (·.data)
  let need := if c.op = .bcast then [0] else List.range c.n
  if need.all fun r => (get r).isSome then some (need.map fun r => (get r).getD []) else none

/-- What the engine does next for a COLL: it sends its source, and when every rank's data is here it writes the
destination and then the stamp (R324). An older attempt ends with COLLABORT (R325). -/
def collAttempt (k : Nat) : Prog (Except Stop Unit) :=
  letI := progMonad
  do
    let s ← st
    let o := s.op k
    match o.kind with
    | .coll c =>
      let g := s.group (s.worldOfWarp o.warp) c.group
      if !opHead s k then pure (.error .blocked)
      else if olderAttempt c.attempt g.attempt then pure (.error (.cause .collabort (g.attempt.setWidth 64)))
      else if o.phase = 0 then collSend k o c
      else match collData g c with
        | none => pure (.error .blocked)
        | some data => do
          let r ← collStore o none (rangeWrites c.dst (collResult c data))
          match r with
          | .error e => pure (.error e)
          | .ok _ => do
            let r ← collStore o (some c.stamp.sc) (wordBytes c.stamp.addr c.stamp.val)
            match r with
            | .error e => pure (.error e)
            | .ok _ => do
              upd (.world (s.worldOfWarp o.warp) fun x =>
                let e := x.groups.get {} c.group.toNat
                { x with groups := x.groups.put c.group.toNat { e with pkts := e.pkts.filter fun p => p.attempt != c.attempt } })
              opPerformed k
              pure (.ok ())
    | _ => pure (.error .blocked)

/-- What a COLL that ends with COLLABORT leaves in its destination: unpredictable bytes (R325), as far as it can be
written. -/
def spoilOp (k : Nat) (c : Cause) : Prog Unit :=
  .get fun s => match (s.op k).kind, c with
    | .coll o, .collabort =>
      let n := collDst o.op o.n o.count * collBytes o.ty
      .bind (mapAll (List.range ((n + 7) / 8)) fun _ => freeVal) fun vs =>
        .bind (collStore (s.op k) none (rangeWrites o.dst ((vs.flatMap fun v => leBytes 8 v.toNat).take n))) fun _ => .ret ()
    | _, _ => .ret ()

/-- A COLL ends with a deferred COLLABORT (R325). -/
def abortOp (k : Nat) (faddr : DWord) (inside : Option Nat) : Prog Unit :=
  .bind (spoilOp k .collabort) fun _ => deferFault k .collabort faddr none inside

/-- Accept an abort token: a newer attempt is in force, and every COLL of an older one ends with a deferred COLLABORT
(R325). `inside` is the warp whose instruction does it. -/
def acceptToken (world : Nat) (g a : BitVec 16) (inside : Option Nat) : Prog Unit :=
  letI := progMonad
  do
    setAttempt world g a
    let s ← st
    let old (e : Nat × Op) : Bool := collOf? s world g e && (match e.2.kind with | .coll c => olderAttempt c.attempt a | _ => false)
    forAll (s.ops.filter old) fun e => abortOp e.1 (a.setWidth 64) inside

/-- Members disagree on the operation, type or count: the attempt fails as a CABORT would make it (R324). -/
def collAgree (world : Nat) (c : COp) (inside : Option Nat) : Prog Unit :=
  .get fun s =>
    whenP ((s.group world c.group).pkts.any fun p => p.attempt == c.attempt && p.sig != collSig c)
      (acceptToken world c.group (c.attempt + 1) inside)

/-! ### The instructions -/

/-- The descriptor of a COLL, if its fields are in range (R299, R323); a stamp address that is not 8-byte aligned is out of it
(log entry 82). -/
def collDesc (s : State) (w : Nat) (o : Coll) : Option COp :=
  let d (i : Nat) : DWord := s.sreg w (o.a.val + i)
  let count := field (d 2) 0 40
  if field (d 2) 40 24 ≠ 0 ∨ count = 0 ∨ field (d 3) 32 32 ≠ 0 ∨ d 4 = 0 ∨ field (d 4) 0 3 ≠ 0 then none
  else some { op := o.op, ty := o.ty, src := d 0, dst := d 1, count, group := BitVec.ofNat 16 (field (d 3) 0 16),
              attempt := BitVec.ofNat 16 (field (d 3) 16 16), stamp := ⟨d 4, d 5, o.sc⟩, n := 1, rank := 0, nodes := [] }

/-- Lines outside the windows that a COLL's destination covers (R168). -/
def collLines (c : COp) (n : Nat) : Nat := if inWindow c.dst then 0 else (rangePieces c.dst (collDst c.op n c.count * collBytes c.ty)).length

/-- Accept a COLL into kq. -/
def collAccept (w : Nat) (c : COp) : Prog Unit :=
  letI := progMonad
  do
    let s ← st
    let world := s.worldOfWarp w
    whenP (c.attempt != (s.group world c.group).attempt) (setAttempt world c.group c.attempt)
    let s ← st
    acceptOp w 20 (s.m0 w) (.coll c) 0 0 [] none
    earlyAct w
    whenDone (collAttempt s.seqNo)
    collAgree world c (some w)

/-- COLL where the group's record is read: the primary, or an unchecked warp (R300, R324). -/
def collLive (w : Nat) (c0 : COp) : Prog (Except Res (Option COp)) :=
  letI := progMonad
  do
    let s ← st
    let world := s.worldOfWarp w
    let r ← groupRec world c0.group
    match r with
    | none => pure (.ok none)
    | some r => do
      let c := { c0 with n := r.n, rank := r.rank, nodes := r.nodes }
      let srcN := collSrc c.op c.rank c.n c.count * collBytes c.ty
      let dstN := collDst c.op c.n c.count * collBytes c.ty
      let f ← firstCause
        [ checkReads w (rangePieces c.src srcN), checkWrites w true (rangeWrites c.dst (List.replicate dstN 0)),
          checkWord w c.stamp.addr false true ]
      let s ← st
      let g := s.group world c.group
      match f with
      | some e => pure (.error (causeRes e))
      | none =>
        if olderAttempt c.attempt g.attempt then pure (.error (faultAt .collabort (g.attempt.setWidth 64)))
        else pure (.ok (some c))

/-- COLL (R323, R324): its status is logged in a checked gang (R169); a shadow or arbiter has no effect of it but the
status (R164). -/
def execColl (o : Coll) (s : State) : Host.Outcome State Fault Refusal :=
  letI := progMonad
  next (issueU (.coll o) o.hd fun w => do
    let s ← st
    match collDesc s w o with
    | none => pure (faultOf .illop)
    | some c0 => do
      let found ← (if s.isCopy w then pure (.ok none) else collLive w c0)
      match found with
      | .error e => pure e
      | .ok c => do
        let live : Prog (Except Res Got) := match c with
          | none => pure (.ok ([(0, 1)], none))
          | some c => do
            collAccept w c
            pure (.ok ([(0, 0)], none))
        let r ← withLog w 8 live
        match r with
        | .error e => pure e
        | .ok (v, _) => do
          let s ← st
          let status := (v.headD (0, 1)).2
          whenP (status == 0) (countLines w (collLines c0 (s.group (s.worldOfWarp w) c0.group).size))
          writeS w o.d.val (BitVec.ofNat 64 status)
          pure .ok) s

/-- CABORT (R325): the token goes to every member; the park lasts until each has accepted it or was reported
unreachable. -/
def execCabort (o : Cabort) (s : State) : Host.Outcome State Fault Refusal :=
  letI := progMonad
  next (issueU (.cabort o) o.hd fun w => do
    let s ← st
    let g : BitVec 16 := match o.g with | .s r => (s.sreg w r.val).setWidth 16 | .imm n => n
    let world := s.worldOfWarp w
    if s.isCopy w then pure .ok
    else do
      let r ← groupRec world g
      match r with
      | none => pure .ok
      | some r => do
        earlyAct w
        let a := (s.group world g).attempt + 1
        acceptToken world g a (some w)
        upd (.world world fun x =>
          { x with groups := x.groups.put g.toNat { x.groups.get {} g.toNat with answered := [r.rank] } })
        forAll (r.nodes.zipIdx.filter fun e => e.2 != r.rank) fun e => sendUlbQuiet e.1 (.abort world g a)
        pure (.park (.tokens g))) s

end Sys2Proof.Machine
end

