-- ==== Sys2Proof/Machine/Fetch.lean ====
section
/-!
DEFINITION. Instruction fetch (R183, R185, R401, R455), and the placing of one instruction where the next step fetches
(log entry 10).
-/
namespace Sys2Proof.Machine

/-- What a fetch finds. -/
inductive Fetched where
  | instr (i : Instr)
  /-- ILLOP at the fetch address; `noLen` when the instruction has no known length (R303) -/
  | illop (noLen : Bool)
  | trap (c : Cause) (a : DWord)
  deriving DecidableEq, Repr

/-- Decode the bytes of a fetch block from an offset on (R184, R185, R201). -/
def decodeBlock (blk : List Byte) (o : Nat) : Fetched :=
  match blk.drop o with
  | [] => .illop true
  | b :: t =>
    if b.toNat % 4 = 3 then .illop true
    else if 32 < o + lenBytes (b.toNat % 4) then .illop true
    else match decodeWord (leNat ((b :: t).take (lenBytes (b.toNat % 4)))) with
      | .ok i => .instr i
      | .error _ => .illop false

/-- The 32 bytes of a fetch block at a physical key, each word as the grid may see it (R455): the present value, or one it
had at or after the grid's start, by a free value. -/
def fetchWords (key start : Nat) : Prog (List Byte) :=
  letI := progMonad
  do
    let ws ← mapAll (List.range 8) fun i => do
      let s ← st
      let now := BitVec.ofNat 32 (leNat (physBytes s (key + 4 * i) 4))
      let old := ((s.oldCode.get [] (key + 4 * i)).filter fun e => decide (start ≤ e.1)).map Prod.snd
      if old.isEmpty then pure now
      else do
        let f ← freeVal
        let all := now :: old
        pure ((all[f.toNat % all.length]?).getD now)
    pure (ws.flatMap fun w => leBytes 4 w.toNat)

/-- The cause with which another device's owning die may refuse a fetch (R401), as a free value says; none: it answers. -/
def farCause (f : DWord) : Option Cause :=
  match f.toNat % 8 with
  | 0 => some .translate
  | 1 => some .protect
  | 2 => some .keyretired
  | 3 => some .integrity
  | 4 => some .poison
  | _ => none

/-- The fetch block at the pc of a warp (R185, R401), or what is found instead. -/
def fetchBlock (w : Nat) : Prog (Except Fetched (List Byte)) :=
  letI := progMonad
  do
    let s ← st
    let pc := (s.warp w).ctl.pc
    let world := s.worldOfWarp w
    let node := field pc 51 13
    if !targetOk pc then pure (.error (.illop true))
    else match ownAddr s pc with
    | none =>
      if node = 0x1FFE ∨ node = 0x1FFD then pure (.error (.trap .protect pc))
      else do
        let f ← freeVal
        match farCause f with
        | some c => pure (.error (.trap c pc))
        | none => do
          let ws ← mapAll (List.range 4) fun _ => freeVal
          pure (.ok (ws.flatMap fun x => leBytes 8 x.toNat))
    | some (d, off) =>
      if !s.latched d world then pure (.error (.trap .protect pc))
      else do
        let r ← xlateFor (s.coreOfWarp w) world d (s.asidOfWarp w) off
        let s ← st
        match r with
        | .error c => pure (.error (.trap c pc))
        | .ok x =>
          if !bitAt x.w0 58 then pure (.error (.trap .protect pc))
          else if x.gen ≠ (slotGen s d x.slot).toNat then pure (.error (.trap .keyretired pc))
          else do
          touch world (s.coreOfWarp w / 16) x
          let s ← st
          match lineRead s x with
            | .error _ => pure (.error (.trap .integrity (BitVec.ofNat 64 (pc.toNat / 128 * 128))))
            | .ok _ => do
              let t := s.tags.get {} x.line
              let blk ← if tagOk t (x.want s) then fetchWords (x.key / 32 * 32) (s.grid (s.gridOfWarp w)).startTurn
                        else pure (List.replicate 32 0)
              pure (.ok blk)

/-- Fetch at the pc of a warp. -/
def fetch (w : Nat) : Prog Fetched :=
  .get fun s => .bind (fetchBlock w) fun r => .ret (match r with
    | .error f => f
    | .ok blk => decodeBlock blk ((s.warp w).ctl.pc.toNat % 32))

/-- The length of the instruction at the pc, from its len field (R184, R303). -/
def fetchLen (w : Nat) : Prog Nat :=
  .get fun s => .bind (fetchBlock w) fun r => .ret (match r with
    | .error _ => 8
    | .ok blk => lenBytes ((blk.getD ((s.warp w).ctl.pc.toNat % 32) 0).toNat % 4))

/-! ### Placing an instruction -/

/-- Store little-endian bytes of a number in a memory list. -/
def placeBytes (m : List Host.Cell) (a n v : Nat) : List Host.Cell :=
  (leBytes n v).zipIdx.foldl (fun m e => Tab.set (0 : Byte) m (a + e.2) e.1) m

/-- The tables of the placed world: context entry, root, level 2 and level 1 entries, at 0x1000_0000 (R397 to R399). -/
def placeTables : List (Nat × Nat) :=
  [(0x10000000, 2 ^ 63 + 0x10080000), (0x10080000, 2 ^ 63 + 0x10100000), (0x10080008, 0),
   (0x10100000, 2 ^ 63 + 0x10102000), (0x10100008, 0), (0x10102000, 2 ^ 63 + 2 ^ 62 + 2 ^ 60 + 2 ^ 59 + 2 ^ 58), (0x10102008, 0)]

/-- World 1 running on die 0 with one page, one resident warp of one lane, and the code at its pc (log entry 10). -/
def placeWord (s : State) (nbits w : Nat) : State :=
  let g := 2 ^ 48 + 1
  let mem := placeTables.foldl (fun m e => placeBytes m e.1 8 e.2) (placeBytes s.mem 0 16 (w % 2 ^ nbits))
  let tags := [0x10000000, 0x10080000, 0x10100000, 0x10102000].foldl
    (fun t a => Tab.set {} t (a / 128) { key := 1, die := 0, page := a / 2 ^ 16 }) (Tab.set {} s.tags 0 { key := 1 })
  { s with
    mem := mem
    tags := tags
    dies := s.dies.put 0 { s.die 0 with dlatch := 0x101, tblreg := 0x0000200010000000, trcfg := 0x20000000, tlb := [],
                                        slots := (s.die 0).slots.put 0 { key := 1 } }
    worlds := s.worlds.put 1 { s.world 1 with st := .running, mask := 1, resident := g }
    grids := s.grids.put g { resident := true, startTurn := s.seqNo, placed := [0],
                             hdr := { roles := [⟨0xFFF8000000000000, 1, 1, 384⟩], allres := true, prio := 7, spad := 1 } }
    gangs := s.gangs.put (g * 2 ^ 32) { primary := 1 }
    runs := s.runs.put 1 { world := 1, gang := g * 2 ^ 32, kind := 4, cores := [0], st := .resident }
    blocks := s.blocks.put 4 { run := 1, spadSize := 65536, nwarps := 1 }
    warps := s.warps.put 256 { regs := { m := [(0, 1)], s := [(1, handleOf g)] },
                               ctl := { pc := 0xFFF8000000000000, launched := 1, status := .ready, epoch := 1, alloc := 384 } }
    turns := .warp 256 :: s.turns }

end Sys2Proof.Machine
end

