-- ==== Sys2Proof/Machine/Control.lean ====
section
/-!
DEFINITION. Control flow, traps, segments and special registers (R34 to R38, R206 to R221), and the two fetch causes.
-/
namespace Sys2Proof.Machine

def execNop (o : Plain) (s : State) : Host.Outcome State Fault Refusal := next (issueU (.nop o) o.hd fun _ => .ret .ok) s

/-- The address an offset in words names from the warp's pc. -/
def branchTo (s : State) (w : Nat) (off : BitVec 32) : DWord := (s.warp w).ctl.pc + (off.signExtend 64 <<< (2 : Nat))

/-- Set m0 to a mask of lanes (control flow keeps it within the live lanes). -/
def setM0 (w : Nat) (m : Mask) : Prog Unit := upd (.mreg w 0 m)

/-- Push an entry; a stack deeper than 1,024 raises DIVERGE 2 (R35). -/
def pushes (w : Nat) (es : List StackEntry) (r : Prog Res) : Prog Res :=
  .get fun s =>
    if 1024 < (s.warp w).stack.length + es.length then .ret (diverge 2)
    else .bind (upd (.stack w (es ++ (s.warp w).stack))) fun _ => r

/-- BRA (R34, R207). -/
def execBra (o : Br) (s : State) : Host.Outcome State Fault Refusal :=
  next (issue (.bra o) fun w => .get fun s =>
    let t := s.m0 w &&& s.predMask w o.hd.pr
    .ret (if t = s.m0 w then .jump (branchTo s w o.off) else if t = 0 then .ok else diverge 1)) s

/-- BRD (R36, R208). -/
def execBrd (o : Brd) (s : State) : Host.Outcome State Fault Refusal :=
  next (issue (.brd o) fun w => .get fun s =>
    let m := s.m0 w
    let tk := m &&& s.predMask w o.hd.pr
    let nt := m &&& ~~~(s.predMask w o.hd.pr)
    let t := branchTo s w o.toff
    let j : StackEntry := ⟨.join, branchTo s w o.joff, m⟩
    if tk ≠ 0 ∧ nt ≠ 0 then
      pushes w [⟨.path, t, tk⟩, j] (.bind (setM0 w nt) fun _ => .ret .ok)
    else if tk ≠ 0 then pushes w [j] (.ret (.jump t))
    else pushes w [j] (.ret .ok)) s

/-- What a warp does when it has no path left: its last segment ends, and open barrier phases may complete (R40, R168). -/
def warpExits (w : Nat) : Prog Res :=
  letI := progMonad
  do
    upd (.ctl w fun c => { c with exitedLanes := c.launched })
    segEnd w false
    forAll (List.range 16) fun n => barCheck (blockOfWarp w) n (some w)
    gbarCheck (runOfWarp w) (some w)
    pure .exited

/-- Pop as EXIT does (R38): drop entries with an empty mask, act on the first other; with none left the warp has exited. -/
def popExit (w : Nat) : List StackEntry → Prog Res
  | [] => .bind (upd (.stack w [])) fun _ => warpExits w
  | e :: t =>
    if e.mask = 0 then popExit w t
    else .bind (upd (.stack w t)) fun _ => .bind (setM0 w e.mask) fun _ =>
      .ret (.jump (match e.kind with | .join => skip28 (e.addr + 8) | _ => e.addr))

/-- JOIN (R37). -/
def execJoin (o : Plain) (s : State) : Host.Outcome State Fault Refusal :=
  next (issueU (.join o) o.hd fun w => .get fun s =>
    match (s.warp w).stack with
    | [] => .ret (diverge 4)
    | e :: t =>
      if e.mask = 0 then popExit w t
      else match e.kind with
        | .path => .bind (upd (.stack w t)) fun _ => .bind (setM0 w e.mask) fun _ => .ret (.jump e.addr)
        | .join =>
          if e.addr = (s.warp w).ctl.pc then .bind (upd (.stack w t)) fun _ => .bind (setM0 w e.mask) fun _ => .ret .ok
          else .ret (diverge 3)
        | .ret => .ret (diverge 3)) s

/-- CALL (R210). -/
def execCall (o : Br) (s : State) : Host.Outcome State Fault Refusal :=
  next (issueU (.call o) o.hd fun w => .get fun s =>
    pushes w [⟨.ret, nextPc (s.warp w).ctl.pc (.call o), s.m0 w⟩] (.ret (.jump (branchTo s w o.off)))) s

/-- RET (R211). -/
def execRet (o : Plain) (s : State) : Host.Outcome State Fault Refusal :=
  next (issueU (.ret o) o.hd fun w => .get fun s =>
    match (s.warp w).stack with
    | [] => .ret (diverge 4)
    | e :: t =>
      if e.mask = 0 then popExit w t
      else .bind (upd (.stack w t)) fun _ => .bind (setM0 w e.mask) fun _ => .ret (.jump e.addr)) s

/-- JMPI (R212): the fetch at the target checks it. -/
def execJmpi (o : Src1) (s : State) : Host.Outcome State Fault Refusal :=
  next (issueU (.jmpi o) o.hd fun w => .get fun s => .ret (.jump (s.sreg w o.a.val))) s

/-- EXIT (R38, R213). -/
def execExit (o : Plain) (s : State) : Host.Outcome State Fault Refusal :=
  next (issue (.exit o) fun w => .get fun s =>
    let ls := s.m0 w &&& s.predMask w o.hd.pr
    if ls = 0 then .ret .ok
    else
      let m := s.m0 w &&& ~~~ls
      let stk := (s.warp w).stack.map fun e => { e with mask := e.mask &&& ~~~ls }
      .bind (upd (.ctl w fun c => { c with exitedLanes := c.exitedLanes ||| ls })) fun _ =>
        if m ≠ 0 then .bind (upd (.stack w stk)) fun _ => .bind (setM0 w m) fun _ => .ret .ok
        else .bind (setM0 w 0) fun _ => popExit w stk) s

/-- YIELD (R217): the warp goes behind every other; it has no other effect. -/
def execYield (o : Plain) (s : State) : Host.Outcome State Fault Refusal :=
  next (issueU (.yield o) o.hd fun _ => .ret .ok) s

/-- TRAP and BKPT (R218). -/
def execTrap (o : Trap) (s : State) : Host.Outcome State Fault Refusal :=
  next (issueU (.trap o) o.hd fun _ => .ret (faultAt .softtrap (o.imm.setWidth 64))) s
def execBkpt (o : Plain) (s : State) : Host.Outcome State Fault Refusal :=
  next (issueU (.bkpt o) o.hd fun _ => .ret (faultOf .bkpt)) s

/-- SEGEND (R219). -/
def execSegend (o : Plain) (s : State) : Host.Outcome State Fault Refusal :=
  next (issueU (.segend o) o.hd fun w => .bind (segEnd w false) fun _ => .ret .ok) s

/-! ### Special registers -/

/-- Column and row of a cluster, numbered die·4 + cluster, in the 16×16 grid (R12). -/
def clusterAt (c : Nat) : Nat × Nat := (2 * (c / 4 % 8) + c % 2, 2 * (c / 4 / 8) + c % 4 / 2)

/-- The direction from one cluster to an adjacent one: 0 east, 1 west, 2 north, 3 south; 7 none (R12, R13). -/
def dirTo (a b : Nat × Nat) : Nat :=
  if b.1 = a.1 + 1 ∧ b.2 = a.2 then 0 else if a.1 = b.1 + 1 ∧ b.2 = a.2 then 1
  else if b.2 = a.2 + 1 ∧ b.1 = a.1 then 2 else if a.2 = b.2 + 1 ∧ b.1 = a.1 then 3 else 7

/-- Gangs of one stage of a grid. -/
def Hdr.gangs (h : Hdr) : Nat := h.gx * h.gy * h.gz
/-- Linear index of a gang in its grid, and its coordinates and stage (R161). -/
def gangIdx (g : Nat) : Nat := g % 2 ^ 32
def gangCoord (h : Hdr) (g : Nat) : Nat × Nat × Nat × Nat :=
  let i := gangIdx g
  (i % h.gx, i / h.gx % h.gy, i / (h.gx * h.gy) % h.gz, i / h.gangs)

/-- The gang of the neighbour stage of a chain (R12). -/
def stageGang (s : State) (g : Nat) (up : Bool) : Option Nat :=
  let h := (s.grid (gridOfGang g)).hdr
  let stage := gangIdx g / h.gangs
  if up && decide (h.chain ≤ stage + 1) then none
  else if !up && decide (stage = 0) then none
  else some (if up then g + h.gangs else g - h.gangs)

/-- The stage register (R13): one value for every run of the gang (R163), as it was first placed. -/
def stageReg (s : State) (run : Nat) : Nat :=
  let gk := (s.runOf run).gang
  let h := (s.grid (gridOfGang gk)).hdr
  let d (up : Bool) : Nat := match stageGang s gk up, (s.gang gk).place with
    | some k, some a => (match (s.gang k).place with | some b => dirTo (clusterAt a) (clusterAt b) | none => 7)
    | _, _ => 7
  gangIdx gk / h.gangs % 16 + (h.chain - 1) * 2 ^ 4 + d true * 2 ^ 8 + d false * 2 ^ 12

/-- Ring slots in a state that RHEAD or RTAIL counts (R58, R305). -/
def ringCount (g : Ring) (p : RSlot → Bool) : Nat := ((List.range 8).filter fun i => p (g.slots.get {} i)).length

/-- The value of a special register (R9, R56, R58), the lane register apart. -/
def specialReg (s : State) (w : Nat) (code : Nat) : DWord :=
  let wp := s.warp w
  let run := runOfWarp w
  let g := s.gangOfWarp w
  let h := (s.grid (s.gridOfWarp w)).hdr
  let b := s.block (blockOfWarp w)
  let ring := s.ring b.core
  match code with
  | 0x01 => BitVec.ofNat 64 (w % 64 + wp.ctl.role * 2 ^ 8 + wp.ctl.roleIdx * 2 ^ 16)
  | 0x02 => BitVec.ofNat 64 (b.idx + (h.gsize - 1) * 2 ^ 2)
  | 0x03 => let c := gangCoord h g; BitVec.ofNat 64 (c.1 + c.2.1 * 2 ^ 16 + c.2.2.1 * 2 ^ 32)
  | 0x04 => BitVec.ofNat 64 (stageReg s run)
  | 0x05 => BitVec.ofNat 64 Config.W
  | 0x06 => BitVec.ofNat 64 s.time
  | 0x07 => handleOf (s.gridOfWarp w)
  | 0x08 => BitVec.ofNat 64 b.spadSize
  | 0x10 => wp.regs.fpcr.setWidth 64
  | 0x11 => BitVec.ofNat 64 wp.ctl.runCnt.val
  | 0x12 => BitVec.ofNat 64 wp.stack.length
  | 0x18 => wp.ctl.fault.fpc
  | 0x19 => wp.ctl.fault.fcause
  | 0x1A => wp.ctl.fault.faddr
  | 0x1B => wp.ctl.fault.flanesl
  | 0x1C => wp.ctl.fault.flanesh
  | 0x1D => wp.ctl.fault.rprog
  | 0x20 => BitVec.ofNat 64 (ring.head.val + ringCount ring (fun t => t.st != .empty) * 2 ^ 8)
  | 0x21 => BitVec.ofNat 64 (ring.tail.val + ringCount ring (fun t => t.st == .full) * 2 ^ 8)
  | _ => 0

/-- Codes whose reads enter the feed log (R169). -/
def srLogged (code : Nat) : Bool := code == 0x06 || code == 0x20 || code == 0x21

/-- SRD (R220): once for the warp; the VR form writes every lane of m0. -/
def execSrd (o : Srd) (s : State) : Host.Outcome State Fault Refusal :=
  next (issue (.srd o) fun w => .get fun s =>
    if !uniformOn s w o.hd then .ret .ok
    else
      let code := o.code.toNat
      let live : Prog (Except Res Got) := .get fun s => .ret (.ok ([(0, (specialReg s w code).toNat)], none))
      let obtain_ : Prog (Except Res Got) := if srLogged code then withLog w 8 live else live
      let ls := lanesOf (s.m0 w)
      let val (g : Got) (l : Nat) : Nat := if code = 0 then l else (g.1.head?.map (·.2)).getD 0
      let vec (d : VOp) (words : Nat) : Prog Res := .bind (qGate w (.srd o) ls fun _ => ls) fun q => match q with
        | some r => .ret r
        | none => .bind obtain_ fun g => match g with
          | .error e => .ret e
          | .ok v => putRes w d words (ls.map fun l => (l, val v l % 2 ^ (32 * words)))
      match o.dst with
      | .s d => .bind obtain_ fun g => match g with
        | .error e => .ret e
        | .ok v => .bind (writeS w d.val (BitVec.ofNat 64 (val v ((lowest (s.m0 w)).getD 0)))) fun _ => .ret .ok
      | .v32 d => vec d 1
      | .v64 d => vec d 2) s

/-- SRW (R57, R221). Bits R58 makes read-only stay zero. FPCR has 32 bits, and a source of 64: bits 63:32 are taken as reserved
bits, which must be zero, or ILLOP (log entry 72). -/
def execSrw (o : Srw) (s : State) : Host.Outcome State Fault Refusal :=
  next (issueU (.srw o) o.hd fun w => .get fun s =>
    let v : DWord := match o.src with | .s r => s.sreg w r.val | .imm i => i.setWidth 64
    let set (f : FaultRec → FaultRec) : Prog Res := .bind (upd (.ctl w fun c => { c with fault := f c.fault })) fun _ => .ret .ok
    if o.code = 0x10 then
      (if v.toNat < 1024 ∧ v.toNat % 8 ≤ 4 then .bind (upd (.fpcr w (v.setWidth 32))) fun _ => .ret .ok else .ret (faultOf .illop))
    else if !sLevel s w then .ret (faultOf .priv)
    else if o.code = 0x18 then set fun f => { f with fpc := v }
    else if o.code = 0x19 then set fun f => { f with fcause := v &&& 0x1FFFF }
    else if o.code = 0x1A then set fun f => { f with faddr := v }
    else if o.code = 0x1B then set fun f => { f with flanesl := v }
    else if o.code = 0x1C then set fun f => { f with flanesh := v }
    else set fun f => { f with rprog := v &&& 0x80000007FFFF007F }) s

/-! ### What a fetch finds instead of an instruction (R185, R201, R401) -/

/-- Take the fault of a fetch, for a warp that may issue. -/
def fetchTrap (f : FaultInfo) : Prog Unit :=
  .get fun s =>
    let c := (s.warp s.cur).ctl
    if c.status ≠ .ready ∨ c.runCnt.val = 16 ∨ (s.runOf (runOfWarp s.cur)).st ≠ .resident then .ret ()
    else takeFault s.cur f

/-- No instruction at the pc (R201): ILLOP. Where the fetch finds something else, nothing happens. -/
def execUnassignedOpcode (s : State) : Host.Outcome State Fault Refusal :=
  next (.get fun s => .bind (fetch s.cur) fun r => match r with
    | .illop n => fetchTrap { cause := .illop, noLen := n }
    | _ => .ret ()) s

/-- The bytes at the pc cannot be fetched (R185, R401): the cause and address that the fetch meets. Where the fetch succeeds,
or meets a cause of the other kind than the event says, nothing happens. -/
def execFetchFault (protect : Bool) (s : State) : Host.Outcome State Fault Refusal :=
  next (.get fun s => .bind (fetch s.cur) fun r => match r with
    | .trap c a => whenP ((c == .protect) == protect) (fetchTrap { cause := c, faddr := a, noLen := true })
    | _ => .ret ()) s

end Sys2Proof.Machine
end

