-- ==== Sys2Proof/Machine/MaskVote.lean ====
section
/-!
DEFINITION. Mask and vote instructions (R227 to R229).
-/
namespace Sys2Proof.Machine

/-- Write a mask register, folded when the instruction `acts` in some lane; a write to m0 is ANDed with the live lanes and must leave a lane (R51, R227). -/
def setMask (w : Nat) (d : MReg) (v : Mask) (acts : Bool) : Prog Res :=
  .get fun s =>
    if d.val = 0 then
      let m := v &&& (s.warp w).ctl.live &&& Config.laneMask
      if m = 0 then .ret (diverge 6) else .bind (writeM w 0 m acts) fun _ => .ret .ok
    else .bind (writeM w d.val v acts) fun _ => .ret .ok

def execMand (o : MBin) (s : State) : Host.Outcome State Fault Refusal :=
  next (issueU (.mand o) o.hd fun w => .get fun s => setMask w o.d (s.mreg w o.a.val &&& s.mreg w o.b.val) true) s
def execMor (o : MBin) (s : State) : Host.Outcome State Fault Refusal :=
  next (issueU (.mor o) o.hd fun w => .get fun s => setMask w o.d (s.mreg w o.a.val ||| s.mreg w o.b.val) true) s
def execMxor (o : MBin) (s : State) : Host.Outcome State Fault Refusal :=
  next (issueU (.mxor o) o.hd fun w => .get fun s => setMask w o.d (s.mreg w o.a.val ^^^ s.mreg w o.b.val) true) s
def execMnot (o : MUn) (s : State) : Host.Outcome State Fault Refusal :=
  next (issueU (.mnot o) o.hd fun w => .get fun s => setMask w o.d (~~~(s.mreg w o.a.val) &&& Config.laneMask) true) s

/-- Write S[d] from a mask (R228). -/
def maskToS (w : Nat) (d : SReg) (v : DWord) : Prog Res := .bind (writeS w d.val v) fun _ => .ret .ok

def execMpopc (o : MCnt) (s : State) : Host.Outcome State Fault Refusal :=
  next (issueU (.mpopc o) o.hd fun w => .get fun s =>
    maskToS w o.d (BitVec.ofNat 64 (lanesOf (s.mreg w o.a.val)).length)) s
def execMfind (o : MCnt) (s : State) : Host.Outcome State Fault Refusal :=
  next (issueU (.mfind o) o.hd fun w => .get fun s =>
    let l := lanesOf (s.mreg w o.a.val)
    let n := if o.hi then l.getLast? else l.head?
    maskToS w o.d (match n with | some k => BitVec.ofNat 64 k | none => 0xFFFFFFFFFFFFFFFF)) s

/-- The voting lanes (R229): set in m0, predicate true. -/
def voters (s : State) (w : Nat) (h : Hd) : Mask := s.m0 w &&& s.predMask w h.pr

def execVote (o : Vote) (s : State) : Host.Outcome State Fault Refusal :=
  next (issue (.vote o) fun w => .get fun s => setMask w o.d (voters s w o.hd &&& s.predMask w o.a) (voters s w o.hd != 0)) s

/-- Write a uniform predicate result in every lane of m0 (R229); the lanes `on` have effect. -/
def votePred (w : Nat) (d : PReg) (on : Mask) (r : Bool) : Prog Res :=
  .get fun s => .bind (writeP w d (s.m0 w) (if r then Config.laneMask else 0) on) fun _ => .ret .ok

def execVoteAny (o : VoteP) (s : State) : Host.Outcome State Fault Refusal :=
  next (issue (.voteAny o) fun w => .get fun s => votePred w o.d (voters s w o.hd) (voters s w o.hd &&& s.predMask w o.a != 0)) s
def execVoteAll (o : VoteP) (s : State) : Host.Outcome State Fault Refusal :=
  next (issue (.voteAll o) fun w => .get fun s =>
    votePred w o.d (voters s w o.hd) (voters s w o.hd &&& ~~~(s.predMask w o.a) == 0)) s

end Sys2Proof.Machine
end

