-- ==== Sys2Proof/Machine/CrossLane.lean ====
section
/-!
DEFINITION. Cross-lane instructions (R90, R91, R263 to R269).
-/
namespace Sys2Proof.Machine

/-- The value of a source in every lane before the instruction writes (R263). A queue register holds an element only for
the lanes with effect; for another lane the value is open (log entry 7). -/
def laneVals (w : Nat) (ls : List Nat) (r : VOp) (words : Nat) : Prog (List Nat) :=
  .get fun s => match r with
    | .v _ => .ret (Config.lanes.map fun l => s.opnd w ls r words l)
    | .q _ => mapAll Config.lanes fun l =>
        if ls.contains l then .ret (s.opnd w ls r words l)
        else .bind freeVal fun f => .ret (f.toNat % 2 ^ (32 * words))

/-- Value and validity a lane reads from lane `src` (R263): an exited or never launched lane gives 0. -/
def crossRead (s : State) (w : Nat) (vals : List Nat) (src : Nat) : Nat × Bool :=
  if (s.warp w).ctl.live.getLsbD src then (vals[src]?.getD 0, true) else (0, false)

/-- SHFL's source lane; none when it lies outside the segment (R264). -/
def shflLane (mode : ShflMode) (seg n l : Nat) : Option Nat :=
  let j := l % seg
  let base := l - j
  match mode with
  | .idx => some (base + n % seg)
  | .up => if n ≤ j then some (base + (j - n)) else none
  | .down => if j + n < seg then some (base + (j + n)) else none
  | .xor => if j ^^^ n < seg then some (base + (j ^^^ n)) else none

def shflSeg (g : BitVec 3) : Nat := if g = 0 then Config.W else 2 ^ g.toNat

def execShfl (o : Shfl) (s : State) : Host.Outcome State Fault Refusal :=
  next (issueV (.shfl o) o.hd fun w ls => .bind (laneVals w ls o.a o.ty.words) fun vals => .get fun s =>
    let got (l : Nat) : Nat × Bool := match shflLane o.mode (shflSeg o.seg) (s.srcB w ls o.n 1 false l) l with
      | some t => crossRead s w vals t
      | none => (vals[l]?.getD 0, false)
    .bind (putRes w o.d o.ty.words (ls.map fun l => (l, (got l).1))) fun r => match r with
      | .ok => predRes w o.p ls (ls.filter fun l => (got l).2)
      | r => .ret r) s

/-- PERM (R265): a look-up across 2W values. -/
def execPerm (o : Perm) (s : State) : Host.Outcome State Fault Refusal :=
  next (issueV (.perm o) o.hd fun w ls => .bind (laneVals w ls o.a 1) fun va => .bind (laneVals w ls o.c 1) fun vc =>
    .get fun s =>
      let got (l : Nat) : Nat :=
        let n := s.srcB w ls o.b 1 false l % (2 * Config.W)
        if n < Config.W then (crossRead s w va n).1 else (crossRead s w vc (n - Config.W)).1
      putRes w o.d 1 (ls.map fun l => (l, got l))) s

/-- BCAST (R266): the lane comes from the lowest-numbered lane of m0. -/
def execBcast (o : VBin) (s : State) : Host.Outcome State Fault Refusal :=
  next (issueV (.bcast o) o.hd fun w ls => .bind (laneVals w ls o.a o.ty.words) fun va =>
    .bind (match o.b with | .v r => laneVals w ls r 1 | _ => .ret []) fun vb => .get fun s =>
      let n := match o.b with
        | .v _ => vb[(lowest (s.m0 w)).getD 0]?.getD 0
        | .s r => (s.sreg w r.val).toNat % 2 ^ 32
        | .imm i => i.toNat
      putRes w o.d o.ty.words (ls.map fun l => (l, (crossRead s w va (n % Config.W)).1))) s

/-! ### RDX and SCANX -/

/-- A lane's value, or absent (R90). -/
abbrev Lanes := List (Option Nat)

/-- ⊕ and its flags. -/
def rdxComb (op : RdxOp) (fpcr : Word) (a b : Nat) : Nat × Fl :=
  match op with
  | .i k ty => match k with
    | .add => ((a + b) % 2 ^ ty.bits, 0)
    | .min => (if rdInt ty a ≤ rdInt ty b then a else b, 0)
    | .max => (if rdInt ty b ≤ rdInt ty a then a else b, 0)
    | .and => (a &&& b, 0)
    | .or => (a ||| b, 0)
    | .xor => (a ^^^ b, 0)
  | .f k ft => match k with
    | .add rm => fAdd ft rm fpcr a b
    | .min => fMinMax ft false false fpcr a b
    | .max => fMinMax ft true false fpcr a b

/-- The identity of an operation (R267). -/
def rdxIdent (op : RdxOp) : Nat :=
  match op with
  | .i k ty => match k with
    | .add => 0
    | .min => wrInt ty.bits (itMax ty)
    | .max => wrInt ty.bits (itMin ty)
    | .and => 2 ^ ty.bits - 1
    | .or => 0
    | .xor => 0
  | .f k ft => match k with
    | .add _ => fZero ft true
    | .min => fInf ft false
    | .max => fInf ft true

def rdxWords (op : RdxOp) : Nat := match op with | .i _ ty => ty.words | .f _ ft => ft.words

/-- Combine two lanes' values, lower lane first: the result, with the flags of a ⊕ when both are present. -/
def combine (f : Nat → Nat → Nat × Fl) (a b : Option Nat) : Option Nat × Option Fl :=
  match a, b with
  | some x, some y => let r := f x y; (some r.1, some r.2)
  | some x, none => (some x, none)
  | none, some y => (some y, none)
  | none, none => (none, none)

/-- One level of R90 or R91: each lane's new value with the flags of its ⊕. `partner` gives the two lanes combined. -/
def rdxLevel (f : Nat → Nat → Nat × Fl) (partner : Nat → Option (Nat × Nat)) (x : Lanes) : List (Option Nat × Option Fl) :=
  Config.lanes.map fun l => match partner l with
    | some (a, b) => combine f (x[a]?.getD none) (x[b]?.getD none)
    | none => (x[l]?.getD none, none)

/-- The distances 1, 2, 4, … below W. -/
def rdxDists : List Nat := (List.range (Nat.log2 Config.W)).map fun i => 2 ^ i

/-- All levels: the final values and the flags with the lanes that raised them, in order. -/
def rdxRun (f : Nat → Nat → Nat × Fl) (scan : Bool) (x : Lanes) : Lanes × List (Nat × Fl) :=
  rdxDists.foldl (fun st d =>
    let partner (l : Nat) : Option (Nat × Nat) :=
      if scan then (if d ≤ l then some (l - d, l) else none)
      else if l % (2 * d) = 0 then some (l, l + d) else none
    let r := rdxLevel f partner st.1
    (r.map (·.1), st.2 ++ r.zipIdx.filterMap fun e => e.1.2.map fun fl => (e.2, fl))) (x, [])

/-- Flags go to the lane that performs the ⊕ when it is in m0, else to the lowest lane of m0 (R268); one entry a lane. -/
def rdxFlags (m0 : Mask) (fl : List (Nat × Fl)) : List (Nat × Fl) :=
  let low := (lowest m0).getD 0
  let put := fl.map fun e => (if m0.getLsbD e.1 then e.1 else low, e.2)
  (lanesOf m0).map fun l => (l, put.foldl (fun a e => if e.1 = l then a ||| e.2 else a) 0)

/-- Write a result in every lane listed, to a V destination; the lanes `on` have effect, and fold it (R166). To a queue register
every lane listed pushes (log entry 32). -/
def putOver (w : Nat) (d : VOp) (words : Nat) (res : List (Nat × Nat)) (on : Nat → Bool) : Prog Res :=
  match d with
  | .v n => .bind (forAll res fun e => putV w n.val e.1 words e.2) fun _ =>
      .bind (foldSig w ((res.filter fun e => on e.1).flatMap fun e => foldWords words e.2)) fun _ => .ret .ok
  | .q _ => putRes w d words res

/-- RDX and SCANX (R267, R268). -/
def rdxOp (i : Instr) (scan : Bool) (o : Rdx) : Prog Unit :=
  issueL i o.hd (fun s w _ => lanesOf (s.m0 w)) fun w ls => .get fun s =>
    let words := rdxWords o.op
    let x : Lanes := Config.lanes.map fun l => if ls.contains l then some (s.opnd w ls o.a words l) else none
    let r := rdxRun (rdxComb o.op (s.fpcr w)) scan x
    let val (l : Nat) : Nat := ((r.1[if scan then l else 0]?).getD none).getD (rdxIdent o.op)
    finishFp w (rdxFlags (s.m0 w) r.2) (putOver w o.d words ((lanesOf (s.m0 w)).map fun l => (l, val l)) ls.contains) ls.contains

def execRdx (o : Rdx) (s : State) : Host.Outcome State Fault Refusal := next (rdxOp (.rdx o) false o) s
def execScanx (o : Rdx) (s : State) : Host.Outcome State Fault Refusal := next (rdxOp (.scanx o) true o) s

/-- MATCH (R269). -/
def execMatchX (o : MatchOp) (s : State) : Host.Outcome State Fault Refusal :=
  next (issueL (.matchX o) o.hd (fun _ _ ls => ls) fun w ls => .get fun s =>
    let cand := ls.filter fun l => (s.mreg w o.b.val).getLsbD l
    let val (l : Nat) : Nat := s.opnd w ls o.a o.ty.words l
    match o.dst with
    | .first d => match cand with
      | [] => setMask w d 0 (!ls.isEmpty)
      | c :: _ => setMask w d (maskOf (cand.filter fun l => val l == val c)) true
    | .all d => votePred w d (maskOf ls) (match cand with | [] => true | c :: _ => cand.all fun l => val l == val c)) s

end Sys2Proof.Machine
end

