-- ==== Sys2Proof/Machine/Queue.lean ====
section
/-!
DEFINITION. Queue registers and engine queues: QCFG (R118, R293 to R295) and QFENCE (R119, R297).
-/
namespace Sys2Proof.Machine

/-- The stream a record describes, if the record is legal (R118, R294). A base in a window is none: R294 names QUEUE for it, and
R95, which R294 cites, PROTECT; the rule of the instruction is followed (log entry 72). -/
def streamRecord (w q : Nat) (bs : List Byte) : Option (Nat × Stream) :=
  let base : DWord := BitVec.ofNat 64 (leNat (bs.take 8))
  let stride : DWord := BitVec.ofNat 64 (leNat ((bs.drop 8).take 8))
  let w2 := leNat ((bs.drop 16).take 8)
  let w3 := leNat ((bs.drop 24).take 8)
  let esize := 2 ^ (w3 % 8)
  if w2 / 2 ^ 40 ≠ 0 ∨ w3 / 2 ^ 8 ≠ 0 ∨ 3 < w3 % 8 ∨ w2 = 0 ∨ base.toNat % esize ≠ 0 ∨ stride.toNat % esize ≠ 0
      ∨ inWindow base then none
  else some (w3 / 2 ^ 5, { warp := w, q, bound := true, base, stride, count := w2, sext := bitsAt w3 4 1 == 1,
                           store := bitsAt w3 3 1 == 1, esize })

/-- An engine of the block serves another queue register. -/
def engineTaken (s : State) (w q e : Nat) : Bool :=
  let t := (s.block (blockOfWarp w)).streams.get {} e
  (t.bound && !(t.warp == w && t.q == q))

/-- Elements pushed to a store engine and not performed, one that met a cause among them. -/
def engineBusy (s : State) (blk e : Nat) : Bool :=
  !((s.block blk).streams.get {} e).pend.isEmpty || s.ops.any fun o => o.2.blk == blk && o.2.queue == 8 + e && !o.2.finished

/-- Bind a queue register, or unbind it; the old binding ends (R295). -/
def bindQueue (w q : Nat) (new : Option (Nat × Stream)) : Prog Unit :=
  letI := progMonad
  do
    let s ← st
    (match s.streamOf w q with
      | some (e, t) => upd (.block (blockOfWarp w) fun b =>
          { b with streams := b.streams.put e { t with bound := false, ahead := [] } })
      | none => pure ())
    (match new with
      | some (e, t) => do
        upd (.block (blockOfWarp w) fun b => { b with streams := b.streams.put e t })
        upd (.ctl w fun c => { c with qbind := Tab.set 0 c.qbind q (e + 1) })
      | none => upd (.ctl w fun c => { c with qbind := Tab.set 0 c.qbind q 0 }))

/-- QCFG (R293 to R295), whose predicate counts in the lowest lane of m0, as it acts once for the warp (log entry 79): the effect
waits until an old store binding has performed every element pushed. -/
def execQcfg (o : Qcfg) (s : State) : Host.Outcome State Fault Refusal :=
  letI := progMonad
  next (issueU (.qcfg o) o.hd fun w => do
    let s ← st
    let q := o.q.val
    let a := match o.src with | .v r => s.vpair w r.val ((lowest (s.m0 w)).getD 0) | .s r => s.sreg w r.val
    let bad : Res := .fault { cause := .queue, faddr := BitVec.ofNat 64 q }
    let old := (match s.streamOf w q with
      | some (e, t) => if t.store && engineBusy s (blockOfWarp w) e then some e else none
      | none => none)
    if a = 0 then match old with
      | some e => pure (.wait (.drain e))
      | none => do
        bindQueue w q none
        pure .ok
    else if a.toNat % 32 ≠ 0 then pure bad
    else do
      let r ← structRead w a 32
      match r with
      | .error e => pure e
      | .ok bs => match streamRecord w q bs with
        | none => pure bad
        | some (e, t) => do
          let s ← st
          if engineTaken s w q e then pure bad
          else match old with
            | some k => pure (.wait (.drain k))
            | none =>
              if engineBusy s (blockOfWarp w) e then pure (.wait (.drain e))
              else do
                bindQueue w q (some (e, t))
                pure .ok) s

/-- QFENCE (R297), whose predicate counts in the lowest lane of m0 (log entry 79): the park lasts until the warp's operations in
the masked queues are performed. -/
def execQfence (o : Qfence) (s : State) : Host.Outcome State Fault Refusal :=
  next (issueU (.qfence o) o.hd fun _ => .get fun s => .ret (.park (.queues o.mask s.seqNo))) s

end Sys2Proof.Machine
end

