-- ==== Sys2Proof/Machine/Resolve.lean ====
section
/-!
DEFINITION. What resolves a fault: the items of a warp that a handler reads and patches (R336, R337), .retry and .skip
(R62, R303), and the end of a warp (R338).
-/
namespace Sys2Proof.Machine

/-! ### Items of a warp (R336) -/

/-- An item of WSTATE. -/
inductive Item where
  | pc
  | fault (n : Nat)
  | flags
  | mlo (n : Nat)
  | mhi (n : Nat)
  | fpcr
  | depth
  | fpsr (l : Nat)
  | s (n : Nat)
  | plo (n : Nat)
  | phi (n : Nat)
  | v (r l : Nat)
  deriving DecidableEq, Repr

/-- The item a code names. -/
def itemOf (c : Nat) : Option Item :=
  if c = 0 then some .pc
  else if c ≤ 6 then some (.fault (c - 1))
  else if c = 7 then some .flags
  else if 0x10 ≤ c ∧ c ≤ 0x17 then some (.mlo (c - 0x10))
  else if 0x18 ≤ c ∧ c ≤ 0x1F then some (.mhi (c - 0x18))
  else if c = 0x20 then some .fpcr
  else if c = 0x21 then some .depth
  else if 0x80 ≤ c ∧ c ≤ 0xFF then some (.fpsr (c - 0x80))
  else if 0x100 ≤ c ∧ c ≤ 0x17F then some (.s (c - 0x100))
  else if 0x180 ≤ c ∧ c ≤ 0x18E then some (.plo (c - 0x180))
  else if 0x190 ≤ c ∧ c ≤ 0x19E then some (.phi (c - 0x190))
  else if 0x10000 ≤ c ∧ c < 0x10000 + 384 * 128 then some (.v ((c - 0x10000) / 128) ((c - 0x10000) % 128))
  else none

/-- The halves of a mask. -/
def maskLo (m : Mask) : DWord := m.setWidth 64
def maskHi (m : Mask) : DWord := (m >>> (64 : Nat)).setWidth 64
def putLo (m : Mask) (v : DWord) : Mask := (maskHi m) ++ v
def putHi (m : Mask) (v : DWord) : Mask := v ++ (maskLo m)

/-- The warp is parked at a fault (R331): a fault is recorded and unresolved. -/
def Ctl.parked (c : Ctl) : Bool := c.status == .faulted || (c.status == .exited && c.deferred.isSome)
/-- The warp is parked at its recorded fault, or was when its grid stopped (R456). -/
def Ctl.atFault (c : Ctl) : Bool := c.parked || (c.status == .stopped && c.stoppedAt)

/-- The value of an item. -/
def itemVal (s : State) (w : Nat) (i : Item) : DWord :=
  let c := (s.warp w).ctl
  let r := (s.warp w).regs
  match i with
  | .pc => c.contPc
  | .fault n => (match n with
    | 0 => c.fault.fpc | 1 => c.fault.fcause | 2 => c.fault.faddr | 3 => c.fault.flanesl | 4 => c.fault.flanesh
    | _ => c.fault.rprog)
  | .flags => BitVec.ofNat 64 ((if c.parked then 1 else 0) + (if c.deferred.isSome then 2 else 0)
      + (if c.status = .exited then 4 else 0) + (if c.held.isEmpty then 0 else 8))
  | .mlo n => maskLo (r.m.get 0 n)
  | .mhi n => maskHi (r.m.get 0 n)
  | .fpcr => r.fpcr.setWidth 64
  | .depth => BitVec.ofNat 64 (s.warp w).stack.length
  | .fpsr l => (r.fpsr.get 0 l).setWidth 64
  | .s n => r.s.get 0 n
  | .plo n => maskLo (r.p.get 0 n)
  | .phi n => maskHi (r.p.get 0 n)
  | .v x l => (r.v.get 0 (x * 128 + l)).setWidth 64

/-! ### Patches (R337) -/

/-- Width of a writable item; none when it is not writable. -/
def itemWidth (i : Item) : Option Nat :=
  match i with
  | .fault _ | .flags | .depth => none
  | .fpcr | .v _ _ => some 32
  | .fpsr _ => some 6
  | _ => some 64

/-- The mask register a patch leaves (R51): bits above W zero, m0 within the live lanes. -/
def patchMask (c : Ctl) (n : Nat) (m : Mask) : Mask :=
  if n = 0 then m &&& Config.laneMask &&& c.live else m &&& Config.laneMask

/-- The cause a patch raises in the handler, given m0 as earlier patches leave it, and m0 after it. -/
def checkPatch (c : Ctl) (m0 : Mask) (p : DWord × DWord) : Except Res Mask :=
  match itemOf p.1.toNat with
  | none => .error (faultOf .illop)
  | some i => match itemWidth i with
    | none => .error (faultOf .illop)
    | some n =>
      let next0 (m : Mask) : Except Res Mask := if patchMask c 0 m = 0 then .error (diverge 6) else .ok (patchMask c 0 m)
      if 2 ^ n ≤ p.2.toNat then .error (faultOf .illop)
      else match i with
        | .fpcr => if fpcrOk (p.2.setWidth 32) then .ok m0 else .error (faultOf .illop)
        | .mlo 0 => next0 (putLo m0 p.2)
        | .mhi 0 => next0 (putHi m0 p.2)
        | _ => .ok m0

/-- Check a list of patches before any is applied. -/
def checkPatches (c : Ctl) : Mask → List (DWord × DWord) → Option Res
  | _, [] => none
  | m, p :: t => match checkPatch c m p with | .error e => some e | .ok m => checkPatches c m t

/-- Set an item of a warp. Registers above the allotment and lanes never launched keep no value (R18). -/
def setItem (w : Nat) (i : Item) (v : DWord) : Prog Unit :=
  .get fun s =>
    let c := (s.warp w).ctl
    let r := (s.warp w).regs
    match i with
    | .pc => upd (.ctl w fun c => { c with contPc := v, parkedIn := none, memFault := if c.deferred.isSome then c.memFault else false,
                                                noLen := if c.deferred.isSome then c.noLen else false })
    | .mlo n => upd (.mreg w n (patchMask c n (putLo (r.m.get 0 n) v)))
    | .mhi n => upd (.mreg w n (patchMask c n (putHi (r.m.get 0 n) v)))
    | .fpcr => upd (.fpcr w (v.setWidth 32))
    | .fpsr l => whenP (c.launched.getLsbD l) (upd (.fpsr w l (v.setWidth 6)))
    | .s n => upd (.sreg w n v)
    | .plo n => upd (.preg w n (putLo (r.p.get 0 n) v &&& c.launched))
    | .phi n => upd (.preg w n (putHi (r.p.get 0 n) v &&& c.launched))
    | .v x l => whenP (decide (x < c.alloc) && c.launched.getLsbD l) (upd (.v w (x * 128 + l) (v.setWidth 32)))
    | .fault _ | .flags | .depth => .ret ()

/-- Apply a patch to a warp (R337). -/
def applyPatch (w : Nat) (p : DWord × DWord) : Prog Unit :=
  match itemOf p.1.toNat with
  | some i => setItem w i p.2
  | none => .ret ()

/-- A patch list moves the warp (R337). -/
def movesWarp (ps : List (DWord × DWord)) : Bool := ps.any fun p => p.1 == 0

/-! ### .retry, .skip and the end of a warp (R62, R302, R303, R338) -/

/-- The lanes of FLANES. -/
def flanesOf (f : FaultRec) : Mask := f.flanesh ++ f.flanesl

/-- The warp issues again or is parked at its QFENCE again, unless a deferred fault is held behind the one resolved (R302). -/
def goOn (w : Nat) (pc : DWord) (retry : Option Mask) : Prog Unit :=
  .bind (upd (.ctl w fun c =>
    { c with pc := pc, contPc := pc, retry := retry, deferred := none, pending := none, runCnt := 0, runLog := [], runOld := [],
             waitFrom := none, arrived := none, mwDone := 0, mwWords := [], memFault := false, noLen := false,
             parkedIn := none,
             status := if c.status = .exited then .exited else match c.parkedIn with | some p => .parked p | none => .ready }))
    fun _ => recordDeferred w

/-- Resolve the fault of a warp by .retry or .skip (R303). A warp that a patch moved resumes at that address, either way. A retry
of a fault of the fetch keeps the lanes that an instruction partly performed has left (R62). -/
def resolveWarp (w : Nat) (skip moved : Bool) : Prog Unit :=
  letI := progMonad
  do
    let s ← st
    let c := (s.warp w).ctl
    match c.deferred with
    | some k => do
      (if skip then abandonOp k else retryOp k)
      goOn w c.contPc (if moved then none else c.retry)
    | none =>
      if moved then goOn w c.contPc none
      else if skip then do
        upd (.ctl w fun c => { c with pc := c.contPc })
        let n ← fetchLen w
        goOn w (skip28 (c.contPc + BitVec.ofNat 64 n)) none
      else goOn w c.contPc (if c.memFault then some (flanesOf c.fault) else c.retry)

/-- End a warp (R338): every live lane executes EXIT; deferred operations of it are abandoned. -/
def killWarp (w : Nat) : Prog Unit :=
  letI := progMonad
  do
    let s ← st
    let c := (s.warp w).ctl
    forAll (c.deferred.toList ++ c.held.map (·.op)) abandonOp
    upd (.ctl w fun c => { c with deferred := none, held := [], pending := none })
    upd (.stack w [])
    upd (.mreg w 0 0)
    whenP (c.status != .exited) (do
      let _ ← warpExits w
      upd (.ctl w fun c => { c with status := .exited }))

/-- Apply a resolution to a warp. -/
def applyResolution (w : Nat) (r : Resolution) (moved : Bool) : Prog Unit :=
  match r with
  | .retry => resolveWarp w false moved
  | .skip => resolveWarp w true moved
  | .kill => killWarp w

/-- The code of a pending resolution (R390). -/
def resCode : Option Resolution → Nat
  | none => 0 | some .retry => 1 | some .skip => 2 | some .kill => 3

/-- Log the resolution of a primary's precise fault with the patches, and fold the fault (R166, R182): what the shadow and
arbiter apply. A record that does not fit ends the segment before the fault, and waits for room (R168, R170). -/
def logResolution (w : Nat) (r : Resolution) (ps : List (DWord × DWord)) : Prog Unit :=
  letI := progMonad
  do
    let s ← st
    let c := (s.warp w).ctl
    let f := c.fault
    whenP (s.checkedWarp w && s.isPrimary w && c.deferred.isNone) (do
      let gk := s.gangOfWarp w
      let payload := List.append ([f.fpc, f.fcause, f.faddr, f.flanesl, f.flanesh, f.rprog, BitVec.ofNat 64 (resCode (some r))].flatMap
          fun d => leBytes 8 d.toNat) (ps.flatMap fun p => List.append (leBytes 8 p.1.toNat) (leBytes 8 p.2.toNat))
      let need := 8 + payload.length
      let rec_ : LogRec :=
        { warp := gangWarp w, data := ps.map fun p => p.1.toNat * 2 ^ 64 + p.2.toNat,
          fault := some ⟨field f.fcause 0 16, f.faddr, flanesOf f, bitAt f.fcause 16, c.memFault⟩, res := some r,
          issued := c.issued, bytes := need }
      let ok ← logReady gk need
      if ok then do
        foldFault w
        logAppend w need rec_ payload
      else do
        let _ ← waitExtent w need
        foldFault w
        upd (.gang gk fun g => { g with log := g.log ++ [{ rec_ with ready := false }]
                                        backlog := g.backlog ++ [.res (gangWarp w) c.logPos payload] })
        upd (.ctl w fun c => { c with logPos := c.logPos + 1 }))

/-- A warp whose record waits for room in the feed log issues nothing before it is written (R170). -/
def holdForLog (w : Nat) : Prog Unit :=
  .get fun s =>
    let mine (x : LogWait) : Bool := match x with | .res gw _ _ => gw == gangWarp w | .seg _ => false
    whenP (s.checkedWarp w && s.isPrimary w && (s.gang (s.gangOfWarp w)).backlog.any mine) (upd (.ctl w fun c =>
      if c.status = .ready then { c with status := .waiting (.extent 0) } else c))

end Sys2Proof.Machine
end

