-- ==== Sys2Proof/Machine/Save.lean ====
section
/-!
DEFINITION. The context-save record of a gang in memory (R388 to R390), and its loading. How a region lies in its bytes
whose layout the spec leaves open is a free value.
-/
namespace Sys2Proof.Machine

/-- Round up to 4 KiB. -/
def page4k (n : Nat) : Nat := (n + 4095) / 4096 * 4096

/-- The n bytes of a region whose content is given and whose layout is not. -/
def laidOut (kind : Nat) (content : List Nat) (n : Nat) : List Byte := (List.range n).map (Config.saveLayout kind content)

/-- A number in 8 bytes. -/
def dw (n : Nat) : List Byte := leBytes 8 n

/-! ### Warp records (R390) -/

/-- The code of a wait in the order of the rows of R39; none for a wait that is not one of its rows. A wait for the feed log is as at
a marker (R170, R342). -/
def waitCode : Wait → Option Nat
  | .extent _ | .record => some 0
  | .line .. => some 1
  | .pwait _ => some 2
  | .mwait .. => some 3
  | .bar _ _ => some 4
  | .await _ _ => some 5
  | .gbar _ => some 6
  | .queue _ _ | .room _ _ => some 7
  | .slots _ => some 8
  | .rwait _ => some 9
  | .nbpop _ | .nbpush _ _ => some 10
  | _ => none

/-- A warp's state word; `f` gives the code of a wait that is not one of R39's rows, and the code of a warp that has exited
with nothing left to resolve, where the spec gives none. -/
def stateCode (c : Ctl) (f : Nat) : Nat :=
  match c.status with
  | .ready => 0
  | .waiting k => 1 + (waitCode k).getD (f % 32) * 8
  | .parked _ => 1
  | .faulted => if c.deferred.isSome || !c.held.isEmpty then 3 else 2
  | .exited => if c.deferred.isSome then 4 else f % 8
  | .stopped => f % 8

/-- Address and value, or barrier and phase, of a wait that has them; `f` and `g` where it has none. -/
def waitWords (f g : Nat) : Wait → Nat × Nat
  | .mwait addrs vals _ => ((addrs.headD (0, 0)).2.toNat, (vals.headD (0, 0)).2.toNat)
  | .pwait lanes => (match lanes with | e :: _ => e.1.toNat | [] => f, g)
  | .line _ _ a | .route _ _ a => (a.toNat, g)
  | .gwait h => (h.toNat, g)
  | .bar n p | .await n p => (n, p)
  | .gbar p => (f, p)
  | _ => (f, g)

/-- Where the next record that a warp appends to its log, or takes from it, lies: the extent, and the offset in it. -/
def logPlace (s : State) (w : Nat) : Nat × Nat :=
  let g := s.gang (s.gangOfWarp w)
  match (if s.isCopy w then s.nextRec w else none) with
  | some r => (r.offset / 65536, r.offset % 65536)
  | none => (g.extents.getLast?.getD 0, g.extUsed)

/-- A mask in 16 bytes. -/
def maskBytes (m : Mask) : List Byte := leBytes 16 m.toNat

/-- A reconvergence-stack entry in 32 bytes. -/
def stackBytes (e : StackEntry) : List Byte :=
  List.append (dw e.addr.toNat) (List.append (dw (match e.kind with | .path => 0 | .join => 1 | .ret => 2)) (maskBytes e.mask))

/-- Size of a warp's record. -/
def warpSize (s : State) (w : Nat) : Nat := 8192 + 4 * Config.W * (s.warp w).ctl.alloc + 32 * ((s.warp w).stack.length - 32)

/-- Operations of a block not yet performed, by number; a COLL is not saved (R384). -/
def savedOpList (s : State) (k : Nat) : Tab Op :=
  s.ops.filter fun e => blockOfWarp e.2.warp == k && !e.2.finished && (match e.2.kind with | .coll _ => false | _ => true)
def savedOps (s : State) (k : Nat) : Nat := (savedOpList s k).length

/-- The index, among the saved operations of its block, of the operation of a warp's recorded deferred fault (R390). -/
def deferredIdx (s : State) (w : Nat) : Nat :=
  match (s.warp w).ctl.deferred with
  | some k => (savedOpList s (blockOfWarp w)).findIdx fun e => e.1 == k
  | none => 0

/-- The parts of a warp's record, by offset, given its state word and wait operands. -/
def warpParts (s : State) (w : Nat) (state : Nat) (ops : Nat × Nat) : List (Nat × List Byte) :=
  let x := s.warp w
  let c := x.ctl
  let g := s.gang (s.gangOfWarp w)
  let h := (s.grid (s.gridOfWarp w)).hdr
  let log := logPlace s w
  let ext := if g.checked && !g.extents.isEmpty then h.feedBase.toNat + log.1 * 65536 else 0
  let f := c.fault
  [ (0x0000, List.append (dw (if c.parked then c.contPc else c.pc).toNat) (dw state)),
    (0x0010, List.append (dw ops.1) (dw ops.2)),
    (0x0020, List.append (dw x.regs.fpcr.toNat) (dw x.stack.length)),
    (0x0030, List.append (dw ext) (dw (if g.checked then log.2 else 0))),
    (0x0040, List.append (dw c.sig.toNat) (dw (resCode c.pending))),
    (0x0050, List.replicate 48 0),
    (0x0080, [f.fpc, f.fcause, f.faddr, f.flanesl, f.flanesh, f.rprog, BitVec.ofNat 64 (deferredIdx s w)].flatMap fun d => dw d.toNat),
    (0x00B8, List.replicate 72 0),
    (0x0100, (List.range 8).flatMap fun n => maskBytes (x.regs.m.get 0 n)),
    (0x0180, (List.range 15).flatMap fun n => maskBytes (x.regs.p.get 0 n)),
    (0x0270, List.replicate 16 0),
    (0x0280, (List.range 128).map fun l => (x.regs.fpsr.get 0 l).setWidth 8),
    (0x0300, List.replicate 256 0),
    (0x0400, (List.range 128).flatMap fun n => dw (x.regs.s.get 0 n).toNat),
    (0x0800, (x.stack.take 32).flatMap stackBytes),
    (0x0C00, List.replicate 5120 0),
    (0x2000, (List.range c.alloc).flatMap fun v => Config.lanes.flatMap fun l => leBytes 4 (s.vreg w v l).toNat),
    (0x2000 + 4 * Config.W * c.alloc, (x.stack.drop 32).flatMap stackBytes) ]

/-- Write parts at their offsets from an address, as the device does. -/
def writeParts (world : Nat) (base : DWord) (ps : List (Nat × List Byte)) : Prog Unit :=
  forAll ps fun p => .bind (devWrite world 0 (base + BitVec.ofNat 64 p.1) p.2) fun _ => .ret ()

/-- Write a warp's record. -/
def saveWarp (world : Nat) (base : DWord) (w : Nat) : Prog Unit :=
  letI := progMonad
  do
    let s ← st
    let c := (s.warp w).ctl
    let f1 ← freeVal
    let f2 ← freeVal
    let f3 ← freeVal
    let ops := match c.status with | .waiting k => waitWords f2.toNat f3.toNat k | _ => (f2.toNat, f3.toNat)
    writeParts world base (warpParts s w (stateCode c f1.toNat) ops)

/-! ### A block's record (R388, R389) -/

/-- The offset of a block's scratchpad image: after its header and warp records. -/
def spadOffset (s : State) (k : Nat) : Nat :=
  4096 + page4k ((s.warpsOfBlock k).foldl (fun n w => n + warpSize s w) 0)

/-- A tensor map and a stamp as numbers. -/
def mapNums (m : TMap) : List Nat := [m.addr.toNat, m.base.toNat, m.fmt, m.aon.toNat, m.bnd.toNat, m.bidx, m.ver.toNat]
def stampNums : Option Stamp → List Nat
  | none => []
  | some t => [t.addr.toNat, t.val.toNat, t.sc.code]

/-- A descriptor as read at issue. -/
def descNums : OpKind → List Nat
  | .copy m c h dst t v => 0 :: mapNums m ++ c ++ h ++ [dst.toNat, (v.map Scope.code).getD 0] ++ stampNums t
  | .store m c h src t v => 1 :: mapNums m ++ c ++ h ++ [src.toNat, (v.map Scope.code).getD 0] ++ stampNums t
  | .mcast m c h off mask t => 2 :: mapNums m ++ c ++ h ++ [off.toNat, mask.toNat] ++ stampNums t
  | .gath m c dst rows => 3 :: mapNums m ++ [c, dst.toNat] ++ rows.flatMap fun r => [r.1, r.2]
  | .mloop m => 4 :: [m.baseA.toNat, m.baseB.toNat, m.rows, m.cols, m.count, m.slot, m.step, m.zs.toNat, m.opn.toNat] ++
      [m.csA, m.rsA, m.csB, m.rsB, m.incA, m.incB].map fun x => (BitVec.ofInt 32 x).toNat
  | .epi e => 5 :: mapNums e.map ++ e.c ++ [e.alpha.toNat, e.beta.toNat, e.bias.toNat, e.lo.toNat, e.hi.toNat, e.scale, e.slot] ++ stampNums e.stamp
  | .coll c => [6, c.src.toNat, c.dst.toNat, c.count]
  | .elem eng n p => [7, eng, n, p.n, p.addr.toNat, p.val.toNat]

/-- What the entry of an operation holds: its descriptor, its queue, and the bytes done. -/
def opNums (o : Op) : List Nat := o.queue :: o.wrote.foldl (fun n d => n + d.2.length) 0 :: descNums o.kind

/-- RPROG of a saved MLOOP or MSTEP (R58, R384): that of its deferred fault when it met one, else of its next step. -/
def opRprog (s : State) (k : Nat) (o : Op) (m : MOp) : Nat :=
  let c := (s.warp o.warp).ctl
  if c.deferred = some k then c.fault.rprog.toNat
  else match c.held.find? fun h => h.op == k with
    | some h => h.frec.rprog.toNat
    | none => (rprogOf m false 0).toNat

/-- What the last 4 KiB of a ring's region hold: head, tail, slot states, the open slot's format and counts, and RPROG and the
scale bytes of the operations at work. -/
def ringNums (s : State) (t : Ring) (ops : Tab Op) : List Nat :=
  let slots := (List.range 8).map fun i => t.slots.get {} i
  let st (x : RSlot) : Nat := match x.st with | .empty => 0 | .filling => 1 | .full => 2 | .draining => 3
  t.head.val :: t.tail.val :: slots.map st
    ++ ((slots.filter (·.opn)).flatMap fun x => [x.mf.code, x.rows, x.cols])
    ++ ops.flatMap fun e => match e.2.kind with
      | .mloop m => opRprog s e.1 e.2 m :: ((m.scA.getD []) ++ (m.scB.getD [])).flatMap fun e => [e.1, e.2.toNat]
      | _ => []

/-- Offsets of the engine operations, the FIFOs and the ring, and the size of the record. -/
def opsOffset (s : State) (k : Nat) : Nat :=
  spadOffset s k + page4k ((s.block k).spadSize + (s.block k).spadSize / 1024)
def fifoOffset (s : State) (k : Nat) : Nat := opsOffset s k + page4k (128 * savedOps s k)
def ringOffset (s : State) (k : Nat) : Nat := fifoOffset s k + page4k (64 * Config.W * 4 + 32)
/-- Where a saved block's ring lies in the table of rings. -/
def savedRing (k : Nat) : Nat := 2 ^ 40 + k
def holdsItsRing (s : State) (k : Nat) : Bool :=
  (s.ring (s.block k).core).holder == some k || (s.ring (savedRing k)).holder == some k
def blockRecSize (s : State) (k : Nat) : Nat := ringOffset s k + (if holdsItsRing s k then 131072 + 4096 else 0)

/-- The presence bitmap, one bit per line. -/
def presenceBytes (b : Block) : List Byte :=
  (List.range (b.spadSize / 1024)).map fun i =>
    BitVec.ofNat 8 ((List.range 8).foldl (fun n j => n + (if b.unset.get 0 (8 * i + j) = 0 then 2 ^ j else 0)) 0)

/-- The header of a block's record. -/
def headParts (s : State) (k : Nat) (base : DWord) : List (Nat × List Byte) :=
  let b := s.block k
  let r := s.runOf b.run
  let g := s.gang r.gang
  let d := s.grid (gridOfGang r.gang)
  let held := holdsItsRing s k
  let open_ := held && (List.range 8).any fun i => ((s.ring b.core).slots.get {} i).opn
  let bar (n : Nat) : Nat :=
    let x := b.bars.get {} n
    x.c.toNat + x.arr * 2 ^ 32 + x.cnt * 2 ^ 40 + x.isOpen.toNat * 2 ^ 47
  [ (0x000, dw (2 ^ 56 + held.toNat + 2 * open_.toNat + b.nwarps * 2 ^ 8 + b.idx * 2 ^ 16 + (r.cores.length - 1) * 2 ^ 18)),
    (0x008, dw b.spadSize), (0x010, dw g.nextHold), (0x018, dw (r.gbar % 2 ^ 32 + b.gbarArr * 2 ^ 32)),
    (0x020, (List.range 16).flatMap fun n => dw (bar n)),
    (0x0A0, (List.range 4).map fun i => BitVec.ofNat 8 (15 - b.used.get 0 i)),
    (0x0A4, List.replicate 4 0),
    (0x0A8, dw (d.boundBit.toNat + 2 * d.unchecked.toNat)),
    (0x0B0, dw (if held then base.toNat + ringOffset s k else 0)),
    (0x0B8, List.replicate 3912 0) ]

/-- Write a block's record. -/
def saveBlock (world : Nat) (base : DWord) (k : Nat) : Prog Unit :=
  letI := progMonad
  do
    let s ← st
    let b := s.block k
    writeParts world base (headParts s k base)
    let ws := s.warpsOfBlock k
    forAll ws.zipIdx fun e =>
      saveWarp world (base + BitVec.ofNat 64 (4096 + (ws.take e.2).foldl (fun n w => n + warpSize s w) 0)) e.1
    writeParts world base
      [ (spadOffset s k, List.append (spadBytes b 0 b.spadSize) (presenceBytes b)),
        (fifoOffset s k, (List.range 4).flatMap fun d =>
          let es := b.fifos.get [] d
          (List.range 16).flatMap fun i => Config.lanes.flatMap fun l => leBytes 4 ((es.getD i []).getD l 0).toNat) ]
    let counts := (List.range 4).map fun d => (b.fifos.get [] d).length
    writeParts world base
      [ (opsOffset s k, (savedOpList s k).flatMap fun o => laidOut 0 (opNums o.2) 128),
        (fifoOffset s k + 64 * Config.W * 4, laidOut 1 counts 32) ]
    whenP (holdsItsRing s k) (
      let ring := s.ring b.core
      writeParts world base
        [ (ringOffset s k, (List.range 131072).map fun i => slotByte (ring.slots.get {} (i / 16384)) (i % 16384)),
          (ringOffset s k + 131072, laidOut 2 (ringNums s ring (savedOpList s k)) 4096) ])

/-- The address of a block's record in its gang's: the blocks' records follow one another (log entry 30). -/
def blockRecAddr (s : State) (run k : Nat) : DWord :=
  (s.runOf run).save + BitVec.ofNat 64
    (((s.blocksOfRun run).filter fun j => decide (j < k)).foldl (fun n j => n + blockRecSize s j) 0)

/-- Write a gang's record. -/
def saveRun (run : Nat) : Prog Unit :=
  .get fun s => forAll (s.blocksOfRun run) fun k => saveBlock (s.runOf run).world (blockRecAddr s run k) k

/-- A push that lands in a saved block changes the image of its region too (R385). -/
def saveRegion (k off : Nat) : Prog Unit :=
  .get fun s =>
    let b := s.block k
    let base := blockRecAddr s b.run k
    match b.regions.find? fun e => e.1 == off with
    | some e =>
      whenP ((s.runOf b.run).st == .saved || ((s.runOf b.run).st == .reserved && (s.runOf b.run).save != 0)) (writeParts (s.runOf b.run).world base
        [ (spadOffset s k + off, spadBytes b off (128 * (e.2.depth + 1))),
          (spadOffset s k + b.spadSize, presenceBytes b) ])
    | none => .ret ()

/-! ### Items of a saved warp (R392), and loading (R380, R386) -/

/-- Where a warp's record lies. -/
def warpRecAddr (s : State) (w : Nat) : DWord :=
  let k := blockOfWarp w
  blockRecAddr s (runOfWarp w) k + BitVec.ofNat 64
    (4096 + ((s.warpsOfBlock k).filter fun v => decide (v < w)).foldl (fun n v => n + warpSize s v) 0)

/-- Offset and size in a warp's record of an item that a patch may write or WSTATE reads there. -/
def itemPlace : Item → Option (Nat × Nat)
  | .pc => some (0, 8)
  | .fault n => some (0x80 + 8 * n, 8)
  | .mlo n => some (0x100 + 16 * n, 8)
  | .mhi n => some (0x108 + 16 * n, 8)
  | .fpcr => some (0x20, 8)
  | .depth => some (0x28, 8)
  | .fpsr l => some (0x280 + l, 1)
  | .s n => some (0x400 + 8 * n, 8)
  | .plo n => some (0x180 + 16 * n, 8)
  | .phi n => some (0x188 + 16 * n, 8)
  | .v r l => if l < Config.W then some (0x2000 + 4 * (Config.W * r + l), 4) else none
  | .flags => none

/-- The run of a warp is saved, or being restored (R392). -/
def savedWarp (s : State) (w : Nat) : Bool :=
  match (s.runOf (runOfWarp w)).st with | .saved => true | .reserved => (s.runOf (runOfWarp w)).save != 0 | _ => false

/-- An item of a warp as WSTATE reads it: of a saved warp, from its save record (R392). -/
def readItem (w : Nat) (i : Item) : Prog DWord :=
  letI := progMonad
  do
    let s ← st
    let own := itemVal s w i
    match (if savedWarp s w then itemPlace i else none) with
    | none => pure own
    | some (o, n) =>
      let inside := match i with | .v r _ => decide (r < (s.warp w).ctl.alloc) | _ => true
      if !inside then pure own
      else do
        let b ← devRead (s.worldOfWarp w) 0 (warpRecAddr s w + BitVec.ofNat 64 o) n
        pure ((b.map fun l => BitVec.ofNat 64 (leNat l)).getD own)

/-- Write the record of a saved warp again, after a resolution or patches (R392). -/
def resaveWarp (w : Nat) : Prog Unit :=
  .get fun s => whenP (savedWarp s w) (saveWarp (s.worldOfWarp w) (warpRecAddr s w) w)

/-- The items that a restore loads. -/
def loadItems (alloc : Nat) : List Item :=
  List.flatten
    [ (List.range 8).flatMap fun n => [.mlo n, .mhi n], (List.range 15).flatMap fun n => [.plo n, .phi n], [.fpcr],
      Config.lanes.map .fpsr, (List.range 128).map .s, (List.range alloc).flatMap fun r => Config.lanes.map (.v r) ]

/-- Bytes of a region that were read, as numbers of 8 bytes each. -/
def words64 (bs : List Byte) (n : Nat) : List Nat := (List.range n).map fun i => leNat ((bs.drop (8 * i)).take 8)

/-- Stack entries from their bytes, 32 each. -/
def stackOf (bs : List Byte) (n : Nat) : List StackEntry :=
  (List.range n).map fun i => match words64 (bs.drop (32 * i)) 4 with
    | a :: k :: lo :: hi :: _ =>
      ⟨if k = 0 then .path else if k = 1 then .join else .ret, BitVec.ofNat 64 a, BitVec.ofNat 128 (lo + hi * 2 ^ 64)⟩
    | _ => ⟨.path, 0, 0⟩

/-- Load what a warp's record holds beside its registers: continue address, stack, fault record, signature and pending
resolution (R390). -/
def loadCtl (w : Nat) (parts : Nat → Nat → Prog (List Byte)) : Prog Unit :=
  letI := progMonad
  do
    let s ← st
    let head ← parts 0 0x50
    let frec ← parts 0x80 48
    let depth := leNat ((head.drop 0x28).take 8)
    let top ← parts 0x800 (32 * min 32 depth)
    let rest ← parts (0x2000 + 4 * Config.W * (s.warp w).ctl.alloc) (32 * (depth - 32))
    let f := (words64 frec 6).map (BitVec.ofNat 64)
    let pc : DWord := BitVec.ofNat 64 (leNat (head.take 8))
    upd (.stack w (List.append (stackOf top (min 32 depth)) (stackOf rest (depth - 32))))
    upd (.ctl w fun c => { c with
      pc := if c.parked then c.pc else pc
      contPc := if c.parked then pc else c.contPc
      sig := BitVec.ofNat 64 (leNat ((head.drop 0x40).take 8))
      fault := { fpc := f.getD 0 0, fcause := f.getD 1 0, faddr := f.getD 2 0, flanesl := f.getD 3 0, flanesh := f.getD 4 0, rprog := f.getD 5 0 }
      pending := match leNat ((head.drop 0x48).take 8) with
        | 1 => some .retry | 2 => some .skip | 3 => some .kill | _ => none })

/-- Load a warp from its record (R380): what the record no longer holds as it was saved. Its state and its wait go on as they were
saved (log entry 30). -/
def loadWarp (w : Nat) : Prog Unit :=
  letI := progMonad
  do
    let s ← st
    let base := warpRecAddr s w
    let ps := (warpParts s w 0 (0, 0)).filter fun p => p.1 != 0 && p.1 != 0x10 && p.1 != 0x30
    let read (o n : Nat) : Prog (Option (List Byte)) := devRead (s.worldOfWarp w) 0 (base + BitVec.ofNat 64 o) n
    let same ← mapAll ((0, dw (if (s.warp w).ctl.parked then (s.warp w).ctl.contPc else (s.warp w).ctl.pc).toNat) :: ps) fun p => do
      let b ← read p.1 p.2.length
      pure (b.map (· == p.2))
    whenP (same.any (· == some false)) (do
      whenP (same.all Option.isSome) (loadCtl w fun o n => .bind (read o n) fun b => .ret (b.getD []))
      forAll (loadItems (s.warp w).ctl.alloc) fun i => do
        let v ← readItem w i
        whenP (v != itemVal s w i) (setItem w i v))

/-- Load a block from its record (R385, R386): the barriers, the free-slot counters, the scratchpad with its presence bits, and the
entries of its FIFOs, where the record no longer holds them as they were saved. Its operations and its ring go on as they were
saved (log entry 30). -/
def loadBlock (k : Nat) : Prog Unit :=
  letI := progMonad
  do
    let s ← st
    let b := s.block k
    let read (o n : Nat) : Prog (Option (List Byte)) := devRead (s.runOf b.run).world 0 (blockRecAddr s b.run k + BitVec.ofNat 64 o) n
    let bars ← read 0x20 128
    let slots ← read 0xA0 4
    let img ← read (spadOffset s k) b.spadSize
    let here ← read (spadOffset s k + b.spadSize) (b.spadSize / 1024)
    let fifos ← read (fifoOffset s k) (64 * Config.W * 4)
    match bars with
    | some bs => upd (.block k fun b => { b with bars := (words64 bs 16).zipIdx.foldl (fun t e =>
        Tab.set {} t e.2 ({ c := BitVec.ofNat 32 e.1, arr := bitsAt e.1 32 7, cnt := bitsAt e.1 40 7, isOpen := bitsAt e.1 47 1 == 1 } : Bar)) b.bars })
    | none => pure ()
    match slots with
    | some bs => upd (.block k fun b => { b with used := bs.zipIdx.foldl (fun t e => Tab.set 0 t e.2 (15 - e.1.toNat)) b.used })
    | none => pure ()
    match img with
    | some bs => whenP (bs != spadBytes b 0 b.spadSize) (forAll bs.zipIdx fun e => upd (.spad k e.2 e.1))
    | none => pure ()
    match here with
    | some bs => whenP (bs != presenceBytes b) (upd (.block k fun b => { b with unset := (List.range (b.spadSize / 128)).foldl (fun t l =>
        Tab.set 0 t l (if (bs.getD (l / 8) 0).getLsbD (l % 8) then 0 else max 1 (Tab.get 0 t l))) b.unset }))
    | none => pure ()
    match fifos with
    | some bs => upd (.block k fun b => { b with fifos := b.fifos.map fun e => (e.1, e.2.zipIdx.map fun x =>
        (List.range x.1.length).map fun l => BitVec.ofNat 32 (leNat ((bs.drop (4 * ((e.1 * 16 + x.2) * Config.W + l))).take 4))) })
    | none => pure ()

/-- A save record's header is one (R389): its version. -/
def recordValid (s : State) (world : Nat) (a : DWord) : Bool :=
  match ((devRead world 0 a 8).run s).1 with
  | some b => leNat b / 2 ^ 56 == 1
  | none => false

end Sys2Proof.Machine
end

