-- ==== Sys2Proof/Machine/Standing.lean ====
section
/-!
DEFINITION. Standing loads: subscription regions, their status word, pushes as they land, and SUBS, UNSUB and SPOLL (R122
to R128, R289 to R292, R352).
-/
namespace Sys2Proof.Machine

/-! ### Status words and regions (R122, R123) -/

/-- The generic address of an offset in the issuing block's own scratchpad (R94). -/
def ownWindow (off : Nat) : DWord := BitVec.ofNat 64 (0x1FFE * 2 ^ 51 + off)

/-- Bytes of a region (R122). -/
def regionSize (depth : Nat) : Nat := 128 * (depth + 1)

/-- The status word of a region. -/
def statusWord (s : State) (blk off : Nat) : DWord := BitVec.ofNat 64 (leNat (spadBytes (s.block blk) off 8))

/-- Store bytes in a scratchpad as the device does. -/
def spadPut (blk off : Nat) (bs : List Byte) : Prog Unit := forAll bs.zipIdx fun e => upd (.spad blk (off + e.2) e.1)

def putStatus (blk off : Nat) (v : DWord) : Prog Unit := spadPut blk off (leBytes 8 v.toNat)

/-- Set or clear the presence bit of entry `e` of the region at `off` (R122): bit 1 of the line's absence. -/
def setEntry (blk off e : Nat) (present : Bool) : Prog Unit :=
  let line := off / 128 + 1 + e
  upd (.block blk fun b =>
    let n := b.unset.get 0 line % 2 + (if present then 0 else 2)
    { b with unset := Tab.set 0 b.unset line n })

/-- Add one to a field that saturates at 0xFFFF. -/
def bumpLost (v : DWord) : DWord := setField v 0 16 (min 0xFFFF (field v 0 16 + 1))

/-- What a push makes of a status word, and the entry it lands in (R125). -/
def pushStatus (v : DWord) (num : Nat) : DWord × Option Nat :=
  let depth := field v 17 3 + 1
  let avail := field v 24 4
  if bitAt v 16 then
    if avail < depth then
      (setField (setField v 24 4 (avail + 1)) 32 32 num, some ((field v 20 4 + avail) % depth))
    else (bumpLost (setField v 31 1 1), none)
  else
    let v1 := if avail = 0 then v else bumpLost v
    (setField (setField v1 24 4 1) 32 32 num, some 0)

/-- What SPOLL makes of a status word (R292). -/
def pollStatus (v : DWord) : DWord :=
  let avail := field v 24 4
  let v1 := if avail = 0 then v
    else setField (if bitAt v 16 then setField v 20 4 ((field v 20 4 + 1) % (field v 17 3 + 1)) else v) 24 4 (avail - 1)
  setField v1 31 1 0

/-- A push lands (R124, R125): its entry, number, status and presence as one event, with what the write that caused it orders
(R151). -/
def landPush (blk off num : Nat) (bytes : List Byte) (m : EntMsg) : Prog Unit :=
  .get fun s =>
    let r := pushStatus (statusWord s blk off) num
    .bind (putStatus blk off r.1) fun _ => match r.2 with
      | none => .ret ()
      | some e =>
        .bind (spadPut blk (off + 0x10 + 4 * e) (leBytes 4 num)) fun _ =>
        .bind (spadPut blk (off + 0x80 + 128 * e) bytes) fun _ =>
        .bind (upd (.block blk fun b => { b with entMsgs := b.entMsgs.put (off / 128 + 1 + e) m })) fun _ => setEntry blk off e true

/-- A subscription ends (R128): `ended` is set, every entry becomes present, and no push of it lands any more. -/
def endSub (blk off : Nat) : Prog Unit :=
  .get fun s => match (s.block blk).regions.find? fun e => e.1 == off && e.2.active with
    | none => .ret ()
    | some (_, r) =>
      .bind (putStatus blk off (setField (statusWord s blk off) 30 1 1)) fun _ =>
      .bind (forAll (List.range r.depth) fun e => setEntry blk off e true) fun _ =>
      .bind (upd (.subDrop r.sub)) fun _ =>
        upd (.block blk fun b => { b with regions := b.regions.put off { r with active := false } })

/-! ### The lanes -/

/-- The region offset of a lane (R289). -/
def regionOff (s : State) (w : Nat) (r : RegVS) (l : Nat) : Nat := s.regVS w r 1 l

/-- Two ranges overlap. -/
def overlaps (a n b m : Nat) : Bool := decide (a < b + m) && decide (b < a + n)

/-- Subscriptions entered on a die. -/
def subsOn (s : State) (d : Nat) : Nat := (s.subs.filter fun e => e.2.live && e.2.die == d).length

/-- Enter one lane's subscription (R124, R290, R352). -/
def subscribe (w : Nat) (o : Subs) (off : Nat) (a : DWord) (x : Xl) : Prog Unit :=
  letI := progMonad
  do
    let s ← st
    let blk := blockOfWarp w
    let depth := o.depth.val + 1
    let size := 8 * 2 ^ o.size.val
    let k ← fresh
    let now := (match lineRead s x with | .ok b => b | .error _ => List.replicate 128 0)
    spadPut blk off (List.replicate (regionSize depth) 0)
    putStatus blk off (BitVec.ofNat 64 (o.depth.val * 2 ^ 17 + o.queue.toNat * 2 ^ 16))
    forAll (List.range depth) fun e => setEntry blk off e false
    upd (.block blk fun b => { b with
      regions := Tab.put (b.regions.filter fun e => !overlaps e.1 (regionSize e.2.depth) off (regionSize depth)) off
        { depth, queue := o.queue, size, active := true, sub := k, scope := o.sc } })
    upd (.reps fun t => t.filter fun e => copyLine e.1 != x.lid)
    upd (.block blk fun b => { b with entMsgs := b.entMsgs.filter fun e => !overlaps (128 * e.1) 128 off (regionSize depth) })
    upd (.sub k fun _ =>
      { world := s.worldOfWarp w, blk, off, die := x.die, asid := x.asid, addr := a, line := x.lid,
        pos := a.toNat % 128, size, next := 1,
        flight := [(0, (now.drop (a.toNat % 128)).take size, ⟨s.seqNo, []⟩)], scope := o.sc, live := true })

/-- A shadow or arbiter marks the region, whose contents are logged (R290); a region with a subscription, which a new
primary took over, stays. -/
def markRegion (w : Nat) (o : Subs) (off : Nat) : Prog Unit :=
  let depth := o.depth.val + 1
  upd (.block (blockOfWarp w) fun b => if b.regions.any fun e => e.1 == off && e.2.sub != 0 then b else { b with
    regions := Tab.put (b.regions.filter fun e => !overlaps e.1 (regionSize e.2.depth) off (regionSize depth)) off
      { depth, queue := o.queue, size := 8 * 2 ^ o.size.val, active := true, sub := 0, scope := o.sc } })

/-- The offset checks of SUBS: a lane's own, and the overlap with active regions and with lower lanes' regions (R289,
R290). -/
def subsOffBad (s : State) (w : Nat) (offs : List (Nat × Nat)) (depth : Nat) (e : Nat × Nat) : Option Cause :=
  let b := s.block (blockOfWarp w)
  let n := regionSize depth
  if e.2 % 128 ≠ 0 then some .align
  else if b.spadSize < e.2 + n then some .spadbound
  else if (b.regions.any fun r => r.2.active && overlaps r.1 (regionSize r.2.depth) e.2 n)
      || (offs.any fun f => decide (f.1 < e.1) && overlaps f.2 n e.2 n) then some .protect
  else none

/-- SUBS (R127, R290). Of a lane that breaks several checks the target's ALIGN comes first, then the offset's ALIGN and SPADBOUND,
then the target's other causes, then the overlap's PROTECT (log entry 48). -/
def execSubs (o : Subs) (s : State) : Host.Outcome State Fault Refusal :=
  letI := progMonad
  next (issueV (.subs o) o.hd fun w ls => do
    let s ← st
    let addr (l : Nat) : DWord := s.vpair w o.a.val l
    let size := 8 * 2 ^ o.size.val
    let offs := ls.map fun l => (l, regionOff s w o.off l)
    let (as, badT) ← locateLanes w ls addr size { rd := true, winOk := false }
    let s ← st
    let unread := as.filterMap fun a => match a.loc with
      | .mem x => (match lineRead s x with | .ok _ => none | .error _ => some (a.lane, Cause.integrity, lineAddr s a.addr))
      | _ => none
    let badO := offs.filterMap fun e => (subsOffBad s w offs (o.depth.val + 1) e).map fun c => (e.1, c, ownWindow e.2)
    let first (l : Nat) : Option Bad :=
      let o := badO.find? fun b => b.1 == l
      let t := (badT ++ unread).find? fun b => b.1 == l
      match o, t with
      | some x, some y => if x.2.1 = .protect ∨ y.2.1 = .align then some y else some x
      | some x, none => some x
      | none, y => y
    let bad := if s.isCopy w then [] else ls.filterMap first
    if bad.isEmpty then do
      let live : Prog (Except Res Got) := do
        let rs ← mapAll as fun a => (match a.loc with
          | .mem x => do
            let s ← st
            let n := subsOn s x.die
            let f ← (if 4096 ≤ n then freeVal else pure 0)
            if 65536 ≤ n || bitAt f 0 then pure (a.lane, 1)
            else do
              subscribe w o ((offs.find? fun e => e.1 == a.lane).getD (0, 0)).2 a.addr x
              pure (a.lane, 0)
          | _ => pure (a.lane, 2))
        whenP (rs.any fun r => r.2 == 0) (earlyAct w)
        pure (.ok (rs, none))
      let r ← withLog w (4 * ls.length) live
      match r with
      | .error e => pure e
      | .ok (rs, _) => do
        whenP (s.isCopy w) (forAll (rs.filter fun r => r.2 == 0) fun r =>
          markRegion w o ((offs.find? fun e => e.1 == r.1).getD (0, 0)).2)
        writeV w o.d.val 1 rs
        segEnd w false
        let s ← st
        pure (.park (.pushes s.seqNo))
    else pure (.fault (accFault s w o.hd true bad))) s

/-- The offset checks of UNSUB and SPOLL (R291). -/
def pollOffBad (s : State) (w off : Nat) : Option Cause :=
  let b := s.block (blockOfWarp w)
  let n := match b.regions.find? fun e => e.1 == off && e.2.active with
    | some e => regionSize e.2.depth
    | none => 128
  if off % 128 ≠ 0 then some .align else if b.spadSize < off + n then some .spadbound else none

/-- UNSUB of one region (R128, R291): the status as stamped, or 0. -/
def unsubLane (w off : Nat) : Prog Nat :=
  .get fun s =>
    let blk := blockOfWarp w
    if (s.block blk).regions.any fun e => e.1 == off && e.2.active then
      .bind (endSub blk off) fun _ => .bind (earlyAct w) fun _ => .get fun s => .ret (statusWord s blk off).toNat
    else .ret 0

/-- SPOLL of one region (R292): the status before consuming, or 0. An entry consumed acquires (R151). -/
def spollLane (w off : Nat) : Prog Nat :=
  .get fun s =>
    let blk := blockOfWarp w
    match (s.block blk).regions.find? fun e => e.1 == off with
    | none => .ret 0
    | some (_, r) =>
      let v := statusWord s blk off
      .bind (whenP (field v 24 4 != 0 && r.active) (setEntry blk off (field v 20 4) false)) fun _ =>
      .bind (putStatus blk off (pollStatus v)) fun _ =>
      .bind (whenP (field v 24 4 != 0) (findPresent w blk (off + 128 + 128 * field v 20 4) 1)) fun _ => .ret v.toNat

/-- UNSUB or SPOLL: lanes one after another, in increasing lane order (R289), logged in a checked gang (R169). -/
def regionOp (w : Nat) (h : Hd) (ls : List Nat) (off : Nat → Nat) (d : VReg) (act : Nat → Prog Nat) : Prog Res :=
  letI := progMonad
  do
    let s ← st
    let bad := ls.filterMap fun l => (pollOffBad s w (off l)).map fun c => (l, c, ownWindow (off l))
    if bad.isEmpty then do
      let live : Prog (Except Res Got) := do
        let rs ← mapAll ls fun l => do
          let v ← act (off l)
          pure (l, v)
        pure (.ok (rs, none))
      let r ← withLog w (8 * ls.length) live
      match r with
      | .error e => pure e
      | .ok (rs, _) => do
        writeV w d.val 2 rs
        pure .ok
    else pure (.fault (accFault s w h true bad))

/-- UNSUB (R291). -/
def execUnsub (o : Unsub) (s : State) : Host.Outcome State Fault Refusal :=
  next (issueV (.unsub o) o.hd fun w ls => .get fun s =>
    let offs := ls.map (regionOff s w o.off)
    .bind (regionOp w o.hd ls (regionOff s w o.off) o.d (unsubLane w)) fun r => match r with
      | .ok => .bind (whenP (s.isCopy w) (upd (.block (blockOfWarp w) fun b =>
          { b with regions := b.regions.map fun e => if offs.contains e.1 then (e.1, { e.2 with active := false }) else e })))
          fun _ => .ret .ok
      | r => .ret r) s

/-- SPOLL (R292). -/
def execSpoll (o : Spoll) (s : State) : Host.Outcome State Fault Refusal :=
  next (issueV (.spoll o) o.hd fun w ls => .get fun s =>
    regionOp w o.hd ls (fun l => (s.vreg w o.off.val l).toNat) o.d (spollLane w)) s

end Sys2Proof.Machine
end

