-- ==== Sys2Proof/Machine/EvEngine.lean ====
section
/-!
DEFINITION. Events of the engines: matrix steps, copies, streams, pushes, peer accesses, and the retirement of a block
(R43, R44, R118, R124, R155, R156, R305, R311, R314, R317).
-/
namespace Sys2Proof.Machine

/-- Run an engine's attempt for an operation whose gang is resident, when it succeeds. -/
def engineRun (k : Nat) (p : Prog (Except Stop Unit)) : Prog Unit := .get fun s => whenP (opRuns s k) (whenDone p)

/-- MLOOP_STEP (R311): one step of the matrix unit. -/
def execMloopStep (op : Nat) (s : State) : Host.Outcome State Fault Refusal :=
  next (engineRun op (.bind (mloopAttempt op) fun r => .ret (match r with | .error (e, _) => .error e | .ok _ => .ok ()))) s

/-- MLOOP_COMPLETE (R305). -/
def execMloopComplete (op : Nat) (s : State) : Host.Outcome State Fault Refusal :=
  next (.get fun s => whenP (opRuns s op) (mloopDone op)) s

/-- EPI_COMPLETE (R314). -/
def execEpiComplete (op : Nat) (s : State) : Host.Outcome State Fault Refusal :=
  next (engineRun op (epiAttempt op)) s

/-- COPY_COMPLETE (R116, R317): the payload and then the stamp; of a TSTORE through an aon map first step 1 of R155. -/
def execCopyComplete (op : Nat) (s : State) : Host.Outcome State Fault Refusal :=
  next (engineRun op (engineAttempt op)) s

/-- AON_VERSION_RETRY (R155): a TSTORE that has not taken its tile tries its read-modify-write again. -/
def execAonVersionRetry (op : Nat) (s : State) : Host.Outcome State Fault Refusal :=
  next (.get fun s => match (s.op op).kind with
    | .store m _ _ _ _ _ => whenP (m.aon && (s.op op).phase == 0 && !s.checkedWarp (s.op op).warp) (engineRun op (engineAttempt op))
    | _ => .ret ()) s

/-- TCOPY_VER_RETRY (R156): the copy reads the version word; an odd one is noted, with the time of the first, and the copy
begins again. -/
def execTcopyVerRetry (op : Nat) (s : State) : Host.Outcome State Fault Refusal :=
  letI := progMonad
  next (do
    let s ← st
    let o := s.op op
    match o.kind with
    | .copy m c _ _ _ (some _) =>
      whenP (opRuns s op && opHead s op && !s.isCopy o.warp) (whenDone (do
        let r ← verRead o (verAddr m c)
        match r with
        | .error e => pure (.error e)
        | .ok v =>
          if v.toNat % 2 = 1 then do
            upd (.op op fun o => { o with vword := v, retryFrom := some (o.retryFrom.getD s.time) })
            pure (.ok ())
          else pure (.error .blocked)))
    | _ => pure ()) s

/-! ### Streams (R118, R296) -/

/-- STREAM_READ_AHEAD: the next element, as a weak read of the binding warp; a fault is kept for the read that would
deliver it. -/
def execStreamReadAhead (blk eng : Nat) (s : State) : Host.Outcome State Fault Refusal :=
  letI := progMonad
  next (do
    let s ← st
    let t := (s.block blk).streams.get {} eng
    let isBad (e : Elem) : Bool := match e with | .bad _ _ => true | .val _ => false
    let n := t.pos + t.ahead.length
    whenP (t.bound && !t.store && decide (n < t.count) && !t.ahead.any isBad && (s.runOf (runOfBlock blk)).st == .resident) (do
      let a := t.base + BitVec.ofNat 64 n * t.stride
      let r ← locate (s.whoWarp t.warp) a t.esize { rd := true, winOk := false }
      let s ← st
      let away := (match r with | .ok (.mem x) => unreachable s (s.coreOfWarp t.warp) x.die | _ => false)
      whenP (!away) (do
        let e ← (match r with
          | .error (c, f) => pure (Elem.bad c.code f)
          | .ok loc => do
            let l ← readLine t.warp a loc true false (offsFrom (a.toNat % 128) t.esize)
            pure (match lineBytes l (a.toNat % 128) t.esize with
            | none => Elem.bad Cause.integrity.code a
            | some b => Elem.val (if t.sext then dword (signed (8 * t.esize) (leNat b)) else BitVec.ofNat 64 (leNat b))))
        upd (.block blk fun b => { b with streams := b.streams.put eng { t with ahead := t.ahead ++ [e] } })))) s

/-- A pushed element as an operation of its engine's queue. -/
def elemOp (s : State) (blk eng : Nat) (t : Stream) (p : PushedElem) : Op :=
  { blk, warp := t.warp, queue := 8 + eng, fpc := p.fpc, lanes := p.lanes, seg := p.seg, kind := .elem eng t.esize p,
    hold := p.hold, issuedAt := s.time, turn := p.turn }

/-- STREAM_STORE_PERFORM (R118): the oldest element pushed. One that meets a cause becomes an operation of its queue, which
stops with a deferred fault (R105, R301). -/
def execStreamStorePerform (blk eng : Nat) (s : State) : Host.Outcome State Fault Refusal :=
  letI := progMonad
  next (do
    let s ← st
    let t := (s.block blk).streams.get {} eng
    match t.pend with
    | [] => pure ()
    | p :: rest =>
      let rst := (s.runOf (runOfBlock blk)).st
      let o := elemOp s blk eng t p
      let stopped := s.ops.any fun e => e.2.blk == blk && e.2.queue == 8 + eng && !e.2.finished
      let pop := upd (.block blk fun b => { b with streams := b.streams.put eng { b.streams.get {} eng with pend := rest } })
      let write := engStore (o.writer s none) false false t.warp p.seg p.hold (eltBytes (8 * t.esize) p.addr false p.val.toNat)
      whenP ((rst == .resident || rst == .saving) && !stopped) (match (write.run s).1 with
        | .error .blocked => pure ()
        | .error (.cause c a) => do
          let k ← fresh
          upd (.op k fun _ => o)
          pop
          deferFault k c a none none
        | .ok ds => do
          let _ ← write
          addEngSig t.warp p.seg ds
          noteEngine blk o.queue t.warp (engView o)
          pop)) s

/-! ### Pushes and peers -/

/-- PUSH (R124, R125, R385): the oldest push of a subscription on its way lands. -/
def execPush (sub : Nat) (s : State) : Host.Outcome State Fault Refusal :=
  letI := progMonad
  next (do
    let s ← st
    let x := s.sub sub
    match x.flight with
    | [] => pure ()
    | (n, bs, m) :: t =>
      whenP x.live (do
        upd (.sub sub fun x => { x with flight := t })
        landPush x.blk x.off n bs ⟨x.line, x.pos, x.size, m, x.scope⟩
        saveRegion x.blk x.off)) s

/-- The window address through which a warp reaches an offset of a block of its gang (R94). -/
def peerVa (s : State) (target off : Nat) : DWord := peerAddr (s.block target).idx off

/-- A peer access of one lane that the load or store at a warp's pc makes: its effect in that lane alone. None when the
instruction makes no such access. -/
def peerAccess (s : State) (acc : PeerAcc) (i : Instr) : Option (Prog Res) :=
  let w := acc.warp
  let fits (h : Hd) (m : MemAddr) (n : Nat) : Bool :=
    (effMask s w h).getLsbD acc.lane && memAddrOf s w m acc.lane == acc.va && acc.va == peerVa s acc.target acc.off
      && (!s.checkedWarp w || (lowest (effMask s w h) == some acc.lane && !inAnyRegion s w acc.va n))
  match i, acc.write with
  | .ld o, none => if fits o.hd o.mem o.ty.bytes && acc.size == o.ty.bytes && acc.dst == o.d.val
      then some (ldLanes o s w [acc.lane]) else none
  | .st o, some bs => if fits o.hd o.mem o.ty.bytes && bs == leBytes o.ty.bytes (storeVal s w o.d o.ty acc.lane)
      then some (stLanes o s w [acc.lane]) else none
  | _, _ => none

/-- PEER_ACCESS_ARRIVAL (R44): the access that one lane of a warp's next instruction, a load or store, makes to a block of its
gang arrives there before the other lanes'. It is performed, and the instruction runs the other lanes when it issues; or the
block has retired, and the instruction meets PEERGONE (log entry 44). -/
def execPeerAccessArrival (acc : PeerAcc) (s : State) : Host.Outcome State Fault Refusal :=
  letI := progMonad
  next (do
    let s ← st
    let w := acc.warp
    let c := (s.warp w).ctl
    let f ← fetch w
    let s ← st
    match f with
    | .instr i => match peerAccess s acc i with
      | some eff =>
        whenP (isReady s w c && (heldBack s w).isNone && decide (c.runCnt.val < 16) && (issueCheck s w i).isNone) (
          if (s.block acc.target).retired then do
            upd (.cur w)
            (match i with
              | .ld o => issueMem i o.hd (ldLanes o)
              | .st o => issueMem i o.hd (stLanes o)
              | _ => pure ())
          else if (eff.run s).1 = .ok then do
            noteRun w i
            let _ ← eff
            upd (.ctl w fun c => { c with retry := some (c.retry.getD (~~~0) &&& ~~~(maskOf [acc.lane])) })
          else pure ())
      | none => pure ()
    | _ => pure ()) s

/-! ### Retirement (R43) -/

/-- Change the bind record of a run. -/
def setBindOf (run : Nat) (f : BindRec → BindRec) : Prog Unit :=
  .get fun s => upd (.die (s.runOf run).die fun d =>
    { d with binds := d.binds.map fun e => if e.1 = (s.runOf run).idx ∧ e.2.run = run then (e.1, f e.2) else e })

/-- An engine still works for a block, or into its scratchpad. -/
def blockBusy (s : State) (k : Nat) : Bool :=
  (s.ops.any fun e => blockOfWarp e.2.warp == k || e.2.lines.any fun l => l / 2 ^ 20 == k)
    || ((s.block k).streams.any fun t => !t.2.pend.isEmpty)

/-- Every warp of a block has exited, and none holds a fault (R43, R301). -/
def warpsGone (s : State) (k : Nat) : Bool :=
  (s.warpsOfBlock k).all fun w =>
    let c := (s.warp w).ctl
    c.status == .stopped || (c.status == .exited && c.deferred.isNone && c.held.isEmpty)

/-- The last block of a run has retired: the run has ended (R381), and with the primary its gang, whose
events the grid's completion orders (R45, R147). -/
def runEnds (run : Nat) : Prog Unit :=
  letI := progMonad
  do
    let s ← st
    let g := (s.runOf run).gang
    let views := (s.warpsOfRun run).map (s.relView ·) ++ (s.blocksOfRun run).flatMap fun k => (s.block k).engViews.map (·.2)
    upd (.run run fun r => { r with st := .ended })
    setBindOf run fun b => { b with st := .ended }
    whenP ((s.gang g).primary == run) (do
      upd (.gang g fun x => { x with ended := true })
      upd (.grid (gridOfGang g) fun x => { x with ended := views.foldl View.join x.ended })
      upd (.grid (gridOfGang g) fun x => if x.done.contains (gangIdx g) then x else { x with done := x.done ++ [gangIdx g] }))

/-- BLOCK_RETIRE (R43). -/
def execBlockRetire (blk : Nat) (s : State) : Host.Outcome State Fault Refusal :=
  letI := progMonad
  next (do
    let s ← st
    let b := s.block blk
    let live := (s.blocks.any fun e => e.1 == blk) && !b.retired && (s.runOf (runOfBlock blk)).st == .resident
    whenP (live && warpsGone s blk && !blockBusy s blk) (do
      retireBlock blk
      forAll (s.subs.filter fun e => e.2.blk == blk) fun e => upd (.subDrop e.1)
      whenP ((s.ring b.core).holder == some blk) (upd (.ring b.core fun g => { g with holder := none, slots := [] }))
      let s ← st
      whenP ((s.blocksOfRun (runOfBlock blk)).all fun k => (s.block k).retired) (runEnds (runOfBlock blk)))) s

end Sys2Proof.Machine
end

