-- ==== Sys2Proof/Machine/Link.lean ====
section
/-!
DEFINITION. The neighbour links of a chain: NBPUSH and NBPOP (R13, R121, R321, R322).
-/
namespace Sys2Proof.Machine

/-- The linked stage of a direction: up says that it is the next stage (R13, R321); none is ILLOP. -/
def nbResolve (s : State) (run : Nat) (d : NbDir) : Option Bool :=
  let reg := stageReg s run
  let nextDir := bitsAt reg 8 3
  let prevDir := bitsAt reg 12 3
  let of_ (n : Nat) : Option Bool := if nextDir = n then some true else if prevDir = n then some false else none
  match d with
  | .e => of_ 0
  | .w => of_ 1
  | .n => of_ 2
  | .s => of_ 3
  | .prev => if prevDir = 7 then none else some false
  | .next => if nextDir = 7 then none else some true

/-- The direction code toward the next or previous stage. -/
def nbCode (s : State) (run : Nat) (up : Bool) : Nat := bitsAt (stageReg s run) (if up then 8 else 12) 3

/-- The opposite side (R121). -/
def opposite (d : Nat) : Nat := if d % 2 = 0 then d + 1 else d - 1

/-- A neighbour link joins two clusters, numbered die·4 + cluster, and is up (R12, R427). -/
def linked (s : State) (a b : Nat) : Bool :=
  dirTo (clusterAt a) (clusterAt b) != 7
    && !(s.dev.linksDown.any fun l => l == .neighbour a b || l == .neighbour b a)

/-- NBPUSH (R322). A shadow or arbiter pushes nothing (R164). A link that is down carries no entry (R427): the push waits
as for a full FIFO. -/
def execNbpush (o : Nb) (s : State) : Host.Outcome State Fault Refusal :=
  letI := progMonad
  next (issueV (.nbpush o) o.hd fun w ls => do
    let s ← st
    let run := runOfWarp w
    match nbResolve s run o.dir with
    | none => pure (faultOf .illop)
    | some up =>
      if s.isCopy w then pure .ok
      else
        let side := opposite (nbCode s run up)
        let peer := (s.gang ((stageGang s (s.gangOfWarp w) up).getD 0)).primary
        let blk := peer * 4 + (s.block (blockOfWarp w)).idx
        let b := s.block blk
        let r := s.runOf run
        let t := s.runOf (runOfBlock blk)
        let up_ := linked s (r.die * 4 + r.cluster) (t.die * 4 + t.cluster)
        if b.retired then do
          earlyAct w
          pure .ok
        else if !up_ || decide (16 ≤ (b.fifos.get [] side).length) then pure (.wait (.nbpush blk side))
        else do
          let entry := Config.lanes.map fun l => if ls.contains l then s.vreg w o.v.val l else 0
          upd (.block blk fun b => { b with fifos := b.fifos.put side (b.fifos.get [] side ++ [entry]) })
          earlyAct w
          pure .ok) s

/-- Keep in the gang's newest log record the entry an NBPOP removed. -/
def notePopped (g side : Nat) (e : List Word) : Prog Unit :=
  upd (.gang g fun x => { x with log := match x.log.reverse with
    | [] => []
    | r :: t => (({ r with popped := some (side + 1, e) } : LogRec) :: t).reverse })

/-- NBPOP (R322): logged in a checked gang (R169). -/
def execNbpop (o : Nb) (s : State) : Host.Outcome State Fault Refusal :=
  letI := progMonad
  next (issueV (.nbpop o) o.hd fun w ls => do
    let s ← st
    match nbResolve s (runOfWarp w) o.dir with
    | none => pure (faultOf .illop)
    | some up => do
      let side := nbCode s (runOfWarp w) up
      let live : Prog (Except Res Got) := .get fun s =>
        match (s.block (blockOfWarp w)).fifos.get [] side with
        | [] => .ret (.error (.wait (.nbpop side)))
        | e :: t => .bind (upd (.block (blockOfWarp w) fun b => { b with fifos := b.fifos.put side t })) fun _ =>
            .ret (.ok (ls.map fun l => (l, (e.getD l 0).toNat), none))
      let r ← withLog w (4 * ls.length) live
      match r with
      | .error e => pure e
      | .ok (vals, _) => do
        whenP (s.checkedWarp w && s.isPrimary w) (notePopped (s.gangOfWarp w) side
          (((s.block (blockOfWarp w)).fifos.get [] side).headD []))
        writeV w o.v.val 1 vals
        pure .ok) s

end Sys2Proof.Machine
end

