-- ==== Sys2Proof/Machine/Place.lean ====
section
/-!
DEFINITION. Grid headers (R15, R19 to R21, R52, R162) and the statuses of R23: what the capacity of a world can hold (R12,
R17, R97, R362, R379).
-/
namespace Sys2Proof.Machine

/-! ### The header (R19 to R21) -/

/-- A field of a structure: n bytes from an offset. -/
def hdrAt (bs : List Byte) (o n : Nat) : Nat := leNat ((bs.drop o).take n)

/-- A role descriptor; none when it breaks R15 or R21. -/
def parseRole (bs : List Byte) (i : Nat) : Option RoleDesc :=
  let e := hdrAt bs (0x20 + 16 * i) 8
  let d := hdrAt bs (0x28 + 16 * i) 8
  let r : RoleDesc := ⟨BitVec.ofNat 64 e, if bitsAt d 24 8 = 0 then Config.W else bitsAt d 24 8, bitsAt d 16 7, bitsAt d 0 9⟩
  if e % 8 ≠ 0 ∨ d / 2 ^ 32 ≠ 0 ∨ bitsAt d 23 1 ≠ 0 ∨ bitsAt d 9 7 ≠ 0 ∨ r.alloc % 8 ≠ 0 ∨ r.alloc < 8 ∨ 384 < r.alloc
      ∨ r.nwarps = 0 ∨ 64 < r.nwarps ∨ Config.W < r.last then none
  else some r

/-- A header read from its 256 bytes; none is MALFORMED (R11, R15, R19 to R21, R23, R52, R162). -/
def parseHdr (bs : List Byte) : Option Hdr :=
  let c := hdrAt bs 0 8
  let sh := hdrAt bs 8 8
  let nr := bitsAt c 52 4
  let red := bitsAt c 46 2
  let k := bitsAt c 43 3
  let nw := bitsAt c 38 3
  let roles := (List.range nr).map (parseRole bs)
  let rs := roles.filterMap id
  let wait (j : Nat) : Nat × Nat := (hdrAt bs (0x60 + 16 * j) 8, hdrAt bs (0x68 + 16 * j) 8)
  let gx := bitsAt sh 0 16
  let gy := bitsAt sh 16 16
  let gz := bitsAt sh 32 16
  let chain := bitsAt c 28 4 + 1
  let fb := hdrAt bs 0xA0 8
  let fs := hdrAt bs 0xA8 8
  let fp := hdrAt bs 0xC8 4
  let shift := hdrAt bs 0xCC 4
  if bitsAt c 56 8 ≠ 1 ∨ nr = 0 ∨ 4 < nr ∨ bitsAt c 51 1 ≠ 0 ∨ bitsAt c 35 3 ≠ 0 ∨ bitsAt c 0 26 ≠ 0 ∨ red = 3
      ∨ (red = 1 ∧ (k = 0 ∨ 6 < k)) ∨ (red ≠ 1 ∧ k ≠ 0) ∨ 4 < nw ∨ sh / 2 ^ 48 ≠ 0 ∨ gx = 0 ∨ gy = 0 ∨ gz = 0
      ∨ 2 ^ 32 - 1 < gx * gy * gz * chain ∨ roles.any Option.isNone
      ∨ ((List.range 4).any fun i => decide (nr ≤ i) && (hdrAt bs (0x20 + 16 * i) 16 != 0))
      ∨ 64 < rs.foldl (fun n r => n + r.nwarps) 0
      ∨ ((List.range 4).any fun j => if j < nw then (wait j).1 % 8 != 0 else wait j != (0, 0))
      ∨ (red ≠ 0 ∧ (fb % 65536 ≠ 0 ∨ fs = 0 ∨ fs % 65536 ≠ 0)) ∨ hdrAt bs 0xB8 8 % 8 ≠ 0
      ∨ 1024 ≤ fp ∨ 4 < fp % 8 ∨ hdrAt bs 0xD0 48 ≠ 0 then none
  else some
    { roles := rs, prio := bitsAt c 48 3, redund := red, k := k, allres := bitsAt c 42 1 == 1, tstart := bitsAt c 41 1 == 1,
      spad := bitsAt c 32 3, chain := chain, gsize := bitsAt c 26 2 + 1, gx := gx, gy := gy, gz := gz,
      seed := BitVec.ofNat 64 (hdrAt bs 0x10 8), start := BitVec.ofNat 64 (hdrAt bs 0x18 8),
      waits := (List.range nw).map fun j => (BitVec.ofNat 64 (wait j).1, BitVec.ofNat 64 (wait j).2),
      feedBase := BitVec.ofNat 64 fb, feedSize := BitVec.ofNat 64 fs, boundTab := BitVec.ofNat 64 (hdrAt bs 0xB0 8),
      compl := BitVec.ofNat 64 (hdrAt bs 0xB8 8), arg := BitVec.ofNat 64 (hdrAt bs 0xC0 8), fpcr := BitVec.ofNat 32 fp,
      shift := if shift = 0 then 10000 else shift }

/-! ### Room on cores and clusters (R17, R97) -/

/-- Warps and allotments of a block on an issue port (R17). -/
def portUse (h : Hdr) (p : Nat) : Nat × Nat :=
  let as := h.roles.flatMap fun r => List.replicate r.nwarps r.alloc
  let mine := (as.zipIdx.filter fun e => e.2 % 4 == p).map (·.1)
  (mine.length, mine.foldl (· + ·) 0)

/-- What a core's blocks take: warps and allotments per port, and scratchpad. -/
structure Load where
  ports : List (Nat × Nat) := [(0, 0), (0, 0), (0, 0), (0, 0)]
  spad : Nat := 0
  deriving DecidableEq, Repr

/-- k blocks of a header more. -/
def Load.add (l : Load) (h : Hdr) (k : Nat) : Load :=
  { ports := l.ports.zipIdx.map fun e => (e.1.1 + k * (portUse h e.2).1, e.1.2 + k * (portUse h e.2).2)
    spad := l.spad + k * (65536 * h.spad) }

/-- A core holds a load: 16 warps and 131,072 bytes of registers per port, 448 KiB of scratchpad. -/
def Load.ok (l : Load) : Bool :=
  (l.ports.all fun e => decide (e.1 ≤ 16) && decide (e.2 * 4 * Config.W ≤ 131072)) && decide (l.spad ≤ 458752)

/-- The header a block's run was started with. -/
def blockHdr (s : State) (b : Nat) : Hdr := (s.grid (gridOfGang (s.runOf (runOfBlock b)).gang)).hdr

/-- A run holds its cores: from its reservation until it ends or is saved (R380, R384). -/
def holdsCores (r : Run) : Bool := r.st == .reserved || r.st == .resident || r.st == .saving

/-- The load that some blocks put on a core: all of them, or the resident grid's only (R23). -/
def coreLoad (s : State) (core : Nat) (onlyResident : Bool) : Load :=
  (s.blocks.filter fun e => e.2.core == core && !e.2.retired && holdsCores (s.runOf (runOfBlock e.1))
      && (!onlyResident || (s.grid (gridOfGang (s.runOf (runOfBlock e.1)).gang)).resident)).foldl
    (fun l e => l.add (blockHdr s e.1) 1) {}

/-- A core is fenced (R379). -/
def coreFenced (s : State) (core : Nat) : Bool := bitAt (s.die (core / 16)).fenced (core % 16)

/-- Blocks of a header that fit on a core beside a load. -/
def coreRoom (s : State) (core : Nat) (h : Hdr) (base : Load) : Nat :=
  if coreFenced s core then 0
  else ((List.range 17).filter fun k => (base.add h k).ok).foldl max 0

/-- Gangs of so many blocks on distinct cores that fit on cores with the rooms given (R10). -/
def gangRoom (rooms : List Nat) (gsize : Nat) : Nat :=
  ((List.range 65).filter fun m => decide (m * gsize ≤ rooms.foldl (fun n r => n + min r m) 0)).foldl max 0

/-- Gangs of a header that a cluster can hold beside the loads of its cores; clusters are numbered die·4 + cluster. A gang is
judged whole, gsize blocks on distinct cores of one cluster (R10), for NOFIT too, where R23 names a block (log entry 43). -/
def clusterRoom (s : State) (h : Hdr) (load : Nat → Load) (c : Nat) : Nat :=
  gangRoom ((List.range 4).map fun i =>
    let core := c / 4 * 16 + c % 4 * 4 + i
    coreRoom s core h (load core)) h.gsize

/-- The clusters of a world with their rooms beside some loads. -/
def roomsBeside (s : State) (world : Nat) (h : Hdr) (load : Nat → Load) : List (Nat × Nat) :=
  ((s.world world).dies.flatMap fun d => (List.range 4).map fun n => 4 * d + n).map fun c => (c, clusterRoom s h load c)

/-- The clusters of a world with their rooms beside all blocks there, or beside the resident grid's (R23). -/
def worldRooms (s : State) (world : Nat) (h : Hdr) (onlyResident : Bool) : List (Nat × Nat) :=
  roomsBeside s world h fun core => coreLoad s core onlyResident

/-! ### Chains (R12) -/

/-- A path of n more clusters exists beyond the head of a path, among clusters with their rooms. -/
def pathExists (s : State) (cs : List (Nat × Nat)) : Nat → List Nat → Bool
  | 0, _ => true
  | n + 1, path => cs.any fun c =>
      c.2 != 0 && !path.contains c.1 && (match path with | [] => true | p :: _ => linked s p c.1) && pathExists s cs n (c.1 :: path)

/-- The paths of n more clusters beyond the head of a path. -/
def pathsFrom (s : State) (cs : List (Nat × Nat)) : Nat → List Nat → List (List Nat)
  | 0, path => [path]
  | n + 1, path => (cs.filter fun c =>
      c.2 != 0 && !path.contains c.1 && (match path with | [] => true | p :: _ => linked s p c.1)).flatMap fun c =>
        pathsFrom s cs n (c.1 :: path)

/-- Key of the slots of a die among rooms, beside the keys of clusters. -/
def dieRoom (d : Nat) : Nat := 256 + d

/-- How many units of a room the gangs of a chain on a path take: a cluster's, or slots of a die. -/
def pathUse (p : List Nat) (room : Nat) : Nat := (p.filter fun c => c == room || dieRoom (c / 4) == room).length

/-- n chains can be taken from the paths within the rooms: some number of each path. -/
def takePaths : List (List Nat) → List (Nat × Nat) → Nat → Bool
  | _, _, 0 => true
  | [], _, _ + 1 => false
  | p :: t, rooms, n + 1 =>
    let most := rooms.foldl (fun m r => if pathUse p r.1 = 0 then m else min m (r.2 / pathUse p r.1)) (n + 1)
    (List.range (most + 1)).reverse.any fun k =>
      takePaths t (rooms.map fun r => (r.1, r.2 - k * pathUse p r.1)) (n + 1 - k)

/-- Every gang of a grid fits at once (R23). -/
def allFit (s : State) (h : Hdr) (cs : List (Nat × Nat)) : Bool :=
  if h.chain = 1 then decide (h.gangs ≤ cs.foldl (fun n c => n + c.2) 0)
  else takePaths (pathsFrom s cs h.chain []) cs h.gangs

/-- Every gang of a grid fits at once on some dies, with the 64 records of each slot table too (R364, R378). -/
def allFitSlots (s : State) (h : Hdr) (dies : List Nat) (cs : List (Nat × Nat)) : Bool :=
  if h.chain = 1 then
    decide (h.gangs ≤ dies.foldl (fun n d => n + min 64 ((cs.filter fun c => c.1 / 4 == d).foldl (fun n c => n + c.2) 0)) 0)
  else takePaths (pathsFrom s cs h.chain []) (List.append cs (dies.map fun d => (dieRoom d, 64))) h.gangs

/-! ### Statuses (R23) -/

/-- Grids in a queue (R375): accepted, of that priority, not complete. -/
def queueLength (s : State) (world prio : Nat) : Nat :=
  (s.grids.filter fun e => worldOfGrid e.1 == world && !e.2.resident && e.2.hdr.prio == prio && e.2.st != .complete).length

/-- The status of a header: the lowest code of those that hold (R23). -/
def hdrStatus (s : State) (world : Nat) (queued : Bool) (h : Option Hdr) : Nat :=
  match h with
  | none => 1
  | some h =>
    let cs := worldRooms s world h true
    if !pathExists s cs h.chain [] then 2
    else if h.allres && !allFit s h cs then 3
    else if queued && decide (1024 ≤ queueLength s world h.prio) then 4
    else 0

/-- The bound registers in the 2,048 bytes of a table (R114). -/
def parseBounds (bs : List Byte) : List BoundEnt :=
  (List.range 64).map fun i =>
    ⟨BitVec.ofNat 64 (hdrAt bs (32 * i) 8), BitVec.ofNat 64 (hdrAt bs (32 * i + 8) 8), hdrAt bs (32 * i + 16) 8 % 4⟩

end Sys2Proof.Machine
end

