-- ==== Sys2Proof/Machine/GridI.lean ====
section
/-!
DEFINITION. GRID, GWAIT and the mailboxes: GRID (R22 to R24, R114, R162, R328, R396), GWAIT (R329), MBXRD and MBXWR (R330,
R370).
-/
namespace Sys2Proof.Machine

/-- Read bytes on behalf of a context, line by line: the first cause with FADDR (R273), or the bytes. -/
def readAs (who : Who) (a : DWord) (n : Nat) : Prog (Except (Cause × DWord) (List Byte)) :=
  letI := progMonad
  do
    let parts ← mapAll (pieces (n / 128 + 2) a.toNat n) fun p => do
      let va : DWord := BitVec.ofNat 64 p.1
      let r ← locate who va 1 { rd := true }
      match r with
      | .error e => pure (.error e)
      | .ok loc => do
        (match loc with
          | .mem x => .bind (touchWho who x) fun _ => dropOldReps x.lid
          | _ => pure ())
        let s ← st
        let l ← (match loc with | .remote => freeLine | l => pure (lineHome s va l))
        pure (match lineBytes l (p.1 % 128) p.2 with
        | some b => (Except.ok b : Except (Cause × DWord) (List Byte))
        | none => .error (.integrity, lineAddr s va))
    pure (parts.foldr (fun x r => match x, r with
      | .error e, _ => .error e
      | .ok _, .error e => .error e
      | .ok b, .ok t => .ok (b ++ t)) (.ok []))

/-- The first cause among translations. -/
def transAll (who : Who) : List (DWord × Need) → Prog (Option (Cause × DWord))
  | [] => .ret none
  | a :: t => .bind (transAs who a.1 a.2) fun r => match r with | some e => .ret (some e) | none => transAll who t

/-- The addresses GRID translates besides the bound table's bytes, and what each is for (R24, R162; log entry 60). -/
def hdrAddrs (h : Hdr) : List (DWord × Need) :=
  let log := (List.range (h.feedSize.toNat / 65536)).map fun i => h.feedBase + BitVec.ofNat 64 (65536 * i)
  List.append (h.waits.map fun x => (x.1, { rd := true }))
    (((if h.compl = 0 then [] else [h.compl]) ++ if h.redund = 0 then [] else log).map fun a => (a, { wr := true }))

/-- Read the header at an address (R328, R396): its bytes and the new grid's context. -/
def readHeader (w : Nat) (a : DWord) : Prog (Except Res (List Byte × Nat)) :=
  letI := progMonad
  do
    if a.toNat % 256 ≠ 0 then pure (.error (faultAt .align a))
    else if inWindow a then pure (.error (faultAt .protect a))
    else do
      let s ← st
      let r ← locate (s.whoWarp w) a 256 { rd := true, winOk := false }
      match r with
      | .error (c, f) => pure (.error (faultAt c f))
      | .ok (.mem x) =>
        if !sLevel s w && x.owner != s.asidOfWarp w then pure (.error (faultAt .protect a))
        else do
          let lo ← structRead w a 128
          let hi ← structRead w (a + 128) 128
          pure (match lo, hi with
          | .error e, _ => .error e
          | .ok _, .error e => .error e
          | .ok x1, .ok x2 => .ok (x1 ++ x2, x.owner))
      | .ok _ => pure (.error (faultAt .protect a))

/-- Enter an accepted grid in its queue (R375): its key. -/
def enterGrid (world asid : Nat) (h : Hdr) (resident : Bool) (bounds : List BoundEnt) : Prog Nat :=
  letI := progMonad
  do
    let s ← st
    let n := (s.world world).nextHandle
    let k := world * 2 ^ 48 + n
    let order ← fresh
    upd (.world world fun x => { x with nextHandle := n + 1 })
    upd (.grid k fun _ =>
      { asid, hdr := h, resident, bounds, sat := h.waits.map fun _ => false, order, startTurn := s.seqNo,
        eligibleAt := if h.waits.isEmpty then some s.time else none,
        freeExt := if h.redund = 0 then [] else List.range (h.feedSize.toNat / 65536) })
    pure k

/-- GRID's effect (R22 to R24), a release at .wd (R147): the value of S[d]. -/
def createGrid (w : Nat) (a : DWord) : Prog (Except Res DWord) :=
  letI := progMonad
  do
    let r ← readHeader w a
    match r with
    | .error e => pure (.error e)
    | .ok (bs, asid) => do
      let s ← st
      let world := s.worldOfWarp w
      let hdr := parseHdr bs
      match hdr, hdrStatus s world true hdr with
      | some h, 0 => do
        let who : Who := { world, asid, core := s.coreOfWarp w, blk := none }
        let f ← transAll who (hdrAddrs h)
        match f with
        | some (c, x) => pure (.error (faultAt c x))
        | none => do
          let b ← (if h.boundTab = 0 then pure (.ok []) else readAs who h.boundTab 2048)
          match b with
          | .error (c, x) => pure (.error (faultAt c x))
          | .ok bytes => do
            let view := s.relView w
            let k ← enterGrid world asid h false (if h.boundTab = 0 then [] else parseBounds bytes)
            upd (.grid k fun g => { g with view := view })
            pure (.ok (handleOf k))
      | _, n => pure (.ok (BitVec.ofNat 64 n))

/-- GRID (R328): an early action that waits for earlier holds to pour (R176), with a logged result (R169). -/
def execGrid (o : GridOp) (s : State) : Host.Outcome State Fault Refusal :=
  letI := progMonad
  next (issueU (.grid o) o.hd fun w => do
    let pw ← pourWait w
    match pw with
    | some k => pure (.wait k)
    | none => do
      let s ← st
      let r ← withLog w 8 (do
        let v ← createGrid w (s.sreg w o.a.val)
        match v with
        | .error e => pure (.error e)
        | .ok v => do
          earlyAct w
          pure (.ok ([(0, v.toNat)], none)))
      match r with
      | .error e => pure e
      | .ok (v, _) => do
        writeS w o.d.val (BitVec.ofNat 64 (v.headD (0, 0)).2)
        pure .ok) s

/-- What GWAIT finds for a handle (R329): the word to write, or a grid to wait for. -/
def gwaitWord (s : State) (world : Nat) (h : DWord) : Option DWord :=
  let k := gridOfHandle world h
  if field h 0 16 ≠ 0 then some 0
  else match (s.world world).recent.find? fun e => e.1 == h.toNat / 2 ^ 16 with
    | some e => some e.2
    | none => match s.grids.find? fun e => e.1 == k with
      | some e => if e.2.st = .complete then some 0 else none
      | none => some 0

/-- What a complete grid's completion releases at .wd (R45, R147). -/
def Grid.released (g : Grid) : View := g.view.join g.ended

/-- GWAIT (R329). -/
def execGwait (o : GridOp) (s : State) : Host.Outcome State Fault Refusal :=
  next (issueU (.gwait o) o.hd fun w => .get fun s =>
    let h := s.sreg w o.a.val
    match gwaitWord s (s.worldOfWarp w) h with
    | none => .ret (.wait (.gwait h))
    | some v =>
      .bind (whenP (v != 0) (.bind (acquire w .wd) fun _ =>
        joinView w (s.grid (gridOfHandle (s.worldOfWarp w) h)).released)) fun _ => .bind (writeS w o.d.val v) fun _ => .ret .ok) s

/-! ### Mailboxes (R330, R370) -/

/-- The address of a mailbox of a world. -/
def mailbox (s : State) (world n : Nat) : DWord := (s.world world).mbx + BitVec.ofNat 64 (0x2000 * n)

/-- MBXRD (R330): logged in a checked gang. -/
def execMbxrd (o : Mbxrd) (s : State) : Host.Outcome State Fault Refusal :=
  letI := progMonad
  next (issueU (.mbxrd o) o.hd fun w => do
    let s ← st
    let sel := s.srcU w o.sel
    if sel &&& 0xFFFFFFFFFFFFFCE0 ≠ 0 then pure (faultOf .illop)
    else do
      let world := s.worldOfWarp w
      let m := mailbox s world (field sel 0 5)
      let live : Prog (Except Res Got) := do
        let v ← (match field sel 8 2 with
          | 0 => pure m
          | 1 => pure (m + 0x40)
          | 2 => pure (m + 0x1000)
          | _ => devRead64 world 0 (m + 0x10))
        pure (.ok ([(0, v.toNat)], none))
      let r ← withLog w 8 live
      match r with
      | .error e => pure e
      | .ok (v, _) => do
        writeS w o.d.val (BitVec.ofNat 64 (v.headD (0, 0)).2)
        pure .ok) s

/-- MBXWR (R157, R330): an early action, and the warp's release at .hs. -/
def execMbxwr (o : Mbxwr) (s : State) : Host.Outcome State Fault Refusal :=
  letI := progMonad
  next (issueU (.mbxwr o) o.hd fun w => do
    let s ← st
    let n := match o.arg with | .reg m _ => (s.sreg w m.val).toNat | .imm m _ => m.val
    let v := match o.arg with | .reg _ x => s.sreg w x.val | .imm _ x => s.sreg w x.val
    if 31 < n then pure (faultOf .illop)
    else if s.isCopy w then pure .ok
    else do
      let world := s.worldOfWarp w
      let _ ← devWriteBy (fun s k => { warpWriter s w k (some .hs) true with core := 2 ^ 20 }) false world 0 (mailbox s world n + 0x10)
        (leBytes 8 v.toNat)
      earlyAct w
      pure .ok) s

end Sys2Proof.Machine
end

