-- ==== Sys2Proof/Machine/EvIssue.lean ====
section
/-!
DEFINITION. Events of parked and waiting warps: results returned, the run counter, conditions met, presence, the watchdog,
deferred faults, and entries posted late (R39, R55, R98, R192, R287, R301, R393, R394).
-/
namespace Sys2Proof.Machine

/-- The warp's block is resident (R30). -/
def residentWarp (s : State) (w : Nat) : Bool := (s.runOf (runOfWarp w)).st == .resident

/-- An operation lies in a queue of a mask (R119). -/
def inQueues (mask : BitVec 32) (q : Nat) : Bool := bitAt mask q

/-- A marker park is over (R120, R192, R290, R325). Whether members of another device have accepted an abort token is a
free value (log entry 7). -/
def parkOver (s : State) (w : Nat) (c : ParkCond) (accepted : Bool) : Bool :=
  match c with
  | .results => true
  | .queues mask upTo =>
    !(s.ops.any fun e => decide (e.1 < upTo) && e.2.warp == w && inQueues mask e.2.queue)
      && !((s.block (blockOfWarp w)).streams.any fun t => inQueues mask (8 + t.1) && t.2.warp == w && !t.2.pend.isEmpty)
  | .pushes upTo => !(s.subs.any fun e => decide (e.1 < upTo) && e.2.blk == blockOfWarp w && e.2.live && e.2.flight.any fun p => p.1 == 0)
  | .tokens g =>
    let x := s.group (s.worldOfWarp w) g
    accepted || (List.range x.size).all fun r => x.answered.contains r
  | .drops ops held pushed _ _ =>
    !(s.ops.any fun e => ops.contains e.1 && !e.2.finished && !e.2.stopped && opRuns s e.1)
      && !(pushed.any fun p => placed s (p.1 * 64) && ((s.block p.1).streams.get {} p.2.1).pend.any fun x => x.n == p.2.2)
      && !(held.any fun h => (s.gang h.1).holds.any fun x => x.hold == h.2)

/-- The end of a QFENCE acquires at .bk what the warp's completed operations in the masked queues order (R149, R297). -/
def joinEngines (w : Nat) (mask : BitVec 32) : Prog Unit :=
  .get fun s => forAll ((s.block (blockOfWarp w)).engViews.filter fun e => e.1 / 64 == w % 64 && inQueues mask (e.1 % 64))
    fun e => joinView w e.2

/-- RUN_RESULTS_RETURNED (R192): the warp may issue again, or parks at a deferred fault (R301). -/
def execRunResultsReturned (w : Nat) (s : State) : Host.Outcome State Fault Refusal :=
  letI := progMonad
  next (do
    let s ← st
    match (s.warp w).ctl.status with
    | .parked c => do
      let f ← (match c with | .tokens _ => freeVal | _ => pure 0)
      whenP (residentWarp s w && parkOver s w c (bitAt f 0)) (do
        (match c with
          | .queues mask _ => joinEngines w mask
          | .drops _ _ _ t old => forAll (s.world (s.worldOfWarp w)).dies fun d => forgetEnts d fun e =>
              e.1 == t || old.contains (d, e.1, e.2.asid, e.2.leaf)
          | _ => pure ())
        upd (.ctl w fun c => { c with status := .ready, waitFrom := none })
        recordDeferred w)
    | _ => pure ()) s

/-- RUN_COUNTER_LIMIT (R55): the warp parks as at a marker. -/
def execRunCounterLimit (w : Nat) (s : State) : Host.Outcome State Fault Refusal :=
  next (.get fun s =>
    let c := (s.warp w).ctl
    whenP (decide (c.status = .ready) && decide (c.runCnt.val = 16)) (upd (.ctl w fun c =>
      { c with status := .parked .results, runCnt := 0, runLog := [], runOld := [] }))) s

/-- The condition of a wait holds (R39). -/
def waitMet (s : State) (w : Nat) (k : Wait) : Bool :=
  let core := s.coreOfWarp w
  let blk := s.block (blockOfWarp w)
  match k with
  | .line b l _ => !absent s b l
  | .pwait lanes => lanes.all fun e => e.2.all fun x => !absent s (x / 2 ^ 20) (x % 2 ^ 20)
  | .mwait addrs _ _ => addrs.all fun e => (s.warp w).ctl.mwDone.getLsbD e.1
  | .bar n p | .await n p => phaseDone (s.barC w n) (BitVec.ofNat 32 p)
  | .gbar p => decide (p < (s.runOf (runOfWarp w)).gbar)
  | .queue e n =>
    let t := blk.streams.get {} e
    !t.bound || decide (n ≤ t.ahead.length) || t.ahead.any fun x => (match x with | .bad _ _ => true | .val _ => false)
  | .room e n => let t := blk.streams.get {} e; !t.bound || decide (t.pend.length < n)
  | .drain e => !engineBusy s (blockOfWarp w) e
  | .slots m => (List.range 4).all fun i => !bitAt m i || decide (blk.used.get 0 i < 15)
  | .rwait tail => rwaitDone s core tail
  | .rinit => (match (s.ring core).holder with | none => true | some b => b == blockOfWarp w && !ringBusy s b)
  | .ringHead => (s.slot core (s.ring core).head.val).st == .empty
  | .ringTail => let t := s.slot core (s.ring core).tail.val; t.st != .empty && !t.taken
  | .ringFill i => !holdsRing s w || (s.slot core i).st != .filling
  | .nbpop d => !(blk.fifos.get [] d).isEmpty
  | .nbpush b d => (s.block b).retired || decide (((s.block b).fifos.get [] d).length < 16)
  | .gwait h => (gwaitWord s (s.worldOfWarp w) h).isSome
  | .pour n => !heldBelow s (s.gangOfWarp w) n
  | .route c d _ => !unreachable s c d
  | .remote => (s.warp w).ctl.away.isEmpty
  | .ladle | .extent _ | .record | .eret => false

/-- WAIT_CONDITION_MET (R39): the wait is over, and so is its time (R394). -/
def execWaitConditionMet (w : Nat) (s : State) : Host.Outcome State Fault Refusal :=
  next (.get fun s => match (s.warp w).ctl.status with
    | .waiting k => whenP (residentWarp s w && waitMet s w k) (upd (.ctl w fun c => { c with status := .ready, waitFrom := none }))
    | _ => .ret ()) s

/-- MWAIT_SATISFIED (R287): a lane whose word is at least its value is done, whatever the word does later. -/
def execMwaitSatisfied (w lane : Nat) (s : State) : Host.Outcome State Fault Refusal :=
  letI := progMonad
  next (do
    let s ← st
    match (s.warp w).ctl.status with
    | .waiting (.mwait addrs vals sc) =>
      match addrs.find? fun e => e.1 == lane with
      | some (_, a) => do
        let r ← locate (s.whoWarp w) a 8 { rd := true }
        let s ← st
        match r with
        | .error _ => pure ()
        | .ok loc => do
          let acc : Acc := ⟨lane, a, loc⟩
          let enough (v : Nat) : Bool := decide ((vals.get 0 lane).toNat ≤ v)
          let may := residentWarp s w && readyLane s acc && (match loc with
            | .spad b o => enough (leNat (spadBytes (s.block b) o 8))
            | .remote => true
            | l => match lineBytes (lineSeen s w a l) (a.toNat % 128) 8 with | some b => enough (leNat b) | none => false)
          whenP may (do
            let (vs, _) ← readLanes w 8 { sc := some sc, acq := fun _ v => enough v } [acc]
            forAll (vs.filter fun v => enough v.2) fun v => do
              upd (.ctl w fun c => { c with mwDone := c.mwDone ||| maskOf [lane],
                                            mwWords := Tab.put c.mwWords lane (BitVec.ofNat 64 v.2) })
              let s ← st
              whenP (addrs.all fun e => (s.warp w).ctl.mwDone.getLsbD e.1) (upd (.ctl w fun c => { c with status := .ready, waitFrom := none })))
      | none => pure ()
    | _ => pure ()) s

/-- PRESENCE_SET (R98): no operation issued to the line is left. -/
def execPresenceSet (blk line : Nat) (s : State) : Host.Outcome State Fault Refusal :=
  letI := progMonad
  next (do
    let s ← st
    let b := s.block blk
    whenP (b.busy.get 0 line == 0 && b.unset.get 0 line % 2 == 1) (do
      upd (.block blk fun b => { b with unset := Tab.set 0 b.unset line (b.unset.get 0 line / 2 * 2) })
      let key := blk * 2 ^ 20 + line
      forAll (s.ops.filter fun e => e.2.finished && e.2.lines.contains key) fun e =>
        upd (.block blk fun b => { b with lineView := b.lineView.put line ((b.lineView.get {} line).join (opView s e.1)) })
      forAll (s.ops.filter fun e => e.2.finished && e.2.lines.contains key) fun e =>
        let left := e.2.lines.filter (· != key)
        if left.isEmpty then upd (.opDrop e.1) else upd (.op e.1 fun o => { o with lines := left }))) s

/-! ### The watchdog (R394) -/

/-- The world's watchdog interval in ns (R358). -/
def watchdogNs (s : State) (world : Nat) : Nat :=
  let us := field (s.world world).cfg 0 32
  if us = 0 then 1000000000 else us * 1000

/-- A version-checked copy that is retrying and that a parked QFENCE waits for (R156): the address of its version word, and when
it first found its tile being written. -/
def retryingCopy (s : State) (w : Nat) (c : ParkCond) : Option (DWord × Nat) :=
  match c with
  | .queues mask upTo => s.ops.findSome? fun e => match e.2.kind, e.2.retryFrom with
    | .copy m cs _ _ _ (some _), some t =>
      if decide (e.1 < upTo) && e.2.warp == w && inQueues mask e.2.queue && !e.2.finished then some (verAddr m cs, t) else none
    | _, _ => none
  | _ => none

/-- FADDR of the watchdog for a wait; none where it never ends the wait (R59, R394). -/
def watchdogAddr (s : State) (w : Nat) (k : Wait) : Option DWord :=
  match k with
  | .mwait addrs _ _ => some (((addrs.find? fun e => !(s.warp w).ctl.mwDone.getLsbD e.1).map (·.2)).getD 0)
  | .pwait lanes => some (((lanes.find? fun e => e.2.any fun x => absent s (x / 2 ^ 20) (x % 2 ^ 20)).map (·.1)).getD 0)
  | .line _ _ a | .route _ _ a => some a
  | .bar _ _ | .await _ _ | .gbar _ | .rwait _ | .gwait _ | .nbpop _ | .nbpush _ _ => some 0
  | _ => none

/-- Withdraw the arrival of a warp whose BAR or GBAR ends in a fault: it has had no effect (R60; log entry 26). -/
def withdraw (w : Nat) (k : Wait) : Prog Unit :=
  .get fun s =>
    let blk := blockOfWarp w
    match k, (s.warp w).ctl.arrived with
    | .bar n p, some _ =>
      let b := (s.block blk).bars.get {} n
      whenP (b.c == BitVec.ofNat 32 p && b.isOpen) (upd (.block blk fun x =>
        { x with bars := x.bars.put n { b with arr := b.arr - 1, isOpen := decide (1 < b.arr) } }))
    | .gbar p, some _ =>
      whenP ((s.runOf (runOfWarp w)).gbar == p) (upd (.block blk fun x => { x with gbarArr := x.gbarArr - 1 }))
    | _, _ => .ret ()

/-- At a fault in some lanes, the others are performed (R274): LD, LDA, ST, ATOM and RED without release. -/
def laneByLane (i : Instr) : Bool :=
  match i with
  | .ld _ | .lda _ | .st _ => true
  | .atom o => decide (o.ord = .rlx ∨ o.ord = .acq)
  | .red o => decide (o.ord = .rlx)
  | _ => false

/-- The fault that ends a wait of an instruction at an address: of R274's, its lanes not performed. -/
def lateFault (s : State) (w : Nat) (k : Wait) (i : Fetched) (a : DWord) : FaultInfo :=
  let mem := match k with | .mwait .. | .pwait _ | .line .. | .route .. => true | _ => false
  match (match i with | .instr i => if mem then i.hd.map fun h => (i, h) else none | _ => none) with
  | some (i, h) => { accFault s w h (!laneByLane i) ((lanesOf (effMask s w h)).map fun l => (l, .watchdog, a)) with cause := .watchdog, faddr := a }
  | none => { cause := .watchdog, faddr := a }

/-- WATCHDOG (R394). -/
def execWatchdog (w : Nat) (s : State) : Host.Outcome State Fault Refusal :=
  letI := progMonad
  next (do
    let s ← st
    let c := (s.warp w).ctl
    let late (from_ : Nat) : Bool := match c.waitFrom with
      | some t => decide (max t from_ + watchdogNs s (s.worldOfWarp w) ≤ s.time) && residentWarp s w
      | none => false
    match c.status with
    | .waiting k => match watchdogAddr s w k with
      | some a => whenP (late 0) (do
          let i ← fetch w
          withdraw w k
          upd (.ctl w fun c => { c with arrived := none, mwDone := 0, mwWords := [], waitFrom := none })
          takeFault w (lateFault s w k i a))
      | none => pure ()
    | .parked p => match retryingCopy s w p with
      | some (a, from_) => whenP (late from_) (do
          upd (.ctl w fun c => { c with waitFrom := none })
          takeFault w { cause := .watchdog, faddr := a, fpc := some c.contPc })
      | none => pure ()
    | _ => pure ()) s

/-! ### Deferred faults and late posts -/

/-- What the engine of an operation would do next, and RPROG where the matrix unit stops. -/
def nextOfOp (k : Nat) : Prog (Except (Stop × Option DWord) Unit) :=
  .get fun s =>
    let plain (p : Prog (Except Stop Unit)) : Prog (Except (Stop × Option DWord) Unit) :=
      .bind p fun r => .ret (match r with | .error e => .error (e, none) | .ok _ => .ok ())
    match (s.op k).kind with
    | .mloop _ => .bind (mloopAttempt k) fun r => .ret (match r with | .error (e, p) => .error (e, some p) | .ok _ => .ok ())
    | .epi _ => plain (epiAttempt k)
    | .coll _ => plain (collAttempt k)
    | _ => plain (engineAttempt k)

/-- DEFERRED_FAULT (R301): the engine meets a cause. -/
def execDeferredFault (op : Nat) (s : State) : Host.Outcome State Fault Refusal :=
  next (.get fun s => match ((nextOfOp op).run s).1 with
    | .error (.cause c a, p) => whenP (opRuns s op) (.bind (spoilOp op c) fun _ => deferFault op c a p none)
    | _ => .ret ()) s

/-- The kind code of a warp's entry (R391). -/
def entryKind (s : State) (w : Nat) : Nat := if (s.warp w).ctl.deferred.isSome then 1 else if s.isCopy w then 2 else 0

/-- FAULT_POST_WAITING (R393): warps are posted in the order they faulted. -/
def execFaultPostWaiting (world : Nat) (s : State) : Host.Outcome State Fault Refusal :=
  letI := progMonad
  next (do
    let s ← st
    match (s.world world).unposted with
    | [] => pure ()
    | w :: t => do
      let ok ← postEntry world (entryWords s w (entryKind s w))
      whenP ok (do
        upd (.world world fun x => { x with unposted := t })
        let n ← devRead64 world 0 ((s.world world).fq + 16)
        devWrite64 world 0 ((s.world world).fq + 16) (n - 1))) s

end Sys2Proof.Machine
end

