-- ==== Sys2Proof/Machine/EvSched.lean ====
section
/-!
DEFINITION. Scheduling: wait stamps and completion (R24, R25, R45), firmware's placement policy (R376, R378), dispatch (R379
to R382), starting a gang (R26 to R29), shadows (R163, R383), and pre-emption (R384 to R387).
-/
namespace Sys2Proof.Machine

/-! ### Grid events, wait stamps, completion -/

/-- What the releases carried by a word order for a grid's warps, when the device acquires it at .wd for them (R147). -/
def stampView (s : State) (g : Nat) (a : DWord) (loc : Loc) : View :=
  let i : Inst := ⟨.wd, worldOfGrid g⟩
  let msgs := match loc with
    | .mem x => msgsAt (s.msgs.get [] x.lid) (a.toNat % 128) 8
    | .host key => msgsAt (s.msgs.get [] (2 ^ 100 + key / 128)) (key % 128) 8
    | _ => []
  ((msgs.flatMap (·.rels)).filter fun r => r.insts.all (·.has s 0) && i.has s r.warp).foldl (fun v r => v.join r.view) (s.grid g).view

/-- WAIT_STAMP_SATISFIED (R25): the read acquires for every warp of the grid, and the code they fetch is that of the last
such read (R455). -/
def execWaitStampSatisfied (grid k : Nat) (s : State) : Host.Outcome State Fault Refusal :=
  letI := progMonad
  next (do
    let s ← st
    let g := s.grid grid
    match g.hdr.waits[k]? with
    | none => pure ()
    | some (a, v) =>
      whenP (decide (g.st = .live) && g.sat.getD k false == false) (do
        let r ← readAs (gridWho s grid) a 8
        match r with
        | .error (c, f) => postGridEvent grid c f
        | .ok bs => whenP (decide (v.toNat ≤ leNat bs)) (do
            let l ← locate (gridWho s grid) a 8 { rd := true }
            let t ← st
            let view := match l with | .ok loc => stampView t grid a loc | .error _ => (t.grid grid).view
            upd (.grid grid fun g =>
              let sat := g.sat.set k true
              { g with sat := sat, startTurn := s.seqNo, view := view, eligibleAt := if sat.all id then some s.time else none })))) s

/-- A gang's writes are all poured, and every segment of its primary is decided (R45). -/
def gangSettled (s : State) (k : Nat) : Bool :=
  let g := s.gang k
  !g.checked || (!heldBelow s k (2 ^ 64) && g.mismatch.isNone
    && (g.segs.filter fun e => e.run == g.primary).all fun e => g.verdicts.any fun v => v.1 == e.warp && v.2.1 == e.seg)

/-- The grid has nothing left to run (R45, R46). -/
def gridOver (s : State) (g : Nat) : Bool :=
  let x := s.grid g
  match x.st with
  | .live => decide (x.done.length = x.hdr.gangs * x.hdr.chain)
      && (s.gangs.all fun e => gridOfGang e.1 != g || gangSettled s e.1)
  | .stopping => s.runs.all fun e => gridOfGang e.2.gang != g || !(e.2.st == .resident || e.2.st == .saving)
  | .complete => false

/-- The completion word (R45). -/
def completionWord (x : Grid) : DWord :=
  BitVec.ofNat 64 (2 ^ 63 + x.boundBit.toNat * 2 ^ 62 + x.unchecked.toNat * 2 ^ 61 + x.cause.toNat)

/-- The grid is complete: the word GWAIT finds (R329), and its extents are free. -/
def markComplete (g : Nat) : Prog Unit :=
  .get fun s =>
    let word := completionWord (s.grid g)
    .bind (upd (.grid g fun x => { x with st := .complete, word := word })) fun _ =>
      upd (.world (worldOfGrid g) fun x => { x with recent := ((g % 2 ^ 48, word) :: x.recent).take 65536 })

/-- Write 8 bytes at an address in a grid's context, as a strong write of the device, a release at .wd; or the cause that
prevents it. -/
def stampAs (who : Who) (a v : DWord) : Prog (Option (Cause × DWord)) :=
  letI := progMonad
  do
    let r ← locate who a 8 {}
    let s ← st
    match r with
    | .error e => pure (some e)
    | .ok loc =>
      let wr := deviceWriter s who.world who.core 8 who.view
      match loc with
      | .mem x =>
        if !lineWriteOk s x 8 then pure (some (.integrity, lineAddr s a))
        else do
          touchWho who x
          lineWrite wr false x (bytesAt (a.toNat % 128) 8 v.toNat)
          pure none
      | .host _ => do
        writeLine wr false 0 a loc (bytesAt (a.toNat % 128) 8 v.toNat)
        pure none
      | .remote => do
        sendUlbQuiet (field a 51 13) (UlbBody.write who.world who.asid a (leBytes 8 v.toNat) (some (.wd, true)))
        pure none
      | _ => pure none

/-- GRID_COMPLETE (R45): the completion word is written with release, or an unmapped stamp page is posted (R24). -/
def execGridComplete (grid : Nat) (s : State) : Host.Outcome State Fault Refusal :=
  letI := progMonad
  next (do
    let s ← st
    let g := s.grid grid
    whenP ((s.grids.any fun e => e.1 == grid) && gridOver s grid) (do
      let r ← (if g.hdr.compl = 0 then pure none else stampAs { gridWho s grid with view := g.released } g.hdr.compl (completionWord g))
      match r with
      | some (c, f) => postGridEvent grid c f
      | none => markComplete grid)) s

/-! ### Firmware's policy (R376, R378, R383) -/

/-- Linear index of a gang's coordinates and stage (R161). -/
def linearIdx (h : Hdr) (x y z stage : Nat) : Nat := x + h.gx * (y + h.gy * (z + h.gz * stage))

/-- Grid and gang a bind record names. -/
def recGrid (world : Nat) (r : BindWrite) : Nat := gridOfHandle world r.handle
def recGang (s : State) (world : Nat) (r : BindWrite) : Nat :=
  let g := recGrid world r
  g * 2 ^ 32 + linearIdx (s.grid g).hdr r.gx r.gy r.gz r.stage

/-- A gang is sampled (R160, R161). -/
def sampled (h : Hdr) (idx : Nat) : Bool :=
  h.redund == 2 || (h.redund == 1 && (sigFold (sigFold 0 h.seed) (BitVec.ofNat 64 idx)).toNat % 2 ^ h.k == 0)

/-- The gangs that are placed together with a gang (R14, R32): a whole allres grid, a chain, or the gang alone. -/
def groupOf (h : Hdr) (gang : Nat) : List Nat :=
  let base := gang / 2 ^ 32 * 2 ^ 32
  if h.allres then (List.range (h.gangs * h.chain)).map (base + ·)
  else (List.range h.chain).map fun k => base + gangIdx gang % h.gangs + k * h.gangs

/-- A grid is eligible (R376 item 3). -/
def eligible (s : State) (x : Grid) : Bool :=
  x.st == .live && x.eligibleAt.isSome && (!x.hdr.tstart || decide (x.hdr.start.toNat ≤ s.time))

/-- Since when a grid is eligible. -/
def eligibleSince (x : Grid) : Nat := max (x.eligibleAt.getD 0) (if x.hdr.tstart then x.hdr.start.toNat else 0)

/-- Gangs of a grid not placed. -/
def unplaced (g : Nat) (x : Grid) : List Nat :=
  ((List.range (x.hdr.gangs * x.hdr.chain)).filter fun i => !x.placed.contains i).map (g * 2 ^ 32 + ·)

/-- Cores of a record: die·16 + core. -/
def recCores (r : BindWrite) : List Nat := r.coremap.map fun c => r.die * 16 + r.cluster * 4 + c

/-- The world a die is latched to. -/
def dieWorld (s : State) (d : Nat) : Nat := field (s.die d).dlatch 0 4

/-- The load of a core with the blocks of some records too. -/
def loadWith (s : State) (recs : List BindWrite) (core : Nat) : Load :=
  recs.foldl (fun l r => l.add (s.grid (recGrid (dieWorld s r.die) r)).hdr ((recCores r).filter (· == core)).length) (coreLoad s core false)

/-- The cores free beside some records admit a gang of a grid, its chain, or all its gangs (R376 item 6). -/
def placeable (s : State) (recs : List BindWrite) (g : Nat) : Bool :=
  let h := (s.grid g).hdr
  let cs := roomsBeside s (worldOfGrid g) h (loadWith s recs)
  if h.allres then allFit s h cs else pathExists s cs h.chain []

/-- One grid is served before another (R376 items 1 and 2). -/
def servedBefore (a b : Grid) : Bool := decide (b.hdr.prio < a.hdr.prio) || (a.hdr.prio == b.hdr.prio && decide (a.order < b.order))

/-- The grid at the head of a queue (R375). -/
def queueHead (s : State) (world prio : Nat) : Option Nat :=
  ((s.grids.filter fun e => worldOfGrid e.1 == world && !e.2.resident && e.2.hdr.prio == prio && e.2.st != .complete).foldl
    (fun b e => match b with
      | some (k, n) => if e.2.order < n then some (e.1, e.2.order) else some (k, n)
      | none => some (e.1, e.2.order)) (none : Option (Nat × Nat))).map (·.1)

/-- A grid at the head of its queue has been eligible for 50 ms without a gang placed (R376 item 4). -/
def headWaits (s : State) (world g : Nat) : Bool :=
  let x := s.grid g
  queueHead s world x.hdr.prio == some g && eligible s x && x.placed.isEmpty && decide (eligibleSince x + 50000000 ≤ s.time)

/-- A grid may not be placed while another blocks its queue (R376 item 4). -/
def blockedOut (s : State) (world g : Nat) : Bool :=
  s.grids.any fun e => worldOfGrid e.1 == world && !e.2.resident && e.2.st == .live && e.1 != g
    && decide ((s.grid g).hdr.prio ≤ e.2.hdr.prio) && e.2.placed.isEmpty
    && ((s.world world).blocked.contains e.1 || headWaits s world e.1)

/-- The bind record in a slot. -/
def bindAt (s : State) (d i : Nat) : BindRec := (s.die d).binds.get {} i

/-- A record's fields name a gang of a live grid of the world, on a free slot and distinct cores of one cluster. -/
def recOk (s : State) (world : Nat) (r : BindWrite) : Bool :=
  let x := s.grid (recGrid world r)
  let h := x.hdr
  (s.world world).dies.contains r.die && decide (r.idx < 64) && !(bindAt s r.die r.idx).valid
    && (s.grids.any fun e => e.1 == recGrid world r) && x.st == .live && !x.resident && field r.handle 0 16 == 0
    && decide (r.gx < h.gx) && decide (r.gy < h.gy) && decide (r.gz < h.gz) && decide (r.stage < h.chain)
    && r.prio == h.prio && decide (r.cluster < 4) && r.coremap.length == h.gsize && (r.coremap.all fun c => decide (c < 4))
    && r.coremap.eraseDups.length == h.gsize

/-- A run that no turn has ended yet. -/
def runLives (r : Run) : Bool := r.st != .ended

/-- A checked gang of a grid has no shadow, and no record for one (R383). -/
def wantsShadow (s : State) (world k : Nat) : Bool :=
  let g := s.gang k
  g.checked && !g.ended && g.primary != 0 && g.shadow == 0 && !(s.dies.any fun d => d.2.binds.any fun b =>
    b.2.valid && b.2.w.kind == 2 && recGang s world b.2.w == k)

/-- A gang of a grid waits to be placed and is not among some records: a fresh one of an eligible grid, a saved one, or a shadow. -/
def leftOut (s : State) (world g : Nat) (x : Grid) (recs : List BindWrite) : Bool :=
  let among (k : Nat) (kind : Nat → Bool) : Bool := recs.any fun q => recGang s world q == k && kind q.kind
  (eligible s x && (unplaced g x).any fun k => !among k fun n => decide (n ≤ 1))
    || (x.st == .live && ((s.runs.any fun e => gridOfGang e.2.gang == g && e.2.st == .saved && !among e.2.gang (· == e.2.kind))
          || s.gangs.any fun e => gridOfGang e.1 == g && wantsShadow s world e.1 && !among e.1 (· == 2)))

/-- No core that neither other run of a gang uses has room for its arbiter beside some records (R178, R383). -/
def arbiterStuck (s : State) (world : Nat) (recs : List BindWrite) (k : Nat) : Bool :=
  let g := s.gang k
  let used := (s.blocksOfRun g.primary ++ s.blocksOfRun g.shadow).map fun b => (s.block b).core
  let h := (s.grid (gridOfGang k)).hdr
  (s.world world).dies.all fun d => (List.range 4).all fun c =>
    gangRoom ((List.range 4).map fun i =>
      let core := d * 16 + c * 4 + i
      if used.contains core then 0 else coreRoom s core h (loadWith s recs core)) h.gsize == 0

/-- An arbiter that a gang of a grid wants is not among some records (R383). -/
def arbiterLeft (s : State) (world g : Nat) (recs : List BindWrite) : Bool :=
  s.gangs.any fun e => gridOfGang e.1 == g && e.2.mismatch.isSome && e.2.arbiter == 0 && !arbiterStuck s world recs e.1
    && !recs.any fun q => recGang s world q == e.1 && q.kind == 3

/-- Records keep the order of R376 items 1 and 2 ahead of a grid: of every grid served before it, what waits is placed with them,
or does not fit beside those of them that are served no later. -/
def inOrder (s : State) (world : Nat) (recs : List BindWrite) (x : Grid) : Bool :=
  s.grids.all fun e => !(worldOfGrid e.1 == world && !e.2.resident && servedBefore e.2 x) ||
    let first := recs.filter fun q => recGrid world q == e.1 || servedBefore (s.grid (recGrid world q)) e.2
    !(leftOut s world e.1 e.2 recs && placeable s first e.1) && !(e.2.st == .live && arbiterLeft s world e.1 first)

/-- The stages of a chain lie on linked clusters (R12): the stage before a record's is among the records, on a cluster linked
to its own, or has ended; one stage may be checked and the other not (R160). Copies of a gang use no link. -/
def linksOk (s : State) (world : Nat) (recs : List BindWrite) : Bool :=
  recs.all fun r => r.stage == 0 || r.kind == 2 || r.kind == 3
    || (recs.any fun q => q.gx == r.gx && q.gy == r.gy && q.gz == r.gz && q.stage + 1 == r.stage && decide (q.kind ≤ 1)
          && linked s (q.die * 4 + q.cluster) (r.die * 4 + r.cluster) && recGrid world q == recGrid world r)
    || (s.gang (recGang s world r - (s.grid (recGrid world r)).hdr.gangs)).ended

/-- A record of a gang that starts afresh (R376 items 1 to 4); the gangs of an allres grid start at one time (R32). -/
def freshOk (s : State) (world : Nat) (recs : List BindWrite) (r : BindWrite) : Bool :=
  let g := recGrid world r
  let x := s.grid g
  let idx := gangIdx (recGang s world r)
  let mine := (recs.filter fun q => recGrid world q == g && decide (q.kind ≤ 1)).map fun q => gangIdx (recGang s world q)
  let soon := x.hdr.tstart && r.start == x.hdr.start
  r.kind == (if sampled x.hdr idx then 1 else 0) && !x.placed.contains idx && x.sat.all id
    && (eligible s x || soon) && !blockedOut s world g
    && inOrder s world recs x && (!x.hdr.allres || recs.all fun q => recGrid world q != g || q.start == r.start)
    && (x.hdr.allres || (List.range (idx % x.hdr.gangs)).all fun i => x.placed.contains i || mine.contains i)
    && ((groupOf x.hdr (recGang s world r)).length == 1
          || (r.gate && (groupOf x.hdr (recGang s world r)).all fun k => mine.contains (gangIdx k)))

/-- A record's link names the place of a run's record (R378, R383), which firmware may have cleared after the run ended. -/
def slinks (s : State) (r : BindWrite) (run : Nat) : Bool := r.slink == some ((s.runOf run).die, (s.runOf run).idx)

/-- A core of some die of the world other than one die has room for a block. -/
def otherDieRoom (s : State) (world d : Nat) (h : Hdr) : Bool :=
  (worldRooms s world h false).any fun c => c.1 / 4 != d && c.2 != 0

/-- A shadow record (R163, R383): in its queue position, with the primary's start time plus the grid's time shift. -/
def shadowOk (s : State) (world : Nat) (recs : List BindWrite) (r : BindWrite) : Bool :=
  let g := s.gang (recGang s world r)
  let p := s.runOf g.primary
  let x := s.grid (recGrid world r)
  r.kind == 2 && wantsShadow s world (recGang s world r) && slinks s r g.primary && !r.gate
    && r.start.toNat == p.startAt + x.hdr.shift && !blockedOut s world (recGrid world r) && inOrder s world recs x
    && (if r.die = p.die then r.cluster != p.cluster && !otherDieRoom s world p.die (s.grid (recGrid world r)).hdr else true)

/-- A record that restores a saved run (R380, R386). -/
def restoreOk (s : State) (world : Nat) (recs : List BindWrite) (r : BindWrite) : Bool :=
  let gk := recGang s world r
  let h := (s.grid (recGrid world r)).hdr
  let saved (k : Nat) : Bool := s.runs.any fun e => e.2.gang == k && e.2.st == .saved && e.2.kind == r.kind
  (s.runs.any fun e => e.2.gang == gk && e.2.st == .saved && e.2.kind == r.kind && e.2.save == r.save)
    && !blockedOut s world (recGrid world r) && inOrder s world recs (s.grid (recGrid world r))
    && (!h.allres || recs.all fun q => recGrid world q != recGrid world r || q.kind != r.kind || q.start == r.start)
    && (decide (2 ≤ r.kind) || (groupOf h gk).length == 1
          || (r.gate && (groupOf h gk).all fun k => !saved k || recs.any fun q => recGang s world q == k && q.save != 0))

/-- Records that firmware may write together under its policy. -/
def placeOk (s : State) (world : Nat) (recs : List BindWrite) : Bool :=
  (s.world world).st == .running && !recs.isEmpty
    && (recs.map fun r => r.die * 64 + r.idx).eraseDups.length == recs.length
    && (recs.map fun r => recGang s world r * 4 + r.kind).eraseDups.length == recs.length
    && linksOk s world recs
    && recs.all fun r => recOk s world r
        && (if r.save ≠ 0 then restoreOk s world recs r else if r.kind = 2 then shadowOk s world recs r else freshOk s world recs r)

/-- Write a bind record (R378). -/
def writeBind (r : BindWrite) : Prog Unit :=
  upd (.die r.die fun d => { d with binds := d.binds.put r.idx { valid := true, w := r } })

/-- FIRMWARE_PLACE (R376): which eligible gangs go where is firmware's choice, within its policy. -/
def execFirmwarePlace (world : Nat) (recs : List BindWrite) (s : State) : Host.Outcome State Fault Refusal :=
  letI := progMonad
  next (do
    let s ← st
    whenP (placeOk s world recs) (forAll recs fun r => do
      writeBind r
      whenP (r.save == 0 && decide (r.kind ≤ 1)) (do
        let g := recGrid world r
        upd (.grid g fun x => { x with placed := x.placed ++ [gangIdx (recGang s world r)] })
        upd (.world world fun x => { x with blocked := x.blocked.filter (· != g) })))) s

/-- QUEUE_HEAD_BLOCK (R376 item 4). -/
def execQueueHeadBlock (world grid : Nat) (s : State) : Host.Outcome State Fault Refusal :=
  next (.get fun s =>
    whenP (headWaits s world grid && !(s.world world).blocked.contains grid)
      (upd (.world world fun w => { w with blocked := w.blocked ++ [grid] }))) s

/-! ### Dispatch (R380) -/

/-- Why dispatch refuses a record; 0 when it does not. With a fenced core and a reserved field both, which is told is a
free value (`both`). -/
def refuseWhy (s : State) (r : BindWrite) (both : Bool) : Nat :=
  let world := dieWorld s r.die
  let h := (s.grid (recGrid world r)).hdr
  let fenced := r.kind != 4 && (recCores r).any (coreFenced s)
  let resv := r.resv || decide (4 < r.kind)
  if fenced ∧ resv then (if both then 1 else 4)
  else if fenced then 1
  else if resv then 4
  else if r.kind ≠ 4 ∧ ¬ (recCores r).all (fun c => (({} : Load).add h ((recCores r).filter (· == c)).length).ok) then 2
  else if r.save ≠ 0 ∧ ¬ (recordValid s world r.save && s.runs.any fun e => e.2.gang == recGang s world r && e.2.st == .saved
      && e.2.kind == r.kind && e.2.save == r.save) then 3
  else 0

/-- The named cores have room now. -/
def recFits (s : State) (r : BindWrite) : Bool :=
  let h := (s.grid (recGrid (dieWorld s r.die) r)).hdr
  (recCores r).all fun c => ((coreLoad s c false).add h ((recCores r).filter (· == c)).length).ok

/-- Reserve a record's cores: a fresh run with its blocks, or the run it restores on other cores. -/
def reserve (d i : Nat) : Prog Unit :=
  letI := progMonad
  do
    let s ← st
    let r := (bindAt s d i).w
    let world := dieWorld s d
    let gk := recGang s world r
    let h := (s.grid (recGrid world r)).hdr
    let old := s.runs.find? fun e => e.2.gang == gk && e.2.st == .saved && e.2.kind == r.kind && e.2.save == r.save
    let set (x : Run) : Run :=
      { x with die := d, idx := i, cluster := r.cluster, cores := r.coremap.map (r.cluster * 4 + ·), st := .reserved }
    match r.save == 0, old with
    | false, some (k, _) => do
      upd (.run k set)
      forAll (recCores r).zipIdx fun e => upd (.block (k * 4 + e.2) fun b => { b with core := e.1 })
      upd (.die d fun x => { x with binds := x.binds.put i { bindAt s d i with st := .reserved, run := k } })
    | _, _ => do
      let k ← fresh
      upd (.run k fun _ => set { world, gang := gk, kind := r.kind, stage := r.stage, startAt := r.start.toNat })
      forAll (recCores r).zipIdx fun e => do
        upd (.spadClear (k * 4 + e.2))
        upd (.block (k * 4 + e.2) fun _ =>
          { run := k, idx := e.2, core := e.1, spadSize := 65536 * h.spad, nwarps := h.roles.foldl (fun n x => n + x.nwarps) 0 })
      upd (.gang gk fun g =>
        match r.kind with
        | 2 => { g with shadow := k }
        | 3 => { g with arbiter := k }
        | _ => { g with primary := k, checked := r.kind == 1, place := some (d * 4 + r.cluster) })
      upd (.die d fun x => { x with binds := x.binds.put i { bindAt s d i with st := .reserved, run := k } })

/-- A lower pending record of the die fits too (R380 item 3). -/
def lowerFits (s : State) (d i : Nat) : Bool :=
  (s.die d).binds.any fun b => decide (b.1 < i) && b.2.valid && b.2.st == .pending && refuseWhy s b.2.w true == 0 && recFits s b.2.w

/-- Reserve a pending record that is not refused, when it fits and no lower one does. -/
def tryReserve (d i : Nat) : Prog Unit :=
  .get fun s => whenP (recFits s (bindAt s d i).w && !lowerFits s d i) (reserve d i)

/-- BIND_VALID_SET (R380 items 1 to 3). -/
def execBindValidSet (die idx : Nat) (s : State) : Host.Outcome State Fault Refusal :=
  letI := progMonad
  next (do
    let s ← st
    let b := bindAt s die idx
    whenP (b.valid && b.st == .pending) (do
      let f ← freeVal
      let why := refuseWhy s b.w (bitAt f 0)
      if why = 0 then tryReserve die idx
      else upd (.die die fun x => { x with binds := x.binds.put idx { b with st := .refused, why := why } }))) s

/-- DISPATCH_RESERVE (R380 item 3). -/
def execDispatchReserve (die idx : Nat) (s : State) : Host.Outcome State Fault Refusal :=
  next (.get fun s =>
    let b := bindAt s die idx
    whenP (b.valid && b.st == .pending && refuseWhy s b.w true == 0) (tryReserve die idx)) s

/-- Records that start or move together: those whose gangs belong to one group and that are not a copy's. -/
def groupRecs (s : State) (d i : Nat) : List (Nat × Nat × BindRec) :=
  let me := bindAt s d i
  let world := dieWorld s d
  let gs := groupOf (s.grid (recGrid world me.w)).hdr (recGang s world me.w)
  s.dies.flatMap fun x => (x.2.binds.filter fun b => b.2.valid && b.2.st != .ended && decide (b.2.w.kind ≤ 1)
    && dieWorld s x.1 == world && gs.contains (recGang s world b.2.w)).map fun b => (x.1, b.1, b.2)

/-- Firmware may clear the gates of these records: every record of each group is reserved (R380). -/
def gateOk (s : State) (recs : List (Nat × Nat)) : Bool :=
  recs.all fun p =>
    let b := bindAt s p.1 p.2
    let world := dieWorld s p.1
    let rs := groupRecs s p.1 p.2
    b.valid && b.st == .reserved && b.w.gate
      && (decide (2 ≤ b.w.kind) || (rs.all fun r => recs.contains (r.1, r.2.1) && r.2.2.st == .reserved)
            && (groupOf (s.grid (recGrid world b.w)).hdr (recGang s world b.w)).all fun k =>
                  (s.gang k).ended || rs.any fun r => recGang s world r.2.2.w == k)

/-- BIND_GATE_CLEAR (R380): firmware clears gate when every record of the group is reserved. -/
def execBindGateClear (recs : List (Nat × Nat)) (s : State) : Host.Outcome State Fault Refusal :=
  next (.get fun s => whenP (gateOk s recs) (forAll recs fun p => upd (.die p.1 fun d =>
    { d with binds := d.binds.put p.2 (let b := d.binds.get {} p.2; { b with w := { b.w with gate := false } }) }))) s

/-! ### Starting a gang (R26, R28, R29) -/

/-- Warps of a header by index: role, index in the role, role descriptor. -/
def warpRoles (h : Hdr) : List (Nat × Nat × RoleDesc) :=
  h.roles.zipIdx.flatMap fun r => (List.range r.1.nwarps).map fun j => (r.2, j, r.1)

/-- Lanes that a warp launches (R18): the first L of a role's last warp, else all. -/
def launchedLanes (r : RoleDesc) (j : Nat) : Mask := maskOf (List.range (if j + 1 = r.nwarps then r.last else Config.W))

/-- The next epoch of a warp slot (R392). -/
def nextEpoch (e : Nat) : Nat := if (e + 1) % 2 ^ 16 = 0 then 1 else (e + 1) % 2 ^ 16

/-- Start one warp in the state of R28. -/
def startWarp (g : Nat) (core w : Nat) (r : Nat × Nat × RoleDesc) : Prog Unit :=
  letI := progMonad
  do
    let s ← st
    let h := (s.grid g).hdr
    let slot := core % 16 * 64 + w % 64
    let e := nextEpoch ((s.die (core / 16)).epochs.get 0 slot)
    let lanes := launchedLanes r.2.2 r.2.1
    upd (.die (core / 16) fun d => { d with epochs := d.epochs.put slot e })
    upd (.warp w { pc := r.2.2.entry, launched := lanes, status := .ready, epoch := e, home := core, alloc := r.2.2.alloc,
                   role := r.1, roleIdx := r.2.1, acq := s.seqNo, view := (s.grid g).view })
    upd (.mreg w 0 lanes)
    upd (.sreg w 0 h.arg)
    upd (.sreg w 1 (handleOf g))
    upd (.fpcr w h.fpcr)

/-- Take a free feed-log extent for a gang, if its page is mapped (R162, R170); the records that wait for it are written. -/
def takeExtent (gk : Nat) : Prog Unit :=
  letI := progMonad
  do
    let s ← st
    let grid := gridOfGang gk
    match (s.grid grid).freeExt with
    | [] => pure ()
    | e :: t => do
      let ok ← logMapped gk (65536 * e)
      whenP ok (do
        upd (.grid grid fun x => { x with freeExt := t })
        upd (.gang gk fun g => { g with extents := g.extents ++ [e], extUsed := 0 })
        drainLog gk (s.gang gk).backlog)

/-- Start a fresh run: its scratchpads are zero and present as reserved, and its warps begin (R28, R29). -/
def startFresh (k : Nat) : Prog Unit :=
  letI := progMonad
  do
    let s ← st
    let r := s.runOf k
    let g := gridOfGang r.gang
    forAll (s.blocksOfRun k) fun b => forAll (warpRoles (s.grid g).hdr).zipIdx fun e => startWarp g (s.block b).core (b * 64 + e.2) e.1
    upd (.run k fun r => { r with st := .resident, startAt := s.time })
    setBindOf k fun b => { b with st := .resident }
    whenP (r.kind == 1 && (s.gang r.gang).extents.isEmpty) (takeExtent r.gang)

/-- A warp as it goes on after its run was saved (R41, R55, R392, R394): its registers are loaded, its run counter is 0, the
time saved does not count for the watchdog, and a resolution made while it was saved takes effect. -/
def restoreWarp (w away : Nat) : Prog Unit :=
  letI := progMonad
  do
    loadWarp w
    let s ← st
    upd (.ctl w fun c =>
      { c with waitFrom := c.waitFrom.map (· + away), acq := s.seqNo, runCnt := 0, runLog := [], runOld := [] })
    match (s.warp w).ctl.pending with
    | some r => do
      applyResolution w r false
      holdForLog w
    | none => pure ()

/-- The rings a saved run needs are free (R386). -/
def ringsFree (s : State) (k : Nat) : Bool :=
  (s.blocksOfRun k).all fun b => (s.ring (savedRing b)).holder.isNone || (s.ring (s.block b).core).holder.isNone

/-- Restore a saved run on its new cores, from its save record (R380, R386). -/
def startSaved (k : Nat) : Prog Unit :=
  letI := progMonad
  do
    let s ← st
    let away := s.time - (s.runOf k).savedAt
    forAll (s.blocksOfRun k) fun b =>
      whenP ((s.ring (savedRing b)).holder == some b) (do
        upd (.ring (s.block b).core fun _ => s.ring (savedRing b))
        upd (.ring (savedRing b) fun _ => {}))
    forAll (s.blocksOfRun k) loadBlock
    forAll (s.ops.filter fun e => runOfWarp e.2.warp == k) fun e => upd (.op e.1 fun o => { o with retryFrom := o.retryFrom.map (· + away) })
    forAll (s.warpsOfRun k) fun w => restoreWarp w away
    upd (.run k fun r => { r with st := .resident, restoredAt := s.time, save := 0 })
    setBindOf k fun b => { b with st := .resident }

/-- Every gang of a record's group that has not ended has a record, reserved or resident, with its gate clear (R14, R32, R380). -/
def groupReady (s : State) (d i : Nat) : Bool :=
  let b := bindAt s d i
  let world := dieWorld s d
  let gs := groupOf (s.grid (recGrid world b.w)).hdr (recGang s world b.w)
  decide (2 ≤ b.w.kind) || gs.length == 1 || gs.all fun k => (s.gang k).ended || (groupRecs s d i).any fun r =>
    recGang s world r.2.2.w == k && !r.2.2.w.gate && (r.2.2.st == .reserved || r.2.2.st == .resident)

/-- A reserved record whose gate is clear may start now, its start time apart (R14, R25, R380). -/
def mayStart (s : State) (d i : Nat) : Bool :=
  let b := bindAt s d i
  let r := s.runOf b.run
  let g := s.grid (gridOfGang r.gang)
  let w := (s.world r.world).st
  b.valid && b.st == .reserved && !b.w.gate && groupReady s d i && r.st == .reserved && g.st == .live && (g.sat.all id)
    && (w == .running || (w == .starting && r.kind == 4))

/-- A record's start time has come, and its ring is free (R26, R380, R386). -/
def startDue (s : State) (d i : Nat) : Bool :=
  let b := bindAt s d i
  let g := s.grid (gridOfGang (s.runOf b.run).gang)
  mayStart s d i && decide (b.w.start.toNat ≤ s.time)
    && (if b.w.save ≠ 0 then ringsFree s b.run else !g.hdr.tstart || decide (g.hdr.start.toNat ≤ s.time))

/-- The records that start with one: of an allres grid, all of them (R32). -/
def startsWith (s : State) (d i : Nat) : List (Nat × Nat) :=
  let b := bindAt s d i
  if (s.grid (gridOfGang (s.runOf b.run).gang)).hdr.allres && decide (b.w.kind ≤ 1) then (groupRecs s d i).map fun r => (r.1, r.2.1)
  else [(d, i)]

/-- GANG_START (R32, R380 item 4): a gang, or a run that is restored, once the time base reads its start; of an allres grid,
all its gangs. -/
def execGangStart (die idx : Nat) (s : State) : Host.Outcome State Fault Refusal :=
  next (.get fun s =>
    let b := bindAt s die idx
    let rs := startsWith s die idx
    whenP ((b.w.kind != 2 || b.w.save != 0) && rs.all fun r => startDue s r.1 r.2) (forAll rs fun r =>
      let x := bindAt s r.1 r.2
      if x.w.save ≠ 0 then startSaved x.run else startFresh x.run)) s

/-- SHADOW_START (R163, R383): no earlier than the primary's start and the grid's time shift. -/
def execShadowStart (die idx : Nat) (s : State) : Host.Outcome State Fault Refusal :=
  next (.get fun s =>
    let b := bindAt s die idx
    let gk := (s.runOf b.run).gang
    let p := s.runOf (s.gang gk).primary
    let started := p.st != .pending && p.st != .reserved
    whenP (mayStart s die idx && b.w.kind == 2 && b.w.save == 0 && started && decide (b.w.start.toNat ≤ s.time)
        && decide (p.startAt + (s.grid (gridOfGang gk)).hdr.shift ≤ s.time)) (startFresh b.run)) s

/-! ### Clearing and evicting records (R381, R384) -/

/-- Drop a reservation: a fresh run is gone, a run to be restored is saved as before. -/
def dropReserved (world : Nat) (b : BindRec) : Prog Unit :=
  letI := progMonad
  do
    let s ← st
    if b.w.save ≠ 0 then upd (.run b.run fun r => { r with st := .saved })
    else do
      let gk := (s.runOf b.run).gang
      upd (.run b.run fun r => { r with st := .ended })
      forAll (s.blocksOfRun b.run) fun k => upd (.block k fun x => { x with retired := true })
      upd (.gang gk fun g => { g with primary := if g.primary = b.run then 0 else g.primary,
                                      shadow := if g.shadow = b.run then 0 else g.shadow,
                                      arbiter := if g.arbiter = b.run then 0 else g.arbiter,
                                      place := if b.w.kind ≤ 1 then none else g.place })
      whenP (decide (b.w.kind ≤ 1)) (upd (.grid (recGrid world b.w) fun x =>
        { x with placed := x.placed.filter (· != gangIdx gk) }))

/-- Firmware keeps a group whole (R14, R32): it does not drop the reservation of a gang while another of its group runs. -/
def clearKeeps (s : State) (d i : Nat) : Bool :=
  let b := bindAt s d i
  b.st == .reserved && decide (b.w.kind ≤ 1) && (groupRecs s d i).any fun r => r.2.2.st == .resident || r.2.2.st == .saving

/-- BIND_VALID_CLEAR (R381). -/
def execBindValidClear (die idx : Nat) (s : State) : Host.Outcome State Fault Refusal :=
  letI := progMonad
  next (do
    let s ← st
    let b := bindAt s die idx
    let world := dieWorld s die
    whenP (b.valid && !clearKeeps s die idx) (do
      upd (.die die fun d => { d with binds := d.binds.put idx {} })
      match b.st with
      | .reserved => dropReserved world b
      | .pending | .refused => whenP (b.w.save == 0 && decide (b.w.kind ≤ 1)) (upd (.grid (recGrid world b.w) fun x =>
          { x with placed := x.placed.filter (· != gangIdx (recGang s world b.w)) }))
      | _ => pure ())) s

/-- A core of a run is fenced (R379): firmware evicts it at once. -/
def onFenced (s : State) (k : Nat) : Bool :=
  let r := s.runOf k
  r.cores.any fun c => coreFenced s (r.die * 16 + c)

/-- A record of a grid is written and waits for room. -/
def recWaits (s : State) (world g : Nat) : Bool :=
  s.dies.any fun d => dieWorld s d.1 == world && d.2.binds.any fun b =>
    b.2.valid && b.2.st == .pending && recGrid world b.2.w == g && refuseWhy s b.2.w true == 0 && !recFits s b.2.w

/-- A gang of strictly higher priority than a run's, a fresh one, a saved one or an arbiter, has no room (R383, R384). -/
def outranked (s : State) (k : Nat) : Bool :=
  let r := s.runOf k
  let prio := (s.grid (gridOfGang r.gang)).hdr.prio
  s.grids.any fun e => worldOfGrid e.1 == r.world && !e.2.resident && decide (prio < e.2.hdr.prio) && e.2.st == .live
    && (((eligible s e.2 && (!(unplaced e.1 e.2).isEmpty || recWaits s r.world e.1)
              || s.runs.any fun q => gridOfGang q.2.gang == e.1 && q.2.st == .saved)
            && !placeable s [] e.1)
          || s.gangs.any fun q => gridOfGang q.1 == e.1 && q.2.mismatch.isSome && q.2.arbiter == 0 && arbiterStuck s r.world [] q.1)

/-- A run was not restored within the last 1 ms (R376 item 5). -/
def rested (s : State) (k : Nat) : Bool :=
  let r := s.runOf k
  decide (r.restoredAt = 0) || decide (r.restoredAt + 1000000 ≤ s.time)

/-- Firmware may pre-empt some runs that go together (R376 item 5, R382 to R384). -/
def evictReason (s : State) (ks : List Nat) : Bool := ks.any (onFenced s) || (ks.any (outranked s) && ks.all (rested s))

/-- Bytes of a gang's save record. -/
def runRecSize (s : State) (k : Nat) : Nat := (s.blocksOfRun k).foldl (fun n b => n + blockRecSize s b) 0

/-- Save records of runs at addresses are free: they meet neither each other nor one in use (R384). -/
def savesFree (s : State) (l : List (Nat × BitVec 64)) : Bool :=
  let span (k : Nat) (a : BitVec 64) : Nat × Nat := (a.toNat, a.toNat + runRecSize s k)
  let used := (s.runs.filter fun e => runLives e.2 && e.2.save != 0).map fun e => span e.1 e.2.save
  let mine := l.map fun e => span e.1 e.2
  let apart (a b : Nat × Nat) : Bool := decide (a.2 ≤ b.1) || decide (b.2 ≤ a.1)
  (mine.all fun a => used.all (apart a)) && mine.zipIdx.all fun a => mine.zipIdx.all fun b => a.2 == b.2 || apart a.1 b.1

/-- The records of whole groups that firmware may pre-empt, each with the address of a free save record (R384). Every gang of
the group that has not ended is resident and in the list (R14, R32). -/
def evictOk (s : State) (recs : List (Nat × Nat)) (saves : List (BitVec 64)) : Bool :=
  recs.length == saves.length && (saves.all fun a => a != 0 && a.toNat % 4096 == 0)
    && savesFree s (recs.zip saves |>.map fun p => ((bindAt s p.1.1 p.1.2).run, p.2))
    && recs.all fun p =>
      let b := bindAt s p.1 p.2
      let rs := groupRecs s p.1 p.2
      let world := dieWorld s p.1
      b.valid && b.st == .resident && b.w.kind != 4
        && (decide (2 ≤ b.w.kind) || ((rs.all fun r => r.2.2.st == .resident && recs.contains (r.1, r.2.1))
              && (groupOf (s.grid (recGrid world b.w)).hdr (recGang s world b.w)).all fun k =>
                    (s.gang k).ended || rs.any fun r => recGang s world r.2.2.w == k))
        && evictReason s (if 2 ≤ b.w.kind then [b.run] else rs.map fun r => r.2.2.run)

/-- BIND_EVICT (R384). -/
def execBindEvict (recs : List (Nat × Nat)) (saves : List (BitVec 64)) (s : State) : Host.Outcome State Fault Refusal :=
  letI := progMonad
  next (do
    let s ← st
    whenP (evictOk s recs saves) (forAll (recs.zip saves) fun p => do
      let b := bindAt s p.1.1 p.1.2
      upd (.die p.1.1 fun d =>
        { d with binds := d.binds.put p.1.2 { b with st := .saving, evict := true, w := { b.w with save := p.2 } } })
      upd (.run b.run fun r => { r with st := .saving, save := p.2 }))) s

/-- Bring a warp to its save point (R384): a run counts as ended at a marker. -/
def settleWarp (w : Nat) : Prog Unit :=
  upd (.ctl w fun c => match c.status with
    | .ready | .parked .results => { c with status := .ready, runCnt := 0, runLog := [], runOld := [] }
    | _ => c)

/-- Save a block's streams and ring: elements read ahead are read again (R384), and the ring leaves the core. -/
def settleBlock (k : Nat) : Prog Unit :=
  letI := progMonad
  do
    let s ← st
    let core := (s.block k).core
    upd (.block k fun b => { b with streams := b.streams.map fun e => (e.1, { e.2 with ahead := [] }) })
    whenP ((s.ring core).holder == some k) (do
      upd (.ring (savedRing k) fun _ => s.ring core)
      upd (.ring core fun _ => {}))

/-- The run that is being saved under a record, which firmware may have cleared meanwhile (R381). -/
def savingRun (s : State) (d i : Nat) : Nat :=
  ((s.runs.find? fun e => e.2.die == d && e.2.idx == i && e.2.st == .saving).map (·.1)).getD 0

/-- SAVE_COMPLETE (R384): every part is at its save point, the record is written, and the cores are free. -/
def execSaveComplete (die idx : Nat) (s : State) : Host.Outcome State Fault Refusal :=
  letI := progMonad
  next (do
    let s ← st
    let k := savingRun s die idx
    let drained := (s.blocksOfRun k).all fun j => (s.block j).streams.all fun t => t.2.pend.isEmpty
    whenP ((s.runOf k).st == .saving && (s.world (s.runOf k).world).st == .running && drained) (do
      forAll (s.warpsOfRun k) settleWarp
      saveRun k
      forAll (s.blocksOfRun k) settleBlock
      upd (.run k fun r => { r with st := .saved, savedAt := s.time })
      setBindOf k fun b => { b with st := .saved })) s

end Sys2Proof.Machine
end

