-- ==== Sys2Proof/Machine/Wear.lean ====
section
/-!
DEFINITION. Demerits and fences (R430, R431), and the end of a run that is found wrong (R179 to R181).
-/
namespace Sys2Proof.Machine

/-- The fence threshold that applies to a die (R358, R431). -/
def fenceThreshold (s : State) (d : Nat) : Nat :=
  let f := if dieWorld s d = 0 then 3 else field (s.world (dieWorld s d)).cfg 54 4
  if f = 0 then 3 else f

/-- Fence a core (R431): `why` 0 threshold, 1 ageing. -/
def fenceCore (core why : Nat) : Prog Unit :=
  letI := progMonad
  do
    let s ← st
    let d := core / 16
    whenP (!coreFenced s core) (do
      upd (.die d fun x => { x with fenced := setField x.fenced (core % 16) 1 1 })
      heatUpd fun h =>
        let e := h.cores.get {} core
        { h with cores := h.cores.put core { e with fenced := true, fences := min 255 (e.fences + 1) } }
      heatEvent 2 d (core % 16) (dieWorld s d) 0 (BitVec.ofNat 64 (s.dev.heat.cores.get {} core).demerits.val) (BitVec.ofNat 64 why))

/-- A core receives a demerit (R430), and is fenced at the threshold (R431). -/
def demerit (core grid : Nat) : Prog Unit :=
  letI := progMonad
  do
    let s ← st
    let d := core / 16
    let e := s.dev.heat.cores.get {} core
    let n := min 15 (e.demerits.val + 1)
    let e' : HeatCore :=
      { e with demerits := Fin.ofNat 16 n, given := min 0xFFFF (e.given + 1), lastDemerit := some s.poweredNs, since := s.poweredNs }
    heatUpd fun h => { h with cores := h.cores.put core e' }
    heatEvent 1 d (core % 16) (worldOfGrid grid) (s.grid grid).asid (BitVec.ofNat 64 n) (handleOf grid)
    whenP (decide (fenceThreshold s d ≤ n)) (fenceCore core 0)

/-- The core on which a warp of a gang runs in a run. -/
def coreInRun (s : State) (run warp : Nat) : Nat := (s.block (run * 4 + warp / 64)).core

/-- Stop a run for good and free its cores: its operations and elements not performed are dropped. -/
def stopRun (run : Nat) : Prog Unit :=
  letI := progMonad
  do
    let s ← st
    forAll (s.warpsOfRun run) stopWarp
    forAll (s.ops.filter fun e => runOfWarp e.2.warp == run) fun e => upd (.opDrop e.1)
    forAll (s.blocksOfRun run) fun k => do
      forAll (s.subs.filter fun e => e.2.blk == k) fun e => upd (.subDrop e.1)
      whenP ((s.ring (s.block k).core).holder == some k) (upd (.ring (s.block k).core fun _ => {}))
      retireBlock k
    upd (.run run fun r => { r with st := .ended })
    setBindOf run fun b => { b with st := .ended }

/-- A segment is unresolved (R180): the grid ends with REDUNDANCY_UNRESOLVED, and the three cores are logged (R430). -/
def unresolved (gk warp : Nat) (fettler : Nat) : Prog Unit :=
  letI := progMonad
  do
    let s ← st
    let g := s.gang gk
    let grid := gridOfGang gk
    let c (run : Nat) : Nat := coreInRun s run warp
    heatCount fettler 11
    heatEvent 4 (c g.primary / 16) (c g.primary % 16) (worldOfGrid grid) (s.grid grid).asid (handleOf grid)
      (BitVec.ofNat 64 (c g.primary + c g.shadow * 2 ^ 10 + c g.arbiter * 2 ^ 20))
    upd (.gang gk fun g => { g with lost := none, mismatch := none })
    endGrid grid Cause.unresolved.code

/-! ### Takeover (R181) -/

/-- Record that a segment is decided. One that holds no write has poured: its private versions go (R164). -/
def decideSeg (gk warp seg : Nat) (v : Verdict) : Prog Unit :=
  upd (.gang gk fun g =>
    let mine (h : Held) : Bool := h.warp == warp && h.seg == seg
    { g with verdicts := g.verdicts ++ [(warp, seg, v)]
             mismatch := if g.mismatch = some (warp, seg) then none else g.mismatch
             priv := if g.holds.any mine then g.priv else g.priv.filter fun h => !mine h })

/-- The private versions of a run that become held writes: those of segments not decided. -/
def adopted (g : Gang) (run : Nat) : List Held :=
  g.priv.filter fun h => h.run == run && !g.decided h.warp h.seg

/-- Hold numbers that an operation under way may need at most. -/
def opHolds : Nat := 2 ^ 24

/-- The first new hold number of what a run issued at a turn (R181): after the writes of everything it issued before, in the
order of issue: private versions, operations under way, and elements pushed. -/
def adoptFrom (s : State) (g : Gang) (run turn : Nat) : Nat :=
  let ops := s.ops.filter fun e => runOfWarp e.2.warp == run && !e.2.finished && decide (e.2.turn < turn)
  let els := (s.blocksOfRun run).flatMap fun k => (s.block k).streams.flatMap fun t => t.2.pend.filter fun p => decide (p.turn < turn)
  g.nextHold + ((adopted g run).filter fun h => decide (h.turn < turn)).length + opHolds * ops.length + els.length

/-- The held writes of the new primary, in their order. -/
def adopt (s : State) (g : Gang) (run : Nat) : List Held :=
  let l := adopted g run
  (l.zipIdx.map fun e =>
    { e.1 with hold := adoptFrom s g run e.1.turn + ((l.take e.2).filter fun h => h.turn == e.1.turn).length }).foldl
    (fun t h => insertHeld h t) []

/-- How far a warp of the new primary repeats what the old one performed: past its last early action. -/
def repeatTo (g : Gang) (warp : Nat) : Nat :=
  (g.early.filter fun e => e.warp == warp).foldl (fun n e => max n (e.issued + 1)) 0

/-- The records of the log that stay: of each warp those the new primary has taken, and those of instructions it repeats; none that
still waited for room. -/
def keepLog (s : State) (g : Gang) (run : Nat) : List LogRec × List LogRec :=
  let r := g.log.foldl (fun (acc : Tab Nat × List LogRec × List LogRec) r =>
    let n := acc.1.get 0 r.warp
    let keep := (r.ready || !r.resolves)
      && (decide (n < (s.warp (run * 256 + r.warp)).ctl.logPos) || decide (r.issued < repeatTo g r.warp))
    (acc.1.put r.warp (n + 1), if keep then acc.2.1 ++ [r] else acc.2.1, if keep then acc.2.2 else acc.2.2 ++ [r])) ([], [], [])
  (r.2.1, r.2.2)

/-- Entries that discarded records had removed from a FIFO go back in front (R181). -/
def unpop (s : State) (run idx side : Nat) (gone : List LogRec) (fifo : List (List Word)) : List (List Word) :=
  List.append ((gone.filter fun r => r.warp / 64 == idx).filterMap fun r => match r.popped with
    | some (d, e) => if d = side + 1 ∧ (s.block (run * 4 + idx)).idx = idx then some e else none
    | none => none) fifo

/-- A block of the new primary takes over what reaches the old one's block from outside: FIFO entries, and subscriptions
with their regions. -/
def moveBlock (old new idx : Nat) (gone : List LogRec) : Prog Unit :=
  letI := progMonad
  do
    let s ← st
    let a := old * 4 + idx
    let b := new * 4 + idx
    let x := s.block a
    let rs := x.regions.filter fun e => e.2.sub != 0 && e.2.active
    upd (.block b fun y => { y with
      fifos := (List.range 4).foldl (fun t d => Tab.put t d (unpop s new idx d gone (x.fifos.get [] d))) y.fifos
      regions := rs.foldl (fun t e => Tab.put t e.1 e.2) y.regions
      unset := rs.foldl (fun t e => (List.range (e.2.depth + 1)).foldl (fun t i =>
        let l := e.1 / 128 + i
        Tab.set 0 t l (Tab.get 0 t l % 2 + x.unset.get 0 l / 2 * 2)) t) y.unset })
    forAll rs fun e => spadPut b e.1 (spadBytes x e.1 (128 * (e.2.depth + 1)))
    forAll (s.subs.filter fun e => e.2.blk == a) fun e => upd (.sub e.1 fun v => { v with blk := b })

/-- A warp of the new primary goes on: it no longer waits for records that will not come, and a fault that the old primary
did not meet is posted. -/
def wakeWarp (g : Gang) (w : Nat) : Prog Unit :=
  letI := progMonad
  do
    let s ← st
    let c := (s.warp w).ctl
    upd (.ctl w fun c => { c with copyTo := repeatTo g (gangWarp w) })
    match c.status with
    | .waiting .record => upd (.ctl w fun c => { c with status := .ready, waitFrom := none })
    | .faulted =>
      whenP (c.deferred.isNone && !c.posted && !(s.nextRec w).any (sameFault c) && field c.fault.fcause 0 16 != Cause.poison.code)
        (postFault w 0)
    | _ => pure ()

/-- TAKEOVER (R181): the shadow becomes the primary and the arbiter the shadow. The segment ends that the new primary has passed
enter the log; where the old one lost a vote, the segment's writes that pour are the new one's (R179). -/
def takeover (gk : Nat) : Prog Unit :=
  letI := progMonad
  do
    let s ← st
    let g := s.gang gk
    let old := g.primary
    let new := g.shadow
    let decided (h : Held) : Bool := g.decided h.warp h.seg
    let mine := adopt s g new
    let from_ (turn : Nat) : Nat := adoptFrom s g new turn
    let log := keepLog s g new
    let ops := s.ops.filter fun e => runOfWarp e.2.warp == new && !e.2.finished
    upd (.gang gk fun g =>
      { g with primary := new, shadow := g.arbiter, arbiter := 0, holds := List.append (g.holds.filter decided) mine,
               priv := g.priv.filter fun h => h.run != new && h.run != old, log := log.1, mismatch := none, lost := none,
               backlog := (g.segs.filter fun e => e.run == new && !g.decided e.warp e.seg).map .seg,
               nextHold := from_ (s.seqNo + 1) })
    forAll ops fun e =>
      upd (.op e.1 fun o => { o with hold := from_ o.turn + ((adopted g new).filter fun h => h.turn == o.turn).length })
    forAll (s.blocksOfRun new) fun k => upd (.block k fun b => { b with streams := b.streams.map fun t =>
      (t.1, { t.2 with pend := t.2.pend.zipIdx.map fun p =>
        { p.1 with hold := from_ p.1.turn + ((t.2.pend.take p.2).filter fun q => q.turn == p.1.turn).length } }) })
    forAll (s.blocksOfRun new) fun k => moveBlock old new (s.block k).idx log.2
    upd (.run new fun r => { r with kind := 1 })
    upd (.run g.arbiter fun r => if g.arbiter = 0 then r else { r with kind := 2 })
    stopRun old
    let s ← st
    forAll (s.warpsOfRun new) (wakeWarp g)
    match g.lost with
    | some (warp, seg, true) => decideSeg gk warp seg .shadowWins
    | _ => pure ()
    whenP ((s.runOf new).st == .ended) (runEnds new)

/-- The primary acted early at or after a turn (R180). -/
def actedEarly (g : Gang) (first : Nat) : Bool := g.early.any fun e => e.run == g.primary && decide (first ≤ e.turn)

/-- The shadow has run, so that it can take over (R181). -/
def mayTakeOver (s : State) (g : Gang) : Bool :=
  let r := (s.runOf g.shadow).st
  g.shadow != 0 && (r == .resident || r == .ended || r == .saved || r == .saving)

/-- The primary has lost a vote, or counts as having lost one (R180, R181, R422): the segment is unresolved when the
primary acted early at or after the segment's first event; else the primary stops, and the shadow takes over once it
runs. -/
def primaryLoses (gk warp seg first fettler : Nat) (voted : Bool) : Prog Unit :=
  letI := progMonad
  do
    let s ← st
    let g := s.gang gk
    if actedEarly g first then unresolved gk warp fettler
    else do
      upd (.gang gk fun g => { g with lost := some (warp, seg, voted), mismatch := none })
      forAll (s.warpsOfRun g.primary) stopWarp
      whenP (mayTakeOver s g) (takeover gk)

end Sys2Proof.Machine
end

