-- ==== Sys2Proof/Machine/EvRedund.lean ====
section
/-!
DEFINITION. Events of redundant execution: the feed log (R170, R182, R342), the Fettler and its votes (R174, R178 to R181,
R428), arbiters, pours (R153, R174), and Ladle ways (R177).
-/
namespace Sys2Proof.Machine

/-! ### The feed log -/

/-- Gangs of a grid return the extents of a gang whose segments are all poured or resolved (R170). -/
def reclaim (grid : Nat) : Prog Unit :=
  letI := progMonad
  do
    let s ← st
    forAll (s.gangs.filter fun e => gridOfGang e.1 == grid && e.2.ended && !e.2.extents.isEmpty && gangSettled s e.1) fun e => do
      upd (.grid grid fun x => { x with freeExt := x.freeExt ++ e.2.extents })
      upd (.gang e.1 fun g => { g with extents := [] })

/-- A record of a warp's gang, or of the warp itself, finds no room in the extents that the gang holds. -/
def lacksExtent (s : State) (w : Nat) : Bool :=
  let g := s.gang (s.gangOfWarp w)
  match g.backlog, (s.warp w).ctl.status with
  | x :: _, _ => !g.fits x.bytes
  | [], .waiting (.extent n) => !g.fits n
  | [], _ => false

/-- FEED_EXTENT_TAKEN (R170): a gang whose records, or whose warp, wait for room takes a free extent; the records are written in
their order, and the warp goes on when its own fits. -/
def execFeedExtentTaken (w : Nat) (s : State) : Host.Outcome State Fault Refusal :=
  letI := progMonad
  next (do
    let s ← st
    let gk := s.gangOfWarp w
    whenP (s.checkedWarp w && s.isPrimary w && (s.grid (gridOfGang gk)).st == .live && residentWarp s w) (do
      drainLog gk (s.gang gk).backlog
      let s ← st
      whenP (lacksExtent s w) (do
        reclaim (gridOfGang gk)
        takeExtent gk)
      let s ← st
      match (s.warp w).ctl.status with
      | .waiting (.extent n) => do
        let ok ← logReady gk n
        whenP ok (upd (.ctl w fun c => { c with status := .ready, waitFrom := none }))
      | _ => pure ())) s

/-- Apply a logged resolution with its patches to a copy parked at the same fault, which is folded (R166, R182). -/
def applyLogged (w : Nat) (r : LogRec) : Prog Unit :=
  letI := progMonad
  do
    copySegEnd w
    foldFault w
    let ps : List (DWord × DWord) := r.data.map fun d => (BitVec.ofNat 64 (d / 2 ^ 64), BitVec.ofNat 64 (d % 2 ^ 64))
    forAll ps (applyPatch w)
    upd (.ctl w fun c => { c with logPos := c.logPos + 1 })
    match r.res with
    | some x => applyResolution w x (movesWarp ps)
    | none => pure ()

/-- FEED_RECORD_AVAILABLE (R182, R342): a copy that waits for a record goes on once it is there; one parked at a fault
applies the logged resolution, or is alone with its fault once the primary has passed the place. -/
def execFeedRecordAvailable (w : Nat) (s : State) : Host.Outcome State Fault Refusal :=
  letI := progMonad
  next (do
    let s ← st
    let c := (s.warp w).ctl
    whenP (s.isCopy w && residentWarp s w) (
      match c.status with
      | .waiting .record => match s.nextRec w with
        | some r =>
          if r.resolves && r.issued != c.issued then forceMismatch w
          else whenP r.ready (upd (.ctl w fun c => { c with status := .ready, waitFrom := none }))
        | none => pure ()
      | .faulted =>
        if c.deferred.isSome then pure ()
        else match (s.nextRec w).filter (sameFault c) with
        | some r => applyLogged w r
        | none => whenP (!s.isPrimary w) (postAlone w)
      | _ => pure ())) s

/-! ### The Fettler (R174, R178, R179, R428) -/

/-- The signature of a warp's open segment, the sum over a block's warps, and over a run's blocks (R167). The heat record's layout
(R434 to R441) has no field for them (log entry 73). -/
def warpSig (s : State) (w : Nat) : DWord := let c := (s.warp w).ctl; c.sig + c.engSig.get 0 c.seg
def blockSig (s : State) (k : Nat) : DWord := (s.warpsOfBlock k).foldl (fun n w => n + warpSig s w) 0
def gangSig (s : State) (run : Nat) : DWord := (s.blocksOfRun run).foldl (fun n k => n + blockSig s k) 0

/-- What a run's warp shows for a segment: its final signature; or, above every signature, that it cannot end the segment
because of a fault or a record that only it met (R182). -/
def shown (s : State) (run warp seg : Nat) : Option Nat :=
  let w := run * 256 + warp
  let c := (s.warp w).ctl
  match (s.gang (s.runOf run).gang).segs.find? fun e => e.run == run && e.warp == warp && e.seg == seg with
  | some e => if segBusy s w seg then none else some (e.crc + c.engSig.get 0 seg).toNat
  | none =>
    if c.seg ≠ seg then none
    else match c.status with
      | .faulted => if c.deferred.isNone && s.isCopy w && faultAlone s w && field c.fault.fcause 0 16 != Cause.translate.code
          then some (2 ^ 64 + ([c.fault.fcause, c.fault.faddr].foldl sigFold c.sig).toNat) else none
      | .waiting .record => (match s.nextRec w with
          | some r => if r.resolves && r.issued != c.issued then some (2 ^ 65 + c.issued) else none
          | none => none)
      | _ => none

/-- A segment of the primary is the next of its warp to be decided, and its end is in the log (R168, R428). -/
def comparable (g : Gang) (warp seg : Nat) : Bool :=
  let waits : LogWait → Bool
    | .seg e => e.warp == warp && e.seg == seg
    | .res .. => false
  !g.decided warp seg && (List.range seg).all (g.decided warp) && !g.backlog.any waits

/-- The turn of a segment's first event in a run: of its end when it has none, and of what is still to come when it is open
and has had none. -/
def segFirstTurn (s : State) (g : Gang) (run warp seg : Nat) : Nat :=
  match g.segs.find? fun e => e.run == run && e.warp == warp && e.seg == seg with
  | some e => if e.first = 0 then e.last else e.first
  | none => let f := (s.warp (run * 256 + warp)).ctl.segFirst; if f = 0 then s.seqNo + 1 else f

/-- A shadow or arbiter that lost a vote is stopped; the arbiter, if it did not, goes on as the shadow (R179). -/
def dropCopy (gk run : Nat) : Prog Unit :=
  letI := progMonad
  do
    let s ← st
    let g := s.gang gk
    let a := if g.shadow = run then g.arbiter else 0
    upd (.gang gk fun g => { g with shadow := if g.shadow = run then g.arbiter else g.shadow, arbiter := 0,
                                    priv := g.priv.filter fun h => h.run != run })
    whenP (a != 0) (upd (.run a fun r => { r with kind := 2 }))
    stopRun run

/-- A vote (R179): three signatures of the mismatched segment. The arbiter is level with the others: what it made again of
segments that have poured goes (log entry 73). -/
def vote (gk warp seg p h a : Nat) : Prog Unit :=
  letI := progMonad
  do
    let s ← st
    let g := s.gang gk
    let d := (s.runOf g.arbiter).die
    let grid := gridOfGang gk
    heatCount d 8
    upd (.gang gk fun g => { g with priv := g.priv.filter fun v => !g.poured v.warp v.seg })
    if p = a ∨ p = h then do
      heatCount d 10
      let loser := if p = a then g.shadow else g.arbiter
      whenP (p != a || p != h) (demerit (coreInRun s loser warp) grid)
      decideSeg gk warp seg .matched
      dropCopy gk loser
    else if h = a then do
      let first := segFirstTurn s g g.primary warp seg
      whenP (!actedEarly g first) (do
        heatCount d 10
        demerit (coreInRun s g.primary warp) grid)
      primaryLoses gk warp seg first d true
    else unresolved gk warp d

/-- FETTLER_COMPARE (R174, R428): the segment is matched, starts an arbiter, or is voted on. -/
def execFettlerCompare (gang warp seg : Nat) (s : State) : Host.Outcome State Fault Refusal :=
  letI := progMonad
  next (do
    let s ← st
    let g := s.gang gang
    let d := (s.runOf g.shadow).die
    if !g.checked || (s.grid (gridOfGang gang)).st != .live then pure ()
    else match g.lost with
    | some _ => whenP (mayTakeOver s g) (takeover gang)
    | none =>
      if !comparable g warp seg then pure ()
      else match g.mismatch, shown s g.primary warp seg, shown s g.shadow warp seg with
      | none, some p, some h => do
        if p = h then do
          heatCount d 8
          decideSeg gang warp seg .matched
        else mismatchAt gang warp seg
      | some m, some p, some h =>
        if m = (warp, seg) then
          (match (if g.arbiter = 0 then none else shown s g.arbiter warp seg) with
            | some a => vote gang warp seg p h a
            | none => pure ())
        else whenP (p == h) (do
          heatCount d 8
          decideSeg gang warp seg .matched)
      | some m, none, some h =>
        whenP (m == (warp, seg) && g.arbiter != 0) (match shown s g.arbiter warp seg with
          | some a => whenP (a == h) (vote gang warp seg (2 ^ 66) h a)
          | none => pure ())
      | _, _, _ => pure ()) s

/-- Firmware may start an arbiter with this record, in its turn (R178, R376, R383). -/
def arbiterOk (s : State) (gang : Nat) (w : BindWrite) : Bool :=
  let world := worldOfGrid (gridOfGang gang)
  let g := s.gang gang
  let used (k : Nat) : List Nat := (s.blocksOfRun k).map fun b => (s.block b).core
  g.mismatch.isSome && g.arbiter == 0 && (s.world world).st == .running && recOk s world w
    && recGang s world w == gang && w.kind == 3 && w.save == 0 && !w.gate && decide (w.start.toNat ≤ s.time)
    && slinks s w g.primary && (recCores w).all (fun c => !(used g.primary).contains c && !(used g.shadow).contains c)
    && refuseWhy s w true == 0 && recFits s w && !blockedOut s world (gridOfGang gang) && inOrder s world [w] (s.grid (gridOfGang gang))

/-- ARBITER_START (R163, R178, R383): firmware's record for an arbiter on cores that neither other run uses; the run of
the whole gang starts from gang start. -/
def execArbiterStart (gang : Nat) (w : BindWrite) (s : State) : Host.Outcome State Fault Refusal :=
  letI := progMonad
  next (do
    let s ← st
    whenP (arbiterOk s gang w) (do
      writeBind w
      reserve w.die w.idx
      let s ← st
      startFresh (bindAt s w.die w.idx).run)) s

/-! ### Pours (R174) -/

/-- Where a held write goes: its translation was made at issue, so the entry of a page that an EVICT is closing still leads
there (R410 step 2). None while the packet finds no path to its home (R427). -/
def heldLoc (who : Who) (a : DWord) : Prog (Option Loc) :=
  letI := progMonad
  do
    let r ← locate who a 1 {}
    let s ← st
    if (match ownAddr s a with | some (d, _) => unreachable s who.core d | none => false) then pure none else match r with
    | .ok l => pure (some l)
    | .error _ => match ownAddr s a with
      | none => pure none
      | some (d, off) => match (walk s d who.asid off).1 with
        | .entry w0 w1 pa level =>
          if (s.world who.world).cmds.any fun c => !c.done && c.code == 1 && c.status == 0 && c.die == d && c.leaf == pa
          then pure (some (.mem (Xl.ofEntry d who.asid off (setField w0 63 1 1) w1 pa level)))
          else pure none
        | _ => pure none

/-- The warp of a held write. -/
def Held.of (h : Held) : Nat := h.run * 256 + h.warp

/-- Who performs a held write, as its warp runs now (R131); `strong` when it is the held write's strong part. -/
def Held.writer (s : State) (h : Held) (core : Nat) (strong : Bool) : Writer :=
  { core, agent := h.agent, warp := h.of, clock := h.clock, turn := h.turn, msg := if strong then h.msg.map (·.here s) else none }

/-- Write bytes of a line at its home by a pour: every copy of the line goes, since the gang's own are no longer covered
by the version. A partial write of a line that cannot be read changes nothing (R419). -/
def pourBytes (h : Held) (who : Who) (line : DWord) (data : Tab Byte) (strong rmw : Bool) : Prog Bool :=
  letI := progMonad
  do
    let r ← heldLoc who line
    let s ← st
    let wr := h.writer s who.core strong
    match r with
    | none => pure false
    | some loc => do
      match loc with
      | .mem x =>
        whenP (lineWriteOk s x data.length) (do
          touch who.world (s.runOf h.run).die x
          upd (.l1 fun t => t.filter fun e => copyLine e.1 != x.lid)
          upd (.reps fun t => t.filter fun e => copyLine e.1 != x.lid)
          lineWrite wr rmw x data)
      | l => writeLine wr rmw h.of line l data
      pure true

/-- The bytes that REDs write in a line at its home (R126: also where a byte keeps its value). -/
def redBytes (l : Line) (ops : List (DWord × AtomOp × BitVec 128)) : Tab Byte :=
  let now := ops.foldl lineRed l
  let at_ (o : Nat) : Bool := ops.any fun e => decide (e.1.toNat % 128 ≤ o) && decide (o < e.1.toNat % 128 + atomBytes e.2.1)
  now.zipIdx.filterMap fun e => if at_ e.2 then e.1.map fun b => (e.2, b) else none

/-- Perform a held write at its home; false while it cannot be (an unmapped page, an odd version word, no path to the home). A
version word that cannot be read keeps the line as it is: the pour of it completes and changes nothing (R419). -/
def pourHeld (gk : Nat) (h : Held) : Prog Bool :=
  letI := progMonad
  do
    let s ← st
    let who : Who := { world := worldOfGrid (gridOfGang gk), asid := h.asid, core := s.coreOfWarp h.of, blk := none, issued := h.turn }
    match h.kind with
    | .bytes line data _ => pourBytes h who line data true h.rmw
    | .red line ops => do
      let r ← heldLoc who line
      let s ← st
      match r with
      | none => pure false
      | some .remote => do
        forAll ops fun e => sendFor h.of (field e.1 51 13) (.atom who.world who.asid e.1 e.2.1 e.2.2 0
          (match h.msg with | some m => m.inst.sc | none => .gg) (match h.msg with | some m => !m.rels.isEmpty | none => false))
        pure true
      | some loc =>
        let data := redBytes (lineHome s line loc) ops
        (if data.isEmpty then pure true else pourBytes h who line data true true)
    | .disc page _ => do
      let r ← heldLoc who page
      match r with
      | some (.mem x) => do
        discPage who.world (some gk) x
        pure true
      | some _ => pure true
      | none => pure false
    | .tile ver data => do
      let r ← heldLoc who ver
      let s ← st
      let v ← (match r with
        | some .remote => .bind freeLine fun l => .ret (some (lineBytes l (ver.toNat % 128) 8))
        | some loc => pure (some (lineBytes (lineHome s ver loc) (ver.toNat % 128) 8))
        | none => pure none)
      match v with
      | none => pure false
      | some bs =>
        let n := leNat (bs.getD [])
        if n % 2 = 1 then pure false
        else do
          let at_ (k : Nat) : Prog Bool :=
            pourBytes h who (lineAddr s ver) (bytesAt (ver.toNat % 128) 8 ((n + k) % 2 ^ 64)) true true
          let a ← at_ 1
          let oks ← mapAll data fun d => pourBytes h who d.1 d.2 false false
          let _ ← at_ 2
          pure (a && oks.all id)

/-- The lowest held write of a gang, when nothing below it is still to come and its segment is decided (R174); a release at .dm, or
of an engine operation, waits for the writes to other devices (R116, R158). -/
def nextPour (s : State) (gk : Nat) : Option Held :=
  let g := s.gang gk
  match g.holds with
  | [] => none
  | h :: _ =>
    let far := match h.msg with | some m => (decide (9 ≤ m.inst.sc.code) || decide (2 ^ 60 ≤ h.agent)) && !m.rels.isEmpty | none => false
    if heldBelow s gk h.hold || !g.decided h.warp h.seg
        || (far && (s.warpsOfRun h.run).any fun w => !(s.warp w).ctl.away.isEmpty) then none else some h

/-- POUR (R153, R174): the held write is performed at its home; when it is the last of its segment, the segment's private
versions go (R164). -/
def execPour (gang : Nat) (s : State) : Host.Outcome State Fault Refusal :=
  letI := progMonad
  next (do
    let s ← st
    match nextPour s gang with
    | none => pure ()
    | some h =>
      whenP ((s.grid (gridOfGang gang)).st == .live && ((pourHeld gang h).run s).1) (do
        let _ ← pourHeld gang h
        upd (.gang gang fun g =>
          let rest := g.holds.filter fun x => x != h
          let last := !(rest.any fun x => x.warp == h.warp && x.seg == h.seg)
          { g with holds := rest, priv := if last then g.priv.filter fun x => !(x.warp == h.warp && x.seg == h.seg) else g.priv }))) s

/-- LADLE_WAY_FREED (R177): the stalled write tries again. -/
def execLadleWayFreed (w : Nat) (s : State) : Host.Outcome State Fault Refusal :=
  next (.get fun s => match (s.warp w).ctl.status with
    | .waiting .ladle => whenP (residentWarp s w) (upd (.ctl w fun c => { c with status := .ready, waitFrom := none }))
    | _ => .ret ()) s

end Sys2Proof.Machine
end

