-- ==== Sys2Proof/Machine/SLevel.lean ====
section
/-!
DEFINITION. The S-level instructions (R331): key slots (R332 to R334), notifications (R335), the resolution of faults (R336
to R338, R392), TLBI (R339, R416), and ERET (R340, R393).
-/
namespace Sys2Proof.Machine

/-! ### Key slots -/

/-- The first die of a world, whose crucible speaks for all. -/
def firstDie (s : State) (world : Nat) : Nat := (s.world world).dies.headD 0

/-- A SEQEND of the slot is accepted and not finished. -/
def slotEnding (s : State) (world n : Nat) : Bool := (s.world world).seqEnds.any fun e => e.slot == n

/-- Install a slot in every crucible of a world. -/
def setSlotKey (world n : Nat) (x : Slot) : Prog Unit :=
  .get fun s => forAll (s.world world).dies fun d => upd (.die d fun v => { v with slots := v.slots.put n x })

/-- SEQOPEN (R332): which free slot is taken is a free value (log entry 7). -/
def execSeqopen (o : Seqopen) (s : State) : Host.Outcome State Fault Refusal :=
  letI := progMonad
  next (issueU (.seqopen o) o.hd fun w => do
    let s ← st
    let world := s.worldOfWarp w
    let d := firstDie s world
    let free := (List.range 4096).filter fun n => n != 0 && slotKey s d n == 0 && !slotEnding s world n
    match free with
    | [] => do
      writeS w o.d.val 0
      pure .ok
    | _ => do
      let f ← freeVal
      let n := free.getD (f.toNat % free.length) 0
      let key ← fresh
      let g := slotGen s d n
      setSlotKey world n { key := key, gen := g }
      writeS w o.d.val (BitVec.ofNat 64 (n + g.toNat * 2 ^ 12))
      pure .ok) s

/-- Bind the page at an address to a slot and generation (R333), or the cause. SEQBIND acts only on 64 KiB leaves (R399); a
range that reaches a large page raises PROTECT, whether it covers part of it or all (log entry 72). -/
def bindPage (world asid : Nat) (a : DWord) (slot gen : Nat) : Prog (Except Cause Unit) :=
  letI := progMonad
  do
    let s ← st
    match ownAddr s a with
    | none => pure (.error .protect)
    | some (d, off) =>
      if !s.latched d world then pure (.error .protect)
      else do
        let r ← xlate world d asid off
        let s ← st
        match r with
        | .error c => pure (.error c)
        | .ok x =>
          if x.level ≠ 1 then pure (.error .protect)
          else if slotKey s d slot = 0 ∨ (slotGen s d slot).toNat ≠ gen then pure (.error .keyretired)
          else do
            freshPage x (setField (setField (setField x.w1 28 16 (field x.w1 28 16 + 1)) 52 12 slot) 44 8 gen)
            dropHeld world none x
            pure (.ok ())

/-- Bind the pages of a range, one event each (R333): the cause and the page, and whether earlier pages are bound. -/
def bindPages (world asid slot gen : Nat) : Nat → DWord → Bool → Prog (Option (Cause × DWord × Bool))
  | 0, _, _ => .ret none
  | left + 1, a, some_ =>
    .bind (bindPage world asid a slot gen) fun r => match r with
      | .error c => .ret (some (c, a, some_))
      | .ok _ => bindPages world asid slot gen left (a + 65536) true

/-- SEQBIND (R333). -/
def execSeqbind (o : S2) (s : State) : Host.Outcome State Fault Refusal :=
  letI := progMonad
  next (issueU (.seqbind o) o.hd fun w => do
    let s ← st
    let a := s.sreg w o.a.val
    let b := s.sreg w o.b.val
    let count := field b 0 32
    if field b 52 12 ≠ 0 ∨ count = 0 then pure (faultOf .illop)
    else if a.toNat % 65536 ≠ 0 then pure (faultAt .align a)
    else do
      let r ← bindPages (s.worldOfWarp w) (s.asidOfWarp w) (field b 32 12) (field b 44 8) count a false
      pure (match r with
      | none => .ok
      | some (c, p, part) => .fault { cause := c, faddr := p, part := part })) s

/-- SEQEND (R334): PROTECT and KEYRETIRED name no address, so FADDR is a free value there (log entry 7). -/
def execSeqend (o : S2) (s : State) : Host.Outcome State Fault Refusal :=
  letI := progMonad
  next (issueU (.seqend o) o.hd fun w => do
    let s ← st
    let world := s.worldOfWarp w
    let a := s.sreg w o.a.val
    let stamp := s.sreg w o.b.val
    let n := field a 0 12
    let d := firstDie s world
    if field a 20 44 ≠ 0 then pure (faultOf .illop)
    else if n = 0 then do
      let f ← freeVal
      pure (faultAt .protect f)
    else if slotKey s d n = 0 ∨ slotEnding s world n ∨ (slotGen s d n).toNat ≠ field a 12 8 then do
      let f ← freeVal
      pure (faultAt .keyretired f)
    else if stamp.toNat % 8 ≠ 0 then pure (faultAt .align stamp)
    else do
      upd (.world world fun x => { x with seqEnds := x.seqEnds ++ [⟨n, BitVec.ofNat 8 (field a 12 8), stamp, s.asidOfWarp w⟩] })
      pure .ok) s

/-! ### Notifications -/

/-- Raise an MSI-X vector of a world: a message, or its pending bit while it is masked (R335, R371). -/
def raiseVector (world n : Nat) : Prog Unit :=
  .get fun s =>
    if bitAt (s.world world).msixMask n then
      upd (.world world fun x => { x with msixPend := setField x.msixPend n 1 1 })
    else send (.msix world n)

/-- HNOTE (R335). -/
def execHnote (o : Hnote) (s : State) : Host.Outcome State Fault Refusal :=
  letI := progMonad
  next (issueU (.hnote o) o.hd fun w => do
    let s ← st
    let n := match o.arg with | .reg a => (s.sreg w a.val).toNat | .imm n => n.val
    if 31 < n then pure (faultOf .illop)
    else do
      raiseVector (s.worldOfWarp w) n
      pure .ok) s

/-! ### Faulted warps -/

/-- The warp of a world that a reference names, if it is parked at a fault (R331, R392). -/
def refWarp (s : State) (world : Nat) (ref : DWord) : Option Nat :=
  (s.warps.find? fun e => s.worldOfWarp e.1 == world && e.2.ctl.parked && warpRef s e.1 == ref).map (·.1)

/-- WSTATE (R336). -/
def execWstate (o : Wstate) (s : State) : Host.Outcome State Fault Refusal :=
  letI := progMonad
  next (issueU (.wstate o) o.hd fun w => do
    let s ← st
    match refWarp s (s.worldOfWarp w) (s.sreg w o.a.val), itemOf (s.srcU w o.code).toNat with
    | some t, some i => do
      let v ← readItem t i
      writeS w o.d.val v
      pure .ok
    | _, _ => pure (faultOf .illop)) s

/-- A patch list (R337): its entries up to the end; none is a list that is too long. -/
def readPatches (w : Nat) : Nat → DWord → Prog (Except Res (Option (List (DWord × DWord))))
  | 0, a => .bind (structRead w a 16) fun r => .ret (match r with
      | .error e => .error e
      | .ok bs => if leNat (bs.take 8) = 2 ^ 64 - 1 then .ok (some []) else .ok none)
  | fuel + 1, a => .bind (structRead w a 16) fun r => match r with
      | .error e => .ret (.error e)
      | .ok bs =>
        let code := leNat (bs.take 8)
        if code = 2 ^ 64 - 1 then .ret (.ok (some []))
        else .bind (readPatches w fuel (a + 16)) fun r => .ret (match r with
          | .error e => .error e
          | .ok none => .ok none
          | .ok (some t) => .ok (some ((BitVec.ofNat 64 code, BitVec.ofNat 64 (leNat (bs.drop 8))) :: t)))

/-- WRESUME (R303, R337). Of a saved warp the resolution stays pending, and its record shows it (R392). -/
def execWresume (o : S2f) (s : State) : Host.Outcome State Fault Refusal :=
  letI := progMonad
  next (issueU (.wresume o) o.hd fun w => do
    let s ← st
    let b := s.sreg w o.b.val
    match refWarp s (s.worldOfWarp w) (s.sreg w o.a.val) with
    | none => pure (faultOf .illop)
    | some t =>
      let c := (s.warp t).ctl
      if c.pending.isSome then pure (faultOf .illop)
      else do
        let l ← (if b = 0 then pure (.ok (some [])) else readPatches w 4096 b)
        match l with
        | .error e => pure e
        | .ok none => pure (faultOf .illop)
        | .ok (some ps) => match checkPatches c (s.m0 t) ps with
          | some e => pure e
          | none =>
            let moved := movesWarp ps
            if o.flag && c.deferred.isNone && c.noLen && !moved then pure (faultOf .illop)
            else do
              let r : Resolution := if o.flag && !(moved && c.deferred.isNone) then .skip else .retry
              logResolution t r ps
              forAll ps (applyPatch t)
              if savedWarp s t then do
                upd (.ctl t fun c => { c with pending := some r })
                resaveWarp t
              else do
                resolveWarp t (decide (r = .skip)) (moved && c.deferred.isNone)
                holdForLog t
              pure .ok) s

/-- WKILL (R338). -/
def execWkill (o : S2f) (s : State) : Host.Outcome State Fault Refusal :=
  letI := progMonad
  next (issueU (.wkill o) o.hd fun w => do
    let s ← st
    let cause := (s.sreg w o.b.val).toNat
    match refWarp s (s.worldOfWarp w) (s.sreg w o.a.val) with
    | none => pure (faultOf .illop)
    | some t =>
      if cause = 0 ∨ 0x14 < cause ∨ (s.warp t).ctl.pending.isSome then pure (faultOf .illop)
      else if o.flag then do
        logResolution t .kill []
        if savedWarp s t then do
          upd (.ctl t fun c => { c with pending := some .kill })
          resaveWarp t
        else killWarp t
        pure .ok
      else do
        let g := s.gridOfWarp t
        endGrid g cause
        pure .ok) s

/-! ### TLBI -/

/-- The leaf entries that an address reaches in a context, by a walk, by the TLB, and by entries dropped from it that are still
in use: their die and addresses (R416, R417). -/
def leavesAt (world asid : Nat) (a : DWord) : Prog (Nat × List Nat) :=
  letI := progMonad
  do
    let s ← st
    match ownAddr s a with
    | none => pure (0, [])
    | some (d, off) =>
      if !s.latched d world then pure (d, [])
      else do
        let r ← walkFx world d asid off
        let walked := match r with | .entry _ _ pa _ => [pa] | _ => []
        let ents := List.append (s.die d).tlb ((s.die d).tlbOld.map (·.2))
        pure (d, List.append ((ents.filter fun e => e.hits asid off).map (·.leaf)) walked)

/-- The addresses outside the windows that an engine operation translated at its issue (R300). -/
def opAddrs (s : State) (o : Op) : List DWord :=
  let stamp (t : Option Stamp) : List DWord := (t.map Stamp.addr).toList
  let ranges (e : COp) : List DWord := List.append
    ((rangePieces e.src (collSrc e.op e.rank e.n e.count * collBytes e.ty)).map Prod.fst)
    ((rangePieces e.dst (collDst e.op e.n e.count * collBytes e.ty)).map Prod.fst)
  let all : List DWord := match o.kind with
    | .copy m c h dst st ver =>
      let els := boxElts m c h
      List.flatten [(insideElts els).map (·.addr), (writtenElts els).map (denseAddr dst), stamp st,
        if ver.isSome then [verAddr m c] else []]
    | .store m c h _ st _ =>
      List.flatten [(insideElts (boxElts m c h)).map (·.addr), stamp st, if m.aon then [verAddr m c] else []]
    | .mcast m c h _ _ st => List.append ((insideElts (boxElts m c h)).map (·.addr)) (stamp st)
    | .gath m c0 _ rows => (insideElts (rows.flatMap fun e => gathElts m c0 e.1 e.2)).map (·.addr)
    | .epi e =>
      let t := s.slot (s.coreOfWarp o.warp) e.slot
      List.flatten [(epiReads e t).map Prod.fst, (epiWrites e t).map Prod.fst, stamp e.stamp]
    | .coll c => c.stamp.addr :: ranges c
    | .mloop _ | .elem _ _ _ => []
  all.filter fun a => !inWindow a

/-- What a TLBI waits for (R339, R417): the operations not performed, the held writes, and the pushed elements, that were translated
through an entry that matches, one that it drops or one dropped since they were. -/
def throughDropped (s : State) (world : Nat) (drop : Nat → TlbEnt → Bool) : ParkCond :=
  let hit (asid turn : Nat) (a : DWord) : Bool := match ownAddr s a with
    | some (d, off) => ((s.die d).tlb.any fun e => drop d e && e.hits asid off)
        || (s.die d).tlbOld.any fun e => decide (turn < e.1) && drop d e.2 && e.2.hits asid off
    | none => false
  let ops := s.ops.filter fun e => s.worldOfWarp e.2.warp == world && !e.2.finished && !e.2.stopped && opRuns s e.1
    && (opAddrs s e.2).any (hit (s.asidOfWarp e.2.warp) e.2.turn)
  let pushed := (s.blocks.filter fun b => s.worldOfWarp (b.1 * 64) == world && placed s (b.1 * 64)).flatMap fun b =>
    b.2.streams.flatMap fun t => (t.2.pend.filter fun p => hit (s.asidOfWarp t.2.warp) p.turn p.addr).map fun p => (b.1, t.1, p.n)
  let gangs := s.gangs.filter fun g => worldOfGrid (gridOfGang g.1) == world
  .drops (ops.map Prod.fst) (gangs.flatMap fun g =>
    (g.2.holds.filter fun h => h.places.any (hit h.asid h.turn)).map fun h => (g.1, h.hold)) pushed s.seqNo
    ((s.world world).dies.flatMap fun d => ((s.die d).tlbOld.filter fun e => drop d e.2).map fun e => (d, e.1, e.2.asid, e.2.leaf))

/-- Drop the TLB entries of a world that match, and park until what went through them is performed (R339, R417). -/
def dropEntries (world : Nat) (drop : Nat → TlbEnt → Bool) : Prog Res :=
  letI := progMonad
  do
    let s ← st
    forAll (s.world world).dies fun d => dropEnts d fun e => !drop d e
    pure (.park (throughDropped s world drop))

/-- TLBI (R339). -/
def execTlbi (o : S2) (s : State) : Host.Outcome State Fault Refusal :=
  letI := progMonad
  next (issueU (.tlbi o) o.hd fun w => do
    let s ← st
    let world := s.worldOfWarp w
    let a := s.sreg w o.a.val
    match (s.sreg w o.b.val).toNat with
    | 0 => do
      let l ← leavesAt world (s.asidOfWarp w) a
      dropEntries world fun d e => d == l.1 && l.2.contains e.leaf
    | 1 => dropEntries world fun _ e => e.world == world && e.asid == field a 0 10
    | 2 => dropEntries world fun _ e => e.world == world
    | _ => pure (faultOf .illop)) s

/-! ### ERET -/

/-- Take entries retired out of order once they are next (R393). -/
def retireNext : Nat → Nat → List Nat → Nat × List Nat
  | 0, n, l => (n, l)
  | fuel + 1, n, l => if l.contains n then retireNext fuel (n + 1) (l.filter (· != n)) else (n, l)

/-- Retire an entry of the fault queue; the grid of a grid event looks at its page again (R24, R393). -/
def retireEntry (world k : Nat) : Prog Unit :=
  letI := progMonad
  do
    let s ← st
    let fq := (s.world world).fq
    let n ← devRead64 world 0 (fq + 8)
    let out := (s.world world).retiredOut ++ [k]
    let r := retireNext out.length n.toNat out
    devWrite64 world 0 (fq + 8) (BitVec.ofNat 64 r.1)
    (match (s.world world).gridEnts.find? fun e => e.1 == k with
    | some e => upd (.grid e.2 fun g => { g with held := false })
    | none => pure ())
    upd (.world world fun x => { x with retiredOut := r.2, gridEnts := Tab.drop x.gridEnts k })

/-- ERET (R340): at U level the fault is PRIV, which is judged first (R201, R331; log entry 25). -/
def execEret (o : Plain) (s : State) : Host.Outcome State Fault Refusal :=
  letI := progMonad
  next (issueU (.eret o) o.hd fun w => do
    let s ← st
    let world := s.worldOfWarp w
    let c := (s.warp w).ctl
    whenP (c.entry != 0) (retireEntry world (c.entry - 1))
    upd (.ctl w fun c => { c with entry := 0 })
    let posted ← devRead64 world 0 ((s.world world).fq)
    let s ← st
    let x := s.world world
    if x.handlers.isEmpty && decide (x.delivered < posted.toNat) then do
      upd (.world world fun x => { x with delivered := x.delivered + 1 })
      upd (.sreg w 2 (x.fq + 64 + BitVec.ofNat 64 (64 * (x.delivered % 4096))))
      upd (.ctl w fun c => { c with entry := x.delivered + 1 })
      pure .ok
    else do
      upd (.world world fun x => { x with handlers := x.handlers ++ [w] })
      pure (.waitAfter .eret)) s

end Sys2Proof.Machine
end

