-- ==== Sys2Proof/Machine/EvPaging.lean ====
section
/-!
DEFINITION. Paging: walks (R402, R403), contexts that end (R407), the paging queue and its commands (R408 to R413), delayed
notifications (R415), and the retirement of a key slot (R334).
-/
namespace Sys2Proof.Machine

/-! ### Walks and contexts -/

/-- TABLE_WALK (R403): a miss is served; its entry is cached when it is valid. -/
def execTableWalk (die world asid core off : Nat) (s : State) : Host.Outcome State Fault Refusal :=
  next (.get fun s =>
    let asks := decide (core < 1024) && s.latched (core / 16) world
    whenP (asks && s.latched die world && decide (asid < 1024) && decide (off < 2 ^ 45)
        && !((s.die die).tlb.any fun e => e.hits asid off))
      (.bind (walkP world die asid off) fun _ => .ret ())) s

/-- The owner tag word of a page (R420): context, key slot, and page number; where they lie in it is the model's (log entry 54). -/
def ownerTag (asid slot page : Nat) : DWord := BitVec.ofNat 64 (asid + slot * 2 ^ 10 + page * 2 ^ 22)

/-- End a context (R407): its grids end with the cause; with ASID 0 the world stops. `tag` is the owner tag word (R439). -/
def endContext (world asid cause : Nat) (tag : DWord) : Prog Unit :=
  letI := progMonad
  do
    let s ← st
    heatEvent 5 (firstDie s world) 0 world asid tag (BitVec.ofNat 64 cause)
    forAll ((s.grids.filter fun e => worldOfGrid e.1 == world && e.2.asid == asid && e.2.st == .live).map Prod.fst) fun g =>
      endGrid g cause
    whenP (asid == 0) (enterStopping world 2 cause)

/-- An entry of a node points to a node. -/
def pointsTo (s : State) (d pa node : Nat) : Bool :=
  match tabRead s d pa with
  | some (w0, _, _) => bitAt w0 63 && !bitAt w0 62 && 2 ^ 9 * field w0 9 27 == node
  | none => false

/-- The nodes that the pointers of a node of n entries name. -/
def childNodes (s : State) (d node n : Nat) : List Nat :=
  (List.range n).filterMap fun i => match tabRead s d (node + 16 * i) with
    | some (w0, _, _) => if bitAt w0 63 && !bitAt w0 62 then some (2 ^ 9 * field w0 9 27) else none
    | none => none

/-- The context-table entry of a context on a die. -/
def ctxEntry (s : State) (d asid : Nat) : Option DWord :=
  (tabRead s d (tabBase s d + 16 * (asid / 2))).map fun e => if asid % 2 = 0 then e.1 else e.2.1

/-- The table node that holds an address, of those that the walks of a context on a die reach, and the context table (R407). -/
def nodeIn (s : State) (d asid pa : Nat) : Option Nat :=
  let within (node size : Nat) : Option Nat := if node ≤ pa ∧ pa < node + size then some node else none
  (within (tabBase s d) 8192).orElse fun _ => match ctxEntry s d asid with
    | none => none
    | some e =>
      let root := 2 ^ 19 * field e 19 17
      if !bitAt e 63 then none
      else (within root 524288).orElse fun _ => (childNodes s d root 32768).findSome? fun c =>
        (within c 8192).orElse fun _ => (childNodes s d c 512).findSome? fun n => within n 512

/-- The walks of a context on a die reach the node that holds an address, or the context table does (R407). -/
def reachesNode (s : State) (d asid pa : Nat) : Bool := (nodeIn s d asid pa).isSome

/-- The table node of a die that holds an address; none is part of no context's tables. -/
def nodeOf (s : State) (d pa : Nat) : Option Nat := (List.range 1024).findSome? fun a => nodeIn s d a pa

/-- CONTEXT_END (R407, R420): firmware ends a context that reaches a failed node, or whose data was lost. -/
def execContextEnd (world asid : Nat) (cause : BitVec 16) (s : State) : Host.Outcome State Fault Refusal :=
  letI := progMonad
  next (do
    let s ← st
    let reaches := cause.toNat == Cause.poison.code && s.dev.failedNodes.any fun f =>
      s.latched f.1 world && reachesNode s f.1 asid f.2
    let owed := cause.toNat == Cause.integrity.code && s.dev.lost.any fun e => e.world == world && e.asid == asid && !e.ended
    whenP (decide (0 < world) && decide (asid < 1024) && (reaches || owed)) (do
      let f ← freeVal
      let tag := if owed then (s.dev.lost.find? fun e => e.world == world && e.asid == asid && !e.ended).map (·.tag) else none
      whenP owed (upd (.dev fun v =>
        { v with lost := v.lost.map fun e => if e.world = world ∧ e.asid = asid then { e with ended := true } else e }))
      endContext world asid cause.toNat (tag.getD f))) s

/-! ### Key slots (R334) -/

/-- The slot of the page that a line identity lies in. -/
def lidSlot (s : State) (lid : Nat) : Nat := field (leafWords s (lid / 2 ^ 60) (lid / 2 ^ 24 % 2 ^ 36)).2 52 12

/-- An address lies on a page of a slot in a context. -/
def inSlot (s : State) (n asid : Nat) (a : DWord) : Bool :=
  match ownAddr s a with
  | none => false
  | some (d, off) => match (walk s d asid off).1 with
    | .entry _ w1 _ _ => field w1 52 12 == n
    | _ => false

/-- A held DISC is of a page of a slot. -/
def discInSlot (s : State) (n : Nat) (h : Held) : Bool :=
  match h.kind with
  | .disc a _ => inSlot s n h.asid a
  | _ => false

/-- Zero slots of a die's crucible, read them back, and log a nonzero bit (R440, R444). -/
def zeroSlots (d : Nat) (f : Tab Slot → Tab Slot) : Prog Unit :=
  .get fun s =>
    let bad := Config.zeroFailed s.seqNo d
    .bind (upd (.die d fun v => { v with slots := f v.slots, erased := v.erased + 1, failed := bad })) fun _ =>
      whenP bad (secEvent 21 d (dieWorld s d) 2)

/-- A START under way is over, and is answered. -/
def answerStart (world : Nat) : Prog Unit :=
  .get fun s => match s.dev.starts.find? fun c => c.world == world with
    | none => .ret ()
    | some c => .bind (upd (.dev fun d => { d with starts := d.starts.filter fun e => e.world != world })) fun _ => send (.reply c.m 3 0 [])

/-- An alarm reaches a tenant world (R360, R446): its crucibles are erased; it stops, or its stop cause is recorded. A crucible
whose read-back fails in that raises an alarm of its own die (R444), which asks for no more than this one but a zone. -/
def alarmWorld (zone world : Nat) : Prog Unit :=
  letI := progMonad
  do
    let s ← st
    let x := s.world world
    whenP (x.st != .free && world != 0) (do
      forAll x.dies fun d => zeroSlots d fun _ => []
      enterStopping world 5 0
      whenP (x.st == .starting) (answerStart world)
      let t ← st
      let zones := zone :: x.dies.filter fun d => (t.die d).failed
      upd (.world world fun x =>
        { x with alarms := List.append zones (x.alarms.filter fun z => !zones.contains z),
                 stop := if x.st = .assigned ∨ x.st = .stopped then 5 else x.stop }))

/-- Retire a slot (R334 steps 1 to 3): zeroed in every crucible of the world under the next generation; its lines, held
writes and subscriptions go. A crucible whose read-back finds a nonzero bit raises a level-2 alarm (R444). -/
def retireSlot (world n : Nat) : Prog Unit :=
  letI := progMonad
  do
    let s ← st
    let dies := (s.world world).dies
    forAll dies fun d => zeroSlots d fun t => t.put n { key := 0, gen := (t.get {} n).gen + 1 }
    let tagged (lid : Nat) : Bool := dies.contains (lid / 2 ^ 60) && lidSlot s lid == n
    upd (.l1 fun t => t.filter fun e => !tagged (copyLine e.1))
    upd (.reps fun t => t.filter fun e => !tagged (copyLine e.1))
    upd (.l2 fun t => t.filter fun e => !(dies.contains (e.1 / 2 ^ 60) && e.2.slot == n))
    cutHeld world none (inSlot s n)
    forAll (s.gangs.filter fun g => worldOfGrid (gridOfGang g.1) == world && g.2.holds.any (discInSlot s n)) fun g =>
      upd (.gang g.1 fun x => { x with holds := x.holds.filter fun h => !discInSlot s n h })
    forAll (s.subs.filter fun e => e.2.world == world && lidSlot s e.2.line == n) fun e => do
      endSub e.2.blk e.2.off
      saveRegion e.2.blk e.2.off
    forAll dies fun d => .get fun s => whenP (s.die d).failed (alarmWorld d world)

/-- SEQEND_RETIRE (R334): the slot is retired, and the stamp is written once it can be. -/
def execSeqendRetire (world slot : Nat) (s : State) : Host.Outcome State Fault Refusal :=
  letI := progMonad
  next (do
    let s ← st
    match (s.world world).seqEnds.find? fun e => e.slot == slot with
    | none => pure ()
    | some e => do
      whenP (slotGen s (firstDie s world) slot == e.gen) (retireSlot world slot)
      let r ← stampAs { world, asid := e.asid, core := 2 ^ 20, blk := none } e.stamp
        (BitVec.ofNat 64 (2 ^ 63 + slot * 2 ^ 8 + e.gen.toNat))
      whenP r.isNone (upd (.world world fun x => { x with seqEnds := x.seqEnds.filter fun y => y.slot != slot }))) s

/-! ### The paging queue (R408, R409) -/

/-- A field of a 64-byte command: bits from a word. -/
def cmdField (bs : List Byte) (word lo n : Nat) : Nat := bitsAt (leNat ((bs.drop (8 * word)).take 8)) lo n

/-- A target frame is one the command accepts (R409 to R412). -/
def frameOk (s : State) (d code loc frame : Nat) : Bool :=
  loc != 3 && (if loc = 0 then decide (frame % 65536 = 0) && !inTable s d frame && !inMirror s d frame else decide (frame % 131072 = 0))
    && (match code with | 1 => loc != 0 | 2 => loc == 0 | _ => true)

/-- The state of a leaf a command needs. -/
def leafFits (code : Nat) (w0 : DWord) : Bool :=
  match code with
  | 1 => bitAt w0 63 && bitAt w0 62 && field w0 53 3 == 0
  | 2 => !bitAt w0 63 && bitAt w0 57
  | 3 => bitAt w0 63 && bitAt w0 62 && !bitAt w0 56
  | _ => bitAt w0 63 && bitAt w0 62

/-- The statuses that hold for a command whose fields are good, apart from VERSION (R409): BUSY stands alone (R413). -/
def cmdStatuses (s : State) (world d code : Nat) (r : WalkEnd) (loc frame : Nat) : List Nat :=
  match r with
  | .entry w0 _ pa level =>
    if (s.world world).cmds.any fun c => !c.done && c.die == d && c.leaf == pa then [6]
    else (if leafFits code w0 && (level == 1 || bitAt w0 63) then [] else [2])
      ++ (if level ≠ 1 ∧ bitAt w0 63 then [3] else [])
      ++ (if code ≠ 4 ∧ !frameOk s d code loc frame then [4] else [])
  | _ => 2 :: (if code ≠ 4 ∧ !frameOk s d code loc frame then [4] else [])

/-- A command with a field that breaks R409. -/
def badCmd (s : State) (world : Nat) (bs : List Byte) : Bool :=
  let code := cmdField bs 0 0 8
  let va : DWord := BitVec.ofNat 64 (cmdField bs 1 0 64)
  code == 0 || decide (4 < code) || cmdField bs 0 42 14 != 0 || cmdField bs 0 8 24 != 0 || cmdField bs 2 52 9 != 0
    || cmdField bs 2 0 16 != 0 || (bs.drop 40).any (fun b => b != 0) || field va 51 13 != 0x1FFF || va.toNat % 65536 != 0
    || !s.latched (field va 45 6) world

/-- Write word 0 of a leaf with other V, E and M bits. -/
def leafBits (w0 : DWord) (v e m : Nat) : DWord := setField (setField (setField w0 63 1 v) 57 1 e) 56 1 m

/-- The tag under which the 17 lines of an image's header and line MACs are sound: the header's MAC covers them all, and is of
one slot's key, page and version (R409; log entry 12). -/
def imageTag (s : State) (d off slot ver : Nat) : LineTag :=
  { key := slotKey s d slot, die := d, page := off / 2 ^ 16 + 2 ^ 29 * (1 + ver) }

/-- Lines of an image's header and its 512 line MACs (R409). -/
def imageLines : Nat := 17

/-- The image header at a host-tier frame is the one written for this page and version, with its line MACs (R409, R411). -/
def imageOk (s : State) (d : Nat) (off : Nat) (w0 w1 : DWord) : Bool :=
  let h := physKey (locSpace d (field w0 53 3)) (field w0 16 36 * 2 ^ 16 + 65536)
  let v := leNat (physBytes s h 8)
  ((List.range imageLines).all fun i =>
      tagOk (s.tags.get {} (lineKey h + i)) (imageTag s d off (field w1 52 12) (field w1 0 24)))
    && v == field w1 0 24 + d * 2 ^ 24 + off / 2 ^ 16 * 2 ^ 30

/-- The places, by context and offset, that held writes of the world have on the page of a leaf. -/
def leafHolds (s : State) (world d leaf : Nat) : List (Nat × Nat) :=
  (s.gangs.filter fun g => worldOfGrid (gridOfGang g.1) == world).flatMap fun g => g.2.holds.flatMap fun h => h.places.filterMap fun a =>
    match ownAddr s a with
    | some (d', off) => if d' = d then (match (walk s d h.asid off).1 with
        | .entry _ _ pa _ => if pa = leaf then some (h.asid, off) else none
        | _ => none) else none
    | none => none

/-- An access translated at a turn uses a dropped entry of a leaf. -/
def onOldLeaf (s : State) (d leaf asid turn : Nat) (a : DWord) : Bool :=
  match ownAddr s a with
  | some (d', off) => d' == d && ((oldEnt s d asid off turn).map (·.leaf) == some leaf)
  | none => false

/-- Operations and pushed elements of the world that were translated through the entry of a leaf are not performed (R410). -/
def leafBusy (s : State) (world d leaf : Nat) : Bool :=
  (s.ops.any fun e => s.worldOfWarp e.2.warp == world && !e.2.finished && !e.2.stopped && opRuns s e.1
      && (opAddrs s e.2).any (onOldLeaf s d leaf (s.asidOfWarp e.2.warp) e.2.turn))
    || s.blocks.any fun b => s.worldOfWarp (b.1 * 64) == world && placed s (b.1 * 64) && b.2.streams.any fun t =>
        t.2.pend.any fun p => onOldLeaf s d leaf (s.asidOfWarp t.2.warp) p.turn p.addr

/-- What a command does when it is taken: EVICT and MIGRATE change the entry, CLEARCNT clears; a RETURN whose image fails
ends the owner context and retires its slot (R410 to R412). -/
def cmdBegin (world d code off : Nat) (w0 w1 : DWord) (pa : Nat) : Prog Nat :=
  letI := progMonad
  do
    let s ← st
    match code with
    | 1 => do
      forAll (leafHolds s world d pa) fun h => .bind (xlate world d h.1 h.2) fun _ => .ret ()
      setLeaf d pa (leafBits w0 0 1 (field w0 56 1)) w1
      dropTlb d pa
      pure 0
    | 2 =>
      if imageOk s d off w0 w1 then pure 0
      else do
        endContext world (field w0 0 10) Cause.integrity.code (ownerTag (field w0 0 10) (field w1 52 12) (off / 2 ^ 16))
        whenP (field w1 52 12 != 0) (retireSlot world (field w1 52 12))
        secEvent 17 d world 1
        pure 5
    | 3 => do
      setLeaf d pa (setField w0 56 1 1) w1
      pure 0
    | _ => pure 1

/-- Take command k of a world's paging queue, when it is the next and has the code (an unknown code passes as any). A die runs
at most 32 migrations (R408). -/
def takeCmd (world k code : Nat) : Prog Unit :=
  letI := progMonad
  do
    let s ← st
    let pq := pagingQueue s world
    let submitted ← devRead64 world 0 pq
    let done ← devRead64 world 0 (pq + 8)
    let s ← st
    let bs := ((← devRead world 0 (pq + 0x40 + BitVec.ofNat 64 (64 * (k % 256))) 64)).getD []
    let its := cmdField bs 0 0 8
    let va : DWord := BitVec.ofNat 64 (cmdField bs 1 0 64)
    let d := field va 45 6
    let moving := (s.world world).cmds.filter fun c => c.code == 3 && c.status == 0 && c.die == d && !c.done
    whenP ((s.world world).st == .running && k == done.toNat + (s.world world).cmds.length && decide (k < submitted.toNat)
        && (its == code || its == 0 || decide (4 < its)) && (its != 3 || decide (moving.length < 32))) (do
      let asid := cmdField bs 0 32 10
      let cmd (status leaf : Nat) : PageCmd :=
        { k, code := its, status, die := d, leaf, va, asid, loc := cmdField bs 2 61 3, frame := cmdField bs 2 16 36 * 65536,
          stamp := BitVec.ofNat 64 (cmdField bs 3 0 64), value := BitVec.ofNat 64 (cmdField bs 4 0 64), done := false }
      let put (c : PageCmd) : Prog Unit := upd (.world world fun x => { x with cmds := x.cmds ++ [c] })
      if badCmd s world bs then put (cmd 7 0)
      else do
        let r ← walkFx world d asid (field va 0 45)
        let s ← st
        let bad := cmdStatuses s world d its r (cmdField bs 2 61 3) (cmdField bs 2 16 36 * 65536)
        match r, bad with
        | .entry w0 w1 pa _, [] => do
          let n ← cmdBegin world d its (field va 0 45) w0 w1 pa
          put (cmd n pa)
        | r, _ => do
          let f ← freeVal
          put (cmd (bad.getD (f.toNat % bad.length) 2) (match r with | .entry _ _ pa _ => pa | _ => 0)))

/-- EVICT (R410), RETURN (R411), MIGRATE (R412), CLEARCNT (R414): the command is taken; PAGING_COMPLETE ends it. -/
def execPageEvict (world k : Nat) (s : State) : Host.Outcome State Fault Refusal := next (takeCmd world k 1) s
def execPageReturn (world k : Nat) (s : State) : Host.Outcome State Fault Refusal := next (takeCmd world k 2) s
def execPageMigrate (world k : Nat) (s : State) : Host.Outcome State Fault Refusal := next (takeCmd world k 3) s
def execPageClearcnt (world k : Nat) (s : State) : Host.Outcome State Fault Refusal := next (takeCmd world k 4) s

/-! ### The end of a command (R409 to R414) -/

/-- Copy a page's ciphertext lines and their MACs from one frame to another; what its code words held before goes with it
(R455). -/
def copyFrame (src dst : Nat) : Prog Unit :=
  letI := progMonad
  do
    let s ← st
    let lines (f : Nat) : List (Nat × LineTag) := s.tags.filter fun e => decide (f / 128 ≤ e.1) && decide (e.1 < f / 128 + 512)
    let at_ (l : Nat) : Nat := dst / 128 + (l - src / 128)
    let codeIn (f : Nat) : List (Nat × List (Nat × Word)) := s.oldCode.filter fun e => decide (f ≤ e.1) && decide (e.1 < f + 65536)
    whenP (src != dst) (do
      forAll (lines dst) fun e => upd (.tag e.1 {})
      forAll (lines src) fun e => do
        physStore (at_ e.1 * 128) (physBytes s (e.1 * 128) 128)
        upd (.tag (at_ e.1) e.2)
      forAll (codeIn dst) fun e => upd (.oldCode e.1 [])
      forAll (codeIn src) fun e => do
        upd (.oldCode e.1 [])
        upd (.oldCode (dst + (e.1 - src)) e.2))

/-- A held write of the world lies on the page of a leaf, or an access translated through it is not performed (R410 step 2). -/
def heldOnLeaf (s : State) (world d leaf : Nat) : Bool := !(leafHolds s world d leaf).isEmpty || leafBusy s world d leaf

/-- Write the header and the line MACs of a page's image behind it (R409): the MACs are free values. -/
def writeImage (s : State) (d : Nat) (off : Nat) (w1 : DWord) (frame ver : Nat) : Prog Unit :=
  letI := progMonad
  do
    let h := frame + 65536
    let f ← mapAll (List.range 257) fun _ => freeVal
    physStore h (List.append (leBytes 8 (ver + d * 2 ^ 24 + off / 2 ^ 16 * 2 ^ 30)) (f.flatMap fun v => leBytes 8 v.toNat))
    forAll (List.range imageLines) fun i => upd (.tag (lineKey h + i) (imageTag s d off (field w1 52 12) ver))

/-- What is left of a running command: the copy, and the entry under its new frame. -/
def cmdEnd (c : PageCmd) : Prog Unit :=
  letI := progMonad
  do
    let s ← st
    let (w0, w1) := leafWords s c.die c.leaf
    let off := field c.va 0 45
    let old := physKey (locSpace c.die (field w0 53 3)) (field w0 16 36 * 2 ^ 16)
    let new := physKey (locSpace c.die c.loc) c.frame
    let moved := setField (setField w0 53 3 c.loc) 16 36 (c.frame / 65536)
    match c.code with
    | 1 => do
      let ver := (field w1 0 24 + 1) % 2 ^ 24
      copyFrame old new
      writeImage s c.die off w1 new ver
      setLeaf c.die c.leaf (leafBits moved 0 1 (field w0 56 1)) (setField w1 0 24 ver)
      dropLines c.die c.leaf
      forgetEnts c.die fun e => e.2.leaf == c.leaf
    | 2 => do
      copyFrame old new
      setLeaf c.die c.leaf (leafBits moved 1 0 (field w0 56 1)) w1
    | 3 => do
      copyFrame old new
      whenP (c.loc != 0) (writeImage s c.die off w1 new (field w1 0 24))
      pageMoved c.die c.leaf (setField moved 56 1 0) w1
      upd (.l2 fun t => t.map fun e => if lidIn c.die c.leaf e.1 then (e.1, { e.2 with phys := new + (e.2.phys - old) }) else e)
    | _ => pure ()

/-- How far `done` advances over ended commands (R408). -/
def donePrefix : List PageCmd → Nat × List PageCmd
  | [] => (0, [])
  | c :: t => if c.done then (let r := donePrefix t; (r.1 + 1, r.2)) else (0, c :: t)

/-- PAGING_COMPLETE (R409): the command ends with its status and then its stamp. -/
def execPagingComplete (world k : Nat) (s : State) : Host.Outcome State Fault Refusal :=
  letI := progMonad
  next (do
    let s ← st
    match (s.world world).cmds.find? fun c => c.k == k && !c.done with
    | none => pure ()
    | some c =>
      whenP ((s.world world).st == .running && (c.status != 0 || c.code != 1 || !heldOnLeaf s world c.die c.leaf)) (do
        whenP (c.status == 0) (cmdEnd c)
        whenP ((c.status == 0 && c.code != 2) || (c.status == 1 && c.code == 4)) (clearCount world c.die c.leaf)
        let pq := pagingQueue s world
        let status := if c.status = 0 then 1 else c.status
        let _ ← devWrite world 0 (pq + 0x40 + BitVec.ofNat 64 (64 * (k % 256) + 7)) [BitVec.ofNat 8 status]
        let _ ← stampAs { world, asid := 0, core := 2 ^ 20, blk := none } c.stamp c.value
        upd (.world world fun x => { x with cmds := x.cmds.map fun e => if e.k = k then { e with done := true } else e })
        let s ← st
        let r := donePrefix (s.world world).cmds
        let n ← devRead64 world 0 (pq + 8)
        devWrite64 world 0 (pq + 8) (n + BitVec.ofNat 64 r.1)
        upd (.world world fun x => { x with cmds := r.2 }))) s

/-- DELAYED_NOTIFICATION (R415): the page that overflowed first is notified when the ring has room. -/
def execDelayedNotification (world : Nat) (s : State) : Host.Outcome State Fault Refusal :=
  letI := progMonad
  next (do
    let s ← st
    match (s.world world).overflow with
    | [] => pure ()
    | (d, leaf) :: t => match (s.die d).tlb.find? fun e => e.leaf == leaf && e.ovfl with
      | none => upd (.world world fun w => { w with overflow := t })
      | some e => do
        let ok ← notify world d e.asid e true
        whenP ok (do
          upd (.die d fun x => { x with tlb := x.tlb.map fun y => if y.leaf = leaf then { y with queued := true, ovfl := false } else y })
          upd (.world world fun w => { w with overflow := t }))) s

end Sys2Proof.Machine
end

