-- ==== Sys2Proof/Machine/Fleet.lean ====
section
/-!
DEFINITION. What the worlds' events share: a die's registers (R357, R379, R429, R444), the scrub of a die (R357), the heat
record's bytes (R434 to R442), the crash log (R456), the stop steps (R366), and replies to commands (R368, R369).
-/
namespace Sys2Proof.Machine

/-! ### Registers of a die -/

def dlatchWorld (s : State) (d : Nat) : Nat := field (s.die d).dlatch 0 4
def dlatchValid (s : State) (d : Nat) : Bool := bitAt (s.die d).dlatch 8
def dlatchScrub (s : State) (d : Nat) : Bool := bitAt (s.die d).dlatch 9
def dlatchHold (s : State) (d : Nat) : Bool := bitAt (s.die d).dlatch 10

/-- A run occupies cores of a die. -/
def dieOccupied (s : State) (d : Nat) : Bool := s.runs.any fun e => e.2.die == d && (e.2.st == .resident || e.2.st == .saving)

/-- CORESTAT (R379). -/
def corestat (s : State) (d : Nat) : DWord :=
  let busy (n : Nat) : Bool := s.blocks.any fun b => b.2.core == d * 16 + n && !b.2.retired && holdsCores (s.runOf (runOfBlock b.1))
  BitVec.ofNat 64 ((s.die d).fenced.toNat + ((List.range 16).filter busy).foldl (fun n i => n + 2 ^ (16 + i)) 0)

/-- CRUSTAT (R444). -/
def crustat (s : State) (d : Nat) : DWord :=
  let x := s.die d
  BitVec.ofNat 64 (x.erased.toNat + (x.slots.filter fun e => e.2.key != 0).length * 2 ^ 32 + x.failed.toNat * 2 ^ 62)

/-- The bits of TBLREG, TRCFG and LADLECFG that hold values (R397, R429). -/
def tblregBits (v : DWord) : DWord := v &&& 0x0FFFFF0FFFFF0000
def trcfgBits (v : DWord) : DWord := v &&& 0xFCFFFF0FFFFF0000
def ladlecfgBits (v : DWord) : DWord := v &&& 0xF00

/-- A mirror region lies on a die that firmware may name, apart from the table region (R397). -/
def mirrorOk (mates : Nat → Bool) (d : Nat) (tblreg trcfg : DWord) : Bool :=
  let frames := field tblreg 40 20
  let base := field tblreg 16 20
  let mbase := field trcfg 16 20
  let mdie := field trcfg 58 6
  frames == 0 || (mates mdie && (mdie != d || decide (mbase + frames ≤ base) || decide (base + frames ≤ mbase)))

/-- The registers that firmware writes when dies move to a world (R368): some for each die, their mirrors on dies of that world. -/
def regsOk (ds : List Nat) (mates : Nat → Bool) (regs : List (Nat × DWord × DWord × DWord)) : Bool :=
  ds.all fun d => match regs.find? fun e => e.1 == d with
    | some (_, a, b, _) => mirrorOk mates d a b
    | none => false

/-- Write a die's three registers. -/
def setDieRegs (d : Nat) (regs : List (Nat × DWord × DWord × DWord)) : Prog Unit :=
  match regs.find? fun e => e.1 == d with
  | some (_, a, b, c) => upd (.die d fun x => { x with tblreg := tblregBits a, trcfg := trcfgBits b, ladlecfg := ladlecfgBits c })
  | none => .ret ()

/-- The scrub of a die (R357 steps 1 to 4): cores, caches, Ladle versions, runner table, crucible and TLBs are empty, no node of
its tables counts as failed, and its slot table holds no record. -/
def scrubDie (d : Nat) : Prog Unit :=
  letI := progMonad
  do
    let s ← st
    let mine := s.blocks.filter fun b => b.2.core / 16 == d
    forAll mine fun b => do
      retireBlock b.1
      upd (.ring (savedRing b.1) fun _ => {})
    forAll (List.range 16) fun n => upd (.ring (d * 16 + n) fun _ => {})
    upd (.l1 fun t => t.filter fun e => !(e.1 / 2 ^ 80 / 16 == d || copyLine e.1 / 2 ^ 60 == d))
    upd (.reps fun t => t.filter fun e => !(e.1 / 2 ^ 80 == d || copyLine e.1 / 2 ^ 60 == d))
    forAll (s.msgs.filter fun e => e.1 / 2 ^ 60 == d && !e.2.isEmpty) fun e => upd (.msgs e.1 [])
    cutHeld (field (s.die d).dlatch 0 4) none fun _ a => (match ownAddr s a with | some (k, _) => k == d | none => false)
    upd (.l2 fun t => t.filter fun e => e.1 / 2 ^ 60 != d)
    forAll (s.subs.filter fun e => e.2.die == d) fun e => upd (.subDrop e.1)
    whenP (s.dev.failedNodes.any fun f => f.1 == d) (upd (.dev fun v => { v with failedNodes := v.failedNodes.filter fun f => f.1 != d }))
    zeroSlots d fun _ => []
    let t ← st
    whenP (t.die d).failed (alarmWorld d (field (s.die d).dlatch 0 4))
    upd (.die d fun x => { x with tlb := [], tlb1 := [], tlbOld := [], binds := [] })

/-! ### The heat record as bytes (R434 to R441) -/

/-- A 64-bit word in 8 bytes, a 32-bit one in 4. -/
def b8 (n : Nat) : List Byte := leBytes 8 n
def b4 (n : Nat) : List Byte := leBytes 4 n

/-- Hours from a time to another, saturating at 0xFFFF. -/
def hoursSince (now t : Nat) : Nat := min 0xFFFF ((now - t) / 3600000000000)

/-- A core entry (R437), at a powered time. -/
def coreWord (now : Nat) (e : HeatCore) : Nat :=
  e.demerits.val + e.fenced.toNat * 2 ^ 4 + e.fences * 2 ^ 8 + e.given * 2 ^ 16 + e.sramue * 2 ^ 32
    + (match e.lastDemerit with | some t => hoursSince now t | none => 0) * 2 ^ 48

/-- An event entry as four words (R439). -/
def eventWords (e : HeatEvent) : List Nat :=
  [e.time, e.kind + (e.die + e.core * 64) * 2 ^ 16 + (e.world + e.asid * 16) * 2 ^ 32, e.a.toNat, e.b.toNat]

/-- The event ring: entry n in slot n mod 1,024. -/
def eventBytes (h : Heat) : List Byte :=
  (List.range 1024).flatMap fun i =>
    let k := (h.total + 1023 - i) % 1024
    match h.events[k]? with
    | some e => (eventWords e).flatMap b8
    | none => List.replicate 32 0

/-- The record below its signature, so long after power-on. -/
def heatBody (now : Nat) (h : Heat) : List Byte :=
  List.flatten
    [ b8 (2 ^ 56 + 0x18A00), b8 h.serial.toNat, b8 h.seq, b8 h.changed, b8 ((h.powered + now) / 1000000000),
      b8 (h.retired.length + h.quarantine.length * 2 ^ 16 + h.retFull.toNat * 2 ^ 48 + h.quaFull.toNat * 2 ^ 49),
      b8 h.total, b8 h.signed.toNat, List.replicate 192 0,
      (List.range 1024).flatMap fun i => b8 (h.counts.get 0 i),
      (List.range 1024).flatMap fun i => b8 (coreWord (h.powered + now) (h.cores.get {} i)),
      (List.range 256).flatMap fun i => b8 (h.clusters.get 0 i).toNat,
      (List.range 4096).flatMap fun i => b8 (h.retired.getD i 0).toNat,
      (List.range 4096).flatMap fun i => b4 (h.quarantine.getD i 0).toNat,
      eventBytes h ]

/-- The slices of a die with more than 64 quarantined line frames, as the record reports them (R424): by its list of them, for the
counters of R436 leave a die's entry no place of its own for it (log entry 53). -/
def crowdedSlices (h : Heat) (die : Nat) : List Nat :=
  (List.range 16).filter fun n =>
    decide (64 < (h.quarantine.filter fun e => e.toNat / 2 ^ 26 == die && e.toNat / 2 ^ 22 % 16 == n).length)

/-- The digest of the record (R441). -/
def heatDigest (now : Nat) (h : Heat) : BitVec 384 := Config.digest ((heatBody now h).map BitVec.toNat)

/-- The whole record with its signature, big-endian, while the key exists. -/
def heatBytes (now : Nat) (h : Heat) : List Byte :=
  let part (i : Nat) : List Byte := (leBytes 48 (Config.signature (heatDigest now h).toNat i).toNat).reverse
  List.append (heatBody now h)
    (if h.signed then List.append (part 0) (List.append (part 1) (List.replicate 160 0)) else List.replicate 256 0)

/-- Forty-eight bytes from an offset; zeros past the end. -/
def take48 (bs : List Byte) (off : Nat) : List Byte := (List.range 48).map fun i => bs.getD (off + i) 0

/-! ### The crash log (R456) -/

/-- The die records of a world's crash log: the registers as they stand. -/
def crashDies (s : State) (world : Nat) : List (List DWord) :=
  let n (k : Nat) : DWord := BitVec.ofNat 64 k
  (s.world world).dies.map fun d => [n 1, n d, (s.die d).dlatch, corestat s d, crustat s d, (s.die d).secalm, s.dev.tbstat, 0]

/-- The warp and event records of a world's crash log, the faulted warps in the order they faulted. -/
def crashRecords (s : State) (world : Nat) : List (List DWord) :=
  let x := s.world world
  let n (k : Nat) : DWord := BitVec.ofNat 64 k
  let warp (w : Nat) : List DWord :=
    let c := (s.warp w).ctl
    let f := c.fault
    [n 2, warpRef s w, if c.atFault then c.contPc else c.pc, if c.atFault then f.fcause else 0, f.faddr, f.flanesl, f.flanesh,
      handleOf (s.gridOfWarp w)]
  let event (e : HeatEvent) : List DWord := List.append (n 3 :: (eventWords e).map n) [0, 0, 0]
  let mine := s.warps.filter fun e => s.worldOfWarp e.1 == world
  let role0 := mine.filter fun e => s.gridOfWarp e.1 == x.resident && e.2.ctl.role == 0
  let parked := (mine.filter fun e => e.2.ctl.parked && !(s.gridOfWarp e.1 == x.resident && e.2.ctl.role == 0)).mergeSort
    (fun a b => decide (a.2.ctl.faultAt ≤ b.2.ctl.faultAt))
  let h := s.dev.heat
  let trip (e : HeatEvent) : Bool := e.kind == 11 && decide (e.a.toNat < 5) && (decide (2 < e.a.toNat) || field e.b 0 2 == 3)
  let events := ((h.events.take (h.total - x.eventsAt)).filter fun e => e.world == world || trip e).reverse
  List.flatten [(role0.map Prod.fst).map warp, (parked.map Prod.fst).map warp, events.map event]

/-- The crash log as words: header and records. Its die records are made when it is written, its others are those that stood
when the stop steps began. -/
def crashLog (s : State) (world : Nat) (others : List (List DWord)) : List DWord :=
  let x := s.world world
  let rs := List.append (crashDies s world) others
  let k := min 1023 rs.length
  let n (v : Nat) : DWord := BitVec.ofNat 64 v
  List.append
    [n (2 ^ 56 + 64 + 64 * k), n (world + x.stop.toNat * 2 ^ 8 + x.fcause.toNat * 2 ^ 16), n x.stopAt, n s.time, n k,
      n (rs.length - k), 0, 0]
    (rs.take k).flatten

/-! ### Worlds -/

/-- The resident grid's warps of role 0 have all exited (R366). -/
def roleZeroGone (s : State) (world : Nat) : Bool :=
  let ws := s.warps.filter fun e => s.worldOfWarp e.1 == world && s.gridOfWarp e.1 == (s.world world).resident && e.2.ctl.role == 0
  !ws.isEmpty && ws.all fun e => e.2.ctl.status == .exited && e.2.ctl.deferred.isNone

/-- Codes of the world states (R359). -/
def WSt.code : WSt → Nat
  | .free => 0 | .assigned => 1 | .starting => 2 | .running => 3 | .stopping => 4 | .stopped => 5

/-- WCTL and WSTAT as they read (R358, R367). -/
def wctlOf (x : World) : DWord := setField x.wctl 61 3 x.st.code
def wstatOf (x : World) : DWord := BitVec.ofNat 64 (x.stop.toNat * 2 ^ 48 + (if x.stop = 2 then x.fcause.toNat else 0) * 2 ^ 32 + x.st.code)

/-- THE STOP STEPS of R366: warps stop, grids are discarded without a completion word, held writes and keys go, the dies are
scrubbed and keep their latch, windows and vectors are withdrawn, and the crash log is written. -/
def stopSteps (world : Nat) : Prog Unit :=
  letI := progMonad
  do
    let s ← st
    let others := crashRecords s world
    forAll ((s.warps.map Prod.fst).filter fun w => s.worldOfWarp w == world) stopWarp
    forAll ((s.grids.map Prod.fst).filter fun g => worldOfGrid g == world) fun g => upd (.grid g fun x => { x with st := .complete })
    forAll ((s.gangs.map Prod.fst).filter fun g => worldOfGrid (gridOfGang g) == world) fun g =>
      upd (.gang g fun x => { x with holds := [], priv := [], mismatch := none, lost := none })
    forAll (s.ops.filter fun e => s.worldOfWarp e.2.warp == world) fun e => upd (.opDrop e.1)
    forAll (s.subs.filter fun e => e.2.world == world) fun e => upd (.subDrop e.1)
    forAll ((s.runs.filter fun e => e.2.world == world).map Prod.fst) fun r => upd (.run r fun x => { x with st := .ended })
    forAll (s.world world).dies scrubDie
    let s' ← st
    upd (.world world fun x =>
      { x with st := .stopped, crash := crashLog s' world others, hwt := 0, msixMask := 0xFFFFFFFF, tkey := 0, unposted := [], handlers := [],
               delivered := 0, retiredOut := [], gridEnts := [], seqEnds := [], cmds := [], overflow := [], groups := [],
               blocked := [] })
    whenP ((s.world world).stop == 6) (send (.msix 0 31))

/-! ### Commands (R368, R369) -/

/-- The device answers the master: it has booted, or it is in recovery, where only the Phiham port does (R454). -/
def presents (s : State) (m : Master) : Bool := s.dev.boot == .ready || (s.dev.boot == .recovery && m == .phiham)

/-- The master's commands are answered: no START is under way, for commands are performed one at a time and in order (R369). -/
def answers (s : State) (m : Master) : Bool := presents s m && s.dev.starts.isEmpty

def badWorld (w : Nat) : Bool := w == 0 || decide (15 < w)

/-- Answer a command: with OK and its effect when no status refuses it; else with the one that does, and with a free choice
among several (log entry 31). -/
def command (m : Master) (code : Nat) (bad : List Nat) (act : Prog (List Byte)) : Prog Unit :=
  letI := progMonad
  do
    let s ← st
    whenP (answers s m) (match bad with
      | [] => do
        let body ← act
        send (.reply m code 0 body)
      | [b] => send (.reply m code b [])
      | bs => do
        let f ← freeVal
        send (.reply m code (bs.getD (f.toNat % bs.length) 0) []))

/-- A status when its condition holds. -/
def statusIf (c : Bool) (n : Nat) : List Nat := if c then [n] else []

end Sys2Proof.Machine
end

