-- ==== Sys2Proof/Machine/EvWorld.lean ====
section
/-!
DEFINITION. Events of worlds and hosts: host writes and vectors (R157, R370, R371), the management commands (R364, R368,
R442, R456), stops (R366), latches and registers (R357, R397, R429), heartbeats (R447), and what a member does with
collective packets (R324, R325, R452).
-/
namespace Sys2Proof.Machine

/-! ### The host's port -/

/-- A host's relaxed write at .hs through a port: a device acquire at .hs that reads it sees every write that arrived on the
port before it (R157). -/
def hostWriter (s : State) (fn : HostFn) (size : Nat) : Writer :=
  let agent := Agent.port fn.world fn.port
  let i : Inst := ⟨.hs, fn.world⟩
  let before : View := ({} : View).upTo agent s.seqNo
  { core := 2 ^ 20, agent, warp := hostWarp, clock := [], turn := s.seqNo,
    msg := some { size, warp := hostWarp, agent, turn := s.seqNo, inst := i, rels := [⟨hostWarp, [i], before⟩], view := before } }

/-- How many of the n bytes from an offset on lie in a part of BAR0, from `lo` to below `hi`. -/
def bytesIn (lo hi off n : Nat) : Nat := min (off + n) hi - max off lo

/-- Where the mailboxes begin and end in BAR0 (R371). -/
def mbxLo : Nat := 0x10000
def mbxHi : Nat := 0x10000 + 32 * 0x2000

/-- Perform a host write to a world's mailboxes (R157, R370); elsewhere, or while the world does not run, nothing. -/
def hostStore (fn : HostFn) (off : Nat) (bytes : List Byte) : Prog Unit :=
  .get fun s =>
    let x := s.world fn.world
    let mine := (bytes.drop (mbxLo - off)).take (bytesIn mbxLo mbxHi off bytes.length)
    whenP (x.st == .running && !mine.isEmpty)
      (.bind (devWriteBy (fun s n => hostWriter s fn n) false fn.world 0 (x.mbx + BitVec.ofNat 64 (off - mbxLo)) mine)
        fun _ => .ret ())

/-- Bytes of WSTAT and HBEAT at BAR0 offsets 0x0000 and 0x0008 (R367, R447). -/
def barRegs (x : World) : List Byte :=
  List.append (b8 (wstatOf x).toNat) (b8 (x.period.toNat * 2 ^ 32 + x.beat.toNat))

/-- Free bytes: what an open part of BAR0 reads. -/
def openBytes (n : Nat) : Prog (List Byte) := .bind (mapAll (List.range n) fun _ => freeVal) fun f => .ret (f.map fun v => v.setWidth 8)

/-- What a host's read of the mailboxes returns: all ones while the world does not run. -/
def mbxRead (world off len : Nat) : Prog (List Byte) :=
  .get fun s =>
    let x := s.world world
    let ones : List Byte := List.replicate len 0xFF
    if x.st != .running ∨ len = 0 then .ret ones
    else .bind (devRead world 0 (x.mbx + BitVec.ofNat 64 (off - mbxLo)) len) fun r => .ret (r.getD ones)

/-- What a host's read of BAR0 returns (R367, R370, R371): WSTAT in every state, a secured world's HBEAT, and the mailboxes, each
byte by where it lies. What the rest of BAR0 reads is open: free values. -/
def hostRead (world off len : Nat) : Prog (List Byte) :=
  letI := progMonad
  do
    let s ← st
    let x := s.world world
    let lim := if bitAt x.wctl 59 then 16 else 8
    let gap ← openBytes (bytesIn lim mbxLo off len)
    let boxes ← mbxRead world (max off mbxLo) (bytesIn mbxLo mbxHi off len)
    let rest ← openBytes (off + len - max off mbxHi)
    pure (List.flatten [((barRegs x).drop off).take (bytesIn 0 lim off len), gap, boxes, rest])

/-- A host port shows the function of a world (R371). -/
def portShows (s : State) (fn : HostFn) : Bool :=
  let x := s.world fn.world
  x.st != .free && !badWorld fn.world && field x.wctl 53 1 == fn.port

/-- HOST_WRITE (R157, R370, R371): to a secured world's function it arrives in no selective stream, and is refused (R449). -/
def execHostWrite (fn : HostFn) (off : Nat) (bytes : List Byte) (s : State) : Host.Outcome State Fault Refusal :=
  letI := progMonad
  next (do
    let s ← st
    whenP (portShows s fn) (
      if bitAt (s.world fn.world).wctl 59 then do
        send (.host fn.world 0 false)
        secEvent 20 0 fn.world 1
      else hostStore fn off bytes)) s

/-- HOST_TLP (R371, R449): a write or a read, in a stream; a secured world takes it only in a stream bound to it. -/
def execHostTlp (fn : HostFn) (stream off : Nat) (acc : HostAcc) (s : State) : Host.Outcome State Fault Refusal :=
  letI := progMonad
  next (do
    let s ← st
    let bound := s.dev.ide.contains (fn.world, stream, fn.port)
    whenP (portShows s fn) (
      if bitAt (s.world fn.world).wctl 59 && !bound then do
        send (.host fn.world stream false)
        secEvent 20 0 fn.world 1
      else do
        send (.host fn.world stream true)
        match acc with
        | .write bytes => hostStore fn off bytes
        | .read len => do
          let bs ← hostRead fn.world off len
          send (.hostData fn.world off bs))) s

/-- MSIX_UNMASK (R371): a pending vector sends one message. -/
def execMsixUnmask (world vec : Nat) (s : State) : Host.Outcome State Fault Refusal :=
  letI := progMonad
  next (do
    let s ← st
    let x := s.world world
    whenP (x.st != .free && decide (vec < 32)) (do
      upd (.world world fun x => { x with msixMask := setField x.msixMask vec 1 0, msixPend := setField x.msixPend vec 1 0 })
      whenP (bitAt x.msixPend vec) (send (.msix world vec)))) s

/-! ### ASSIGN, RELEASE, SETCFG -/

/-- Retired frames of a die (R438). -/
def retiredOn (s : State) (d : Nat) : Nat := (s.dev.heat.retired.filter fun e => field e 58 6 == d).length

/-- A die mask spans a cut (R427): packets of one of its dies do not reach another (log entry 50). -/
def maskCut (s : State) (mask : DWord) : Bool :=
  let ds := (List.range 64).filter fun d => bitAt mask d
  !s.dev.linksDown.isEmpty && ds.any fun a => ds.any fun b => !routed s a b

/-- Move a die to another world (R357, R368): it is scrubbed, its registers are written, and its latch is valid. -/
def moveDie (d world : Nat) (regs : List (Nat × DWord × DWord × DWord)) : Prog Unit :=
  letI := progMonad
  do
    scrubDie d
    setDieRegs d regs
    upd (.die d fun x => { x with dlatch := BitVec.ofNat 64 (world + 2 ^ 8), changed := true })

/-- The statuses that refuse an ASSIGN (R368). -/
def assignBad (s : State) (m : Master) (world : Nat) (mask : BitVec 64) (port : Nat) : List Nat :=
  let taken := ((List.range 64).filter fun d => bitAt mask d).any fun d =>
    !s.latched d 0 || dieOccupied s d || decide (512 < retiredOn s d)
  List.flatten
    [ statusIf (m == .phiham) 5, statusIf (badWorld world || mask == 0 || decide (1 < port)) 3,
      statusIf (!badWorld world && (s.world world).st != .free) 1, statusIf (taken || maskCut s mask) 4 ]

/-- The statuses that refuse a RELEASE, a SETCFG, and a RESET (R359, R368). -/
def releaseBad (s : State) (m : Master) (world : Nat) : List Nat :=
  let x := s.world world
  List.flatten
    [ statusIf (m == .phiham) 5, statusIf (badWorld world) 3,
      statusIf (!badWorld world && x.st != .assigned && x.st != .stopped) 1 ]
def setcfgBad (s : State) (m : Master) (world : Nat) : List Nat :=
  List.flatten
    [ statusIf (m == .phiham) 5, statusIf (badWorld world) 3, statusIf (!badWorld world && (s.world world).st == .running) 1 ]
def resetBad (s : State) (world : Nat) : List Nat :=
  let x := s.world world
  List.flatten
    [ statusIf (badWorld world) 3, statusIf (!badWorld world && x.st == .free) 1, statusIf (!badWorld world && x.st == .stopping) 2 ]

/-- ASSIGN (R368, R431): firmware's registers put each die's mirror on a die of the world. -/
def execWorldAssign (m : Master) (world : Nat) (mask : BitVec 64) (port : Nat)
    (regs : List (Nat × BitVec 64 × BitVec 64 × BitVec 64)) (s : State) : Host.Outcome State Fault Refusal :=
  letI := progMonad
  next (do
    let s ← st
    let ds := (List.range 64).filter fun d => bitAt mask d
    let bad := assignBad s m world mask port
    whenP (!bad.isEmpty || regsOk ds ds.contains regs) (command m 1 bad (do
      forAll ds fun d => moveDie d world regs
      upd (.world world fun x => { x with st := .assigned, mask := mask, wctl := setField x.wctl 53 1 port })
      let s ← st
      let f := field (s.world world).wctl 54 4
      let thr := if f = 0 then 3 else f
      forAll ds fun d => forAll (List.range 16) fun n =>
        whenP (decide (thr ≤ (s.dev.heat.cores.get {} (d * 16 + n)).demerits.val)) (fenceCore (d * 16 + n) 0)
      pure []))) s

/-- RELEASE (R368): the zones of its alarms still bar a START of the world (R360). -/
def execWorldRelease (m : Master) (world : Nat) (regs : List (Nat × BitVec 64 × BitVec 64 × BitVec 64)) (s : State) :
    Host.Outcome State Fault Refusal :=
  letI := progMonad
  next (do
    let s ← st
    let x := s.world world
    let bad := releaseBad s m world
    whenP (!bad.isEmpty || regsOk x.dies (fun d => x.dies.contains d || s.latched d 0) regs) (command m 2 bad (do
      forAll x.dies fun d => moveDie d 0 regs
      upd (.world world fun x => { x with st := .free, mask := 0, meas := 0 })
      pure []))) s

/-- SETCFG (R358, R368): bits 60:53 and 31:0 of WCTL. -/
def execSetcfg (m : Master) (world : Nat) (hi : BitVec 8) (lo : BitVec 32) (s : State) : Host.Outcome State Fault Refusal :=
  letI := progMonad
  next (do
    let s ← st
    command m 8 (setcfgBad s m world) (do
      upd (.world world fun x => { x with wctl := BitVec.ofNat 64 (hi.toNat * 2 ^ 53 + lo.toNat) })
      pure [])) s

/-! ### START (R364) -/

/-- Every detector of a zone has read normal for 1 s (R446): dies of the zone, 64 the package. -/
def zoneNormal (s : State) (z : Nat) : Bool :=
  let calm (t : Nat) : Bool := decide (t + 1000000000 ≤ s.time)
  if z = 64 then s.dev.pkgNow == 0 && s.dev.pkgNormalAt.all fun e => calm e.2
  else field (s.die z).secalm 0 3 == 0 && (s.die z).normalAt.all fun e => calm e.2

/-- Firmware's tables and structures of a world: bytes in a table region go to it and its mirror under the world key; others
are written at their die-local offset in the resident context. -/
def placeTable (world : Nat) (p : PhysWrite) : Prog Unit :=
  letI := progMonad
  do
    let s ← st
    if inTable s p.die p.pa && inTable s p.die (p.pa + p.bytes.length - 1) then do
      let m := physKey (mirDie s p.die) (mirBase s p.die + (p.pa - tabBase s p.die))
      physStore (physKey p.die p.pa) p.bytes
      physStore m p.bytes
      forAll (List.range ((p.pa % 128 + p.bytes.length + 127) / 128)) fun i => do
        let a := p.pa / 128 * 128 + 128 * i
        upd (.tag (lineKey (physKey p.die a)) (tabTag s p.die a))
        upd (.tag (lineKey (physKey (mirDie s p.die) (mirBase s p.die + (a - tabBase s p.die)))) (tabTag s p.die a))
    else do
      let _ ← devWrite world 0 (BitVec.ofNat 64 (0x1FFF * 2 ^ 51 + p.die * 2 ^ 45 + p.pa)) p.bytes

/-- The world information block (R365). -/
def infoBlock (s : State) (world : Nat) : List Byte :=
  let x := s.world world
  List.flatten
    [ b8 (world + x.dies.length * 2 ^ 8 + (bitAt x.cfg 59).toNat * 2 ^ 16), b8 x.mask.toNat, b8 x.mbx.toNat, b8 x.fq.toNat,
      b8 x.hwt.toNat, b8 0, List.replicate 16 0 ]

/-- The extra conditions on a resident header (R364). -/
def residentHdrOk (h : Hdr) : Bool :=
  h.redund == 0 && h.allres && h.prio == 7 && h.waits.isEmpty && !h.tstart && h.compl == 0

/-- The address of the image: offset 0 of the world's lowest-numbered die. -/
def imageAddr (s : State) (world : Nat) : DWord := BitVec.ofNat 64 (0x1FFF * 2 ^ 51 + firstDie s world * 2 ^ 45)

/-- Every page that n bytes from an address reach is mapped in the resident context with a property of its entry. -/
def pagesHave (world : Nat) (a : DWord) (n : Nat) (ok : Xl → Bool) : Prog Bool :=
  letI := progMonad
  do
    let s ← st
    match ownAddr s a with
    | none => pure false
    | some (d, off) => do
      let r ← mapAll (List.range ((off + n + 65535) / 65536 - off / 65536)) fun i => do
        let r ← xlate world d 0 ((off / 65536 + i) * 65536)
        pure (match r with | .ok x => ok x | .error _ => false)
      pure (decide (off + n ≤ 2 ^ 45) && r.all id)

/-- An entry of a page that is read-only (R365), or of one under the world key, slot 0 (R364, R370, R391, R408). -/
def readOnly (x : Xl) : Bool := bitAt x.w0 60 && !bitAt x.w0 59
def underWorldKey (x : Xl) : Bool := x.slot == 0 && x.gen == 0

/-- Size of the fault queue, and from it on of both queues with the paging queue, which begins 0x41000 behind it (R391, R408). -/
def queuesSize : Nat := 0x41000 + 0x4040 + 16384

/-- The places that firmware chose for a world's structures are mapped as R364, R365, R370, R391, R395 and R408 have them: the
image, the mailboxes and both queues under the world key, the information block read-only. -/
def choiceMapped (world len : Nat) (ch : StartChoice) : Prog Bool :=
  letI := progMonad
  do
    let s ← st
    let img ← pagesHave world (imageAddr s world) len underWorldKey
    let box ← pagesHave world ch.mbx (32 * 0x2000) underWorldKey
    let qs ← pagesHave world ch.fq queuesSize underWorldKey
    let info ← pagesHave world ch.info 64 readOnly
    pure (img && box && qs && info)

/-- The mailboxes lie on the world's lowest-numbered die (R370). -/
def mbxOk (s : State) (world : Nat) (mbx : DWord) : Bool :=
  match ownAddr s mbx with
  | some (d, off) => d == firstDie s world && decide (off + 32 * 0x2000 ≤ 2 ^ 45)
  | none => false

/-- Enter STARTING, make the key, build the world's structures, and copy the image (R364 steps 1 to 4): whether the copy
succeeded; none when the places that firmware chose for the structures are not mapped as R365, R370 and R395 have them. -/
def startLoad (world : Nat) (img : BitVec 64) (len : Nat) (ch : StartChoice) : Prog (Option Bool) :=
  letI := progMonad
  do
    let key ← fresh
    let tk ← fresh
    let s ← st
    upd (.world world fun x =>
      { x with st := .starting, cfg := x.wctl, mbx := ch.mbx, fq := ch.fq, hwt := ch.hwt, info := ch.info, tkey := tk,
               eventsAt := s.dev.heat.total, alarms := [], recent := [], resident := 0 })
    setSlotKey world 0 { key := key, gen := 0 }
    forAll ch.tables (placeTable world)
    let s ← st
    let port := field (s.world world).cfg 53 1
    let bytes := physBytes s (physKey (65 + port) img.toNat) len
    let good ← choiceMapped world len ch
    let ok ← devWrite world 0 (imageAddr s world) bytes
    let ok2 ← devWrite world 0 ch.info (infoBlock s world)
    upd (.world world fun x => { x with meas := (Config.digest (bytes.map BitVec.toNat)).toNat })
    if !ok then pure (some false)
    else do
      let heads ← mapAll (List.append ((List.range 32).map fun n => ch.mbx + BitVec.ofNat 64 (0x2000 * n)) [ch.fq, ch.fq + 0x41000])
        fun a => devWrite world 0 a (List.replicate 64 0)
      pure (if ok2 && heads.all id && good && mbxOk s world ch.mbx then some true else none)

/-- The gangs of the resident grid as firmware places them (R364, R382): each once, on cores that are not fenced and have room
for them. -/
def residentPlaceOk (s : State) (world k : Nat) (place : List BindWrite) : Bool :=
  let h := (s.grid k).hdr
  let idxs := place.map fun r => gangIdx (recGang s world r)
  (List.range (h.gangs * h.chain)).all (fun i => idxs.contains i) && idxs.length == h.gangs * h.chain
    && (place.map fun r => r.die * 64 + r.idx).eraseDups.length == place.length
    && place.all fun r => recGrid world r == k && (s.world world).dies.contains r.die && decide (r.idx < 64)
        && !(bindAt s r.die r.idx).valid && r.kind == 4 && !r.gate && !r.resv && r.save == 0 && r.start == 0
        && decide (r.gx < h.gx) && decide (r.gy < h.gy) && decide (r.gz < h.gz) && decide (r.stage < h.chain)
        && decide (r.cluster < 4) && r.coremap.length == h.gsize && (r.coremap.all fun c => decide (c < 4))
        && r.coremap.eraseDups.length == h.gsize && (recCores r).all fun c =>
            !coreFenced s c && ((coreLoad s c false).add h (place.filter fun q => (recCores q).contains c).length).ok

/-- Place the resident grid (R364 step 5 on): 0 refused, 1 placed; none when firmware's placement is not one. -/
def startPlace (world hdr : Nat) (place : List BindWrite) : Prog (Option Bool) :=
  letI := progMonad
  do
    let s ← st
    let bs ← devRead world 0 (imageAddr s world + BitVec.ofNat 64 hdr) 256
    let s ← st
    let h := parseHdr (bs.getD [])
    match h, hdrStatus s world false h with
    | some h, 0 =>
      if !residentHdrOk h || !allFitSlots s h (s.world world).dies (worldRooms s world h true) then pure (some false)
      else do
        let who : Who := { world, asid := 0, core := 2 ^ 20, blk := none }
        let b ← (if h.boundTab = 0 then pure (.ok []) else readAs who h.boundTab 2048)
        match b with
        | .error _ => pure (some false)
        | .ok bytes => do
          let k ← enterGrid world 0 { h with arg := (s.world world).info } true (if h.boundTab = 0 then [] else parseBounds bytes)
          upd (.world world fun x => { x with resident := k })
          let recs := place.map fun r => { r with handle := handleOf k }
          let s ← st
          if !(residentPlaceOk s world k recs && linksOk s world recs) then pure none
          else do
            forAll recs fun r => do
              writeBind r
              reserve r.die r.idx
              let s ← st
              startFresh (bindAt s r.die r.idx).run
            upd (.grid k fun x => { x with placed := List.range (h.gangs * h.chain) })
            pure (some true)
    | _, _ => pure (some false)

/-- A START is refused (R364, R366): the world is STOPPED with stop cause 0x07. -/
def refuseStart (world : Nat) : Prog Unit := upd (.world world fun x => { x with st := .stopped, stop := 7, fcause := 0 })

/-- START up to the image (R364): none when firmware's choices are none it may make; false when the START is refused. -/
def startBegin (world : Nat) (img : BitVec 64) (len : Nat) (ch : StartChoice) : Prog (Option Bool) :=
  .bind (startLoad world img len ch) fun r => match r with
    | some false => .bind (refuseStart world) fun _ => .ret r
    | _ => .ret r

/-- The rest of START (R364): RUNNING, or STOPPED with stop cause 0x07; none when firmware's placement is not one. -/
def startEnd (world hdr : Nat) (place : List BindWrite) : Prog (Option Bool) :=
  letI := progMonad
  do
    let r ← startPlace world hdr place
    match r with
    | none => pure none
    | some false => do
      refuseStart world
      pure r
    | some true => do
      let s ← st
      upd (.world world fun x => { x with st := .running, runningAt := s.time, beatAt := 0 })
      let _ ← devWrite world 0 ((s.world world).info + 0x28) (b8 s.time)
      pure r

/-- Step 6 of the bring-up has ended (R454): the domain secret is installed, through the domain manager's session, and IDE keys
are programmed, through a host's (log entry 77). -/
def stepSixOver (s : State) : Bool := s.dev.boot == .ready && s.dev.secret.isSome && !s.dev.ide.isEmpty

/-- The statuses that refuse a START (R364, R368, R446, R454). -/
def startBad (s : State) (m : Master) (world len hdr : Nat) : List Nat :=
  let x := s.world world
  let alarm := (x.alarms.any fun z => !zoneNormal s z) || (s.dev.level3 && bitAt x.wctl 59)
  List.flatten
    [ statusIf (m == .phiham) 5,
      statusIf (badWorld world || decide (len < 256) || decide (2 ^ 30 < len) || hdr % 256 != 0 || decide (len < hdr + 256)) 3,
      statusIf (!badWorld world && ((x.st != .assigned && x.st != .stopped) || alarm || !stepSixOver s)) 1 ]

/-- Keep a START as the one under way for its world. -/
def keepStart (c : StartCmd) : Prog Unit :=
  upd (.dev fun d => { d with starts := d.starts.filter (fun e => e.world != c.world) ++ [c] })

/-- Run an attempt of firmware's when its choices are ones it may make; else nothing happens. -/
def whenChosen (p : Prog (Option Bool)) (after : Bool → Prog Unit) : Prog Unit :=
  .get fun s => match (p.run s).1 with
    | some b => .bind p fun _ => after b
    | none => .ret ()

/-- Perform a START that is next: refuse it, or begin it. -/
def performStart (c : StartCmd) (ch : StartChoice) : Prog Unit :=
  letI := progMonad
  do
    let s ← st
    let bad := startBad s c.m c.world c.len c.hdr
    let forget := upd (.dev fun d => { d with starts := d.starts.filter fun e => e.world != c.world })
    if !bad.isEmpty then do
      forget
      command c.m 3 bad (pure [])
    else whenP (presents s c.m && s.dev.starts.all (· == c)) (whenChosen (startBegin c.world c.img c.len ch) fun ok => do
      keepStart { c with begun := ok }
      whenP (!ok) (answerStart c.world))

/-- START (R364, R369, R446, R454): where structures, tables and gangs lie is firmware's choice. The command comes as two
events, between which the world is STARTING: up to the image, and from the header's check on. A START during STOPPING waits,
and is begun by its event after that. -/
def execWorldStart (m : Master) (world : Nat) (img : BitVec 64) (len hdr : Nat) (ch : StartChoice) (s : State) :
    Host.Outcome State Fault Refusal :=
  letI := progMonad
  next (do
    let s ← st
    let c : StartCmd := ⟨m, world, img, len, hdr, false⟩
    let stopping := (s.world world).st == .stopping
    match s.dev.starts.find? fun e => e.world == world with
    | none => if stopping then whenP (answers s m) (keepStart c) else performStart c ch
    | some e =>
      if e = c then whenP (!stopping) (performStart c ch)
      else whenP (e == { c with begun := true }) (whenChosen (startEnd world hdr ch.place) fun _ => answerStart world)) s

/-! ### RESET, STATUS, HEAT, CRASHLOG -/

/-- RESET (R359, R360, R366). -/
def execWorldReset (m : Master) (world : Nat) (s : State) : Host.Outcome State Fault Refusal :=
  letI := progMonad
  next (do
    let s ← st
    let x := s.world world
    command m 4 (resetBad s world) (do
      whenP (x.st == .running) (enterStopping world (if m = .host then 3 else 4) 0)
      pure [])) s

/-- STATUS (R368), code 5: WCTL and WSTAT of every world. A code that no command has is answered BADARG (R369). -/
def execWorldStatus (m : Master) (code : Nat) (s : State) : Host.Outcome State Fault Refusal :=
  next (.get fun s =>
    if code = 5 then command m 5 []
      (.ret ((List.range 16).flatMap fun w => List.append (b8 (wctlOf (s.world w)).toNat) (b8 (wstatOf (s.world w)).toNat)))
    else whenP (code == 0 || decide (8 < code)) (command m code [3] (.ret []))) s

/-- HEAT (R442): offset 0 takes the master's snapshot. -/
def execHeatRead (m : Master) (_world off : Nat) (s : State) : Host.Outcome State Fault Refusal :=
  letI := progMonad
  next (do
    let s ← st
    command m 6 [] (do
      whenP (off == 0) (upd (.dev fun d =>
        let h := { d.heat with signed := d.idKeys, powered := s.poweredNs }
        match m with
        | .host => { d with snapHost := some h }
        | .phiham => { d with snapPhiham := some h }))
      let s ← st
      let snap := match m with | .host => s.dev.snapHost | .phiham => s.dev.snapPhiham
      pure (match snap with | some h => take48 (heatBytes 0 h) off | none => List.replicate 48 0))) s

/-- CRASHLOG (R456). -/
def execCrashlogRead (m : Master) (world off : Nat) (s : State) : Host.Outcome State Fault Refusal :=
  next (.get fun s => command m 7 (statusIf (badWorld world) 3)
    (.ret (take48 ((s.world world).crash.flatMap fun d => b8 d.toNat) off))) s

/-! ### Stops -/

/-- WORLD_STOP (R366): the stop steps of a world that is STOPPING for that cause, or whose resident grid has ended. -/
def execWorldStop (world : Nat) (cause : BitVec 8) (s : State) : Host.Outcome State Fault Refusal :=
  letI := progMonad
  next (do
    let s ← st
    let x := s.world world
    let over_ := x.st == .running && cause == 1 && roleZeroGone s world
    let ended := x.st == .running && cause == 2 && (s.grid x.resident).st == .stopping
    whenP over_ (enterStopping world 1 0)
    whenP ended (enterStopping world 2 (s.grid x.resident).cause.toNat)
    whenP (over_ || ended || (x.st == .stopping && x.stop == cause)) (stopSteps world)) s

/-- HEARTBEAT_BEAT (R447): accepted in the session's stream when it is the last beat plus 1, before the deadline. -/
def execHeartbeatBeat (world : Nat) (beat : BitVec 32) (inStream : Bool) (s : State) : Host.Outcome State Fault Refusal :=
  letI := progMonad
  next (do
    let s ← st
    let x := s.world world
    let period := if x.period = 0 then 1000 else x.period.toNat
    let deadline := max x.runningAt x.beatAt + period * 1000000
    let ok := inStream && (s.dev.ide.any fun e => e.1 == world) && beat == x.beat + 1 && x.st == .running && decide (s.time < deadline)
    whenP (bitAt x.wctl 59 && x.st != .free) (
      if ok then upd (.world world fun x => { x with beat := beat, beatAt := s.time })
      else secEvent 18 0 world 1)) s

/-- HEARTBEAT_TIMEOUT (R447). -/
def execHeartbeatTimeout (world : Nat) (s : State) : Host.Outcome State Fault Refusal :=
  next (.get fun s =>
    let x := s.world world
    let period := if x.period = 0 then 1000 else x.period.toNat
    whenP (x.st == .running && bitAt x.cfg 59 && decide (max x.runningAt x.beatAt + period * 1000000 ≤ s.time))
      (enterStopping world 6 0)) s

/-! ### Latches and registers (R357, R397, R429, R447) -/

/-- DLATCH_LATCH_CHANGE (R357). -/
def execDlatchLatchChange (die world : Nat) (s : State) : Host.Outcome State Fault Refusal :=
  next (.get fun s =>
    let starts := dlatchWorld s die != world || (!dlatchValid s die && !dlatchScrub s die)
    whenP (decide (world < 16) && !dieOccupied s die && starts) (upd (.die die fun d =>
      { d with dlatch := setField (setField d.dlatch 8 1 0) 9 1 1, latchTo := world }))) s

/-- SCRUB_COMPLETE (R357). -/
def execScrubComplete (die : Nat) (s : State) : Host.Outcome State Fault Refusal :=
  letI := progMonad
  next (do
    let s ← st
    whenP (dlatchScrub s die) (do
      scrubDie die
      upd (.die die fun d =>
        { d with dlatch := setField (setField (setField d.dlatch 0 4 d.latchTo) 9 1 0) 8 1 (if bitAt d.dlatch 10 then 0 else 1),
                 changed := true }))) s

/-- Firmware has written a die's table registers as R397 has them: the mirror on a die latched to the same world, apart from the
table region. -/
def tablesSet (s : State) (die : Nat) : Bool :=
  mirrorOk (fun k => dlatchWorld s k == dlatchWorld s die) die (s.die die).tblreg (s.die die).trcfg

/-- Write hold 0 (R357): it sets valid after a latch change, once no scrub runs. Firmware does so once it has written the die's
registers (log entry 51). -/
def clearHold (die : Nat) : Prog Unit :=
  .get fun s => whenP (tablesSet s die) (upd (.die die fun d =>
    let l := setField d.dlatch 10 1 0
    { d with dlatch := if dlatchScrub s die || !d.changed then l else setField l 8 1 1 }))

/-- DLATCH_HOLD_CLEAR (R357). -/
def execDlatchHoldClear (die : Nat) (s : State) : Host.Outcome State Fault Refusal := next (clearHold die) s

/-- REGISTER_WRITE (R357, R371, R397, R429, R447): a die's registers take a write only while its latch is not valid. The host
masks a vector by its bit in the MSI-X table. -/
def execRegisterWrite (reg : RegName) (val : BitVec 64) (s : State) : Host.Outcome State Fault Refusal :=
  next (.get fun s => match reg with
    | .tblreg d => whenP (!dlatchValid s d) (upd (.die d fun x => { x with tblreg := tblregBits val }))
    | .trcfg d => whenP (!dlatchValid s d) (upd (.die d fun x => { x with trcfg := trcfgBits val }))
    | .ladlecfg d => whenP (!dlatchValid s d) (upd (.die d fun x => { x with ladlecfg := ladlecfgBits val }))
    | .dlatchHold d =>
      if bitAt val 10 then upd (.die d fun x => { x with dlatch := setField x.dlatch 10 1 1 }) else clearHold d
    | .msixMask w v => whenP ((s.world w).st != .free && decide (v < 32)) (upd (.world w fun x =>
        { x with msixMask := setField x.msixMask v 1 1 }))
    | .hbeatPeriod w => whenP ((s.world w).st != .running) (upd (.world w fun x => { x with period := val.setWidth 16 }))) s

/-! ### Collectives at a member (R324, R325, R451, R452) -/

/-- The COLLs of a group of a world under way. -/
def collOps (s : State) (world : Nat) (g : BitVec 16) : List COp :=
  (s.ops.filter (collOf? s world g)).filterMap fun e => match e.2.kind with | .coll c => some c | _ => none

/-- What becomes of a collective packet (R452): none drops it, as of an older attempt or of a world that does not run; another
finds room or not, for up to 64 KiB per group of attempts that this member has not issued. -/
def collFits (s : State) (world : Nat) (group attempt : BitVec 16) (data : List Byte) : Option Bool :=
  let g := s.group world group
  let mine (a : BitVec 16) : Bool := (collOps s world group).any fun c => c.attempt == a
  let early := (g.pkts.filter fun p => !mine p.attempt).foldl (fun n p => n + p.data.length) 0
  if (s.world world).st != .running || (g.size != 0 && olderAttempt attempt g.attempt) then none
  else some (mine attempt || decide (early + data.length ≤ 65536))

/-- A collective packet arrives (R452), and is kept where there is room for it. -/
def collArrive (world : Nat) (group attempt : BitVec 16) (rank sig : Nat) (data : List Byte) : Prog Unit :=
  letI := progMonad
  do
    let s ← st
    whenP (collFits s world group attempt data == some true) (do
      upd (.world world fun x =>
        let e := x.groups.get {} group.toNat
        let e' := { e with pkts := (e.pkts.filter fun p => !(p.attempt == attempt && p.rank == rank)) ++ [⟨attempt, rank, sig, data⟩] }
        { x with groups := x.groups.put group.toNat e' })
      forAll (collOps s world group) fun c => collAgree world c none)

/-- COLL_PACKET (R452). -/
def execCollPacket (world : Nat) (group attempt : BitVec 16) (rank sig : Nat) (data : List Byte) (s : State) :
    Host.Outcome State Fault Refusal := next (collArrive world group attempt rank sig data) s

/-- COLL_COMPLETE (R324): the source is sent if it was not, and the destination is written, then the stamp. -/
def execCollComplete (op : Nat) (s : State) : Host.Outcome State Fault Refusal :=
  next (.bind (engineRun op (collAttempt op)) fun _ => .get fun s =>
    match (s.op op).kind with
    | .coll _ => whenP ((s.op op).phase == 1) (engineRun op (collAttempt op))
    | _ => .ret ()) s

/-- COLL_TIMEOUT (R452): since it sent its own data, the COLL has waited longer than the interval for a member's. -/
def execCollTimeout (op : Nat) (s : State) : Host.Outcome State Fault Refusal :=
  next (.get fun s =>
    let o := s.op op
    let world := s.worldOfWarp o.warp
    match o.kind with
    | .coll c => whenP (opHead s op && o.phase == 1 && decide ((o.retryFrom.getD s.time) + watchdogNs s world < s.time)
        && (collData (s.group world c.group) c).isNone)
        (abortOp op ((s.group world c.group).attempt.setWidth 64) none)
    | _ => .ret ()) s

/-- An abort token arrives (R325): one of a newer attempt is accepted. Where it is the first of its group here, the record is
read for it (R451). -/
def abortArrive (world : Nat) (group attempt : BitVec 16) : Prog Unit :=
  .get fun s => whenP ((s.world world).st == .running) (.bind (groupRec world group) fun _ => .get fun s =>
    whenP (attempt != (s.group world group).attempt && !olderAttempt attempt (s.group world group).attempt)
      (acceptToken world group attempt none))

/-- ABORT_TOKEN (R325). -/
def execAbortToken (world : Nat) (group attempt : BitVec 16) (s : State) : Host.Outcome State Fault Refusal :=
  next (abortArrive world group attempt) s

/-- A CABORT of a group waits in some warp of a world, since a time. -/
def cabortSince (s : State) (world : Nat) (g : BitVec 16) : Option Nat :=
  s.warps.findSome? fun e => match e.2.ctl.status with
    | .parked (.tokens h) => if h = g ∧ s.worldOfWarp e.1 = world then some (e.2.ctl.waitFrom.getD 0) else none
    | _ => none

/-- CABORT_UNREACHABLE (R452): a member that has not answered within 10 ms. -/
def execCabortUnreachable (world : Nat) (group : BitVec 16) (rank : Nat) (s : State) : Host.Outcome State Fault Refusal :=
  next (.get fun s => match cabortSince s world group with
    | some t => whenP (decide (t + 10000000 ≤ s.time) && !(s.group world group).answered.contains rank) (upd (.world world fun x =>
        let e := x.groups.get {} group.toNat
        let e' := { e with answered := e.answered ++ [rank] }
        { x with groups := x.groups.put group.toNat e' }))
    | none => .ret ()) s

end Sys2Proof.Machine
end

