-- ==== Sys2Proof/Machine/EvRel.lean ====
section
/-!
DEFINITION. Events of reliability: cleared fences (R379, R431), errors in memory and SRAM (R418 to R422), frames taken out of
use (R423), the patrol scrub, demerit decay (R430), ageing (R432, R433), and links (R426, R427).
-/
namespace Sys2Proof.Machine

/-- CORESTAT_FENCE_CLEAR (R379, R431): the count is left as it stands. -/
def execCorestatFenceClear (die core : Nat) (s : State) : Host.Outcome State Fault Refusal :=
  letI := progMonad
  next (do
    let s ← st
    let k := die * 16 + core
    whenP (decide (die < 64) && decide (core < 16) && coreFenced s k) (do
      upd (.die die fun d => { d with fenced := setField d.fenced core 1 0 })
      let e := s.dev.heat.cores.get {} k
      heatUpd fun h => { h with cores := h.cores.put k { e with fenced := false } }
      heatEvent 3 die core (dieWorld s die) 0 (BitVec.ofNat 64 e.demerits.val) 0)) s

/-! ### Poisoned lines (R419 to R421) -/

/-- Where a line identity's line lies in memory. -/
def lidPhys (s : State) (lid : Nat) : Nat :=
  let d := lid / 2 ^ 60
  let w0 := (leafWords s d (lid / 2 ^ 24 % 2 ^ 36)).1
  physKey (locSpace d (field w0 53 3)) (field w0 16 36 * 2 ^ 16 + lid % 2 ^ 24 * 128)

/-- Poison a line of memory (R419): no cache answers for it. -/
def poisonLine (key : Nat) : Prog Unit :=
  letI := progMonad
  do
    let s ← st
    let l := lineKey key
    upd (.tag l { s.tags.get {} l with poison := true })
    upd (.l1 fun t => t.filter fun e => lidPhys s (copyLine e.1) / 128 != l)
    upd (.reps fun t => t.filter fun e => lidPhys s (copyLine e.1) / 128 != l)
    upd (.l2 fun t => t.filter fun e => e.2.phys / 128 != l)

/-- A failed line of a table region is repaired from the mirror; when that fails too, the node that holds it is posted (R407, R421). -/
def mendTable (d pa : Nat) : Prog Unit :=
  letI := progMonad
  do
    let s ← st
    let base := pa / 128 * 128
    match tabRead s d base with
    | some (_, _, true) => repairLine d base
    | some _ => pure ()
    | none => match nodeOf s d base with
      | some node => postNode d node (dieWorld s d) 0
      | none => pure ()

/-- HBM_UNCORRECTABLE (R418, R419): the line is poisoned; one of a table region is repaired from the mirror. -/
def execHbmUncorrectable (die pa : Nat) (s : State) : Host.Outcome State Fault Refusal :=
  letI := progMonad
  next (do
    let s ← st
    whenP (decide (die < 64) && decide (pa < hbmSize)) (do
      heatCount die 1
      poisonLine (physKey die pa)
      upd (.dev fun v => { v with badFrames := (v.badFrames.filter fun e => e != (die, pa / 65536)) ++ [(die, pa / 65536)] })
      whenP (inTable s die pa) (mendTable die pa))) s

/-- Enter a line frame in the heat record's quarantine list (R424, R438). -/
def quarantine (die slice set way : Nat) : Prog Unit :=
  let e : Word := BitVec.ofNat 32 (die * 2 ^ 26 + slice * 2 ^ 22 + set * 2 ^ 11 + way * 2 ^ 7)
  .bind (heatUpd fun h => { h with quarantine := (h.quarantine ++ [e]).take 4096, quaFull := decide (4095 ≤ h.quarantine.length) })
    fun _ => .get fun s => heatEvent 7 die 0 (dieWorld s die) 0 (BitVec.ofNat 64 e.toNat) 0

/-- DIRTY_LINE_ERROR (R420, R421): the line of a dirty L2 line at an address of its die's memory is lost. -/
def execDirtyLineError (die slice set way pa : Nat) (s : State) : Host.Outcome State Fault Refusal :=
  letI := progMonad
  next (do
    let s ← st
    let q : Word := BitVec.ofNat 32 (die * 2 ^ 26 + slice * 2 ^ 22 + set * 2 ^ 11 + way * 2 ^ 7)
    let ok := decide (die < 64) && decide (slice < 16) && decide (set < 2048) && decide (way < 16)
      && !s.dev.heat.quarantine.contains q
    match s.l2.find? fun e => e.1 / 2 ^ 60 == die && e.2.dirty && e.2.phys % 2 ^ 64 / 128 == pa / 128 with
    | none => pure ()
    | some e => whenP ok (
      if e.2.phys / 2 ^ 64 = die ∧ inTable s die pa then do
        poisonLine e.2.phys
        mendTable die pa
      else do
        heatCount die 4
        poisonLine e.2.phys
        quarantine die slice set way
        let tag := ownerTag e.2.asid e.2.slot e.2.page
        let x : LostPage := ⟨dieWorld s die, e.2.asid, die, e.2.page, e.2.phys / 65536 * 65536, tag, false⟩
        upd (.dev fun v => { v with lost := v.lost ++ [x] })
        send (.firmware 11 tag))) s

/-! ### SRAM (R422) -/

/-- The segments with a held write not below a hold number are decided no more: the copy that takes over makes again what is
not poured of them. -/
def undecide (gk hold : Nat) : Prog Unit :=
  .get fun s =>
    let g := s.gang gk
    let late := (g.holds.filter fun h => decide (hold ≤ h.hold)).map fun h => (h.warp, h.seg)
    let mine (h : Held) : Bool := h.run == g.shadow && late.contains (h.warp, h.seg)
    let left (w n : Nat) : Nat := (g.holds.filter fun h => h.warp == w && h.seg == n).length
    let keep (h : Held) : Bool :=
      let all := g.priv.filter fun x => x.run == h.run && x.warp == h.warp && x.seg == h.seg
      (all.drop (all.length - left h.warp h.seg)).contains h
    upd (.gang gk fun g =>
      { g with verdicts := g.verdicts.filter fun v => !late.contains (v.1, v.2.1), priv := g.priv.filter fun h => !mine h || keep h })

/-- The die whose Ladle slice holds a held write (R153, R177): its address's home. -/
def heldDie (s : State) (h : Held) : Nat :=
  let a := match h.kind with | .bytes a _ _ | .red a _ | .disc a _ | .tile a _ => a
  match ownAddr s a with | some (d, _) => d | none => (s.runOf h.run).die

/-- The first turn at which the open segments of some warps had an event; now when none had. -/
def openSince (s : State) (ws : List Nat) : Nat :=
  ((ws.map fun w => (s.warp w).ctl.segFirst).filter fun t => t != 0).foldl min s.seqNo

/-- SRAM_UNCORRECTABLE (R422): a Ladle version, or the state of a core. -/
def execSramUncorrectable (place : SramPlace) (s : State) : Host.Outcome State Fault Refusal :=
  letI := progMonad
  next (do
    let s ← st
    match place with
    | .ladle gk hold => match (s.gang gk).holds.find? fun h => h.hold == hold with
      | none => pure ()
      | some h => do
        let g := s.gang gk
        heatCount (heldDie s h) 6
        undecide gk hold
        primaryLoses gk h.warp h.seg (segFirstTurn s g g.primary h.warp h.seg) (s.runOf g.shadow).die false
    | .core run i =>
      let k := run * 4 + i
      let r := s.runOf run
      let core := (s.block k).core
      whenP ((r.st == .resident || r.st == .saving) && (s.blocks.any fun e => e.1 == k) && !(s.block k).retired) (do
        heatCount (core / 16) 6
        heatUpd fun h =>
          let e := h.cores.get {} core
          { h with cores := h.cores.put core { e with sramue := min 0xFFFF (e.sramue + 1) } }
        demerit core (gridOfGang r.gang)
        let g := s.gang r.gang
        let ws := (s.warpsOfRun run).filter fun w => blockOfWarp w == k && (s.warp w).ctl.status != .exited
        if !g.checked then endGrid (gridOfGang r.gang) Cause.integrity.code
        else if g.primary = run then
          primaryLoses r.gang (gangWarp (ws.headD (run * 256))) ((s.warp (ws.headD (run * 256))).ctl.seg) (openSince s ws) (s.runOf g.shadow).die false
        else dropCopy r.gang run)) s

/-! ### Frames (R423) -/

/-- The 64 KiB leaves of a context on a die that name a frame, given as space·2^64 + address: physical addresses of the entries. -/
def leavesOf (s : State) (d asid frame : Nat) : List Nat :=
  match ctxEntry s d asid with
  | none => []
  | some e =>
    if !bitAt e 63 then []
    else (childNodes s d (2 ^ 19 * field e 19 17) 32768).flatMap fun c =>
      (childNodes s d c 512).flatMap fun n => (List.range 32).filterMap fun i =>
        match tabRead s d (n + 16 * i) with
        | some (w0, _, _) =>
          if bitAt w0 63 && bitAt w0 62 && physKey (locSpace d (field w0 53 3)) (field w0 16 36 * 65536) == frame
          then some (n + 16 * i) else none
        | none => none

/-- Move the page of some leaves from a frame to a spare frame of the die's memory, as MIGRATE does (R412, R414). -/
def moveFrame (d old spare : Nat) (leaves : List Nat) : Prog Unit :=
  letI := progMonad
  do
    let s ← st
    let new := physKey d (spare * 65536)
    copyFrame old new
    forAll leaves fun leaf => .get fun t => do
      let (w0, w1) := leafWords t d leaf
      pageMoved d leaf (setField (setField w0 53 3 0) 16 36 spare) w1
      clearCount (dieWorld s d) d leaf
    upd (.l2 fun t => t.map fun e => if e.2.phys / 65536 = old / 65536 then (e.1, { e.2 with phys := new + (e.2.phys - old) }) else e)

/-- Clear a context's table entry on a die of the world, and drop the context from its TLB (R420 step 4). -/
def clearContext (asid d : Nat) : Prog Unit :=
  letI := progMonad
  do
    let s ← st
    let a := tabBase s d + 8 * asid
    let m := physKey (mirDie s d) (mirBase s d + 8 * asid)
    physStore (physKey d a) (List.replicate 8 0)
    physStore m (List.replicate 8 0)
    upd (.tag (lineKey (physKey d a)) (tabTag s d a))
    upd (.tag (lineKey m) (tabTag s d a))
    keepTlb d fun e => e.asid != asid

/-- Enter a frame in the list of retired frames (R438). -/
def retireFrame (die frame cause : Nat) : Prog Unit :=
  let e : DWord := BitVec.ofNat 64 (die * 2 ^ 58 + cause * 2 ^ 56 + frame * 2 ^ 16)
  .bind (heatUpd fun h => { h with retired := (h.retired ++ [e]).take 4096, retFull := decide (4095 ≤ h.retired.length) })
    fun _ => .get fun s => heatEvent 6 die 0 (dieWorld s die) 0 e 0

/-- The leaves of every context of a die that name a frame. -/
def frameLeaves (s : State) (die frame : Nat) : List Nat := ((List.range 1024).flatMap fun a => leavesOf s die a frame).eraseDups

/-- A dirty-line error lost data of a page in the frame of a number, in the die's HBM or in the host tier, and firmware has ended
the context (R420). -/
def lostIn (die frame : Nat) (e : LostPage) : Bool := e.die == die && e.frame % 2 ^ 64 == frame * 65536 && e.ended

/-- The pages whose data was lost that a retirement of a frame is for. -/
def lostOf (s : State) (die frame : Nat) (cause : BitVec 2) : List LostPage :=
  if cause = 2 then s.dev.lost.filter (lostIn die frame) else []

/-- The frame that firmware takes a page from: the die's HBM frame of the number, or the host-tier frame that held the page whose
data was lost (R420, R423). -/
def oldFrame (s : State) (die frame : Nat) (cause : BitVec 2) : Nat :=
  ((lostOf s die frame cause).head?.map (·.frame)).getD (physKey die (frame * 65536))

/-- Four corrected errors of a frame of a die lie within the last 24 hours (R423). -/
def fourCorrected (s : State) (die frame : Nat) : Bool :=
  decide (4 ≤ (s.dev.corrected.filter fun e => e.1 == die && e.2.1 == frame && decide (s.time ≤ e.2.2 + 24 * 3600000000000)).length)

/-- Firmware may take a frame out of use for a cause, its page going to a frame of the die's spare pool (R423): one that no leaf
names, outside the table and mirror regions. -/
def frameGoes (s : State) (die frame : Nat) (cause : BitVec 2) (spare : Nat) : Bool :=
  let gone (f : Nat) : Bool := s.dev.heat.retired.any fun e => field e 58 6 == die && field e 16 20 == f
  let old := oldFrame s die frame cause
  let hbm := decide (old / 2 ^ 64 < 64)
  let owed := match cause.toNat with
    | 0 => s.dev.badFrames.contains (die, frame)
    | 1 => fourCorrected s die frame
    | 2 => !(lostOf s die frame cause).isEmpty
    | _ => true
  let busy := (s.world (dieWorld s die)).cmds.any fun c =>
    !c.done && c.status == 0 && c.die == die && (frameLeaves s die old).contains c.leaf
  decide (die < 64) && (!hbm || decide (frame < hbmSize / 2 ^ 16)) && decide (spare < hbmSize / 2 ^ 16)
    && (!hbm || (frame != spare && !gone frame))
    && !gone spare && owed && !busy && !meetsTable s die (spare * 2 ^ 16) (2 ^ 16) && !meetsMirror s die (spare * 2 ^ 16) (2 ^ 16)
    && (frameLeaves s die (physKey die (spare * 65536))).isEmpty

/-- FRAME_RETIRE (R423, R420): firmware moves the frame's page to a spare frame, and enters the frame; frames are named by
bits 35:16. After a dirty-line error the owner's context goes too, once it is ended; a frame of the host tier is none of HBM's,
and no entry is made for it. -/
def execFrameRetire (die frame : Nat) (cause : BitVec 2) (spare : Nat) (s : State) : Host.Outcome State Fault Refusal :=
  letI := progMonad
  next (do
    let s ← st
    let old := oldFrame s die frame cause
    let lost := lostOf s die frame cause
    whenP (frameGoes s die frame cause spare) (do
      whenP (!(frameLeaves s die old).isEmpty) (moveFrame die old spare (frameLeaves s die old))
      forAll lost fun e => forAll (s.world e.world).dies (clearContext e.asid)
      upd (.dev fun v => { v with lost := v.lost.filter fun e => !lost.contains e })
      whenP (decide (old / 2 ^ 64 < 64)) (do
        upd (.dev fun v =>
          { v with badFrames := v.badFrames.filter fun e => e != (die, frame),
                   corrected := v.corrected.filter fun e => !(e.1 == die && e.2.1 == frame) })
        retireFrame die frame cause.toNat))) s

/-- Add to a counter of a die's entry, saturating (R436). -/
def heatAdd (die i n : Nat) (h : Heat) : Heat :=
  { h with counts := h.counts.put (die * 16 + i) (min (2 ^ 64 - 1) (h.counts.get 0 (die * 16 + i) + n)) }

/-- PATROL_SCRUB (R418): every line of a die's HBM is read once in 24 hours; in which frames it corrects errors is a free value.
What else has been corrected in the die since the last scrub, and how many clean lines were dropped, is counted here too, for it
is otherwise invisible: free values (log entry 53). -/
def execPatrolScrub (die : Nat) (s : State) : Host.Outcome State Fault Refusal :=
  letI := progMonad
  next (do
    let s ← st
    let due := match s.dev.scrubbedAt.find? fun e => e.1 == die with
      | some e => decide (e.2 + 24 * 3600000000000 ≤ s.time)
      | none => true
    whenP (decide (die < 64) && due) (do
      let found := (Config.scrubFound s.seqNo die).filter fun f => decide (f < hbmSize / 2 ^ 16)
      let day (e : Nat × Nat × Nat) : Bool := decide (s.time ≤ e.2.2 + 24 * 3600000000000)
      upd (.dev fun v =>
        { v with scrubbedAt := v.scrubbedAt.put die s.time,
                 corrected := List.append (v.corrected.filter day) (found.map fun f => (die, f, s.time)) })
      let l2c ← freeVal
      let l2u ← freeVal
      let sram ← freeVal
      heatUpd fun h => heatAdd die 5 sram.toNat (heatAdd die 3 l2u.toNat (heatAdd die 2 l2c.toNat (heatAdd die 0 found.length h))))) s

/-! ### Wear (R430 to R433) -/

/-- DEMERIT_DECAY (R430): in powered time. -/
def execDemeritDecay (die core : Nat) (s : State) : Host.Outcome State Fault Refusal :=
  next (.get fun s =>
    let k := die * 16 + core
    let e := s.dev.heat.cores.get {} k
    let e' : HeatCore := { e with demerits := Fin.ofNat 16 (e.demerits.val - 1), since := s.poweredNs }
    whenP (decide (die < 64) && decide (core < 16) && decide (0 < e.demerits.val) && decide (e.since + 24 * 3600000000000 ≤ s.poweredNs))
      (heatUpd fun h => { h with cores := h.cores.put k e' })) s

/-- The clock ceiling that a drift allows (R433): none when it would fall below 15. -/
def ceilOf (drift : Nat) : Option Nat := if 20 < drift / 150 + 15 then none else some (20 - drift / 150)

/-- AGEING_MEASURE (R432, R433). -/
def execAgeingMeasure (cluster : Nat) (count : BitVec 16) (s : State) : Host.Outcome State Fault Refusal :=
  letI := progMonad
  next (do
    let s ← st
    let old := s.dev.agemon.get 0x1400000000 cluster
    let birth := field old 0 16
    let drift := if birth ≤ count.toNat then 0 else (birth - count.toNat) * 10000 / birth
    let now := field old 32 8
    let ceil := min now ((ceilOf drift).getD 15)
    let v : DWord := BitVec.ofNat 64 (drift * 2 ^ 48 + ceil * 2 ^ 32 + count.toNat * 2 ^ 16 + birth)
    let due := match s.dev.agedAt.find? fun e => e.1 == cluster with
      | some e => decide (e.2 + 600000000000 ≤ s.time)
      | none => true
    whenP (decide (cluster < 256) && due) (do
      upd (.dev fun d => { d with agemon := d.agemon.put cluster v, agedAt := d.agedAt.put cluster s.time })
      heatUpd fun h => { h with clusters := h.clusters.put cluster v }
      whenP (decide (ceil < now)) (heatEvent 8 (cluster / 4) 0 (dieWorld s (cluster / 4)) 0 v 0)
      whenP (ceilOf drift).isNone (forAll (List.range 4) fun i => fenceCore (cluster * 4 + i) 1))) s

/-! ### Links (R426, R427) -/

/-- The die in whose entry a link's replays are counted. -/
def linkDie : LinkName → Nat
  | .boundary row ring pos _ => if row then 8 * ring + pos else 8 * pos + ring
  | .neighbour c _ => c / 4
  | .port n => n % 64

/-- Replays of a link: of its last flit, and the times of those within a second. -/
def replaysOf (s : State) (l : LinkName) : Nat × List Nat := ((s.dev.replays.find? fun e => e.1 == l).map (·.2)).getD (0, [])

/-- Times within the last second. -/
def lastSecond (s : State) (l : List Nat) : List Nat := l.filter fun t => decide (s.time < t + 1000000000)

/-- A link has failed eight replays of one flit, or 1,000 replays in one second (R427). -/
def linkFails (s : State) (l : LinkName) : Bool :=
  decide (8 ≤ (replaysOf s l).1) || decide (1000 ≤ (lastSecond s (replaysOf s l).2).length)

/-- FLIT_REPLAY (R427): a flit is sent again, in order; the replay is counted. Whether it is the flit replayed last is a free
value (log entry 50). -/
def execFlitReplay (link : LinkName) (s : State) : Host.Outcome State Fault Refusal :=
  letI := progMonad
  next (do
    let s ← st
    whenP (!s.dev.linksDown.contains link) (do
      heatCount (linkDie link) 13
      let f ← freeVal
      let r := replaysOf s link
      let n := if bitAt f 0 then r.1 + 1 else 1
      upd (.dev fun v => { v with replays := (link, n, s.time :: lastSecond s r.2) :: v.replays.filter fun e => e.1 != link }))) s

/-- LINK_DOWN (R427): a link that fails; its number in the event is a free value. -/
def execLinkDown (link : LinkName) (s : State) : Host.Outcome State Fault Refusal :=
  letI := progMonad
  next (do
    let s ← st
    whenP (!s.dev.linksDown.contains link && linkFails s link) (do
      upd (.dev fun v => { v with linksDown := link :: v.linksDown, replays := v.replays.filter fun e => e.1 != link })
      heatCount (linkDie link) 14
      let f ← freeVal
      heatEvent 9 (linkDie link) 0 0 0 f 0)) s

/-- ROUTER_WATCHDOG (R426): firmware is told; nothing is dropped or reordered. -/
def execRouterWatchdog (die : Nat) (s : State) : Host.Outcome State Fault Refusal :=
  next (whenP (decide (die < 64)) (send (.firmware 12 (BitVec.ofNat 64 die)))) s

end Sys2Proof.Machine
end

