-- ==== Sys2Proof/Machine/EvSec.lean ====
section
/-!
DEFINITION. Events of security, the fabric and bring-up: detectors and alarms (R445, R446), Uliteby packets (R448, R449), the
time base's discipline (R377), SPDM (R449, R450), and cold boot (R454).
-/
namespace Sys2Proof.Machine

/-! ### Detectors (R445, R446) -/

/-- A detector of the package, not of one die. -/
def pkgDet (det : Nat) : Bool := decide (3 ≤ det)

/-- The dies whose SECALM shows a detector: every die shows those of the package. -/
def detDies (die det : Nat) : List Nat := if pkgDet det then List.range 64 else [die]

/-- The level of a detector: the larger of the fused one and the raised one (R445, R446). -/
def detLevel (s : State) (die det : Nat) : Nat :=
  (detDies die det).foldl (fun n d => max n (field (s.die d).secalm (30 + 2 * det) 2)) (if pkgDet det then 3 else 2)

/-- SECALM_RAISE (R445): a level is raised, never lowered. -/
def execSecalmRaise (die det : Nat) (level : BitVec 2) (s : State) : Host.Outcome State Fault Refusal :=
  next (whenP (decide (die < 64) && decide (det < 5)) (upd (.die die fun d =>
    { d with secalm := setField d.secalm (30 + 2 * det) 2 (max (field d.secalm (30 + 2 * det) 2) level.toNat) }))) s

/-- SECALM_TRIP_CLEAR (R445, R446): bits 29:20, write 1 to clear. -/
def execSecalmTripClear (die : Nat) (bits : BitVec 10) (s : State) : Host.Outcome State Fault Refusal :=
  next (whenP (decide (die < 64)) (upd (.die die fun d =>
    { d with secalm := setField d.secalm 20 10 ((BitVec.ofNat 10 (field d.secalm 20 10) &&& ~~~bits).toNat) }))) s

/-- DETECTOR_TRIP (R446). -/
def execDetectorTrip (die det : Nat) (s : State) : Host.Outcome State Fault Refusal :=
  letI := progMonad
  next (do
    let s ← st
    let level := detLevel s die det
    let zone := if pkgDet det then 64 else die
    let all := pkgDet det || level == 3
    whenP (decide (die < 64) && decide (det < 5)) (do
      forAll (detDies die det) fun d => upd (.die d fun v =>
        { v with secalm := setField (setField v.secalm det 1 1) (20 + 2 * det) 2 (max (field v.secalm (20 + 2 * det) 2) level) })
      if pkgDet det then
        upd (.dev fun v => { v with pkgNow := setField v.pkgNow det 1 1, pkgNormalAt := v.pkgNormalAt.put det s.time })
      else upd (.die die fun v => { v with normalAt := v.normalAt.put det s.time })
      secEvent det (if pkgDet det then 0 else die) (if pkgDet det then 0 else dieWorld s die) level
      forAll ((List.range 16).filter fun w => w != 0 && (all || dieWorld s die == w)) (alarmWorld zone)
      whenP (level == 3) (do
        upd (.dev fun v => { v with idKeys := false, level3 := true })
        heatUpd fun h => { h with signed := false }))) s

/-- DETECTOR_READS_NORMAL (R446): the detector's `now` bit clears. -/
def execDetectorReadsNormal (die det : Nat) (s : State) : Host.Outcome State Fault Refusal :=
  letI := progMonad
  next (do
    let s ← st
    whenP (decide (die < 64) && decide (det < 5) && bitAt (s.die die).secalm det) (do
      forAll (detDies die det) fun d => upd (.die d fun v => { v with secalm := setField v.secalm det 1 0 })
      if pkgDet det then
        upd (.dev fun v => { v with pkgNow := setField v.pkgNow det 1 0, pkgNormalAt := v.pkgNormalAt.put det s.time })
      else upd (.die die fun v => { v with normalAt := v.normalAt.put det s.time }))) s

/-! ### Uliteby (R158, R448, R449) -/

/-- A receive window takes a number (R449): above the highest seen, or within 256 below it and new. -/
def rxTakes (x : RxWin) (num : Nat) : Bool := decide (x.top < num) || (decide (x.top ≤ num + 256) && !x.seen.contains num)

/-- The window after a number it took. -/
def rxNext (x : RxWin) (num : Nat) : RxWin :=
  let top := max x.top num
  { x with top := top, seen := num :: x.seen.filter fun n => decide (top ≤ n + 256) }

/-- Key of the window of a source, port and epoch bit. -/
def rxKey (p : UlbPacket) (bit : Bool) : Nat := (p.src * 128 + p.port) * 2 + bit.toNat

/-- The window of an epoch bit, empty in the bit's first epoch. -/
def rxWin (s : State) (p : UlbPacket) (bit : Bool) : RxWin := s.dev.rx.get { epoch := bit.toNat } (rxKey p bit)

/-- The window that judges a packet: that of its epoch bit, when the tag is right under the key held there; an empty one, when it
is right under the key of the bit's next epoch and the epoch between has begun (R449; log entry 56). None: the tag fails. -/
def rxFor (s : State) (p : UlbPacket) : Option RxWin :=
  let x := rxWin s p p.epochBit
  let y := rxWin s p !p.epochBit
  match s.dev.secret, p.key with
  | some secret, some key =>
    if key = linkKey secret p.src x.epoch then some x
    else if key = linkKey secret p.src (x.epoch + 2) ∧ y.epoch = x.epoch + 1 ∧ y.top ≠ 0 then some { epoch := x.epoch + 2 }
    else none
  | _, _ => none

/-- The die of a packet's address is latched to the packet's world; else the die's firewall refuses it and logs (R361). -/
def letIn (world : Nat) (a : DWord) (act : Prog Unit) (src : Nat) : Prog Unit :=
  letI := progMonad
  do
    let s ← st
    let d := field a 45 6
    if s.latched d world && decide (0 < world) then act
    else do
      secEvent 16 d world 1
      send (.ulbReply src false [])

/-- An access of another device, under this device's rules (R158): bits 50:0 name a node-0x1FFF address. -/
def ulbAddr (a : DWord) : DWord := BitVec.ofNat 64 (0x1FFF * 2 ^ 51 + field a 0 51)

/-- Locate the bytes of a remote access and perform it; false where it cannot be. -/
def ulbAccess (world asid : Nat) (a : DWord) (need : Need) (act : Prog (Bool × List Byte)) (src : Nat) : Prog Unit :=
  letI := progMonad
  do
    let r ← locate { world, asid, core := 2 ^ 20, blk := none } (ulbAddr a) 1 need
    match r with
    | .error _ => send (.ulbReply src false [])
    | .ok _ => do
      let x ← act
      send (.ulbReply src x.1 x.2)

/-- Read and write bytes for another device, whose packet came in at a port: it counts as from that port's die (R414). -/
def farRead (port world asid : Nat) (a : DWord) (n : Nat) : Prog (Option (List Byte)) :=
  devReadBy (touch world (linkDie (.port port))) world asid a n
def farWrite (port src : Nat) (strong : Option (Scope × Bool)) (rmw : Bool) (world asid : Nat) (a : DWord) (bs : List Byte) : Prog Bool :=
  devWriteAs (touch world (linkDie (.port port))) (fun s k => farWriter s src k strong) rmw world asid a bs

/-- An atomic of another device, performed at its line as one event (R158, R281): whether it was, and the bytes before it. -/
def ulbAtom (port src world asid : Nat) (a : DWord) (op : AtomOp) (b c : BitVec 128) (sc : Scope) (rel : Bool) : Prog (Bool × List Byte) :=
  letI := progMonad
  do
    let n := atomBytes op
    let r ← devReadBy uncounted world asid a n
    match r with
    | none => pure (false, [])
    | some old => match atomNew op (leNat old) b.toNat c.toNat with
      | none => .bind (farRead port world asid a n) fun _ => pure (true, old)
      | some v => do
        let ok ← farWrite port src (some (sc, rel)) true world asid a (leBytes n v)
        pure (ok, old)

/-- An instruction fetch of another device: the 32-byte block that holds an address, where its page may be executed (R158, R401). -/
def ulbFetch (port world asid : Nat) (a : DWord) : Prog (Bool × List Byte) :=
  letI := progMonad
  do
    let base := BitVec.ofNat 64 (a.toNat / 32 * 32)
    let r ← locate { world, asid, core := 2 ^ 20, blk := none } base 32 {}
    match r with
    | .ok (.mem x) =>
      if !bitAt x.w0 58 then pure (false, [])
      else do
        let bs ← farRead port world asid base 32
        pure (bs.isSome, bs.getD [])
    | _ => pure (false, [])

/-- Another device acknowledges a packet of this one: the access under way by that name is performed (R158). -/
def ulbAck (p : Nat × Bool × Nat) : Prog Unit :=
  .get fun s => forAll (s.warps.filter fun e => e.2.ctl.away.contains p) fun e =>
    upd (.ctl e.1 fun c => { c with away := c.away.filter fun q => q != p })

/-- What an accepted packet asks for (R158, R281, R325, R401, R452). -/
def ulbBody (port src : Nat) (b : UlbBody) : Prog Unit :=
  letI := progMonad
  match b with
  | .write world asid a bytes strong => letIn world a (ulbAccess world asid a { wr := true } (do
      let ok ← farWrite port src strong false world asid (ulbAddr a) bytes
      pure (ok, [])) src) src
  | .read world asid a len => letIn world a (ulbAccess world asid a { rd := true } (do
      let r ← farRead port world asid (ulbAddr a) len
      pure (r.isSome, r.getD [])) src) src
  | .atom world asid a op b c sc rel => letIn world a (ulbAccess world asid a { rd := true, wr := true }
      (ulbAtom port src world asid (ulbAddr a) op b c sc rel) src) src
  | .fetch world asid a => letIn world a (.bind (ulbFetch port world asid (ulbAddr a)) fun x => send (.ulbReply src x.1 x.2)) src
  | .ack p bit num => ulbAck (p, bit, num)
  | .coll world g attempt rank sig data => collArrive world g attempt rank sig data
  | .abort world g attempt => abortArrive world g attempt

/-- A collective packet that its group has no room for is held back in the fabric (R452). -/
def heldInFabric (s : State) (b : UlbBody) : Bool :=
  match b with
  | .coll world g attempt _ _ data => collFits s world g attempt data == some false
  | _ => false

/-- ULITEBY_PACKET (R449): authenticated and new, it is accepted, once there is room for what it brings (R452); else it is dropped,
counted and logged. -/
def execUlitebyPacket (p : UlbPacket) (s : State) : Host.Outcome State Fault Refusal :=
  letI := progMonad
  next (do
    let s ← st
    whenP (decide (p.port < 72) && decide (p.src < 8189) && s.dev.boot == .ready) (
      match (rxFor s p).filter fun x => decide (0 < p.num) && rxTakes x p.num with
      | some x => whenP (!heldInFabric s p.body) (do
        upd (.dev fun v => { v with rx := v.rx.put (rxKey p p.epochBit) (rxNext x p.num) })
        ulbBody p.port p.src p.body)
      | none => do
        heatCount (linkDie (.port p.port)) 13
        secEvent 19 (linkDie (.port p.port)) 0 1)) s

/-- EPOCH_ADVANCE (R449): for one of its ports the device advances its epoch, which all ports share (R448). -/
def execEpochAdvance (port : Nat) (s : State) : Host.Outcome State Fault Refusal :=
  next (whenP (decide (port < 72)) advanceEpoch) s

/-! ### Time (R377) -/

/-- PTP_MESSAGE (R377): the servo's offset and lock; before the first lock it may step the time base forward once. -/
def execPtpMessage (act : PtpAct) (s : State) : Host.Outcome State Fault Refusal :=
  letI := progMonad
  next (do
    let s ← st
    let steps := !bitAt s.dev.tbstat 62 && !s.dev.lockedOnce && decide (0 < act.step)
    let locked := act.locked && decide (act.offset.toInt ≤ 100) && decide (-100 ≤ act.offset.toInt)
    whenP (s.dev.boot == .ready) (do
      whenP steps (upd (.time (s.time + act.step)))
      upd (.dev fun v =>
        { v with stepped := if steps then v.stepped + act.step else v.stepped,
                 tbstat := setField (setField (setField v.tbstat 0 32 act.offset.toNat) 63 1 locked.toNat) 62 1
                             (bitAt v.tbstat 62 || steps).toNat,
                 lockedOnce := v.lockedOnce || locked })
      send (.ptp act.offset))) s

/-! ### SPDM (R449, R450) -/

/-- Answer a request of SPDM once the firmware runs; what an answer holds beside what R450 gives is a free value. -/
def spdm (code : Nat) (ok : State → Bool) (act : Prog Nat) : Prog Unit :=
  letI := progMonad
  do
    let s ← st
    whenP (s.dev.boot == .ready) (
      if ok s then do
        let v ← act
        send (.spdm code true v)
      else send (.spdm code false 0))

/-- A free answer. -/
def freeAnswer : Prog Nat := .bind freeVal fun f => .ret f.toNat

/-- GET_CERTIFICATE (R450): slot 0 holds the chain. -/
def execGetCertificate (slot : Nat) (s : State) : Host.Outcome State Fault Refusal :=
  next (spdm 1 (fun s => s.dev.idKeys && slot == 0) freeAnswer) s

/-- CHALLENGE (R450): the answer is signed over the nonce. -/
def execChallenge (nonce : BitVec 256) (s : State) : Host.Outcome State Fault Refusal :=
  next (spdm 2 (fun s => s.dev.idKeys) (.ret (Config.signature nonce.toNat 0).toNat)) s

/-- The measurement of an index (R450). -/
def measurement (s : State) (index : Nat) : Option Nat :=
  if index = 1 ∨ index = 2 ∨ index = 3 then some (Config.measured index).toNat
  else if 0x10 ≤ index ∧ index < 0x20 then
    let x := s.world (index - 0x10)
    some (if x.st = .free then 0 else x.meas)
  else if index = 0xF0 then some (heatDigest s.upNs { s.dev.heat with signed := s.dev.idKeys }).toNat
  else none

/-- GET_MEASUREMENTS (R450, R441): a signed answer needs the keys. -/
def execGetMeasurements (index : Nat) (signed : Bool) (s : State) : Host.Outcome State Fault Refusal :=
  next (spdm 3 (fun s => (!signed || s.dev.idKeys) && (measurement s index).isSome) (gets fun s => (measurement s index).getD 0)) s

/-- KEY_EXCHANGE (R450): a session opens; world 0 stands for the domain manager's. -/
def execKeyExchange (world : Nat) (s : State) : Host.Outcome State Fault Refusal :=
  letI := progMonad
  next (spdm 4 (fun s => s.dev.idKeys && decide (world < 16)) (do
    upd (.dev fun v => { v with sessions := if v.sessions.contains world then v.sessions else world :: v.sessions })
    freeAnswer)) s

/-- IDE_KM (R449): the keys of a selective stream, of at most eight per port, programmed over a world's session. -/
def execIdeKm (world stream port : Nat) (s : State) : Host.Outcome State Fault Refusal :=
  letI := progMonad
  next (spdm 5 (fun s => s.dev.sessions.contains world && decide (port < 2)
      && (s.dev.ide.contains (world, stream, port) || decide ((s.dev.ide.filter fun e => e.2.2 == port).length < 8))) (do
    upd (.dev fun v => { v with ide := if v.ide.contains (world, stream, port) then v.ide else (world, stream, port) :: v.ide })
    pure 0)) s

/-- DOMAIN_SECRET_INSTALL (R448): through the domain manager's session, and never to flash. The manager names the device's
identifier in the domain with it (R93; log entry 38). Under a new secret, or identifier, every key is new: epochs, numbers and
windows begin again (R449). -/
def execDomainSecretInstall (secret node : Nat) (s : State) : Host.Outcome State Fault Refusal :=
  letI := progMonad
  next (spdm 6 (fun s => s.dev.sessions.contains 0 && decide (secret < 2 ^ 256) && decide (node < 0x1FFD)) (do
    upd (.dev fun v =>
      let k := BitVec.ofNat 256 secret
      let same := decide (v.secret = some k ∧ v.node = node)
      { v with secret := some k, node := node, ulbEpoch := if same then v.ulbEpoch else 0,
               ulbNum := if same then v.ulbNum else [], rx := if v.secret = some k then v.rx else [] })
    pure 0)) s

/-! ### Cold boot (R454) -/

/-- What a die is after steps 3 to 5 (R454): its registers, its fenced cores, and world 0 latched and valid. -/
def bootDie (find : BootFind) (d : Nat) : Prog Unit :=
  letI := progMonad
  do
    let s ← st
    let fenced := (List.range 16).foldl (fun (m : BitVec 16) n => setField m n 1 (s.dev.heat.cores.get {} (d * 16 + n)).fenced.toNat) 0
    upd (.die d fun _ => { fenced := fenced, dlatch := 0x100, changed := true })
    setDieRegs d find.tables

/-- AGEMON after cold boot: the fused birth count, and the ceiling that the heat record kept (R432, R454). -/
def bootAge (s : State) (find : BootFind) (c : Nat) : DWord :=
  let old := field (s.dev.agemon.get 0 c) 0 16
  let birth := if old ≠ 0 then old else (((find.birth.find? fun e => e.1 == c).map fun e => e.2.toNat).getD 0)
  let kept := field (s.dev.heat.clusters.get 0 c) 32 8
  BitVec.ofNat 64 (birth + (if kept = 0 then 20 else kept) * 2 ^ 32)

/-- What the self-tests of step 3 find enters the heat record (R454): a failure in HBM as an uncorrectable error of its frame, one
of a crucible as one of SRAM (log entry 77). -/
def bootTests (find : BootFind) : Prog Unit :=
  letI := progMonad
  do
    forAll (find.badHbm.filter fun e => decide (e.1 < 64) && decide (e.2 < hbmSize)) fun e => do
      heatCount e.1 1
      poisonLine (physKey e.1 e.2)
      upd (.dev fun v => { v with badFrames := v.badFrames.filter (fun f => f != (e.1, e.2 / 65536)) ++ [(e.1, e.2 / 65536)] })
    forAll (find.badCrucible.filter fun d => decide (d < 64)) fun d => heatCount d 6

/-- COLD_BOOT (R454): power-on, the boot ROM, and the bring-up up to the presented management function; with no good
firmware image the device stays in recovery. -/
def execColdBoot (find : BootFind) (s : State) : Host.Outcome State Fault Refusal :=
  letI := progMonad
  next (do
    upd .powerOn
    if !find.fwOk && !find.standbyOk then upd (.dev fun v => { v with boot := .recovery })
    else do
      upd (.dev fun v => { v with idKeys := true })
      let s ← st
      whenP (!s.dev.heat.signed) (heatUpd fun h => { h with signed := true })
      bootTests find
      forAll (List.range 64) (bootDie find)
      let s ← st
      forAll (List.range 256) fun c => upd (.dev fun v => { v with agemon := v.agemon.put c (bootAge s find c) })
      upd (.dev fun v => { v with linksDown := find.linksDown, boot := .ready })) s

end Sys2Proof.Machine
end

