-- ==== Sys2Proof/Machine/Approx.lean ====
section
/-!
DEFINITION. The approximations (R250 to R252): each delivers the FP32 value nearest the exact one, found from
fixed-point series with far more bits than any case of FP32 needs.
-/
namespace Sys2Proof.Machine

/-- Fraction bits of the fixed-point numbers. -/
def apK : Nat := 420
def apOne : Int := (2 ^ apK : Nat)

/-- A fixed-point product. -/
def apMul (a b : Int) : Int := a * b / apOne

/-- atanh(1/n) or atan(1/n) in fixed point by its series: the sign alternates for the arc tangent. -/
def apArc (alt : Bool) (n terms : Nat) : Int :=
  ((List.range terms).foldl (fun (st : Int × Int) i =>
    let c := st.1 / ((2 * i + 1 : Nat) : Int)
    (st.1 / ((n * n : Nat) : Int), if alt && i % 2 == 1 then st.2 - c else st.2 + c)) (apOne / (n : Int), 0)).2

/-- ln 2 = 2·atanh(1/3). -/
def apLn2 : Int := 2 * apArc false 3 140
/-- π/2 = 8·atan(1/5) − 2·atan(1/239). -/
def apHalfPi : Int := 8 * apArc true 5 96 - 2 * apArc true 239 32

/-- The series Σ xⁿ/n! from the term `t0` on, stepping the factorial by `stride` terms of argument `z`. -/
def apSeries (z t0 : Int) (n0 stride terms : Nat) : Int :=
  ((List.range terms).foldl (fun (st : Int × Int) i =>
    let n := n0 + stride * i
    let d : Nat := (List.range stride).foldl (fun a j => a * (n + j + 1)) 1
    (apMul st.1 z / (d : Int), st.2 + st.1)) (t0, 0)).2

def apExp (x : Int) : Int := apSeries x apOne 0 1 110
def apSin (r : Int) : Int := apSeries (-(apMul r r)) r 1 2 50
def apCos (r : Int) : Int := apSeries (-(apMul r r)) apOne 0 2 50

/-- ln t for a fixed-point t in [1, 2): 2·atanh((t − 1)/(t + 1)). -/
def apLn (t : Int) : Int :=
  let z := (t - apOne) * apOne / (t + apOne)
  let zz := apMul z z
  2 * ((List.range 140).foldl (fun (st : Int × Int) i =>
    (apMul st.1 zz, st.2 + st.1 / ((2 * i + 1 : Nat) : Int))) (z, 0)).2

/-- Round a fixed-point value times 2^e to FP32, knowing that the exact value is not representable. -/
def apRound (neg : Bool) (v : Nat) (e : Int) : Nat × Fl := roundFin .f32 .rne false neg v (e - (apK : Nat)) true

/-- A finite result delivered: NX unless it is of R250's exact list; UF when it is subnormal or flushed; under FZ32 a
subnormal is a zero. -/
def apDeliver (fz exact : Bool) (r : Nat × Fl) : Nat × Fl :=
  let neg := decide (2 ^ 31 ≤ r.1)
  let sub := decide (r.1 % 2 ^ 31 < 2 ^ 23)
  if exact then (r.1, 0)
  else (if sub && fz then fZero .f32 neg else r.1, flNX ||| (r.2 &&& flOF) ||| flIf sub flUF)

/-- The six approximations. -/
inductive Apx where
  | rcp | rsq | ex2 | lg2 | sin | cos
  deriving DecidableEq, Repr

def isPow2 (m : Nat) : Bool := m == 2 ^ Nat.log2 m

/-- 2^x for x = ±m·2^e that is no integer or lies outside −126 to 127. -/
def apEx2 (neg : Bool) (m : Nat) (e : Int) : Nat × Fl :=
  let x := scaleTo (signedMag neg m) (e + (apK : Nat)) 0
  let n := x / apOne
  apRound false (apExp (apMul (x - n * apOne) apLn2)).natAbs n

/-- log2 (m·2^e). -/
def apLg2 (m : Nat) (e : Int) : Nat × Fl :=
  let l := Nat.log2 m
  let t := scaleTo (m : Int) ((apK : Nat) - (l : Nat)) 0
  let v := ((l : Nat) + e) * apOne + apLn t * apOne / apLn2
  apRound (decide (v < 0)) v.natAbs 0

/-- sin or cos of ±m·2^e: the argument reduced by multiples of π/2. -/
def apTrig (isCos neg : Bool) (m : Nat) (e : Int) : Nat × Fl :=
  let x := scaleTo (signedMag neg m) (e + (apK : Nat)) 0
  let q := (2 * x + apHalfPi) / (2 * apHalfPi)
  let r := x - q * apHalfPi
  let k := (q + (if isCos then 1 else 0)) % 4
  let v := if k = 0 then apSin r else if k = 1 then apCos r else if k = 2 then -(apSin r) else -(apCos r)
  apRound (decide (v < 0)) v.natAbs 0

/-- An approximation of a nonzero finite value. -/
def apFinite (op : Apx) (fz neg : Bool) (m : Nat) (e : Int) : Nat × Fl :=
  let k : Int := (Nat.log2 m : Nat) + e
  match op with
  | .rcp => apDeliver fz (isPow2 m && decide (-127 ≤ k) && decide (k ≤ 126)) (roundQuot .f32 .rne false neg 1 m (-e))
  | .rsq =>
    if neg then (fDefNan .f32, flIV)
    else
      let m' := if e % 2 = 0 then m else 2 * m
      let e' := if e % 2 = 0 then e else e - 1
      let n := 2 ^ 160 / m'
      let r := isqrt 82 n
      apDeliver fz (isPow2 m && decide (k % 2 = 0)) (roundFin .f32 .rne false false r (-(e' / 2) - 80) (decide (r * r * m' ≠ 2 ^ 160)))
  | .ex2 =>
    if !neg && decide (7 ≤ k) then (fInf .f32 false, flOF ||| flNX)
    else if neg && decide (8 ≤ k) then (fZero .f32 false, flUF ||| flNX)
    else if neg && decide (150 * 2 ^ 149 ≤ scaleTo (m : Int) e (-149)) then (fZero .f32 false, flUF ||| flNX)
    else
      let x := scaleTo (signedMag neg m) e (-149)
      let whole := decide (x % (2 ^ 149 : Nat) = 0)
      let n := x / (2 ^ 149 : Nat)
      if whole then apDeliver fz (decide (-126 ≤ n)) (roundFin .f32 .rne false false 1 n false)
      else apDeliver fz false (apEx2 neg m e)
  | .lg2 =>
    if neg then (fDefNan .f32, flIV)
    else if isPow2 m then apDeliver fz true (roundVal .f32 .rne false k 0 false)
    else apDeliver fz false (apLg2 m e)
  | .sin => apDeliver fz false (apTrig false neg m e)
  | .cos => apDeliver fz false (apTrig true neg m e)

/-- Zeros and infinities (R251). -/
def apZero (op : Apx) (neg : Bool) : Nat × Fl :=
  match op with
  | .rcp => (fInf .f32 neg, flDZ)
  | .rsq => (fInf .f32 neg, flDZ)
  | .ex2 => (0x3F800000, 0)
  | .lg2 => (fInf .f32 true, flDZ)
  | .sin => (fZero .f32 neg, 0)
  | .cos => (0x3F800000, 0)
def apInf (op : Apx) (neg : Bool) : Nat × Fl :=
  match op with
  | .rcp => (fZero .f32 neg, 0)
  | .rsq => if neg then (fDefNan .f32, flIV) else (fZero .f32 false, 0)
  | .ex2 => if neg then (fZero .f32 false, 0) else (fInf .f32 false, 0)
  | .lg2 => if neg then (fDefNan .f32, flIV) else (fInf .f32 false, 0)
  | .sin => (fDefNan .f32, flIV)
  | .cos => (fDefNan .f32, flIV)

/-- FRCP, FRSQ, FEX2, FLG2, FSIN, FCOS on an FP32 encoding. -/
def fApprox (op : Apx) (fpcr : Word) (a : Nat) : Nat × Fl :=
  let fz := fFlush fpcr .f32
  let x := fRead .f32 fz a
  let r := match fVal .f32 x.1 with
    | .nan _ => nanRes .f32 [x.1] false
    | .inf n => apInf op n
    | .fin n m e => if m = 0 then apZero op n else apFinite op fz n m e
  (r.1, r.2 ||| x.2)

end Sys2Proof.Machine
end

