-- ==== Sys2Proof/Machine/Float.lean ====
section
/-!
DEFINITION. Floating-point instructions (R245 to R255, R258, R262).
-/
namespace Sys2Proof.Machine

/-- An instruction of two floating sources. -/
def floatBin (i : Instr) (o : FBin) (f : FT → RM → Word → Nat → Nat → Nat × Fl) : Prog Unit :=
  floatOp i o.hd o.d o.ft.words fun s w ls l =>
    f o.ft o.rm (s.fpcr w) (s.opndF w ls o.a o.ft l) (s.srcF w ls o.b o.ft l)
/-- An instruction of one floating source. -/
def floatUn (i : Instr) (h : Hd) (d a : VOp) (ft : FT) (words : Nat) (f : Word → Nat → Nat × Fl) : Prog Unit :=
  floatOp i h d words fun s w ls l => f (s.fpcr w) (s.opndF w ls a ft l)

def execFadd (o : FBin) (s : State) : Host.Outcome State Fault Refusal := next (floatBin (.fadd o) o fAdd) s
def execFsub (o : FBin) (s : State) : Host.Outcome State Fault Refusal := next (floatBin (.fsub o) o fSub) s
def execFmul (o : FBin) (s : State) : Host.Outcome State Fault Refusal := next (floatBin (.fmul o) o fMul) s
def execFdiv (o : FBin) (s : State) : Host.Outcome State Fault Refusal := next (floatBin (.fdiv o) o fDiv) s
def execFfma (o : FFma) (s : State) : Host.Outcome State Fault Refusal :=
  next (floatOp (.ffma o) o.hd o.d o.ft.words fun s w ls l =>
    fFma o.ft o.rm o.nc (s.fpcr w) (s.opndF w ls o.a o.ft l) (s.srcF w ls o.b o.ft l) (s.opndF w ls o.c o.ft l)) s
def execFmin (o : FMinMax) (s : State) : Host.Outcome State Fault Refusal :=
  next (floatOp (.fmin o) o.hd o.d o.ft.words fun s w ls l =>
    fMinMax o.ft false o.nan (s.fpcr w) (s.opndF w ls o.a o.ft l) (s.srcF w ls o.b o.ft l)) s
def execFmax (o : FMinMax) (s : State) : Host.Outcome State Fault Refusal :=
  next (floatOp (.fmax o) o.hd o.d o.ft.words fun s w ls l =>
    fMinMax o.ft true o.nan (s.fpcr w) (s.opndF w ls o.a o.ft l) (s.srcF w ls o.b o.ft l)) s

/-- FCMP (R247): the flags are set even when the destination is pt. -/
def execFcmp (o : Fcmp) (s : State) : Host.Outcome State Fault Refusal :=
  next (issueV (.fcmp o) o.hd fun w ls => .get fun s =>
    let rs := ls.map fun l => (l, fCompare o.ft o.cmp o.u (s.fpcr w) (s.opndF w ls o.a o.ft l) (s.opndF w ls o.b o.ft l))
    finishFp w (rs.map fun r => (r.1, r.2.2))
      (predRes w o.d ls ((rs.filter fun r => r.2.1 && (s.predMask w o.c).getLsbD r.1).map (·.1)))) s

def execFclass (o : FUn) (s : State) : Host.Outcome State Fault Refusal :=
  next (vectorOp (.fclass o) o.hd o.d 1 fun s w ls l => fClass o.ft (s.opndF w ls o.a o.ft l)) s
def execFsqrt (o : FUnR) (s : State) : Host.Outcome State Fault Refusal :=
  next (floatUn (.fsqrt o) o.hd o.d o.a o.ft o.ft.words fun c a => fSqrt o.ft o.rm c a) s
def execFrcp (o : FUn) (s : State) : Host.Outcome State Fault Refusal :=
  next (floatUn (.frcp o) o.hd o.d o.a .f32 1 (fApprox .rcp)) s
def execFrsq (o : FUn) (s : State) : Host.Outcome State Fault Refusal :=
  next (floatUn (.frsq o) o.hd o.d o.a .f32 1 (fApprox .rsq)) s
def execFex2 (o : FUn) (s : State) : Host.Outcome State Fault Refusal :=
  next (floatUn (.fex2 o) o.hd o.d o.a .f32 1 (fApprox .ex2)) s
def execFlg2 (o : FUn) (s : State) : Host.Outcome State Fault Refusal :=
  next (floatUn (.flg2 o) o.hd o.d o.a .f32 1 (fApprox .lg2)) s
def execFsin (o : FUn) (s : State) : Host.Outcome State Fault Refusal :=
  next (floatUn (.fsin o) o.hd o.d o.a .f32 1 (fApprox .sin)) s
def execFcos (o : FUn) (s : State) : Host.Outcome State Fault Refusal :=
  next (floatUn (.fcos o) o.hd o.d o.a .f32 1 (fApprox .cos)) s
def execFrnd (o : FUnR) (s : State) : Host.Outcome State Fault Refusal :=
  next (floatUn (.frnd o) o.hd o.d o.a o.ft o.ft.words fun c a => fRnd o.ft o.rm o.x c a) s
/-- FSCALE (R254): source b is a 32-bit signed integer for every type. -/
def execFscale (o : FBin) (s : State) : Host.Outcome State Fault Refusal :=
  next (floatOp (.fscale o) o.hd o.d o.ft.words fun s w ls l =>
    fScale o.ft o.rm (s.fpcr w) (s.opndF w ls o.a o.ft l) (signed 32 (s.srcB w ls o.b 1 false l))) s
def execFgetx (o : FUn) (s : State) : Host.Outcome State Fault Refusal :=
  next (floatUn (.fgetx o) o.hd o.d o.a o.ft 1 fun c a => fGetx o.ft c a) s

/-- Two 16-bit elements computed independently, their flags ORed (R258). -/
def packed (f : Nat → Nat → Nat → Nat × Fl) (a b c : Nat) : Nat × Fl :=
  let lo := f (a % 65536) (b % 65536) (c % 65536)
  let hi := f (a / 65536 % 65536) (b / 65536 % 65536) (c / 65536 % 65536)
  (lo.1 + 65536 * hi.1, lo.2 ||| hi.2)

def execPkfma (o : FFma) (s : State) : Host.Outcome State Fault Refusal :=
  next (floatOp (.pkfma o) o.hd o.d 1 fun s w ls l =>
    packed (fFma o.ft o.rm o.nc (s.fpcr w)) (s.opnd w ls o.a 1 l) (s.srcB w ls o.b 1 false l) (s.opnd w ls o.c 1 l)) s
def execPkadd (o : FBin) (s : State) : Host.Outcome State Fault Refusal :=
  next (floatOp (.pkadd o) o.hd o.d 1 fun s w ls l =>
    packed (fun a b _ => fAdd o.ft o.rm (s.fpcr w) a b) (s.opnd w ls o.a 1 l) (s.srcB w ls o.b 1 false l) 0) s
def execPkmul (o : FBin) (s : State) : Host.Outcome State Fault Refusal :=
  next (floatOp (.pkmul o) o.hd o.d 1 fun s w ls l =>
    packed (fun a b _ => fMul o.ft o.rm (s.fpcr w) a b) (s.opnd w ls o.a 1 l) (s.srcB w ls o.b 1 false l) 0) s

/-- Set a lane's FPSR, folding a change (R166, R262). -/
def setFpsr (w l : Nat) (v : BitVec 6) : Prog Unit :=
  .get fun s =>
    if s.fpsr w l = v then .ret ()
    else .bind (upd (.fpsr w l v)) fun _ => foldSig w [BitVec.ofNat 64 (l * 256 + v.toNat)]

/-- FPSTR (R262): read, then clear the bits named. -/
def execFpstr (o : Fpstr) (s : State) : Host.Outcome State Fault Refusal :=
  next (issueV (.fpstr o) o.hd fun w ls => .get fun s =>
    .bind (putRes w o.d 1 (ls.map fun l => (l, (s.fpsr w l).toNat))) fun r => match r with
      | .ok => .bind (forAll ls fun l => setFpsr w l (s.fpsr w l &&& ~~~o.clr)) fun _ => .ret .ok
      | r => .ret r) s
/-- FPSTW (R262). -/
def execFpstw (o : Fpstw) (s : State) : Host.Outcome State Fault Refusal :=
  next (issueV (.fpstw o) o.hd fun w ls => .get fun s =>
    .bind (forAll ls fun l => setFpsr w l (match o.src with
      | .v r => BitVec.ofNat 6 (s.opnd w ls r 1 l)
      | .imm i => i)) fun _ => .ret .ok) s

end Sys2Proof.Machine
end

