-- ==== Sys2Proof/Machine/Rng.lean ====
section
/-!
DEFINITION. Counter-based random numbers: RNGX and RNGU (R326, R327).
-/
namespace Sys2Proof.Machine

/-- The rotation constants of each round (R326). -/
def rngRot : List (Nat × Nat) :=
  [(13, 16), (15, 28), (26, 11), (6, 29), (17, 5), (29, 14), (16, 7), (24, 21), (8, 25), (19, 3)]

/-- Four words. -/
structure Quad where
  x0 : Word
  x1 : Word
  x2 : Word
  x3 : Word
  deriving DecidableEq, Repr

def Quad.get (q : Quad) (n : Nat) : Word := match n % 4 with | 0 => q.x0 | 1 => q.x1 | 2 => q.x2 | _ => q.x3

/-- Round i (R326): the mixing, the swap of x1 and x3, and after an odd round the key. -/
def rngRound (k : Quad) (q : Quad) (e : (Nat × Nat) × Nat) : Quad :=
  let x0 := q.x0 + q.x1
  let x1 := q.x1.rotateLeft e.1.1 ^^^ x0
  let x2 := q.x2 + q.x3
  let x3 := q.x3.rotateLeft e.1.2 ^^^ x2
  if e.2 % 2 = 1 then
    let j := (e.2 + 1) / 2
    let add (n : Nat) : Word := k.get (n + j) + BitVec.ofNat 32 j
    ⟨x0 + add 0, x3 + add 1, x2 + add 2, x1 + add 3⟩
  else ⟨x0, x3, x2, x1⟩

/-- The ten rounds of RNGX. -/
def rngx (ctr key : Quad) : Quad := rngRot.zipIdx.foldl (rngRound key) ctr

/-- Four consecutive words of a number, least significant first. -/
def quadOf (v : Nat) : Quad :=
  ⟨BitVec.ofNat 32 v, BitVec.ofNat 32 (v / 2 ^ 32), BitVec.ofNat 32 (v / 2 ^ 64), BitVec.ofNat 32 (v / 2 ^ 96)⟩
def Quad.val (q : Quad) : Nat := q.x0.toNat + q.x1.toNat * 2 ^ 32 + q.x2.toNat * 2 ^ 64 + q.x3.toNat * 2 ^ 96

/-- The key quad of a lane: four registers, or two uniform ones (R326). -/
def rngKey (s : State) (w : Nat) (k : RegVS) (l : Nat) : Quad :=
  match k with
  | .v r => quadOf (s.vwide w r.val l 4)
  | .s r => quadOf ((s.sreg w r.val).toNat + (s.sreg w (r.val + 1)).toNat * 2 ^ 64)

/-- RNGX (R326): the eight destination words of a lane are the output and the counter plus 1. -/
def execRngx (o : Rngx) (s : State) : Host.Outcome State Fault Refusal :=
  next (issueV (.rngx o) o.hd fun w ls => .get fun s =>
    let res := ls.map fun l =>
      let c := s.vwide w o.a.val l 4
      (l, (rngx (quadOf c) (rngKey s w o.key l)).val, (c + 1) % 2 ^ 128)
    .bind (forAll res fun e => .bind (putV w o.d.val e.1 4 e.2.1) fun _ => putV w (o.d.val + 4) e.1 4 e.2.2) fun _ =>
    .bind (foldSig w (res.flatMap fun e => List.append (foldWords 4 e.2.1) (foldWords 4 e.2.2))) fun _ => .ret .ok) s

/-- The result of RNGU in a lane (R327): every float result is exact. -/
def rngu (s : State) (w : Nat) (o : Rngu) (l : Nat) : Nat :=
  match o.form with
  | .f32 => (roundFin .f32 .rne false false (2 * ((s.vreg w o.a.val l).toNat / 2 ^ 9) + 1) (-24) false).1
  | .f64 => (roundFin .f64 .rne false false (2 * ((s.vpair w o.a.val l).toNat / 2 ^ 12) + 1) (-53) false).1
  | .below b => (s.vreg w o.a.val l).toNat * s.regVS w b 1 l / 2 ^ 32

/-- RNGU (R327). -/
def execRngu (o : Rngu) (s : State) : Host.Outcome State Fault Refusal :=
  next (issueV (.rngu o) o.hd fun w ls => .get fun s =>
    let words := match o.form with | .f64 => 2 | _ => 1
    .bind (writeV w o.d.val words (ls.map fun l => (l, rngu s w o l))) fun _ => .ret .ok) s

end Sys2Proof.Machine
end

