-- ==== Sys2Proof/Machine/Dispatch.lean ====
section
/-! DEFINITION. One arm per instruction and event: each calls its meaning. -/
namespace Sys2Proof.Machine

def exec (i : Instr) (s : State) : Host.Outcome State Fault Refusal :=
  match i with
  | .nop o => Sys2Proof.Machine.execNop o s
  | .bra o => Sys2Proof.Machine.execBra o s
  | .brd o => Sys2Proof.Machine.execBrd o s
  | .join o => Sys2Proof.Machine.execJoin o s
  | .call o => Sys2Proof.Machine.execCall o s
  | .ret o => Sys2Proof.Machine.execRet o s
  | .jmpi o => Sys2Proof.Machine.execJmpi o s
  | .exit o => Sys2Proof.Machine.execExit o s
  | .bar o => Sys2Proof.Machine.execBar o s
  | .arrv o => Sys2Proof.Machine.execArrv o s
  | .await o => Sys2Proof.Machine.execAwait o s
  | .gbar o => Sys2Proof.Machine.execGbar o s
  | .yield o => Sys2Proof.Machine.execYield o s
  | .trap o => Sys2Proof.Machine.execTrap o s
  | .bkpt o => Sys2Proof.Machine.execBkpt o s
  | .segend o => Sys2Proof.Machine.execSegend o s
  | .srd o => Sys2Proof.Machine.execSrd o s
  | .srw o => Sys2Proof.Machine.execSrw o s
  | .sadd o => Sys2Proof.Machine.execSadd o s
  | .ssub o => Sys2Proof.Machine.execSsub o s
  | .smul o => Sys2Proof.Machine.execSmul o s
  | .smad o => Sys2Proof.Machine.execSmad o s
  | .sand o => Sys2Proof.Machine.execSand o s
  | .sor o => Sys2Proof.Machine.execSor o s
  | .sxor o => Sys2Proof.Machine.execSxor o s
  | .sshl o => Sys2Proof.Machine.execSshl o s
  | .sshr o => Sys2Proof.Machine.execSshr o s
  | .ssra o => Sys2Proof.Machine.execSsra o s
  | .smin o => Sys2Proof.Machine.execSmin o s
  | .smax o => Sys2Proof.Machine.execSmax o s
  | .ssel o => Sys2Proof.Machine.execSsel o s
  | .smov o => Sys2Proof.Machine.execSmov o s
  | .smovi o => Sys2Proof.Machine.execSmovi o s
  | .scmp o => Sys2Proof.Machine.execScmp o s
  | .sld o => Sys2Proof.Machine.execSld o s
  | .mand o => Sys2Proof.Machine.execMand o s
  | .mor o => Sys2Proof.Machine.execMor o s
  | .mxor o => Sys2Proof.Machine.execMxor o s
  | .mnot o => Sys2Proof.Machine.execMnot o s
  | .mpopc o => Sys2Proof.Machine.execMpopc o s
  | .mfind o => Sys2Proof.Machine.execMfind o s
  | .vote o => Sys2Proof.Machine.execVote o s
  | .voteAny o => Sys2Proof.Machine.execVoteAny o s
  | .voteAll o => Sys2Proof.Machine.execVoteAll o s
  | .iadd o => Sys2Proof.Machine.execIadd o s
  | .iaddc o => Sys2Proof.Machine.execIaddc o s
  | .isub o => Sys2Proof.Machine.execIsub o s
  | .imul o => Sys2Proof.Machine.execImul o s
  | .imulh o => Sys2Proof.Machine.execImulh o s
  | .imad o => Sys2Proof.Machine.execImad o s
  | .imadw o => Sys2Proof.Machine.execImadw o s
  | .imin o => Sys2Proof.Machine.execImin o s
  | .imax o => Sys2Proof.Machine.execImax o s
  | .iabs o => Sys2Proof.Machine.execIabs o s
  | .ineg o => Sys2Proof.Machine.execIneg o s
  | .vand o => Sys2Proof.Machine.execVand o s
  | .vor o => Sys2Proof.Machine.execVor o s
  | .vxor o => Sys2Proof.Machine.execVxor o s
  | .vnot o => Sys2Proof.Machine.execVnot o s
  | .lut3 o => Sys2Proof.Machine.execLut3 o s
  | .shl o => Sys2Proof.Machine.execShl o s
  | .shr o => Sys2Proof.Machine.execShr o s
  | .sra o => Sys2Proof.Machine.execSra o s
  | .rot o => Sys2Proof.Machine.execRot o s
  | .shf o => Sys2Proof.Machine.execShf o s
  | .bfe o => Sys2Proof.Machine.execBfe o s
  | .bfi o => Sys2Proof.Machine.execBfi o s
  | .popc o => Sys2Proof.Machine.execPopc o s
  | .clz o => Sys2Proof.Machine.execClz o s
  | .brev o => Sys2Proof.Machine.execBrev o s
  | .icmp o => Sys2Proof.Machine.execIcmp o s
  | .pbool o => Sys2Proof.Machine.execPbool o s
  | .sel o => Sys2Proof.Machine.execSel o s
  | .mov o => Sys2Proof.Machine.execMov o s
  | .movi o => Sys2Proof.Machine.execMovi o s
  | .lea o => Sys2Proof.Machine.execLea o s
  | .fadd o => Sys2Proof.Machine.execFadd o s
  | .fsub o => Sys2Proof.Machine.execFsub o s
  | .fmul o => Sys2Proof.Machine.execFmul o s
  | .ffma o => Sys2Proof.Machine.execFfma o s
  | .fmin o => Sys2Proof.Machine.execFmin o s
  | .fmax o => Sys2Proof.Machine.execFmax o s
  | .fcmp o => Sys2Proof.Machine.execFcmp o s
  | .fclass o => Sys2Proof.Machine.execFclass o s
  | .fdiv o => Sys2Proof.Machine.execFdiv o s
  | .fsqrt o => Sys2Proof.Machine.execFsqrt o s
  | .frcp o => Sys2Proof.Machine.execFrcp o s
  | .frsq o => Sys2Proof.Machine.execFrsq o s
  | .fex2 o => Sys2Proof.Machine.execFex2 o s
  | .flg2 o => Sys2Proof.Machine.execFlg2 o s
  | .fsin o => Sys2Proof.Machine.execFsin o s
  | .fcos o => Sys2Proof.Machine.execFcos o s
  | .frnd o => Sys2Proof.Machine.execFrnd o s
  | .fscale o => Sys2Proof.Machine.execFscale o s
  | .fgetx o => Sys2Proof.Machine.execFgetx o s
  | .f2f o => Sys2Proof.Machine.execF2f o s
  | .f2i o => Sys2Proof.Machine.execF2i o s
  | .i2f o => Sys2Proof.Machine.execI2f o s
  | .pkfma o => Sys2Proof.Machine.execPkfma o s
  | .pkadd o => Sys2Proof.Machine.execPkadd o s
  | .pkmul o => Sys2Proof.Machine.execPkmul o s
  | .cvtn o => Sys2Proof.Machine.execCvtn o s
  | .cvtw o => Sys2Proof.Machine.execCvtw o s
  | .fpstr o => Sys2Proof.Machine.execFpstr o s
  | .fpstw o => Sys2Proof.Machine.execFpstw o s
  | .shfl o => Sys2Proof.Machine.execShfl o s
  | .perm o => Sys2Proof.Machine.execPerm o s
  | .bcast o => Sys2Proof.Machine.execBcast o s
  | .rdx o => Sys2Proof.Machine.execRdx o s
  | .scanx o => Sys2Proof.Machine.execScanx o s
  | .matchX o => Sys2Proof.Machine.execMatchX o s
  | .ld o => Sys2Proof.Machine.execLd o s
  | .st o => Sys2Proof.Machine.execSt o s
  | .lda o => Sys2Proof.Machine.execLda o s
  | .str o => Sys2Proof.Machine.execStr o s
  | .atom o => Sys2Proof.Machine.execAtom o s
  | .red o => Sys2Proof.Machine.execRed o s
  | .fence o => Sys2Proof.Machine.execFence o s
  | .cctl o => Sys2Proof.Machine.execCctl o s
  | .pref o => Sys2Proof.Machine.execPref o s
  | .disc o => Sys2Proof.Machine.execDisc o s
  | .mwait o => Sys2Proof.Machine.execMwait o s
  | .pwait o => Sys2Proof.Machine.execPwait o s
  | .subs o => Sys2Proof.Machine.execSubs o s
  | .unsub o => Sys2Proof.Machine.execUnsub o s
  | .spoll o => Sys2Proof.Machine.execSpoll o s
  | .qcfg o => Sys2Proof.Machine.execQcfg o s
  | .qfence o => Sys2Proof.Machine.execQfence o s
  | .mloop o => Sys2Proof.Machine.execMloop o s
  | .mstep o => Sys2Proof.Machine.execMstep o s
  | .rinit o => Sys2Proof.Machine.execRinit o s
  | .rwait o => Sys2Proof.Machine.execRwait o s
  | .epi o => Sys2Proof.Machine.execEpi o s
  | .tstore o => Sys2Proof.Machine.execTstore o s
  | .tcopy o => Sys2Proof.Machine.execTcopy o s
  | .tcopym o => Sys2Proof.Machine.execTcopym o s
  | .slotret o => Sys2Proof.Machine.execSlotret o s
  | .gath o => Sys2Proof.Machine.execGath o s
  | .nbpush o => Sys2Proof.Machine.execNbpush o s
  | .nbpop o => Sys2Proof.Machine.execNbpop o s
  | .coll o => Sys2Proof.Machine.execColl o s
  | .cabort o => Sys2Proof.Machine.execCabort o s
  | .rngx o => Sys2Proof.Machine.execRngx o s
  | .rngu o => Sys2Proof.Machine.execRngu o s
  | .grid o => Sys2Proof.Machine.execGrid o s
  | .gwait o => Sys2Proof.Machine.execGwait o s
  | .mbxrd o => Sys2Proof.Machine.execMbxrd o s
  | .mbxwr o => Sys2Proof.Machine.execMbxwr o s
  | .seqopen o => Sys2Proof.Machine.execSeqopen o s
  | .seqbind o => Sys2Proof.Machine.execSeqbind o s
  | .seqend o => Sys2Proof.Machine.execSeqend o s
  | .hnote o => Sys2Proof.Machine.execHnote o s
  | .wstate o => Sys2Proof.Machine.execWstate o s
  | .wresume o => Sys2Proof.Machine.execWresume o s
  | .wkill o => Sys2Proof.Machine.execWkill o s
  | .tlbi o => Sys2Proof.Machine.execTlbi o s
  | .eret o => Sys2Proof.Machine.execEret o s
  | .unassignedOpcode => Sys2Proof.Machine.execUnassignedOpcode s
  | .fetchFault protect => Sys2Proof.Machine.execFetchFault protect s
  | .runResultsReturned w => Sys2Proof.Machine.execRunResultsReturned w s
  | .runCounterLimit w => Sys2Proof.Machine.execRunCounterLimit w s
  | .waitConditionMet w => Sys2Proof.Machine.execWaitConditionMet w s
  | .mwaitSatisfied w lane => Sys2Proof.Machine.execMwaitSatisfied w lane s
  | .presenceSet blk line => Sys2Proof.Machine.execPresenceSet blk line s
  | .watchdog w => Sys2Proof.Machine.execWatchdog w s
  | .deferredFault op => Sys2Proof.Machine.execDeferredFault op s
  | .faultPostWaiting world => Sys2Proof.Machine.execFaultPostWaiting world s
  | .mloopStep op => Sys2Proof.Machine.execMloopStep op s
  | .mloopComplete op => Sys2Proof.Machine.execMloopComplete op s
  | .epiComplete op => Sys2Proof.Machine.execEpiComplete op s
  | .copyComplete op => Sys2Proof.Machine.execCopyComplete op s
  | .aonVersionRetry op => Sys2Proof.Machine.execAonVersionRetry op s
  | .tcopyVerRetry op => Sys2Proof.Machine.execTcopyVerRetry op s
  | .streamReadAhead blk eng => Sys2Proof.Machine.execStreamReadAhead blk eng s
  | .streamStorePerform blk eng => Sys2Proof.Machine.execStreamStorePerform blk eng s
  | .push sub => Sys2Proof.Machine.execPush sub s
  | .peerAccessArrival acc => Sys2Proof.Machine.execPeerAccessArrival acc s
  | .blockRetire blk => Sys2Proof.Machine.execBlockRetire blk s
  | .gridComplete grid => Sys2Proof.Machine.execGridComplete grid s
  | .waitStampSatisfied grid k => Sys2Proof.Machine.execWaitStampSatisfied grid k s
  | .firmwarePlace world recs => Sys2Proof.Machine.execFirmwarePlace world recs s
  | .queueHeadBlock world grid => Sys2Proof.Machine.execQueueHeadBlock world grid s
  | .bindValidSet die idx => Sys2Proof.Machine.execBindValidSet die idx s
  | .dispatchReserve die idx => Sys2Proof.Machine.execDispatchReserve die idx s
  | .bindGateClear recs => Sys2Proof.Machine.execBindGateClear recs s
  | .gangStart die idx => Sys2Proof.Machine.execGangStart die idx s
  | .bindValidClear die idx => Sys2Proof.Machine.execBindValidClear die idx s
  | .bindEvict recs saves => Sys2Proof.Machine.execBindEvict recs saves s
  | .saveComplete die idx => Sys2Proof.Machine.execSaveComplete die idx s
  | .shadowStart die idx => Sys2Proof.Machine.execShadowStart die idx s
  | .feedRecordAvailable w => Sys2Proof.Machine.execFeedRecordAvailable w s
  | .feedExtentTaken w => Sys2Proof.Machine.execFeedExtentTaken w s
  | .fettlerCompare gang warp seg => Sys2Proof.Machine.execFettlerCompare gang warp seg s
  | .arbiterStart gang w => Sys2Proof.Machine.execArbiterStart gang w s
  | .pour gang => Sys2Proof.Machine.execPour gang s
  | .ladleWayFreed w => Sys2Proof.Machine.execLadleWayFreed w s
  | .seqendRetire world slot => Sys2Proof.Machine.execSeqendRetire world slot s
  | .collPacket world group attempt rank sig data => Sys2Proof.Machine.execCollPacket world group attempt rank sig data s
  | .collComplete op => Sys2Proof.Machine.execCollComplete op s
  | .collTimeout op => Sys2Proof.Machine.execCollTimeout op s
  | .abortToken world group attempt => Sys2Proof.Machine.execAbortToken world group attempt s
  | .cabortUnreachable world group rank => Sys2Proof.Machine.execCabortUnreachable world group rank s
  | .tableWalk die world asid core off => Sys2Proof.Machine.execTableWalk die world asid core off s
  | .contextEnd world asid cause => Sys2Proof.Machine.execContextEnd world asid cause s
  | .pageEvict world k => Sys2Proof.Machine.execPageEvict world k s
  | .pageReturn world k => Sys2Proof.Machine.execPageReturn world k s
  | .pageMigrate world k => Sys2Proof.Machine.execPageMigrate world k s
  | .pageClearcnt world k => Sys2Proof.Machine.execPageClearcnt world k s
  | .pagingComplete world k => Sys2Proof.Machine.execPagingComplete world k s
  | .delayedNotification world => Sys2Proof.Machine.execDelayedNotification world s
  | .hostWrite fn off bytes => Sys2Proof.Machine.execHostWrite fn off bytes s
  | .msixUnmask world vec => Sys2Proof.Machine.execMsixUnmask world vec s
  | .worldAssign m world mask port regs => Sys2Proof.Machine.execWorldAssign m world mask port regs s
  | .worldRelease m world regs => Sys2Proof.Machine.execWorldRelease m world regs s
  | .worldStart m world img len hdr ch => Sys2Proof.Machine.execWorldStart m world img len hdr ch s
  | .worldReset m world => Sys2Proof.Machine.execWorldReset m world s
  | .worldStatus m code => Sys2Proof.Machine.execWorldStatus m code s
  | .heatRead m world off => Sys2Proof.Machine.execHeatRead m world off s
  | .crashlogRead m world off => Sys2Proof.Machine.execCrashlogRead m world off s
  | .setcfg m world hi lo => Sys2Proof.Machine.execSetcfg m world hi lo s
  | .worldStop world cause => Sys2Proof.Machine.execWorldStop world cause s
  | .dlatchLatchChange die world => Sys2Proof.Machine.execDlatchLatchChange die world s
  | .scrubComplete die => Sys2Proof.Machine.execScrubComplete die s
  | .dlatchHoldClear die => Sys2Proof.Machine.execDlatchHoldClear die s
  | .corestatFenceClear die core => Sys2Proof.Machine.execCorestatFenceClear die core s
  | .secalmRaise die det level => Sys2Proof.Machine.execSecalmRaise die det level s
  | .secalmTripClear die bits => Sys2Proof.Machine.execSecalmTripClear die bits s
  | .heartbeatBeat world beat inStream => Sys2Proof.Machine.execHeartbeatBeat world beat inStream s
  | .heartbeatTimeout world => Sys2Proof.Machine.execHeartbeatTimeout world s
  | .registerWrite reg val => Sys2Proof.Machine.execRegisterWrite reg val s
  | .detectorTrip die det => Sys2Proof.Machine.execDetectorTrip die det s
  | .hbmUncorrectable die pa => Sys2Proof.Machine.execHbmUncorrectable die pa s
  | .dirtyLineError die slice set way pa => Sys2Proof.Machine.execDirtyLineError die slice set way pa s
  | .sramUncorrectable place => Sys2Proof.Machine.execSramUncorrectable place s
  | .frameRetire die frame cause spare => Sys2Proof.Machine.execFrameRetire die frame cause spare s
  | .patrolScrub die => Sys2Proof.Machine.execPatrolScrub die s
  | .demeritDecay die core => Sys2Proof.Machine.execDemeritDecay die core s
  | .ageingMeasure cluster count => Sys2Proof.Machine.execAgeingMeasure cluster count s
  | .flitReplay link => Sys2Proof.Machine.execFlitReplay link s
  | .linkDown link => Sys2Proof.Machine.execLinkDown link s
  | .routerWatchdog die => Sys2Proof.Machine.execRouterWatchdog die s
  | .ulitebyPacket p => Sys2Proof.Machine.execUlitebyPacket p s
  | .epochAdvance port => Sys2Proof.Machine.execEpochAdvance port s
  | .hostTlp fn stream off acc => Sys2Proof.Machine.execHostTlp fn stream off acc s
  | .ptpMessage act => Sys2Proof.Machine.execPtpMessage act s
  | .getCertificate slot => Sys2Proof.Machine.execGetCertificate slot s
  | .challenge nonce => Sys2Proof.Machine.execChallenge nonce s
  | .getMeasurements index signed => Sys2Proof.Machine.execGetMeasurements index signed s
  | .keyExchange world => Sys2Proof.Machine.execKeyExchange world s
  | .ideKm world stream port => Sys2Proof.Machine.execIdeKm world stream port s
  | .domainSecretInstall secret node => Sys2Proof.Machine.execDomainSecretInstall secret node s
  | .coldBoot find => Sys2Proof.Machine.execColdBoot find s
  | .detectorReadsNormal die det => Sys2Proof.Machine.execDetectorReadsNormal die det s

end Sys2Proof.Machine
end

