-- ==== Sys2Proof/Machine/Turn.lean ====
section
/-!
DEFINITION. Whose turn a step takes (R31; log entry 2), and the instruction or event it runs.
-/
namespace Sys2Proof.Machine

/-- The instruction a warp's turn runs: what its fetch finds, or the event that a warp which does not issue waits for.
The state is the one in which it runs; what its fetch finds in place of an instruction is found there again, by the same fetch. -/
def warpTurn (w : Nat) (s : State) : Instr × State :=
  let c := (s.warp w).ctl
  match c.status with
  | .ready =>
    if c.runCnt.val = 16 then (.runCounterLimit w, s)
    else
      let u := (Upd.cur w).apply s
      match (fetch w).run u with
      | (.instr i, t) => (i, t)
      | (.illop _, _) => (.unassignedOpcode, u)
      | (.trap k _, _) => (.fetchFault (k == .protect), u)
  | .parked _ => (.runResultsReturned w, s)
  | _ => (.waitConditionMet w, s)

/-- The ready warps, with the turn since which each is ready. -/
def readyWarps (s : State) : Tab Nat :=
  (s.warps.filter fun e => isReady s e.1 e.2.ctl).map fun e => (e.1, match s.readyAt.find? fun x => x.1 == e.1 with
    | some x => x.2
    | none => s.seqNo)

/-- The warp served longest ago among those that could go on. -/
def nextWarp (s : State) : Option Nat :=
  leastOf (s.warps.filterMap fun e => match e.2.ctl.status, (s.runOf (runOfWarp e.1)).st with
    | .ready, .resident | .parked _, .resident | .waiting _, .resident => some (e.1, s.served.get 0 e.1)
    | _, _ => none)

/-- The turn of a warp. One that R31 holds back leaves it to the warp that must issue first. -/
def turnOf (w : Nat) (s : State) : Instr × State :=
  if isReady s w (s.warp w).ctl && decide ((s.warp w).ctl.runCnt.val < 16) then warpTurn ((heldBack s w).getD w) s else warpTurn w s

/-- What only a warp's turn runs: an instruction, or what its fetch finds in its place. -/
def issues (i : Instr) : Bool :=
  match i with
  | .unassignedOpcode | .fetchFault _ => true
  | i => i.hd.isSome

/-- Events of an engine operation. -/
def opEvents (k : Nat) (o : Op) : List Instr :=
  match o.kind with
  | .mloop _ => [.mloopStep k, .mloopComplete k, .deferredFault k]
  | .epi _ => [.epiComplete k, .deferredFault k]
  | .coll _ => [.collComplete k, .collTimeout k, .deferredFault k]
  | .store .. => [.aonVersionRetry k, .copyComplete k, .deferredFault k]
  | .copy .. => [.tcopyVerRetry k, .copyComplete k, .deferredFault k]
  | .mcast .. => [.copyComplete k, .deferredFault k]
  | .gath .. | .elem .. => [.copyComplete k, .deferredFault k]

def blockEvents (k : Nat) (b : Block) : List Instr :=
  List.append (b.streams.flatMap fun x => [.streamReadAhead k x.1, .streamStorePerform k x.1])
    (List.append (b.unset.map fun l => .presenceSet k l.1) [.blockRetire k])

def gangEvents (k : Nat) (g : Gang) : List Instr :=
  if g.checked then .pour k :: .fettlerCompare k 0 0 :: g.segs.map fun x => .fettlerCompare k x.warp x.seg else []

def gridEvents (k : Nat) : List Instr :=
  [.gridComplete k, .waitStampSatisfied k 0, .waitStampSatisfied k 1, .waitStampSatisfied k 2, .waitStampSatisfied k 3]

def bindEvents (d k : Nat) : List Instr := [.bindValidSet d k, .dispatchReserve d k, .gangStart d k, .shadowStart d k, .saveComplete d k]

def worldEvents (k : Nat) (w : World) : List Instr :=
  .faultPostWaiting k :: .delayedNotification k ::
    List.append (w.seqEnds.map fun x => .seqendRetire k x.slot) (w.cmds.map fun x => .pagingComplete k x.k)

def warpEvents (k : Nat) (w : Warp) : List Instr :=
  match w.ctl.status with
  | .waiting (.mwait addrs _ _) => .watchdog k :: .feedRecordAvailable k :: addrs.map fun e => .mwaitSatisfied k e.1
  | .waiting _ => [.watchdog k, .feedRecordAvailable k, .feedExtentTaken k, .ladleWayFreed k]
  | .faulted => [.feedRecordAvailable k]
  | _ => []

/-- Events the device makes by itself, for the policy without a schedule. -/
def ownEvents (s : State) : List Instr :=
  List.flatten
    [ s.ops.flatMap fun e => opEvents e.1 e.2,
      s.subs.map fun e => Instr.push e.1,
      s.blocks.flatMap fun e => blockEvents e.1 e.2,
      s.gangs.flatMap fun e => gangEvents e.1 e.2,
      s.grids.flatMap fun e => gridEvents e.1,
      s.dies.flatMap fun d => d.2.binds.flatMap fun b => bindEvents d.1 b.1,
      s.worlds.flatMap fun e => worldEvents e.1 e.2,
      s.warps.flatMap fun e => warpEvents e.1 e.2 ]

/-- Time and the turn count move on, and the warps that are ready are noted. -/
def tick (s : State) : State :=
  let s := { s with time := s.time + 1, seqNo := s.seqNo + 1 }
  { s with readyAt := readyWarps s }

/-- Whose turn it is: the schedule's head (where it names an instruction, the turn is that of the warp served last, which issues
in its order, R31), or the machine's policy: on even turns the warp served longest ago, on odd
turns the device's events in rotation. A step with nothing to do runs an event that changes nothing more. -/
def nextInstr (s : State) : Instr × State :=
  let s := tick s
  match s.turns with
  | .event i :: t => if issues i then turnOf s.cur { s with turns := t } else (i, { s with turns := t })
  | .warp w :: t => turnOf w { s with turns := t }
  | [] =>
    let evs := ownEvents s
    match nextWarp s with
    | some w =>
      if s.seqNo % 2 = 1 ∧ ¬evs.isEmpty then ((evs[s.seqNo / 2 % evs.length]?).getD (.runResultsReturned w), s)
      else turnOf w { s with served := s.served.put w s.seqNo }
    | none => ((evs[s.seqNo / 2 % evs.length]?).getD (.faultPostWaiting 0), s)

end Sys2Proof.Machine
end

