-- ==== Sys2Proof/Machine/Step.lean ====
section
/-!
DEFINITION. One step: a turn of the time base, and one instruction or event (log entry 2). The schedule's head is taken
first; without a schedule the machine's own policy picks a warp or an event.
-/
namespace Sys2Proof.Machine

/-- One step: exec of the instruction or event whose turn it is. -/
def step (s : State) : Host.Outcome State Fault Refusal :=
  let p := nextInstr s
  exec p.1 p.2

/-- The state with an instruction stored where step fetches its next instruction (log entry 10). -/
def State.withFetchWord (s : State) (nbits w : Nat) : State := placeWord s nbits w

end Sys2Proof.Machine
end

