-- ==== Sys2Proof/Safety.lean ====
section
/-!
DEFINITION. The terms the statements use: what every step keeps, when an instruction can issue, and what its completing
leaves.
-/
namespace Sys2Proof.Machine

/-- Memory is in its canonical form: addresses strictly rising, no listed byte equal to what an unlisted one reads as. -/
abbrev Memory.wf (m : List Host.Cell) : Prop := Tab.wf (0 : Byte) m = true

/-- Every step from a state answers a next state: it neither faults nor is refused. -/
def Safe (s : State) : Prop := ∃ t, step s = .next t

/-! ### What every step keeps -/

/-- A warp's registers: each table in its canonical form, masks and predicates within the W lanes (R51), FPCR legal
(R52, R57). -/
def WRegs.ok (r : WRegs) : Bool :=
  Tab.wf 0 r.v && Tab.wf 0 r.s && Tab.wf 0 r.p && Tab.wf 0 r.m && Tab.wf 0 r.fpsr
    && r.p.all (fun e => e.2 &&& ~~~Config.laneMask == 0) && r.m.all (fun e => e.2 &&& ~~~Config.laneMask == 0)
    && fpcrOk r.fpcr

/-- A warp: its registers, and a stack of at most 1,024 entries (R35). -/
def Warp.ok (x : Warp) : Bool := x.regs.ok && decide (x.stack.length ≤ 1024)

/-- What every step keeps: memory and the line tags in canonical form, every table of records with rising keys, and every
warp's registers and stack as the rules say, every scratchpad in canonical form. -/
def State.Inv (s : State) : Bool :=
  Tab.wf (0 : Byte) s.mem && Tab.wf {} s.tags && Tab.sortedFrom 0 s.oldCode && Tab.sortedFrom 0 s.warps
    && Tab.sortedFrom 0 s.blocks && Tab.sortedFrom 0 s.runs && Tab.sortedFrom 0 s.gangs && Tab.sortedFrom 0 s.grids
    && Tab.sortedFrom 0 s.worlds && Tab.sortedFrom 0 s.dies && Tab.sortedFrom 0 s.rings && Tab.sortedFrom 0 s.ops
    && Tab.sortedFrom 0 s.subs && Tab.sortedFrom 0 s.msgs && s.warps.all (fun e => e.2.ok)
    && s.blocks.all fun e => Tab.wf 0 e.2.spad

/-! ### Issue and completion -/

/-- The running warp can issue `i`: it is ready and its run has room (R39, R55), its block is resident (R380), every check
of R201 passes, its gang is unchecked (the redundancy of R160 adds folds and logs, stated apart), no deferred fault waits
(R302), and no register the run has written is read unseen (R194). -/
structure CanIssue (i : Instr) (s : State) : Prop where
  ready : (s.warp s.cur).ctl.status = .ready
  room : (s.warp s.cur).ctl.runCnt.val < 16
  resident : (s.runOf (runOfWarp s.cur)).st = .resident
  checks : issueCheck s s.cur i = none
  unchecked : s.checkedWarp s.cur = false
  noneHeld : (s.warp s.cur).ctl.held = []
  seen : ∀ e ∈ (s.warp s.cur).ctl.runOld, readsHidden i e.1 = false

/-- `i` has issued and the warp goes on at `pc` with status `st`; the rest of its control state is `c`, but for the run's
bookkeeping (R55, R192). Every other warp is as it was. -/
structure IssuedAs (i : Instr) (s t : State) (pc : DWord) (st : WStatus) (c : Ctl) : Prop where
  others : ∀ w, w ≠ s.cur → t.warp w = s.warp w
  pc : (t.warp s.cur).ctl.pc = pc
  status : (t.warp s.cur).ctl.status = st
  runCnt : (t.warp s.cur).ctl.runCnt.val = if marked i then 0 else (s.warp s.cur).ctl.runCnt.val + 1
  issued : (t.warp s.cur).ctl.issued = (s.warp s.cur).ctl.issued + 1
  ctl : let x := (t.warp s.cur).ctl
    x = { c with
          pc := x.pc, status := x.status, runCnt := x.runCnt, issued := x.issued, runLog := x.runLog, runOld := x.runOld,
          contPc := x.contPc, retry := none, poured := 0, arrived := none, mwDone := 0, mwWords := [],
          waitFrom := x.waitFrom, lastIssue := x.lastIssue }

/-- The state in which an instruction's effect runs: what its run has noted of overwritten registers (R194). -/
def noted (i : Instr) (s : State) : State := ((noteRun s.cur i).run s).2

/-- The control state of the running warp. -/
abbrev State.ctlOf (s : State) : Ctl := (s.warp s.cur).ctl

/-- The status after an instruction that goes on: parked at its marker until the run's results are in, or ready
(R192). -/
def goesOn (i : Instr) : WStatus := if marked i then .parked .results else .ready

/-- A view knows all that another knows (R138). -/
def View.covers (v u : View) : Prop := ∀ agent turn, u.knows agent turn = true → v.knows agent turn = true

/-- Nothing but warps changed: no byte of memory, no record of the machine. -/
def OnlyWarps (s t : State) : Prop := t = { s with warps := t.warps }

/-- Only cached copies changed, free values were taken, and the warps are stated apart. -/
def ReadOnlyApart (s t : State) : Prop := t = { s with warps := t.warps, l1 := t.l1, reps := t.reps, free := t.free }

/-- Reading changed nothing but cached copies and what the running warp knows to have read (R99, R135, R151). -/
structure ReadOnly (s t : State) : Prop where
  rest : ReadOnlyApart s t
  others : ∀ w, w ≠ s.cur → t.warp w = s.warp w
  mine : t.warp s.cur =
    { s.warp s.cur with ctl := { s.ctlOf with view := (t.warp s.cur).ctl.view, acq := (t.warp s.cur).ctl.acq } }

/-- `i` has completed at the next sequential address (R185), its control state `c` but for the run's bookkeeping: nothing
changed outside the running warp, nor its stack. -/
structure CompletesAs (i : Instr) (s t : State) (c : Ctl) : Prop where
  issue : IssuedAs i s t (nextPc (s.warp s.cur).ctl.pc i) (goesOn i) c
  stack : (t.warp s.cur).stack = (s.warp s.cur).stack
  rest : OnlyWarps s t

/-- The same with no other control state changed: registers apart, only the issue's bookkeeping. -/
abbrev Completes (i : Instr) (s t : State) : Prop := CompletesAs i s t (s.warp s.cur).ctl

/-- The control state `c` with what the warp knows to happen before, and what its strong reads found, as `x` has them (R138,
R140). -/
def Ctl.knowing (c x : Ctl) : Ctl := { c with view := x.view, obs := x.obs }

/-- The control state after an acquire at a scope (R99), but for what it orders. -/
def acquired (s : State) (sc : Scope) : Ctl := { s.ctlOf with acq := if 4 ≤ sc.code then s.seqNo + 1 else s.ctlOf.acq }

/-- `exec i s` answers a next state in which `P` holds. -/
def Yields (i : Instr) (s : State) (P : State → Prop) : Prop := ∃ t, exec i s = .next t ∧ P t

/-- Control goes to `pc` with active mask `m` and stack `stk`, the lanes `ex` exited; no other register and nothing outside
the warp changed (R33, R35). -/
structure Goes (i : Instr) (s t : State) (pc : DWord) (m : Mask) (stk : List StackEntry) (ex : Mask) : Prop where
  issue : IssuedAs i s t pc (goesOn i) { s.ctlOf with exitedLanes := ex }
  stack : (t.warp s.cur).stack = stk
  regs : (t.warp s.cur).regs = { (s.warp s.cur).regs with m := (t.warp s.cur).regs.m }
  masks : ∀ n, t.mreg s.cur n = if n = 0 then m else s.mreg s.cur n
  rest : OnlyWarps s t

/-- The warp has exited: every launched lane has (R38). -/
structure Exits (s t : State) : Prop where
  status : (t.warp s.cur).ctl.status = .exited
  lanes : (t.warp s.cur).ctl.exitedLanes = (s.warp s.cur).ctl.launched
  others : ∀ w, w ≠ s.cur → (t.warp w).regs = (s.warp w).regs ∧ (t.warp w).stack = (s.warp w).stack
  memory : t.mem = s.mem

/-- Where a pop of R38 leads: the first entry with lanes, by its kind; with none the warp has exited. -/
def PopsTo (i : Instr) (s : State) (stk : List StackEntry) (ex : Mask) : Prop :=
  match stk.dropWhile fun e => e.mask == 0 with
  | [] => Yields i s fun t => Exits s t
  | e :: r => Yields i s fun t =>
    Goes i s t (match e.kind with | .join => skip28 (e.addr + 8) | _ => e.addr) (e.mask &&& Config.laneMask) r ex



/-- The registers of the running warp. -/
abbrev State.regsOf (s : State) : WRegs := (s.warp s.cur).regs

/-! ### What an instruction's result changes in the registers -/

/-- Registers of the running warp: only S[d] changed, to `x` (R222). -/
def SWrites (s t : State) (d : SReg) (x : DWord) : Prop :=
  t.regsOf = { s.regsOf with s := t.regsOf.s } ∧
    ∀ r, t.sreg s.cur r = if r = d.val then x else s.sreg s.cur r

/-- Registers of the running warp: only the `words` registers from V[d] on changed, in the lanes of `on`, to the words of
`val`, least significant first (R33, R48). -/
def VWrites (s t : State) (d words : Nat) (on : Mask) (val : Nat → Nat) : Prop :=
  t.regsOf = { s.regsOf with v := t.regsOf.v } ∧
    ∀ r l, l < 128 → t.vreg s.cur r l =
      if l < Config.W ∧ on.getLsbD l = true ∧ d ≤ r ∧ r < d + words then BitVec.ofNat 32 (val l / 2 ^ (32 * (r - d)))
      else s.vreg s.cur r l

/-- Registers of the running warp: only P[d] changed, in the lanes of `on`, to `val`; pt discards the result (R50). -/
def PWrites (s t : State) (d : PReg) (on : Mask) (val : Nat → Bool) : Prop :=
  t.regsOf = { s.regsOf with p := t.regsOf.p } ∧
    ∀ n l, l < Config.W → (t.regsOf.p.get 0 n).getLsbD l =
      if n = d.val ∧ d.val ≠ 15 ∧ on.getLsbD l = true then val l else (s.regsOf.p.get 0 n).getLsbD l

/-- Registers of the running warp: only the mask register M[d] changed, to `x` (R51). -/
def MWrites (s t : State) (d : Nat) (x : Mask) : Prop :=
  t.regsOf = { s.regsOf with m := t.regsOf.m } ∧
    ∀ n, t.mreg s.cur n = if n = d then x else s.mreg s.cur n

/-- EXECUTES ONCE AND WRITES S[d] (R191, R222): from every state in which the instruction can issue and its predicate is
true in the lowest lane of m0, it completes with S[d] = `x` and no other register changed. -/
def UResult (i : Instr) (h : Hd) (d : SReg) (x : State → DWord) : Prop :=
  ∀ s, s.Inv = true → CanIssue i s → uniformOn s s.cur h = true →
    Yields i s fun t => Completes i s t ∧ SWrites s t d (x s)

/-- WRITES A PREDICATE (R50): the same for a predicate destination, in the lanes of `on`. -/
def PResult (i : Instr) (d : PReg) (on : State → Mask) (val : State → Nat → Bool) : Prop :=
  ∀ s, s.Inv = true → CanIssue i s → i.qRefs = [] →
    Yields i s fun t => Completes i s t ∧ PWrites s t d (on s) (val s)

/-- What a write of `v` to mask register `d` leaves: m0 takes the live lanes of it (R51). -/
def maskNew (s : State) (d : MReg) (v : Mask) : Mask :=
  if d.val = 0 then v &&& (s.warp s.cur).ctl.live &&& Config.laneMask else v &&& Config.laneMask

/-- A precise fault is taken at the running warp's instruction in state `u`: the record is written, the warp parks, and the
entry is posted (R60, R393). -/
def Faults (i : Instr) (s u : State) (f : FaultInfo) : Prop := exec i s = .next ((takeFault s.cur f).run u).2

/-- WRITES A MASK (R51, R227): it completes with M[d] = `maskNew`; a write that would leave m0 zero raises DIVERGE with
sub-reason 6 and m0 is unchanged. -/
def MResult (i : Instr) (on : State → Bool) (d : MReg) (v : State → Mask) : Prop :=
  ∀ s, s.Inv = true → CanIssue i s → i.qRefs = [] → on s = true →
    (if d.val = 0 ∧ maskNew s d (v s) = 0
     then ∃ u, u.regsOf = s.regsOf ∧ OnlyWarps s u ∧ Faults i s u { cause := .diverge, faddr := 6 }
     else Yields i s fun t => Completes i s t ∧ MWrites s t d.val (maskNew s d (v s)))

/-- FPEXC (R63, R72): where some of the lanes `on` would raise an enabled flag, the instruction raises FPEXC with the enabled
flags in FADDR and those lanes in FLANES, no register and no FPSR changed. -/
def Traps (i : Instr) (s : State) (on : Nat → Prop) (fl : Nat → Fl) : Prop :=
  (∃ l, on l ∧ trapBits (s.fpcr s.cur) (fl l) ≠ 0) →
    ∃ u f m, u.regsOf = s.regsOf ∧ OnlyWarps s u ∧ Faults i s u f ∧ f.cause = .fpexc ∧ f.lanes = some m ∧
      (∀ l, l < Config.W → (m.getLsbD l = true ↔ on l ∧ trapBits (s.fpcr s.cur) (fl l) ≠ 0)) ∧
      (∀ k, k < 64 → (f.faddr.getLsbD k = true ↔ ∃ l, on l ∧ (trapBits (s.fpcr s.cur) (fl l)).testBit k = true))

/-- A FLOATING-POINT RESULT (R63, R72, R244): where no lane with effect would raise an enabled flag, the instruction
completes, writes each lane with effect, and merges the flags into its FPSR; where some lane would, it raises FPEXC. -/
def FPlain (i : Instr) (h : Hd) (d : VOp) (words : Nat) (res : State → Nat → Nat × Fl) : Prop :=
  ∀ s (n : VReg), s.Inv = true → CanIssue i s → i.qRefs = [] → d = .v n →
    let on (l : Nat) : Prop := l < Config.W ∧ (effMask s s.cur h).getLsbD l = true
    ((∀ l, on l → trapBits (s.fpcr s.cur) (res s l).2 = 0) →
      Yields i s fun t => Completes i s t ∧ t.regsOf = { s.regsOf with v := t.regsOf.v, fpsr := t.regsOf.fpsr } ∧
        (∀ r l, l < Config.W → t.vreg s.cur r l =
          if (effMask s s.cur h).getLsbD l = true ∧ n.val ≤ r ∧ r < n.val + words
          then BitVec.ofNat 32 ((res s l).1 / 2 ^ (32 * (r - n.val))) else s.vreg s.cur r l) ∧
        (∀ l, l < Config.W → t.fpsr s.cur l =
          if (effMask s s.cur h).getLsbD l = true then s.fpsr s.cur l ||| (res s l).2 else s.fpsr s.cur l)) ∧
    Traps i s on fun l => (res s l).2

/-- The exact value of a finite encoding, times 2^1200; 0 for the others. -/
def fExact (t : FT) (x : Nat) : Int :=
  match fVal t x with
  | .fin n m e => signedMag n m * 2 ^ (e + 1200).toNat
  | _ => 0

/-- An encoding of the format that is a finite number. -/
def fFinite (t : FT) (x : Nat) : Prop := x < 2 ^ fWidth t ∧ ∃ n m e, fVal t x = .fin n m e

/-- The tree of R90 over 2^k lanes from lane b on, and the scan of R91 at lane l; an absent operand contributes nothing. -/
def joinOpt (f : Nat → Nat → Nat) (a b : Option Nat) : Option Nat :=
  match a, b with | some x, some y => some (f x y) | some x, none => some x | none, y => y
def treeOf (f : Nat → Nat → Nat) (x : Nat → Option Nat) : Nat → Nat → Option Nat
  | 0, b => x b
  | k + 1, b => joinOpt f (treeOf f x k b) (treeOf f x k (b + 2 ^ k))
def scanOf (f : Nat → Nat → Nat) (x : Nat → Option Nat) : Nat → Nat → Option Nat
  | 0, l => x l
  | k + 1, l => if 2 ^ k ≤ l then joinOpt f (scanOf f x k (l - 2 ^ k)) (scanOf f x k l) else scanOf f x k l

/-- The flags of the combinations that a lane performs (R90, R91, R268): with the lane a power of two below it in a scan, above it
in a tree. -/
def combFl (op : RdxOp) (fpcr : Word) (scan : Bool) (x : Nat → Option Nat) (l : Nat) : Fl :=
  let f (a b : Nat) : Nat := (rdxComb op fpcr a b).1
  let at_ (k : Nat) : Option Nat × Option Nat :=
    if scan then (if 2 ^ k ≤ l then (scanOf f x k (l - 2 ^ k), scanOf f x k l) else (none, none))
    else if l % 2 ^ (k + 1) = 0 then (treeOf f x k l, treeOf f x k (l + 2 ^ k)) else (none, none)
  (List.range 5).foldl (fun a k => a ||| match at_ k with | (some p, some q) => (rdxComb op fpcr p q).2 | _ => 0) 0

/-- The flags a lane of m0 receives: of what it performs, and the lowest lane of what lanes outside m0 perform (R268). -/
def rdxFl (op : RdxOp) (fpcr : Word) (scan : Bool) (x : Nat → Option Nat) (m0 : Mask) (l : Nat) : Fl :=
  (List.range 32).foldl (fun a k =>
    if (if m0.getLsbD k then k else (lowest m0).getD 0) = l then a ||| combFl op fpcr scan x k else a) 0

/-- The bits of an instruction from its fields (R184 to R188): length code, marker, predicate field, opcode, class, dst, a,
b, c, mod, and the bits from 64 up. -/
def wordOf (len mark pred opc cls dst a b c mod ext : Nat) : Nat :=
  len + mark * 2 ^ 2 + pred * 2 ^ 3 + opc * 2 ^ 8 + cls * 2 ^ 18 + dst * 2 ^ 21 + a * 2 ^ 30 + b * 2 ^ 39 + c * 2 ^ 48
    + mod * 2 ^ 57 + ext * 2 ^ 64

/-! ### Effects outside the running warp -/

/-- Only warps and the record of block `k` changed; it is `x` now. -/
structure BlockTo (s t : State) (k : Nat) (x : Block) : Prop where
  rest : t = { s with warps := t.warps, blocks := t.blocks }
  blocks : ∀ b, t.block b = if b = k then x else s.block b

/-- The running warp's instruction has issued, its control state `c` but for the run's bookkeeping, its registers and stack
as they were. -/
structure IssuedKeep (i : Instr) (s t : State) (c : Ctl) : Prop where
  issue : IssuedAs i s t (nextPc (s.warp s.cur).ctl.pc i) (goesOn i) c
  stack : (t.warp s.cur).stack = (s.warp s.cur).stack
  regs : t.regsOf = s.regsOf

/-- The running warp waits for `k` with its instruction not issued (R39), its control state `c` but for the wait's
bookkeeping. -/
structure WaitsFor (s t : State) (k : Wait) (c : Ctl) : Prop where
  status : (t.warp s.cur).ctl.status = .waiting k
  ctl : let x := (t.warp s.cur).ctl
    x = { c with status := x.status, waitFrom := x.waitFrom, lastIssue := x.lastIssue, runOld := x.runOld }
  stack : (t.warp s.cur).stack = (s.warp s.cur).stack
  regs : t.regsOf = s.regsOf
  others : ∀ w, w ≠ s.cur → t.warp w = s.warp w

/-- `n` non-exited warps. -/
def liveCount (s : State) (ws : List Nat) : Nat := (ws.filter fun w => (s.warp w).ctl.status != .exited).length

/-! ### Memory as an instruction meets it -/

/-- An aligned access of n bytes reaches offset `p.2` of block `p.1`'s scratchpad through a window (R94, R273), the line
present (R98). -/
structure SpadAt (s : State) (a : DWord) (n : Nat) (need : Need) (p : Nat × Nat) : Prop where
  aligned : a.toNat % n = 0
  window : inWindow a = true
  place : locWindow s (s.whoWarp s.cur) a n need = .ok (.spad p.1 p.2)
  present : absent s p.1 (p.2 / 128) = false

/-- The same place, its line present or not. -/
structure SpadFound (s : State) (a : DWord) (n : Nat) (need : Need) (p : Nat × Nat) : Prop where
  aligned : a.toNat % n = 0
  window : inWindow a = true
  place : locWindow s (s.whoWarp s.cur) a n need = .ok (.spad p.1 p.2)

/-- A byte of a block's scratchpad. -/
def State.spadByte (s : State) (b o : Nat) : Byte := (s.block b).spad.get 0 o
/-- The number n bytes of a scratchpad hold. -/
def State.spadNum (s : State) (p : Nat × Nat) (n : Nat) : Nat := leNat ((List.range n).map fun i => s.spadByte p.1 (p.2 + i))

/-- Byte k of a number, least significant first. -/
def byteOf (v k : Nat) : Byte := BitVec.ofNat 8 (v / 256 ^ k)

/-- Only warps and scratchpads with their race records changed, and free values were taken. -/
structure OnlySpads (s t : State) : Prop where
  rest : t = { s with warps := t.warps, blocks := t.blocks, free := t.free }
  blocks : ∀ b, t.block b = { s.block b with spad := (t.block b).spad, strongs := (t.block b).strongs }

/-- No strong write of another size races with a write of n bytes at a place (R137). -/
def NoRace (s : State) (p : Nat × Nat) (n : Nat) : Prop :=
  ∀ j e, p.2 ≤ j → j < p.2 + n → (s.block p.1).strongs.find? (fun e => e.1 == j) = some e →
    ∀ r ∈ e.2.strong, r.1 = n ∨ r.2.1 = s.cur ∨ s.ctlOf.view.knows r.2.1 r.2.2 = true

/-- The control state of the running warp after it has read scratchpad places, and acquired where `sc` says so: what it knows
to happen before may have grown, and every L1 line filled so far is missed later where it acquired at .gg or wider, as at a
standing-load entry that a push filled at that scope (R99, R133, R151). -/
def spadSeen (s t : State) (c : Ctl) (ps : List (Nat × Nat)) (sc : Option Scope) : Ctl :=
  let wide (c : Scope) : Bool := decide (4 ≤ c.code)
  let pushed (p : Nat × Nat) : Bool := match (s.block p.1).entMsgs.find? fun e => e.1 == p.2 / 128 with
    | some e => wide e.2.sc
    | none => false
  { c.knowing t.ctlOf with acq := if ps.any pushed || sc.any wide then s.seqNo + 1 else c.acq }

/-- An access reaches device memory at `x`: its die is latched to the world, its TLB answers, the permissions are there, and
the page's key is the current one (R101, R273, R357, R402). -/
structure HitAt (s : State) (a : DWord) (n : Nat) (rd wr : Bool) (x : Xl) : Prop where
  aligned : n ≠ 0 → a.toNat % n = 0
  window : inWindow a = false
  own : ownAddr s a = some (x.die, x.off)
  latched : s.latched x.die (s.worldOfWarp s.cur) = true
  entry : ∃ e, (s.die x.die).tlb.find? (fun e => e.hits (s.asidOfWarp s.cur) x.off) = some e ∧
    x = Xl.ofEntry x.die (s.asidOfWarp s.cur) x.off e.w0 e.w1 e.leaf e.level
  read : rd = true → bitAt x.w0 60 = true
  write : wr = true → bitAt x.w0 59 = true
  gen : x.gen = (slotGen s x.die x.slot).toNat

/-- A write would reach device memory at `x`, but for the page's key, which is no longer the current one (R105, R273). -/
structure StaleAt (s : State) (a : DWord) (x : Xl) : Prop where
  window : inWindow a = false
  own : ownAddr s a = some (x.die, x.off)
  latched : s.latched x.die (s.worldOfWarp s.cur) = true
  entry : ∃ e, (s.die x.die).tlb.find? (fun e => e.hits (s.asidOfWarp s.cur) x.off) = some e ∧
    x = Xl.ofEntry x.die (s.asidOfWarp s.cur) x.off e.w0 e.w1 e.leaf e.level
  write : bitAt x.w0 59 = true
  gen : x.gen ≠ (slotGen s x.die x.slot).toNat

/-- The line of `x` can be read, a path leads to its die, and the die counts no accesses (R2, R103, R414, R427). -/
structure Readable (s : State) (x : Xl) : Prop where
  here : x.past = false
  tag : tagOk (s.tags.get {} x.line) (x.want s) = true
  poison : (s.tags.get {} x.line).poison = false
  path : unreachable s (s.coreOfWarp s.cur) x.die = false
  uncounted : field (s.die x.die).trcfg 40 16 = 0

/-- Atomics of lanes one after another on bytes by block and offset (R281): the bytes after them, and each lane's old
value. -/
def atomSeq (op : AtomOp) (n : Nat) (place : Nat → Nat × Nat) (b c : Nat → Nat) :
    List Nat → (Nat → Nat → Byte) → (Nat → Nat → Byte) × List (Nat × Nat)
  | [], m => (m, [])
  | l :: t, m =>
    let p := place l
    let old := leNat ((List.range n).map fun i => m p.1 (p.2 + i))
    let r := atomSeq op n place b c t (match atomNew op old (b l) (c l) with
      | none => m
      | some x => fun k j => if k = p.1 ∧ p.2 ≤ j ∧ j < p.2 + n then byteOf x (j - p.2) else m k j)
    (r.1, (l, old) :: r.2)

/-- A new operation `k` of the running warp is in a queue of its block (R119). -/
def queued (s : State) (queue : Nat) (kind : OpKind) (lines : List Nat) : Op :=
  { blk := s.cur / 64, warp := s.cur, queue, fpc := s.ctlOf.pc, lanes := s.m0 s.cur, seg := s.ctlOf.seg, kind, lines,
    issuedAt := s.time, turn := s.seqNo, view := s.relView s.cur,
    before := s.ctlOf.away }

/-- The instruction, its descriptor read in state `u`, accepted the operation `x` and goes on; the scratchpad lines it will
write are absent (R98, R120), and no byte of memory or scratchpad changed. -/
structure Accepts (i : Instr) (s u t : State) (x : Op) : Prop where
  keep : IssuedKeep i s t u.ctlOf
  op : t.op s.seqNo = x
  ops : ∀ k, k ≠ s.seqNo → t.op k = s.op k
  absent : ∀ k ∈ x.lines, absent t (k / 2 ^ 20) (k % 2 ^ 20) = true
  mem : t.mem = s.mem
  spads : ∀ b, (t.block b).spad = (s.block b).spad

/-- Only warps and the ring of a core changed; it is `g` now. -/
structure RingTo (s t : State) (core : Nat) (g : Ring) : Prop where
  rest : t = { s with warps := t.warps, rings := t.rings }
  rings : ∀ c, t.ring c = if c = core then g else s.ring c

/-! ### Queue registers (R118, R296) -/

/-- The lanes with effect of an instruction. -/
abbrev State.onLanes (s : State) (h : Hd) : List Nat := lanesOf (effMask s s.cur h)

/-- A stream engine of the running warp's block. -/
abbrev State.engine (s : State) (e : Nat) : Stream := (s.block (s.cur / 64)).streams.get {} e

/-- The queue registers that the instruction names serve it, for n lanes that read and k that write: each use is one that R296
lists, and each engine read holds elements without a cause, enough for the lanes. -/
structure Fed (i : Instr) (s : State) (n k : Nat) : Prop where
  uses : ∀ x ∈ i.regs.v, qUseOk s s.cur x n k = true
  good : ∀ e ∈ qReads s s.cur i, ∀ x ∈ (s.engine e).ahead, ∃ v, x = .val v
  enough : ∀ e ∈ qReads s s.cur i, n ≤ (s.engine e).ahead.length

/-- The state as one of the lanes `ls` finds it: its own element is the next of every engine, in increasing lane order (R296). -/
def State.lane (s : State) (ls : List Nat) (l : Nat) : State :=
  let b := s.block (s.cur / 64)
  let mine (x : Stream) : Stream := { x with ahead := x.ahead.drop (rankOf ls l) }
  let b' : Block := { b with streams := b.streams.map fun e => (e.1, mine e.2) }
  { s with blocks := s.blocks.put (s.cur / 64) b' }

/-- Outside the warps only engines of the running warp's block changed, and free values were taken; the engines are as `f` gives
them now. -/
structure Engines (s t : State) (f : Nat → Stream) : Prop where
  rest : t = { s with warps := t.warps, blocks := t.blocks, free := t.free }
  others : ∀ b, b ≠ s.cur / 64 → t.block b = s.block b
  mine : t.block (s.cur / 64) = { s.block (s.cur / 64) with streams := (t.block (s.cur / 64)).streams }
  engines : ∀ e, t.engine e = f e

/-- An engine after n lanes have taken their elements from each that the instruction reads. -/
def took (i : Instr) (s : State) (n e : Nat) : Stream :=
  if e ∈ qReads s s.cur i then { s.engine e with ahead := (s.engine e).ahead.drop n, pos := (s.engine e).pos + n } else s.engine e

/-- The instruction took the elements of n lanes, and pushed nothing. -/
abbrev Took (i : Instr) (s t : State) (n : Nat) : Prop := Engines s t (took i s n)

/-- It took elements of the lanes `ls`, and pushed the value of each lane of `dst` to engine `e`, whose queue was empty. -/
def Pushed (i : Instr) (s t : State) (n e : Nat) (dst : List Nat) (val : Nat → Nat) : Prop :=
  let b := s.engine e
  ∃ p : List PushedElem, Engines s t (fun k => if k = e then { b with pos := b.pos + dst.length, pend := p } else took i s n k) ∧
    p.map (fun x => (x.addr, x.val)) =
      dst.zipIdx.map fun x => (b.base + BitVec.ofNat 64 (b.pos + x.2) * b.stride, BitVec.ofNat 64 (val x.1 % 2 ^ (8 * b.esize)))

/-- A store engine can take n elements at once: its queue is empty, and its next addresses are cached and may be written. -/
structure Takes (s : State) (e n : Nat) : Prop where
  empty : (s.engine e).pend = []
  open_ : ∀ k, k < n → ∃ x, HitAt s ((s.engine e).base + BitVec.ofNat 64 ((s.engine e).pos + k) * (s.engine e).stride)
    (s.engine e).esize false true x

/-- ACTS BY LANES WITH QUEUE REGISTERS (R296): from every state in which the instruction can issue, with lanes with effect and
queue registers that serve it, and no enabled flag among `traps`, it goes on, the elements taken; each lane's result stands in
`words` vector registers or is pushed, as `d` says; a lane's FPSR is `fpsr`, and predicates are `pd`. -/
def QResult (i : Instr) (h : Hd) (d : Option VOp) (words : Nat) (R : State → Nat → Nat → Prop)
    (traps : State → Nat → Nat := fun _ _ => 0) (fpsr : State → Nat → BitVec 6 := fun s l => s.fpsr s.cur l)
    (pd : State → Nat → Nat → Bool := fun s k l => (s.regsOf.p.get 0 k).getLsbD l) : Prop :=
  ∀ s, s.Inv = true → CanIssue i s → i.qRefs ≠ [] → s.onLanes h ≠ [] →
    let ls := s.onLanes h
    Fed i s ls.length ls.length → (∀ l ∈ ls, traps s l = 0) →
    let ends (t : State) (val : Nat → Nat) : Prop :=
      IssuedAs i s t (nextPc s.ctlOf.pc i) (goesOn i) s.ctlOf ∧ (t.warp s.cur).stack = (s.warp s.cur).stack ∧
      (∀ l ∈ ls, R s l (val l)) ∧ t.regsOf = { s.regsOf with v := t.regsOf.v, p := t.regsOf.p, fpsr := t.regsOf.fpsr } ∧
      (∀ l, l < Config.W → t.fpsr s.cur l = if l ∈ ls then fpsr s l else s.fpsr s.cur l) ∧
      (∀ k l, l < Config.W → (t.regsOf.p.get 0 k).getLsbD l = pd s k l)
    (d = none → qWrites i = [] → Yields i s fun t => ∃ val, ends t val ∧ t.regsOf.v = s.regsOf.v ∧ Took i s t ls.length) ∧
    (∀ n, d = some (.v n) → qWrites i = [] → Yields i s fun t => ∃ val, ends t val ∧ Took i s t ls.length ∧
      ∀ r l, l < Config.W → t.vreg s.cur r l =
        if l ∈ ls ∧ n.val ≤ r ∧ r < n.val + words then BitVec.ofNat 32 (val l / 2 ^ (32 * (r - n.val))) else s.vreg s.cur r l) ∧
    (∀ q e b, d = some (.q q) → qWrites i = [q.val] → s.streamOf s.cur q.val = some (e, b) → Takes s e ls.length →
      Yields i s fun t => ∃ val, ends t val ∧ t.regsOf.v = s.regsOf.v ∧ Pushed i s t ls.length e ls val)

/-- What a lane with effect finds, as a value of its own elements. -/
abbrev byLane {α : Type} (h : Hd) (f : State → Nat → α) (s : State) (l : Nat) : α := f (s.lane (s.onLanes h) l) l

/-- WRITES A VECTOR REGISTER (R33, R230): from every state in which the instruction can issue, with a register as
destination and no queue register, it completes with `words` registers from the destination on holding `val` in each lane
with effect, and no other register changed. -/
def VPlain (i : Instr) (h : Hd) (d : VOp) (words : Nat) (val : State → Nat → Nat) : Prop :=
  ∀ s (n : VReg), s.Inv = true → CanIssue i s → i.qRefs = [] → d = .v n →
    Yields i s fun t => Completes i s t ∧ VWrites s t n.val words (effMask s s.cur h) (val s)

/-- The same, and with queue registers each lane has the value for its own elements. -/
def VResult (i : Instr) (h : Hd) (d : VOp) (words : Nat) (val : State → Nat → Nat) : Prop :=
  VPlain i h d words val ∧ QResult i h (some d) words fun s l x => x = byLane h val s l

/-- The same with the value of each lane with effect given by a relation. -/
def VRel (i : Instr) (h : Hd) (d : VOp) (words : Nat) (R : State → Nat → Nat → Prop) : Prop :=
  (∀ s (n : VReg), s.Inv = true → CanIssue i s → i.qRefs = [] → d = .v n →
    Yields i s fun t => Completes i s t ∧ ∃ val, VWrites s t n.val words (effMask s s.cur h) val ∧
      ∀ l, l < Config.W → (effMask s s.cur h).getLsbD l = true → R s l (val l)) ∧
  QResult i h (some d) words fun s l x => byLane h R s l x

/-- A floating-point result with queue registers; a fault takes no element. -/
def FQueue (i : Instr) (h : Hd) (d : Option VOp) (words : Nat) (res : State → Nat → Nat × Fl)
    (pd : State → Nat → Nat → Bool := fun s k l => (s.regsOf.p.get 0 k).getLsbD l) : Prop :=
  QResult i h d words (fun s l x => x = (res s l).1) (fun s l => trapBits (s.fpcr s.cur) (res s l).2)
    (fun s l => s.fpsr s.cur l ||| (res s l).2) pd ∧
  ∀ s, s.Inv = true → CanIssue i s → i.qRefs ≠ [] → qWrites i = [] → Fed i s (s.onLanes h).length (s.onLanes h).length →
    (∃ l ∈ s.onLanes h, trapBits (s.fpcr s.cur) (res s l).2 ≠ 0) →
    ∃ u f, u.regsOf = s.regsOf ∧ (∀ e, u.engine e = s.engine e) ∧ Faults i s u f ∧ f.cause = .fpexc

/-- A floating-point result with registers, and with queue registers. -/
def FResult (i : Instr) (h : Hd) (d : VOp) (words : Nat) (res : State → Nat → Nat × Fl) : Prop :=
  FPlain i h d words res ∧ FQueue i h (some d) words (byLane h res)

/-! ### Operands without a queue register (R202, R203, R242) -/

/-- Floating sources. -/
def fA (s : State) (t : FT) (r : VOp) (l : Nat) : Nat := s.opndF s.cur [] r t l
def fB (s : State) (t : FT) (b : SrcB) (l : Nat) : Nat := s.srcF s.cur [] b t l

/-- Source a as an integer of the type. -/
def intA (s : State) (ty : IT) (r : VOp) (l : Nat) : Int := rdInt ty (s.opnd s.cur [] r ty.words l)
/-- Source b as an integer of the type. -/
def intB (s : State) (ty : IT) (b : SrcB) (l : Nat) : Int := rdInt ty (s.srcB s.cur [] b ty.words ty.signed l)
/-- Source a and source b as bits at the type's width. -/
def bitsA (s : State) (ty : IT) (r : VOp) (l : Nat) : Nat := s.opnd s.cur [] r ty.words l
def bitsB (s : State) (ty : IT) (b : SrcB) (l : Nat) : Nat := s.srcB s.cur [] b ty.words ty.signed l
/-- A 32-bit source b: shift amounts and controls. -/
def ctlB (s : State) (b : SrcB) (l : Nat) : Nat := s.srcB s.cur [] b 1 false l

end Sys2Proof.Machine
end

