-- ==== Sys2Proof/Certificates/Slice0/Obligations.lean ====
section
/-!
DEFINITION. The statements about the model. Hypotheses are on the state and the operands alone; `CanIssue`, `Completes` and
the shapes of results are in Safety.lean.
-/
open Sys2Proof Sys2Proof.Machine

/-! ### The machine as a whole -/

/-- R28, R357, R358, R429, R447, R454: what reset leaves where the rules give a value: no warp, block, run, gang, grid or
operation; every die with its reset hold set, latched to no world, four Ladle ways, no core fenced, no TLB entry and no
alarm; every world FREE with fence 3 and a heartbeat period of 1,000 ms. That MSI-X vectors are masked is the model's choice (log
entry 67). -/
def Obligations.ResetValues : Prop :=
  (State.reset.warps = [] ∧ State.reset.blocks = [] ∧ State.reset.runs = [] ∧ State.reset.gangs = [] ∧ State.reset.grids = [] ∧
    State.reset.ops = []) ∧
  (∀ d, bitAt (State.reset.die d).dlatch 10 = true ∧ bitAt (State.reset.die d).dlatch 8 = false ∧
    field (State.reset.die d).ladlecfg 8 4 = 4 ∧ (State.reset.die d).fenced = 0 ∧ (State.reset.die d).tlb = [] ∧
    (State.reset.die d).secalm = 0) ∧
  (∀ w, (State.reset.world w).st = .free ∧ field (State.reset.world w).wctl 54 2 = 3 ∧
    (State.reset.world w).period = 1000 ∧ (State.reset.world w).msixMask = 0xFFFFFFFF)

/-- The invariant holds right after reset. -/
def Obligations.ResetInvariant : Prop := State.reset.Inv = true

/-- From every state that meets the invariant, not only those a run reaches, a step ends in one that meets it: memory and
line tags stay canonical, tables stay in key order, masks and predicates stay within the W lanes (R51), FPCR stays legal
(R52, R57), and no stack grows past 1,024 entries (R35). -/
def Obligations.StepKeepsInvariant : Prop := ∀ s t, s.Inv = true → step s = .next t → t.Inv = true

/-- The encoder writes a word for every well-formed instruction of the opcode map, and decoding it gives the instruction back. -/
def Obligations.DecodeOfEncode : Prop :=
  (∀ i, i.wf = true → i.hd ≠ none → ∃ w, encode i = some w) ∧ ∀ i w, i.wf = true → encode i = some w → decodeWord w = .ok i

/-- A turn of a ready warp whose fetch finds an instruction runs exactly that instruction, one turn of the time base later,
with the warp as the one that issues (log entry 2 names the schedule as the model's choice). R31: a turn given to a warp that
has issued while another warp of its port was ready goes to that warp. -/
def Obligations.StepRunsDecoded : Prop :=
  ∀ s w l, s.turns = .warp w :: l → (s.warp w).ctl.status = .ready → (s.warp w).ctl.runCnt.val ≠ 16 →
    let r := { tick s with turns := l }
    (∀ i u, heldBack r w = none → (fetch w).run { r with cur := w } = (.instr i, u) → step s = exec i u) ∧
    (∀ v i u, heldBack r w = some v → (s.runOf (runOfWarp w)).st = .resident → (s.warp v).ctl.status = .ready →
      (s.warp v).ctl.runCnt.val ≠ 16 → (fetch v).run { r with cur := v } = (.instr i, u) → step s = exec i u)

/-- What a fetch finds at a cached translation of an executable page whose line is readable and whose words no store has
overwritten, where the fetch counts at no page (R414): the instruction that its bytes decode to, with no state changed (R183 to
R185, R401). -/
def Obligations.FetchDecodes : Prop :=
  ∀ s w d off e b x i, targetOk (s.warp w).ctl.pc = true → ownAddr s (s.warp w).ctl.pc = some (d, off) →
    s.latched d (s.worldOfWarp w) = true → (s.die d).tlb.find? (fun e => e.hits (s.asidOfWarp w) off) = some e →
    x = Xl.ofEntry d (s.asidOfWarp w) off e.w0 e.w1 e.leaf e.level → bitAt x.w0 58 = true →
    x.gen = (slotGen s d x.slot).toNat → x.past = false → tagOk (s.tags.get {} x.line) (x.want s) = true → (s.tags.get {} x.line).poison = false →
    field (s.die d).trcfg 40 16 = 0 ∨ (s.coreOfWarp w / 16 = d ∧ field x.w0 53 3 = 0) → s.oldCode = [] → b = physBytes s (x.key / 32 * 32) 32 →
    decodeBlock b ((s.warp w).ctl.pc.toNat % 32) = .instr i →
    (fetch w).run s = (.instr i, s)

/-! ### Uniform instructions -/

/-- R222: the results of the uniform arithmetic instructions. -/
def Obligations.UniformArithmetic : Prop :=
  (∀ o : UBin, UResult (.sadd o) o.hd o.d fun s => s.sreg s.cur o.a.val + s.srcU s.cur o.b) ∧
  (∀ o : UBin, UResult (.ssub o) o.hd o.d fun s => s.sreg s.cur o.a.val - s.srcU s.cur o.b) ∧
  (∀ o : UBin, UResult (.smul o) o.hd o.d fun s => s.sreg s.cur o.a.val * s.srcU s.cur o.b) ∧
  (∀ o : UMad, UResult (.smad o) o.hd o.d fun s =>
    s.sreg s.cur o.a.val * s.sreg s.cur o.b.val + s.sreg s.cur o.c.val) ∧
  (∀ o : UBin, UResult (.sand o) o.hd o.d fun s => s.sreg s.cur o.a.val &&& s.srcU s.cur o.b) ∧
  (∀ o : UBin, UResult (.sor o) o.hd o.d fun s => s.sreg s.cur o.a.val ||| s.srcU s.cur o.b) ∧
  (∀ o : UBin, UResult (.sxor o) o.hd o.d fun s => s.sreg s.cur o.a.val ^^^ s.srcU s.cur o.b) ∧
  (∀ o : UBin, UResult (.sshl o) o.hd o.d fun s =>
    if (s.srcU s.cur o.b).toNat < 64
    then BitVec.ofNat 64 ((s.sreg s.cur o.a.val).toNat * 2 ^ (s.srcU s.cur o.b).toNat) else 0) ∧
  (∀ o : UBin, UResult (.sshr o) o.hd o.d fun s =>
    if (s.srcU s.cur o.b).toNat < 64
    then BitVec.ofNat 64 ((s.sreg s.cur o.a.val).toNat / 2 ^ (s.srcU s.cur o.b).toNat) else 0) ∧
  (∀ o : UBin, UResult (.ssra o) o.hd o.d fun s =>
    BitVec.ofInt 64 ((s.sreg s.cur o.a.val).toInt / (2 ^ min (s.srcU s.cur o.b).toNat 63 : Int))) ∧
  (∀ o : UBin, UResult (.smin o) o.hd o.d fun s =>
    let a := s.sreg s.cur o.a.val
    let b := s.srcU s.cur o.b
    if (if o.ty.signed then a.toInt ≤ b.toInt else a.toNat ≤ b.toNat) then a else b) ∧
  (∀ o : UBin, UResult (.smax o) o.hd o.d fun s =>
    let a := s.sreg s.cur o.a.val
    let b := s.srcU s.cur o.b
    if (if o.ty.signed then b.toInt ≤ a.toInt else b.toNat ≤ a.toNat) then a else b)

/-- R223 to R225: uniform selection, moves and comparison. -/
def Obligations.UniformMovesAndCompares : Prop :=
  ((∀ o : USel, UResult (.ssel o) o.hd o.d fun s =>
     if (match lowest (s.m0 s.cur) with | some l => (s.predMask s.cur o.q).getLsbD l | none => false)
     then s.sreg s.cur o.a.val else s.sreg s.cur o.b.val) ∧
   (∀ o : UMov, UResult (.smov o) o.hd o.d fun s => s.sreg s.cur o.a.val) ∧
   (∀ o : UMovi, UResult (.smovi o) o.hd o.d fun _ => match o.v with
     | .short ty i => if ty.signed then i.signExtend 64 else i.setWidth 64
     | .long i => i)) ∧
  (∀ (o : Scmp) s, s.Inv = true → CanIssue (.scmp o) s → uniformOn s s.cur o.hd = true →
     Yields (.scmp o) s fun t => Completes (.scmp o) s t ∧ PWrites s t o.d (s.m0 s.cur) fun _ =>
       let a := s.sreg s.cur o.a.val
       let b := s.srcU s.cur o.b
       match o.cmp, o.ty.signed with
       | .eq, _ => decide (a = b) | .ne, _ => decide (a ≠ b)
       | .lt, true => decide (a.toInt < b.toInt) | .lt, false => decide (a.toNat < b.toNat)
       | .le, true => decide (a.toInt ≤ b.toInt) | .le, false => decide (a.toNat ≤ b.toNat)
       | .gt, true => decide (b.toInt < a.toInt) | .gt, false => decide (b.toNat < a.toNat)
       | .ge, true => decide (b.toInt ≤ a.toInt) | .ge, false => decide (b.toNat ≤ a.toNat))

/-- R33, R191, R205, R331: an instruction that acts once for the warp, whose predicate is false in the lowest lane of m0, has no
effect: it completes with every register as it was, engine, ring, grid, mailbox and S-level instructions among them (for QCFG and
QFENCE log entry 79); so does an instruction that acts by lanes on memory, queues or links where it has effect in no lane. (A
vote gives a result from no lane, and is stated with its results.) -/
def Obligations.PredicatedOffHasNoEffect : Prop :=
  (∀ i h s, i.hd = some h → CanIssue i s → uniformOn s s.cur h = false →
    (match i with
     | .nop _ | .join _ | .call _ | .ret _ | .jmpi _ | .bar _ | .arrv _ | .await _ | .gbar _ | .yield _ | .trap _ | .bkpt _
     | .segend _ | .srd _ | .srw _ | .sadd _ | .ssub _ | .smul _ | .smad _ | .sand _ | .sor _ | .sxor _ | .sshl _ | .sshr _
     | .ssra _ | .smin _ | .smax _ | .ssel _ | .smov _ | .smovi _ | .scmp _ | .sld _ | .mand _ | .mor _ | .mxor _ | .mnot _
     | .mpopc _ | .mfind _ | .qcfg _ | .qfence _ | .mloop _ | .mstep _ | .rinit _ | .rwait _ | .epi _ | .tstore _ | .tcopy _
     | .tcopym _ | .slotret _ | .coll _ | .cabort _ | .grid _ | .gwait _ | .mbxrd _ | .mbxwr _ | .seqopen _ | .seqbind _
     | .seqend _ | .hnote _ | .wstate _ | .wresume _ | .wkill _ | .tlbi _ | .eret _ => True
     | _ => False) →
    Yields i s fun t => Completes i s t ∧ t.regsOf = s.regsOf) ∧
  (∀ i h s, i.hd = some h → CanIssue i s → s.onLanes h = [] →
    (match i with
     | .ld _ | .lda _ | .st _ | .fence _ | .cctl _ | .pref _ | .disc _ | .mwait _ | .pwait _ | .rngx _ | .rngu _ | .subs _
     | .unsub _ | .spoll _ | .nbpush _ | .nbpop _ | .gath _ => True
     | _ => False) →
    Yields i s fun t => Completes i s t ∧ t.regsOf = s.regsOf)

/-! ### Masks and votes -/

/-- R51, R227 to R229: mask operations, their counts and the votes. -/
def Obligations.MasksAndVotes : Prop :=
  ((∀ o : MBin, MResult (.mand o) (fun s => uniformOn s s.cur o.hd) o.d fun s => s.mreg s.cur o.a.val &&& s.mreg s.cur o.b.val) ∧
   (∀ o : MBin, MResult (.mor o) (fun s => uniformOn s s.cur o.hd) o.d fun s => s.mreg s.cur o.a.val ||| s.mreg s.cur o.b.val) ∧
   (∀ o : MBin, MResult (.mxor o) (fun s => uniformOn s s.cur o.hd) o.d fun s => s.mreg s.cur o.a.val ^^^ s.mreg s.cur o.b.val) ∧
   (∀ o : MUn, MResult (.mnot o) (fun s => uniformOn s s.cur o.hd) o.d fun s => ~~~(s.mreg s.cur o.a.val)) ∧
   (∀ o : Vote, MResult (.vote o) (fun _ => true) o.d fun s =>
     s.m0 s.cur &&& s.predMask s.cur o.hd.pr &&& s.predMask s.cur o.a)) ∧
  ((∀ o : MCnt, UResult (.mpopc o) o.hd o.d fun s =>
     BitVec.ofNat 64 ((List.range 32).countP fun l => (s.mreg s.cur o.a.val).getLsbD l)) ∧
   (∀ (o : MCnt) s, s.Inv = true → CanIssue (.mfind o) s → uniformOn s s.cur o.hd = true →
     Yields (.mfind o) s fun t => Completes (.mfind o) s t ∧ ∃ x, SWrites s t o.d x ∧
       ((∀ l, l < 32 → (s.mreg s.cur o.a.val).getLsbD l = false) → x = 0xFFFFFFFFFFFFFFFF) ∧
       (∀ l, l < 32 → (s.mreg s.cur o.a.val).getLsbD l = true →
         (∀ k, k < 32 → (s.mreg s.cur o.a.val).getLsbD k = true → if o.hi then k ≤ l else l ≤ k) → x = BitVec.ofNat 64 l))) ∧
  ((∀ o : VoteP, PResult (.voteAny o) o.d (fun s => s.m0 s.cur) fun s _ =>
     (List.range 32).any fun l => (s.m0 s.cur).getLsbD l && (s.predMask s.cur o.hd.pr).getLsbD l && (s.predMask s.cur o.a).getLsbD l) ∧
   (∀ o : VoteP, PResult (.voteAll o) o.d (fun s => s.m0 s.cur) fun s _ =>
     (List.range 32).all fun l =>
       !((s.m0 s.cur).getLsbD l && (s.predMask s.cur o.hd.pr).getLsbD l) || (s.predMask s.cur o.a).getLsbD l))

/-! ### Vector integer instructions -/

/-- R230: saturated to the type, or modulo 2^w. -/
def Obligations.VectorArithmetic : Prop :=
  let res (ty : IT) (sat : Bool) (x : Int) : Nat :=
    ((if sat then min (max x (if ty.signed then -2 ^ (ty.bits - 1) else 0))
        (if ty.signed then 2 ^ (ty.bits - 1) - 1 else 2 ^ ty.bits - 1) else x) % 2 ^ ty.bits).toNat
  (∀ o : VBin, VResult (.iadd o) o.hd o.d o.ty.words fun s l => res o.ty o.sat (intA s o.ty o.a l + intB s o.ty o.b l)) ∧
  (∀ o : VBin, VResult (.isub o) o.hd o.d o.ty.words fun s l => res o.ty o.sat (intA s o.ty o.a l - intB s o.ty o.b l)) ∧
  (∀ o : VBin, VResult (.imul o) o.hd o.d o.ty.words fun s l => res o.ty false (intA s o.ty o.a l * intB s o.ty o.b l)) ∧
  (∀ o : VBin, VResult (.imulh o) o.hd o.d o.ty.words fun s l =>
    res o.ty false ((intA s o.ty o.a l * intB s o.ty o.b l).fdiv (2 ^ o.ty.bits))) ∧
  (∀ o : VBin, VResult (.imin o) o.hd o.d o.ty.words fun s l => res o.ty false (min (intA s o.ty o.a l) (intB s o.ty o.b l))) ∧
  (∀ o : VBin, VResult (.imax o) o.hd o.d o.ty.words fun s l => res o.ty false (max (intA s o.ty o.a l) (intB s o.ty o.b l))) ∧
  (∀ o : VUn, VResult (.iabs o) o.hd o.d o.ty.words fun s l =>
    res o.ty false (max (intA s o.ty o.a l) (-(intA s o.ty o.a l)))) ∧
  (∀ o : VUn, VResult (.ineg o) o.hd o.d o.ty.words fun s l => res o.ty false (-(intA s o.ty o.a l))) ∧
  (∀ o : VTri, VResult (.imad o) o.hd o.d o.ty.words fun s l =>
    res o.ty false (intA s o.ty o.a l * intB s o.ty o.b l + intA s o.ty o.c l))

/-- R231: IADDC writes the sum with the carry predicate modulo 2^w, and the carry out to P[co] in the lanes with effect; with cien
= 0 its ci field says nothing, which is the model's reading (log entry 80). R232: IMADW multiplies 32-bit factors and adds a
pair, modulo 2^64. -/
def Obligations.CarryAndWideMultiply : Prop :=
  (∀ (o : Iaddc) s (n : VReg), s.Inv = true → CanIssue (.iaddc o) s → (Instr.iaddc o).qRefs = [] → o.d = .v n →
     let cin (l : Nat) : Nat := (o.cien && (s.predMask s.cur ⟨false, o.ci⟩).getLsbD l).toNat
     let sum (l : Nat) : Nat := bitsA s o.ty o.a l + bitsB s o.ty o.b l + cin l
     Yields (.iaddc o) s fun t => Completes (.iaddc o) s t ∧
       (∀ r l, l < 32 → t.vreg s.cur r l =
         if (effMask s s.cur o.hd).getLsbD l = true ∧ n.val ≤ r ∧ r < n.val + o.ty.words
         then BitVec.ofNat 32 (sum l % 2 ^ o.ty.bits / 2 ^ (32 * (r - n.val))) else s.vreg s.cur r l) ∧
       (∀ k l, l < 32 → (t.regsOf.p.get 0 k).getLsbD l =
         if k = o.co.val ∧ o.co.val ≠ 15 ∧ (effMask s s.cur o.hd).getLsbD l = true
         then decide (2 ^ o.ty.bits ≤ sum l) else (s.regsOf.p.get 0 k).getLsbD l) ∧
       t.regsOf = { s.regsOf with v := t.regsOf.v, p := t.regsOf.p }) ∧
  (let sum (o : Iaddc) (s : State) (l : Nat) : Nat :=
     bitsA s o.ty o.a l + bitsB s o.ty o.b l + (o.cien && (s.predMask s.cur ⟨false, o.ci⟩).getLsbD l).toNat
   ∀ o : Iaddc, QResult (.iaddc o) o.hd (some o.d) o.ty.words (fun s l x => x = byLane o.hd (sum o) s l % 2 ^ o.ty.bits)
     (pd := fun s k l => if k = o.co.val ∧ o.co.val ≠ 15 ∧ l ∈ s.onLanes o.hd then decide (2 ^ o.ty.bits ≤ byLane o.hd (sum o) s l)
       else (s.regsOf.p.get 0 k).getLsbD l)) ∧
  (∀ o : VTri, o.ty = .s32 ∨ o.ty = .n32 → VResult (.imadw o) o.hd o.d 2 fun s l =>
     ((intA s o.ty o.a l * intB s o.ty o.b l + (bitsA s .b64 o.c l : Int)) % 2 ^ 64).toNat)

/-- R233: AND, OR, XOR and NOT bitwise at width w; bit i of LUT3's result is bit a_i + 2·b_i + 4·c_i of the table. R234, R235:
the shifts, the rotation (bit i of A becomes bit i + n modulo w) and the double-width shift. -/
def Obligations.BitwiseAndShifts : Prop :=
  (∀ o : VBin, VResult (.vand o) o.hd o.d o.ty.words fun s l => (bitsA s o.ty o.a l &&& bitsB s o.ty o.b l) % 2 ^ o.ty.bits) ∧
  (∀ o : VBin, VResult (.vor o) o.hd o.d o.ty.words fun s l => (bitsA s o.ty o.a l ||| bitsB s o.ty o.b l) % 2 ^ o.ty.bits) ∧
  (∀ o : VBin, VResult (.vxor o) o.hd o.d o.ty.words fun s l => (bitsA s o.ty o.a l ^^^ bitsB s o.ty o.b l) % 2 ^ o.ty.bits) ∧
  (∀ o : VUn, VResult (.vnot o) o.hd o.d o.ty.words fun s l => 2 ^ o.ty.bits - 1 - bitsA s o.ty o.a l % 2 ^ o.ty.bits) ∧
  (∀ o : Lut3, VRel (.lut3 o) o.hd o.d 1 fun s l x => ∀ i, i < 32 →
    x.testBit i = o.lut.getLsbD (((bitsA s .b32 o.a l).testBit i).toNat + 2 * ((ctlB s o.b l).testBit i).toNat
      + 4 * ((s.vreg s.cur o.c.val l).getLsbD i).toNat)) ∧
  (∀ o : VBin, VResult (.shl o) o.hd o.d o.ty.words fun s l => bitsA s o.ty o.a l * 2 ^ ctlB s o.b l % 2 ^ o.ty.bits) ∧
  (∀ o : VBin, VResult (.shr o) o.hd o.d o.ty.words fun s l => bitsA s o.ty o.a l / 2 ^ ctlB s o.b l) ∧
  (∀ o : VBin, VResult (.sra o) o.hd o.d o.ty.words fun s l =>
    (signed o.ty.bits (bitsA s o.ty o.a l) / 2 ^ min (ctlB s o.b l) (o.ty.bits - 1) % 2 ^ o.ty.bits).toNat) ∧
  (∀ o : VBin, VRel (.rot o) o.hd o.d o.ty.words fun s l x => x < 2 ^ o.ty.bits ∧
    ∀ i, i < o.ty.bits → x.testBit ((i + ctlB s o.b l) % o.ty.bits) = (bitsA s o.ty o.a l).testBit i) ∧
  (∀ o : VTri, VResult (.shf o) o.hd o.d o.ty.words fun s l =>
    let x := bitsA s o.ty o.c l * 2 ^ o.ty.bits + bitsA s o.ty o.a l
    let m := min (ctlB s o.b l) o.ty.bits
    if o.left then x * 2 ^ m / 2 ^ o.ty.bits % 2 ^ o.ty.bits else x / 2 ^ m % 2 ^ o.ty.bits)

/-- R236: extraction and insertion of a bit field, bit by bit, with position and length clipped to the width. R237: POPC counts set bits, CLZ leading
zeros, each in one 32-bit register; BREV reverses the bits at the width. -/
def Obligations.BitFieldsAndCounts : Prop :=
  (let pos (w c : Nat) : Nat := min (c % 256) w
   let len (w c : Nat) : Nat := min (c / 256 % 256) (w - pos w c)
   (∀ o : VBin, VRel (.bfe o) o.hd o.d o.ty.words fun s l x => x < 2 ^ o.ty.bits ∧ ∀ i, i < o.ty.bits →
     let p := pos o.ty.bits (ctlB s o.b l)
     let n := len o.ty.bits (ctlB s o.b l)
     x.testBit i = if n = 0 then false
       else if i < n then (bitsA s o.ty o.a l).testBit (p + i)
       else o.ty.signed && (bitsA s o.ty o.a l).testBit (p + n - 1)) ∧
   (∀ o : VTri, VRel (.bfi o) o.hd o.d o.ty.words fun s l x => x < 2 ^ o.ty.bits ∧ ∀ i, i < o.ty.bits →
     let p := pos o.ty.bits (ctlB s o.b l)
     let n := len o.ty.bits (ctlB s o.b l)
     x.testBit i = if p ≤ i ∧ i < p + n then (bitsA s o.ty o.c l).testBit (i - p) else (bitsA s o.ty o.a l).testBit i)) ∧
  ((∀ o : VUn, VResult (.popc o) o.hd o.d 1 fun s l => (List.range o.ty.bits).countP fun i => (bitsA s o.ty o.a l).testBit i) ∧
   (∀ o : VUn, VRel (.clz o) o.hd o.d 1 fun s l x => x ≤ o.ty.bits ∧
     (∀ i, o.ty.bits - x ≤ i → i < o.ty.bits → (bitsA s o.ty o.a l).testBit i = false) ∧
     (x < o.ty.bits → (bitsA s o.ty o.a l).testBit (o.ty.bits - x - 1) = true)) ∧
   (∀ o : VUn, VRel (.brev o) o.hd o.d o.ty.words fun s l x => x < 2 ^ o.ty.bits ∧
     ∀ i, i < o.ty.bits → x.testBit (o.ty.bits - 1 - i) = (bitsA s o.ty o.a l).testBit i))

/-- R237, R238: ICMP ANDs the comparison with its source predicate; PBOOL combines three predicates, lane by lane. -/
def Obligations.PredicateResults : Prop :=
  (let holds (o : Icmp) (s : State) (l : Nat) : Bool :=
     let a := intA s o.ty o.a l
     let b := intA s o.ty o.b l
     (match o.cmp with
       | .eq => decide (a = b) | .ne => decide (a ≠ b) | .lt => decide (a < b) | .le => decide (a ≤ b)
       | .gt => decide (b < a) | .ge => decide (b ≤ a)) && (s.predMask s.cur o.c).getLsbD l
   (∀ o : Icmp, PResult (.icmp o) o.d (fun s => effMask s s.cur o.hd) (holds o)) ∧
   (∀ o : Icmp, QResult (.icmp o) o.hd none 1 (fun _ _ _ => True)
     (pd := fun s k l => if k = o.d.val ∧ o.d.val ≠ 15 ∧ l ∈ s.onLanes o.hd then byLane o.hd (holds o) s l
       else (s.regsOf.p.get 0 k).getLsbD l))) ∧
  (∀ o : Pbool, PResult (.pbool o) o.d (fun s => effMask s s.cur o.hd) fun s l =>
    let f (k : BoolOp) (x y : Bool) : Bool := match k with | .and => x && y | .or => x || y | .xor => x != y
    f o.op2 (f o.op1 ((s.predMask s.cur o.a).getLsbD l) ((s.predMask s.cur o.b).getLsbD l)) ((s.predMask s.cur o.c).getLsbD l))

/-- R239 to R241: selection by a predicate of the lane, moves, and the scaled 64-bit sum of LEA. -/
def Obligations.MovesAndAddresses : Prop :=
  (∀ o : Sel, VResult (.sel o) o.hd o.d o.ty.words fun s l =>
    if (s.predMask s.cur o.q).getLsbD l then bitsA s o.ty o.a l else bitsB s o.ty o.b l) ∧
  (∀ o : Mov, VResult (.mov o) o.hd o.d o.ty.words fun s l => match o.src with
    | .v r => bitsA s o.ty r l
    | .s r => (s.sreg s.cur r.val).toNat % 2 ^ o.ty.bits) ∧
  (∀ o : Movi, VResult (.movi o) o.hd o.d o.v.words fun _ _ => match o.v with
    | .short ty i => (if ty.signed then (i.signExtend 64).toNat else i.toNat) % 2 ^ (32 * ty.words)
    | .long i => i.toNat) ∧
  (∀ o : Lea, VResult (.lea o) o.hd o.d 2 fun s l =>
    let b : Int := if o.ty = .s32 then (BitVec.ofNat 32 (ctlB s o.b l)).toInt
      else if o.ty = .n32 then (ctlB s o.b l : Int)
      else match o.b with
        | .v _ => (bitsB s .b64 o.b l : Int)
        | .s r => ((s.sreg s.cur r.val).toNat : Int)
        | .imm i => i.toInt
    (((bitsA s .b64 o.a l : Int) + b * 2 ^ o.sh.val) % 2 ^ 64).toNat)

/-! ### Floating-point instructions -/

/-- R63, R72, R244 for the instructions that compute a floating-point or converted result lane by lane, each with the value
and flags of its own rule (R245, R246, R249 to R257). -/
def Obligations.FloatResults : Prop :=
  (∀ o : FBin, FResult (.fadd o) o.hd o.d o.ft.words fun s l => fAdd o.ft o.rm (s.fpcr s.cur) (fA s o.ft o.a l) (fB s o.ft o.b l)) ∧
  (∀ o : FBin, FResult (.fsub o) o.hd o.d o.ft.words fun s l => fSub o.ft o.rm (s.fpcr s.cur) (fA s o.ft o.a l) (fB s o.ft o.b l)) ∧
  (∀ o : FBin, FResult (.fmul o) o.hd o.d o.ft.words fun s l => fMul o.ft o.rm (s.fpcr s.cur) (fA s o.ft o.a l) (fB s o.ft o.b l)) ∧
  (∀ o : FBin, FResult (.fdiv o) o.hd o.d o.ft.words fun s l => fDiv o.ft o.rm (s.fpcr s.cur) (fA s o.ft o.a l) (fB s o.ft o.b l)) ∧
  (∀ o : FFma, FResult (.ffma o) o.hd o.d o.ft.words fun s l =>
    fFma o.ft o.rm o.nc (s.fpcr s.cur) (fA s o.ft o.a l) (fB s o.ft o.b l) (fA s o.ft o.c l)) ∧
  (∀ o : FMinMax, FResult (.fmin o) o.hd o.d o.ft.words fun s l =>
    fMinMax o.ft false o.nan (s.fpcr s.cur) (fA s o.ft o.a l) (fB s o.ft o.b l)) ∧
  (∀ o : FMinMax, FResult (.fmax o) o.hd o.d o.ft.words fun s l =>
    fMinMax o.ft true o.nan (s.fpcr s.cur) (fA s o.ft o.a l) (fB s o.ft o.b l)) ∧
  (∀ o : FUnR, FResult (.fsqrt o) o.hd o.d o.ft.words fun s l => fSqrt o.ft o.rm (s.fpcr s.cur) (fA s o.ft o.a l)) ∧
  (∀ o : FUnR, FResult (.frnd o) o.hd o.d o.ft.words fun s l => fRnd o.ft o.rm o.x (s.fpcr s.cur) (fA s o.ft o.a l)) ∧
  (∀ o : FBin, FResult (.fscale o) o.hd o.d o.ft.words fun s l =>
    fScale o.ft o.rm (s.fpcr s.cur) (fA s o.ft o.a l) (BitVec.ofNat 32 (ctlB s o.b l)).toInt) ∧
  (∀ o : FUn, FResult (.fgetx o) o.hd o.d 1 fun s l => fGetx o.ft (s.fpcr s.cur) (fA s o.ft o.a l)) ∧
  (∀ o : F2f, FResult (.f2f o) o.hd o.d o.dt.words fun s l => fConv o.dt o.st o.rm (s.fpcr s.cur) (fA s o.st o.a l)) ∧
  (∀ o : FIcvt, FResult (.f2i o) o.hd o.d o.it.words fun s l =>
    let r := fToInt o.ft o.it o.rm (s.fpcr s.cur) (fA s o.ft o.a l)
    ((r.1 % 2 ^ (32 * o.it.words)).toNat, r.2)) ∧
  (∀ o : FIcvt, FResult (.i2f o) o.hd o.d o.ft.words fun s l => intToF o.ft o.rm (s.fpcr s.cur) (intA s o.it o.a l))

/-- The approximations (R250 to R252) and the packed pairs, whose halves are computed alone (R258), in the same form. -/
def Obligations.ApproximationsAndPairs : Prop :=
  let halves (f : Nat → Nat → Nat → Nat × Fl) (a b c : Nat) : Nat × Fl :=
    let lo := f (a % 65536) (b % 65536) (c % 65536)
    let hi := f (a / 65536) (b / 65536) (c / 65536)
    (lo.1 + 65536 * hi.1, lo.2 ||| hi.2)
  (∀ o : FUn, FResult (.frcp o) o.hd o.d 1 fun s l => fApprox .rcp (s.fpcr s.cur) (fA s .f32 o.a l)) ∧
  (∀ o : FUn, FResult (.frsq o) o.hd o.d 1 fun s l => fApprox .rsq (s.fpcr s.cur) (fA s .f32 o.a l)) ∧
  (∀ o : FUn, FResult (.fex2 o) o.hd o.d 1 fun s l => fApprox .ex2 (s.fpcr s.cur) (fA s .f32 o.a l)) ∧
  (∀ o : FUn, FResult (.flg2 o) o.hd o.d 1 fun s l => fApprox .lg2 (s.fpcr s.cur) (fA s .f32 o.a l)) ∧
  (∀ o : FUn, FResult (.fsin o) o.hd o.d 1 fun s l => fApprox .sin (s.fpcr s.cur) (fA s .f32 o.a l)) ∧
  (∀ o : FUn, FResult (.fcos o) o.hd o.d 1 fun s l => fApprox .cos (s.fpcr s.cur) (fA s .f32 o.a l)) ∧
  (∀ o : FFma, FResult (.pkfma o) o.hd o.d 1 fun s l =>
    halves (fFma o.ft o.rm o.nc (s.fpcr s.cur)) (bitsA s .b32 o.a l) (ctlB s o.b l) (bitsA s .b32 o.c l)) ∧
  (∀ o : FBin, FResult (.pkadd o) o.hd o.d 1 fun s l =>
    halves (fun a b _ => fAdd o.ft o.rm (s.fpcr s.cur) a b) (bitsA s .b32 o.a l) (ctlB s o.b l) 0) ∧
  (∀ o : FBin, FResult (.pkmul o) o.hd o.d 1 fun s l =>
    halves (fun a b _ => fMul o.ft o.rm (s.fpcr s.cur) a b) (bitsA s .b32 o.a l) (ctlB s o.b l) 0)

/-- R68, R69, R70 on sums and products whose exact value is a number of the format: it is delivered as it is, under every
rounding attribute, with no flag but DN. -/
def Obligations.ExactResultsDelivered : Prop :=
  ∀ t rm fpcr a b y, fFlush fpcr t = false → fFinite t a → fFinite t b → fFinite t y → fExact t y ≠ 0 →
    (fExact t a + fExact t b = fExact t y → (fAdd t rm fpcr a b).1 = y ∧ (fAdd t rm fpcr a b).2 &&& ~~~flDN = 0) ∧
    (fExact t a * fExact t b = fExact t y * 2 ^ 1200 → (fMul t rm fpcr a b).1 = y ∧ (fMul t rm fpcr a b).2 &&& ~~~flDN = 0)

/-- R246 to R248, R262: FCMP's predicate and flags, its FPEXC where an enabled flag would be raised (R63, R72), FCLASS's one class
bit, and the reading, clearing and setting of FPSR. -/
def Obligations.FloatCompareClassStatus : Prop :=
  (∀ (o : Fcmp) s, s.Inv = true → CanIssue (.fcmp o) s → (Instr.fcmp o).qRefs = [] →
    let r (l : Nat) : Bool × Fl := fCompare o.ft o.cmp o.u (s.fpcr s.cur) (fA s o.ft o.a l) (fA s o.ft o.b l)
    Traps (.fcmp o) s (fun l => l < 32 ∧ (effMask s s.cur o.hd).getLsbD l = true) (fun l => (r l).2) ∧
    ((∀ l, l < 32 → (effMask s s.cur o.hd).getLsbD l = true → trapBits (s.fpcr s.cur) (r l).2 = 0) →
    Yields (.fcmp o) s fun t => Completes (.fcmp o) s t ∧
      t.regsOf = { s.regsOf with p := t.regsOf.p, fpsr := t.regsOf.fpsr } ∧
      (∀ n l, l < 32 → (t.regsOf.p.get 0 n).getLsbD l =
        if n = o.d.val ∧ o.d.val ≠ 15 ∧ (effMask s s.cur o.hd).getLsbD l = true
        then (r l).1 && (s.predMask s.cur o.c).getLsbD l else (s.regsOf.p.get 0 n).getLsbD l) ∧
      (∀ l, l < 32 → t.fpsr s.cur l =
        if (effMask s s.cur o.hd).getLsbD l = true then s.fpsr s.cur l ||| (r l).2 else s.fpsr s.cur l))) ∧
  (let r (o : Fcmp) (s : State) (l : Nat) : Bool × Fl :=
     fCompare o.ft o.cmp o.u (s.fpcr s.cur) (fA s o.ft o.a l) (fA s o.ft o.b l)
   ∀ o : Fcmp, QResult (.fcmp o) o.hd none 1 (fun _ _ _ => True)
     (fun s l => trapBits (s.fpcr s.cur) (byLane o.hd (r o) s l).2) (fun s l => s.fpsr s.cur l ||| (byLane o.hd (r o) s l).2)
     (fun s k l => if k = o.d.val ∧ o.d.val ≠ 15 ∧ l ∈ s.onLanes o.hd
       then (byLane o.hd (r o) s l).1 && (s.predMask s.cur o.c).getLsbD l else (s.regsOf.p.get 0 k).getLsbD l)) ∧
  (∀ o : FUn, VRel (.fclass o) o.hd o.d 1 fun s l x =>
    ∃ k, k < 10 ∧ x = 2 ^ k ∧ match fVal o.ft (fA s o.ft o.a l) with
      | .nan sg => k = (if sg then 0 else 1)
      | .inf n => k = (if n then 2 else 9)
      | .fin n m _ => k = if m = 0 then (if n then 5 else 6)
          else if fSubnormal o.ft (fA s o.ft o.a l) then (if n then 4 else 7) else (if n then 3 else 8)) ∧
  (∀ (o : Fpstr) s (n : VReg), s.Inv = true → CanIssue (.fpstr o) s → (Instr.fpstr o).qRefs = [] → o.d = .v n →
    Yields (.fpstr o) s fun t => Completes (.fpstr o) s t ∧
      t.regsOf = { s.regsOf with v := t.regsOf.v, fpsr := t.regsOf.fpsr } ∧
      (∀ r l, l < 32 → t.vreg s.cur r l = if (effMask s s.cur o.hd).getLsbD l = true ∧ r = n.val
        then (s.fpsr s.cur l).setWidth 32 else s.vreg s.cur r l) ∧
      (∀ l, l < 32 → t.fpsr s.cur l =
        if (effMask s s.cur o.hd).getLsbD l = true then s.fpsr s.cur l &&& ~~~o.clr else s.fpsr s.cur l)) ∧
  (∀ o : Fpstr, QResult (.fpstr o) o.hd (some o.d) 1 (fun s l x => x = (s.fpsr s.cur l).toNat)
    (fpsr := fun s l => s.fpsr s.cur l &&& ~~~o.clr)) ∧
  (∀ (o : Fpstw) (r : VOp), o.src = .v r → QResult (.fpstw o) o.hd none 1 (fun _ _ _ => True)
    (fpsr := fun s l => BitVec.ofNat 6 (byLane o.hd (fun s l => bitsA s .b32 r l) s l))) ∧
  (∀ (o : Fpstw) s, s.Inv = true → CanIssue (.fpstw o) s → (Instr.fpstw o).qRefs = [] →
    Yields (.fpstw o) s fun t => Completes (.fpstw o) s t ∧ t.regsOf = { s.regsOf with fpsr := t.regsOf.fpsr } ∧
      ∀ l, l < 32 → t.fpsr s.cur l = if (effMask s s.cur o.hd).getLsbD l = true
        then (match o.src with | .v r => BitVec.ofNat 6 (bitsA s .b32 r l) | .imm i => i) else s.fpsr s.cur l)

/-- R259 to R261: CVTN and CVTW act block by block on the lanes with effect; where no enabled flag would be raised they
complete, CVTN with its codes (and its scale register, where it writes one; where that is the code register too, the scale
stays, as log entry 47 has it), CVTW with four FP32 words, flags merged; otherwise they raise FPEXC (R63, R72). -/
def Obligations.NarrowConversions : Prop :=
  (∀ (o : Cvt) s (n : VReg), s.Inv = true → CanIssue (.cvtn o) s → (Instr.cvtn o).qRefs = [] → o.d = .v n →
    let rs := (cvtBlocks (lanesOf (effMask s s.cur o.hd))).flatMap (cvtnBlock s s.cur o)
    Traps (.cvtn o) s (fun l => l < 32 ∧ (effMask s s.cur o.hd).getLsbD l = true)
      (fun l => ((rs.find? fun r => r.1 == l).map fun r => r.2.2.1).getD 0) ∧
    ((∀ r ∈ rs, trapBits (s.fpcr s.cur) r.2.2.1 = 0) →
    Yields (.cvtn o) s fun t => Completes (.cvtn o) s t ∧
      t.regsOf = { s.regsOf with v := t.regsOf.v, fpsr := t.regsOf.fpsr } ∧
      (∀ r ∈ rs, t.vreg s.cur n.val r.1 =
          BitVec.ofNat 32 (match o.sc, r.2.2.2 with | .v k, some c => if k = o.d then c else r.2.1 | _, _ => r.2.1) ∧ t.fpsr s.cur r.1 = s.fpsr s.cur r.1 ||| r.2.2.1 ∧
        (∀ k c, o.sc = .v (.v k) → r.2.2.2 = some c → t.vreg s.cur k.val r.1 = BitVec.ofNat 32 c) ∧
        (∀ k, o.sc = .v (.v k) → r.2.2.2 = none → k ≠ n → t.vreg s.cur k.val r.1 = s.vreg s.cur k.val r.1)) ∧
      (∀ l, l < 32 → (effMask s s.cur o.hd).getLsbD l = false → t.fpsr s.cur l = s.fpsr s.cur l) ∧
      (∀ k l, l < 32 → ((effMask s s.cur o.hd).getLsbD l = false ∨ (k ≠ n.val ∧ o.sc ≠ .v (vopOf k))) →
        t.vreg s.cur k l = s.vreg s.cur k l))) ∧
  (∀ (o : Cvt) c, o.sc = .imm c → FQueue (.cvtn o) o.hd (some o.d) 1 fun s l =>
    (((cvtBlocks (s.onLanes o.hd)).flatMap (cvtnBlock s s.cur o)).find? fun r => r.1 == l).elim (0, 0) fun r => (r.2.1, r.2.2.1)) ∧
  (∀ o : Cvt,
    let lane (s : State) (l : Nat) : Nat × Fl :=
      let ls := s.onLanes o.hd
      cvtwLane s s.cur ls o (scaleGiven s s.cur ls o.sc (ls.filter fun k => k / 8 == l / 8)) l
    FPlain (.cvtw o) o.hd o.d 4 lane ∧ FQueue (.cvtw o) o.hd (some o.d) 4 lane)

/-! ### Cross-lane instructions -/

/-- R263 to R266: what a lane with effect receives from another lane, and whether it is valid. From a queue register only a lane
with effect gives an element (R296; what another lane would give is open, log entry 7). -/
def Obligations.LaneExchange : Prop :=
  let live (s : State) (l : Nat) : Bool := (s.warp s.cur).ctl.live.getLsbD l
  let got (s : State) (ty : IT) (r : VOp) (l : Nat) : Nat := if live s l then bitsA s ty r l else 0
  (∀ (o : Shfl) s (n : VReg), s.Inv = true → CanIssue (.shfl o) s → (Instr.shfl o).qRefs = [] → o.d = .v n →
    let seg := if o.seg = 0 then 32 else 2 ^ o.seg.toNat
    let j (l : Nat) : Nat := l % seg
    let k (l : Nat) : Nat := ctlB s o.n l
    let src (l : Nat) : Option Nat := match o.mode with
      | .idx => some (k l % seg)
      | .up => if k l ≤ j l then some (j l - k l) else none
      | .down => if j l + k l < seg then some (j l + k l) else none
      | .xor => if j l ^^^ k l < seg then some (j l ^^^ k l) else none
    let val (l : Nat) : Nat := match src l with | some t => got s o.ty o.a (l - j l + t) | none => bitsA s o.ty o.a l
    let ok (l : Nat) : Bool := match src l with | some t => live s (l - j l + t) | none => false
    Yields (.shfl o) s fun t => Completes (.shfl o) s t ∧ t.regsOf = { s.regsOf with v := t.regsOf.v, p := t.regsOf.p } ∧
      (∀ r l, l < 32 → t.vreg s.cur r l =
        if (effMask s s.cur o.hd).getLsbD l = true ∧ n.val ≤ r ∧ r < n.val + o.ty.words
        then BitVec.ofNat 32 (val l / 2 ^ (32 * (r - n.val))) else s.vreg s.cur r l) ∧
      (∀ p l, l < 32 → (t.regsOf.p.get 0 p).getLsbD l =
        if p = o.p.val ∧ o.p.val ≠ 15 ∧ (effMask s s.cur o.hd).getLsbD l = true then ok l
        else (s.regsOf.p.get 0 p).getLsbD l)) ∧
  (∀ o : Perm, VPlain (.perm o) o.hd o.d 1 fun s l =>
    let n := ctlB s o.b l % 64
    if n < 32 then got s .b32 o.a n else got s .b32 o.c (n - 32)) ∧
  (∀ o : VBin, VPlain (.bcast o) o.hd o.d o.ty.words fun s _ =>
    let n := match o.b with
      | .v r => bitsA s .b32 r ((lowest (s.m0 s.cur)).getD 0)
      | .s r => (s.sreg s.cur r.val).toNat % 2 ^ 32
      | .imm i => i.toNat
    got s o.ty o.a (n % 32)) ∧
  (let elem (s : State) (h : Hd) (r : VOp) (ty : IT) (k x : Nat) : Prop :=
     (∃ n, r = .v n) ∨ k ∈ s.onLanes h → x = if live s k then s.opnd s.cur (s.onLanes h) r ty.words k else 0
   (∀ o : Shfl,
     let seg := if o.seg = 0 then 32 else 2 ^ o.seg.toNat
     let ctl (s : State) (l : Nat) : Nat := s.srcB s.cur (s.onLanes o.hd) o.n 1 false l
     let src (s : State) (l : Nat) : Option Nat := (match o.mode with
       | .idx => some (ctl s l % seg)
       | .up => if ctl s l ≤ l % seg then some (l % seg - ctl s l) else none
       | .down => if l % seg + ctl s l < seg then some (l % seg + ctl s l) else none
       | .xor => if l % seg ^^^ ctl s l < seg then some (l % seg ^^^ ctl s l) else none).map fun t => l - l % seg + t
     QResult (.shfl o) o.hd (some o.d) o.ty.words
       (fun s l x => match src s l with
         | some k => elem s o.hd o.a o.ty k x
         | none => x = s.opnd s.cur (s.onLanes o.hd) o.a o.ty.words l)
       (pd := fun s p l => if p = o.p.val ∧ o.p.val ≠ 15 ∧ l ∈ s.onLanes o.hd
         then (match src s l with | some k => live s k | none => false) else (s.regsOf.p.get 0 p).getLsbD l)) ∧
   (∀ o : Perm, QResult (.perm o) o.hd (some o.d) 1 fun s l x =>
     let n := s.srcB s.cur (s.onLanes o.hd) o.b 1 false l % 64
     if n < 32 then elem s o.hd o.a .b32 n x else elem s o.hd o.c .b32 (n - 32) x) ∧
   (∀ o : VBin, QResult (.bcast o) o.hd (some o.d) o.ty.words fun s _ x =>
     let low := (lowest (s.m0 s.cur)).getD 0
     (∀ q, o.b = .v (.q q) → low ∈ s.onLanes o.hd) →
       elem s o.hd o.a o.ty ((match o.b with
         | .v r => s.opnd s.cur (s.onLanes o.hd) r 1 low
         | .s r => (s.sreg s.cur r.val).toNat % 2 ^ 32
         | .imm i => i.toNat) % 32) x))

/-- R90, R91, R267: RDX writes the tree's value and SCANX each lane's scan to every lane of m0, from the lanes of m0 whose
predicate is true; a lane with nothing receives the identity; a queue register takes the lanes' elements, and as a destination
is pushed to by every lane of m0 (the model's choice, log entry 32). R268: the flags of each combination go to the lane that performs it
where it is in m0, else to the lowest lane of m0, and raise FPEXC where one is enabled (R63, R72). R269: MATCH.first gives the
candidates equal to the lowest one, MATCH.all whether all candidates are equal. -/
def Obligations.ReductionsAndMatch : Prop :=
  (let shape (i : Instr) (scan : Bool) (o : Rdx) : Prop :=
     ∀ s, s.Inv = true → CanIssue i s → Fed i s (s.onLanes o.hd).length (lanesOf (s.m0 s.cur)).length →
       let words := match o.op with | .i _ ty => ty.words | .f _ ft => ft.words
       let x (l : Nat) : Option Nat := if l ∈ s.onLanes o.hd then some (s.opnd s.cur (s.onLanes o.hd) o.a words l) else none
       let f (a b : Nat) : Nat := (rdxComb o.op (s.fpcr s.cur) a b).1
       let val (l : Nat) : Nat := (if scan then scanOf f x 5 l else treeOf f x 5 0).getD (rdxIdent o.op)
       let fl (l : Nat) : Fl := rdxFl o.op (s.fpcr s.cur) scan x (s.m0 s.cur) l
       let inM0 (l : Nat) : Prop := l < 32 ∧ (s.m0 s.cur).getLsbD l = true
       let ends (t : State) : Prop :=
         IssuedAs i s t (nextPc s.ctlOf.pc i) (goesOn i) s.ctlOf ∧ (t.warp s.cur).stack = (s.warp s.cur).stack ∧
         t.regsOf = { s.regsOf with v := t.regsOf.v, fpsr := t.regsOf.fpsr } ∧ (i.qRefs = [] → OnlyWarps s t) ∧
         ∀ l, l < 32 → t.fpsr s.cur l = if (s.m0 s.cur).getLsbD l = true then s.fpsr s.cur l ||| fl l else s.fpsr s.cur l
       (∀ n, o.d = .v n → (∀ l, inM0 l → trapBits (s.fpcr s.cur) (fl l) = 0) → Yields i s fun t => ends t ∧
         Took i s t (s.onLanes o.hd).length ∧ ∀ r l, l < 32 → t.vreg s.cur r l =
           if (s.m0 s.cur).getLsbD l = true ∧ n.val ≤ r ∧ r < n.val + words
           then BitVec.ofNat 32 (val l / 2 ^ (32 * (r - n.val))) else s.vreg s.cur r l) ∧
       (∀ q e b, o.d = .q q → s.streamOf s.cur q.val = some (e, b) → Takes s e (lanesOf (s.m0 s.cur)).length →
         (∀ l, inM0 l → trapBits (s.fpcr s.cur) (fl l) = 0) → Yields i s fun t => ends t ∧ t.regsOf.v = s.regsOf.v ∧
         Pushed i s t (s.onLanes o.hd).length e (lanesOf (s.m0 s.cur)) val) ∧
       (i.qRefs = [] → Traps i s inM0 fl)
   (∀ o : Rdx, shape (.rdx o) false o) ∧ (∀ o : Rdx, shape (.scanx o) true o)) ∧
  (let cand (o : MatchOp) (s : State) (l : Nat) : Bool :=
     (effMask s s.cur o.hd).getLsbD l && (s.mreg s.cur o.b.val).getLsbD l
   (∀ (o : MatchOp) d, o.dst = .first d → MResult (.matchX o) (fun _ => true) d fun s =>
     maskOf ((List.range 32).filter fun l => cand o s l &&
       (List.range 32).all fun k => !(cand o s k && (List.range k).all fun j => !cand o s j) || bitsA s o.ty o.a l == bitsA s o.ty o.a k)) ∧
   (∀ (o : MatchOp) d, o.dst = .all d → PResult (.matchX o) d (fun s => s.m0 s.cur) fun s _ =>
     (List.range 32).all fun l => (List.range 32).all fun k =>
       !(cand o s l && cand o s k) || bitsA s o.ty o.a l == bitsA s o.ty o.a k)) ∧
  (∀ (o : MatchOp) s, s.Inv = true → CanIssue (.matchX o) s → (Instr.matchX o).qRefs ≠ [] →
    let ls := s.onLanes o.hd
    Fed (.matchX o) s ls.length ls.length →
    let cands := ls.filter fun l => (s.mreg s.cur o.b.val).getLsbD l
    let val (l : Nat) : Nat := s.opnd s.cur ls o.a o.ty.words l
    let ends (t : State) : Prop :=
      IssuedAs (.matchX o) s t (nextPc s.ctlOf.pc (.matchX o)) (goesOn (.matchX o)) s.ctlOf ∧
      (t.warp s.cur).stack = (s.warp s.cur).stack ∧ Took (.matchX o) s t ls.length
    match o.dst with
    | .first d => d.val ≠ 0 → Yields (.matchX o) s fun t => ends t ∧
        MWrites s t d.val (maskNew s d (maskOf (cands.filter fun l => cands.head?.any fun c => val l == val c)))
    | .all d => Yields (.matchX o) s fun t => ends t ∧
        PWrites s t d (s.m0 s.cur) fun _ => cands.all fun l => cands.all fun k => val l == val k)

/-! ### Control flow -/

/-- R206, R217, R219: NOP, YIELD and (in an unchecked gang) SEGEND change no register and no memory; they count in the run
and honour the marker. -/
def Obligations.NoEffectInstructions : Prop :=
  ∀ i s, CanIssue i s → (match i with | .nop _ | .yield _ | .segend _ => True | _ => False) →
    Yields i s fun t => Completes i s t ∧ t.regsOf = s.regsOf

/-- R34, R207, R210, R212: where BRA, CALL and JMPI go; a non-uniform BRA raises DIVERGE 1, and a CALL that would make the
stack deeper than 1,024 entries raises DIVERGE 2 with nothing pushed. -/
def Obligations.Branches : Prop :=
  let target (s : State) (off : BitVec 32) : DWord := (s.warp s.cur).ctl.pc + off.signExtend 64 * 4
  (∀ (o : Br) s, s.Inv = true → CanIssue (.bra o) s →
    let t := s.m0 s.cur &&& s.predMask s.cur o.hd.pr
    let goes (pc : DWord) : Prop := Yields (.bra o) s fun u =>
      Goes (.bra o) s u pc (s.m0 s.cur) (s.warp s.cur).stack (s.warp s.cur).ctl.exitedLanes
    (t = s.m0 s.cur → goes (target s o.off)) ∧
    (t = 0 → s.m0 s.cur ≠ 0 → goes (nextPc (s.warp s.cur).ctl.pc (.bra o))) ∧
    (t ≠ s.m0 s.cur → t ≠ 0 →
      ∃ u, u.regsOf = s.regsOf ∧ (u.warp s.cur).stack = (s.warp s.cur).stack ∧ OnlyWarps s u ∧
        Faults (.bra o) s u { cause := .diverge, faddr := 1 })) ∧
  (∀ (o : Br) s, s.Inv = true → CanIssue (.call o) s → uniformOn s s.cur o.hd = true →
    if (s.warp s.cur).stack.length < 1024 then
      Yields (.call o) s fun u => Goes (.call o) s u (target s o.off) (s.m0 s.cur)
        (⟨.ret, nextPc (s.warp s.cur).ctl.pc (.call o), s.m0 s.cur⟩ :: (s.warp s.cur).stack) (s.warp s.cur).ctl.exitedLanes
    else ∃ u, u.regsOf = s.regsOf ∧ (u.warp s.cur).stack = (s.warp s.cur).stack ∧ OnlyWarps s u ∧
      Faults (.call o) s u { cause := .diverge, faddr := 2 }) ∧
  (∀ (o : Src1) s, s.Inv = true → CanIssue (.jmpi o) s → uniformOn s s.cur o.hd = true →
    Yields (.jmpi o) s fun u => Goes (.jmpi o) s u (s.sreg s.cur o.a.val) (s.m0 s.cur) (s.warp s.cur).stack
      (s.warp s.cur).ctl.exitedLanes)

/-- R36, R208: BRD's three outcomes and its DIVERGE 2. -/
def Obligations.BrdSplitsTheWarp : Prop :=
  ∀ (o : Brd) s, s.Inv = true → CanIssue (.brd o) s →
    let pc := (s.warp s.cur).ctl.pc
    let stk := (s.warp s.cur).stack
    let m := s.m0 s.cur
    let p := s.predMask s.cur o.hd.pr
    let join : StackEntry := ⟨.join, pc + o.joff.signExtend 64 * 4, m⟩
    let tgt := pc + o.toff.signExtend 64 * 4
    let goes (a : DWord) (k : Mask) (st : List StackEntry) : Prop := Yields (.brd o) s fun u =>
      Goes (.brd o) s u a k st (s.warp s.cur).ctl.exitedLanes
    let deep : Prop := ∃ u, u.regsOf = s.regsOf ∧ (u.warp s.cur).stack = stk ∧ OnlyWarps s u ∧
      Faults (.brd o) s u { cause := .diverge, faddr := 2 }
    (m &&& p ≠ 0 → m &&& ~~~p ≠ 0 →
      if stk.length + 2 ≤ 1024 then goes (nextPc pc (.brd o)) (m &&& ~~~p) (⟨.path, tgt, m &&& p⟩ :: join :: stk) else deep) ∧
    (m &&& p ≠ 0 → m &&& ~~~p = 0 → if stk.length + 1 ≤ 1024 then goes tgt m (join :: stk) else deep) ∧
    (m &&& p = 0 → if stk.length + 1 ≤ 1024 then goes (nextPc pc (.brd o)) m (join :: stk) else deep)

/-- R37, R211: what JOIN and RET do with the top of the stack, and their DIVERGE 3 and 4. -/
def Obligations.JoinAndReturn : Prop :=
  let stays (i : Instr) (s : State) (n : DWord) : Prop :=
    ∃ u, u.regsOf = s.regsOf ∧ (u.warp s.cur).stack = (s.warp s.cur).stack ∧ OnlyWarps s u ∧
      Faults i s u { cause := .diverge, faddr := n }
  (∀ (o : Plain) s, s.Inv = true → CanIssue (.join o) s → uniformOn s s.cur o.hd = true →
    match (s.warp s.cur).stack with
    | [] => stays (.join o) s 4
    | e :: r =>
      let goes (pc : DWord) : Prop := Yields (.join o) s fun u =>
        Goes (.join o) s u pc (e.mask &&& Config.laneMask) r (s.warp s.cur).ctl.exitedLanes
      if e.mask = 0 then PopsTo (.join o) s r (s.warp s.cur).ctl.exitedLanes
      else match e.kind with
        | .path => goes e.addr
        | .join => if e.addr = (s.warp s.cur).ctl.pc then goes (nextPc (s.warp s.cur).ctl.pc (.join o)) else stays (.join o) s 3
        | .ret => stays (.join o) s 3) ∧
  (∀ (o : Plain) s, s.Inv = true → CanIssue (.ret o) s → uniformOn s s.cur o.hd = true →
    match (s.warp s.cur).stack with
    | [] => stays (.ret o) s 4
    | e :: r =>
      if e.mask = 0 then PopsTo (.ret o) s r (s.warp s.cur).ctl.exitedLanes
      else Yields (.ret o) s fun u =>
        Goes (.ret o) s u e.addr (e.mask &&& Config.laneMask) r (s.warp s.cur).ctl.exitedLanes)

/-- R38, R213: EXIT removes its lanes from m0 and from every stack entry; with lanes left the warp goes on, with none it
pops, and with nothing to pop it has exited. -/
def Obligations.ExitEndsLanes : Prop :=
  ∀ (o : Plain) s, s.Inv = true → CanIssue (.exit o) s →
    let ls := s.m0 s.cur &&& s.predMask s.cur o.hd.pr
    let m := s.m0 s.cur &&& ~~~ls
    let stk := (s.warp s.cur).stack.map fun e => { e with mask := e.mask &&& ~~~ls }
    let ex := (s.warp s.cur).ctl.exitedLanes ||| ls
    (ls = 0 → Yields (.exit o) s fun t => Completes (.exit o) s t ∧ t.regsOf = s.regsOf) ∧
    (ls ≠ 0 → m ≠ 0 → Yields (.exit o) s fun t =>
      Goes (.exit o) s t (nextPc (s.warp s.cur).ctl.pc (.exit o)) m stk ex) ∧
    (ls ≠ 0 → m = 0 → PopsTo (.exit o) s stk ex)

/-- R218: TRAP and BKPT take their precise fault at their own address. -/
def Obligations.TrapAndBreakpoint : Prop :=
  (∀ (o : Trap) s, CanIssue (.trap o) s → uniformOn s s.cur o.hd = true →
    ∃ u, u.regsOf = s.regsOf ∧ (u.warp s.cur).ctl.pc = (s.warp s.cur).ctl.pc ∧ OnlyWarps s u ∧
      Faults (.trap o) s u { cause := .softtrap, faddr := o.imm.setWidth 64 }) ∧
  (∀ (o : Plain) s, CanIssue (.bkpt o) s → uniformOn s s.cur o.hd = true →
    ∃ u, u.regsOf = s.regsOf ∧ (u.warp s.cur).ctl.pc = (s.warp s.cur).ctl.pc ∧ OnlyWarps s u ∧
      Faults (.bkpt o) s u { cause := .bkpt })

/-- R60, R58: taking a precise fault records FPC, FCAUSE, FADDR, FLANES (m0 unless the cause names lanes) and clears
RPROG.valid outside an MLOOP; the warp parks, with its registers, stack and exited lanes as they were. -/
def Obligations.FaultEntry : Prop :=
  ∀ s w f, w ∉ (s.world (s.worldOfWarp w)).handlers →
    let t := ((takeFault w f).run s).2
    let m := f.lanes.getD (s.m0 w)
    let r := (t.warp w).ctl.fault
    (t.warp w).ctl.status = .faulted ∧ (t.warp w).regs = (s.warp w).regs ∧ (t.warp w).stack = (s.warp w).stack ∧
    (t.warp w).ctl.exitedLanes = (s.warp w).ctl.exitedLanes ∧ (t.warp w).ctl.pc = (s.warp w).ctl.pc ∧
    r.fpc = f.fpc.getD (s.warp w).ctl.pc ∧ r.fcause.toNat = f.cause.code + (if f.part then 2 ^ 16 else 0) ∧ r.faddr = f.faddr ∧
    r.flanesl = BitVec.ofNat 64 m.toNat ∧ r.flanesh = BitVec.ofNat 64 (m.toNat / 2 ^ 64) ∧
    (f.rprog = none → r.rprog.getLsbD 63 = false) ∧ (∀ x, f.rprog = some x → r.rprog = x)

/-- R57, R194, R201: the checks at issue, in order: an ill-formed instruction or a register outside the allotment raises
ILLOP; then an S-level opcode at U level raises PRIV; then a conflict within the run raises RUNRULE at the earliest
conflicting address, and a side-effecting instruction without its marker RUNRULE at its own. -/
def Obligations.IssueChecksInOrder : Prop :=
  ∀ i s, (s.warp s.cur).ctl.status = .ready → (s.warp s.cur).ctl.runCnt.val ≠ 16 →
    (s.runOf (runOfWarp s.cur)).st = .resident → i.hd ≠ none →
    let c := (s.warp s.cur).ctl
    let it := runItem i c.pc
    let legal : Prop := i.wf = true ∧ belowAllot i c.alloc = true
    let clash := c.runLog.find? fun e => conflicts e it
    (¬legal → Faults i s s { cause := .illop }) ∧
    (legal → isS i = true → sLevel s s.cur = false → Faults i s s { cause := .priv }) ∧
    (legal → isS i = false → ∀ e, clash = some e → Faults i s s { cause := .runrule, faddr := e.addr }) ∧
    (legal → isS i = false → clash = none → it.side = true → (∀ h, i.hd = some h → h.mark = false) →
      Faults i s s { cause := .runrule, faddr := c.pc })

/-! ### Special registers -/

/-- R9, R13, R56, R58, R220: SRD reads the special register named, each with the fields the rules give it; the lane register gives
each lane its index, and to a uniform register the lowest lane of m0. -/
def Obligations.SpecialRegisterReads : Prop :=
  (∀ (o : Srd) d, o.dst = .s d → UResult (.srd o) o.hd d fun s =>
    if o.code = 0 then BitVec.ofNat 64 ((lowest (s.m0 s.cur)).getD 0) else specialReg s s.cur o.code.toNat) ∧
  (∀ (o : Srd) s (n : VReg) words, s.Inv = true → CanIssue (.srd o) s → uniformOn s s.cur o.hd = true →
    (words = 1 ∧ o.dst = .v32 (.v n)) ∨ (words = 2 ∧ o.dst = .v64 (.v n)) →
    Yields (.srd o) s fun t => Completes (.srd o) s t ∧ VWrites s t n.val words (s.m0 s.cur) fun l =>
      (if o.code = 0 then l else (specialReg s s.cur o.code.toNat).toNat) % 2 ^ (32 * words)) ∧
  (∀ s, let r (k : Nat) := specialReg s s.cur k
    r 0x05 = 32 ∧ r 0x06 = BitVec.ofNat 64 s.time ∧ r 0x10 = (s.regsOf.fpcr).setWidth 64 ∧
    r 0x11 = BitVec.ofNat 64 (s.warp s.cur).ctl.runCnt.val ∧ r 0x12 = BitVec.ofNat 64 (s.warp s.cur).stack.length ∧
    r 0x18 = (s.warp s.cur).ctl.fault.fpc ∧ r 0x19 = (s.warp s.cur).ctl.fault.fcause ∧ r 0x1A = (s.warp s.cur).ctl.fault.faddr ∧
    r 0x1B = s.ctlOf.fault.flanesl ∧ r 0x1C = s.ctlOf.fault.flanesh ∧ r 0x1D = s.ctlOf.fault.rprog) ∧
  (∀ s, let r (k : Nat) := specialReg s s.cur k
    let h := (s.grid (s.gridOfWarp s.cur)).hdr
    let gang := s.gangOfWarp s.cur
    let i := gang % 2 ^ 32
    let stages := h.gx * h.gy * h.gz
    let b := s.block (s.cur / 64)
    let at_ (g : Nat) : Option (Nat × Nat) := (s.gang g).place.map fun c => (2 * (c / 4 % 8) + c % 2, 2 * (c / 4 / 8) + c % 4 / 2)
    let toward (g : Nat) : Nat := match at_ gang, at_ g with
      | some p, some q =>
        if q.1 = p.1 + 1 ∧ q.2 = p.2 then 0 else if p.1 = q.1 + 1 ∧ q.2 = p.2 then 1
        else if q.2 = p.2 + 1 ∧ q.1 = p.1 then 2 else if p.2 = q.2 + 1 ∧ q.1 = p.1 then 3 else 7
      | _, _ => 7
    let up : Nat := if h.chain ≤ i / stages + 1 then 7 else toward (gang + stages)
    let down : Nat := if i / stages = 0 then 7 else toward (gang - stages)
    let ring := s.ring b.core
    let slots (p : RSlot → Bool) : Nat := ((List.range 8).filter fun k => p (ring.slots.get {} k)).length
    r 0x01 = BitVec.ofNat 64 (s.cur % 64 + s.ctlOf.role * 2 ^ 8 + s.ctlOf.roleIdx * 2 ^ 16) ∧
    r 0x02 = BitVec.ofNat 64 (b.idx + (h.gsize - 1) * 2 ^ 2) ∧
    r 0x03 = BitVec.ofNat 64 (i % h.gx + i / h.gx % h.gy * 2 ^ 16 + i / (h.gx * h.gy) % h.gz * 2 ^ 32) ∧
    r 0x04 = BitVec.ofNat 64 (i / stages % 16 + (h.chain - 1) * 2 ^ 4 + up * 2 ^ 8 + down * 2 ^ 12) ∧
    r 0x07 = BitVec.ofNat 64 (s.gridOfWarp s.cur % 2 ^ 48 * 2 ^ 16) ∧ r 0x08 = BitVec.ofNat 64 b.spadSize ∧
    r 0x20 = BitVec.ofNat 64 (ring.head.val + slots (fun t => t.st != .empty) * 2 ^ 8) ∧
    r 0x21 = BitVec.ofNat 64 (ring.tail.val + slots (fun t => t.st == .full) * 2 ^ 8))

/-- R52, R57, R58, R221: SRW of FPCR writes a legal value and raises ILLOP on any other; SRW of a fault-record register
writes it at S level and raises PRIV at U level. That bits 63:32 of a source of FPCR count as reserved (log entry 72), and that the
bits R58 calls zero stay zero (log entry 65), is how the model reads the rules. -/
def Obligations.SpecialRegisterWrites : Prop :=
  ∀ (o : Srw) s, s.Inv = true → CanIssue (.srw o) s → uniformOn s s.cur o.hd = true →
    let v : DWord := match o.src with | .s r => s.sreg s.cur r.val | .imm i => i.setWidth 64
    let f := (s.warp s.cur).ctl.fault
    let faults (c : Cause) : Prop := ∃ u, u.regsOf = s.regsOf ∧ OnlyWarps s u ∧ Faults (.srw o) s u { cause := c }
    let sets (g : FaultRec) : Prop := Yields (.srw o) s fun t =>
      CompletesAs (.srw o) s t { s.ctlOf with fault := g } ∧ t.regsOf = s.regsOf
    if o.code = 0x10 then
      (if v.toNat < 1024 ∧ v.toNat % 8 ≤ 4
       then Yields (.srw o) s fun t => Completes (.srw o) s t ∧ t.regsOf = { s.regsOf with fpcr := v.setWidth 32 }
       else faults .illop)
    else if sLevel s s.cur = false then faults .priv
    else (o.code = 0x18 → sets { f with fpc := v }) ∧ (o.code = 0x19 → sets { f with fcause := v &&& 0x1FFFF }) ∧
      (o.code = 0x1A → sets { f with faddr := v }) ∧ (o.code = 0x1B → sets { f with flanesl := v }) ∧
      (o.code = 0x1C → sets { f with flanesh := v }) ∧ (o.code = 0x1D → sets { f with rprog := v &&& 0x80000007FFFF007F })

/-! ### Encodings -/

/-- R184 to R190, R200: words written out field by field decode to the instructions they stand for, one of each page; the
zero word, an unassigned opcode, a class the opcode does not accept and a nonzero unused field decode to none. -/
def Obligations.DecodeWords : Prop :=
  let pt : Hd := { mark := false, pr := { neg := false, n := 15 } }
  let mk : Hd := { mark := true, pr := { neg := true, n := 2 } }
  decodeWord (wordOf 0 0 15 0x001 0 0 0 0 0 0 0) = .ok (.nop { hd := pt }) ∧
  decodeWord (wordOf 1 0 15 0x002 6 0 0 0 0 0 0xFFFFFFFC) = .ok (.bra { hd := pt, off := 0xFFFFFFFC }) ∧
  decodeWord (wordOf 0 0 15 0x040 3 3 4 5 0 (3 * 8) 0) = .ok (.sadd { hd := pt, d := 3, a := 4, b := .s 5, ty := .b64 }) ∧
  decodeWord (wordOf 0 1 18 0x080 0 4 5 6 0 (7 * 8) 0) =
    .ok (.iadd { hd := mk, d := .v 4, a := .v 5, b := .v (.v 6), ty := .s32, sat := false }) ∧
  decodeWord (wordOf 1 0 15 0x0C0 2 4 5 0 0 (2 * 16) 0x3F800000) =
    .ok (.fadd { hd := pt, d := .v 4, a := .v 5, b := .imm 0x3F800000, ft := .f32, rm := .rne }) ∧
  decodeWord 0 = .error .opcode ∧
  decodeWord (wordOf 0 0 15 0x013 0 0 0 0 0 0 0) = .error .opcode ∧
  decodeWord (wordOf 0 0 15 0x001 1 0 0 0 0 0 0) = .error .field ∧
  decodeWord (wordOf 0 0 15 0x001 0 0 1 0 0 0 0) = .error .field ∧
  decodeWord (wordOf 3 0 15 0x001 0 0 0 0 0 0 0) = .error .len

/-! ### Barriers -/

/-- R40, R214, R215: an arrival of BAR or ARRV counts once in the open phase, whose count its first arrival fixes; the
arrival that completes the phase raises C and opens the next (a waiting warp issues again, log entry 27), BAR then goes on with an acquire fence at .bk, and ARRV writes the
number of the phase, each after a release fence at .bk, for BAR one that follows an acquire fence (R145); a BAR that does not complete it waits and goes on when C has passed its phase. An argument out of
range raises ILLOP, another count DIVERGE 5, with nothing changed. AWAIT waits until its phase is complete. R216: the GBAR arrival that is the last of the gang's non-exited warps completes the phase: the count of phases rises,
the blocks hold no arrival, and every warp of the gang has acquired at .gg; any other waits for the phase. -/
def Obligations.BlockAndGangBarriers : Prop :=
  (let args (s : State) (a : BarArg) : Nat × Nat :=
     match a with | .reg x y => ((s.sreg s.cur x.val).toNat, (s.sreg s.cur y.val).toNat) | .imm n c => (n.val, c.toNat)
   let me (s : State) : Block := s.block (s.cur / 64)
   let bar (s : State) (a : BarArg) : Bar := (me s).bars.get {} (args s a).1
   let needs (s : State) (a : BarArg) : Nat := if (args s a).2 = 0 then liveCount s (s.warpsOfBlock (s.cur / 64)) else (args s a).2
   let legal (s : State) (a : BarArg) : Prop := (args s a).1 ≤ 15 ∧ (args s a).2 ≤ 64
   let fits (s : State) (a : BarArg) : Prop := (bar s a).isOpen = true → (bar s a).cnt = (args s a).2
   let last (s : State) (a : BarArg) : Prop := needs s a ≤ (bar s a).arr + 1
   let next (s : State) (a : BarArg) (mine : View) : Block :=
     let b := bar s a
     let v := b.view.join mine
     let one : Tab Bar := (me s).bars.put (args s a).1 { b with arr := b.arr + 1, cnt := (args s a).2, isOpen := true, view := v }
     { me s with bars := if needs s a ≤ b.arr + 1
                         then one.put (args s a).1 { c := b.c + 1, arr := 0, cnt := 0, isOpen := false, passed := b.passed.join v } else one }
   let fenced (t : State) (c : Ctl) : Ctl := { c with view := t.ctlOf.view, rels := t.ctlOf.rels }
   let released (s t : State) (v : View) : Prop := v.covers (s.relView s.cur) ∧ ∃ r ∈ t.ctlOf.rels, r.insts = [instOf s .bk s.cur] ∧ r.view = v
   let stops (i : Instr) (s : State) (f : FaultInfo) : Prop := ∃ u, u.regsOf = s.regsOf ∧ OnlyWarps s u ∧ Faults i s u f
   let done (c p : Word) : Prop := 1 ≤ (c - p).toNat ∧ (c - p).toNat ≤ 2 ^ 31
   (∀ (o : BarOp) s, s.Inv = true → CanIssue (.bar o) s → uniformOn s s.cur o.hd = true → s.ctlOf.arrived = none →
     (¬legal s o.arg → stops (.bar o) s { cause := .illop }) ∧
     (legal s o.arg → ¬fits s o.arg → stops (.bar o) s { cause := .diverge, faddr := 5 }) ∧
     (legal s o.arg → fits s o.arg → last s o.arg → Yields (.bar o) s fun t =>
       IssuedKeep (.bar o) s t (fenced t s.ctlOf) ∧ ∃ v, BlockTo s t (s.cur / 64) (next s o.arg v) ∧ released s t v) ∧
     (legal s o.arg → fits s o.arg → ¬last s o.arg → Yields (.bar o) s fun t =>
       WaitsFor s t (.bar (args s o.arg).1 (bar s o.arg).c.toNat) (fenced t { s.ctlOf with arrived := some (bar s o.arg).c.toNat }) ∧
         ∃ v, BlockTo s t (s.cur / 64) (next s o.arg v) ∧ released s t v)) ∧
   (∀ (o : BarOp) s p, s.Inv = true → CanIssue (.bar o) s → uniformOn s s.cur o.hd = true → s.ctlOf.arrived = some p →
     let c := (bar s o.arg).c
     (done c (BitVec.ofNat 32 p) → Yields (.bar o) s fun t => CompletesAs (.bar o) s t (fenced t s.ctlOf) ∧ t.regsOf = s.regsOf) ∧
     (¬done c (BitVec.ofNat 32 p) → Yields (.bar o) s fun t =>
       WaitsFor s t (.bar (args s o.arg).1 p) s.ctlOf ∧ OnlyWarps s t)) ∧
   (∀ (o : Arrv) s, s.Inv = true → CanIssue (.arrv o) s → uniformOn s s.cur o.hd = true →
     (¬legal s o.arg → stops (.arrv o) s { cause := .illop }) ∧
     (legal s o.arg → ¬fits s o.arg → stops (.arrv o) s { cause := .diverge, faddr := 5 }) ∧
     (legal s o.arg → fits s o.arg → Yields (.arrv o) s fun t =>
       IssuedAs (.arrv o) s t (nextPc s.ctlOf.pc (.arrv o)) (goesOn (.arrv o)) (fenced t s.ctlOf) ∧ released s t (s.relView s.cur) ∧
         (t.warp s.cur).stack = (s.warp s.cur).stack ∧ SWrites s t o.d ((bar s o.arg).c.setWidth 64) ∧
         BlockTo s t (s.cur / 64) (next s o.arg (s.relView s.cur)))) ∧
   (∀ (o : Await) s, s.Inv = true → CanIssue (.await o) s → uniformOn s s.cur o.hd = true →
     let n := match o.arg with | .reg b => (s.sreg s.cur b.val).toNat | .imm n => n.val
     let p : Word := (s.sreg s.cur o.a.val).setWidth 32
     let c := ((me s).bars.get {} n).c
     (15 < n → stops (.await o) s { cause := .illop }) ∧
     (n ≤ 15 → done c p → Yields (.await o) s fun t => CompletesAs (.await o) s t (fenced t s.ctlOf) ∧ t.regsOf = s.regsOf) ∧
     (n ≤ 15 → ¬done c p → Yields (.await o) s fun t => WaitsFor s t (.await n p.toNat) s.ctlOf ∧ OnlyWarps s t))) ∧
  (∀ (o : Plain) s, s.Inv = true → CanIssue (.gbar o) s → uniformOn s s.cur o.hd = true →
     let run := s.cur / 256
     let p := (s.runOf run).gbar
     let arr := (s.blocksOfRun run).foldl (fun n b => n + (s.block b).gbarArr) 0
     (s.ctlOf.arrived = none → s.cur / 64 ∈ s.blocksOfRun run → liveCount s (s.warpsOfRun run) ≤ arr + 1 →
       Yields (.gbar o) s fun t =>
         (t.warp s.cur).ctl.pc = nextPc s.ctlOf.pc (.gbar o) ∧ (t.warp s.cur).ctl.status = .parked .results ∧
         (t.runOf run).gbar = p + 1 ∧ (∀ b ∈ s.blocksOfRun run, (t.block b).gbarArr = 0) ∧
         (∀ w ∈ s.warpsOfRun run, (t.warp w).ctl.acq = s.seqNo + 1) ∧
         (∀ w, (t.warp w).regs = (s.warp w).regs ∧ (t.warp w).stack = (s.warp w).stack) ∧ t.mem = s.mem) ∧
     (s.ctlOf.arrived = none → s.cur / 64 ∈ s.blocksOfRun run → arr + 1 < liveCount s (s.warpsOfRun run) →
       Yields (.gbar o) s fun t =>
         WaitsFor s t (.gbar p) { s.ctlOf with arrived := some p, view := t.ctlOf.view, rels := t.ctlOf.rels } ∧
         t = { s with warps := t.warps, blocks := t.blocks, runs := t.runs } ∧
         (∀ b, t.block b = if b = s.cur / 64 then { s.block b with gbarArr := (s.block b).gbarArr + 1 } else s.block b) ∧
         ∃ v : View, v.covers (s.relView s.cur) ∧
           ∀ r, t.runOf r = if r = run then { s.runOf r with gview := (s.runOf r).gview.join v } else s.runOf r) ∧
     (∀ q, s.ctlOf.arrived = some q → q < p → Yields (.gbar o) s fun t => Completes (.gbar o) s t ∧ t.regsOf = s.regsOf) ∧
     (∀ q, s.ctlOf.arrived = some q → p ≤ q → Yields (.gbar o) s fun t => WaitsFor s t (.gbar q) s.ctlOf ∧ OnlyWarps s t))

/-! ### Memory -/

/-- R94, R226, R270, R272, R275: LD, LDA and SLD from scratchpads through the windows: each lane with effect receives the
bytes at its address, extended by its type; LDA acquires, and every load takes what the presence bit it finds orders (R133,
R151). A lane whose address is no multiple of the size raises ALIGN (R273): for LD and LDA FLANES names those lanes, FADDR the
lowest one's address, and the other lanes are performed (R61, R274). An absent line holds the instruction (R98). -/
def Obligations.ScratchpadLoads : Prop :=
  let loaded (ty : IT) (v : Nat) : Nat := if ty.signed ∧ ty.bytes ≤ 2 then (BitVec.ofInt 32 (signed ty.bits v)).toNat else v
  (∀ (o : LdSt) s (place : Nat → Nat × Nat), s.Inv = true → CanIssue (.ld o) s →
    (∀ l ∈ s.onLanes o.hd, SpadAt s (memAddrOf s s.cur o.mem l) o.ty.bytes { rd := true, ringOk := o.sc.isNone } (place l)) →
    Yields (.ld o) s fun t => CompletesAs (.ld o) s t (spadSeen s t s.ctlOf ((s.onLanes o.hd).map place) none) ∧
      VWrites s t o.d.val o.ty.words (effMask s s.cur o.hd) fun l => loaded o.ty (s.spadNum (place l) o.ty.bytes)) ∧
  (∀ (o : LdaStr) s (place : Nat → Nat × Nat), s.Inv = true → CanIssue (.lda o) s → s.onLanes o.hd ≠ [] →
    (∀ l ∈ s.onLanes o.hd, SpadAt s (memAddrOf s s.cur o.mem l) o.ty.bytes { rd := true } (place l)) →
    Yields (.lda o) s fun t => CompletesAs (.lda o) s t (spadSeen s t s.ctlOf ((s.onLanes o.hd).map place) (some o.sc)) ∧
      VWrites s t o.d.val o.ty.words (effMask s s.cur o.hd) fun l => loaded o.ty (s.spadNum (place l) o.ty.bytes)) ∧
  (∀ (o : Sld) s p, s.Inv = true → CanIssue (.sld o) s → uniformOn s s.cur o.hd = true →
    SpadAt s (s.sreg s.cur o.a.val + s.srcU s.cur o.off) o.ty.bytes { rd := true, ringOk := true } p →
    Yields (.sld o) s fun t => CompletesAs (.sld o) s t (spadSeen s t s.ctlOf [p] none) ∧ SWrites s t o.d
      (let v := s.spadNum p o.ty.bytes
       if o.ty.signed then BitVec.ofInt 64 (signed o.ty.bits v) else BitVec.ofNat 64 v)) ∧
  (let misses (i : Instr) (h : Hd) (mem : MemAddr) (ty : IT) (d : VReg) (need : Need) : Prop :=
     ∀ s (place : Nat → Nat × Nat), s.Inv = true → CanIssue i s →
       let addr := memAddrOf s s.cur mem
       let odd (l : Nat) : Prop := (addr l).toNat % ty.bytes ≠ 0
       ((∃ l ∈ s.onLanes h, odd l) → (∀ l ∈ s.onLanes h, ¬odd l → SpadAt s (addr l) ty.bytes need (place l)) →
         ∃ u f m, Faults i s u f ∧ OnlyWarps s u ∧ f.cause = .align ∧ f.lanes = some m ∧
           (∀ l, m.getLsbD l = true ↔ l ∈ s.onLanes h ∧ odd l) ∧
           (∀ l ∈ s.onLanes h, odd l → (∀ k ∈ s.onLanes h, odd k → l ≤ k) → f.faddr = addr l) ∧
           VWrites s u d.val ty.words (effMask s s.cur h &&& ~~~m) fun l => loaded ty (s.spadNum (place l) ty.bytes)) ∧
       (∀ l ∈ s.onLanes h, (∀ k ∈ s.onLanes h, SpadFound s (addr k) ty.bytes need (place k)) →
         absent s (place l).1 ((place l).2 / 128) = true →
         (∀ k ∈ s.onLanes h, k < l → absent s (place k).1 ((place k).2 / 128) = false) →
         Yields i s fun t => WaitsFor s t (.line (place l).1 ((place l).2 / 128) (addr l)) s.ctlOf ∧ OnlyWarps s t)
   (∀ o : LdSt, misses (.ld o) o.hd o.mem o.ty o.d { rd := true, ringOk := o.sc.isNone }) ∧
   (∀ o : LdaStr, misses (.lda o) o.hd o.mem o.ty o.d { rd := true })) ∧
  (∀ (o : Sld) s, s.Inv = true → CanIssue (.sld o) s → uniformOn s s.cur o.hd = true →
    let a := s.sreg s.cur o.a.val + s.srcU s.cur o.off
    (a.toNat % o.ty.bytes ≠ 0 → ∃ u, u.regsOf = s.regsOf ∧ OnlyWarps s u ∧ Faults (.sld o) s u { cause := .align, faddr := a }) ∧
    (∀ p, SpadFound s a o.ty.bytes { rd := true, ringOk := true } p → absent s p.1 (p.2 / 128) = true →
      Yields (.sld o) s fun t => WaitsFor s t (.line p.1 (p.2 / 128) a) s.ctlOf ∧ OnlyWarps s t))

/-- R130, R272, R276: ST and STR to scratchpads through the windows: the bytes at each lane's address take the low bytes of
its data register, a later lane over an earlier one, and no other byte, register or memory changes (stated where no strong
write of another size races, R137); a STR at .dm waits for accesses of its warp to other devices (R158). A lane whose address is
no multiple of the size raises ALIGN (R273): ST performs its other lanes, STR none, with every active lane in FLANES (R274). An absent
line holds the instruction (R98). -/
def Obligations.ScratchpadStores : Prop :=
  let stores (i : Instr) (h : Hd) (mem : MemAddr) (d : VReg) (ty : IT) (strong : Bool) (rel : Option Scope) : Prop :=
    ∀ s (place : Nat → Nat × Nat), s.Inv = true → CanIssue i s →
      (∀ l ∈ s.onLanes h, SpadAt s (memAddrOf s s.cur mem l) ty.bytes { wr := true } (place l)) →
      (strong = true → ∀ l ∈ s.onLanes h, NoRace s (place l) ty.bytes) →
      (∀ sc, rel = some sc → awaitRemote s s.cur sc = true → Yields i s fun t => WaitsFor s t .remote s.ctlOf ∧ OnlyWarps s t) ∧
      ((∀ sc, rel = some sc → awaitRemote s s.cur sc = false) →
      Yields i s fun t => IssuedKeep i s t s.ctlOf ∧ OnlySpads s t ∧
        ∀ k j, t.spadByte k j =
          match ((s.onLanes h).filter fun l => (place l).1 == k && decide ((place l).2 ≤ j) && decide (j < (place l).2 + ty.bytes)).getLast? with
          | some l => byteOf (s.vwide s.cur d.val l ty.words) (j - (place l).2)
          | none => s.spadByte k j)
  let misses (i : Instr) (h : Hd) (mem : MemAddr) (d : VReg) (ty : IT) (strong rel : Bool) : Prop :=
    ∀ s (place : Nat → Nat × Nat), s.Inv = true → CanIssue i s →
      let addr := memAddrOf s s.cur mem
      let odd (l : Nat) : Prop := (addr l).toNat % ty.bytes ≠ 0
      let good (l : Nat) : Bool := (addr l).toNat % ty.bytes == 0
      ((∃ l ∈ s.onLanes h, odd l) →
        (∀ l ∈ s.onLanes h, ¬odd l → SpadAt s (addr l) ty.bytes { wr := true } (place l)) →
        (strong = true → ∀ l ∈ s.onLanes h, ¬odd l → NoRace s (place l) ty.bytes) →
        ∃ u f, Faults i s u f ∧ u.regsOf = s.regsOf ∧ OnlySpads s u ∧ f.cause = .align ∧
          (∀ l ∈ s.onLanes h, odd l → (∀ k ∈ s.onLanes h, odd k → l ≤ k) → f.faddr = addr l) ∧
          (if rel then f.lanes = some (s.m0 s.cur &&& s.ctlOf.retry.getD (~~~0))
           else ∃ m, f.lanes = some m ∧ ∀ l, m.getLsbD l = true ↔ l ∈ s.onLanes h ∧ odd l) ∧
          ∀ k j, u.spadByte k j =
            match ((s.onLanes h).filter fun l => !rel && good l && (place l).1 == k && decide ((place l).2 ≤ j)
              && decide (j < (place l).2 + ty.bytes)).getLast? with
            | some l => byteOf (s.vwide s.cur d.val l ty.words) (j - (place l).2)
            | none => s.spadByte k j) ∧
      (∀ l ∈ s.onLanes h, (∀ k ∈ s.onLanes h, SpadFound s (addr k) ty.bytes { wr := true } (place k)) →
        absent s (place l).1 ((place l).2 / 128) = true →
        (∀ k ∈ s.onLanes h, k < l → absent s (place k).1 ((place k).2 / 128) = false) →
        Yields i s fun t => WaitsFor s t (.line (place l).1 ((place l).2 / 128) (addr l)) s.ctlOf ∧ OnlyWarps s t)
  (∀ o : LdSt, misses (.st o) o.hd o.mem o.d o.ty o.sc.isSome false) ∧
  (∀ o : LdaStr, misses (.str o) o.hd o.mem o.d o.ty true true) ∧
  (∀ o : LdSt, stores (.st o) o.hd o.mem o.d o.ty o.sc.isSome none) ∧
  (∀ o : LdaStr, stores (.str o) o.hd o.mem o.d o.ty true (some o.sc))

/-- R101, R103, R124, R275, R276: LD reads and ST writes the bytes of device memory at the physical address that the page's
entry gives; ST changes no other byte of memory. Stated for one lane with effect, whose translation is cached and whose line
is readable; for a weak LD, where no copy of the line may answer it (R99, R143). A LD of a page without R raises PROTECT at its
address, and of a line whose MAC fails INTEGRITY at the line's address (R101, R103, R273). -/
def Obligations.DeviceMemoryAccess : Prop :=
  (∀ (o : LdSt) s l x, s.Inv = true → CanIssue (.ld o) s → s.onLanes o.hd = [l] →
    HitAt s (memAddrOf s s.cur o.mem l) o.ty.bytes true false x → Readable s x →
    o.sc ≠ none ∨ (∀ os, copiesFor s s.cur x os = []) →
    Yields (.ld o) s fun t => IssuedAs (.ld o) s t (nextPc s.ctlOf.pc (.ld o)) (goesOn (.ld o)) (s.ctlOf.knowing t.ctlOf) ∧
      t = { s with warps := t.warps, l1 := t.l1, reps := t.reps } ∧ (t.warp s.cur).stack = (s.warp s.cur).stack ∧
      VWrites s t o.d.val o.ty.words (effMask s s.cur o.hd) fun _ =>
        let v := leNat (physBytes s x.key o.ty.bytes)
        if o.ty.signed ∧ o.ty.bytes ≤ 2 then (BitVec.ofInt 32 (signed o.ty.bits v)).toNat else v) ∧
  (∀ (o : LdSt) s l x, s.Inv = true → CanIssue (.ld o) s → s.onLanes o.hd = [l] →
    HitAt s (memAddrOf s s.cur o.mem l) o.ty.bytes false false x →
    let fails (u : State) (f : FaultInfo) (c : Cause) (a : DWord) : Prop :=
      Faults (.ld o) s u f ∧ u.regsOf = s.regsOf ∧ u.mem = s.mem ∧ f.cause = c ∧ f.faddr = a ∧ f.lanes = some (maskOf [l])
    (bitAt x.w0 60 = false → ∃ u f, fails u f .protect (memAddrOf s s.cur o.mem l) ∧ OnlyWarps s u) ∧
    (bitAt x.w0 60 = true → lineRead s x = .error .integrity → unreachable s (s.coreOfWarp s.cur) x.die = false →
      field (s.die x.die).trcfg 40 16 = 0 → o.sc ≠ none ∨ (∀ os, copiesFor s s.cur x os = []) →
      ∃ u f, fails u f .integrity (lineAddr s (memAddrOf s s.cur o.mem l)))) ∧
  (∀ (o : LdSt) s l x, s.Inv = true → CanIssue (.st o) s → s.onLanes o.hd = [l] →
    HitAt s (memAddrOf s s.cur o.mem l) o.ty.bytes false true x → Readable s x → inTable s x.die x.pa = false →
    o.sc = none ∨ (bitAt (s.world (s.worldOfWarp s.cur)).cfg 60 = false ∧ s.msgs.get [] x.lid = []) →
    Yields (.st o) s fun t => IssuedKeep (.st o) s t s.ctlOf ∧
      (∀ k, Tab.get 0 t.mem k = if x.key ≤ k ∧ k < x.key + o.ty.bytes
        then byteOf (s.vwide s.cur o.d.val l o.ty.words) (k - x.key) else Tab.get 0 s.mem k) ∧
      (∀ k, t.tags.get {} k = s.tags.get {} k) ∧ t.blocks = s.blocks ∧ t.gangs = s.gangs)

/-- R279 to R282 on scratchpads: the lanes with effect act one after another in some order, each on what the one before left;
ATOM gives each lane the value it found and RED gives none. The order is the device's choice (log entry 13). Stated where no
strong write of another size races (R137); a release at .dm waits for accesses of its warp to other devices (R158). -/
def Obligations.ScratchpadAtomics : Prop :=
  let bytes (s : State) (op : AtomOp) (a : VReg) (off : BitVec 32) (h : Hd) (place : Nat → Nat × Nat) : Prop :=
    (∀ l ∈ s.onLanes h, SpadAt s (s.vpair s.cur a.val l + off.signExtend 64) (atomBytes op) { rd := true, wr := true, hostOk := atomHostOk op } (place l)) ∧
    ∀ l ∈ s.onLanes h, NoRace s (place l) (atomBytes op)
  let free (i : Instr) (s : State) (rel : Prop) (sc : Scope) (done : Prop) : Prop :=
    (rel → awaitRemote s s.cur sc = true → Yields i s fun t => WaitsFor s t .remote s.ctlOf ∧ OnlyWarps s t) ∧
    ((rel → awaitRemote s s.cur sc = false) → done)
  (∀ (o : Atom) s (place : Nat → Nat × Nat), s.Inv = true → CanIssue (.atom o) s → bytes s o.op o.a o.off o.hd place →
    free (.atom o) s (o.ord = .rel ∨ o.ord = .ar) o.sc (Yields (.atom o) s fun t => ∃ order : List Nat, order.Perm (s.onLanes o.hd) ∧
      let r := atomSeq o.op (atomBytes o.op) place (fun l => s.vwide s.cur o.b.val l (atomWidth o.op))
        (fun l => s.vwide s.cur o.c.val l (atomWidth o.op)) order s.spadByte
      IssuedAs (.atom o) s t (nextPc s.ctlOf.pc (.atom o)) (goesOn (.atom o))
        (spadSeen s t s.ctlOf ((s.onLanes o.hd).map place) (if o.ord = .acq ∨ o.ord = .ar then some o.sc else none)) ∧
      (t.warp s.cur).stack = (s.warp s.cur).stack ∧ OnlySpads s t ∧ (∀ k j, t.spadByte k j = r.1 k j) ∧
      VWrites s t o.d.val (atomWidth o.op) (effMask s s.cur o.hd) fun l => ((r.2.find? fun e => e.1 == l).map (·.2)).getD 0)) ∧
  (∀ (o : Red) s (place : Nat → Nat × Nat), s.Inv = true → CanIssue (.red o) s → bytes s o.op o.a o.off o.hd place →
    free (.red o) s (o.ord = .rel) o.sc (Yields (.red o) s fun t =>
      IssuedKeep (.red o) s t (spadSeen s t s.ctlOf ((s.onLanes o.hd).map place) none) ∧ OnlySpads s t ∧
      ∃ order : List Nat, order.Perm (s.onLanes o.hd) ∧
        ∀ k j, t.spadByte k j = (atomSeq o.op (atomBytes o.op) place (fun l => s.vwide s.cur o.b.val l (atomWidth o.op))
          (fun _ => 0) order s.spadByte).1 k j))

/-- R138, R283 to R285: FENCE acquires where its ordering says so, and as a release orders what precedes it before the warp's
later strong writes, which a release at .dm lets wait for other devices (R158); CCTL and PREF change caches only; DISC of a page gives it the next
tweak and its F bit in the TLB, and takes its lines from every cache. Stated where the TLBs hold the pages named. -/
def Obligations.FencesAndCaches : Prop :=
  let held (s : State) (h : Hd) (mem : MemAddr) : Prop := ∀ l ∈ s.onLanes h,
    inWindow (memAddrOf s s.cur mem l) = true ∨ ∃ x, HitAt s (memAddrOf s s.cur mem l) 1 true false x
  let caches (i : Instr) (s t : State) : Prop :=
    IssuedKeep i s t s.ctlOf ∧ t = { s with warps := t.warps, l1 := t.l1, l2 := t.l2, reps := t.reps, free := t.free }
  (∀ (o : Fence) s, s.Inv = true → CanIssue (.fence o) s → s.onLanes o.hd ≠ [] →
    let rel : Prop := o.ord = .rel ∨ o.ord = .sc
    let acq : Prop := o.ord = .acq ∨ o.ord = .sc
    (rel → awaitRemote s s.cur o.sc = true → Yields (.fence o) s fun t => WaitsFor s t .remote s.ctlOf ∧ OnlyWarps s t) ∧
    ((rel → awaitRemote s s.cur o.sc = false) → Yields (.fence o) s fun t =>
      IssuedKeep (.fence o) s t
        { (if acq then acquired s o.sc else s.ctlOf) with view := t.ctlOf.view, rels := t.ctlOf.rels } ∧
      t = { s with warps := t.warps, scOrder := t.scOrder } ∧
      (¬acq → t.ctlOf.view = s.ctlOf.view) ∧ (¬rel → t.ctlOf.rels = s.ctlOf.rels) ∧ (o.ord ≠ .sc → t.scOrder = s.scOrder) ∧
      (rel → ∀ sc n, ∃ r ∈ (strongMsg t s.cur n sc false).rels, r.warp = s.cur ∧
        r.insts = [instOf s sc s.cur, instOf s o.sc s.cur] ∧ r.view = t.ctlOf.view.upTo s.cur s.seqNo))) ∧
  (∀ (o : Cctl) s, s.Inv = true → CanIssue (.cctl o) s → held s o.hd o.mem → Yields (.cctl o) s (caches (.cctl o) s)) ∧
  (∀ (o : Pref) s, s.Inv = true → CanIssue (.pref o) s → held s o.hd o.mem → Yields (.pref o) s (caches (.pref o) s)) ∧
  (∀ (o : Disc) s d leaf w0 w1 level, s.Inv = true → CanIssue (.disc o) s → s.onLanes o.hd ≠ [] →
    (∀ l ∈ s.onLanes o.hd, ∃ x, HitAt s (memAddrOf s s.cur o.mem l) 0 false true x ∧ x.die = d ∧ x.leaf = leaf ∧ x.w0 = w0 ∧
      x.w1 = w1 ∧ x.level = level) →
    Yields (.disc o) s fun t => IssuedKeep (.disc o) s t s.ctlOf ∧
      (∀ e ∈ t.l1, lidIn d leaf (e.1 % 2 ^ 80) = false) ∧ (∀ e ∈ t.reps, lidIn d leaf (e.1 % 2 ^ 80) = false) ∧
      (∀ e ∈ t.l2, lidIn d leaf e.1 = false) ∧
      (t.die d).tlb = (s.die d).tlb.map fun e => if e.leaf = leaf
        then { e with w0 := setField w0 61 1 1, w1 := setField w1 28 16 (field w1 28 16 + 1) } else e)

/-- R286 to R288 on scratchpads: MWAIT goes on when every lane's word is at least its value, with an acquire at its scope and
the words it found, and waits otherwise; PWAIT goes on when every line of its ranges is present, with an acquire at .bk of what their presence bits
order, and waits otherwise. -/
def Obligations.MemoryWaits : Prop :=
  (∀ (o : Mwait) s (place : Nat → Nat × Nat), s.Inv = true → CanIssue (.mwait o) s → s.onLanes o.hd ≠ [] → s.ctlOf.mwDone = 0 →
    (∀ l ∈ s.onLanes o.hd, SpadAt s (s.vpair s.cur o.a.val l) 8 { rd := true } (place l)) →
    let hit (l : Nat) : Prop := (mwaitVal s s.cur o.v l).toNat ≤ s.spadNum (place l) 8
    ((∀ l ∈ s.onLanes o.hd, hit l) → Yields (.mwait o) s fun t =>
      CompletesAs (.mwait o) s t (spadSeen s t s.ctlOf ((s.onLanes o.hd).map place) (some o.sc)) ∧
      (match o.d with
        | none => t.regsOf = s.regsOf
        | some d => VWrites s t d.val 2 (effMask s s.cur o.hd) fun l => s.spadNum (place l) 8)) ∧
    ((∃ l ∈ s.onLanes o.hd, ¬hit l) → Yields (.mwait o) s fun t => OnlyWarps s t ∧ t.regsOf = s.regsOf ∧
      (t.warp s.cur).ctl.pc = s.ctlOf.pc ∧ (∃ a v, (t.warp s.cur).ctl.status = .waiting (.mwait a v o.sc)) ∧
      ∀ l, (t.warp s.cur).ctl.mwDone.getLsbD l = true ↔ l ∈ s.onLanes o.hd ∧ hit l)) ∧
  (∀ (o : Pwait) s (lines : Nat → List (Nat × Nat)), s.Inv = true → CanIssue (.pwait o) s → s.onLanes o.hd ≠ [] →
    (∀ l ∈ s.onLanes o.hd, pwaitLane s s.cur (s.vpair s.cur o.a.val l)
      (match o.len with | .v r => (s.vreg s.cur r.val l).toNat | .imm i => i.toNat) = .ok (lines l)) →
    let here : Prop := ∀ l ∈ s.onLanes o.hd, ∀ e ∈ lines l, absent s e.1 e.2 = false
    let seen := (s.onLanes o.hd).flatMap fun l => (lines l).map fun e => (e.1, 128 * e.2)
    (here → Yields (.pwait o) s fun t => CompletesAs (.pwait o) s t (spadSeen s t s.ctlOf seen none) ∧ t.regsOf = s.regsOf) ∧
    (¬here → ∃ k, Yields (.pwait o) s fun t => WaitsFor s t (.pwait k) s.ctlOf ∧ OnlyWarps s t))

/-! ### Standing loads and queue registers -/

/-- R122 to R125, R128, R290 to R292, for one lane with effect: SUBS enters a subscription for the target's bytes, makes the
region with its status word and absent entries, sends push 0 with the bytes as they are, writes 0 and parks until it lands;
UNSUB ends the active region and writes its status word with `ended` set; SPOLL writes the status word, consumes the oldest
entry, and acquires what its push carried when there was one; both write 0 where there is no region. -/
def Obligations.StandingLoads : Prop :=
  let blk (s : State) : Nat := s.cur / 64
  (∀ (o : Subs) s l x, s.Inv = true → CanIssue (.subs o) s → s.onLanes o.hd = [l] →
    let size := 8 * 2 ^ o.size.val
    let depth := o.depth.val + 1
    let off := s.regVS s.cur o.off 1 l
    let new : Sub :=
      { world := s.worldOfWarp s.cur, blk := blk s, off, die := x.die, asid := x.asid, line := x.lid,
        addr := s.vpair s.cur o.a.val l, pos := (s.vpair s.cur o.a.val l).toNat % 128, size, next := 1,
        flight := [(0, physBytes s x.key size, ⟨s.seqNo, []⟩)], scope := o.sc, live := true }
    HitAt s (s.vpair s.cur o.a.val l) size true false x → Readable s x →
    subsOffBad s s.cur [(l, off)] depth (l, off) = none → subsOn s x.die < 4096 →
    Yields (.subs o) s fun t =>
      IssuedAs (.subs o) s t (nextPc s.ctlOf.pc (.subs o)) (.parked (.pushes (s.seqNo + 1))) s.ctlOf ∧
      VWrites s t o.d.val 1 (effMask s s.cur o.hd) (fun _ => 0) ∧
      (t.block (blk s)).regions.find? (fun e => e.1 == off) =
        some (off, { depth, queue := o.queue, size, active := true, sub := s.seqNo, scope := o.sc }) ∧
      statusWord t (blk s) off = BitVec.ofNat 64 (o.depth.val * 2 ^ 17 + o.queue.toNat * 2 ^ 16) ∧
      (∀ e, e < depth → absent t (blk s) (off / 128 + 1 + e) = true) ∧
      t.sub s.seqNo = new ∧
      t.mem = s.mem) ∧
  (∀ (o : Unsub) s l r, s.Inv = true → CanIssue (.unsub o) s → s.onLanes o.hd = [l] →
    let off := s.regVS s.cur o.off 1 l
    pollOffBad s s.cur off = none →
    ((s.block (blk s)).regions.find? (fun e => e.1 == off && e.2.active) = some (off, r) → Yields (.unsub o) s fun t =>
      IssuedAs (.unsub o) s t (nextPc s.ctlOf.pc (.unsub o)) (goesOn (.unsub o)) s.ctlOf ∧
      VWrites s t o.d.val 2 (effMask s s.cur o.hd) (fun _ => (setField (statusWord s (blk s) off) 30 1 1).toNat) ∧
      t.subs = Tab.drop s.subs r.sub ∧ (t.block (blk s)).regions = (s.block (blk s)).regions.put off { r with active := false } ∧
      t.mem = s.mem) ∧
    ((s.block (blk s)).regions.find? (fun e => e.1 == off && e.2.active) = none → Yields (.unsub o) s fun t =>
      Completes (.unsub o) s t ∧ VWrites s t o.d.val 2 (effMask s s.cur o.hd) fun _ => 0)) ∧
  (∀ (o : Spoll) s l r, s.Inv = true → CanIssue (.spoll o) s → s.onLanes o.hd = [l] →
    let off := (s.vreg s.cur o.off.val l).toNat
    let v := statusWord s (blk s) off
    pollOffBad s s.cur off = none →
    ((s.block (blk s)).regions.find? (fun e => e.1 == off) = some (off, r) → Yields (.spoll o) s fun t =>
      IssuedAs (.spoll o) s t (nextPc s.ctlOf.pc (.spoll o)) (goesOn (.spoll o))
        (if field v 24 4 = 0 then s.ctlOf else spadSeen s t s.ctlOf [(blk s, off + 128 + 128 * field v 20 4)] none) ∧
      VWrites s t o.d.val 2 (effMask s s.cur o.hd) (fun _ => v.toNat) ∧ statusWord t (blk s) off = pollStatus v ∧
      t = { s with warps := t.warps, blocks := t.blocks }) ∧
    ((s.block (blk s)).regions.find? (fun e => e.1 == off) = none → Yields (.spoll o) s fun t =>
      Completes (.spoll o) s t ∧ VWrites s t o.d.val 2 (effMask s s.cur o.hd) fun _ => 0))

/-- R118, R119, R293 to R297: QCFG unbinds with a zero address and binds the stream that a legal record describes, QUEUE
naming the register for a misaligned record, and waits until an old store stream is drained; QFENCE parks until the masked queues are drained of what came before it; a MOV
from a load-bound queue register gives the lanes with effect its next elements in lane order and takes them, waits when the
engine has too few, and raises QUEUE where the register is unbound; a MOV to a store-bound one pushes each lane's value for
the next address (stated where the queue was empty and the translations are cached). When a waiting instruction and a QCFG
look again is log entry 27, and their predicate log entry 79. -/
def Obligations.Queues : Prop :=
  let blk (s : State) : Block := s.block (s.cur / 64)
  let issued (i : Instr) (s t : State) (c : Ctl) : Prop := IssuedAs i s t (nextPc s.ctlOf.pc i) (goesOn i) c
  let binds (q v : Nat) (s : State) : Ctl := { s.ctlOf with qbind := Tab.set 0 s.ctlOf.qbind q v }
  let src (o : Qcfg) (s : State) : DWord :=
    match o.src with | .v r => s.vpair s.cur r.val ((lowest (s.m0 s.cur)).getD 0) | .s r => s.sreg s.cur r.val
  let queueFault (i : Instr) (s : State) (n : Nat) : Prop :=
    ∃ u, u.regsOf = s.regsOf ∧ OnlyWarps s u ∧ Faults i s u { cause := .queue, faddr := BitVec.ofNat 64 n }
  (∀ (o : Qcfg) s, s.Inv = true → CanIssue (.qcfg o) s → uniformOn s s.cur o.hd = true →
    (src o s = 0 → s.streamOf s.cur o.q.val = none → Yields (.qcfg o) s fun t =>
      IssuedKeep (.qcfg o) s t (binds o.q.val 0 s) ∧ OnlyWarps s t) ∧
    (∀ e b, src o s = 0 → s.streamOf s.cur o.q.val = some (e, b) → (b.store = true → engineBusy s (s.cur / 64) e = false) → Yields (.qcfg o) s fun t =>
      IssuedKeep (.qcfg o) s t (binds o.q.val 0 s) ∧
        BlockTo s t (s.cur / 64) { blk s with streams := (blk s).streams.put e { b with bound := false, ahead := [] } }) ∧
    (∀ e b, src o s = 0 → s.streamOf s.cur o.q.val = some (e, b) → b.store = true → engineBusy s (s.cur / 64) e = true →
      Yields (.qcfg o) s fun t => WaitsFor s t (.drain e) s.ctlOf ∧ OnlyWarps s t) ∧
    (src o s ≠ 0 → (src o s).toNat % 32 ≠ 0 → queueFault (.qcfg o) s o.q.val) ∧
    (∀ p e r, src o s ≠ 0 → SpadAt s (src o s) 32 { rd := true, ringOk := true } p →
      streamRecord s.cur o.q.val ((List.range 32).map fun i => s.spadByte p.1 (p.2 + i)) = some (e, r) →
      engineTaken s s.cur o.q.val e = false → engineBusy s (s.cur / 64) e = false → s.streamOf s.cur o.q.val = none →
      Yields (.qcfg o) s fun t =>
        IssuedKeep (.qcfg o) s t (spadSeen s t (binds o.q.val (e + 1) s) [p] none) ∧
        BlockTo s t (s.cur / 64) { blk s with streams := (blk s).streams.put e r })) ∧
  (∀ (o : Qfence) s, s.Inv = true → CanIssue (.qfence o) s → uniformOn s s.cur o.hd = true →
    Yields (.qfence o) s fun t => OnlyWarps s t ∧ t.regsOf = s.regsOf ∧
      IssuedAs (.qfence o) s t (nextPc s.ctlOf.pc (.qfence o)) (.parked (.queues o.mask s.seqNo)) s.ctlOf) ∧
  (∀ (o : Mov) s (n : Fin 8) (d : VReg), s.Inv = true → CanIssue (.mov o) s → o.src = .v (.q n) → o.d = .v d →
    s.onLanes o.hd ≠ [] →
    let k := (s.onLanes o.hd).length
    (s.streamOf s.cur n.val = none → queueFault (.mov o) s n.val) ∧
    (∀ e b, s.streamOf s.cur n.val = some (e, b) → b.store = false → esizeOk o.ty.words b.esize = true → k ≤ b.count - b.pos →
      (∀ x ∈ b.ahead, ∃ v, x = .val v) →
      (k ≤ b.ahead.length → Yields (.mov o) s fun t => issued (.mov o) s t s.ctlOf ∧
        VWrites s t d.val o.ty.words (effMask s s.cur o.hd) (fun l =>
          match b.ahead[((s.onLanes o.hd).filter fun j => decide (j < l)).length]? with
          | some (.val v) => v.toNat % 2 ^ (32 * o.ty.words)
          | _ => 0) ∧
        BlockTo s t (s.cur / 64)
          { blk s with streams := (blk s).streams.put e { b with ahead := b.ahead.drop k, pos := b.pos + k } }) ∧
      (b.ahead.length < k → Yields (.mov o) s fun t => WaitsFor s t (.queue e k) s.ctlOf ∧ OnlyWarps s t))) ∧
  (∀ (o : Mov) s (n : Fin 8) (a : VReg) e b (at_ : Nat → Xl), s.Inv = true → CanIssue (.mov o) s → o.src = .v (.v a) → o.d = .q n →
    s.onLanes o.hd ≠ [] → s.streamOf s.cur n.val = some (e, b) → b.store = true → b.pend = [] →
    esizeOk o.ty.words b.esize = true → (s.onLanes o.hd).length ≤ b.count - b.pos →
    let els := (s.onLanes o.hd).zipIdx.map fun l => (b.base + BitVec.ofNat 64 (b.pos + l.2) * b.stride,
      s.vwide s.cur a.val l.1 o.ty.words % 2 ^ (8 * b.esize))
    (∀ x ∈ els.zipIdx, HitAt s x.1.1 b.esize false true (at_ x.2) ∧ Readable s (at_ x.2)) →
    Yields (.mov o) s fun t => issued (.mov o) s t s.ctlOf ∧ t.regsOf = s.regsOf ∧ t.mem = s.mem ∧
      ∃ x, (t.block (s.cur / 64)).streams = (blk s).streams.put e x ∧ x = { b with pos := x.pos, pend := x.pend } ∧
        x.pos = b.pos + els.length ∧ x.pend.map (fun p => (p.addr, p.val)) = els.map fun x => (x.1, BitVec.ofNat 64 x.2))

/-! ### Engines -/

/-- R306 to R311, R313: RINIT claims a free ring or the block's own and releases its own, waits where it cannot, and without
a claim leaves another's ring; RWAIT goes on as soon as its slot is ready; MLOOP takes the slot at the head and MSTEP the slot left
open, each queueing its steps; without the ring MLOOP raises PROTECT, with a descriptor out of range ILLOP, and it waits for
an empty head; EPI takes the slot at the tail once its map and addresses pass their checks (stated where translations are
cached). What a release leaves of head and tail is log entry 20, and when EPI looks at its slot log entries 27 and 45. -/
def Obligations.RingAndMatrix : Prop :=
  let core (s : State) : Nat := s.coreOfWarp s.cur
  let mine (s : State) : Prop := (s.ring (core s)).holder = some (s.cur / 64)
  let rinit (o : Rinit) (s : State) (g : Ring) : Prop := Yields (.rinit o) s fun t =>
    IssuedKeep (.rinit o) s t s.ctlOf ∧ RingTo s t (core s) g
  let stops (i : Instr) (s : State) (f : FaultInfo) : Prop := ∃ u, u.regsOf = s.regsOf ∧ OnlyWarps s u ∧ Faults i s u f
  let waits (i : Instr) (s : State) (k : Wait) : Prop := Yields i s fun t => WaitsFor s t k s.ctlOf ∧ OnlyWarps s t
  let slots (s : State) (i : Nat) (x : RSlot) : Tab RSlot := (s.ring (core s)).slots.put i x
  (∀ (o : Rinit) s, s.Inv = true → CanIssue (.rinit o) s → uniformOn s s.cur o.hd = true →
    let g := s.ring (core s)
    (o.claim = true → g.holder = none ∨ (mine s ∧ ringBusy s (s.cur / 64) = false) →
      rinit o s { g with holder := some (s.cur / 64), slots := [], head := 0, tail := 0 }) ∧
    (o.claim = false → mine s → ringBusy s (s.cur / 64) = false → rinit o s { g with holder := none, slots := [] }) ∧
    (o.claim = false → ¬mine s → rinit o s g) ∧
    ((mine s ∧ ringBusy s (s.cur / 64) = true) ∨ (o.claim = true ∧ g.holder ≠ none ∧ ¬mine s) → waits (.rinit o) s .rinit)) ∧
  (∀ (o : Rwait) s, s.Inv = true → CanIssue (.rwait o) s → uniformOn s s.cur o.hd = true →
    let g := s.ring (core s)
    let ready : Prop := if o.tail then (s.slot (core s) g.tail.val).st = .full else (s.slot (core s) g.head.val).st = .empty
    (ready → Yields (.rwait o) s fun t => Completes (.rwait o) s t ∧ t.regsOf = s.regsOf) ∧
    (¬ready → waits (.rwait o) s (.rwait o.tail))) ∧
  (∀ (o : Mloop) s, s.Inv = true → CanIssue (.mloop o) s → uniformOn s s.cur o.hd = true →
    (¬mine s → stops (.mloop o) s { cause := .protect, faddr := ringBase }) ∧
    (mine s → mloopOp s s.cur o = none → stops (.mloop o) s { cause := .illop }) ∧
    (∀ m, mine s → mloopOp s s.cur o = some m → o.opn = false ∨ openSlot s (core s) = none → mloopAlign m = none →
      scaleFits s s.cur o.sa m.count = true → scaleFits s s.cur o.sb m.count = true →
      let g := s.ring (core s)
      let new : RSlot := { st := .filling, mf := m.mf, rows := m.rows, cols := m.cols, opn := o.opn }
      ((s.slot (core s) g.head.val).st = .empty → Yields (.mloop o) s fun t =>
        Accepts (.mloop o) s s t (queued s 6 (.mloop { m with slot := g.head.val }) []) ∧
        t.ring (core s) = { g with slots := slots s g.head.val new, head := g.head + 1 } ∧
        ∀ c, c ≠ core s → t.ring c = s.ring c) ∧
      ((s.slot (core s) g.head.val).st ≠ .empty → waits (.mloop o) s .ringHead))) ∧
  (∀ (o : Mloop) s m i, s.Inv = true → CanIssue (.mstep o) s → uniformOn s s.cur o.hd = true → mine s →
    mloopOp s s.cur o = some m → openSlot s (core s) = some i → mloopAlign m = none →
    scaleFits s s.cur o.sa m.count = true → scaleFits s s.cur o.sb m.count = true →
    let x := s.slot (core s) i
    let fits : Prop := x.mf = m.mf ∧ x.rows = m.rows ∧ x.cols = m.cols
    (fits → Yields (.mstep o) s fun t => Accepts (.mstep o) s s t (queued s 6 (.mloop { m with slot := i }) []) ∧
      t.ring (core s) = { s.ring (core s) with slots := slots s i { x with opn := o.opn } } ∧
      ∀ c, c ≠ core s → t.ring c = s.ring c) ∧
    (¬fits → stops (.mstep o) s { cause := .illop })) ∧
  (∀ (o : Epi) s m u, s.Inv = true → CanIssue (.epi o) s → uniformOn s s.cur o.hd = true → mine s →
    (readMap s.cur (s.sreg s.cur o.a.val)).run (noted (.epi o) s) = (.ok m, u) → ReadOnly (noted (.epi o) s) u →
    let e := epiOp s s.cur o m
    let g := s.ring (core s)
    let x := s.slot (core s) g.tail.val
    (∀ t ∈ m.walks, t.on = false) → m.aon = false → m.dims.length ≤ 4 → 6 ≤ m.fmt → f4Ok m e.c [] = true → scAgrees e.stamp.isSome o.sc = true →
    (m.fmt < 10 → e.scale = 0) → (firstCause (wordChecks s.cur e.stamp none false)).run u = (none, u) →
    (x.st ≠ .empty → x.taken = false → (x.mf = .f64 → m.fmt = 9 ∨ m.fmt = 8) → (epiChecks s.cur e x).run u = (none, u) →
      Yields (.epi o) s fun t => Accepts (.epi o) s u t (queued u 7 (.epi { e with slot := g.tail.val }) []) ∧
      t.ring (core s) = { g with slots := slots s g.tail.val { x with taken := true, st := if x.st = .full then .draining else x.st }, tail := g.tail + 1 } ∧
      ∀ c, c ≠ core s → t.ring c = s.ring c) ∧
    (x.st = .empty ∨ x.taken = true → Yields (.epi o) s fun t => WaitsFor s t .ringTail u.ctlOf ∧ ReadOnlyApart s t))

/-- R117, R119, R120, R300, R316 to R320: a copy whose descriptor, map and addresses pass their checks enters its queue, the
scratchpad lines it will write become absent, and nothing else is done yet; TCOPYM also takes a slot of every other receiver, and
SLOTRET gives slots back, as a release at .gg to what their senders send later. Stated where the checks meet translations that
are cached, and without a bound register; the window code 0 of TCOPYM's destination is log entry 45. -/
def Obligations.TileEngine : Prop :=
  let given (s : State) (k : Nat) : Block :=
    let me := (s.block (s.cur / 64)).idx
    let b := s.block k
    { b with
      used := Tab.set 0 b.used me (b.used.get 0 me - 1)
      slotViews := b.slotViews.put me ((b.slotViews.get {} me).join (s.relView s.cur)) }
  let others (s : State) (m : BitVec 4) : List Nat := (maskBlocks m).filter fun b => b != (s.block (s.cur / 64)).idx
  let gang (s : State) : Nat := (s.runOf (s.cur / 256)).cores.length
  let stops (i : Instr) (s : State) (f : FaultInfo) : Prop := ∃ u, u.regsOf = s.regsOf ∧ OnlyWarps s u ∧ Faults i s u f
  (∀ (o : Tcopy) s d u, s.Inv = true → CanIssue (.tcopy o) s → uniformOn s s.cur o.hd = true →
    let els := boxElts d.map d.c d.h
    (copyDesc s.cur o.a o.sc o.ver false).run (noted (.tcopy o) s) = (.ok d, u) → ReadOnly (noted (.tcopy o) s) u →
    (if inWindow d.dst then spadRange s s.cur d.dst d.map.dense = none else d.map.dense ≤ 16 * 2 ^ 20) →
    (tcopyChecks s.cur o d els false).run u = (none, u) →
    Yields (.tcopy o) s fun t => Accepts (.tcopy o) s u t
      (queued u o.q.val (.copy d.map d.c d.h d.dst d.stamp (if o.ver then some (o.sc.getD .gg) else none))
        (spadLines s s.cur (denseMask d.map d.dst (writtenElts els))))) ∧
  (∀ (o : Tstore) s d u, s.Inv = true → CanIssue (.tstore o) s → uniformOn s s.cur o.hd = true →
    let els := insideElts (boxElts d.map d.c d.h)
    (copyDesc s.cur o.a o.sc false true).run (noted (.tstore o) s) = (.ok d, u) → ReadOnly (noted (.tstore o) s) u →
    d.map.bnd = false →
    (inWindow d.dst = false → ∃ v, v.regsOf = s.regsOf ∧ ReadOnlyApart s v ∧ Faults (.tstore o) s v { cause := .protect, faddr := d.dst }) ∧
    (inWindow d.dst = true → spadRange s s.cur d.dst d.map.dense = none → (tstoreChecks s.cur d els).run u = (none, u) →
      Yields (.tstore o) s fun t => Accepts (.tstore o) s u t
        (queued u o.q.val (.store d.map d.c d.h d.dst d.stamp (if d.map.aon then o.sc else none)) []))) ∧
  (∀ (o : Tcopym) s d u, s.Inv = true → CanIssue (.tcopym o) s → uniformOn s s.cur o.hd = true →
    let els := boxElts d.map d.c d.h
    let off := field d.dst 0 40
    (copyDesc s.cur o.a o.sc false false).run (noted (.tcopym o) s) = (.ok d, u) → ReadOnly (noted (.tcopym o) s) u →
    inWindow d.dst = true → field d.dst 40 11 = 0 → o.mask ≠ 0 →
    (∀ b ∈ maskBlocks o.mask, b < gang s ∧ off + d.map.dense ≤ (s.block (s.cur / 256 * 4 + b)).spadSize ∧
      (s.block (s.cur / 256 * 4 + b)).retired = false) →
    (tcopymChecks s.cur d off o.mask els).run u = (none, u) →
    let used (b : Nat) : Nat := (s.block (s.cur / 64)).used.get 0 b
    ((∀ b ∈ others s o.mask, used b < 15) → Yields (.tcopym o) s fun t => Accepts (.tcopym o) s u t
      { queued u o.q.val (.mcast d.map d.c d.h (BitVec.ofNat 64 off) o.mask d.stamp)
          (spadLines s s.cur (mcastMask d.map off o.mask (writtenElts els))) with
        view := (s.block (s.cur / 64)).slotViews.foldl (fun v e => v.join e.2) (u.relView s.cur) } ∧
      ∀ b ∈ others s o.mask, (t.block (s.cur / 64)).used.get 0 b = used b + 1) ∧
    ((∃ b ∈ others s o.mask, used b = 15) → Yields (.tcopym o) s fun t => ∃ m, WaitsFor s t (.slots m) u.ctlOf ∧ ReadOnlyApart s t)) ∧
  (∀ (o : Slotret) s, s.Inv = true → CanIssue (.slotret o) s → uniformOn s s.cur o.hd = true →
    let me := (s.block (s.cur / 64)).idx
    ((∃ b ∈ maskBlocks o.mask, b = me ∨ gang s ≤ b) → stops (.slotret o) s { cause := .illop }) ∧
    ((∀ b ∈ maskBlocks o.mask, b ≠ me ∧ b < gang s) → Yields (.slotret o) s fun t =>
      IssuedKeep (.slotret o) s t { s.ctlOf with rels := t.ctlOf.rels } ∧
      (∀ sc n, ∃ r ∈ (strongMsg t s.cur n sc false).rels, r.warp = s.cur ∧
        r.insts = [instOf s sc s.cur, instOf s .gg s.cur] ∧ r.view = t.ctlOf.view.upTo s.cur s.seqNo) ∧
      t = { s with warps := t.warps, blocks := t.blocks } ∧
      ∀ k, t.block k = if k / 4 = s.cur / 256 ∧ k % 4 ∈ maskBlocks o.mask then given s k else s.block k)) ∧
  (∀ (o : Gath) s m u, s.Inv = true → CanIssue (.gath o) s → s.onLanes o.hd ≠ [] →
    let d (i : Nat) : DWord := s.sreg s.cur (o.a.val + i)
    let els := (s.onLanes o.hd).flatMap fun l => gathElts m (field (d 1) 0 32) l (s.vreg s.cur o.b.val l).toNat
    (readMap s.cur (d 0)).run (noted (.gath o) s) = (.ok m, u) → ReadOnly (noted (.gath o) s) u → m.dims.length = 2 → (∀ t ∈ m.walks, t.on = false) → m.aon = false →
    f4Ok m [field (d 1) 0 32, 0] [] = true → (d 2).toNat % 16 = 0 → field (d 1) 32 32 = 0 → inWindow (d 2) = true →
    (gathBad s.cur m (field (d 1) 0 32) (d 2) ((s.onLanes o.hd).map fun l => (l, (s.vreg s.cur o.b.val l).toNat))).run u = ([], u) →
    Yields (.gath o) s fun t => Accepts (.gath o) s u t
      (queued u (if o.q then 5 else 4)
        (.gath m (field (d 1) 0 32) (d 2) ((s.onLanes o.hd).map fun l => (l, (s.vreg s.cur o.b.val l).toNat)))
        (spadLines s s.cur (denseMask m (d 2) (writtenElts els)))))

/-- R326, R327: RNGX writes the ten rounds' output and the counter plus 1; RNGU's floats are the odd multiples of 2^−24 and
2^−53 that the high bits give, exactly, and `.below` the high word of a product. -/
def Obligations.RandomNumbers : Prop :=
  (∀ (o : Rngx) s, s.Inv = true → CanIssue (.rngx o) s → Yields (.rngx o) s fun t => Completes (.rngx o) s t ∧
    VWrites s t o.d.val 8 (effMask s s.cur o.hd) fun l =>
      let c := s.vwide s.cur o.a.val l 4
      (rngx (quadOf c) (rngKey s s.cur o.key l)).val + 2 ^ 128 * ((c + 1) % 2 ^ 128)) ∧
  (∀ (o : Rngu) s, s.Inv = true → CanIssue (.rngu o) s →
    let words := match o.form with | .f64 => 2 | _ => 1
    Yields (.rngu o) s fun t => Completes (.rngu o) s t ∧ ∃ val, VWrites s t o.d.val words (effMask s s.cur o.hd) val ∧
      ∀ l, match o.form with
        | .f32 => fExact .f32 (val l) = ((2 * ((s.vreg s.cur o.a.val l).toNat / 2 ^ 9) + 1) * 2 ^ 1176 : Nat)
        | .f64 => fExact .f64 (val l) = ((2 * ((s.vpair s.cur o.a.val l).toNat / 2 ^ 12) + 1) * 2 ^ 1147 : Nat)
        | .below b => val l = (s.vreg s.cur o.a.val l).toNat * s.regVS s.cur b 1 l / 2 ^ 32)

/-! ### Links, collectives, grids and mailboxes -/

/-- R121, R300, R321 to R325: NBPUSH appends to the linked block's FIFO of 16 entries and waits while it is full or its link is
down; a push toward a retired block is discarded; NBPOP takes the oldest entry of its own FIFO and waits while it is empty;
a direction that is no link raises ILLOP. A COLL of a group that is not enrolled writes 1; one in the attempt in force
enters its queue and writes 0; CABORT advances the attempt and parks for the members. What the model makes of a group's record and
of a stamp address that is not aligned are log entries 15 and 82, and a link that is down log entry 50. -/
def Obligations.LinksAndCollectives : Prop :=
  let run (s : State) : Nat := s.cur / 256
  let peer (s : State) (up : Bool) : Nat :=
    (s.gang ((stageGang s (s.gangOfWarp s.cur) up).getD 0)).primary * 4 + (s.block (s.cur / 64)).idx
  let stops (i : Instr) (s : State) (f : FaultInfo) : Prop := ∃ u, u.regsOf = s.regsOf ∧ OnlyWarps s u ∧ Faults i s u f
  let runDie (s : State) (r : Nat) : Nat := (s.runOf r).die * 4 + (s.runOf r).cluster
  (∀ (o : Nb) s, s.Inv = true → CanIssue (.nbpush o) s → s.onLanes o.hd ≠ [] →
    (nbResolve s (run s) o.dir = none → stops (.nbpush o) s { cause := .illop }) ∧
    (∀ up, nbResolve s (run s) o.dir = some up →
      let b := peer s up
      let side := opposite (nbCode s (run s) up)
      let q := (s.block b).fifos.get [] side
      let full : Prop := linked s (runDie s (run s)) (runDie s (b / 4)) = false ∨ 16 ≤ q.length
      let entry := (List.range 32).map fun l => if l ∈ s.onLanes o.hd then s.vreg s.cur o.v.val l else 0
      ((s.block b).retired = true → Yields (.nbpush o) s fun t => Completes (.nbpush o) s t ∧ t.regsOf = s.regsOf) ∧
      ((s.block b).retired = false → full → Yields (.nbpush o) s fun t => WaitsFor s t (.nbpush b side) s.ctlOf ∧ OnlyWarps s t) ∧
      ((s.block b).retired = false → ¬full → Yields (.nbpush o) s fun t => IssuedKeep (.nbpush o) s t s.ctlOf ∧
        BlockTo s t b { s.block b with fifos := (s.block b).fifos.put side (q ++ [entry]) }))) ∧
  (∀ (o : Nb) s, s.Inv = true → CanIssue (.nbpop o) s → s.onLanes o.hd ≠ [] →
    (nbResolve s (run s) o.dir = none → stops (.nbpop o) s { cause := .illop }) ∧
    (∀ up, nbResolve s (run s) o.dir = some up →
      let me := s.block (s.cur / 64)
      let side := nbCode s (run s) up
      (me.fifos.get [] side = [] → Yields (.nbpop o) s fun t => WaitsFor s t (.nbpop side) s.ctlOf ∧ OnlyWarps s t) ∧
      (∀ e r, me.fifos.get [] side = e :: r → Yields (.nbpop o) s fun t =>
        IssuedAs (.nbpop o) s t (nextPc s.ctlOf.pc (.nbpop o)) (goesOn (.nbpop o)) s.ctlOf ∧
        VWrites s t o.v.val 1 (effMask s s.cur o.hd) (fun l => (e.getD l 0).toNat) ∧
        BlockTo s t (s.cur / 64) { me with fifos := me.fifos.put side r }))) ∧
  (∀ (o : Coll) s, s.Inv = true → CanIssue (.coll o) s → uniformOn s s.cur o.hd = true →
    let world := s.worldOfWarp s.cur
    let wrote (t : State) (v : DWord) : Prop :=
      IssuedAs (.coll o) s t (nextPc s.ctlOf.pc (.coll o)) (goesOn (.coll o)) s.ctlOf ∧ SWrites s t o.d v
    (collDesc s s.cur o = none → stops (.coll o) s { cause := .illop }) ∧
    (∀ c u, collDesc s s.cur o = some c → (collLive s.cur c).run (noted (.coll o) s) = (.ok none, u) →
      Yields (.coll o) s fun t => wrote t 1 ∧ t = { u with warps := t.warps }) ∧
    (∀ c d u, collDesc s s.cur o = some c → (collLive s.cur c).run (noted (.coll o) s) = (.ok (some d), u) →
      d.attempt = (u.group world d.group).attempt → (u.group world d.group).pkts = [] →
      Yields (.coll o) s fun t => wrote t 0 ∧
        let x := t.op u.seqNo
        let y := queued u 20 (.coll d) []
        x = { y with phase := x.phase, retryFrom := x.retryFrom, view := { y.view with seen := x.view.seen } })) ∧
  (∀ (o : Cabort) s, s.Inv = true → CanIssue (.cabort o) s → uniformOn s s.cur o.hd = true →
    let g : BitVec 16 := match o.g with | .s r => (s.sreg s.cur r.val).setWidth 16 | .imm n => n
    let world := s.worldOfWarp s.cur
    (∀ u, (groupRec world g).run (noted (.cabort o) s) = (none, u) →
      Yields (.cabort o) s fun t => IssuedKeep (.cabort o) s t s.ctlOf ∧ t = { u with warps := t.warps }) ∧
    (∀ r u, (groupRec world g).run (noted (.cabort o) s) = (some r, u) → s.cur ∉ (s.world world).handlers →
      Yields (.cabort o) s fun t => (t.warp s.cur).ctl.status = .parked (.tokens g) ∧
        (t.warp s.cur).ctl.pc = nextPc s.ctlOf.pc (.cabort o) ∧ t.regsOf = s.regsOf ∧
        (t.group world g).attempt = (u.group world g).attempt + 1))

/-- R22 to R24, R45, R328 to R330, R370: GRID with a legal header makes a grid, gives its handle, and with another writes the
refusal's number; GWAIT gives the completion word, and acquires at .wd what the grid's completion released, or waits; MBXRD gives the addresses and the departure count of a mailbox and
MBXWR sets it, as the warp's release at .hs; arguments out of range raise their causes. Stated where the translations are cached. -/
def Obligations.GridsAndMailboxes : Prop :=
  let stops (i : Instr) (s : State) (f : FaultInfo) : Prop := ∃ u, u.regsOf = s.regsOf ∧ OnlyWarps s u ∧ Faults i s u f
  let writes (i : Instr) (s t : State) (d : SReg) (v : DWord) (c : Ctl) : Prop :=
    IssuedAs i s t (nextPc s.ctlOf.pc i) (goesOn i) c ∧ SWrites s t d v
  (∀ (o : GridOp) s, s.Inv = true → CanIssue (.grid o) s → uniformOn s s.cur o.hd = true →
    let a := s.sreg s.cur o.a.val
    let world := s.worldOfWarp s.cur
    let who : Who := { world, asid := s.asidOfWarp s.cur, core := s.coreOfWarp s.cur, blk := none }
    (a.toNat % 256 ≠ 0 → stops (.grid o) s { cause := .align, faddr := a }) ∧
    (a.toNat % 256 = 0 → inWindow a = true → stops (.grid o) s { cause := .protect, faddr := a }) ∧
    (∀ bs asid u, (readHeader s.cur a).run (noted (.grid o) s) = (.ok (bs, asid), u) → ReadOnly (noted (.grid o) s) u →
      hdrStatus u world true (parseHdr bs) ≠ 0 → Yields (.grid o) s fun t =>
        writes (.grid o) s t o.d (BitVec.ofNat 64 (hdrStatus u world true (parseHdr bs))) u.ctlOf ∧ ReadOnlyApart s t) ∧
    (∀ bs asid h u, (readHeader s.cur a).run (noted (.grid o) s) = (.ok (bs, asid), u) → ReadOnly (noted (.grid o) s) u →
      parseHdr bs = some h → hdrStatus u world true (some h) = 0 →
      (transAll { who with asid } (hdrAddrs h)).run u = (none, u) → h.boundTab = 0 →
      let n := (s.world world).nextHandle
      let k := world * 2 ^ 48 + n
      Yields (.grid o) s fun t => writes (.grid o) s t o.d (handleOf k) u.ctlOf ∧
        (t.world world).nextHandle = n + 1 ∧ (t.grid k).hdr = h ∧ (t.grid k).asid = asid ∧ (t.grid k).st = .live ∧
        (t.grid k).resident = false ∧ (t.grid k).view = u.relView s.cur ∧ (∀ g, g ≠ k → t.grid g = s.grid g) ∧ t.mem = s.mem)) ∧
  (∀ (o : GridOp) s, s.Inv = true → CanIssue (.gwait o) s → uniformOn s s.cur o.hd = true →
    let h := s.sreg s.cur o.a.val
    (gwaitWord s (s.worldOfWarp s.cur) h = none → Yields (.gwait o) s fun t => WaitsFor s t (.gwait h) s.ctlOf ∧ OnlyWarps s t) ∧
    (∀ v, gwaitWord s (s.worldOfWarp s.cur) h = some v → Yields (.gwait o) s fun t =>
      writes (.gwait o) s t o.d v (if v = 0 then s.ctlOf else { acquired s .wd with view :=
        (let g := s.grid (gridOfHandle (s.worldOfWarp s.cur) h); if g.released = {} then s.ctlOf.view else s.ctlOf.view.join g.released) }) ∧
      OnlyWarps s t)) ∧
  (∀ (o : Mbxrd) s, s.Inv = true → CanIssue (.mbxrd o) s → uniformOn s s.cur o.hd = true →
    let sel := s.srcU s.cur o.sel
    let m := (s.world (s.worldOfWarp s.cur)).mbx + BitVec.ofNat 64 (0x2000 * (sel.toNat % 32))
    let f := sel.toNat / 256 % 4
    let legal : Prop := sel.toNat = f * 256 + sel.toNat % 32
    (¬legal → stops (.mbxrd o) s { cause := .illop }) ∧
    (legal → f < 3 → Yields (.mbxrd o) s fun t => OnlyWarps s t ∧
      writes (.mbxrd o) s t o.d (if f = 0 then m else if f = 1 then m + 0x40 else m + 0x1000) s.ctlOf) ∧
    (∀ v u, legal → f = 3 →
      (devRead64 (s.worldOfWarp s.cur) 0 (m + 0x10)).run (noted (.mbxrd o) s) = (v, u) →
      Yields (.mbxrd o) s fun t => t = { u with warps := t.warps } ∧ writes (.mbxrd o) s t o.d v s.ctlOf)) ∧
  (∀ (o : Mbxwr) s, s.Inv = true → CanIssue (.mbxwr o) s → uniformOn s s.cur o.hd = true →
    let n := match o.arg with | .reg m _ => (s.sreg s.cur m.val).toNat | .imm m _ => m.val
    let v := match o.arg with | .reg _ x => s.sreg s.cur x.val | .imm _ x => s.sreg s.cur x.val
    let world := s.worldOfWarp s.cur
    (31 < n → stops (.mbxwr o) s { cause := .illop }) ∧
    (n ≤ 31 → Yields (.mbxwr o) s fun t => IssuedKeep (.mbxwr o) s t s.ctlOf ∧
      let wr (u : State) (k : Nat) : Writer := { warpWriter u s.cur k (some .hs) true with core := 2 ^ 20 }
      t = { ((devWriteBy wr false world 0 ((s.world world).mbx + BitVec.ofNat 64 (0x2000 * n) + 0x10)
              (leBytes 8 v.toNat)).run (noted (.mbxwr o) s)).2 with warps := t.warps }))

/-! ### The S level -/

/-- R332 to R335, R339: what the S-level instructions do to key slots, interrupts and translations. SEQOPEN puts a new key into a
free slot of every die of the world and gives its number and generation, or 0; SEQBIND gives a page a slot, a generation, the
next tweak and its F bit; SEQEND's request is taken; HNOTE raises or pends its vector; TLBI drops what its mode names and parks for just the operations,
pushed elements and held writes that were translated through it, whether the entry is in the TLB still or was dropped since; what
they do not accept raises the causes of their rules. -/
def Obligations.SequesterNotifyInvalidate : Prop :=
  let stops (i : Instr) (s : State) (c : Cause) (a : DWord) : Prop :=
    ∃ u, u.regsOf = s.regsOf ∧ u = { s with warps := u.warps, free := u.free } ∧ Faults i s u { cause := c, faddr := a }
  let keep (i : Instr) (s t : State) : Prop := IssuedKeep i s t s.ctlOf
  (∀ (o : Seqopen) s, s.Inv = true → CanIssue (.seqopen o) s → uniformOn s s.cur o.hd = true →
    let world := s.worldOfWarp s.cur
    let d := firstDie s world
    let free := (List.range 4096).filter fun n => n != 0 && slotKey s d n == 0 && !slotEnding s world n
    let writes (t : State) (v : DWord) : Prop :=
      IssuedAs (.seqopen o) s t (nextPc s.ctlOf.pc (.seqopen o)) (goesOn (.seqopen o)) s.ctlOf ∧ SWrites s t o.d v
    (free = [] → Yields (.seqopen o) s fun t => writes t 0 ∧ OnlyWarps s t) ∧
    (free ≠ [] → Yields (.seqopen o) s fun t => ∃ n ∈ free, writes t (BitVec.ofNat 64 (n + (slotGen s d n).toNat * 2 ^ 12)) ∧
      t.mem = s.mem ∧ ∀ e ∈ (s.world world).dies, (t.die e).slots = (s.die e).slots.put n ⟨s.seqNo, slotGen s d n⟩)) ∧
  (∀ (o : S2) s, s.Inv = true → CanIssue (.seqbind o) s → uniformOn s s.cur o.hd = true →
    let a := s.sreg s.cur o.a.val
    let b := s.sreg s.cur o.b.val
    (b.toNat / 2 ^ 52 ≠ 0 ∨ b.toNat % 2 ^ 32 = 0 → stops (.seqbind o) s .illop 0) ∧
    (b.toNat / 2 ^ 52 = 0 → b.toNat % 2 ^ 32 ≠ 0 → a.toNat % 65536 ≠ 0 → stops (.seqbind o) s .align a) ∧
    (∀ d off e, b.toNat / 2 ^ 52 = 0 → b.toNat % 2 ^ 32 = 1 → a.toNat % 65536 = 0 → ownAddr s a = some (d, off) →
      s.latched d (s.worldOfWarp s.cur) = true → (s.die d).tlb.find? (fun e => e.hits (s.asidOfWarp s.cur) off) = some e → e.level = 1 →
      let slot := b.toNat / 2 ^ 32 % 2 ^ 12
      let gen := b.toNat / 2 ^ 44 % 2 ^ 8
      let w1 := setField (setField (setField e.w1 28 16 (field e.w1 28 16 + 1)) 52 12 slot) 44 8 gen
      (slotKey s d slot ≠ 0 → (slotGen s d slot).toNat = gen → Yields (.seqbind o) s fun t => keep (.seqbind o) s t ∧
        (t.die d).tlb = (s.die d).tlb.map fun x => if x.leaf = e.leaf then { x with w0 := setField e.w0 61 1 1, w1 := w1 } else x) ∧
      (slotKey s d slot = 0 ∨ (slotGen s d slot).toNat ≠ gen → stops (.seqbind o) s .keyretired a))) ∧
  (∀ (o : S2) s, s.Inv = true → CanIssue (.seqend o) s → uniformOn s s.cur o.hd = true →
    let a := s.sreg s.cur o.a.val
    let stamp := s.sreg s.cur o.b.val
    let world := s.worldOfWarp s.cur
    let n := a.toNat % 2 ^ 12
    let gen := a.toNat / 2 ^ 12 % 2 ^ 8
    let closed : Prop := slotKey s (firstDie s world) n = 0 ∨ slotEnding s world n = true ∨ (slotGen s (firstDie s world) n).toNat ≠ gen
    (a.toNat / 2 ^ 20 ≠ 0 → stops (.seqend o) s .illop 0) ∧
    (a.toNat / 2 ^ 20 = 0 → n = 0 → ∃ f, stops (.seqend o) s .protect f) ∧
    (a.toNat / 2 ^ 20 = 0 → n ≠ 0 → closed → ∃ f, stops (.seqend o) s .keyretired f) ∧
    (a.toNat / 2 ^ 20 = 0 → n ≠ 0 → ¬closed → stamp.toNat % 8 ≠ 0 → stops (.seqend o) s .align stamp) ∧
    (a.toNat / 2 ^ 20 = 0 → n ≠ 0 → ¬closed → stamp.toNat % 8 = 0 → Yields (.seqend o) s fun t => keep (.seqend o) s t ∧
      (t.world world).seqEnds = (s.world world).seqEnds ++ [⟨n, BitVec.ofNat 8 gen, stamp, s.asidOfWarp s.cur⟩] ∧
      t = { s with warps := t.warps, worlds := t.worlds })) ∧
  (∀ (o : Hnote) s, s.Inv = true → CanIssue (.hnote o) s → uniformOn s s.cur o.hd = true →
    let n := match o.arg with | .reg a => (s.sreg s.cur a.val).toNat | .imm n => n.val
    let world := s.worldOfWarp s.cur
    let x := s.world world
    (31 < n → stops (.hnote o) s .illop 0) ∧
    (n ≤ 31 → bitAt x.msixMask n = true → Yields (.hnote o) s fun t => keep (.hnote o) s t ∧
      (t.world world).msixPend = setField x.msixPend n 1 1 ∧ t = { s with warps := t.warps, worlds := t.worlds }) ∧
    (n ≤ 31 → bitAt x.msixMask n = false → Yields (.hnote o) s fun t => keep (.hnote o) s t ∧
      t = { s with warps := t.warps, dev := { s.dev with out := .msix world n :: s.dev.out } })) ∧
  (∀ (o : S2) s, s.Inv = true → CanIssue (.tlbi o) s → uniformOn s s.cur o.hd = true →
    let a := s.sreg s.cur o.a.val
    let m := (s.sreg s.cur o.b.val).toNat
    let world := s.worldOfWarp s.cur
    (3 ≤ m → stops (.tlbi o) s .illop 0) ∧
    let dropped (d : Nat) (e : TlbEnt) : Prop := (m = 1 ∧ e.world = world ∧ e.asid = a.toNat % 2 ^ 10) ∨ (m = 2 ∧ e.world = world) ∨
      (m = 0 ∧ ∃ off, ownAddr s a = some (d, off) ∧ s.latched d world = true ∧
        ((∃ x, (x ∈ (s.die d).tlb ∨ ∃ n, (n, x) ∈ (s.die d).tlbOld) ∧ x.hits (s.asidOfWarp s.cur) off = true ∧ x.leaf = e.leaf) ∨
          ∃ w0 w1 l, (walk s d (s.asidOfWarp s.cur) off).1 = .entry w0 w1 e.leaf l))
    let through (asid turn : Nat) (v : DWord) : Prop := ∃ d off e, ownAddr s v = some (d, off) ∧ dropped d e ∧ e.hits asid off = true ∧
      (e ∈ (s.die d).tlb ∨ ∃ n, turn < n ∧ (n, e) ∈ (s.die d).tlbOld)
    (m ≤ 2 → Yields (.tlbi o) s fun t =>
      (let u := if m = 0 then ((leavesAt world (s.asidOfWarp s.cur) a).run (noted (.tlbi o) s)).2 else s
       t = { u with warps := t.warps, dies := t.dies }) ∧ t.regsOf = s.regsOf ∧ (t.warp s.cur).stack = (s.warp s.cur).stack ∧
      (∃ ops held pushed n old, IssuedAs (.tlbi o) s t (nextPc s.ctlOf.pc (.tlbi o)) (.parked (.drops ops held pushed n old)) s.ctlOf ∧
        (∀ k, k ∈ ops ↔ ∃ x, (k, x) ∈ s.ops ∧ s.worldOfWarp x.warp = world ∧ x.finished = false ∧ x.stopped = false ∧ opRuns s k = true ∧
          ∃ v ∈ opAddrs s x, through (s.asidOfWarp x.warp) x.turn v) ∧
        (∀ h, h ∈ held ↔ ∃ g, (h.1, g) ∈ s.gangs ∧ worldOfGrid (gridOfGang h.1) = world ∧
          ∃ x ∈ g.holds, x.hold = h.2 ∧ ∃ v ∈ x.places, through x.asid x.turn v) ∧
        (∀ p, p ∈ pushed ↔ ∃ b, (p.1, b) ∈ s.blocks ∧ s.worldOfWarp (p.1 * 64) = world ∧ placed s (p.1 * 64) = true ∧
          ∃ q, (p.2.1, q) ∈ b.streams ∧ ∃ x ∈ q.pend, x.n = p.2.2 ∧ through (s.asidOfWarp q.warp) x.turn x.addr) ∧
        ∀ e, e ∈ old ↔ ∃ d ∈ (s.world world).dies, ∃ k x, (k, x) ∈ (s.die d).tlbOld ∧ dropped d x ∧ e = (d, k, x.asid, x.leaf)) ∧
      ∀ d ∈ (s.world world).dies, ∀ e, e ∈ (t.die d).tlb ↔ e ∈ (s.die d).tlb ∧ ¬dropped d e))

/-- R303, R336 to R338, R340, R393: what a handler does with a faulted warp that a reference names (no parked warp of the
world: ILLOP). WSTATE reads its items, of a saved warp in its save record; WRESUME with no patches makes a warp parked at a precise fault issue again at its
continue address, in the lanes of FLANES where the fault was an access's; with patches, when they are legal, it applies them and
the warp goes where they move it; .skip goes on behind the instruction, and leaves the operation of a deferred fault undone,
which .retry runs again; of a saved warp the resolution stays pending, in its save record too; WKILL
ends the warp's grid with the cause given; ERET retires the entry that its warp holds, with those retired before their turn, and
waits for an entry, or takes the next with its address in s2. -/
def Obligations.FaultHandling : Prop :=
  let stops (i : Instr) (s : State) : Prop := ∃ u, u.regsOf = s.regsOf ∧ OnlyWarps s u ∧ Faults i s u { cause := .illop }
  let world (s : State) : Nat := s.worldOfWarp s.cur
  let goes (i : Instr) (s t : State) : Prop := (t.warp s.cur).ctl.pc = nextPc s.ctlOf.pc i ∧
    (t.warp s.cur).ctl.status = .parked .results ∧ t.regsOf = s.regsOf
  let on (i : Instr) (s t : State) : Prop := goes i s t ∧ t.mem = s.mem
  (∀ (o : Wstate) s, s.Inv = true → CanIssue (.wstate o) s → uniformOn s s.cur o.hd = true →
    let r := refWarp s (world s) (s.sreg s.cur o.a.val)
    let c := itemOf (s.srcU s.cur o.code).toNat
    (r = none ∨ c = none → stops (.wstate o) s) ∧
    (∀ w i, r = some w → c = some i → savedWarp s w = false → Yields (.wstate o) s fun t =>
      Completes (.wstate o) s t ∧ SWrites s t o.d (itemVal s w i)) ∧
    (∀ w i v u, r = some w → c = some i → savedWarp s w = true → (readItem w i).run (noted (.wstate o) s) = (v, u) →
      Yields (.wstate o) s fun t => (t.warp s.cur).ctl.pc = nextPc s.ctlOf.pc (.wstate o) ∧
        (t.warp s.cur).ctl.status = goesOn (.wstate o) ∧ SWrites s t o.d v ∧ t = { u with warps := t.warps })) ∧
  (∀ (o : S2f) s, s.Inv = true → CanIssue (.wresume o) s → uniformOn s s.cur o.hd = true →
    let r := refWarp s (world s) (s.sreg s.cur o.a.val)
    (r = none → stops (.wresume o) s) ∧
    (∀ w, r = some w → (s.warp w).ctl.pending ≠ none → stops (.wresume o) s) ∧
    (∀ w, r = some w → (s.warp w).ctl.pending = none → s.sreg s.cur o.b.val = 0 → s.checkedWarp w = false →
      let c := (s.warp w).ctl
      (o.flag = true → c.deferred = none → c.noLen = true → stops (.wresume o) s) ∧
      (savedWarp s w = true → w ≠ s.cur → o.flag = false → Yields (.wresume o) s fun t => goes (.wresume o) s t ∧
        t = { ((resaveWarp w).run (Upd.apply (noted (.wresume o) s) (.ctl w fun c => { c with pending := some .retry }))).2
              with warps := t.warps } ∧ (t.warp w).ctl = { c with pending := some .retry }) ∧
      (savedWarp s w = false → o.flag = false → c.status = .faulted → c.deferred = none → c.held = [] → c.parkedIn = none →
        Yields (.wresume o) s fun t => on (.wresume o) s t ∧ (t.warp w).regs = (s.warp w).regs ∧
          (t.warp w).ctl.status = .ready ∧ (t.warp w).ctl.pc = c.contPc ∧ (t.warp w).ctl.runCnt = 0 ∧
          (t.warp w).ctl.retry = if c.memFault then some (c.fault.flanesh ++ c.fault.flanesl) else c.retry) ∧
      (∀ n u, savedWarp s w = false → o.flag = true → c.status = .faulted → c.deferred = none → c.noLen = false → c.held = [] →
        c.parkedIn = none →
        (fetchLen w).run (Upd.apply (noted (.wresume o) s) (.ctl w fun c => { c with pc := c.contPc })) = (n, u) →
        Yields (.wresume o) s fun t => goes (.wresume o) s t ∧ (t.warp w).regs = (s.warp w).regs ∧
          (t.warp w).ctl.status = .ready ∧ (t.warp w).ctl.pc = skip28 (c.contPc + BitVec.ofNat 64 n) ∧
          (t.warp w).ctl.retry = none) ∧
      (∀ k, savedWarp s w = false → c.status = .faulted → c.deferred = some k → c.held = [] → Yields (.wresume o) s fun t =>
        on (.wresume o) s t ∧ (t.warp w).regs = (s.warp w).regs ∧ (t.warp w).ctl.pc = c.contPc ∧ (t.warp w).ctl.deferred = none ∧
        (t.warp w).ctl.status = (match c.parkedIn with | some p => .parked p | none => .ready) ∧
        (o.flag = false → t.op k = { s.op k with stopped := false, wrote := [], sent := none, read := none }) ∧
        (o.flag = true → (t.op k).finished = true ∨ ∀ x, (k, x) ∉ t.ops))) ∧
    (∀ w ps u, r = some w → (s.warp w).ctl.pending = none → s.sreg s.cur o.b.val ≠ 0 → s.checkedWarp w = false →
      (readPatches s.cur 4096 (s.sreg s.cur o.b.val)).run (noted (.wresume o) s) = (.ok (some ps), u) → ReadOnly (noted (.wresume o) s) u →
      let c := (s.warp w).ctl
      (∀ p l, ps = p :: l → (∀ i, itemOf p.1.toNat = some i → itemWidth i = none) →
        ∃ v, v.regsOf = s.regsOf ∧ ReadOnlyApart s v ∧ Faults (.wresume o) s v { cause := .illop }) ∧
      (checkPatches c (s.m0 w) ps = none → (o.flag = true → movesWarp ps = true) → savedWarp s w = false → c.status = .faulted →
        c.deferred = none → c.held = [] → c.parkedIn = none → Yields (.wresume o) s fun t =>
          let v := ((forAll ps (applyPatch w)).run u).2
          goes (.wresume o) s t ∧ (t.warp w).regs = (v.warp w).regs ∧ (t.warp w).ctl.status = .ready ∧
          (t.warp w).ctl.pc = (v.warp w).ctl.contPc ∧
          ((t.warp w).ctl.retry = if movesWarp ps then none else if c.memFault then some (c.fault.flanesh ++ c.fault.flanesl) else c.retry) ∧
          ∀ p, ps = [p] → (itemOf p.1.toNat = some .pc → (t.warp w).ctl.pc = p.2) ∧
            (∀ n, itemOf p.1.toNat = some (.s n) → (t.warp w).regs.s.get 0 n = p.2) ∧
            ∀ x l, itemOf p.1.toNat = some (.v x l) → x < c.alloc → c.launched.getLsbD l = true →
              (t.warp w).regs.v.get 0 (x * 128 + l) = p.2.setWidth 32))) ∧
  (∀ (o : S2f) s, s.Inv = true → CanIssue (.wkill o) s → uniformOn s s.cur o.hd = true →
    let r := refWarp s (world s) (s.sreg s.cur o.a.val)
    let cause := (s.sreg s.cur o.b.val).toNat
    (r = none ∨ cause = 0 ∨ 0x14 < cause → stops (.wkill o) s) ∧
    (∀ w, r = some w → 1 ≤ cause → cause ≤ 0x14 → (s.warp w).ctl.pending = none → o.flag = false →
      s.gridOfWarp w ≠ s.gridOfWarp s.cur → (s.grid (s.gridOfWarp w)).resident = false → (s.grid (s.gridOfWarp w)).st = .live →
      Yields (.wkill o) s fun t =>
        on (.wkill o) s t ∧ (t.grid (s.gridOfWarp w)).st = .stopping ∧ (t.grid (s.gridOfWarp w)).cause = BitVec.ofNat 16 cause ∧
        ∀ x e, (x, e) ∈ s.warps → s.gridOfWarp x = s.gridOfWarp w → e.ctl.status ≠ .exited → (t.warp x).ctl.status = .stopped) ∧
    (∀ w, r = some w → 1 ≤ cause → cause ≤ 0x14 → (s.warp w).ctl.pending = none → o.flag = true → s.checkedWarp w = false →
      savedWarp s w = true → w ≠ s.cur → Yields (.wkill o) s fun t => goes (.wkill o) s t ∧
        (t.warp w).ctl = { (s.warp w).ctl with pending := some .kill })) ∧
  (∀ (o : Plain) s n v, s.Inv = true → CanIssue (.eret o) s → uniformOn s s.cur o.hd = true →
    let k := s.ctlOf.entry
    let u0 := ((if k = 0 then Prog.ret () else retireEntry (world s) (k - 1)).run (noted (.eret o) s)).2
    let u := Upd.apply u0 (.ctl s.cur fun c => { c with entry := 0 })
    (devRead64 (world s) 0 (s.world (world s)).fq).run u = (n, v) →
    let x := v.world (world s)
    (x.handlers = [] → x.delivered < n.toNat → Yields (.eret o) s fun t =>
      (t.warp s.cur).ctl.pc = nextPc s.ctlOf.pc (.eret o) ∧ (t.warp s.cur).ctl.status = .parked .results ∧
      (t.warp s.cur).ctl.entry = x.delivered + 1 ∧ (t.world (world s)).delivered = x.delivered + 1 ∧
      SWrites s t 2 (x.fq + 64 + BitVec.ofNat 64 (64 * (x.delivered % 4096)))) ∧
    (x.handlers ≠ [] ∨ n.toNat ≤ x.delivered → Yields (.eret o) s fun t =>
      (t.warp s.cur).ctl.pc = nextPc s.ctlOf.pc (.eret o) ∧ (t.warp s.cur).ctl.status = .waiting .eret ∧
      (t.warp s.cur).ctl.entry = 0 ∧ (t.world (world s)).handlers = x.handlers ++ [s.cur] ∧ t.regsOf = s.regsOf)) ∧
  (∀ s y k n u, (devRead64 y 0 ((s.world y).fq + 8)).run s = (n, u) →
    let out := (u.world y).retiredOut ++ [k]
    let t := ((retireEntry y k).run s).2
    ∃ m, n.toNat ≤ m ∧ (∀ j, n.toNat ≤ j → j < m → j ∈ out) ∧ m ∉ out ∧
      t.mem = ((devWrite64 y 0 ((s.world y).fq + 8) (BitVec.ofNat 64 m)).run u).2.mem ∧
      (t.world y).retiredOut = out.filter (fun j => decide (j < n.toNat) || decide (m ≤ j)) ∧
      (t.world y).gridEnts = Tab.drop (u.world y).gridEnts k ∧
      ∀ e, (u.world y).gridEnts.find? (fun e => e.1 == k) = some e → (t.grid e.2).held = false)

/-! ### Events of warps and engines -/

/-- R39, R55, R98, R192, R201, R287, R301, R393, R394, R401: what the events of parked, waiting and faulting warps do when their
condition holds. -/
def Obligations.WarpEvents : Prop :=
  let can (s : State) : Prop := s.ctlOf.status = .ready ∧ s.ctlOf.runCnt.val ≠ 16 ∧ (s.runOf (s.cur / 256)).st = .resident
  let only (s t : State) (w : Nat) (c : Ctl) : Prop :=
    OnlyWarps s t ∧ ∀ x, t.warp x = if x = w then { s.warp w with ctl := c } else s.warp x
  let at_ (s : State) (d off : Nat) : Prop := targetOk s.ctlOf.pc = true ∧ ownAddr s s.ctlOf.pc = some (d, off) ∧
    s.latched d (s.worldOfWarp s.cur) = true
  let entry (s : State) (d off : Nat) : Option TlbEnt := (s.die d).tlb.find? fun e => e.hits (s.asidOfWarp s.cur) off
  (∀ s n u, can s → (fetch s.cur).run s = (.illop n, u) → Faults .unassignedOpcode s u { cause := .illop, noLen := n }) ∧
  (∀ s d off e n, can s → at_ s d off → entry s d off = some e →
    let x := Xl.ofEntry d (s.asidOfWarp s.cur) off e.w0 e.w1 e.leaf e.level
    bitAt x.w0 58 = true → x.gen = (slotGen s d x.slot).toNat → x.past = false →
    tagOk (s.tags.get {} x.line) (x.want s) = true → (s.tags.get {} x.line).poison = false → s.oldCode = [] →
    field (s.die d).trcfg 40 16 = 0 ∨ (s.coreOfWarp s.cur / 16 = d ∧ field x.w0 53 3 = 0) →
    decodeBlock (physBytes s (x.key / 32 * 32) 32) (s.ctlOf.pc.toNat % 32) = .illop n →
    Faults .unassignedOpcode s s { cause := .illop, noLen := n }) ∧
  (∀ s c a u, can s → (fetch s.cur).run s = (.trap c a, u) →
    Faults (.fetchFault (c == .protect)) s u { cause := c, faddr := a, noLen := true }) ∧
  (∀ s d off e, can s → at_ s d off → entry s d off = some e → bitAt e.w0 58 = false →
    Faults (.fetchFault true) s s { cause := .protect, faddr := s.ctlOf.pc, noLen := true }) ∧
  (∀ s d off w0 w1 pa l, can s → at_ s d off → entry s d off = none → walk s d (s.asidOfWarp s.cur) off = (.entry w0 w1 pa l, []) →
    bitAt w0 63 = false → bitAt w0 62 = false →
    Faults (.fetchFault false) s s { cause := .translate, faddr := s.ctlOf.pc, noLen := true }) ∧
  (∀ s w c, (s.warp w).ctl.status = .parked c → residentWarp s w = true → parkOver s w c false = true →
    ((s.warp w).ctl.held = [] → Yields (.runResultsReturned w) s fun t => t = { s with warps := t.warps, free := t.free, dies := t.dies } ∧
      ((∀ ops held pushed n old, c ≠ .drops ops held pushed n old) → t.dies = s.dies) ∧
      (∀ ops held pushed n old, c = .drops ops held pushed n old → ∀ d ∈ (s.world (s.worldOfWarp w)).dies,
        (t.die d).tlb = (s.die d).tlb ∧ ∀ e, e ∈ (t.die d).tlbOld ↔ e ∈ (s.die d).tlbOld ∧ e.1 ≠ n ∧ (d, e.1, e.2.asid, e.2.leaf) ∉ old) ∧
      (∀ x, t.warp x = if x = w
        then { s.warp w with ctl := { (s.warp w).ctl with status := .ready, waitFrom := none, view := (t.warp w).ctl.view } }
        else s.warp x) ∧
      ((∀ m n, c ≠ .queues m n) → (t.warp w).ctl.view = (s.warp w).ctl.view) ∧ ((∀ g, c ≠ .tokens g) → t.free = s.free)) ∧
    (∀ h r, (s.warp w).ctl.held = h :: r → (s.warp w).ctl.deferred = none → w ∉ (s.world (s.worldOfWarp w)).handlers →
      Yields (.runResultsReturned w) s fun t => (t.warp w).ctl.status = .faulted ∧ (t.warp w).ctl.fault = h.frec ∧
        (t.warp w).ctl.deferred = some h.op ∧ (t.warp w).ctl.held = r ∧ (t.warp w).ctl.contPc = (s.warp w).ctl.pc)) ∧
  (∀ s w, (s.warp w).ctl.status = .ready → (s.warp w).ctl.runCnt.val = 16 → Yields (.runCounterLimit w) s fun t =>
    only s t w { (s.warp w).ctl with status := .parked .results, runCnt := 0, runLog := [], runOld := [] }) ∧
  (∀ s w k, (s.warp w).ctl.status = .waiting k → residentWarp s w = true → waitMet s w k = true →
    Yields (.waitConditionMet w) s fun t => only s t w { (s.warp w).ctl with status := .ready, waitFrom := none }) ∧
  (∀ s w lane a addrs vals sc b o, lane < 128 → (s.warp w).ctl.status = .waiting (.mwait addrs vals sc) → residentWarp s w = true →
    addrs.find? (fun e => e.1 == lane) = some (lane, a) → a.toNat % 8 = 0 → inWindow a = true →
    locWindow s (s.whoWarp w) a 8 { rd := true } = .ok (.spad b o) → absent s b (o / 128) = false →
    (vals.get 0 lane).toNat ≤ s.spadNum (b, o) 8 → Yields (.mwaitSatisfied w lane) s fun t => OnlyWarps s t ∧
      (t.warp w).ctl.mwDone = (s.warp w).ctl.mwDone ||| maskOf [lane] ∧
      (t.warp w).ctl.mwWords.get 0 lane = BitVec.ofNat 64 (s.spadNum (b, o) 8) ∧ (t.warp w).regs = (s.warp w).regs ∧
      ((∀ e ∈ addrs, (t.warp w).ctl.mwDone.getLsbD e.1 = true) → (t.warp w).ctl.status = .ready) ∧
      ((∃ e ∈ addrs, (t.warp w).ctl.mwDone.getLsbD e.1 = false) → (t.warp w).ctl.status = (s.warp w).ctl.status)) ∧
  (∀ s blk line, (s.block blk).busy.get 0 line = 0 → (s.block blk).unset.get 0 line % 2 = 1 →
    Yields (.presenceSet blk line) s fun t => t = { s with blocks := t.blocks, ops := t.ops } ∧
      ∀ b, t.block b = if b = blk
        then { s.block blk with unset := Tab.set 0 (s.block blk).unset line ((s.block blk).unset.get 0 line / 2 * 2), lineView := (t.block blk).lineView }
        else s.block b) ∧
  (∀ s w k a from_, (s.warp w).ctl.status = .waiting k → watchdogAddr s w k = some a → (s.warp w).ctl.waitFrom = some from_ →
    from_ + watchdogNs s (s.worldOfWarp w) ≤ s.time → residentWarp s w = true → w ∉ (s.world (s.worldOfWarp w)).handlers →
    Yields (.watchdog w) s fun t => (t.warp w).ctl.status = .faulted ∧ (t.warp w).regs = (s.warp w).regs ∧
      (t.warp w).ctl.fault.fcause.toNat % 2 ^ 16 = Cause.watchdog.code ∧ (t.warp w).ctl.fault.faddr = a ∧
      (t.warp w).ctl.fault.fpc = (s.warp w).ctl.pc) ∧
  (∀ s w p a tried from_, (s.warp w).ctl.status = .parked p → retryingCopy s w p = some (a, tried) →
    (s.warp w).ctl.waitFrom = some from_ → from_ + watchdogNs s (s.worldOfWarp w) ≤ s.time →
    tried + watchdogNs s (s.worldOfWarp w) ≤ s.time → residentWarp s w = true → w ∉ (s.world (s.worldOfWarp w)).handlers →
    Yields (.watchdog w) s fun t => (t.warp w).ctl.status = .faulted ∧ (t.warp w).regs = (s.warp w).regs ∧
      (t.warp w).ctl.fault.fcause.toNat % 2 ^ 16 = Cause.watchdog.code ∧ (t.warp w).ctl.fault.faddr = a ∧
      (t.warp w).ctl.fault.fpc = (s.warp w).ctl.contPc) ∧
  (∀ s k c a p, ((nextOfOp k).run s).1 = .error (.cause c a, p) → opRuns s k = true →
    let u := ((spoilOp k c).run s).2
    let o := u.op k
    let w := o.warp
    (u.warp w).ctl.status = .ready → (u.warp w).ctl.held = [] → (u.warp w).ctl.deferred = none →
    w ∉ (u.world (u.worldOfWarp w)).handlers → Yields (.deferredFault k) s fun t => t.op k = { o with stopped := true } ∧
      (t.warp w).ctl.status = .faulted ∧ (t.warp w).ctl.deferred = some k ∧ (t.warp w).ctl.fault.fpc = o.fpc ∧
      (t.warp w).ctl.fault.fcause.toNat = c.code ∧ (t.warp w).ctl.fault.faddr = a ∧ (t.warp w).regs = (u.warp w).regs) ∧
  (∀ s k e esize p x, (s.op k).kind = .elem e esize p → opRuns s k = true → opHead s k = true → esize ∈ [1, 2, 4, 8] →
    (s.op k).sent = none → (s.op k).wrote = [] →
    let o := s.op k
    let w := o.warp
    p.addr.toNat % esize = 0 → StaleAt { s with cur := w } p.addr x →
    (s.warp w).ctl.status = .ready → (s.warp w).ctl.held = [] → (s.warp w).ctl.deferred = none →
    w ∉ (s.world (s.worldOfWarp w)).handlers → Yields (.deferredFault k) s fun t => t.op k = { o with stopped := true } ∧
      (t.warp w).ctl.status = .faulted ∧ (t.warp w).ctl.deferred = some k ∧ (t.warp w).ctl.fault.fpc = o.fpc ∧
      (t.warp w).ctl.fault.fcause.toNat = Cause.keyretired.code ∧ (t.warp w).ctl.fault.faddr = p.addr ∧
      (t.warp w).regs = (s.warp w).regs) ∧
  (∀ s world w r (n m : DWord), (s.world world).unposted = w :: r →
    (devRead64 world 0 (s.world world).fq).run s = (n, s) → (devRead64 world 0 ((s.world world).fq + 8)).run s = (m, s) →
    n.toNat < m.toNat + 4096 → Yields (.faultPostWaiting world) s fun t => (t.world world).unposted = r)

/-- R43, R44, R118, R124, R125, R155, R156, R305, R311, R314, R317: what the engines' events do. A step of the matrix unit
accumulates the operands it reads; an EPI leaves its slot empty and a copy its queue when what they read and write can be
reached (stated where translations are cached, for operands and outputs that no bound register judges); a TSTORE through an aon
map takes its tile when the version word is even, and notes an odd one, as a version-checked copy does; a stream reads its next
element, and writes the oldest one pushed; a push lands; a peer access that arrives before its instruction's other lanes is
performed, or meets PEERGONE at a retired block; a block whose warps are gone and whose engines are idle retires. What a turn does
of a copy and of a peer access are log entries 45 and 44. -/
def Obligations.EngineEvents : Prop :=
  let core (s : State) (k : Nat) : Nat := s.coreOfWarp (s.op k).warp
  let gone (t : State) (k : Nat) : Prop := ∀ e ∈ t.ops, e.1 = k → e.2.finished = true
  let as_ (s : State) (k : Nat) : State := { s with cur := (s.op k).warp }
  let runs (s : State) (k : Nat) : Prop := s.Inv = true ∧ opRuns s k = true ∧ opHead s k = true
  let whole (s : State) (k : Nat) : Prop := (s.op k).sent = none ∧ (s.op k).away = []
  let free_ (s : State) (k : Nat) : Prop := s.checkedWarp (s.op k).warp = false ∧ (s.op k).log = none ∧ whole s k
  let writable (s : State) (k : Nat) (ws : List WByte) : Prop := ∀ b ∈ ws, ∃ y, HitAt (as_ s k) b.1 1 false true y ∧ Readable (as_ s k) y
  (∀ s k m u, opRuns s k = true → (s.op k).kind = .mloop m → (mloopAttempt k).run s = (.ok (), u) →
    Yields (.mloopStep k) s fun t => t = u ∧ (t.op k).kind = .mloop { m with step := m.step + 1 }) ∧
  (∀ s k m (place : DWord → Nat × Nat), runs s k → (s.op k).kind = .mloop m → m.step < m.count →
    let n := (mfBits m.mf + 7) / 8
    let rows := (List.range m.rows).map (rowA m)
    let cols := (List.range m.cols).map (colB m)
    let x := s.slot (core s k) m.slot
    let val (e : DWord × Bool) : Nat :=
      let v := s.spadNum (place e.1) n
      if mfBits m.mf = 4 then (if e.2 then v / 16 % 16 else v % 16) else v
    (∀ e ∈ rows.flatten ++ cols.flatten, SpadAt (as_ s k) e.1 n { rd := true } (place e.1)) →
    Yields (.mloopStep k) s fun t => t = { s with rings := t.rings, ops := t.ops } ∧
      t.op k = { s.op k with kind := .mloop { m with step := m.step + 1 } } ∧
      t.slot (core s k) m.slot =
        if x.st = .filling then { x with acc := stepAcc m x.acc (rows.map fun r => r.map val) (cols.map fun r => r.map val) } else x) ∧
  (∀ s k m, s.Inv = true → opRuns s k = true → (s.op k).kind = .mloop m → opHead s k = true → m.step = m.count →
    let x := s.slot (core s k) m.slot
    x.st = .filling → Yields (.mloopComplete k) s fun t => gone t k ∧
      t.slot (core s k) m.slot = if m.opn then x else { x with st := if x.taken then .draining else .full }) ∧
  (∀ s k e u, opRuns s k = true → (s.op k).kind = .epi e → (epiAttempt k).run s = (.ok (), u) →
    Yields (.epiComplete k) s fun t => t = u ∧ (gone t k → t.slot (core s k) e.slot = {})) ∧
  (∀ s k e, runs s k → free_ s k → (s.op k).kind = .epi e → (s.op k).wrote = [] → e.beta.toNat % 2 ^ 31 = 0 → e.bias = 0 → e.map.bnd = false →
    e.stamp = none → (s.slot (core s k) e.slot).st = .draining → writable s k (epiWrites e (s.slot (core s k) e.slot)) →
    Yields (.epiComplete k) s fun t => gone t k ∧ t.slot (core s k) e.slot = {} ∧ ∀ w, (t.warp w).regs = (s.warp w).regs) ∧
  (∀ s k u, opRuns s k = true → (engineAttempt k).run s = (.ok (), u) → Yields (.copyComplete k) s fun t => t = u) ∧
  (∀ s k m c h dst (place : DWord → Nat × Nat), runs s k → free_ s k → (s.op k).kind = .copy m c h dst none none → (s.op k).wrote = [] →
    let els := writtenElts (boxElts m c h)
    (engLines s (denseMask m dst els)).length ≤ 32 →
    (∀ e ∈ insideElts els, ∃ y, HitAt (as_ s k) e.addr m.ebytes true false y ∧ Readable (as_ s k) y) →
    (∀ b ∈ denseMask m dst els, inWindow b.1 = true ∧
      locWindow s (s.whoWarp (s.op k).warp) b.1 1 { wr := true } = .ok (.spad (place b.1).1 (place b.1).2)) →
    Yields (.copyComplete k) s fun t => gone t k ∧ t.mem = s.mem ∧ (∀ w, (t.warp w).regs = (s.warp w).regs) ∧
      ∀ e y, els = [e] → e.st = .inside → 8 ≤ m.ebits → HitAt (as_ s k) e.addr m.ebytes true false y → ∀ i, i < m.ebytes →
        let p := place (denseAddr dst e + BitVec.ofNat 64 i)
        t.spadByte p.1 p.2 = Tab.get 0 s.mem (y.key + i)) ∧
  (∀ s k m c h src st sc u, (s.op k).kind = .store m c h src st sc → m.aon = true → (s.op k).phase = 0 →
    s.checkedWarp (s.op k).warp = false → opRuns s k = true → (engineAttempt k).run s = (.ok (), u) →
    Yields (.aonVersionRetry k) s fun t => t = u) ∧
  (∀ s k m c h src st sc y, runs s k → s.checkedWarp (s.op k).warp = false → (s.op k).kind = .store m c h src st sc → m.aon = true →
    m.bnd = false → (s.op k).phase = 0 → whole s k → (s.op k).before = [] →
    (∀ e ∈ insideElts (boxElts m c h), ∃ p, SpadAt (as_ s k) (denseAddr src e) m.ebytes { rd := true } p) →
    HitAt (as_ s k) (verAddr m c) 8 true true y → Readable (as_ s k) y → inTable s y.die y.pa = false →
    let v : DWord := BitVec.ofNat 64 (leNat (physBytes s y.key 8))
    (v.toNat % 2 = 1 → Yields (.aonVersionRetry k) s fun t => t.mem = s.mem ∧
      t.op k = { s.op k with vword := v, view := (t.op k).view }) ∧
    (v.toNat % 2 = 0 → s.msgs.get [] y.lid = [] → Yields (.aonVersionRetry k) s fun t =>
      (t.op k).phase = 1 ∧ (t.op k).vword = v + 1 ∧ leNat (physBytes t y.key 8) = (v + 1).toNat)) ∧
  (∀ s k m c h dst st sc y, runs s k → (s.op k).kind = .copy m c h dst st (some sc) → s.checkedWarp (s.op k).warp = false →
    HitAt (as_ s k) (verAddr m c) 8 true false y → Readable (as_ s k) y →
    let v : DWord := BitVec.ofNat 64 (leNat (physBytes s y.key 8))
    v.toNat % 2 = 1 → Yields (.tcopyVerRetry k) s fun t => t.mem = s.mem ∧
      t.op k = { s.op k with vword := v, retryFrom := some ((s.op k).retryFrom.getD s.time), view := (t.op k).view }) ∧
  (∀ s blk e, let x := (s.block blk).streams.get {} e
    let n := x.pos + x.ahead.length
    let a := x.base + BitVec.ofNat 64 n * x.stride
    let adds (v t : State) (y : Elem) : Prop := t = { v with blocks := t.blocks } ∧
      (t.block blk).streams = (v.block blk).streams.put e { x with ahead := x.ahead ++ [y] }
    x.bound = true → x.store = false → n < x.count → (∀ y ∈ x.ahead, ∃ v, y = .val v) → (s.runOf (blk / 4)).st = .resident →
    (∀ c f u, (locate (s.whoWarp x.warp) a x.esize { rd := true, winOk := false }).run s = (.error (c, f), u) →
      Yields (.streamReadAhead blk e) s fun t => adds u t (.bad c.code f)) ∧
    (inWindow a = false → a.toNat % x.esize ≠ 0 → x.esize ≠ 0 → Yields (.streamReadAhead blk e) s fun t => adds s t (.bad Cause.align.code a)) ∧
    (∀ y, HitAt { s with cur := x.warp } a x.esize true false y → Readable { s with cur := x.warp } y → (∀ os, copiesFor s x.warp y os = []) →
      s.checkedWarp x.warp = false → x.esize ∈ [1, 2, 4, 8] → Yields (.streamReadAhead blk e) s fun t => t.mem = s.mem ∧
        (t.block blk).streams = (s.block blk).streams.put e { x with ahead := x.ahead ++ [.val
          (if x.sext then dword (signed (8 * x.esize) (leNat (physBytes s y.key x.esize)))
           else BitVec.ofNat 64 (leNat (physBytes s y.key x.esize)))] })) ∧
  (∀ s blk e p r y, s.Inv = true → ((s.block blk).streams.get {} e).pend = p :: r → (s.runOf (blk / 4)).st = .resident →
    (∀ o ∈ s.ops, o.2.blk = blk → o.2.queue = 8 + e → o.2.finished = true) →
    let x := (s.block blk).streams.get {} e
    let v := { s with cur := x.warp }
    x.esize ∈ [1, 2, 4, 8] → p.addr.toNat % x.esize = 0 → HitAt v p.addr 1 false true y → Readable v y → inTable s y.die y.pa = false →
    s.checkedWarp x.warp = false → Yields (.streamStorePerform blk e) s fun t =>
      ((t.block blk).streams.get {} e).pend = r ∧
      ∀ k, Tab.get 0 t.mem k = if y.key ≤ k ∧ k < y.key + x.esize then byteOf p.val.toNat (k - y.key) else Tab.get 0 s.mem k) ∧
  (∀ s k n bs m r, s.Inv = true → (s.sub k).flight = (n, bs, m) :: r → (s.sub k).live = true →
    let x := s.sub k
    Yields (.push k) s fun t => t.sub k = { x with flight := r } ∧
      statusWord t x.blk x.off = (pushStatus (statusWord s x.blk x.off) n).1 ∧
      ∀ e, (pushStatus (statusWord s x.blk x.off) n).2 = some e →
        ((s.block x.blk).unset.get 0 (x.off / 128 + 1 + e) % 2 = 0 → absent t x.blk (x.off / 128 + 1 + e) = false) ∧ ∀ i, (h : i < bs.length) → bs.length ≤ 128 → t.spadByte x.blk (x.off + 128 + 128 * e + i) = bs[i]) ∧
  (∀ s (x : PeerAcc) (o : LdSt) i u, s.Inv = true → i = .ld o ∧ x.write = none ∨ i = .st o ∧ x.write ≠ none →
    (fetch x.warp).run s = (.instr i, u) → (peerAccess u x i).isSome = true → isReady u x.warp (s.warp x.warp).ctl = true →
    heldBack u x.warp = none → (s.warp x.warp).ctl.runCnt.val < 16 → issueCheck u x.warp i = none → (u.block x.target).retired = true →
    exec (.peerAccessArrival x) s = exec i { u with cur := x.warp }) ∧
  (∀ s (x : PeerAcc) (o : LdSt) i, s.Inv = true → i = .ld o ∧ x.write = none ∧ x.size = o.ty.bytes ∧ x.dst = o.d.val ∨
      i = .st o ∧ x.write = some (leBytes o.ty.bytes (storeVal s x.warp o.d o.ty x.lane)) →
    let v := { s with cur := x.warp }
    let a := memAddrOf s x.warp o.mem x.lane
    let left : Mask := v.ctlOf.retry.getD (~~~0) &&& ~~~(maskOf [x.lane])
    (fetch x.warp).run s = (.instr i, s) → CanIssue i v → heldBack s x.warp = none → x.lane ∈ v.onLanes o.hd → o.sc = none →
    x.va = a → a = peerVa s x.target x.off → SpadAt v a o.ty.bytes { rd := x.write.isNone, wr := x.write.isSome } (x.target, x.off) →
    (s.block x.target).retired = false → Yields (.peerAccessArrival x) s fun t =>
      (t.warp x.warp).ctl.retry = some left ∧ (t.warp x.warp).ctl.pc = v.ctlOf.pc ∧ (t.warp x.warp).ctl.status = .ready ∧
      (∀ w, w ≠ x.warp → t.warp w = s.warp w) ∧ t.mem = s.mem ∧
      (i = .st o → (t.warp x.warp).regs = (s.warp x.warp).regs ∧ ∀ b j, t.spadByte b j =
        if b = x.target ∧ x.off ≤ j ∧ j < x.off + o.ty.bytes then byteOf (storeVal s x.warp o.d o.ty x.lane) (j - x.off) else s.spadByte b j) ∧
      (i = .ld o → t.blocks = s.blocks ∧ VWrites v { t with cur := x.warp } o.d.val o.ty.words (maskOf [x.lane]) fun _ =>
        let n := s.spadNum (x.target, x.off) o.ty.bytes
        if o.ty.signed ∧ o.ty.bytes ≤ 2 then (BitVec.ofInt 32 (signed o.ty.bits n)).toNat else n)) ∧
  (∀ s k, (s.blocks.any fun e => e.1 == k) = true → (s.block k).retired = false → (s.runOf (k / 4)).st = .resident →
    warpsGone s k = true → blockBusy s k = false → Yields (.blockRetire k) s fun t =>
      (t.block k).retired = true ∧ (t.block k).spad = [] ∧ (t.block k).regions = [] ∧ (t.block k).fifos = [] ∧
      (∀ e ∈ t.subs, e.2.blk ≠ k) ∧ (t.ring (s.block k).core).holder ≠ some k)

/-! ### Events of scheduling, redundancy and collectives -/

/-- R24, R25, R28, R29, R45, R163, R375 to R384: what the scheduling events do when they are enabled. Which records firmware
writes is its choice within the policy (log entry 9), which status a record on a fenced core with a reserved field gets log
entry 31, and what of a gang NOFIT and placement judge log entry 43. -/
def Obligations.SchedulingEvents : Prop :=
  let onlyDies (s t : State) : Prop := t = { s with dies := t.dies }
  let reserved (s t : State) (d i : Nat) : Prop :=
    let r := (bindAt s d i).w
    ∃ k, bindAt t d i = { bindAt s d i with st := .reserved, run := k } ∧ (t.runOf k).st = .reserved ∧ (t.runOf k).die = d ∧
      (t.runOf k).gang = recGang s (dieWorld s d) r ∧ (t.runOf k).cores = r.coremap.map (r.cluster * 4 + ·) ∧
      (∀ j c, (recCores r)[j]? = some c → (t.block (k * 4 + j)).core = c ∧
        (r.save = 0 → (t.block (k * 4 + j)).spad = [] ∧ (t.block (k * 4 + j)).retired = false)) ∧
      (r.save = 0 → k = s.seqNo) ∧ t.mem = s.mem ∧ t.warps = s.warps
  let started (s t : State) (k : Nat) : Prop :=
    let r := s.runOf k
    let h := (s.grid (gridOfGang r.gang)).hdr
    (warpRoles h).length ≤ 64 → ∃ v,
      t = ((whenP (r.kind == 1 && (s.gang r.gang).extents.isEmpty) (takeExtent r.gang)).run v).2 ∧ v.mem = s.mem ∧
      v.runOf k = { r with st := .resident, startAt := s.time } ∧
      ∀ b ∈ s.blocksOfRun k, ∀ j e, (warpRoles h)[j]? = some e → let w := b * 64 + j
        (v.warp w).ctl.pc = e.2.2.entry ∧ (v.warp w).ctl.status = .ready ∧ (v.warp w).stack = [] ∧
        (v.warp w).ctl.launched = launchedLanes e.2.2 e.2.1 ∧ (v.warp w).ctl.exitedLanes = 0 ∧
        (∀ n, v.mreg w n = if n = 0 then launchedLanes e.2.2 e.2.1 &&& Config.laneMask else 0) ∧
        (∀ n, v.sreg w n = if n = 0 then h.arg else if n = 1 then handleOf (gridOfGang r.gang) else 0) ∧
        (v.warp w).regs.v = [] ∧ (v.warp w).regs.p = [] ∧ (v.warp w).regs.fpsr = [] ∧
        (v.warp w).regs.fpcr = if fpcrOk h.fpcr then h.fpcr else 0
  (∀ s g, (s.grids.any fun e => e.1 == g) = true → gridOver s g = true →
    ((s.grid g).hdr.compl = 0 → Yields (.gridComplete g) s fun t => t = { s with grids := t.grids, worlds := t.worlds } ∧
      t.grid g = { s.grid g with st := .complete, word := completionWord (s.grid g) }) ∧
    (∀ u, (s.grid g).hdr.compl ≠ 0 → (stampAs { gridWho s g with view := (s.grid g).released } (s.grid g).hdr.compl (completionWord (s.grid g))).run s = (none, u) →
      Yields (.gridComplete g) s fun t => t = { u with grids := t.grids, worlds := t.worlds } ∧
        t.grid g = { u.grid g with st := .complete, word := completionWord (u.grid g) })) ∧
  (∀ s g k a v bs u, (s.grid g).hdr.waits[k]? = some (a, v) → (s.grid g).st = .live → (s.grid g).sat.getD k false = false →
    (readAs (gridWho s g) a 8).run s = (.ok bs, u) →
    (v.toNat ≤ leNat bs → Yields (.waitStampSatisfied g k) s fun t =>
      t = { ((locate (gridWho s g) a 8 { rd := true }).run u).2 with grids := t.grids } ∧
      t.grid g = { u.grid g with
        sat := (u.grid g).sat.set k true, startTurn := s.seqNo, view := (t.grid g).view
        eligibleAt := if ((u.grid g).sat.set k true).all id then some s.time else none }) ∧
    (leNat bs < v.toNat → Yields (.waitStampSatisfied g k) s fun t => t = u)) ∧
  (∀ s world recs, placeOk s world recs = true → Yields (.firmwarePlace world recs) s fun t =>
    (∀ r ∈ recs, bindAt t r.die r.idx = { valid := true, w := r }) ∧
    (∀ d i, (∀ r ∈ recs, ¬ (r.die = d ∧ r.idx = i)) → bindAt t d i = bindAt s d i) ∧
    (∀ r ∈ recs, r.save = 0 → r.kind ≤ 1 → gangIdx (recGang s world r) ∈ (t.grid (recGrid world r)).placed) ∧
    t = { s with dies := t.dies, grids := t.grids, worlds := t.worlds }) ∧
  (∀ s world g, queueHead s world (s.grid g).hdr.prio = some g → eligible s (s.grid g) = true → (s.grid g).placed = [] →
    eligibleSince (s.grid g) + 50000000 ≤ s.time → g ∉ (s.world world).blocked → Yields (.queueHeadBlock world g) s fun t =>
      t = { s with worlds := t.worlds } ∧ t.world world = { s.world world with blocked := (s.world world).blocked ++ [g] }) ∧
  (∀ s d i, s.Inv = true → (bindAt s d i).valid = true → (bindAt s d i).st = .pending →
    let why := refuseWhy s (bindAt s d i).w (bitAt (Config.freeBits s.free) 0)
    let u := { s with free := s.free + 1 }
    (why ≠ 0 → Yields (.bindValidSet d i) s fun t => onlyDies u t ∧ bindAt t d i = { bindAt s d i with st := .refused, why }) ∧
    (why = 0 → recFits u (bindAt s d i).w = true → lowerFits u d i = false → Yields (.bindValidSet d i) s fun t => reserved u t d i) ∧
    (why = 0 → recFits u (bindAt s d i).w = false → Yields (.bindValidSet d i) s fun t => t = u)) ∧
  (∀ s d i, s.Inv = true → (bindAt s d i).valid = true → (bindAt s d i).st = .pending → refuseWhy s (bindAt s d i).w true = 0 →
    recFits s (bindAt s d i).w = true → lowerFits s d i = false → Yields (.dispatchReserve d i) s fun t => reserved s t d i) ∧
  (∀ s recs, gateOk s recs = true → Yields (.bindGateClear recs) s fun t => onlyDies s t ∧
    (∀ p ∈ recs, bindAt t p.1 p.2 = { bindAt s p.1 p.2 with w := { (bindAt s p.1 p.2).w with gate := false } }) ∧
    ∀ d i, (d, i) ∉ recs → bindAt t d i = bindAt s d i) ∧
  (∀ s d i, mayStart s d i = true → (bindAt s d i).w.start.toNat ≤ s.time →
    let b := bindAt s d i
    let h := (s.grid (gridOfGang (s.runOf b.run).gang)).hdr
    h.allres = false ∨ 2 ≤ b.w.kind →
    (b.w.save = 0 → b.w.kind ≠ 2 → (h.tstart = true → h.start.toNat ≤ s.time) →
      Yields (.gangStart d i) s fun t => started s t b.run) ∧
    (b.w.save ≠ 0 → ringsFree s b.run = true → Yields (.gangStart d i) s fun t =>
      (t.runOf b.run).st = .resident ∧ (t.runOf b.run).restoredAt = s.time ∧ (t.runOf b.run).save = 0)) ∧
  (∀ s d i, (s.grid (gridOfGang (s.runOf (bindAt s d i).run).gang)).hdr.allres = true → (bindAt s d i).w.kind ≤ 1 →
    (∀ r ∈ groupRecs s d i, startDue s r.1 r.2.1 = true ∧ (bindAt s r.1 r.2.1).w.save = 0) → Yields (.gangStart d i) s fun t =>
      ∀ r ∈ groupRecs s d i, (t.runOf (bindAt s r.1 r.2.1).run).st = .resident) ∧
  (∀ s d i, mayStart s d i = true → (bindAt s d i).w.start.toNat ≤ s.time →
    let b := bindAt s d i
    let p := s.runOf (s.gang (s.runOf b.run).gang).primary
    b.w.kind = 2 → b.w.save = 0 → p.st ≠ .pending → p.st ≠ .reserved →
    p.startAt + (s.grid (gridOfGang (s.runOf b.run).gang)).hdr.shift ≤ s.time →
    Yields (.shadowStart d i) s fun t => started s t b.run) ∧
  (∀ s d i, (bindAt s d i).valid = true → clearKeeps s d i = true → Yields (.bindValidClear d i) s fun t => t = s) ∧
  (∀ s d i, (bindAt s d i).valid = true → clearKeeps s d i = false → Yields (.bindValidClear d i) s fun t => bindAt t d i = {} ∧ t.mem = s.mem ∧
    t.warps = s.warps ∧ ((bindAt s d i).st = .resident ∨ (bindAt s d i).st = .saving → onlyDies s t) ∧
    ((bindAt s d i).st = .reserved → (t.runOf (bindAt s d i).run).st = if (bindAt s d i).w.save = 0 then .ended else .saved)) ∧
  (∀ s recs saves, evictOk s recs saves = true → Yields (.bindEvict recs saves) s fun t =>
    t = { s with dies := t.dies, runs := t.runs } ∧ ∀ p ∈ recs, (t.runOf (bindAt s p.1 p.2).run).st = .saving ∧
      ∃ a ∈ saves, bindAt t p.1 p.2 = { bindAt s p.1 p.2 with
        st := .saving, evict := true, w := { (bindAt s p.1 p.2).w with save := a } }) ∧
  (∀ s d i, let k := savingRun s d i
    (s.runOf k).st = .saving → (s.world (s.runOf k).world).st = .running →
    (∀ b ∈ s.blocksOfRun k, ∀ x ∈ (s.block b).streams, x.2.pend = []) → Yields (.saveComplete d i) s fun t =>
      (t.runOf k).st = .saved ∧ (t.runOf k).savedAt = s.time)

/-- R170, R174, R177 to R182, R334, R342, R383, R428: what the events of redundant execution do when they are enabled. The number
of the message that tells firmware of a mismatch is log entry 54. -/
def Obligations.RedundancyEvents : Prop :=
  let onlyCtl (s t : State) (w : Nat) (c : Ctl) : Prop :=
    OnlyWarps s t ∧ ∀ x, t.warp x = if x = w then { s.warp w with ctl := c } else s.warp x
  let differs (s t : State) (gk warp seg : Nat) : Prop := t = { s with gangs := t.gangs, dev := t.dev } ∧
    (t.gang gk).mismatch = some (warp, seg) ∧ t.dev.out = .firmware 9 (BitVec.ofNat 64 gk) :: s.dev.out ∧
    ∀ i, i = 8 ∨ i = 9 → let k := (s.runOf (s.gang gk).shadow).die * 16 + i
      t.dev.heat.counts.get 0 k = min (2 ^ 64 - 1) (s.dev.heat.counts.get 0 k + 1)
  let more (s : State) (gk : Nat) : State := ((takeExtent gk).run ((reclaim (gridOfGang gk)).run s).2).2
  (∀ s w r, s.isCopy w = true → residentWarp s w = true → s.nextRec w = some r →
    let c := (s.warp w).ctl
    (c.status = .waiting .record → (r.resolves = false ∨ r.issued = c.issued) → r.ready = true → Yields (.feedRecordAvailable w) s fun t =>
      onlyCtl s t w { c with status := .ready, waitFrom := none }) ∧
    (c.status = .waiting .record → r.resolves = true → r.issued ≠ c.issued → (s.gang (s.gangOfWarp w)).mismatch = none →
      Yields (.feedRecordAvailable w) s fun t => differs s t (s.gangOfWarp w) (gangWarp w) c.seg) ∧
    (c.status = .faulted → c.deferred = none → sameFault c r = true →
      Yields (.feedRecordAvailable w) s fun t => t = ((applyLogged w r).run s).2) ∧
    (c.status = .faulted → c.deferred = none → sameFault c r = false → s.isPrimary w = false → c.posted = false →
      field c.fault.fcause 0 16 ≠ Cause.translate.code → (s.gang (s.gangOfWarp w)).mismatch = none →
      Yields (.feedRecordAvailable w) s fun t => differs s t (s.gangOfWarp w) (gangWarp w) c.seg)) ∧
  (∀ s w, s.checkedWarp w = true → s.isPrimary w = true → residentWarp s w = true →
    let gk := s.gangOfWarp w
    let g := s.gang gk
    (s.grid (gridOfGang gk)).st = .live →
    (∀ need ok v, g.backlog = [] → (s.warp w).ctl.status = .waiting (.extent need) →
      (logReady gk need).run (if g.fits need then s else more s gk) = (ok, v) →
      (ok = true → Yields (.feedExtentTaken w) s fun t => onlyCtl v t w { (v.warp w).ctl with status := .ready, waitFrom := none }) ∧
      (ok = false → Yields (.feedExtentTaken w) s fun t => t = v)) ∧
    (∀ v, (∀ need, (s.warp w).ctl.status ≠ .waiting (.extent need)) → (drainLog gk g.backlog).run s = ((), v) →
      ((v.gang gk).backlog = [] → Yields (.feedExtentTaken w) s fun t => t = v) ∧
      (∀ x l, (v.gang gk).backlog = x :: l → Yields (.feedExtentTaken w) s fun t =>
        t = if (v.gang gk).fits x.bytes then v else more v gk))) ∧
  (∀ s gk warp seg, (s.gang gk).checked = true → (s.grid (gridOfGang gk)).st = .live → (s.gang gk).lost = none →
    comparable (s.gang gk) warp seg = true → ∀ p h,
    let g := s.gang gk
    shown s g.primary warp seg = some p → shown s g.shadow warp seg = some h →
    (g.mismatch = none → p = h → Yields (.fettlerCompare gk warp seg) s fun t =>
      t = { s with gangs := t.gangs, dev := t.dev } ∧ (t.gang gk).verdicts = g.verdicts ++ [(warp, seg, .matched)] ∧
        (t.gang gk).mismatch = none) ∧
    (g.mismatch = none → p ≠ h → Yields (.fettlerCompare gk warp seg) s fun t => differs s t gk warp seg) ∧
    (∀ a, g.mismatch = some (warp, seg) → g.arbiter ≠ 0 → shown s g.arbiter warp seg = some a →
      (p = a ∨ p = h → Yields (.fettlerCompare gk warp seg) s fun t => (warp, seg, .matched) ∈ (t.gang gk).verdicts ∧
        (t.gang gk).arbiter = 0 ∧ (t.gang gk).mismatch = none) ∧
      (p ≠ a → p ≠ h → h = a → (∀ e ∈ g.early, e.run = g.primary → e.turn < segFirstTurn s g g.primary warp seg) →
        (mayTakeOver s g = true → Yields (.fettlerCompare gk warp seg) s fun t => (warp, seg, .shadowWins) ∈ (t.gang gk).verdicts ∧
          (t.gang gk).primary = g.shadow) ∧
        (mayTakeOver s g = false → Yields (.fettlerCompare gk warp seg) s fun t => (t.gang gk).lost = some (warp, seg, true))) ∧
      (p ≠ a → p ≠ h → (h ≠ a ∨ ∃ e ∈ g.early, e.run = g.primary ∧ segFirstTurn s g g.primary warp seg ≤ e.turn) → Yields (.fettlerCompare gk warp seg) s fun t =>
        (t.grid (gridOfGang gk)).st = .stopping ∧ (t.grid (gridOfGang gk)).cause.toNat = Cause.unresolved.code))) ∧
  (∀ s gk warp seg, (s.gang gk).checked = true → (s.grid (gridOfGang gk)).st = .live → mayTakeOver s (s.gang gk) = true →
    (∀ lw ls, (s.gang gk).lost = some (lw, ls, true) → Yields (.fettlerCompare gk warp seg) s fun t =>
      (t.gang gk).primary = (s.gang gk).shadow ∧ (t.gang gk).lost = none ∧ (lw, ls, .shadowWins) ∈ (t.gang gk).verdicts) ∧
    (∀ lw ls, (s.gang gk).lost = some (lw, ls, false) → Yields (.fettlerCompare gk warp seg) s fun t =>
      (t.gang gk).primary = (s.gang gk).shadow ∧ (t.gang gk).lost = none ∧ (t.gang gk).verdicts = (s.gang gk).verdicts)) ∧
  (∀ s gk w, arbiterOk s gk w = true → let k := s.seqNo
    Yields (.arbiterStart gk w) s fun t => (t.runOf k).st = .resident ∧ (t.runOf k).kind = 3 ∧ (t.runOf k).startAt = s.time ∧
      (t.runOf k).die = w.die ∧ bindAt t w.die w.idx = { valid := true, w := w, st := .resident, run := k } ∧
      (t.gang (recGang s (dieWorld s w.die) w)).arbiter = k) ∧
  (∀ s gk h u, nextPour s gk = some h → (s.grid (gridOfGang gk)).st = .live → (pourHeld gk h).run s = (true, u) →
    Yields (.pour gk) s fun t => t = { u with gangs := t.gangs } ∧ (t.gang gk).holds = (u.gang gk).holds.filter fun x => x != h) ∧
  (∀ s gk h, nextPour s gk = some h → ((pourHeld gk h).run s).1 = false → Yields (.pour gk) s fun t => t = s) ∧
  (∀ s w, (s.warp w).ctl.status = .waiting .ladle → residentWarp s w = true → Yields (.ladleWayFreed w) s fun t =>
    onlyCtl s t w { (s.warp w).ctl with status := .ready, waitFrom := none }) ∧
  (∀ s world slot e u, ((s.world world).seqEnds.find? fun e => e.slot == slot) = some e →
    (stampAs { world, asid := e.asid, core := 2 ^ 20, blk := none } e.stamp
      (BitVec.ofNat 64 (2 ^ 63 + slot * 2 ^ 8 + e.gen.toNat))).run
      ((whenP (slotGen s (firstDie s world) slot == e.gen) (retireSlot world slot)).run s).2 = (none, u) →
    Yields (.seqendRetire world slot) s fun t => t = { u with worlds := t.worlds } ∧
      (t.world world).seqEnds = (u.world world).seqEnds.filter fun y => y.slot != slot)

/-- R323 to R325, R451, R452: what the events of collectives do when they are enabled: a packet is kept while there is room for it; with every rank's data
here the engine writes the destination and then the stamp, and the packets go (stated where translations are cached); an attempt
that does not complete in time ends with COLLABORT; a token of a newer attempt is accepted; a member that does not answer is
unreachable. What the model makes of a group's record is log entry 15, and that a COLL's writes are not held log entry 24. -/
def Obligations.CollectiveEvents : Prop :=
  (∀ s world g a rank sig data, (s.world world).st = .running → (olderAttempt a (s.group world g).attempt = true →
      (s.group world g).size = 0) → collOps s world g = [] →
    (s.group world g).pkts.foldl (fun n p => n + p.data.length) 0 + data.length ≤ 65536 →
    Yields (.collPacket world g a rank sig data) s fun t => t = { s with worlds := t.worlds } ∧ t.group world g =
      { s.group world g with
        pkts := ((s.group world g).pkts.filter fun p => !(p.attempt == a && p.rank == rank)) ++ [⟨a, rank, sig, data⟩] }) ∧
  (∀ s world g a rank sig data, collOps s world g = [] →
    65536 < (s.group world g).pkts.foldl (fun n p => n + p.data.length) 0 + data.length →
    Yields (.collPacket world g a rank sig data) s fun t => t = s) ∧
  (∀ s world g a rank sig data, (s.group world g).size ≠ 0 → olderAttempt a (s.group world g).attempt = true →
    Yields (.collPacket world g a rank sig data) s fun t => t = s) ∧
  (∀ s k c u, opRuns s k = true → (s.op k).kind = .coll c → (collAttempt k).run s = (.ok (), u) → opRuns u k = true →
    ((u.op k).phase ≠ 1 → Yields (.collComplete k) s fun t => t = u) ∧
    (∀ d v, (u.op k).kind = .coll d → (u.op k).phase = 1 → (collAttempt k).run u = (.ok (), v) →
      Yields (.collComplete k) s fun t => t = v) ∧
    (∀ d e v, (u.op k).kind = .coll d → (u.op k).phase = 1 → (collAttempt k).run u = (.error e, v) →
      Yields (.collComplete k) s fun t => t = u)) ∧
  (∀ s k c data y, s.Inv = true → (s.op k).kind = .coll c → opHead s k = true → (s.op k).phase = 1 →
    let world := s.worldOfWarp (s.op k).warp
    let v := { s with cur := (s.op k).warp }
    let out := rangeWrites c.dst (collResult c data)
    olderAttempt c.attempt (s.group world c.group).attempt = false → collData (s.group world c.group) c = some data →
    (∀ b ∈ out, ∃ x, HitAt v b.1 1 false true x ∧ Readable v x) → HitAt v c.stamp.addr 8 false true y → Readable v y →
    inTable s y.die y.pa = false → s.msgs.get [] y.lid = [] → Yields (.collComplete k) s fun t =>
      (∀ e ∈ t.ops, e.1 = k → e.2.finished = true) ∧ leNat (physBytes t y.key 8) = c.stamp.val.toNat ∧
      (t.group world c.group).pkts = (s.group world c.group).pkts.filter fun p => p.attempt != c.attempt) ∧
  (∀ s k c sent, (s.op k).kind = .coll c → opHead s k = true → (s.op k).phase = 1 → (s.op k).retryFrom = some sent →
    let w := (s.op k).warp
    let g := s.group (s.worldOfWarp w) c.group
    sent + watchdogNs s (s.worldOfWarp w) < s.time → collData g c = none →
    let u := ((spoilOp k .collabort).run s).2
    let v := (u.op k).warp
    (u.warp v).ctl.status = .ready → (u.warp v).ctl.held = [] → (u.warp v).ctl.deferred = none →
    v ∉ (u.world (u.worldOfWarp v)).handlers → Yields (.collTimeout k) s fun t => t.op k = { u.op k with stopped := true } ∧
      (t.warp v).ctl.status = .faulted ∧ (t.warp v).ctl.deferred = some k ∧ (t.warp v).ctl.fault.fpc = (u.op k).fpc ∧
      (t.warp v).ctl.fault.fcause.toNat = Cause.collabort.code ∧ (t.warp v).ctl.fault.faddr = g.attempt.setWidth 64 ∧
      (t.warp v).regs = (u.warp v).regs) ∧
  (∀ s world g a r u, (s.world world).st = .running → (groupRec world g).run s = (r, u) →
    (a ≠ (u.group world g).attempt → olderAttempt a (u.group world g).attempt = false →
      Yields (.abortToken world g a) s fun t => t = ((acceptToken world g a none).run u).2) ∧
    (olderAttempt a (u.group world g).attempt = true → Yields (.abortToken world g a) s fun t => t = u)) ∧
  (∀ s world g rank from_, cabortSince s world g = some from_ → from_ + 10000000 ≤ s.time →
    rank ∉ (s.group world g).answered → Yields (.cabortUnreachable world g rank) s fun t =>
      t = { s with worlds := t.worlds } ∧
        t.group world g = { s.group world g with answered := (s.group world g).answered ++ [rank] })

/-! ### Events of paging, worlds and hosts -/

/-- R403, R407 to R415, R420: what the paging events do when they are enabled: a walk's entry is cached, a context that ends
takes its grids with it, a command is refused with its status or begins, and one that is done is retired in order. A walk's
entry is stated where the memory-side TLB has room (R2); in a full one a free value names the entry that leaves (log entry 34), as one picks among several statuses that hold (log entry
31). -/
def Obligations.PagingEvents : Prop :=
  let taken (code : Nat) (ev : Nat → Nat → Instr) : Prop := ∀ s world k sub dn bs s1 s2 s3,
    let pq := pagingQueue s world
    let its := cmdField (bs.getD []) 0 0 8
    let va : DWord := BitVec.ofNat 64 (cmdField (bs.getD []) 1 0 64)
    let d := field va 45 6
    let asid := cmdField (bs.getD []) 0 32 10
    let loc := cmdField (bs.getD []) 2 61 3
    let frame := cmdField (bs.getD []) 2 16 36 * 65536
    let cmd (status leaf : Nat) : PageCmd :=
      { k, code := its, status, die := d, leaf, va, asid, loc, frame, stamp := BitVec.ofNat 64 (cmdField (bs.getD []) 3 0 64)
        value := BitVec.ofNat 64 (cmdField (bs.getD []) 4 0 64), done := false }
    let queued (u t : State) (c : PageCmd) : Prop := t = { u with worlds := t.worlds } ∧
      (t.world world).cmds = (u.world world).cmds ++ [c]
    (devRead64 world 0 pq).run s = (sub, s1) → (devRead64 world 0 (pq + 8)).run s1 = (dn, s2) →
    (devRead world 0 (pq + 0x40 + BitVec.ofNat 64 (64 * (k % 256))) 64).run s2 = (bs, s3) →
    (s2.world world).st = .running → k = dn.toNat + (s2.world world).cmds.length → k < sub.toNat →
    (its = code ∨ its = 0 ∨ 4 < its) →
    (its = 3 → ((s2.world world).cmds.filter fun c => c.code == 3 && c.status == 0 && c.die == d && !c.done).length < 32) →
    (badCmd s2 world (bs.getD []) = true → Yields (ev world k) s fun t => queued s3 t (cmd 7 0)) ∧
    (∀ w0 w1 pa level s4, badCmd s2 world (bs.getD []) = false →
      (walkFx world d asid (field va 0 45)).run s3 = (.entry w0 w1 pa level, s4) →
      cmdStatuses s4 world d its (.entry w0 w1 pa level) loc frame = [] → ∀ n u,
      (cmdBegin world d its (field va 0 45) w0 w1 pa).run s4 = (n, u) → Yields (ev world k) s fun t => queued u t (cmd n pa)) ∧
    (∀ r s4, badCmd s2 world (bs.getD []) = false → (walkFx world d asid (field va 0 45)).run s3 = (r, s4) →
      cmdStatuses s4 world d its r loc frame ≠ [] → Yields (ev world k) s fun t =>
        ∃ n ∈ cmdStatuses s4 world d its r loc frame,
          queued { s4 with free := s4.free + 1 } t (cmd n (match r with | .entry _ _ pa _ => pa | _ => 0)))
  (∀ s die world asid core off, core < 1024 → s.latched (core / 16) world = true → s.latched die world = true → asid < 1024 →
    off < 2 ^ 45 → (s.die die).tlb.find? (fun e => e.hits asid off) = none →
    (∀ w0 w1 pa level, (s.die die).tlb.length < 16384 → (walk s die asid off) = (.entry w0 w1 pa level, []) → judge s die w0 w1 level = none →
      Yields (.tableWalk die world asid core off) s fun t => t = { s with dies := t.dies } ∧ (t.die die).tlb =
        (s.die die).tlb ++ [⟨world, asid, off / 2 ^ levelBits level, level, w0, w1, pa, 0, false, false, 0⟩]) ∧
    (Yields (.tableWalk die world asid core off) s fun t => t = ((walkP world die asid off).run s).2)) ∧
  (∀ s world asid cause, s.Inv = true → 0 < world → asid < 1024 →
    ((cause.toNat = Cause.poison.code ∧ ∃ f ∈ s.dev.failedNodes, s.latched f.1 world = true ∧ reachesNode s f.1 asid f.2 = true) ∨
      (cause.toNat = Cause.integrity.code ∧ ∃ e ∈ s.dev.lost, e.world = world ∧ e.asid = asid ∧ e.ended = false)) →
    Yields (.contextEnd world asid cause) s fun t => t.mem = s.mem ∧
      (∀ g, (s.grids.any fun e => e.1 == g) = true → worldOfGrid g = world → (s.grid g).asid = asid → (s.grid g).st = .live →
        (t.grid g).st = .stopping ∧ (t.grid g).cause = cause) ∧
      (asid = 0 → (s.world world).st = .running → (t.world world).st = .stopping ∧ (t.world world).stop = 2 ∧
        (t.world world).fcause = cause) ∧
      (∀ e ∈ t.dev.lost, cause.toNat = Cause.integrity.code → e.world = world → e.asid = asid → e.ended = true) ∧
      (∀ p, s.dev.lost.find? (fun e => e.world == world && e.asid == asid && !e.ended) = some p → cause.toNat = Cause.integrity.code →
        ∃ e ∈ t.dev.heat.events, e.kind = 5 ∧ e.a = p.tag)) ∧
  taken 1 .pageEvict ∧ taken 2 .pageReturn ∧ taken 3 .pageMigrate ∧ taken 4 .pageClearcnt ∧
  (∀ s world k c, ((s.world world).cmds.find? fun c => c.k == k && !c.done) = some c → (s.world world).st = .running →
    (c.status ≠ 0 ∨ c.code ≠ 1 ∨ heldOnLeaf s world c.die c.leaf = false) → Yields (.pagingComplete world k) s fun t =>
      (∀ e ∈ (t.world world).cmds, e.k = k → e.done = true) ∧
      (∀ e ∈ (t.world world).cmds.head?, e.done = false)) ∧
  (∀ s world d leaf r, (s.world world).overflow = (d, leaf) :: r →
    ((s.die d).tlb.find? (fun e => e.leaf == leaf && e.ovfl) = none → Yields (.delayedNotification world) s fun t =>
      t = { s with worlds := t.worlds } ∧ (t.world world).overflow = r) ∧
    (∀ e u, (s.die d).tlb.find? (fun e => e.leaf == leaf && e.ovfl) = some e → (notify world d e.asid e true).run s = (true, u) →
      Yields (.delayedNotification world) s fun t => t = { u with dies := t.dies, worlds := t.worlds } ∧
        (t.world world).overflow = r ∧ ∀ y ∈ (t.die d).tlb, y.leaf = leaf → y.queued = true ∧ y.ovfl = false))

/-- R157, R357, R364 to R371, R442, R449, R456: the host's accesses and the management commands: a command that no status refuses
has its effect and is answered OK; a refused one is answered with a status that holds and changes nothing; and a world
that stops is left STOPPED with its crash log. A START is two events of the model, between which the world is STARTING: up to
the image, and from the header's check on (log entry 74), and while one is kept no other command is answered. What firmware
chooses with a command (a die's registers, the places of a world's structures) is one it may choose (R365, R370, R395, R397);
where several statuses refuse a command the one answered is a free choice (log entry 31); a START needs step 6 of the bring-up
over (log entry 77). -/
def Obligations.WorldEvents : Prop :=
  let said (s t : State) (o : Out) : Prop := t.dev.out = o :: s.dev.out
  let refused (i : Instr) (m : Master) (code : Nat) (bad : State → List Nat) : Prop :=
    ∀ s, answers s m = true → bad s ≠ [] → Yields i s fun t => ∃ b ∈ bad s,
      said s t (.reply m code b []) ∧ t = { s with dev := t.dev, free := t.free } ∧ t.dev = { s.dev with out := t.dev.out }
  (∀ s (fn : HostFn) off bytes, let x := s.world fn.world
    1 ≤ fn.world → fn.world ≤ 15 → x.st ≠ .free → field x.wctl 53 1 = fn.port →
    let mine := (bytes.drop (0x10000 - off)).take (min (off + bytes.length) 0x50000 - max off 0x10000)
    (bitAt x.wctl 59 = false → x.st = .running → mine ≠ [] →
      Yields (.hostWrite fn off bytes) s fun t => t = ((devWriteBy (fun s n => hostWriter s fn n) false fn.world 0
        (x.mbx + BitVec.ofNat 64 (off - 0x10000)) mine).run s).2) ∧
    (bitAt x.wctl 59 = false → (x.st ≠ .running ∨ mine = []) → Yields (.hostWrite fn off bytes) s fun t => t = s) ∧
    (bitAt x.wctl 59 = true → Yields (.hostWrite fn off bytes) s fun t =>
      t = { s with dev := t.dev } ∧ said s t (.host fn.world 0 false))) ∧
  (∀ s world vec, (s.world world).st ≠ .free → vec < 32 → Yields (.msixUnmask world vec) s fun t =>
    t = { s with worlds := t.worlds, dev := t.dev } ∧ bitAt (t.world world).msixMask vec = false ∧
    bitAt (t.world world).msixPend vec = false ∧
    t.dev.out = if bitAt (s.world world).msixPend vec then .msix world vec :: s.dev.out else s.dev.out) ∧
  (∀ m world mask port regs, refused (.worldAssign m world mask port regs) m 1 (fun s => assignBad s m world mask port) ∧
    ∀ s, answers s m = true → assignBad s m world mask port = [] →
      regsOk ((List.range 64).filter fun d => bitAt mask d) (fun d => decide (d < 64) && bitAt mask d) regs = true →
      Yields (.worldAssign m world mask port regs) s fun t =>
      t.mem = s.mem ∧ t.warps = s.warps ∧ (t.world world).st = .assigned ∧ (t.world world).mask = mask ∧
      (∀ d, d < 64 → bitAt mask d = true → (t.die d).dlatch = BitVec.ofNat 64 (world + 256) ∧ (t.die d).slots = [] ∧
        (t.die d).tlb = [] ∧ (t.die d).binds = []) ∧ said s t (.reply m 1 0 [])) ∧
  (∀ m world regs, refused (.worldRelease m world regs) m 2 (fun s => releaseBad s m world) ∧
    ∀ s, answers s m = true → releaseBad s m world = [] →
      regsOk (s.world world).dies (fun d => (s.world world).dies.contains d || s.latched d 0) regs = true →
      Yields (.worldRelease m world regs) s fun t =>
      t.mem = s.mem ∧ t.warps = s.warps ∧ (t.world world).st = .free ∧ (t.world world).mask = 0 ∧
      (∀ d ∈ (s.world world).dies, (t.die d).dlatch = 256 ∧ (t.die d).slots = []) ∧ said s t (.reply m 2 0 [])) ∧
  (∀ m world hi lo, refused (.setcfg m world hi lo) m 8 (fun s => setcfgBad s m world) ∧
    ∀ s, answers s m = true → setcfgBad s m world = [] → Yields (.setcfg m world hi lo) s fun t =>
      t = { s with worlds := t.worlds, dev := t.dev } ∧ field (t.world world).wctl 53 8 = hi.toNat ∧
      field (t.world world).wctl 0 32 = lo.toNat ∧ said s t (.reply m 8 0 [])) ∧
  (∀ m world img len hdr ch s,
    let c : StartCmd := ⟨m, world, img, len, hdr, false⟩
    let others (s : State) := s.dev.starts.filter fun e => e.world != world
    let kept := s.dev.starts.find? fun e => e.world == world
    let mine := kept = none ∨ kept = some c
    (kept = none → answers s m = true → (s.world world).st = .stopping →
      Yields (.worldStart m world img len hdr ch) s fun t => t = { s with dev := { s.dev with starts := others s ++ [c] } }) ∧
    (mine → others s = [] → presents s m = true → (s.world world).st ≠ .stopping → startBad s m world len hdr ≠ [] →
      Yields (.worldStart m world img len hdr ch) s fun t => t = { s with dev := t.dev, free := t.free } ∧ t.dev.starts = [] ∧
        ∃ b ∈ startBad s m world len hdr, said s t (.reply m 3 b [])) ∧
    (mine → (∀ e ∈ s.dev.starts, e = c) → presents s m = true → (s.world world).st ≠ .stopping → startBad s m world len hdr = [] →
      (∀ u, (startBegin world img len ch).run s = (some true, u) → Yields (.worldStart m world img len hdr ch) s fun t =>
        t = { u with dev := { u.dev with starts := others u ++ [{ c with begun := true }] } }) ∧
      (∀ u, (startLoad world img len ch).run s = (some false, u) → Yields (.worldStart m world img len hdr ch) s fun t =>
        t = { u with worlds := t.worlds, dev := t.dev } ∧ said u t (.reply m 3 0 []) ∧ t.dev.starts = others u ∧
          (t.world world).st = .stopped ∧ (t.world world).stop = 7) ∧
      (((startLoad world img len ch).run s).1 = none → Yields (.worldStart m world img len hdr ch) s fun t => t = s)) ∧
    (kept = some { c with begun := true } →
      (∀ u, (startPlace world hdr ch.place).run s = (some false, u) → Yields (.worldStart m world img len hdr ch) s fun t =>
        ∃ v, v = { u with worlds := v.worlds } ∧ (v.world world).st = .stopped ∧ (v.world world).stop = 7 ∧
          t = ((answerStart world).run v).2) ∧
      (∀ u, (startPlace world hdr ch.place).run s = (some true, u) → Yields (.worldStart m world img len hdr ch) s fun t =>
        ∃ v, v = { u with worlds := v.worlds } ∧ (v.world world).st = .running ∧ (v.world world).runningAt = u.time ∧
          t = ((answerStart world).run ((devWrite world 0 ((u.world world).info + 0x28) (b8 u.time)).run v).2).2) ∧
      (((startPlace world hdr ch.place).run s).1 = none → Yields (.worldStart m world img len hdr ch) s fun t => t = s)) ∧
    (∀ e, kept = some e → e ≠ c → e ≠ { c with begun := true } → Yields (.worldStart m world img len hdr ch) s fun t => t = s)) ∧
  (∀ s world c, s.dev.starts.find? (fun e => e.world == world) = some c → ((answerStart world).run s).2 =
    { s with dev := { s.dev with starts := s.dev.starts.filter (fun e => e.world != world), out := .reply c.m 3 0 [] :: s.dev.out } }) ∧
  (∀ m world, refused (.worldReset m world) m 4 (fun s => resetBad s world) ∧
    ∀ s, answers s m = true → resetBad s world = [] → Yields (.worldReset m world) s fun t =>
      t = { s with worlds := t.worlds, dev := t.dev } ∧ said s t (.reply m 4 0 []) ∧
      if (s.world world).st = .running then (t.world world).st = .stopping ∧ (t.world world).stop = (if m = .host then 3 else 4) ∧
        (t.world world).stopAt = s.time
      else t.world world = s.world world) ∧
  (∀ m code, code = 0 ∨ 8 < code → refused (.worldStatus m code) m code fun _ => [3]) ∧
  (∀ s m, answers s m = true → Yields (.worldStatus m 5) s fun t => t = { s with dev := t.dev } ∧
    ∃ bs, said s t (.reply m 5 0 bs) ∧ ∀ w k, w < 16 → k < 8 →
      bs[16 * w + k]? = some (byteOf (wctlOf (s.world w)).toNat k) ∧
      bs[16 * w + 8 + k]? = some (byteOf (wstatOf (s.world w)).toNat k)) ∧
  (∀ s m world off, answers s m = true → Yields (.heatRead m world off) s fun t => t = { s with dev := t.dev } ∧
    let h : Heat := { s.dev.heat with signed := s.dev.idKeys, powered := s.poweredNs }
    let old := match m with | .host => s.dev.snapHost | .phiham => s.dev.snapPhiham
    said s t (.reply m 6 0 (match (if off = 0 then some h else old) with
      | some h => take48 (heatBytes 0 h) off | none => List.replicate 48 0))) ∧
  (∀ m world off, refused (.crashlogRead m world off) m 7 (fun _ => statusIf (badWorld world) 3) ∧
    ∀ s, answers s m = true → 1 ≤ world → world ≤ 15 → Yields (.crashlogRead m world off) s fun t => t = { s with dev := t.dev } ∧
      said s t (.reply m 7 0 (take48 ((s.world world).crash.flatMap fun d => b8 d.toNat) off))) ∧
  (∀ s world cause, ((s.world world).st = .stopping ∧ (s.world world).stop = cause) ∨
      ((s.world world).st = .running ∧ ((cause = 1 ∧ roleZeroGone s world = true) ∨
        (cause = 2 ∧ (s.grid (s.world world).resident).st = .stopping))) →
    Yields (.worldStop world cause) s fun t => t.mem = s.mem ∧ (t.world world).st = .stopped ∧ (t.world world).stop = cause ∧
      ((s.world world).st = .stopping → (t.world world).crash = crashLog t world (crashRecords s world)) ∧
      (∀ e ∈ s.warps, s.worldOfWarp e.1 = world → (t.warp e.1).ctl.status = .exited ∨ (t.warp e.1).ctl.status = .stopped) ∧
      (∀ d ∈ (s.world world).dies, (t.die d).slots = [] ∧ (t.die d).tlb = [] ∧ (t.die d).dlatch = (s.die d).dlatch))

/-! ### Events of boundaries, reliability, links and security -/

/-- R357, R379, R397, R429 to R431, R445 to R447: what writes of a die's registers, latch changes, heartbeats and detectors do.
How the detectors of the package are shown is the model's choice (R446 names them; log entry 58), and so is that firmware lets a
latch become valid only once the table registers are as R397 has them (log entry 51). -/
def Obligations.BoundaryEvents : Prop :=
  let dieTo (s t : State) (d : Nat) (x : Die) : Prop := t = { s with dies := t.dies } ∧ ∀ e, t.die e = if e = d then x else s.die e
  (∀ s d w, w < 16 → dieOccupied s d = false → (dlatchWorld s d ≠ w ∨ (dlatchValid s d = false ∧ dlatchScrub s d = false)) →
    Yields (.dlatchLatchChange d w) s fun t =>
      dieTo s t d { s.die d with dlatch := setField (setField (s.die d).dlatch 8 1 0) 9 1 1, latchTo := w }) ∧
  (∀ s d w, dieOccupied s d = true → Yields (.dlatchLatchChange d w) s fun t => t = s) ∧
  (∀ s d, dlatchScrub s d = true → Yields (.scrubComplete d) s fun t =>
    t.mem = s.mem ∧ t.warps = s.warps ∧ (t.die d).slots = [] ∧ (t.die d).tlb = [] ∧ (t.die d).binds = [] ∧
    (t.die d).dlatch = setField (setField (setField (s.die d).dlatch 0 4 (s.die d).latchTo) 9 1 0) 8 1
      (if bitAt (s.die d).dlatch 10 then 0 else 1) ∧
    (∀ e ∈ t.l2, e.1 / 2 ^ 60 ≠ d) ∧ (∀ e ∈ t.l1, e.1 % 2 ^ 80 / 2 ^ 60 ≠ d) ∧ (∀ e ∈ t.reps, e.1 % 2 ^ 80 / 2 ^ 60 ≠ d) ∧
    ∀ b, (s.blocks.any fun e => e.1 == b) = true → (s.block b).core / 16 = d → s.Inv = true →
      (t.block b).spad = [] ∧ (t.block b).retired = true) ∧
  (∀ s d, (tablesSet s d = false → Yields (.dlatchHoldClear d) s fun t => t = s) ∧
    (tablesSet s d = true → Yields (.dlatchHoldClear d) s fun t => dieTo s t d { s.die d with
      dlatch := if dlatchScrub s d = true ∨ (s.die d).changed = false then setField (s.die d).dlatch 10 1 0
        else setField (setField (s.die d).dlatch 10 1 0) 8 1 1 }) ∧
    let frames := field (s.die d).tblreg 40 20
    let base := field (s.die d).tblreg 16 20
    let mdie := field (s.die d).trcfg 58 6
    let mbase := field (s.die d).trcfg 16 20
    (tablesSet s d = true ↔ frames = 0 ∨
      (dlatchWorld s mdie = dlatchWorld s d ∧ (mdie ≠ d ∨ mbase + frames ≤ base ∨ base + frames ≤ mbase)))) ∧
  (∀ s d v,
    (Yields (.registerWrite (.tblreg d) v) s fun t => dieTo s t d
      (if dlatchValid s d then s.die d else { s.die d with tblreg := v &&& 0x0FFFFF0FFFFF0000 })) ∧
    (Yields (.registerWrite (.trcfg d) v) s fun t => dieTo s t d
      (if dlatchValid s d then s.die d else { s.die d with trcfg := v &&& 0xFCFFFF0FFFFF0000 })) ∧
    (Yields (.registerWrite (.ladlecfg d) v) s fun t => dieTo s t d
      (if dlatchValid s d then s.die d else { s.die d with ladlecfg := v &&& 0xF00 })) ∧
    (bitAt v 10 = true → Yields (.registerWrite (.dlatchHold d) v) s fun t =>
      dieTo s t d { s.die d with dlatch := setField (s.die d).dlatch 10 1 1 }) ∧
    (bitAt v 10 = false → exec (.registerWrite (.dlatchHold d) v) s = exec (.dlatchHoldClear d) s)) ∧
  (∀ s w v, Yields (.registerWrite (.hbeatPeriod w) v) s fun t => t = { s with worlds := t.worlds } ∧ t.world w =
    if (s.world w).st = .running then s.world w else { s.world w with period := v.setWidth 16 }) ∧
  (∀ s w k v, (s.world w).st ≠ .free → k < 32 → Yields (.registerWrite (.msixMask w k) v) s fun t =>
    t = { s with worlds := t.worlds } ∧ t.world w = { s.world w with msixMask := setField (s.world w).msixMask k 1 1 }) ∧
  (∀ s d c, d < 64 → c < 16 → coreFenced s (d * 16 + c) = true → Yields (.corestatFenceClear d c) s fun t =>
    t = { s with dies := t.dies, dev := t.dev } ∧ t.die d = { s.die d with fenced := setField (s.die d).fenced c 1 0 } ∧
    (t.dev.heat.cores.get {} (d * 16 + c)) = { s.dev.heat.cores.get {} (d * 16 + c) with fenced := false }) ∧
  (∀ s d det level, d < 64 → det < 5 → Yields (.secalmRaise d det level) s fun t => dieTo s t d { s.die d with
    secalm := setField (s.die d).secalm (30 + 2 * det) 2 (max (field (s.die d).secalm (30 + 2 * det) 2) level.toNat) }) ∧
  (∀ s d bits, d < 64 → Yields (.secalmTripClear d bits) s fun t => t = { s with dies := t.dies } ∧
    (∀ k, 20 ≤ k → k < 30 → bitAt (t.die d).secalm k = (bitAt (s.die d).secalm k && !bits.getLsbD (k - 20))) ∧
    ∀ k, k < 20 ∨ (30 ≤ k ∧ k < 64) → bitAt (t.die d).secalm k = bitAt (s.die d).secalm k) ∧
  (∀ s w beat inStream, bitAt (s.world w).wctl 59 = true → (s.world w).st = .running →
    let x := s.world w
    let period := if x.period = 0 then 1000 else x.period.toNat
    (inStream = true → (∃ e ∈ s.dev.ide, e.1 = w) → beat = x.beat + 1 → s.time < max x.runningAt x.beatAt + period * 1000000 →
      Yields (.heartbeatBeat w beat inStream) s fun t => t = { s with worlds := t.worlds } ∧
        t.world w = { x with beat := beat, beatAt := s.time }) ∧
    ((inStream = false ∨ (∀ e ∈ s.dev.ide, e.1 ≠ w) ∨ beat ≠ x.beat + 1 ∨ max x.runningAt x.beatAt + period * 1000000 ≤ s.time) →
      Yields (.heartbeatBeat w beat inStream) s fun t => t = { s with dev := t.dev }) ∧
    (bitAt x.cfg 59 = true → max x.runningAt x.beatAt + period * 1000000 ≤ s.time → Yields (.heartbeatTimeout w) s fun t =>
      t = { s with worlds := t.worlds } ∧ t.world w = { x with st := .stopping, stop := 6, fcause := 0, stopAt := s.time })) ∧
  (∀ s d det, d < 64 → det < 5 → Yields (.detectorTrip d det) s fun t => t.mem = s.mem ∧
    (∀ e ∈ detDies d det, bitAt (t.die e).secalm det = true ∧ detLevel s d det ≤ field (t.die e).secalm (20 + 2 * det) 2) ∧
    (∀ w, 0 < w → w < 16 → (pkgDet det = true ∨ detLevel s d det = 3 ∨ dieWorld s d = w) → (s.world w).st ≠ .free →
      ((s.world w).st ≠ .stopping → (t.world w).stop = 5) ∧
      ((s.world w).st = .running ∨ (s.world w).st = .starting → (t.world w).st = .stopping) ∧
      (if pkgDet det then 64 else d) ∈ (t.world w).alarms ∧ ∀ e ∈ (s.world w).dies, (t.die e).slots = []) ∧
    (detLevel s d det = 3 → t.dev.idKeys = false ∧ t.dev.level3 = true)) ∧
  (∀ s d det, d < 64 → det < 5 → bitAt (s.die d).secalm det = true → Yields (.detectorReadsNormal d det) s fun t =>
    t = { s with dies := t.dies, dev := t.dev } ∧ (∀ e ∈ detDies d det, bitAt (t.die e).secalm det = false) ∧
    (pkgDet det = false → (t.die d).normalAt.get 0 det = s.time) ∧ (pkgDet det = true → t.dev.pkgNormalAt.get 0 det = s.time))

/-- R418 to R427, R430 to R433, R438: what errors, retired frames, wear and links do. What a scrub corrects, whether a replayed flit
is the one replayed last, and a link's number in its event are free values (log entries 7, 50, 53). Which frame of the host tier
a lost page leaves, and which frames are spare, is the model's reading (log entry 55); how the writes of a lost Ladle version are made again
is too (log entry 54). -/
def Obligations.ReliabilityEvents : Prop :=
  let counted (s t : State) (d i : Nat) : Prop :=
    t.dev.heat.counts.get 0 (d * 16 + i) = min (2 ^ 64 - 1) (s.dev.heat.counts.get 0 (d * 16 + i) + 1)
  let poisoned (s t : State) (key : Nat) : Prop :=
    t.tags.get {} (lineKey key) = { s.tags.get {} (lineKey key) with poison := true } ∧
    (∀ e ∈ t.l2, e.2.phys / 128 ≠ lineKey key) ∧ (∀ e ∈ t.l1, lidPhys s (e.1 % 2 ^ 80) / 128 ≠ lineKey key) ∧
    ∀ e ∈ t.reps, lidPhys s (e.1 % 2 ^ 80) / 128 ≠ lineKey key
  (∀ s d pa, d < 64 → pa < hbmSize → Yields (.hbmUncorrectable d pa) s fun t => ∃ u,
    u = { s with tags := u.tags, l1 := u.l1, reps := u.reps, l2 := u.l2, dev := u.dev } ∧ counted s u d 1 ∧ poisoned s u (physKey d pa) ∧
    (d, pa / 65536) ∈ u.dev.badFrames ∧ t = if inTable s d pa then ((mendTable d pa).run u).2 else u) ∧
  (∀ s d slice set way pa e, d < 64 → slice < 16 → set < 2048 → way < 16 →
    s.l2.find? (fun e => e.1 / 2 ^ 60 == d && e.2.dirty && e.2.phys % 2 ^ 64 / 128 == pa / 128) = some e →
    let q : Word := BitVec.ofNat 32 (d * 2 ^ 26 + slice * 2 ^ 22 + set * 2 ^ 11 + way * 2 ^ 7)
    q ∉ s.dev.heat.quarantine →
    (¬ (e.2.phys / 2 ^ 64 = d ∧ inTable s d pa = true) → Yields (.dirtyLineError d slice set way pa) s fun t =>
      t = { s with tags := t.tags, l1 := t.l1, reps := t.reps, l2 := t.l2, dev := t.dev } ∧ counted s t d 4 ∧ poisoned s t e.2.phys ∧
      (s.dev.heat.quarantine.length < 4096 → t.dev.heat.quarantine = s.dev.heat.quarantine ++ [q]) ∧
      let tag : DWord := BitVec.ofNat 64 (e.2.asid + e.2.slot * 2 ^ 10 + e.2.page * 2 ^ 22)
      t.dev.lost = s.dev.lost ++ [⟨dieWorld s d, e.2.asid, d, e.2.page, e.2.phys / 65536 * 65536, tag, false⟩] ∧
      t.dev.out = .firmware 11 tag :: s.dev.out) ∧
    (e.2.phys / 2 ^ 64 = d → inTable s d pa = true → Yields (.dirtyLineError d slice set way pa) s fun t =>
      t = ((mendTable d pa).run ((poisonLine e.2.phys).run s).2).2)) ∧
  (∀ s run i, ((s.runOf run).st = .resident ∨ (s.runOf run).st = .saving) →
    (s.blocks.any fun e => e.1 == run * 4 + i) = true → (s.block (run * 4 + i)).retired = false →
    let gk := (s.runOf run).gang
    let core := (s.block (run * 4 + i)).core
    ((s.gang gk).checked = false → (s.grid (gridOfGang gk)).st = .live → Yields (.sramUncorrectable (.core run i)) s fun t =>
      t.mem = s.mem ∧ (t.grid (gridOfGang gk)).st = .stopping ∧ (t.grid (gridOfGang gk)).cause.toNat = Cause.integrity.code ∧
      counted s t (core / 16) 6) ∧
    ((s.gang gk).checked = true → (s.gang gk).primary ≠ run → Yields (.sramUncorrectable (.core run i)) s fun t =>
      (t.gang gk).arbiter = 0 ∧ ∀ h ∈ (t.gang gk).priv, h.run ≠ run) ∧
    ((s.gang gk).checked = true → (s.gang gk).primary = run →
      let ws := (s.warpsOfRun run).filter fun w => blockOfWarp w == run * 4 + i && (s.warp w).ctl.status != .exited
      ∃ u, u = { s with dies := u.dies, dev := u.dev } ∧ exec (.sramUncorrectable (.core run i)) s =
        .next ((primaryLoses gk (gangWarp (ws.headD (run * 256))) (s.warp (ws.headD (run * 256))).ctl.seg (openSince s ws)
          (s.runOf (s.gang gk).shadow).die false).run u).2)) ∧
  (∀ s gk hold h, ((s.gang gk).holds.find? fun h => h.hold == hold) = some h →
    exec (.sramUncorrectable (.ladle gk hold)) s = .next ((primaryLoses gk h.warp h.seg
      (segFirstTurn s (s.gang gk) (s.gang gk).primary h.warp h.seg) (s.runOf (s.gang gk).shadow).die false).run
        ((undecide gk hold).run ((heatCount (heldDie s h) 6).run s).2).2).2) ∧
  (∀ s d frame cause spare, frameGoes s d frame cause spare = true →
    let old := oldFrame s d frame cause
    let leaves := frameLeaves s d old
    let lost := lostOf s d frame cause
    let moved := ((whenP (!leaves.isEmpty) (moveFrame d old spare leaves)).run s).2
    let u := ((forAll lost fun e => forAll (s.world e.world).dies (clearContext e.asid)).run moved).2
    Yields (.frameRetire d frame cause spare) s fun t => t = { u with dev := t.dev } ∧
      (∀ e ∈ t.dev.lost, e ∉ lost) ∧ (∀ e ∈ u.dev.lost, e ∉ lost → e ∈ t.dev.lost) ∧
      (64 ≤ old / 2 ^ 64 → t.dev = { u.dev with lost := t.dev.lost }) ∧
      (old / 2 ^ 64 < 64 → (d, frame) ∉ t.dev.badFrames ∧
        (u.dev.heat.retired.length < 4096 → t.dev.heat.retired =
          u.dev.heat.retired ++ [BitVec.ofNat 64 (d * 2 ^ 58 + cause.toNat * 2 ^ 56 + frame * 2 ^ 16)]) ∧
        (t.dev.heat.retFull = true ↔ 4096 ≤ t.dev.heat.retired.length))) ∧
  (∀ s d frame spare, frameGoes s d frame 1 spare = true →
    4 ≤ (s.dev.corrected.filter fun e => e.1 == d && e.2.1 == frame && decide (s.time ≤ e.2.2 + 86400000000000)).length) ∧
  (∀ s d, d < 64 → (∀ e, s.dev.scrubbedAt.find? (fun e => e.1 == d) = some e → e.2 + 86400000000000 ≤ s.time) →
    let found := (Config.scrubFound s.seqNo d).filter fun f => decide (f < 48 * 10 ^ 9 / 65536)
    let gains (t : State) (i n : Nat) : Prop :=
      t.dev.heat.counts.get 0 (d * 16 + i) = min (2 ^ 64 - 1) (s.dev.heat.counts.get 0 (d * 16 + i) + n)
    Yields (.patrolScrub d) s fun t => t = { s with dev := t.dev, free := s.free + 3 } ∧ t.dev.scrubbedAt.get 0 d = s.time ∧
      gains t 0 found.length ∧ gains t 2 (Config.freeBits s.free).toNat ∧ gains t 3 (Config.freeBits (s.free + 1)).toNat ∧
      gains t 5 (Config.freeBits (s.free + 2)).toNat ∧ ∀ f ∈ found, (d, f, s.time) ∈ t.dev.corrected) ∧
  (∀ s d c, d < 64 → c < 16 → let e := s.dev.heat.cores.get {} (d * 16 + c)
    0 < e.demerits.val → e.since + 86400000000000 ≤ s.poweredNs → Yields (.demeritDecay d c) s fun t => t = { s with dev := t.dev } ∧
      (t.dev.heat.cores.get {} (d * 16 + c)).demerits.val = e.demerits.val - 1 ∧
      (t.dev.heat.cores.get {} (d * 16 + c)).since = s.poweredNs) ∧
  (∀ s c (count : BitVec 16), c < 256 →
    (∀ e, s.dev.agedAt.find? (fun e => e.1 == c) = some e → e.2 + 600000000000 ≤ s.time) →
    let old := s.dev.agemon.get 0x1400000000 c
    let birth := field old 0 16
    let drift := if birth ≤ count.toNat then 0 else (birth - count.toNat) * 10000 / birth
    Yields (.ageingMeasure c count) s fun t => t = { s with dies := t.dies, dev := t.dev } ∧
      t.dev.agemon.get 0x1400000000 c = BitVec.ofNat 64
        (drift * 2 ^ 48 + min (field old 32 8) ((ceilOf drift).getD 15) * 2 ^ 32 + count.toNat * 2 ^ 16 + birth) ∧
      (ceilOf drift = none → ∀ i, i < 4 → coreFenced t (c * 4 + i) = true)) ∧
  (∀ s link, link ∉ s.dev.linksDown → Yields (.flitReplay link) s fun t =>
    t = { s with dev := t.dev, free := s.free + 1 } ∧ counted s t (linkDie link) 13 ∧
    replaysOf t link = (if bitAt (Config.freeBits s.free) 0 then (replaysOf s link).1 + 1 else 1,
      s.time :: (replaysOf s link).2.filter fun at_ => decide (s.time < at_ + 1000000000))) ∧
  (∀ s link, link ∉ s.dev.linksDown → (8 ≤ (replaysOf s link).1 ∨
      1000 ≤ ((replaysOf s link).2.filter fun at_ => decide (s.time < at_ + 1000000000)).length) →
    Yields (.linkDown link) s fun t => t = { s with dev := t.dev, free := s.free + 1 } ∧ counted s t (linkDie link) 14 ∧
    t.dev.linksDown = link :: s.dev.linksDown ∧ replaysOf t link = (0, [])) ∧
  (∀ s d, d < 64 → Yields (.routerWatchdog d) s fun t => t = { s with dev := t.dev } ∧
    t.dev.out = .firmware 12 (BitVec.ofNat 64 d) :: s.dev.out)

/-- R158, R377, R441, R448 to R450, R454: what arrives from outside the device and from its boot ROM. What an SPDM answer holds
beside what the rules give is a free value (log entry 7). How the windows of two epochs stand beside each other (log entry 56), how
the device learns its node (log entry 38), what recovery answers (log entry 57), how a failed self-test is entered (log entry 77)
and how PTP and detectors reach the machine (logs 52, 58) are the model's. -/
def Obligations.LinkAndBootEvents : Prop :=
  let said (s t : State) (o : Out) : Prop := t.dev.out = o :: s.dev.out
  let answered (s t : State) (o : Out) : Prop := t = { s with dev := t.dev, free := t.free } ∧ said s t o
  (∀ s (p : UlbPacket), p.port < 72 → p.src < 8189 → s.dev.boot = .ready →
    (∀ x, rxFor s p = some x → 0 < p.num → rxTakes x p.num = true →
      (heldInFabric s p.body = true → Yields (.ulitebyPacket p) s fun t => t = s) ∧
      (heldInFabric s p.body = false → Yields (.ulitebyPacket p) s fun t => ∃ u, u = { s with dev := u.dev } ∧
        u.dev.rx.get {} (rxKey p p.epochBit) = rxNext x p.num ∧ t = ((ulbBody p.port p.src p.body).run u).2)) ∧
    ((p.num = 0 ∨ ∀ x, rxFor s p = some x → rxTakes x p.num = false) → Yields (.ulitebyPacket p) s fun t =>
      t = { s with dev := t.dev } ∧ t.dev.rx = s.dev.rx ∧ t.dev.out = s.dev.out)) ∧
  (∀ s (p : UlbPacket) x, rxFor s p = some x → ∃ secret, s.dev.secret = some secret ∧ p.key = some (linkKey secret p.src x.epoch)) ∧
  (∀ (x : RxWin) n, rxTakes x n = true → rxTakes (rxNext x n) n = false) ∧
  (∀ s port, port < 72 → Yields (.epochAdvance port) s fun t =>
    t = { s with dev := { s.dev with ulbEpoch := s.dev.ulbEpoch + 1, ulbNum := [] } }) ∧
  (∀ s (fn : HostFn) stream off acc, let x := s.world fn.world
    1 ≤ fn.world → fn.world ≤ 15 → x.st ≠ .free → field x.wctl 53 1 = fn.port →
    let bound := (fn.world, stream, fn.port) ∈ s.dev.ide
    (bitAt x.wctl 59 = true → ¬ bound →
      Yields (.hostTlp fn stream off acc) s fun t => t = { s with dev := t.dev } ∧ said s t (.host fn.world stream false)) ∧
    (bitAt x.wctl 59 = false ∨ bound →
      let u := { s with dev := { s.dev with out := .host fn.world stream true :: s.dev.out } }
      (∀ bytes, acc = .write bytes → Yields (.hostTlp fn stream off acc) s fun t => t = ((hostStore fn off bytes).run u).2) ∧
      ∀ len, acc = .read len →
        (off + len ≤ 8 → Yields (.hostTlp fn stream off acc) s fun t => t = { s with dev := t.dev } ∧
          said u t (.hostData fn.world off (((b8 (wstatOf x).toNat).drop off).take len))) ∧
        (0x10000 ≤ off → off + len ≤ 0x50000 → x.st ≠ .running → Yields (.hostTlp fn stream off acc) s fun t =>
          t = { s with dev := t.dev } ∧ said u t (.hostData fn.world off (List.replicate len 0xFF))) ∧
        (x.st ≠ .running → Yields (.hostTlp fn stream off acc) s fun t => t = { s with dev := t.dev, free := t.free } ∧
          ∃ bs, said u t (.hostData fn.world off bs) ∧ ∀ k, k < len →
            (off + k < 8 → bs[k]? = some (byteOf (wstatOf x).toNat (off + k))) ∧
            (0x10000 ≤ off + k → off + k < 0x50000 → bs[k]? = some 0xFF)) ∧
        ∀ bs v, 0x10000 ≤ off → off + len ≤ 0x50000 → 0 < len → x.st = .running →
          (devRead fn.world 0 (x.mbx + BitVec.ofNat 64 (off - 0x10000)) len).run u = (some bs, v) →
          Yields (.hostTlp fn stream off acc) s fun t => t = { v with dev := t.dev } ∧ said v t (.hostData fn.world off bs))) ∧
  (∀ s (act : PtpAct), s.dev.boot = .ready → Yields (.ptpMessage act) s fun t =>
    t = { s with time := t.time, dev := t.dev } ∧ said s t (.ptp act.offset) ∧
    t.time = (if bitAt s.dev.tbstat 62 = false ∧ s.dev.lockedOnce = false then s.time + act.step else s.time) ∧
    field t.dev.tbstat 0 32 = act.offset.toNat ∧
    bitAt t.dev.tbstat 63 = (act.locked && decide (act.offset.toInt ≤ 100) && decide (-100 ≤ act.offset.toInt))) ∧
  (∀ s slot, s.dev.boot = .ready → Yields (.getCertificate slot) s fun t => ∃ v,
    answered s t (.spdm 1 (s.dev.idKeys && slot == 0) v)) ∧
  (∀ s nonce, s.dev.boot = .ready → Yields (.challenge nonce) s fun t => answered s t
    (if s.dev.idKeys then .spdm 2 true (Config.signature nonce.toNat 0).toNat else .spdm 2 false 0)) ∧
  (∀ s index signed, s.dev.boot = .ready → Yields (.getMeasurements index signed) s fun t => answered s t
    (match measurement s index with
      | some v => if signed = false ∨ s.dev.idKeys = true then .spdm 3 true v else .spdm 3 false 0
      | none => .spdm 3 false 0)) ∧
  (∀ s world, s.dev.boot = .ready → Yields (.keyExchange world) s fun t =>
    if s.dev.idKeys = true ∧ world < 16 then ∃ v, answered s t (.spdm 4 true v) ∧ world ∈ t.dev.sessions
    else answered s t (.spdm 4 false 0) ∧ t.dev.sessions = s.dev.sessions) ∧
  (∀ s world stream port, s.dev.boot = .ready → Yields (.ideKm world stream port) s fun t =>
    if world ∈ s.dev.sessions ∧ port < 2 ∧
        ((world, stream, port) ∈ s.dev.ide ∨ (s.dev.ide.filter fun e => e.2.2 == port).length < 8)
    then answered s t (.spdm 5 true 0) ∧ (world, stream, port) ∈ t.dev.ide
    else answered s t (.spdm 5 false 0) ∧ t.dev.ide = s.dev.ide) ∧
  (∀ s secret node, s.dev.boot = .ready → Yields (.domainSecretInstall secret node) s fun t =>
    if 0 ∈ s.dev.sessions ∧ secret < 2 ^ 256 ∧ node < 0x1FFD then answered s t (.spdm 6 true 0) ∧
      t.dev.secret = some (BitVec.ofNat 256 secret) ∧ t.dev.node = node ∧ (t.dev.secret ≠ s.dev.secret → t.dev.rx = [])
    else answered s t (.spdm 6 false 0) ∧ t.dev.secret = s.dev.secret) ∧
  (∀ s (f : BootFind),
    (f.fwOk = false → f.standbyOk = false → Yields (.coldBoot f) s fun t =>
      t.dev.boot = .recovery ∧ t.dev.idKeys = false ∧ t.warps = [] ∧ t.blocks = [] ∧
        ∀ w, t.world w = { crash := (s.world w).crash }) ∧
    ((f.fwOk = true ∨ f.standbyOk = true) → Yields (.coldBoot f) s fun t =>
      t.dev.boot = .ready ∧ t.dev.idKeys = true ∧ t.dev.level3 = false ∧ t.dev.linksDown = f.linksDown ∧ t.warps = [] ∧
      (∀ w, t.world w = { crash := (s.world w).crash }) ∧ t.blocks = [] ∧ t.dev.secret = none ∧ t.dev.sessions = [] ∧
      (∀ e ∈ f.badHbm, e.1 < 64 → e.2 < 48 * 10 ^ 9 → (e.1, e.2 / 65536) ∈ t.dev.badFrames ∧
        (t.tags.get {} (lineKey (physKey e.1 e.2))).poison = true) ∧
      (∀ d, d < 64 → (t.die d).dlatch = 0x100 ∧ (t.die d).slots = [] ∧ (t.die d).tlb = []) ∧
      ∀ d c, d < 64 → c < 16 → coreFenced t (d * 16 + c) = (s.dev.heat.cores.get {} (d * 16 + c)).fenced))
end

