-- ==== Sys2Proof/Laws/Tab.lean ====
section
/-!
SUPPORT. Laws of the sparse tables: a read after a write, the canonical form, and what holds of every entry.
-/
namespace Sys2Proof.Tab

variable {α : Type}

@[simp] theorem get_nil (d : α) (k : Nat) : get d ([] : Tab α) k = d := rfl

theorem get_cons (d : α) (j : Nat) (u : α) (t : Tab α) (k : Nat) :
    get d ((j, u) :: t) k = if k = j then u else get d t k := rfl

@[simp] theorem get_put_self (d : α) (t : Tab α) (k : Nat) (v : α) : get d (put t k v) k = v := by
  induction t with
  | nil => simp [put, get]
  | cons e t ih =>
    simp only [put]
    split
    · simp [get]
    · split
      · simp [get]
      · simp only [get]; rw [if_neg (by omega)]; exact ih

theorem get_put_ne (d : α) (t : Tab α) {k x : Nat} (v : α) (h : x ≠ k) : get d (put t k v) x = get d t x := by
  induction t with
  | nil => simp [put, get, h]
  | cons e t ih =>
    simp only [put]
    split
    · simp [get, h]
    · split
      · simp_all [get]
      · simp only [get, ih]

theorem get_put (d : α) (t : Tab α) (k x : Nat) (v : α) :
    get d (put t k v) x = if x = k then v else get d t x := by
  by_cases h : x = k
  · subst h; simp
  · simp [h, get_put_ne d t v h]

theorem get_of_lt (d : α) {n k : Nat} {t : Tab α} (h : sortedFrom n t = true) (hk : k < n) : get d t k = d := by
  induction t generalizing n with
  | nil => rfl
  | cons e t ih =>
    simp only [sortedFrom, Bool.and_eq_true, decide_eq_true_eq] at h
    simp only [get]; rw [if_neg (by omega)]; exact ih h.2 (by omega)

theorem sortedFrom_mono {n m : Nat} {t : Tab α} (h : sortedFrom n t = true) (hm : m ≤ n) : sortedFrom m t = true := by
  cases t with
  | nil => rfl
  | cons e t => simp only [sortedFrom, Bool.and_eq_true, decide_eq_true_eq] at *; exact ⟨by omega, h.2⟩

theorem sortedFrom_put {n k : Nat} {t : Tab α} {v : α} (h : sortedFrom n t = true) (hk : n ≤ k) :
    sortedFrom n (put t k v) = true := by
  induction t generalizing n with
  | nil => simp [put, sortedFrom, hk]
  | cons e t ih =>
    simp only [sortedFrom, Bool.and_eq_true, decide_eq_true_eq] at h
    simp only [put]
    split
    · simp only [sortedFrom, Bool.and_eq_true, decide_eq_true_eq]; exact ⟨hk, by omega, h.2⟩
    · split
      · simp only [sortedFrom, Bool.and_eq_true, decide_eq_true_eq]; exact ⟨hk, by subst_vars; exact h.2⟩
      · simp only [sortedFrom, Bool.and_eq_true, decide_eq_true_eq]; exact ⟨h.1, ih h.2 (by omega)⟩

theorem sortedFrom_filter {n : Nat} {t : Tab α} {p : Nat × α → Bool} (h : sortedFrom n t = true) :
    sortedFrom n (t.filter p) = true := by
  induction t generalizing n with
  | nil => rfl
  | cons e t ih =>
    simp only [sortedFrom, Bool.and_eq_true, decide_eq_true_eq] at h
    simp only [List.filter]
    split
    · simp only [sortedFrom, Bool.and_eq_true, decide_eq_true_eq]; exact ⟨h.1, ih h.2⟩
    · exact sortedFrom_mono (ih h.2) (by omega)

section
variable [DecidableEq α]

theorem get_set_ne (d : α) (t : Tab α) {k x : Nat} (v : α) (h : x ≠ k) : get d (set d t k v) x = get d t x := by
  induction t with
  | nil => simp only [set]; split <;> simp [get, h]
  | cons e t ih =>
    simp only [set]
    split
    · split <;> simp [get, h]
    · split
      · split <;> simp_all [get]
      · simp only [get, ih]

theorem get_set_self (d : α) {n : Nat} {t : Tab α} (k : Nat) (v : α) (h : sortedFrom n t = true) :
    get d (set d t k v) k = v := by
  induction t generalizing n with
  | nil => simp only [set]; split <;> simp_all [get]
  | cons e t ih =>
    simp only [sortedFrom, Bool.and_eq_true, decide_eq_true_eq] at h
    simp only [set]
    split
    · rename_i hk
      split
      · rename_i hv; subst hv
        simp only [get]; rw [if_neg (by omega)]; exact get_of_lt _ h.2 (by omega)
      · simp [get]
    · split
      · split
        · rename_i hk hv; subst hv; subst hk; exact get_of_lt _ h.2 (by omega)
        · simp [get]
      · simp only [get]; rw [if_neg (by omega)]; exact ih h.2

theorem get_set (d : α) {t : Tab α} (k x : Nat) (v : α) (h : sortedFrom 0 t = true) :
    get d (set d t k v) x = if x = k then v else get d t x := by
  by_cases hx : x = k
  · subst hx; simp [get_set_self d x v h]
  · simp [hx, get_set_ne d t v hx]

theorem sortedFrom_set (d : α) {n k : Nat} {t : Tab α} {v : α} (h : sortedFrom n t = true) (hk : n ≤ k) :
    sortedFrom n (set d t k v) = true := by
  induction t generalizing n with
  | nil => simp only [set]; split <;> simp [sortedFrom, hk]
  | cons e t ih =>
    simp only [sortedFrom, Bool.and_eq_true, decide_eq_true_eq] at h
    simp only [set]
    split
    · split
      · simp only [sortedFrom, Bool.and_eq_true, decide_eq_true_eq]; exact h
      · simp only [sortedFrom, Bool.and_eq_true, decide_eq_true_eq]; exact ⟨hk, by omega, h.2⟩
    · split
      · split
        · exact sortedFrom_mono h.2 (by omega)
        · simp only [sortedFrom, Bool.and_eq_true, decide_eq_true_eq]; subst_vars; exact ⟨hk, h.2⟩
      · simp only [sortedFrom, Bool.and_eq_true, decide_eq_true_eq]; exact ⟨h.1, ih h.2 (by omega)⟩

theorem all_set (d : α) {t : Tab α} {k : Nat} {v : α} {p : Nat × α → Bool} (h : t.all p = true)
    (hv : v ≠ d → p (k, v) = true) : (set d t k v).all p = true := by
  induction t with
  | nil => simp only [set]; split <;> simp_all
  | cons e t ih =>
    simp only [List.all_cons, Bool.and_eq_true] at h
    simp only [set]
    split
    · split
      · simp [h.1, h.2]
      · rename_i hd; simp [h.1, h.2, hv hd]
    · split
      · split
        · exact h.2
        · rename_i hd; simp [h.2, hv hd]
      · simp [h.1, ih h.2]

/-- A write keeps the canonical form. -/
theorem wf_set (d : α) {t : Tab α} (k : Nat) (v : α) (h : wf d t = true) : wf d (set d t k v) = true := by
  simp only [wf, Bool.and_eq_true] at *
  exact ⟨sortedFrom_set d h.1 (Nat.zero_le _), all_set d h.2 (by simp)⟩

theorem wf_sorted {d : α} {t : Tab α} (h : wf d t = true) : sortedFrom 0 t = true := by
  simp only [wf, Bool.and_eq_true] at h; exact h.1

theorem wf_filter (d : α) {t : Tab α} {p : Nat × α → Bool} (h : wf d t = true) : wf d (t.filter p) = true := by
  simp only [wf, Bool.and_eq_true] at *
  refine ⟨sortedFrom_filter h.1, ?_⟩
  simp only [List.all_eq_true, List.mem_filter] at *
  exact fun e he => h.2 e he.1

@[simp] theorem wf_nil (d : α) : wf d ([] : Tab α) = true := rfl

omit [DecidableEq α] in
/-- Two canonical tables that read the same at every key are one list. -/
theorem eq_of_get (d : α) {n : Nat} {t u : Tab α} (ht : sortedFrom n t = true) (hu : sortedFrom n u = true)
    (dt : ∀ e ∈ t, e.2 ≠ d) (du : ∀ e ∈ u, e.2 ≠ d) (h : ∀ k, get d t k = get d u k) : t = u := by
  induction t generalizing n u with
  | nil =>
    cases u with
    | nil => rfl
    | cons e u => have := h e.1; simp [get] at this; exact absurd this.symm (du e (by simp))
  | cons e t ih =>
    cases u with
    | nil => have := h e.1; simp [get] at this; exact absurd this (dt e (by simp))
    | cons f u =>
      simp only [sortedFrom, Bool.and_eq_true, decide_eq_true_eq] at ht hu
      have key : e.1 = f.1 := by
        rcases Nat.lt_trichotomy e.1 f.1 with hl | hl | hl
        · have := h e.1
          simp only [get] at this
          rw [if_pos trivial, if_neg (by omega), get_of_lt d hu.2 (by omega)] at this
          exact absurd this (dt e (by simp))
        · exact hl
        · have := h f.1
          simp only [get] at this
          rw [if_neg (by omega), if_pos trivial, get_of_lt d ht.2 (by omega)] at this
          exact absurd this.symm (du f (by simp))
      have val : e.2 = f.2 := by have := h e.1; simp only [get] at this; simpa [key] using this
      have : t = u := by
        refine ih ht.2 (by rw [key]; exact hu.2) (fun x hx => dt x (by simp [hx])) (fun x hx => du x (by simp [hx])) fun k => ?_
        have hk := h k
        simp only [get] at hk
        by_cases he : k = e.1
        · rw [get_of_lt d ht.2 (by omega), get_of_lt d hu.2 (by omega)]
        · rwa [if_neg he, if_neg (by omega)] at hk
      exact List.cons_eq_cons.2 ⟨Prod.ext key val, this⟩

end

/-- What holds of every entry's value holds after a write. -/
theorem forall_put {P : α → Prop} {t : Tab α} {k : Nat} {v : α} (h : ∀ e ∈ t, P e.2) (hv : P v) :
    ∀ e ∈ put t k v, P e.2 := by
  induction t with
  | nil => simp [put, hv]
  | cons a t ih =>
    have ha := h a (by simp)
    have ht : ∀ e ∈ t, P e.2 := fun e he => h e (by simp [he])
    intro e he
    simp only [put] at he
    split at he
    · simp only [List.mem_cons] at he
      rcases he with rfl | rfl | he
      · exact hv
      · exact ha
      · exact ht e he
    · split at he
      · simp only [List.mem_cons] at he
        rcases he with rfl | he
        · exact hv
        · exact ht e he
      · simp only [List.mem_cons] at he
        rcases he with rfl | he
        · exact ha
        · exact ih ht e he

theorem forall_set [DecidableEq α] {P : α → Prop} (d : α) {t : Tab α} {k : Nat} {v : α} (h : ∀ e ∈ t, P e.2) (hv : P v) :
    ∀ e ∈ set d t k v, P e.2 := by
  induction t with
  | nil => simp only [set]; split <;> simp [hv]
  | cons a t ih =>
    have ha := h a (by simp)
    have ht : ∀ e ∈ t, P e.2 := fun e he => h e (by simp [he])
    intro e he
    simp only [set] at he
    split at he
    · split at he <;> simp only [List.mem_cons] at he
      · rcases he with rfl | he
        · exact ha
        · exact ht e he
      · rcases he with rfl | rfl | he
        · exact hv
        · exact ha
        · exact ht e he
    · split at he
      · split at he
        · exact ht e he
        · simp only [List.mem_cons] at he
          rcases he with rfl | he
          · exact hv
          · exact ht e he
      · simp only [List.mem_cons] at he
        rcases he with rfl | he
        · exact ha
        · exact ih ht e he

/-- A read of a table gives the default or a listed value. -/
theorem get_forall {P : α → Prop} {d : α} {t : Tab α} (h : ∀ e ∈ t, P e.2) (hd : P d) (k : Nat) : P (get d t k) := by
  induction t with
  | nil => exact hd
  | cons a t ih =>
    simp only [get]
    split
    · exact h a (by simp)
    · exact ih fun e he => h e (by simp [he])

end Sys2Proof.Tab
end

