-- ==== Sys2Proof/Laws/State.lean ====
section
/-!
SUPPORT. What each update makes of each field of the state, and of each register of the warp it names: no later proof
unfolds an update. FPCR and power-on, which change by a condition or many fields, stand last.
-/
namespace Sys2Proof.Machine.Upd

variable (s : State)

@[simp] theorem mem_time (a : Nat) (b : Byte) : (apply s (Upd.mem a b)).time = s.time := rfl
@[simp] theorem mem_mem (a : Nat) (b : Byte) : (apply s (Upd.mem a b)).mem = Tab.set (0 : Byte) s.mem a b := rfl
@[simp] theorem mem_tags (a : Nat) (b : Byte) : (apply s (Upd.mem a b)).tags = s.tags := rfl
@[simp] theorem mem_oldCode (a : Nat) (b : Byte) : (apply s (Upd.mem a b)).oldCode = s.oldCode := rfl
@[simp] theorem mem_l1 (a : Nat) (b : Byte) : (apply s (Upd.mem a b)).l1 = s.l1 := rfl
@[simp] theorem mem_l2 (a : Nat) (b : Byte) : (apply s (Upd.mem a b)).l2 = s.l2 := rfl
@[simp] theorem mem_reps (a : Nat) (b : Byte) : (apply s (Upd.mem a b)).reps = s.reps := rfl
@[simp] theorem mem_msgs (a : Nat) (b : Byte) : (apply s (Upd.mem a b)).msgs = s.msgs := rfl
@[simp] theorem mem_scOrder (a : Nat) (b : Byte) : (apply s (Upd.mem a b)).scOrder = s.scOrder := rfl
@[simp] theorem mem_warps (a : Nat) (b : Byte) : (apply s (Upd.mem a b)).warps = s.warps := rfl
@[simp] theorem mem_blocks (a : Nat) (b : Byte) : (apply s (Upd.mem a b)).blocks = s.blocks := rfl
@[simp] theorem mem_runs (a : Nat) (b : Byte) : (apply s (Upd.mem a b)).runs = s.runs := rfl
@[simp] theorem mem_gangs (a : Nat) (b : Byte) : (apply s (Upd.mem a b)).gangs = s.gangs := rfl
@[simp] theorem mem_grids (a : Nat) (b : Byte) : (apply s (Upd.mem a b)).grids = s.grids := rfl
@[simp] theorem mem_worlds (a : Nat) (b : Byte) : (apply s (Upd.mem a b)).worlds = s.worlds := rfl
@[simp] theorem mem_dies (a : Nat) (b : Byte) : (apply s (Upd.mem a b)).dies = s.dies := rfl
@[simp] theorem mem_rings (a : Nat) (b : Byte) : (apply s (Upd.mem a b)).rings = s.rings := rfl
@[simp] theorem mem_ops (a : Nat) (b : Byte) : (apply s (Upd.mem a b)).ops = s.ops := rfl
@[simp] theorem mem_subs (a : Nat) (b : Byte) : (apply s (Upd.mem a b)).subs = s.subs := rfl
@[simp] theorem mem_dev (a : Nat) (b : Byte) : (apply s (Upd.mem a b)).dev = s.dev := rfl
@[simp] theorem mem_cur (a : Nat) (b : Byte) : (apply s (Upd.mem a b)).cur = s.cur := rfl
@[simp] theorem mem_turns (a : Nat) (b : Byte) : (apply s (Upd.mem a b)).turns = s.turns := rfl
@[simp] theorem mem_free (a : Nat) (b : Byte) : (apply s (Upd.mem a b)).free = s.free := rfl
@[simp] theorem mem_seqNo (a : Nat) (b : Byte) : (apply s (Upd.mem a b)).seqNo = s.seqNo := rfl
@[simp] theorem mem_warpOf (a : Nat) (b : Byte) (j : Nat) : (apply s (Upd.mem a b)).warp j = s.warp j := rfl
@[simp] theorem mem_blockOf (a : Nat) (b : Byte) (j : Nat) : (apply s (Upd.mem a b)).block j = s.block j := rfl
@[simp] theorem mem_runOf (a : Nat) (b : Byte) (j : Nat) : (apply s (Upd.mem a b)).runOf j = s.runOf j := rfl
@[simp] theorem mem_gangOf (a : Nat) (b : Byte) (j : Nat) : (apply s (Upd.mem a b)).gang j = s.gang j := rfl
@[simp] theorem mem_gridOf (a : Nat) (b : Byte) (j : Nat) : (apply s (Upd.mem a b)).grid j = s.grid j := rfl
@[simp] theorem mem_worldOf (a : Nat) (b : Byte) (j : Nat) : (apply s (Upd.mem a b)).world j = s.world j := rfl
@[simp] theorem mem_dieOf (a : Nat) (b : Byte) (j : Nat) : (apply s (Upd.mem a b)).die j = s.die j := rfl
@[simp] theorem mem_ringOf (a : Nat) (b : Byte) (j : Nat) : (apply s (Upd.mem a b)).ring j = s.ring j := rfl
@[simp] theorem mem_opOf (a : Nat) (b : Byte) (j : Nat) : (apply s (Upd.mem a b)).op j = s.op j := rfl
@[simp] theorem mem_subOf (a : Nat) (b : Byte) (j : Nat) : (apply s (Upd.mem a b)).sub j = s.sub j := rfl

@[simp] theorem tag_time (l : Nat) (t : LineTag) : (apply s (Upd.tag l t)).time = s.time := rfl
@[simp] theorem tag_mem (l : Nat) (t : LineTag) : (apply s (Upd.tag l t)).mem = s.mem := rfl
@[simp] theorem tag_tags (l : Nat) (t : LineTag) : (apply s (Upd.tag l t)).tags = Tab.set {} s.tags l t := rfl
@[simp] theorem tag_oldCode (l : Nat) (t : LineTag) : (apply s (Upd.tag l t)).oldCode = s.oldCode := rfl
@[simp] theorem tag_l1 (l : Nat) (t : LineTag) : (apply s (Upd.tag l t)).l1 = s.l1 := rfl
@[simp] theorem tag_l2 (l : Nat) (t : LineTag) : (apply s (Upd.tag l t)).l2 = s.l2 := rfl
@[simp] theorem tag_reps (l : Nat) (t : LineTag) : (apply s (Upd.tag l t)).reps = s.reps := rfl
@[simp] theorem tag_msgs (l : Nat) (t : LineTag) : (apply s (Upd.tag l t)).msgs = s.msgs := rfl
@[simp] theorem tag_scOrder (l : Nat) (t : LineTag) : (apply s (Upd.tag l t)).scOrder = s.scOrder := rfl
@[simp] theorem tag_warps (l : Nat) (t : LineTag) : (apply s (Upd.tag l t)).warps = s.warps := rfl
@[simp] theorem tag_blocks (l : Nat) (t : LineTag) : (apply s (Upd.tag l t)).blocks = s.blocks := rfl
@[simp] theorem tag_runs (l : Nat) (t : LineTag) : (apply s (Upd.tag l t)).runs = s.runs := rfl
@[simp] theorem tag_gangs (l : Nat) (t : LineTag) : (apply s (Upd.tag l t)).gangs = s.gangs := rfl
@[simp] theorem tag_grids (l : Nat) (t : LineTag) : (apply s (Upd.tag l t)).grids = s.grids := rfl
@[simp] theorem tag_worlds (l : Nat) (t : LineTag) : (apply s (Upd.tag l t)).worlds = s.worlds := rfl
@[simp] theorem tag_dies (l : Nat) (t : LineTag) : (apply s (Upd.tag l t)).dies = s.dies := rfl
@[simp] theorem tag_rings (l : Nat) (t : LineTag) : (apply s (Upd.tag l t)).rings = s.rings := rfl
@[simp] theorem tag_ops (l : Nat) (t : LineTag) : (apply s (Upd.tag l t)).ops = s.ops := rfl
@[simp] theorem tag_subs (l : Nat) (t : LineTag) : (apply s (Upd.tag l t)).subs = s.subs := rfl
@[simp] theorem tag_dev (l : Nat) (t : LineTag) : (apply s (Upd.tag l t)).dev = s.dev := rfl
@[simp] theorem tag_cur (l : Nat) (t : LineTag) : (apply s (Upd.tag l t)).cur = s.cur := rfl
@[simp] theorem tag_turns (l : Nat) (t : LineTag) : (apply s (Upd.tag l t)).turns = s.turns := rfl
@[simp] theorem tag_free (l : Nat) (t : LineTag) : (apply s (Upd.tag l t)).free = s.free := rfl
@[simp] theorem tag_seqNo (l : Nat) (t : LineTag) : (apply s (Upd.tag l t)).seqNo = s.seqNo := rfl
@[simp] theorem tag_warpOf (l : Nat) (t : LineTag) (j : Nat) : (apply s (Upd.tag l t)).warp j = s.warp j := rfl
@[simp] theorem tag_blockOf (l : Nat) (t : LineTag) (j : Nat) : (apply s (Upd.tag l t)).block j = s.block j := rfl
@[simp] theorem tag_runOf (l : Nat) (t : LineTag) (j : Nat) : (apply s (Upd.tag l t)).runOf j = s.runOf j := rfl
@[simp] theorem tag_gangOf (l : Nat) (t : LineTag) (j : Nat) : (apply s (Upd.tag l t)).gang j = s.gang j := rfl
@[simp] theorem tag_gridOf (l : Nat) (t : LineTag) (j : Nat) : (apply s (Upd.tag l t)).grid j = s.grid j := rfl
@[simp] theorem tag_worldOf (l : Nat) (t : LineTag) (j : Nat) : (apply s (Upd.tag l t)).world j = s.world j := rfl
@[simp] theorem tag_dieOf (l : Nat) (t : LineTag) (j : Nat) : (apply s (Upd.tag l t)).die j = s.die j := rfl
@[simp] theorem tag_ringOf (l : Nat) (t : LineTag) (j : Nat) : (apply s (Upd.tag l t)).ring j = s.ring j := rfl
@[simp] theorem tag_opOf (l : Nat) (t : LineTag) (j : Nat) : (apply s (Upd.tag l t)).op j = s.op j := rfl
@[simp] theorem tag_subOf (l : Nat) (t : LineTag) (j : Nat) : (apply s (Upd.tag l t)).sub j = s.sub j := rfl

@[simp] theorem oldCode_time (a : Nat) (l : List (Nat × Word)) : (apply s (Upd.oldCode a l)).time = s.time := rfl
@[simp] theorem oldCode_mem (a : Nat) (l : List (Nat × Word)) : (apply s (Upd.oldCode a l)).mem = s.mem := rfl
@[simp] theorem oldCode_tags (a : Nat) (l : List (Nat × Word)) : (apply s (Upd.oldCode a l)).tags = s.tags := rfl
@[simp] theorem oldCode_oldCode (a : Nat) (l : List (Nat × Word)) : (apply s (Upd.oldCode a l)).oldCode = s.oldCode.put a l := rfl
@[simp] theorem oldCode_l1 (a : Nat) (l : List (Nat × Word)) : (apply s (Upd.oldCode a l)).l1 = s.l1 := rfl
@[simp] theorem oldCode_l2 (a : Nat) (l : List (Nat × Word)) : (apply s (Upd.oldCode a l)).l2 = s.l2 := rfl
@[simp] theorem oldCode_reps (a : Nat) (l : List (Nat × Word)) : (apply s (Upd.oldCode a l)).reps = s.reps := rfl
@[simp] theorem oldCode_msgs (a : Nat) (l : List (Nat × Word)) : (apply s (Upd.oldCode a l)).msgs = s.msgs := rfl
@[simp] theorem oldCode_scOrder (a : Nat) (l : List (Nat × Word)) : (apply s (Upd.oldCode a l)).scOrder = s.scOrder := rfl
@[simp] theorem oldCode_warps (a : Nat) (l : List (Nat × Word)) : (apply s (Upd.oldCode a l)).warps = s.warps := rfl
@[simp] theorem oldCode_blocks (a : Nat) (l : List (Nat × Word)) : (apply s (Upd.oldCode a l)).blocks = s.blocks := rfl
@[simp] theorem oldCode_runs (a : Nat) (l : List (Nat × Word)) : (apply s (Upd.oldCode a l)).runs = s.runs := rfl
@[simp] theorem oldCode_gangs (a : Nat) (l : List (Nat × Word)) : (apply s (Upd.oldCode a l)).gangs = s.gangs := rfl
@[simp] theorem oldCode_grids (a : Nat) (l : List (Nat × Word)) : (apply s (Upd.oldCode a l)).grids = s.grids := rfl
@[simp] theorem oldCode_worlds (a : Nat) (l : List (Nat × Word)) : (apply s (Upd.oldCode a l)).worlds = s.worlds := rfl
@[simp] theorem oldCode_dies (a : Nat) (l : List (Nat × Word)) : (apply s (Upd.oldCode a l)).dies = s.dies := rfl
@[simp] theorem oldCode_rings (a : Nat) (l : List (Nat × Word)) : (apply s (Upd.oldCode a l)).rings = s.rings := rfl
@[simp] theorem oldCode_ops (a : Nat) (l : List (Nat × Word)) : (apply s (Upd.oldCode a l)).ops = s.ops := rfl
@[simp] theorem oldCode_subs (a : Nat) (l : List (Nat × Word)) : (apply s (Upd.oldCode a l)).subs = s.subs := rfl
@[simp] theorem oldCode_dev (a : Nat) (l : List (Nat × Word)) : (apply s (Upd.oldCode a l)).dev = s.dev := rfl
@[simp] theorem oldCode_cur (a : Nat) (l : List (Nat × Word)) : (apply s (Upd.oldCode a l)).cur = s.cur := rfl
@[simp] theorem oldCode_turns (a : Nat) (l : List (Nat × Word)) : (apply s (Upd.oldCode a l)).turns = s.turns := rfl
@[simp] theorem oldCode_free (a : Nat) (l : List (Nat × Word)) : (apply s (Upd.oldCode a l)).free = s.free := rfl
@[simp] theorem oldCode_seqNo (a : Nat) (l : List (Nat × Word)) : (apply s (Upd.oldCode a l)).seqNo = s.seqNo := rfl
@[simp] theorem oldCode_warpOf (a : Nat) (l : List (Nat × Word)) (j : Nat) : (apply s (Upd.oldCode a l)).warp j = s.warp j := rfl
@[simp] theorem oldCode_blockOf (a : Nat) (l : List (Nat × Word)) (j : Nat) : (apply s (Upd.oldCode a l)).block j = s.block j := rfl
@[simp] theorem oldCode_runOf (a : Nat) (l : List (Nat × Word)) (j : Nat) : (apply s (Upd.oldCode a l)).runOf j = s.runOf j := rfl
@[simp] theorem oldCode_gangOf (a : Nat) (l : List (Nat × Word)) (j : Nat) : (apply s (Upd.oldCode a l)).gang j = s.gang j := rfl
@[simp] theorem oldCode_gridOf (a : Nat) (l : List (Nat × Word)) (j : Nat) : (apply s (Upd.oldCode a l)).grid j = s.grid j := rfl
@[simp] theorem oldCode_worldOf (a : Nat) (l : List (Nat × Word)) (j : Nat) : (apply s (Upd.oldCode a l)).world j = s.world j := rfl
@[simp] theorem oldCode_dieOf (a : Nat) (l : List (Nat × Word)) (j : Nat) : (apply s (Upd.oldCode a l)).die j = s.die j := rfl
@[simp] theorem oldCode_ringOf (a : Nat) (l : List (Nat × Word)) (j : Nat) : (apply s (Upd.oldCode a l)).ring j = s.ring j := rfl
@[simp] theorem oldCode_opOf (a : Nat) (l : List (Nat × Word)) (j : Nat) : (apply s (Upd.oldCode a l)).op j = s.op j := rfl
@[simp] theorem oldCode_subOf (a : Nat) (l : List (Nat × Word)) (j : Nat) : (apply s (Upd.oldCode a l)).sub j = s.sub j := rfl

@[simp] theorem v_time (w k : Nat) (x : Word) : (apply s (Upd.v w k x)).time = s.time := rfl
@[simp] theorem v_mem (w k : Nat) (x : Word) : (apply s (Upd.v w k x)).mem = s.mem := rfl
@[simp] theorem v_tags (w k : Nat) (x : Word) : (apply s (Upd.v w k x)).tags = s.tags := rfl
@[simp] theorem v_oldCode (w k : Nat) (x : Word) : (apply s (Upd.v w k x)).oldCode = s.oldCode := rfl
@[simp] theorem v_l1 (w k : Nat) (x : Word) : (apply s (Upd.v w k x)).l1 = s.l1 := rfl
@[simp] theorem v_l2 (w k : Nat) (x : Word) : (apply s (Upd.v w k x)).l2 = s.l2 := rfl
@[simp] theorem v_reps (w k : Nat) (x : Word) : (apply s (Upd.v w k x)).reps = s.reps := rfl
@[simp] theorem v_msgs (w k : Nat) (x : Word) : (apply s (Upd.v w k x)).msgs = s.msgs := rfl
@[simp] theorem v_scOrder (w k : Nat) (x : Word) : (apply s (Upd.v w k x)).scOrder = s.scOrder := rfl
@[simp] theorem v_blocks (w k : Nat) (x : Word) : (apply s (Upd.v w k x)).blocks = s.blocks := rfl
@[simp] theorem v_runs (w k : Nat) (x : Word) : (apply s (Upd.v w k x)).runs = s.runs := rfl
@[simp] theorem v_gangs (w k : Nat) (x : Word) : (apply s (Upd.v w k x)).gangs = s.gangs := rfl
@[simp] theorem v_grids (w k : Nat) (x : Word) : (apply s (Upd.v w k x)).grids = s.grids := rfl
@[simp] theorem v_worlds (w k : Nat) (x : Word) : (apply s (Upd.v w k x)).worlds = s.worlds := rfl
@[simp] theorem v_dies (w k : Nat) (x : Word) : (apply s (Upd.v w k x)).dies = s.dies := rfl
@[simp] theorem v_rings (w k : Nat) (x : Word) : (apply s (Upd.v w k x)).rings = s.rings := rfl
@[simp] theorem v_ops (w k : Nat) (x : Word) : (apply s (Upd.v w k x)).ops = s.ops := rfl
@[simp] theorem v_subs (w k : Nat) (x : Word) : (apply s (Upd.v w k x)).subs = s.subs := rfl
@[simp] theorem v_dev (w k : Nat) (x : Word) : (apply s (Upd.v w k x)).dev = s.dev := rfl
@[simp] theorem v_cur (w k : Nat) (x : Word) : (apply s (Upd.v w k x)).cur = s.cur := rfl
@[simp] theorem v_turns (w k : Nat) (x : Word) : (apply s (Upd.v w k x)).turns = s.turns := rfl
@[simp] theorem v_free (w k : Nat) (x : Word) : (apply s (Upd.v w k x)).free = s.free := rfl
@[simp] theorem v_seqNo (w k : Nat) (x : Word) : (apply s (Upd.v w k x)).seqNo = s.seqNo := rfl
@[simp] theorem v_blockOf (w k : Nat) (x : Word) (j : Nat) : (apply s (Upd.v w k x)).block j = s.block j := rfl
@[simp] theorem v_runOf (w k : Nat) (x : Word) (j : Nat) : (apply s (Upd.v w k x)).runOf j = s.runOf j := rfl
@[simp] theorem v_gangOf (w k : Nat) (x : Word) (j : Nat) : (apply s (Upd.v w k x)).gang j = s.gang j := rfl
@[simp] theorem v_gridOf (w k : Nat) (x : Word) (j : Nat) : (apply s (Upd.v w k x)).grid j = s.grid j := rfl
@[simp] theorem v_worldOf (w k : Nat) (x : Word) (j : Nat) : (apply s (Upd.v w k x)).world j = s.world j := rfl
@[simp] theorem v_dieOf (w k : Nat) (x : Word) (j : Nat) : (apply s (Upd.v w k x)).die j = s.die j := rfl
@[simp] theorem v_ringOf (w k : Nat) (x : Word) (j : Nat) : (apply s (Upd.v w k x)).ring j = s.ring j := rfl
@[simp] theorem v_opOf (w k : Nat) (x : Word) (j : Nat) : (apply s (Upd.v w k x)).op j = s.op j := rfl
@[simp] theorem v_subOf (w k : Nat) (x : Word) (j : Nat) : (apply s (Upd.v w k x)).sub j = s.sub j := rfl

@[simp] theorem sreg_time (w n : Nat) (x : DWord) : (apply s (Upd.sreg w n x)).time = s.time := rfl
@[simp] theorem sreg_mem (w n : Nat) (x : DWord) : (apply s (Upd.sreg w n x)).mem = s.mem := rfl
@[simp] theorem sreg_tags (w n : Nat) (x : DWord) : (apply s (Upd.sreg w n x)).tags = s.tags := rfl
@[simp] theorem sreg_oldCode (w n : Nat) (x : DWord) : (apply s (Upd.sreg w n x)).oldCode = s.oldCode := rfl
@[simp] theorem sreg_l1 (w n : Nat) (x : DWord) : (apply s (Upd.sreg w n x)).l1 = s.l1 := rfl
@[simp] theorem sreg_l2 (w n : Nat) (x : DWord) : (apply s (Upd.sreg w n x)).l2 = s.l2 := rfl
@[simp] theorem sreg_reps (w n : Nat) (x : DWord) : (apply s (Upd.sreg w n x)).reps = s.reps := rfl
@[simp] theorem sreg_msgs (w n : Nat) (x : DWord) : (apply s (Upd.sreg w n x)).msgs = s.msgs := rfl
@[simp] theorem sreg_scOrder (w n : Nat) (x : DWord) : (apply s (Upd.sreg w n x)).scOrder = s.scOrder := rfl
@[simp] theorem sreg_blocks (w n : Nat) (x : DWord) : (apply s (Upd.sreg w n x)).blocks = s.blocks := rfl
@[simp] theorem sreg_runs (w n : Nat) (x : DWord) : (apply s (Upd.sreg w n x)).runs = s.runs := rfl
@[simp] theorem sreg_gangs (w n : Nat) (x : DWord) : (apply s (Upd.sreg w n x)).gangs = s.gangs := rfl
@[simp] theorem sreg_grids (w n : Nat) (x : DWord) : (apply s (Upd.sreg w n x)).grids = s.grids := rfl
@[simp] theorem sreg_worlds (w n : Nat) (x : DWord) : (apply s (Upd.sreg w n x)).worlds = s.worlds := rfl
@[simp] theorem sreg_dies (w n : Nat) (x : DWord) : (apply s (Upd.sreg w n x)).dies = s.dies := rfl
@[simp] theorem sreg_rings (w n : Nat) (x : DWord) : (apply s (Upd.sreg w n x)).rings = s.rings := rfl
@[simp] theorem sreg_ops (w n : Nat) (x : DWord) : (apply s (Upd.sreg w n x)).ops = s.ops := rfl
@[simp] theorem sreg_subs (w n : Nat) (x : DWord) : (apply s (Upd.sreg w n x)).subs = s.subs := rfl
@[simp] theorem sreg_dev (w n : Nat) (x : DWord) : (apply s (Upd.sreg w n x)).dev = s.dev := rfl
@[simp] theorem sreg_cur (w n : Nat) (x : DWord) : (apply s (Upd.sreg w n x)).cur = s.cur := rfl
@[simp] theorem sreg_turns (w n : Nat) (x : DWord) : (apply s (Upd.sreg w n x)).turns = s.turns := rfl
@[simp] theorem sreg_free (w n : Nat) (x : DWord) : (apply s (Upd.sreg w n x)).free = s.free := rfl
@[simp] theorem sreg_seqNo (w n : Nat) (x : DWord) : (apply s (Upd.sreg w n x)).seqNo = s.seqNo := rfl
@[simp] theorem sreg_blockOf (w n : Nat) (x : DWord) (j : Nat) : (apply s (Upd.sreg w n x)).block j = s.block j := rfl
@[simp] theorem sreg_runOf (w n : Nat) (x : DWord) (j : Nat) : (apply s (Upd.sreg w n x)).runOf j = s.runOf j := rfl
@[simp] theorem sreg_gangOf (w n : Nat) (x : DWord) (j : Nat) : (apply s (Upd.sreg w n x)).gang j = s.gang j := rfl
@[simp] theorem sreg_gridOf (w n : Nat) (x : DWord) (j : Nat) : (apply s (Upd.sreg w n x)).grid j = s.grid j := rfl
@[simp] theorem sreg_worldOf (w n : Nat) (x : DWord) (j : Nat) : (apply s (Upd.sreg w n x)).world j = s.world j := rfl
@[simp] theorem sreg_dieOf (w n : Nat) (x : DWord) (j : Nat) : (apply s (Upd.sreg w n x)).die j = s.die j := rfl
@[simp] theorem sreg_ringOf (w n : Nat) (x : DWord) (j : Nat) : (apply s (Upd.sreg w n x)).ring j = s.ring j := rfl
@[simp] theorem sreg_opOf (w n : Nat) (x : DWord) (j : Nat) : (apply s (Upd.sreg w n x)).op j = s.op j := rfl
@[simp] theorem sreg_subOf (w n : Nat) (x : DWord) (j : Nat) : (apply s (Upd.sreg w n x)).sub j = s.sub j := rfl

@[simp] theorem preg_time (w n : Nat) (x : Mask) : (apply s (Upd.preg w n x)).time = s.time := rfl
@[simp] theorem preg_mem (w n : Nat) (x : Mask) : (apply s (Upd.preg w n x)).mem = s.mem := rfl
@[simp] theorem preg_tags (w n : Nat) (x : Mask) : (apply s (Upd.preg w n x)).tags = s.tags := rfl
@[simp] theorem preg_oldCode (w n : Nat) (x : Mask) : (apply s (Upd.preg w n x)).oldCode = s.oldCode := rfl
@[simp] theorem preg_l1 (w n : Nat) (x : Mask) : (apply s (Upd.preg w n x)).l1 = s.l1 := rfl
@[simp] theorem preg_l2 (w n : Nat) (x : Mask) : (apply s (Upd.preg w n x)).l2 = s.l2 := rfl
@[simp] theorem preg_reps (w n : Nat) (x : Mask) : (apply s (Upd.preg w n x)).reps = s.reps := rfl
@[simp] theorem preg_msgs (w n : Nat) (x : Mask) : (apply s (Upd.preg w n x)).msgs = s.msgs := rfl
@[simp] theorem preg_scOrder (w n : Nat) (x : Mask) : (apply s (Upd.preg w n x)).scOrder = s.scOrder := rfl
@[simp] theorem preg_blocks (w n : Nat) (x : Mask) : (apply s (Upd.preg w n x)).blocks = s.blocks := rfl
@[simp] theorem preg_runs (w n : Nat) (x : Mask) : (apply s (Upd.preg w n x)).runs = s.runs := rfl
@[simp] theorem preg_gangs (w n : Nat) (x : Mask) : (apply s (Upd.preg w n x)).gangs = s.gangs := rfl
@[simp] theorem preg_grids (w n : Nat) (x : Mask) : (apply s (Upd.preg w n x)).grids = s.grids := rfl
@[simp] theorem preg_worlds (w n : Nat) (x : Mask) : (apply s (Upd.preg w n x)).worlds = s.worlds := rfl
@[simp] theorem preg_dies (w n : Nat) (x : Mask) : (apply s (Upd.preg w n x)).dies = s.dies := rfl
@[simp] theorem preg_rings (w n : Nat) (x : Mask) : (apply s (Upd.preg w n x)).rings = s.rings := rfl
@[simp] theorem preg_ops (w n : Nat) (x : Mask) : (apply s (Upd.preg w n x)).ops = s.ops := rfl
@[simp] theorem preg_subs (w n : Nat) (x : Mask) : (apply s (Upd.preg w n x)).subs = s.subs := rfl
@[simp] theorem preg_dev (w n : Nat) (x : Mask) : (apply s (Upd.preg w n x)).dev = s.dev := rfl
@[simp] theorem preg_cur (w n : Nat) (x : Mask) : (apply s (Upd.preg w n x)).cur = s.cur := rfl
@[simp] theorem preg_turns (w n : Nat) (x : Mask) : (apply s (Upd.preg w n x)).turns = s.turns := rfl
@[simp] theorem preg_free (w n : Nat) (x : Mask) : (apply s (Upd.preg w n x)).free = s.free := rfl
@[simp] theorem preg_seqNo (w n : Nat) (x : Mask) : (apply s (Upd.preg w n x)).seqNo = s.seqNo := rfl
@[simp] theorem preg_blockOf (w n : Nat) (x : Mask) (j : Nat) : (apply s (Upd.preg w n x)).block j = s.block j := rfl
@[simp] theorem preg_runOf (w n : Nat) (x : Mask) (j : Nat) : (apply s (Upd.preg w n x)).runOf j = s.runOf j := rfl
@[simp] theorem preg_gangOf (w n : Nat) (x : Mask) (j : Nat) : (apply s (Upd.preg w n x)).gang j = s.gang j := rfl
@[simp] theorem preg_gridOf (w n : Nat) (x : Mask) (j : Nat) : (apply s (Upd.preg w n x)).grid j = s.grid j := rfl
@[simp] theorem preg_worldOf (w n : Nat) (x : Mask) (j : Nat) : (apply s (Upd.preg w n x)).world j = s.world j := rfl
@[simp] theorem preg_dieOf (w n : Nat) (x : Mask) (j : Nat) : (apply s (Upd.preg w n x)).die j = s.die j := rfl
@[simp] theorem preg_ringOf (w n : Nat) (x : Mask) (j : Nat) : (apply s (Upd.preg w n x)).ring j = s.ring j := rfl
@[simp] theorem preg_opOf (w n : Nat) (x : Mask) (j : Nat) : (apply s (Upd.preg w n x)).op j = s.op j := rfl
@[simp] theorem preg_subOf (w n : Nat) (x : Mask) (j : Nat) : (apply s (Upd.preg w n x)).sub j = s.sub j := rfl

@[simp] theorem mreg_time (w n : Nat) (x : Mask) : (apply s (Upd.mreg w n x)).time = s.time := rfl
@[simp] theorem mreg_mem (w n : Nat) (x : Mask) : (apply s (Upd.mreg w n x)).mem = s.mem := rfl
@[simp] theorem mreg_tags (w n : Nat) (x : Mask) : (apply s (Upd.mreg w n x)).tags = s.tags := rfl
@[simp] theorem mreg_oldCode (w n : Nat) (x : Mask) : (apply s (Upd.mreg w n x)).oldCode = s.oldCode := rfl
@[simp] theorem mreg_l1 (w n : Nat) (x : Mask) : (apply s (Upd.mreg w n x)).l1 = s.l1 := rfl
@[simp] theorem mreg_l2 (w n : Nat) (x : Mask) : (apply s (Upd.mreg w n x)).l2 = s.l2 := rfl
@[simp] theorem mreg_reps (w n : Nat) (x : Mask) : (apply s (Upd.mreg w n x)).reps = s.reps := rfl
@[simp] theorem mreg_msgs (w n : Nat) (x : Mask) : (apply s (Upd.mreg w n x)).msgs = s.msgs := rfl
@[simp] theorem mreg_scOrder (w n : Nat) (x : Mask) : (apply s (Upd.mreg w n x)).scOrder = s.scOrder := rfl
@[simp] theorem mreg_blocks (w n : Nat) (x : Mask) : (apply s (Upd.mreg w n x)).blocks = s.blocks := rfl
@[simp] theorem mreg_runs (w n : Nat) (x : Mask) : (apply s (Upd.mreg w n x)).runs = s.runs := rfl
@[simp] theorem mreg_gangs (w n : Nat) (x : Mask) : (apply s (Upd.mreg w n x)).gangs = s.gangs := rfl
@[simp] theorem mreg_grids (w n : Nat) (x : Mask) : (apply s (Upd.mreg w n x)).grids = s.grids := rfl
@[simp] theorem mreg_worlds (w n : Nat) (x : Mask) : (apply s (Upd.mreg w n x)).worlds = s.worlds := rfl
@[simp] theorem mreg_dies (w n : Nat) (x : Mask) : (apply s (Upd.mreg w n x)).dies = s.dies := rfl
@[simp] theorem mreg_rings (w n : Nat) (x : Mask) : (apply s (Upd.mreg w n x)).rings = s.rings := rfl
@[simp] theorem mreg_ops (w n : Nat) (x : Mask) : (apply s (Upd.mreg w n x)).ops = s.ops := rfl
@[simp] theorem mreg_subs (w n : Nat) (x : Mask) : (apply s (Upd.mreg w n x)).subs = s.subs := rfl
@[simp] theorem mreg_dev (w n : Nat) (x : Mask) : (apply s (Upd.mreg w n x)).dev = s.dev := rfl
@[simp] theorem mreg_cur (w n : Nat) (x : Mask) : (apply s (Upd.mreg w n x)).cur = s.cur := rfl
@[simp] theorem mreg_turns (w n : Nat) (x : Mask) : (apply s (Upd.mreg w n x)).turns = s.turns := rfl
@[simp] theorem mreg_free (w n : Nat) (x : Mask) : (apply s (Upd.mreg w n x)).free = s.free := rfl
@[simp] theorem mreg_seqNo (w n : Nat) (x : Mask) : (apply s (Upd.mreg w n x)).seqNo = s.seqNo := rfl
@[simp] theorem mreg_blockOf (w n : Nat) (x : Mask) (j : Nat) : (apply s (Upd.mreg w n x)).block j = s.block j := rfl
@[simp] theorem mreg_runOf (w n : Nat) (x : Mask) (j : Nat) : (apply s (Upd.mreg w n x)).runOf j = s.runOf j := rfl
@[simp] theorem mreg_gangOf (w n : Nat) (x : Mask) (j : Nat) : (apply s (Upd.mreg w n x)).gang j = s.gang j := rfl
@[simp] theorem mreg_gridOf (w n : Nat) (x : Mask) (j : Nat) : (apply s (Upd.mreg w n x)).grid j = s.grid j := rfl
@[simp] theorem mreg_worldOf (w n : Nat) (x : Mask) (j : Nat) : (apply s (Upd.mreg w n x)).world j = s.world j := rfl
@[simp] theorem mreg_dieOf (w n : Nat) (x : Mask) (j : Nat) : (apply s (Upd.mreg w n x)).die j = s.die j := rfl
@[simp] theorem mreg_ringOf (w n : Nat) (x : Mask) (j : Nat) : (apply s (Upd.mreg w n x)).ring j = s.ring j := rfl
@[simp] theorem mreg_opOf (w n : Nat) (x : Mask) (j : Nat) : (apply s (Upd.mreg w n x)).op j = s.op j := rfl
@[simp] theorem mreg_subOf (w n : Nat) (x : Mask) (j : Nat) : (apply s (Upd.mreg w n x)).sub j = s.sub j := rfl

@[simp] theorem fpsr_time (w l : Nat) (x : BitVec 6) : (apply s (Upd.fpsr w l x)).time = s.time := rfl
@[simp] theorem fpsr_mem (w l : Nat) (x : BitVec 6) : (apply s (Upd.fpsr w l x)).mem = s.mem := rfl
@[simp] theorem fpsr_tags (w l : Nat) (x : BitVec 6) : (apply s (Upd.fpsr w l x)).tags = s.tags := rfl
@[simp] theorem fpsr_oldCode (w l : Nat) (x : BitVec 6) : (apply s (Upd.fpsr w l x)).oldCode = s.oldCode := rfl
@[simp] theorem fpsr_l1 (w l : Nat) (x : BitVec 6) : (apply s (Upd.fpsr w l x)).l1 = s.l1 := rfl
@[simp] theorem fpsr_l2 (w l : Nat) (x : BitVec 6) : (apply s (Upd.fpsr w l x)).l2 = s.l2 := rfl
@[simp] theorem fpsr_reps (w l : Nat) (x : BitVec 6) : (apply s (Upd.fpsr w l x)).reps = s.reps := rfl
@[simp] theorem fpsr_msgs (w l : Nat) (x : BitVec 6) : (apply s (Upd.fpsr w l x)).msgs = s.msgs := rfl
@[simp] theorem fpsr_scOrder (w l : Nat) (x : BitVec 6) : (apply s (Upd.fpsr w l x)).scOrder = s.scOrder := rfl
@[simp] theorem fpsr_blocks (w l : Nat) (x : BitVec 6) : (apply s (Upd.fpsr w l x)).blocks = s.blocks := rfl
@[simp] theorem fpsr_runs (w l : Nat) (x : BitVec 6) : (apply s (Upd.fpsr w l x)).runs = s.runs := rfl
@[simp] theorem fpsr_gangs (w l : Nat) (x : BitVec 6) : (apply s (Upd.fpsr w l x)).gangs = s.gangs := rfl
@[simp] theorem fpsr_grids (w l : Nat) (x : BitVec 6) : (apply s (Upd.fpsr w l x)).grids = s.grids := rfl
@[simp] theorem fpsr_worlds (w l : Nat) (x : BitVec 6) : (apply s (Upd.fpsr w l x)).worlds = s.worlds := rfl
@[simp] theorem fpsr_dies (w l : Nat) (x : BitVec 6) : (apply s (Upd.fpsr w l x)).dies = s.dies := rfl
@[simp] theorem fpsr_rings (w l : Nat) (x : BitVec 6) : (apply s (Upd.fpsr w l x)).rings = s.rings := rfl
@[simp] theorem fpsr_ops (w l : Nat) (x : BitVec 6) : (apply s (Upd.fpsr w l x)).ops = s.ops := rfl
@[simp] theorem fpsr_subs (w l : Nat) (x : BitVec 6) : (apply s (Upd.fpsr w l x)).subs = s.subs := rfl
@[simp] theorem fpsr_dev (w l : Nat) (x : BitVec 6) : (apply s (Upd.fpsr w l x)).dev = s.dev := rfl
@[simp] theorem fpsr_cur (w l : Nat) (x : BitVec 6) : (apply s (Upd.fpsr w l x)).cur = s.cur := rfl
@[simp] theorem fpsr_turns (w l : Nat) (x : BitVec 6) : (apply s (Upd.fpsr w l x)).turns = s.turns := rfl
@[simp] theorem fpsr_free (w l : Nat) (x : BitVec 6) : (apply s (Upd.fpsr w l x)).free = s.free := rfl
@[simp] theorem fpsr_seqNo (w l : Nat) (x : BitVec 6) : (apply s (Upd.fpsr w l x)).seqNo = s.seqNo := rfl
@[simp] theorem fpsr_blockOf (w l : Nat) (x : BitVec 6) (j : Nat) : (apply s (Upd.fpsr w l x)).block j = s.block j := rfl
@[simp] theorem fpsr_runOf (w l : Nat) (x : BitVec 6) (j : Nat) : (apply s (Upd.fpsr w l x)).runOf j = s.runOf j := rfl
@[simp] theorem fpsr_gangOf (w l : Nat) (x : BitVec 6) (j : Nat) : (apply s (Upd.fpsr w l x)).gang j = s.gang j := rfl
@[simp] theorem fpsr_gridOf (w l : Nat) (x : BitVec 6) (j : Nat) : (apply s (Upd.fpsr w l x)).grid j = s.grid j := rfl
@[simp] theorem fpsr_worldOf (w l : Nat) (x : BitVec 6) (j : Nat) : (apply s (Upd.fpsr w l x)).world j = s.world j := rfl
@[simp] theorem fpsr_dieOf (w l : Nat) (x : BitVec 6) (j : Nat) : (apply s (Upd.fpsr w l x)).die j = s.die j := rfl
@[simp] theorem fpsr_ringOf (w l : Nat) (x : BitVec 6) (j : Nat) : (apply s (Upd.fpsr w l x)).ring j = s.ring j := rfl
@[simp] theorem fpsr_opOf (w l : Nat) (x : BitVec 6) (j : Nat) : (apply s (Upd.fpsr w l x)).op j = s.op j := rfl
@[simp] theorem fpsr_subOf (w l : Nat) (x : BitVec 6) (j : Nat) : (apply s (Upd.fpsr w l x)).sub j = s.sub j := rfl

@[simp] theorem stack_time (w : Nat) (l : List StackEntry) : (apply s (Upd.stack w l)).time = s.time := rfl
@[simp] theorem stack_mem (w : Nat) (l : List StackEntry) : (apply s (Upd.stack w l)).mem = s.mem := rfl
@[simp] theorem stack_tags (w : Nat) (l : List StackEntry) : (apply s (Upd.stack w l)).tags = s.tags := rfl
@[simp] theorem stack_oldCode (w : Nat) (l : List StackEntry) : (apply s (Upd.stack w l)).oldCode = s.oldCode := rfl
@[simp] theorem stack_l1 (w : Nat) (l : List StackEntry) : (apply s (Upd.stack w l)).l1 = s.l1 := rfl
@[simp] theorem stack_l2 (w : Nat) (l : List StackEntry) : (apply s (Upd.stack w l)).l2 = s.l2 := rfl
@[simp] theorem stack_reps (w : Nat) (l : List StackEntry) : (apply s (Upd.stack w l)).reps = s.reps := rfl
@[simp] theorem stack_msgs (w : Nat) (l : List StackEntry) : (apply s (Upd.stack w l)).msgs = s.msgs := rfl
@[simp] theorem stack_scOrder (w : Nat) (l : List StackEntry) : (apply s (Upd.stack w l)).scOrder = s.scOrder := rfl
@[simp] theorem stack_warps (w : Nat) (l : List StackEntry) : (apply s (Upd.stack w l)).warps = s.warps.put w { s.warp w with stack := l.take 1024 } := rfl
@[simp] theorem stack_blocks (w : Nat) (l : List StackEntry) : (apply s (Upd.stack w l)).blocks = s.blocks := rfl
@[simp] theorem stack_runs (w : Nat) (l : List StackEntry) : (apply s (Upd.stack w l)).runs = s.runs := rfl
@[simp] theorem stack_gangs (w : Nat) (l : List StackEntry) : (apply s (Upd.stack w l)).gangs = s.gangs := rfl
@[simp] theorem stack_grids (w : Nat) (l : List StackEntry) : (apply s (Upd.stack w l)).grids = s.grids := rfl
@[simp] theorem stack_worlds (w : Nat) (l : List StackEntry) : (apply s (Upd.stack w l)).worlds = s.worlds := rfl
@[simp] theorem stack_dies (w : Nat) (l : List StackEntry) : (apply s (Upd.stack w l)).dies = s.dies := rfl
@[simp] theorem stack_rings (w : Nat) (l : List StackEntry) : (apply s (Upd.stack w l)).rings = s.rings := rfl
@[simp] theorem stack_ops (w : Nat) (l : List StackEntry) : (apply s (Upd.stack w l)).ops = s.ops := rfl
@[simp] theorem stack_subs (w : Nat) (l : List StackEntry) : (apply s (Upd.stack w l)).subs = s.subs := rfl
@[simp] theorem stack_dev (w : Nat) (l : List StackEntry) : (apply s (Upd.stack w l)).dev = s.dev := rfl
@[simp] theorem stack_cur (w : Nat) (l : List StackEntry) : (apply s (Upd.stack w l)).cur = s.cur := rfl
@[simp] theorem stack_turns (w : Nat) (l : List StackEntry) : (apply s (Upd.stack w l)).turns = s.turns := rfl
@[simp] theorem stack_free (w : Nat) (l : List StackEntry) : (apply s (Upd.stack w l)).free = s.free := rfl
@[simp] theorem stack_seqNo (w : Nat) (l : List StackEntry) : (apply s (Upd.stack w l)).seqNo = s.seqNo := rfl
@[simp] theorem stack_blockOf (w : Nat) (l : List StackEntry) (j : Nat) : (apply s (Upd.stack w l)).block j = s.block j := rfl
@[simp] theorem stack_runOf (w : Nat) (l : List StackEntry) (j : Nat) : (apply s (Upd.stack w l)).runOf j = s.runOf j := rfl
@[simp] theorem stack_gangOf (w : Nat) (l : List StackEntry) (j : Nat) : (apply s (Upd.stack w l)).gang j = s.gang j := rfl
@[simp] theorem stack_gridOf (w : Nat) (l : List StackEntry) (j : Nat) : (apply s (Upd.stack w l)).grid j = s.grid j := rfl
@[simp] theorem stack_worldOf (w : Nat) (l : List StackEntry) (j : Nat) : (apply s (Upd.stack w l)).world j = s.world j := rfl
@[simp] theorem stack_dieOf (w : Nat) (l : List StackEntry) (j : Nat) : (apply s (Upd.stack w l)).die j = s.die j := rfl
@[simp] theorem stack_ringOf (w : Nat) (l : List StackEntry) (j : Nat) : (apply s (Upd.stack w l)).ring j = s.ring j := rfl
@[simp] theorem stack_opOf (w : Nat) (l : List StackEntry) (j : Nat) : (apply s (Upd.stack w l)).op j = s.op j := rfl
@[simp] theorem stack_subOf (w : Nat) (l : List StackEntry) (j : Nat) : (apply s (Upd.stack w l)).sub j = s.sub j := rfl

@[simp] theorem ctl_time (w : Nat) (f : Ctl → Ctl) : (apply s (Upd.ctl w f)).time = s.time := rfl
@[simp] theorem ctl_mem (w : Nat) (f : Ctl → Ctl) : (apply s (Upd.ctl w f)).mem = s.mem := rfl
@[simp] theorem ctl_tags (w : Nat) (f : Ctl → Ctl) : (apply s (Upd.ctl w f)).tags = s.tags := rfl
@[simp] theorem ctl_oldCode (w : Nat) (f : Ctl → Ctl) : (apply s (Upd.ctl w f)).oldCode = s.oldCode := rfl
@[simp] theorem ctl_l1 (w : Nat) (f : Ctl → Ctl) : (apply s (Upd.ctl w f)).l1 = s.l1 := rfl
@[simp] theorem ctl_l2 (w : Nat) (f : Ctl → Ctl) : (apply s (Upd.ctl w f)).l2 = s.l2 := rfl
@[simp] theorem ctl_reps (w : Nat) (f : Ctl → Ctl) : (apply s (Upd.ctl w f)).reps = s.reps := rfl
@[simp] theorem ctl_msgs (w : Nat) (f : Ctl → Ctl) : (apply s (Upd.ctl w f)).msgs = s.msgs := rfl
@[simp] theorem ctl_scOrder (w : Nat) (f : Ctl → Ctl) : (apply s (Upd.ctl w f)).scOrder = s.scOrder := rfl
@[simp] theorem ctl_warps (w : Nat) (f : Ctl → Ctl) : (apply s (Upd.ctl w f)).warps = s.warps.put w { s.warp w with ctl := f (s.warp w).ctl } := rfl
@[simp] theorem ctl_blocks (w : Nat) (f : Ctl → Ctl) : (apply s (Upd.ctl w f)).blocks = s.blocks := rfl
@[simp] theorem ctl_runs (w : Nat) (f : Ctl → Ctl) : (apply s (Upd.ctl w f)).runs = s.runs := rfl
@[simp] theorem ctl_gangs (w : Nat) (f : Ctl → Ctl) : (apply s (Upd.ctl w f)).gangs = s.gangs := rfl
@[simp] theorem ctl_grids (w : Nat) (f : Ctl → Ctl) : (apply s (Upd.ctl w f)).grids = s.grids := rfl
@[simp] theorem ctl_worlds (w : Nat) (f : Ctl → Ctl) : (apply s (Upd.ctl w f)).worlds = s.worlds := rfl
@[simp] theorem ctl_dies (w : Nat) (f : Ctl → Ctl) : (apply s (Upd.ctl w f)).dies = s.dies := rfl
@[simp] theorem ctl_rings (w : Nat) (f : Ctl → Ctl) : (apply s (Upd.ctl w f)).rings = s.rings := rfl
@[simp] theorem ctl_ops (w : Nat) (f : Ctl → Ctl) : (apply s (Upd.ctl w f)).ops = s.ops := rfl
@[simp] theorem ctl_subs (w : Nat) (f : Ctl → Ctl) : (apply s (Upd.ctl w f)).subs = s.subs := rfl
@[simp] theorem ctl_dev (w : Nat) (f : Ctl → Ctl) : (apply s (Upd.ctl w f)).dev = s.dev := rfl
@[simp] theorem ctl_cur (w : Nat) (f : Ctl → Ctl) : (apply s (Upd.ctl w f)).cur = s.cur := rfl
@[simp] theorem ctl_turns (w : Nat) (f : Ctl → Ctl) : (apply s (Upd.ctl w f)).turns = s.turns := rfl
@[simp] theorem ctl_free (w : Nat) (f : Ctl → Ctl) : (apply s (Upd.ctl w f)).free = s.free := rfl
@[simp] theorem ctl_seqNo (w : Nat) (f : Ctl → Ctl) : (apply s (Upd.ctl w f)).seqNo = s.seqNo := rfl
@[simp] theorem ctl_blockOf (w : Nat) (f : Ctl → Ctl) (j : Nat) : (apply s (Upd.ctl w f)).block j = s.block j := rfl
@[simp] theorem ctl_runOf (w : Nat) (f : Ctl → Ctl) (j : Nat) : (apply s (Upd.ctl w f)).runOf j = s.runOf j := rfl
@[simp] theorem ctl_gangOf (w : Nat) (f : Ctl → Ctl) (j : Nat) : (apply s (Upd.ctl w f)).gang j = s.gang j := rfl
@[simp] theorem ctl_gridOf (w : Nat) (f : Ctl → Ctl) (j : Nat) : (apply s (Upd.ctl w f)).grid j = s.grid j := rfl
@[simp] theorem ctl_worldOf (w : Nat) (f : Ctl → Ctl) (j : Nat) : (apply s (Upd.ctl w f)).world j = s.world j := rfl
@[simp] theorem ctl_dieOf (w : Nat) (f : Ctl → Ctl) (j : Nat) : (apply s (Upd.ctl w f)).die j = s.die j := rfl
@[simp] theorem ctl_ringOf (w : Nat) (f : Ctl → Ctl) (j : Nat) : (apply s (Upd.ctl w f)).ring j = s.ring j := rfl
@[simp] theorem ctl_opOf (w : Nat) (f : Ctl → Ctl) (j : Nat) : (apply s (Upd.ctl w f)).op j = s.op j := rfl
@[simp] theorem ctl_subOf (w : Nat) (f : Ctl → Ctl) (j : Nat) : (apply s (Upd.ctl w f)).sub j = s.sub j := rfl

@[simp] theorem warp_time (w : Nat) (c : Ctl) : (apply s (Upd.warp w c)).time = s.time := rfl
@[simp] theorem warp_mem (w : Nat) (c : Ctl) : (apply s (Upd.warp w c)).mem = s.mem := rfl
@[simp] theorem warp_tags (w : Nat) (c : Ctl) : (apply s (Upd.warp w c)).tags = s.tags := rfl
@[simp] theorem warp_oldCode (w : Nat) (c : Ctl) : (apply s (Upd.warp w c)).oldCode = s.oldCode := rfl
@[simp] theorem warp_l1 (w : Nat) (c : Ctl) : (apply s (Upd.warp w c)).l1 = s.l1 := rfl
@[simp] theorem warp_l2 (w : Nat) (c : Ctl) : (apply s (Upd.warp w c)).l2 = s.l2 := rfl
@[simp] theorem warp_reps (w : Nat) (c : Ctl) : (apply s (Upd.warp w c)).reps = s.reps := rfl
@[simp] theorem warp_msgs (w : Nat) (c : Ctl) : (apply s (Upd.warp w c)).msgs = s.msgs := rfl
@[simp] theorem warp_scOrder (w : Nat) (c : Ctl) : (apply s (Upd.warp w c)).scOrder = s.scOrder := rfl
@[simp] theorem warp_warps (w : Nat) (c : Ctl) : (apply s (Upd.warp w c)).warps = s.warps.put w { ctl := c } := rfl
@[simp] theorem warp_blocks (w : Nat) (c : Ctl) : (apply s (Upd.warp w c)).blocks = s.blocks := rfl
@[simp] theorem warp_runs (w : Nat) (c : Ctl) : (apply s (Upd.warp w c)).runs = s.runs := rfl
@[simp] theorem warp_gangs (w : Nat) (c : Ctl) : (apply s (Upd.warp w c)).gangs = s.gangs := rfl
@[simp] theorem warp_grids (w : Nat) (c : Ctl) : (apply s (Upd.warp w c)).grids = s.grids := rfl
@[simp] theorem warp_worlds (w : Nat) (c : Ctl) : (apply s (Upd.warp w c)).worlds = s.worlds := rfl
@[simp] theorem warp_dies (w : Nat) (c : Ctl) : (apply s (Upd.warp w c)).dies = s.dies := rfl
@[simp] theorem warp_rings (w : Nat) (c : Ctl) : (apply s (Upd.warp w c)).rings = s.rings := rfl
@[simp] theorem warp_ops (w : Nat) (c : Ctl) : (apply s (Upd.warp w c)).ops = s.ops := rfl
@[simp] theorem warp_subs (w : Nat) (c : Ctl) : (apply s (Upd.warp w c)).subs = s.subs := rfl
@[simp] theorem warp_dev (w : Nat) (c : Ctl) : (apply s (Upd.warp w c)).dev = s.dev := rfl
@[simp] theorem warp_cur (w : Nat) (c : Ctl) : (apply s (Upd.warp w c)).cur = s.cur := rfl
@[simp] theorem warp_turns (w : Nat) (c : Ctl) : (apply s (Upd.warp w c)).turns = s.turns := rfl
@[simp] theorem warp_free (w : Nat) (c : Ctl) : (apply s (Upd.warp w c)).free = s.free := rfl
@[simp] theorem warp_seqNo (w : Nat) (c : Ctl) : (apply s (Upd.warp w c)).seqNo = s.seqNo := rfl
@[simp] theorem warp_blockOf (w : Nat) (c : Ctl) (j : Nat) : (apply s (Upd.warp w c)).block j = s.block j := rfl
@[simp] theorem warp_runOf (w : Nat) (c : Ctl) (j : Nat) : (apply s (Upd.warp w c)).runOf j = s.runOf j := rfl
@[simp] theorem warp_gangOf (w : Nat) (c : Ctl) (j : Nat) : (apply s (Upd.warp w c)).gang j = s.gang j := rfl
@[simp] theorem warp_gridOf (w : Nat) (c : Ctl) (j : Nat) : (apply s (Upd.warp w c)).grid j = s.grid j := rfl
@[simp] theorem warp_worldOf (w : Nat) (c : Ctl) (j : Nat) : (apply s (Upd.warp w c)).world j = s.world j := rfl
@[simp] theorem warp_dieOf (w : Nat) (c : Ctl) (j : Nat) : (apply s (Upd.warp w c)).die j = s.die j := rfl
@[simp] theorem warp_ringOf (w : Nat) (c : Ctl) (j : Nat) : (apply s (Upd.warp w c)).ring j = s.ring j := rfl
@[simp] theorem warp_opOf (w : Nat) (c : Ctl) (j : Nat) : (apply s (Upd.warp w c)).op j = s.op j := rfl
@[simp] theorem warp_subOf (w : Nat) (c : Ctl) (j : Nat) : (apply s (Upd.warp w c)).sub j = s.sub j := rfl

@[simp] theorem block_time (b : Nat) (f : Block → Block) : (apply s (Upd.block b f)).time = s.time := rfl
@[simp] theorem block_mem (b : Nat) (f : Block → Block) : (apply s (Upd.block b f)).mem = s.mem := rfl
@[simp] theorem block_tags (b : Nat) (f : Block → Block) : (apply s (Upd.block b f)).tags = s.tags := rfl
@[simp] theorem block_oldCode (b : Nat) (f : Block → Block) : (apply s (Upd.block b f)).oldCode = s.oldCode := rfl
@[simp] theorem block_l1 (b : Nat) (f : Block → Block) : (apply s (Upd.block b f)).l1 = s.l1 := rfl
@[simp] theorem block_l2 (b : Nat) (f : Block → Block) : (apply s (Upd.block b f)).l2 = s.l2 := rfl
@[simp] theorem block_reps (b : Nat) (f : Block → Block) : (apply s (Upd.block b f)).reps = s.reps := rfl
@[simp] theorem block_msgs (b : Nat) (f : Block → Block) : (apply s (Upd.block b f)).msgs = s.msgs := rfl
@[simp] theorem block_scOrder (b : Nat) (f : Block → Block) : (apply s (Upd.block b f)).scOrder = s.scOrder := rfl
@[simp] theorem block_warps (b : Nat) (f : Block → Block) : (apply s (Upd.block b f)).warps = s.warps := rfl
@[simp] theorem block_blocks (b : Nat) (f : Block → Block) : (apply s (Upd.block b f)).blocks = s.blocks.put b { f (s.block b) with spad := (s.block b).spad } := rfl
@[simp] theorem block_runs (b : Nat) (f : Block → Block) : (apply s (Upd.block b f)).runs = s.runs := rfl
@[simp] theorem block_gangs (b : Nat) (f : Block → Block) : (apply s (Upd.block b f)).gangs = s.gangs := rfl
@[simp] theorem block_grids (b : Nat) (f : Block → Block) : (apply s (Upd.block b f)).grids = s.grids := rfl
@[simp] theorem block_worlds (b : Nat) (f : Block → Block) : (apply s (Upd.block b f)).worlds = s.worlds := rfl
@[simp] theorem block_dies (b : Nat) (f : Block → Block) : (apply s (Upd.block b f)).dies = s.dies := rfl
@[simp] theorem block_rings (b : Nat) (f : Block → Block) : (apply s (Upd.block b f)).rings = s.rings := rfl
@[simp] theorem block_ops (b : Nat) (f : Block → Block) : (apply s (Upd.block b f)).ops = s.ops := rfl
@[simp] theorem block_subs (b : Nat) (f : Block → Block) : (apply s (Upd.block b f)).subs = s.subs := rfl
@[simp] theorem block_dev (b : Nat) (f : Block → Block) : (apply s (Upd.block b f)).dev = s.dev := rfl
@[simp] theorem block_cur (b : Nat) (f : Block → Block) : (apply s (Upd.block b f)).cur = s.cur := rfl
@[simp] theorem block_turns (b : Nat) (f : Block → Block) : (apply s (Upd.block b f)).turns = s.turns := rfl
@[simp] theorem block_free (b : Nat) (f : Block → Block) : (apply s (Upd.block b f)).free = s.free := rfl
@[simp] theorem block_seqNo (b : Nat) (f : Block → Block) : (apply s (Upd.block b f)).seqNo = s.seqNo := rfl
@[simp] theorem block_warpOf (b : Nat) (f : Block → Block) (j : Nat) : (apply s (Upd.block b f)).warp j = s.warp j := rfl
@[simp] theorem block_runOf (b : Nat) (f : Block → Block) (j : Nat) : (apply s (Upd.block b f)).runOf j = s.runOf j := rfl
@[simp] theorem block_gangOf (b : Nat) (f : Block → Block) (j : Nat) : (apply s (Upd.block b f)).gang j = s.gang j := rfl
@[simp] theorem block_gridOf (b : Nat) (f : Block → Block) (j : Nat) : (apply s (Upd.block b f)).grid j = s.grid j := rfl
@[simp] theorem block_worldOf (b : Nat) (f : Block → Block) (j : Nat) : (apply s (Upd.block b f)).world j = s.world j := rfl
@[simp] theorem block_dieOf (b : Nat) (f : Block → Block) (j : Nat) : (apply s (Upd.block b f)).die j = s.die j := rfl
@[simp] theorem block_ringOf (b : Nat) (f : Block → Block) (j : Nat) : (apply s (Upd.block b f)).ring j = s.ring j := rfl
@[simp] theorem block_opOf (b : Nat) (f : Block → Block) (j : Nat) : (apply s (Upd.block b f)).op j = s.op j := rfl
@[simp] theorem block_subOf (b : Nat) (f : Block → Block) (j : Nat) : (apply s (Upd.block b f)).sub j = s.sub j := rfl

@[simp] theorem spadClear_time (b : Nat) : (apply s (Upd.spadClear b)).time = s.time := rfl
@[simp] theorem spadClear_mem (b : Nat) : (apply s (Upd.spadClear b)).mem = s.mem := rfl
@[simp] theorem spadClear_tags (b : Nat) : (apply s (Upd.spadClear b)).tags = s.tags := rfl
@[simp] theorem spadClear_oldCode (b : Nat) : (apply s (Upd.spadClear b)).oldCode = s.oldCode := rfl
@[simp] theorem spadClear_l1 (b : Nat) : (apply s (Upd.spadClear b)).l1 = s.l1 := rfl
@[simp] theorem spadClear_l2 (b : Nat) : (apply s (Upd.spadClear b)).l2 = s.l2 := rfl
@[simp] theorem spadClear_reps (b : Nat) : (apply s (Upd.spadClear b)).reps = s.reps := rfl
@[simp] theorem spadClear_msgs (b : Nat) : (apply s (Upd.spadClear b)).msgs = s.msgs := rfl
@[simp] theorem spadClear_scOrder (b : Nat) : (apply s (Upd.spadClear b)).scOrder = s.scOrder := rfl
@[simp] theorem spadClear_warps (b : Nat) : (apply s (Upd.spadClear b)).warps = s.warps := rfl
@[simp] theorem spadClear_blocks (b : Nat) : (apply s (Upd.spadClear b)).blocks = s.blocks.put b { s.block b with spad := [] } := rfl
@[simp] theorem spadClear_runs (b : Nat) : (apply s (Upd.spadClear b)).runs = s.runs := rfl
@[simp] theorem spadClear_gangs (b : Nat) : (apply s (Upd.spadClear b)).gangs = s.gangs := rfl
@[simp] theorem spadClear_grids (b : Nat) : (apply s (Upd.spadClear b)).grids = s.grids := rfl
@[simp] theorem spadClear_worlds (b : Nat) : (apply s (Upd.spadClear b)).worlds = s.worlds := rfl
@[simp] theorem spadClear_dies (b : Nat) : (apply s (Upd.spadClear b)).dies = s.dies := rfl
@[simp] theorem spadClear_rings (b : Nat) : (apply s (Upd.spadClear b)).rings = s.rings := rfl
@[simp] theorem spadClear_ops (b : Nat) : (apply s (Upd.spadClear b)).ops = s.ops := rfl
@[simp] theorem spadClear_subs (b : Nat) : (apply s (Upd.spadClear b)).subs = s.subs := rfl
@[simp] theorem spadClear_dev (b : Nat) : (apply s (Upd.spadClear b)).dev = s.dev := rfl
@[simp] theorem spadClear_cur (b : Nat) : (apply s (Upd.spadClear b)).cur = s.cur := rfl
@[simp] theorem spadClear_turns (b : Nat) : (apply s (Upd.spadClear b)).turns = s.turns := rfl
@[simp] theorem spadClear_free (b : Nat) : (apply s (Upd.spadClear b)).free = s.free := rfl
@[simp] theorem spadClear_seqNo (b : Nat) : (apply s (Upd.spadClear b)).seqNo = s.seqNo := rfl
@[simp] theorem spadClear_warpOf (b : Nat) (j : Nat) : (apply s (Upd.spadClear b)).warp j = s.warp j := rfl
@[simp] theorem spadClear_runOf (b : Nat) (j : Nat) : (apply s (Upd.spadClear b)).runOf j = s.runOf j := rfl
@[simp] theorem spadClear_gangOf (b : Nat) (j : Nat) : (apply s (Upd.spadClear b)).gang j = s.gang j := rfl
@[simp] theorem spadClear_gridOf (b : Nat) (j : Nat) : (apply s (Upd.spadClear b)).grid j = s.grid j := rfl
@[simp] theorem spadClear_worldOf (b : Nat) (j : Nat) : (apply s (Upd.spadClear b)).world j = s.world j := rfl
@[simp] theorem spadClear_dieOf (b : Nat) (j : Nat) : (apply s (Upd.spadClear b)).die j = s.die j := rfl
@[simp] theorem spadClear_ringOf (b : Nat) (j : Nat) : (apply s (Upd.spadClear b)).ring j = s.ring j := rfl
@[simp] theorem spadClear_opOf (b : Nat) (j : Nat) : (apply s (Upd.spadClear b)).op j = s.op j := rfl
@[simp] theorem spadClear_subOf (b : Nat) (j : Nat) : (apply s (Upd.spadClear b)).sub j = s.sub j := rfl

@[simp] theorem spad_time (b a : Nat) (x : Byte) : (apply s (Upd.spad b a x)).time = s.time := rfl
@[simp] theorem spad_mem (b a : Nat) (x : Byte) : (apply s (Upd.spad b a x)).mem = s.mem := rfl
@[simp] theorem spad_tags (b a : Nat) (x : Byte) : (apply s (Upd.spad b a x)).tags = s.tags := rfl
@[simp] theorem spad_oldCode (b a : Nat) (x : Byte) : (apply s (Upd.spad b a x)).oldCode = s.oldCode := rfl
@[simp] theorem spad_l1 (b a : Nat) (x : Byte) : (apply s (Upd.spad b a x)).l1 = s.l1 := rfl
@[simp] theorem spad_l2 (b a : Nat) (x : Byte) : (apply s (Upd.spad b a x)).l2 = s.l2 := rfl
@[simp] theorem spad_reps (b a : Nat) (x : Byte) : (apply s (Upd.spad b a x)).reps = s.reps := rfl
@[simp] theorem spad_msgs (b a : Nat) (x : Byte) : (apply s (Upd.spad b a x)).msgs = s.msgs := rfl
@[simp] theorem spad_scOrder (b a : Nat) (x : Byte) : (apply s (Upd.spad b a x)).scOrder = s.scOrder := rfl
@[simp] theorem spad_warps (b a : Nat) (x : Byte) : (apply s (Upd.spad b a x)).warps = s.warps := rfl
@[simp] theorem spad_blocks (b a : Nat) (x : Byte) : (apply s (Upd.spad b a x)).blocks = s.blocks.put b { s.block b with spad := Tab.set 0 (s.block b).spad a x } := rfl
@[simp] theorem spad_runs (b a : Nat) (x : Byte) : (apply s (Upd.spad b a x)).runs = s.runs := rfl
@[simp] theorem spad_gangs (b a : Nat) (x : Byte) : (apply s (Upd.spad b a x)).gangs = s.gangs := rfl
@[simp] theorem spad_grids (b a : Nat) (x : Byte) : (apply s (Upd.spad b a x)).grids = s.grids := rfl
@[simp] theorem spad_worlds (b a : Nat) (x : Byte) : (apply s (Upd.spad b a x)).worlds = s.worlds := rfl
@[simp] theorem spad_dies (b a : Nat) (x : Byte) : (apply s (Upd.spad b a x)).dies = s.dies := rfl
@[simp] theorem spad_rings (b a : Nat) (x : Byte) : (apply s (Upd.spad b a x)).rings = s.rings := rfl
@[simp] theorem spad_ops (b a : Nat) (x : Byte) : (apply s (Upd.spad b a x)).ops = s.ops := rfl
@[simp] theorem spad_subs (b a : Nat) (x : Byte) : (apply s (Upd.spad b a x)).subs = s.subs := rfl
@[simp] theorem spad_dev (b a : Nat) (x : Byte) : (apply s (Upd.spad b a x)).dev = s.dev := rfl
@[simp] theorem spad_cur (b a : Nat) (x : Byte) : (apply s (Upd.spad b a x)).cur = s.cur := rfl
@[simp] theorem spad_turns (b a : Nat) (x : Byte) : (apply s (Upd.spad b a x)).turns = s.turns := rfl
@[simp] theorem spad_free (b a : Nat) (x : Byte) : (apply s (Upd.spad b a x)).free = s.free := rfl
@[simp] theorem spad_seqNo (b a : Nat) (x : Byte) : (apply s (Upd.spad b a x)).seqNo = s.seqNo := rfl
@[simp] theorem spad_warpOf (b a : Nat) (x : Byte) (j : Nat) : (apply s (Upd.spad b a x)).warp j = s.warp j := rfl
@[simp] theorem spad_runOf (b a : Nat) (x : Byte) (j : Nat) : (apply s (Upd.spad b a x)).runOf j = s.runOf j := rfl
@[simp] theorem spad_gangOf (b a : Nat) (x : Byte) (j : Nat) : (apply s (Upd.spad b a x)).gang j = s.gang j := rfl
@[simp] theorem spad_gridOf (b a : Nat) (x : Byte) (j : Nat) : (apply s (Upd.spad b a x)).grid j = s.grid j := rfl
@[simp] theorem spad_worldOf (b a : Nat) (x : Byte) (j : Nat) : (apply s (Upd.spad b a x)).world j = s.world j := rfl
@[simp] theorem spad_dieOf (b a : Nat) (x : Byte) (j : Nat) : (apply s (Upd.spad b a x)).die j = s.die j := rfl
@[simp] theorem spad_ringOf (b a : Nat) (x : Byte) (j : Nat) : (apply s (Upd.spad b a x)).ring j = s.ring j := rfl
@[simp] theorem spad_opOf (b a : Nat) (x : Byte) (j : Nat) : (apply s (Upd.spad b a x)).op j = s.op j := rfl
@[simp] theorem spad_subOf (b a : Nat) (x : Byte) (j : Nat) : (apply s (Upd.spad b a x)).sub j = s.sub j := rfl

@[simp] theorem run_time (r : Nat) (f : Run → Run) : (apply s (Upd.run r f)).time = s.time := rfl
@[simp] theorem run_mem (r : Nat) (f : Run → Run) : (apply s (Upd.run r f)).mem = s.mem := rfl
@[simp] theorem run_tags (r : Nat) (f : Run → Run) : (apply s (Upd.run r f)).tags = s.tags := rfl
@[simp] theorem run_oldCode (r : Nat) (f : Run → Run) : (apply s (Upd.run r f)).oldCode = s.oldCode := rfl
@[simp] theorem run_l1 (r : Nat) (f : Run → Run) : (apply s (Upd.run r f)).l1 = s.l1 := rfl
@[simp] theorem run_l2 (r : Nat) (f : Run → Run) : (apply s (Upd.run r f)).l2 = s.l2 := rfl
@[simp] theorem run_reps (r : Nat) (f : Run → Run) : (apply s (Upd.run r f)).reps = s.reps := rfl
@[simp] theorem run_msgs (r : Nat) (f : Run → Run) : (apply s (Upd.run r f)).msgs = s.msgs := rfl
@[simp] theorem run_scOrder (r : Nat) (f : Run → Run) : (apply s (Upd.run r f)).scOrder = s.scOrder := rfl
@[simp] theorem run_warps (r : Nat) (f : Run → Run) : (apply s (Upd.run r f)).warps = s.warps := rfl
@[simp] theorem run_blocks (r : Nat) (f : Run → Run) : (apply s (Upd.run r f)).blocks = s.blocks := rfl
@[simp] theorem run_runs (r : Nat) (f : Run → Run) : (apply s (Upd.run r f)).runs = s.runs.put r (f (s.runOf r)) := rfl
@[simp] theorem run_gangs (r : Nat) (f : Run → Run) : (apply s (Upd.run r f)).gangs = s.gangs := rfl
@[simp] theorem run_grids (r : Nat) (f : Run → Run) : (apply s (Upd.run r f)).grids = s.grids := rfl
@[simp] theorem run_worlds (r : Nat) (f : Run → Run) : (apply s (Upd.run r f)).worlds = s.worlds := rfl
@[simp] theorem run_dies (r : Nat) (f : Run → Run) : (apply s (Upd.run r f)).dies = s.dies := rfl
@[simp] theorem run_rings (r : Nat) (f : Run → Run) : (apply s (Upd.run r f)).rings = s.rings := rfl
@[simp] theorem run_ops (r : Nat) (f : Run → Run) : (apply s (Upd.run r f)).ops = s.ops := rfl
@[simp] theorem run_subs (r : Nat) (f : Run → Run) : (apply s (Upd.run r f)).subs = s.subs := rfl
@[simp] theorem run_dev (r : Nat) (f : Run → Run) : (apply s (Upd.run r f)).dev = s.dev := rfl
@[simp] theorem run_cur (r : Nat) (f : Run → Run) : (apply s (Upd.run r f)).cur = s.cur := rfl
@[simp] theorem run_turns (r : Nat) (f : Run → Run) : (apply s (Upd.run r f)).turns = s.turns := rfl
@[simp] theorem run_free (r : Nat) (f : Run → Run) : (apply s (Upd.run r f)).free = s.free := rfl
@[simp] theorem run_seqNo (r : Nat) (f : Run → Run) : (apply s (Upd.run r f)).seqNo = s.seqNo := rfl
@[simp] theorem run_warpOf (r : Nat) (f : Run → Run) (j : Nat) : (apply s (Upd.run r f)).warp j = s.warp j := rfl
@[simp] theorem run_blockOf (r : Nat) (f : Run → Run) (j : Nat) : (apply s (Upd.run r f)).block j = s.block j := rfl
@[simp] theorem run_gangOf (r : Nat) (f : Run → Run) (j : Nat) : (apply s (Upd.run r f)).gang j = s.gang j := rfl
@[simp] theorem run_gridOf (r : Nat) (f : Run → Run) (j : Nat) : (apply s (Upd.run r f)).grid j = s.grid j := rfl
@[simp] theorem run_worldOf (r : Nat) (f : Run → Run) (j : Nat) : (apply s (Upd.run r f)).world j = s.world j := rfl
@[simp] theorem run_dieOf (r : Nat) (f : Run → Run) (j : Nat) : (apply s (Upd.run r f)).die j = s.die j := rfl
@[simp] theorem run_ringOf (r : Nat) (f : Run → Run) (j : Nat) : (apply s (Upd.run r f)).ring j = s.ring j := rfl
@[simp] theorem run_opOf (r : Nat) (f : Run → Run) (j : Nat) : (apply s (Upd.run r f)).op j = s.op j := rfl
@[simp] theorem run_subOf (r : Nat) (f : Run → Run) (j : Nat) : (apply s (Upd.run r f)).sub j = s.sub j := rfl

@[simp] theorem gang_time (g : Nat) (f : Gang → Gang) : (apply s (Upd.gang g f)).time = s.time := rfl
@[simp] theorem gang_mem (g : Nat) (f : Gang → Gang) : (apply s (Upd.gang g f)).mem = s.mem := rfl
@[simp] theorem gang_tags (g : Nat) (f : Gang → Gang) : (apply s (Upd.gang g f)).tags = s.tags := rfl
@[simp] theorem gang_oldCode (g : Nat) (f : Gang → Gang) : (apply s (Upd.gang g f)).oldCode = s.oldCode := rfl
@[simp] theorem gang_l1 (g : Nat) (f : Gang → Gang) : (apply s (Upd.gang g f)).l1 = s.l1 := rfl
@[simp] theorem gang_l2 (g : Nat) (f : Gang → Gang) : (apply s (Upd.gang g f)).l2 = s.l2 := rfl
@[simp] theorem gang_reps (g : Nat) (f : Gang → Gang) : (apply s (Upd.gang g f)).reps = s.reps := rfl
@[simp] theorem gang_msgs (g : Nat) (f : Gang → Gang) : (apply s (Upd.gang g f)).msgs = s.msgs := rfl
@[simp] theorem gang_scOrder (g : Nat) (f : Gang → Gang) : (apply s (Upd.gang g f)).scOrder = s.scOrder := rfl
@[simp] theorem gang_warps (g : Nat) (f : Gang → Gang) : (apply s (Upd.gang g f)).warps = s.warps := rfl
@[simp] theorem gang_blocks (g : Nat) (f : Gang → Gang) : (apply s (Upd.gang g f)).blocks = s.blocks := rfl
@[simp] theorem gang_runs (g : Nat) (f : Gang → Gang) : (apply s (Upd.gang g f)).runs = s.runs := rfl
@[simp] theorem gang_gangs (g : Nat) (f : Gang → Gang) : (apply s (Upd.gang g f)).gangs = s.gangs.put g (f (s.gang g)) := rfl
@[simp] theorem gang_grids (g : Nat) (f : Gang → Gang) : (apply s (Upd.gang g f)).grids = s.grids := rfl
@[simp] theorem gang_worlds (g : Nat) (f : Gang → Gang) : (apply s (Upd.gang g f)).worlds = s.worlds := rfl
@[simp] theorem gang_dies (g : Nat) (f : Gang → Gang) : (apply s (Upd.gang g f)).dies = s.dies := rfl
@[simp] theorem gang_rings (g : Nat) (f : Gang → Gang) : (apply s (Upd.gang g f)).rings = s.rings := rfl
@[simp] theorem gang_ops (g : Nat) (f : Gang → Gang) : (apply s (Upd.gang g f)).ops = s.ops := rfl
@[simp] theorem gang_subs (g : Nat) (f : Gang → Gang) : (apply s (Upd.gang g f)).subs = s.subs := rfl
@[simp] theorem gang_dev (g : Nat) (f : Gang → Gang) : (apply s (Upd.gang g f)).dev = s.dev := rfl
@[simp] theorem gang_cur (g : Nat) (f : Gang → Gang) : (apply s (Upd.gang g f)).cur = s.cur := rfl
@[simp] theorem gang_turns (g : Nat) (f : Gang → Gang) : (apply s (Upd.gang g f)).turns = s.turns := rfl
@[simp] theorem gang_free (g : Nat) (f : Gang → Gang) : (apply s (Upd.gang g f)).free = s.free := rfl
@[simp] theorem gang_seqNo (g : Nat) (f : Gang → Gang) : (apply s (Upd.gang g f)).seqNo = s.seqNo := rfl
@[simp] theorem gang_warpOf (g : Nat) (f : Gang → Gang) (j : Nat) : (apply s (Upd.gang g f)).warp j = s.warp j := rfl
@[simp] theorem gang_blockOf (g : Nat) (f : Gang → Gang) (j : Nat) : (apply s (Upd.gang g f)).block j = s.block j := rfl
@[simp] theorem gang_runOf (g : Nat) (f : Gang → Gang) (j : Nat) : (apply s (Upd.gang g f)).runOf j = s.runOf j := rfl
@[simp] theorem gang_gridOf (g : Nat) (f : Gang → Gang) (j : Nat) : (apply s (Upd.gang g f)).grid j = s.grid j := rfl
@[simp] theorem gang_worldOf (g : Nat) (f : Gang → Gang) (j : Nat) : (apply s (Upd.gang g f)).world j = s.world j := rfl
@[simp] theorem gang_dieOf (g : Nat) (f : Gang → Gang) (j : Nat) : (apply s (Upd.gang g f)).die j = s.die j := rfl
@[simp] theorem gang_ringOf (g : Nat) (f : Gang → Gang) (j : Nat) : (apply s (Upd.gang g f)).ring j = s.ring j := rfl
@[simp] theorem gang_opOf (g : Nat) (f : Gang → Gang) (j : Nat) : (apply s (Upd.gang g f)).op j = s.op j := rfl
@[simp] theorem gang_subOf (g : Nat) (f : Gang → Gang) (j : Nat) : (apply s (Upd.gang g f)).sub j = s.sub j := rfl

@[simp] theorem grid_time (g : Nat) (f : Grid → Grid) : (apply s (Upd.grid g f)).time = s.time := rfl
@[simp] theorem grid_mem (g : Nat) (f : Grid → Grid) : (apply s (Upd.grid g f)).mem = s.mem := rfl
@[simp] theorem grid_tags (g : Nat) (f : Grid → Grid) : (apply s (Upd.grid g f)).tags = s.tags := rfl
@[simp] theorem grid_oldCode (g : Nat) (f : Grid → Grid) : (apply s (Upd.grid g f)).oldCode = s.oldCode := rfl
@[simp] theorem grid_l1 (g : Nat) (f : Grid → Grid) : (apply s (Upd.grid g f)).l1 = s.l1 := rfl
@[simp] theorem grid_l2 (g : Nat) (f : Grid → Grid) : (apply s (Upd.grid g f)).l2 = s.l2 := rfl
@[simp] theorem grid_reps (g : Nat) (f : Grid → Grid) : (apply s (Upd.grid g f)).reps = s.reps := rfl
@[simp] theorem grid_msgs (g : Nat) (f : Grid → Grid) : (apply s (Upd.grid g f)).msgs = s.msgs := rfl
@[simp] theorem grid_scOrder (g : Nat) (f : Grid → Grid) : (apply s (Upd.grid g f)).scOrder = s.scOrder := rfl
@[simp] theorem grid_warps (g : Nat) (f : Grid → Grid) : (apply s (Upd.grid g f)).warps = s.warps := rfl
@[simp] theorem grid_blocks (g : Nat) (f : Grid → Grid) : (apply s (Upd.grid g f)).blocks = s.blocks := rfl
@[simp] theorem grid_runs (g : Nat) (f : Grid → Grid) : (apply s (Upd.grid g f)).runs = s.runs := rfl
@[simp] theorem grid_gangs (g : Nat) (f : Grid → Grid) : (apply s (Upd.grid g f)).gangs = s.gangs := rfl
@[simp] theorem grid_grids (g : Nat) (f : Grid → Grid) : (apply s (Upd.grid g f)).grids = s.grids.put g (f (s.grid g)) := rfl
@[simp] theorem grid_worlds (g : Nat) (f : Grid → Grid) : (apply s (Upd.grid g f)).worlds = s.worlds := rfl
@[simp] theorem grid_dies (g : Nat) (f : Grid → Grid) : (apply s (Upd.grid g f)).dies = s.dies := rfl
@[simp] theorem grid_rings (g : Nat) (f : Grid → Grid) : (apply s (Upd.grid g f)).rings = s.rings := rfl
@[simp] theorem grid_ops (g : Nat) (f : Grid → Grid) : (apply s (Upd.grid g f)).ops = s.ops := rfl
@[simp] theorem grid_subs (g : Nat) (f : Grid → Grid) : (apply s (Upd.grid g f)).subs = s.subs := rfl
@[simp] theorem grid_dev (g : Nat) (f : Grid → Grid) : (apply s (Upd.grid g f)).dev = s.dev := rfl
@[simp] theorem grid_cur (g : Nat) (f : Grid → Grid) : (apply s (Upd.grid g f)).cur = s.cur := rfl
@[simp] theorem grid_turns (g : Nat) (f : Grid → Grid) : (apply s (Upd.grid g f)).turns = s.turns := rfl
@[simp] theorem grid_free (g : Nat) (f : Grid → Grid) : (apply s (Upd.grid g f)).free = s.free := rfl
@[simp] theorem grid_seqNo (g : Nat) (f : Grid → Grid) : (apply s (Upd.grid g f)).seqNo = s.seqNo := rfl
@[simp] theorem grid_warpOf (g : Nat) (f : Grid → Grid) (j : Nat) : (apply s (Upd.grid g f)).warp j = s.warp j := rfl
@[simp] theorem grid_blockOf (g : Nat) (f : Grid → Grid) (j : Nat) : (apply s (Upd.grid g f)).block j = s.block j := rfl
@[simp] theorem grid_runOf (g : Nat) (f : Grid → Grid) (j : Nat) : (apply s (Upd.grid g f)).runOf j = s.runOf j := rfl
@[simp] theorem grid_gangOf (g : Nat) (f : Grid → Grid) (j : Nat) : (apply s (Upd.grid g f)).gang j = s.gang j := rfl
@[simp] theorem grid_worldOf (g : Nat) (f : Grid → Grid) (j : Nat) : (apply s (Upd.grid g f)).world j = s.world j := rfl
@[simp] theorem grid_dieOf (g : Nat) (f : Grid → Grid) (j : Nat) : (apply s (Upd.grid g f)).die j = s.die j := rfl
@[simp] theorem grid_ringOf (g : Nat) (f : Grid → Grid) (j : Nat) : (apply s (Upd.grid g f)).ring j = s.ring j := rfl
@[simp] theorem grid_opOf (g : Nat) (f : Grid → Grid) (j : Nat) : (apply s (Upd.grid g f)).op j = s.op j := rfl
@[simp] theorem grid_subOf (g : Nat) (f : Grid → Grid) (j : Nat) : (apply s (Upd.grid g f)).sub j = s.sub j := rfl

@[simp] theorem world_time (w : Nat) (f : World → World) : (apply s (Upd.world w f)).time = s.time := rfl
@[simp] theorem world_mem (w : Nat) (f : World → World) : (apply s (Upd.world w f)).mem = s.mem := rfl
@[simp] theorem world_tags (w : Nat) (f : World → World) : (apply s (Upd.world w f)).tags = s.tags := rfl
@[simp] theorem world_oldCode (w : Nat) (f : World → World) : (apply s (Upd.world w f)).oldCode = s.oldCode := rfl
@[simp] theorem world_l1 (w : Nat) (f : World → World) : (apply s (Upd.world w f)).l1 = s.l1 := rfl
@[simp] theorem world_l2 (w : Nat) (f : World → World) : (apply s (Upd.world w f)).l2 = s.l2 := rfl
@[simp] theorem world_reps (w : Nat) (f : World → World) : (apply s (Upd.world w f)).reps = s.reps := rfl
@[simp] theorem world_msgs (w : Nat) (f : World → World) : (apply s (Upd.world w f)).msgs = s.msgs := rfl
@[simp] theorem world_scOrder (w : Nat) (f : World → World) : (apply s (Upd.world w f)).scOrder = s.scOrder := rfl
@[simp] theorem world_warps (w : Nat) (f : World → World) : (apply s (Upd.world w f)).warps = s.warps := rfl
@[simp] theorem world_blocks (w : Nat) (f : World → World) : (apply s (Upd.world w f)).blocks = s.blocks := rfl
@[simp] theorem world_runs (w : Nat) (f : World → World) : (apply s (Upd.world w f)).runs = s.runs := rfl
@[simp] theorem world_gangs (w : Nat) (f : World → World) : (apply s (Upd.world w f)).gangs = s.gangs := rfl
@[simp] theorem world_grids (w : Nat) (f : World → World) : (apply s (Upd.world w f)).grids = s.grids := rfl
@[simp] theorem world_worlds (w : Nat) (f : World → World) : (apply s (Upd.world w f)).worlds = s.worlds.put w (f (s.world w)) := rfl
@[simp] theorem world_dies (w : Nat) (f : World → World) : (apply s (Upd.world w f)).dies = s.dies := rfl
@[simp] theorem world_rings (w : Nat) (f : World → World) : (apply s (Upd.world w f)).rings = s.rings := rfl
@[simp] theorem world_ops (w : Nat) (f : World → World) : (apply s (Upd.world w f)).ops = s.ops := rfl
@[simp] theorem world_subs (w : Nat) (f : World → World) : (apply s (Upd.world w f)).subs = s.subs := rfl
@[simp] theorem world_dev (w : Nat) (f : World → World) : (apply s (Upd.world w f)).dev = s.dev := rfl
@[simp] theorem world_cur (w : Nat) (f : World → World) : (apply s (Upd.world w f)).cur = s.cur := rfl
@[simp] theorem world_turns (w : Nat) (f : World → World) : (apply s (Upd.world w f)).turns = s.turns := rfl
@[simp] theorem world_free (w : Nat) (f : World → World) : (apply s (Upd.world w f)).free = s.free := rfl
@[simp] theorem world_seqNo (w : Nat) (f : World → World) : (apply s (Upd.world w f)).seqNo = s.seqNo := rfl
@[simp] theorem world_warpOf (w : Nat) (f : World → World) (j : Nat) : (apply s (Upd.world w f)).warp j = s.warp j := rfl
@[simp] theorem world_blockOf (w : Nat) (f : World → World) (j : Nat) : (apply s (Upd.world w f)).block j = s.block j := rfl
@[simp] theorem world_runOf (w : Nat) (f : World → World) (j : Nat) : (apply s (Upd.world w f)).runOf j = s.runOf j := rfl
@[simp] theorem world_gangOf (w : Nat) (f : World → World) (j : Nat) : (apply s (Upd.world w f)).gang j = s.gang j := rfl
@[simp] theorem world_gridOf (w : Nat) (f : World → World) (j : Nat) : (apply s (Upd.world w f)).grid j = s.grid j := rfl
@[simp] theorem world_dieOf (w : Nat) (f : World → World) (j : Nat) : (apply s (Upd.world w f)).die j = s.die j := rfl
@[simp] theorem world_ringOf (w : Nat) (f : World → World) (j : Nat) : (apply s (Upd.world w f)).ring j = s.ring j := rfl
@[simp] theorem world_opOf (w : Nat) (f : World → World) (j : Nat) : (apply s (Upd.world w f)).op j = s.op j := rfl
@[simp] theorem world_subOf (w : Nat) (f : World → World) (j : Nat) : (apply s (Upd.world w f)).sub j = s.sub j := rfl

@[simp] theorem die_time (d : Nat) (f : Die → Die) : (apply s (Upd.die d f)).time = s.time := rfl
@[simp] theorem die_mem (d : Nat) (f : Die → Die) : (apply s (Upd.die d f)).mem = s.mem := rfl
@[simp] theorem die_tags (d : Nat) (f : Die → Die) : (apply s (Upd.die d f)).tags = s.tags := rfl
@[simp] theorem die_oldCode (d : Nat) (f : Die → Die) : (apply s (Upd.die d f)).oldCode = s.oldCode := rfl
@[simp] theorem die_l1 (d : Nat) (f : Die → Die) : (apply s (Upd.die d f)).l1 = s.l1 := rfl
@[simp] theorem die_l2 (d : Nat) (f : Die → Die) : (apply s (Upd.die d f)).l2 = s.l2 := rfl
@[simp] theorem die_reps (d : Nat) (f : Die → Die) : (apply s (Upd.die d f)).reps = s.reps := rfl
@[simp] theorem die_msgs (d : Nat) (f : Die → Die) : (apply s (Upd.die d f)).msgs = s.msgs := rfl
@[simp] theorem die_scOrder (d : Nat) (f : Die → Die) : (apply s (Upd.die d f)).scOrder = s.scOrder := rfl
@[simp] theorem die_warps (d : Nat) (f : Die → Die) : (apply s (Upd.die d f)).warps = s.warps := rfl
@[simp] theorem die_blocks (d : Nat) (f : Die → Die) : (apply s (Upd.die d f)).blocks = s.blocks := rfl
@[simp] theorem die_runs (d : Nat) (f : Die → Die) : (apply s (Upd.die d f)).runs = s.runs := rfl
@[simp] theorem die_gangs (d : Nat) (f : Die → Die) : (apply s (Upd.die d f)).gangs = s.gangs := rfl
@[simp] theorem die_grids (d : Nat) (f : Die → Die) : (apply s (Upd.die d f)).grids = s.grids := rfl
@[simp] theorem die_worlds (d : Nat) (f : Die → Die) : (apply s (Upd.die d f)).worlds = s.worlds := rfl
@[simp] theorem die_dies (d : Nat) (f : Die → Die) : (apply s (Upd.die d f)).dies = s.dies.put d (f (s.die d)) := rfl
@[simp] theorem die_rings (d : Nat) (f : Die → Die) : (apply s (Upd.die d f)).rings = s.rings := rfl
@[simp] theorem die_ops (d : Nat) (f : Die → Die) : (apply s (Upd.die d f)).ops = s.ops := rfl
@[simp] theorem die_subs (d : Nat) (f : Die → Die) : (apply s (Upd.die d f)).subs = s.subs := rfl
@[simp] theorem die_dev (d : Nat) (f : Die → Die) : (apply s (Upd.die d f)).dev = s.dev := rfl
@[simp] theorem die_cur (d : Nat) (f : Die → Die) : (apply s (Upd.die d f)).cur = s.cur := rfl
@[simp] theorem die_turns (d : Nat) (f : Die → Die) : (apply s (Upd.die d f)).turns = s.turns := rfl
@[simp] theorem die_free (d : Nat) (f : Die → Die) : (apply s (Upd.die d f)).free = s.free := rfl
@[simp] theorem die_seqNo (d : Nat) (f : Die → Die) : (apply s (Upd.die d f)).seqNo = s.seqNo := rfl
@[simp] theorem die_warpOf (d : Nat) (f : Die → Die) (j : Nat) : (apply s (Upd.die d f)).warp j = s.warp j := rfl
@[simp] theorem die_blockOf (d : Nat) (f : Die → Die) (j : Nat) : (apply s (Upd.die d f)).block j = s.block j := rfl
@[simp] theorem die_runOf (d : Nat) (f : Die → Die) (j : Nat) : (apply s (Upd.die d f)).runOf j = s.runOf j := rfl
@[simp] theorem die_gangOf (d : Nat) (f : Die → Die) (j : Nat) : (apply s (Upd.die d f)).gang j = s.gang j := rfl
@[simp] theorem die_gridOf (d : Nat) (f : Die → Die) (j : Nat) : (apply s (Upd.die d f)).grid j = s.grid j := rfl
@[simp] theorem die_worldOf (d : Nat) (f : Die → Die) (j : Nat) : (apply s (Upd.die d f)).world j = s.world j := rfl
@[simp] theorem die_ringOf (d : Nat) (f : Die → Die) (j : Nat) : (apply s (Upd.die d f)).ring j = s.ring j := rfl
@[simp] theorem die_opOf (d : Nat) (f : Die → Die) (j : Nat) : (apply s (Upd.die d f)).op j = s.op j := rfl
@[simp] theorem die_subOf (d : Nat) (f : Die → Die) (j : Nat) : (apply s (Upd.die d f)).sub j = s.sub j := rfl

@[simp] theorem ring_time (c : Nat) (f : Ring → Ring) : (apply s (Upd.ring c f)).time = s.time := rfl
@[simp] theorem ring_mem (c : Nat) (f : Ring → Ring) : (apply s (Upd.ring c f)).mem = s.mem := rfl
@[simp] theorem ring_tags (c : Nat) (f : Ring → Ring) : (apply s (Upd.ring c f)).tags = s.tags := rfl
@[simp] theorem ring_oldCode (c : Nat) (f : Ring → Ring) : (apply s (Upd.ring c f)).oldCode = s.oldCode := rfl
@[simp] theorem ring_l1 (c : Nat) (f : Ring → Ring) : (apply s (Upd.ring c f)).l1 = s.l1 := rfl
@[simp] theorem ring_l2 (c : Nat) (f : Ring → Ring) : (apply s (Upd.ring c f)).l2 = s.l2 := rfl
@[simp] theorem ring_reps (c : Nat) (f : Ring → Ring) : (apply s (Upd.ring c f)).reps = s.reps := rfl
@[simp] theorem ring_msgs (c : Nat) (f : Ring → Ring) : (apply s (Upd.ring c f)).msgs = s.msgs := rfl
@[simp] theorem ring_scOrder (c : Nat) (f : Ring → Ring) : (apply s (Upd.ring c f)).scOrder = s.scOrder := rfl
@[simp] theorem ring_warps (c : Nat) (f : Ring → Ring) : (apply s (Upd.ring c f)).warps = s.warps := rfl
@[simp] theorem ring_blocks (c : Nat) (f : Ring → Ring) : (apply s (Upd.ring c f)).blocks = s.blocks := rfl
@[simp] theorem ring_runs (c : Nat) (f : Ring → Ring) : (apply s (Upd.ring c f)).runs = s.runs := rfl
@[simp] theorem ring_gangs (c : Nat) (f : Ring → Ring) : (apply s (Upd.ring c f)).gangs = s.gangs := rfl
@[simp] theorem ring_grids (c : Nat) (f : Ring → Ring) : (apply s (Upd.ring c f)).grids = s.grids := rfl
@[simp] theorem ring_worlds (c : Nat) (f : Ring → Ring) : (apply s (Upd.ring c f)).worlds = s.worlds := rfl
@[simp] theorem ring_dies (c : Nat) (f : Ring → Ring) : (apply s (Upd.ring c f)).dies = s.dies := rfl
@[simp] theorem ring_rings (c : Nat) (f : Ring → Ring) : (apply s (Upd.ring c f)).rings = s.rings.put c (f (s.ring c)) := rfl
@[simp] theorem ring_ops (c : Nat) (f : Ring → Ring) : (apply s (Upd.ring c f)).ops = s.ops := rfl
@[simp] theorem ring_subs (c : Nat) (f : Ring → Ring) : (apply s (Upd.ring c f)).subs = s.subs := rfl
@[simp] theorem ring_dev (c : Nat) (f : Ring → Ring) : (apply s (Upd.ring c f)).dev = s.dev := rfl
@[simp] theorem ring_cur (c : Nat) (f : Ring → Ring) : (apply s (Upd.ring c f)).cur = s.cur := rfl
@[simp] theorem ring_turns (c : Nat) (f : Ring → Ring) : (apply s (Upd.ring c f)).turns = s.turns := rfl
@[simp] theorem ring_free (c : Nat) (f : Ring → Ring) : (apply s (Upd.ring c f)).free = s.free := rfl
@[simp] theorem ring_seqNo (c : Nat) (f : Ring → Ring) : (apply s (Upd.ring c f)).seqNo = s.seqNo := rfl
@[simp] theorem ring_warpOf (c : Nat) (f : Ring → Ring) (j : Nat) : (apply s (Upd.ring c f)).warp j = s.warp j := rfl
@[simp] theorem ring_blockOf (c : Nat) (f : Ring → Ring) (j : Nat) : (apply s (Upd.ring c f)).block j = s.block j := rfl
@[simp] theorem ring_runOf (c : Nat) (f : Ring → Ring) (j : Nat) : (apply s (Upd.ring c f)).runOf j = s.runOf j := rfl
@[simp] theorem ring_gangOf (c : Nat) (f : Ring → Ring) (j : Nat) : (apply s (Upd.ring c f)).gang j = s.gang j := rfl
@[simp] theorem ring_gridOf (c : Nat) (f : Ring → Ring) (j : Nat) : (apply s (Upd.ring c f)).grid j = s.grid j := rfl
@[simp] theorem ring_worldOf (c : Nat) (f : Ring → Ring) (j : Nat) : (apply s (Upd.ring c f)).world j = s.world j := rfl
@[simp] theorem ring_dieOf (c : Nat) (f : Ring → Ring) (j : Nat) : (apply s (Upd.ring c f)).die j = s.die j := rfl
@[simp] theorem ring_opOf (c : Nat) (f : Ring → Ring) (j : Nat) : (apply s (Upd.ring c f)).op j = s.op j := rfl
@[simp] theorem ring_subOf (c : Nat) (f : Ring → Ring) (j : Nat) : (apply s (Upd.ring c f)).sub j = s.sub j := rfl

@[simp] theorem op_time (k : Nat) (f : Op → Op) : (apply s (Upd.op k f)).time = s.time := rfl
@[simp] theorem op_mem (k : Nat) (f : Op → Op) : (apply s (Upd.op k f)).mem = s.mem := rfl
@[simp] theorem op_tags (k : Nat) (f : Op → Op) : (apply s (Upd.op k f)).tags = s.tags := rfl
@[simp] theorem op_oldCode (k : Nat) (f : Op → Op) : (apply s (Upd.op k f)).oldCode = s.oldCode := rfl
@[simp] theorem op_l1 (k : Nat) (f : Op → Op) : (apply s (Upd.op k f)).l1 = s.l1 := rfl
@[simp] theorem op_l2 (k : Nat) (f : Op → Op) : (apply s (Upd.op k f)).l2 = s.l2 := rfl
@[simp] theorem op_reps (k : Nat) (f : Op → Op) : (apply s (Upd.op k f)).reps = s.reps := rfl
@[simp] theorem op_msgs (k : Nat) (f : Op → Op) : (apply s (Upd.op k f)).msgs = s.msgs := rfl
@[simp] theorem op_scOrder (k : Nat) (f : Op → Op) : (apply s (Upd.op k f)).scOrder = s.scOrder := rfl
@[simp] theorem op_warps (k : Nat) (f : Op → Op) : (apply s (Upd.op k f)).warps = s.warps := rfl
@[simp] theorem op_blocks (k : Nat) (f : Op → Op) : (apply s (Upd.op k f)).blocks = s.blocks := rfl
@[simp] theorem op_runs (k : Nat) (f : Op → Op) : (apply s (Upd.op k f)).runs = s.runs := rfl
@[simp] theorem op_gangs (k : Nat) (f : Op → Op) : (apply s (Upd.op k f)).gangs = s.gangs := rfl
@[simp] theorem op_grids (k : Nat) (f : Op → Op) : (apply s (Upd.op k f)).grids = s.grids := rfl
@[simp] theorem op_worlds (k : Nat) (f : Op → Op) : (apply s (Upd.op k f)).worlds = s.worlds := rfl
@[simp] theorem op_dies (k : Nat) (f : Op → Op) : (apply s (Upd.op k f)).dies = s.dies := rfl
@[simp] theorem op_rings (k : Nat) (f : Op → Op) : (apply s (Upd.op k f)).rings = s.rings := rfl
@[simp] theorem op_ops (k : Nat) (f : Op → Op) : (apply s (Upd.op k f)).ops = s.ops.put k (f (s.op k)) := rfl
@[simp] theorem op_subs (k : Nat) (f : Op → Op) : (apply s (Upd.op k f)).subs = s.subs := rfl
@[simp] theorem op_dev (k : Nat) (f : Op → Op) : (apply s (Upd.op k f)).dev = s.dev := rfl
@[simp] theorem op_cur (k : Nat) (f : Op → Op) : (apply s (Upd.op k f)).cur = s.cur := rfl
@[simp] theorem op_turns (k : Nat) (f : Op → Op) : (apply s (Upd.op k f)).turns = s.turns := rfl
@[simp] theorem op_free (k : Nat) (f : Op → Op) : (apply s (Upd.op k f)).free = s.free := rfl
@[simp] theorem op_seqNo (k : Nat) (f : Op → Op) : (apply s (Upd.op k f)).seqNo = s.seqNo := rfl
@[simp] theorem op_warpOf (k : Nat) (f : Op → Op) (j : Nat) : (apply s (Upd.op k f)).warp j = s.warp j := rfl
@[simp] theorem op_blockOf (k : Nat) (f : Op → Op) (j : Nat) : (apply s (Upd.op k f)).block j = s.block j := rfl
@[simp] theorem op_runOf (k : Nat) (f : Op → Op) (j : Nat) : (apply s (Upd.op k f)).runOf j = s.runOf j := rfl
@[simp] theorem op_gangOf (k : Nat) (f : Op → Op) (j : Nat) : (apply s (Upd.op k f)).gang j = s.gang j := rfl
@[simp] theorem op_gridOf (k : Nat) (f : Op → Op) (j : Nat) : (apply s (Upd.op k f)).grid j = s.grid j := rfl
@[simp] theorem op_worldOf (k : Nat) (f : Op → Op) (j : Nat) : (apply s (Upd.op k f)).world j = s.world j := rfl
@[simp] theorem op_dieOf (k : Nat) (f : Op → Op) (j : Nat) : (apply s (Upd.op k f)).die j = s.die j := rfl
@[simp] theorem op_ringOf (k : Nat) (f : Op → Op) (j : Nat) : (apply s (Upd.op k f)).ring j = s.ring j := rfl
@[simp] theorem op_subOf (k : Nat) (f : Op → Op) (j : Nat) : (apply s (Upd.op k f)).sub j = s.sub j := rfl

@[simp] theorem opDrop_time (k : Nat) : (apply s (Upd.opDrop k)).time = s.time := rfl
@[simp] theorem opDrop_mem (k : Nat) : (apply s (Upd.opDrop k)).mem = s.mem := rfl
@[simp] theorem opDrop_tags (k : Nat) : (apply s (Upd.opDrop k)).tags = s.tags := rfl
@[simp] theorem opDrop_oldCode (k : Nat) : (apply s (Upd.opDrop k)).oldCode = s.oldCode := rfl
@[simp] theorem opDrop_l1 (k : Nat) : (apply s (Upd.opDrop k)).l1 = s.l1 := rfl
@[simp] theorem opDrop_l2 (k : Nat) : (apply s (Upd.opDrop k)).l2 = s.l2 := rfl
@[simp] theorem opDrop_reps (k : Nat) : (apply s (Upd.opDrop k)).reps = s.reps := rfl
@[simp] theorem opDrop_msgs (k : Nat) : (apply s (Upd.opDrop k)).msgs = s.msgs := rfl
@[simp] theorem opDrop_scOrder (k : Nat) : (apply s (Upd.opDrop k)).scOrder = s.scOrder := rfl
@[simp] theorem opDrop_warps (k : Nat) : (apply s (Upd.opDrop k)).warps = s.warps := rfl
@[simp] theorem opDrop_blocks (k : Nat) : (apply s (Upd.opDrop k)).blocks = s.blocks := rfl
@[simp] theorem opDrop_runs (k : Nat) : (apply s (Upd.opDrop k)).runs = s.runs := rfl
@[simp] theorem opDrop_gangs (k : Nat) : (apply s (Upd.opDrop k)).gangs = s.gangs := rfl
@[simp] theorem opDrop_grids (k : Nat) : (apply s (Upd.opDrop k)).grids = s.grids := rfl
@[simp] theorem opDrop_worlds (k : Nat) : (apply s (Upd.opDrop k)).worlds = s.worlds := rfl
@[simp] theorem opDrop_dies (k : Nat) : (apply s (Upd.opDrop k)).dies = s.dies := rfl
@[simp] theorem opDrop_rings (k : Nat) : (apply s (Upd.opDrop k)).rings = s.rings := rfl
@[simp] theorem opDrop_ops (k : Nat) : (apply s (Upd.opDrop k)).ops = Tab.drop s.ops k := rfl
@[simp] theorem opDrop_subs (k : Nat) : (apply s (Upd.opDrop k)).subs = s.subs := rfl
@[simp] theorem opDrop_dev (k : Nat) : (apply s (Upd.opDrop k)).dev = s.dev := rfl
@[simp] theorem opDrop_cur (k : Nat) : (apply s (Upd.opDrop k)).cur = s.cur := rfl
@[simp] theorem opDrop_turns (k : Nat) : (apply s (Upd.opDrop k)).turns = s.turns := rfl
@[simp] theorem opDrop_free (k : Nat) : (apply s (Upd.opDrop k)).free = s.free := rfl
@[simp] theorem opDrop_seqNo (k : Nat) : (apply s (Upd.opDrop k)).seqNo = s.seqNo := rfl
@[simp] theorem opDrop_warpOf (k : Nat) (j : Nat) : (apply s (Upd.opDrop k)).warp j = s.warp j := rfl
@[simp] theorem opDrop_blockOf (k : Nat) (j : Nat) : (apply s (Upd.opDrop k)).block j = s.block j := rfl
@[simp] theorem opDrop_runOf (k : Nat) (j : Nat) : (apply s (Upd.opDrop k)).runOf j = s.runOf j := rfl
@[simp] theorem opDrop_gangOf (k : Nat) (j : Nat) : (apply s (Upd.opDrop k)).gang j = s.gang j := rfl
@[simp] theorem opDrop_gridOf (k : Nat) (j : Nat) : (apply s (Upd.opDrop k)).grid j = s.grid j := rfl
@[simp] theorem opDrop_worldOf (k : Nat) (j : Nat) : (apply s (Upd.opDrop k)).world j = s.world j := rfl
@[simp] theorem opDrop_dieOf (k : Nat) (j : Nat) : (apply s (Upd.opDrop k)).die j = s.die j := rfl
@[simp] theorem opDrop_ringOf (k : Nat) (j : Nat) : (apply s (Upd.opDrop k)).ring j = s.ring j := rfl
@[simp] theorem opDrop_subOf (k : Nat) (j : Nat) : (apply s (Upd.opDrop k)).sub j = s.sub j := rfl

@[simp] theorem sub_time (k : Nat) (f : Sub → Sub) : (apply s (Upd.sub k f)).time = s.time := rfl
@[simp] theorem sub_mem (k : Nat) (f : Sub → Sub) : (apply s (Upd.sub k f)).mem = s.mem := rfl
@[simp] theorem sub_tags (k : Nat) (f : Sub → Sub) : (apply s (Upd.sub k f)).tags = s.tags := rfl
@[simp] theorem sub_oldCode (k : Nat) (f : Sub → Sub) : (apply s (Upd.sub k f)).oldCode = s.oldCode := rfl
@[simp] theorem sub_l1 (k : Nat) (f : Sub → Sub) : (apply s (Upd.sub k f)).l1 = s.l1 := rfl
@[simp] theorem sub_l2 (k : Nat) (f : Sub → Sub) : (apply s (Upd.sub k f)).l2 = s.l2 := rfl
@[simp] theorem sub_reps (k : Nat) (f : Sub → Sub) : (apply s (Upd.sub k f)).reps = s.reps := rfl
@[simp] theorem sub_msgs (k : Nat) (f : Sub → Sub) : (apply s (Upd.sub k f)).msgs = s.msgs := rfl
@[simp] theorem sub_scOrder (k : Nat) (f : Sub → Sub) : (apply s (Upd.sub k f)).scOrder = s.scOrder := rfl
@[simp] theorem sub_warps (k : Nat) (f : Sub → Sub) : (apply s (Upd.sub k f)).warps = s.warps := rfl
@[simp] theorem sub_blocks (k : Nat) (f : Sub → Sub) : (apply s (Upd.sub k f)).blocks = s.blocks := rfl
@[simp] theorem sub_runs (k : Nat) (f : Sub → Sub) : (apply s (Upd.sub k f)).runs = s.runs := rfl
@[simp] theorem sub_gangs (k : Nat) (f : Sub → Sub) : (apply s (Upd.sub k f)).gangs = s.gangs := rfl
@[simp] theorem sub_grids (k : Nat) (f : Sub → Sub) : (apply s (Upd.sub k f)).grids = s.grids := rfl
@[simp] theorem sub_worlds (k : Nat) (f : Sub → Sub) : (apply s (Upd.sub k f)).worlds = s.worlds := rfl
@[simp] theorem sub_dies (k : Nat) (f : Sub → Sub) : (apply s (Upd.sub k f)).dies = s.dies := rfl
@[simp] theorem sub_rings (k : Nat) (f : Sub → Sub) : (apply s (Upd.sub k f)).rings = s.rings := rfl
@[simp] theorem sub_ops (k : Nat) (f : Sub → Sub) : (apply s (Upd.sub k f)).ops = s.ops := rfl
@[simp] theorem sub_subs (k : Nat) (f : Sub → Sub) : (apply s (Upd.sub k f)).subs = s.subs.put k (f (s.sub k)) := rfl
@[simp] theorem sub_dev (k : Nat) (f : Sub → Sub) : (apply s (Upd.sub k f)).dev = s.dev := rfl
@[simp] theorem sub_cur (k : Nat) (f : Sub → Sub) : (apply s (Upd.sub k f)).cur = s.cur := rfl
@[simp] theorem sub_turns (k : Nat) (f : Sub → Sub) : (apply s (Upd.sub k f)).turns = s.turns := rfl
@[simp] theorem sub_free (k : Nat) (f : Sub → Sub) : (apply s (Upd.sub k f)).free = s.free := rfl
@[simp] theorem sub_seqNo (k : Nat) (f : Sub → Sub) : (apply s (Upd.sub k f)).seqNo = s.seqNo := rfl
@[simp] theorem sub_warpOf (k : Nat) (f : Sub → Sub) (j : Nat) : (apply s (Upd.sub k f)).warp j = s.warp j := rfl
@[simp] theorem sub_blockOf (k : Nat) (f : Sub → Sub) (j : Nat) : (apply s (Upd.sub k f)).block j = s.block j := rfl
@[simp] theorem sub_runOf (k : Nat) (f : Sub → Sub) (j : Nat) : (apply s (Upd.sub k f)).runOf j = s.runOf j := rfl
@[simp] theorem sub_gangOf (k : Nat) (f : Sub → Sub) (j : Nat) : (apply s (Upd.sub k f)).gang j = s.gang j := rfl
@[simp] theorem sub_gridOf (k : Nat) (f : Sub → Sub) (j : Nat) : (apply s (Upd.sub k f)).grid j = s.grid j := rfl
@[simp] theorem sub_worldOf (k : Nat) (f : Sub → Sub) (j : Nat) : (apply s (Upd.sub k f)).world j = s.world j := rfl
@[simp] theorem sub_dieOf (k : Nat) (f : Sub → Sub) (j : Nat) : (apply s (Upd.sub k f)).die j = s.die j := rfl
@[simp] theorem sub_ringOf (k : Nat) (f : Sub → Sub) (j : Nat) : (apply s (Upd.sub k f)).ring j = s.ring j := rfl
@[simp] theorem sub_opOf (k : Nat) (f : Sub → Sub) (j : Nat) : (apply s (Upd.sub k f)).op j = s.op j := rfl

@[simp] theorem subDrop_time (k : Nat) : (apply s (Upd.subDrop k)).time = s.time := rfl
@[simp] theorem subDrop_mem (k : Nat) : (apply s (Upd.subDrop k)).mem = s.mem := rfl
@[simp] theorem subDrop_tags (k : Nat) : (apply s (Upd.subDrop k)).tags = s.tags := rfl
@[simp] theorem subDrop_oldCode (k : Nat) : (apply s (Upd.subDrop k)).oldCode = s.oldCode := rfl
@[simp] theorem subDrop_l1 (k : Nat) : (apply s (Upd.subDrop k)).l1 = s.l1 := rfl
@[simp] theorem subDrop_l2 (k : Nat) : (apply s (Upd.subDrop k)).l2 = s.l2 := rfl
@[simp] theorem subDrop_reps (k : Nat) : (apply s (Upd.subDrop k)).reps = s.reps := rfl
@[simp] theorem subDrop_msgs (k : Nat) : (apply s (Upd.subDrop k)).msgs = s.msgs := rfl
@[simp] theorem subDrop_scOrder (k : Nat) : (apply s (Upd.subDrop k)).scOrder = s.scOrder := rfl
@[simp] theorem subDrop_warps (k : Nat) : (apply s (Upd.subDrop k)).warps = s.warps := rfl
@[simp] theorem subDrop_blocks (k : Nat) : (apply s (Upd.subDrop k)).blocks = s.blocks := rfl
@[simp] theorem subDrop_runs (k : Nat) : (apply s (Upd.subDrop k)).runs = s.runs := rfl
@[simp] theorem subDrop_gangs (k : Nat) : (apply s (Upd.subDrop k)).gangs = s.gangs := rfl
@[simp] theorem subDrop_grids (k : Nat) : (apply s (Upd.subDrop k)).grids = s.grids := rfl
@[simp] theorem subDrop_worlds (k : Nat) : (apply s (Upd.subDrop k)).worlds = s.worlds := rfl
@[simp] theorem subDrop_dies (k : Nat) : (apply s (Upd.subDrop k)).dies = s.dies := rfl
@[simp] theorem subDrop_rings (k : Nat) : (apply s (Upd.subDrop k)).rings = s.rings := rfl
@[simp] theorem subDrop_ops (k : Nat) : (apply s (Upd.subDrop k)).ops = s.ops := rfl
@[simp] theorem subDrop_subs (k : Nat) : (apply s (Upd.subDrop k)).subs = Tab.drop s.subs k := rfl
@[simp] theorem subDrop_dev (k : Nat) : (apply s (Upd.subDrop k)).dev = s.dev := rfl
@[simp] theorem subDrop_cur (k : Nat) : (apply s (Upd.subDrop k)).cur = s.cur := rfl
@[simp] theorem subDrop_turns (k : Nat) : (apply s (Upd.subDrop k)).turns = s.turns := rfl
@[simp] theorem subDrop_free (k : Nat) : (apply s (Upd.subDrop k)).free = s.free := rfl
@[simp] theorem subDrop_seqNo (k : Nat) : (apply s (Upd.subDrop k)).seqNo = s.seqNo := rfl
@[simp] theorem subDrop_warpOf (k : Nat) (j : Nat) : (apply s (Upd.subDrop k)).warp j = s.warp j := rfl
@[simp] theorem subDrop_blockOf (k : Nat) (j : Nat) : (apply s (Upd.subDrop k)).block j = s.block j := rfl
@[simp] theorem subDrop_runOf (k : Nat) (j : Nat) : (apply s (Upd.subDrop k)).runOf j = s.runOf j := rfl
@[simp] theorem subDrop_gangOf (k : Nat) (j : Nat) : (apply s (Upd.subDrop k)).gang j = s.gang j := rfl
@[simp] theorem subDrop_gridOf (k : Nat) (j : Nat) : (apply s (Upd.subDrop k)).grid j = s.grid j := rfl
@[simp] theorem subDrop_worldOf (k : Nat) (j : Nat) : (apply s (Upd.subDrop k)).world j = s.world j := rfl
@[simp] theorem subDrop_dieOf (k : Nat) (j : Nat) : (apply s (Upd.subDrop k)).die j = s.die j := rfl
@[simp] theorem subDrop_ringOf (k : Nat) (j : Nat) : (apply s (Upd.subDrop k)).ring j = s.ring j := rfl
@[simp] theorem subDrop_opOf (k : Nat) (j : Nat) : (apply s (Upd.subDrop k)).op j = s.op j := rfl

@[simp] theorem l1_time (f : Tab L1Line → Tab L1Line) : (apply s (Upd.l1 f)).time = s.time := rfl
@[simp] theorem l1_mem (f : Tab L1Line → Tab L1Line) : (apply s (Upd.l1 f)).mem = s.mem := rfl
@[simp] theorem l1_tags (f : Tab L1Line → Tab L1Line) : (apply s (Upd.l1 f)).tags = s.tags := rfl
@[simp] theorem l1_oldCode (f : Tab L1Line → Tab L1Line) : (apply s (Upd.l1 f)).oldCode = s.oldCode := rfl
@[simp] theorem l1_l1 (f : Tab L1Line → Tab L1Line) : (apply s (Upd.l1 f)).l1 = f s.l1 := rfl
@[simp] theorem l1_l2 (f : Tab L1Line → Tab L1Line) : (apply s (Upd.l1 f)).l2 = s.l2 := rfl
@[simp] theorem l1_reps (f : Tab L1Line → Tab L1Line) : (apply s (Upd.l1 f)).reps = s.reps := rfl
@[simp] theorem l1_msgs (f : Tab L1Line → Tab L1Line) : (apply s (Upd.l1 f)).msgs = s.msgs := rfl
@[simp] theorem l1_scOrder (f : Tab L1Line → Tab L1Line) : (apply s (Upd.l1 f)).scOrder = s.scOrder := rfl
@[simp] theorem l1_warps (f : Tab L1Line → Tab L1Line) : (apply s (Upd.l1 f)).warps = s.warps := rfl
@[simp] theorem l1_blocks (f : Tab L1Line → Tab L1Line) : (apply s (Upd.l1 f)).blocks = s.blocks := rfl
@[simp] theorem l1_runs (f : Tab L1Line → Tab L1Line) : (apply s (Upd.l1 f)).runs = s.runs := rfl
@[simp] theorem l1_gangs (f : Tab L1Line → Tab L1Line) : (apply s (Upd.l1 f)).gangs = s.gangs := rfl
@[simp] theorem l1_grids (f : Tab L1Line → Tab L1Line) : (apply s (Upd.l1 f)).grids = s.grids := rfl
@[simp] theorem l1_worlds (f : Tab L1Line → Tab L1Line) : (apply s (Upd.l1 f)).worlds = s.worlds := rfl
@[simp] theorem l1_dies (f : Tab L1Line → Tab L1Line) : (apply s (Upd.l1 f)).dies = s.dies := rfl
@[simp] theorem l1_rings (f : Tab L1Line → Tab L1Line) : (apply s (Upd.l1 f)).rings = s.rings := rfl
@[simp] theorem l1_ops (f : Tab L1Line → Tab L1Line) : (apply s (Upd.l1 f)).ops = s.ops := rfl
@[simp] theorem l1_subs (f : Tab L1Line → Tab L1Line) : (apply s (Upd.l1 f)).subs = s.subs := rfl
@[simp] theorem l1_dev (f : Tab L1Line → Tab L1Line) : (apply s (Upd.l1 f)).dev = s.dev := rfl
@[simp] theorem l1_cur (f : Tab L1Line → Tab L1Line) : (apply s (Upd.l1 f)).cur = s.cur := rfl
@[simp] theorem l1_turns (f : Tab L1Line → Tab L1Line) : (apply s (Upd.l1 f)).turns = s.turns := rfl
@[simp] theorem l1_free (f : Tab L1Line → Tab L1Line) : (apply s (Upd.l1 f)).free = s.free := rfl
@[simp] theorem l1_seqNo (f : Tab L1Line → Tab L1Line) : (apply s (Upd.l1 f)).seqNo = s.seqNo := rfl
@[simp] theorem l1_warpOf (f : Tab L1Line → Tab L1Line) (j : Nat) : (apply s (Upd.l1 f)).warp j = s.warp j := rfl
@[simp] theorem l1_blockOf (f : Tab L1Line → Tab L1Line) (j : Nat) : (apply s (Upd.l1 f)).block j = s.block j := rfl
@[simp] theorem l1_runOf (f : Tab L1Line → Tab L1Line) (j : Nat) : (apply s (Upd.l1 f)).runOf j = s.runOf j := rfl
@[simp] theorem l1_gangOf (f : Tab L1Line → Tab L1Line) (j : Nat) : (apply s (Upd.l1 f)).gang j = s.gang j := rfl
@[simp] theorem l1_gridOf (f : Tab L1Line → Tab L1Line) (j : Nat) : (apply s (Upd.l1 f)).grid j = s.grid j := rfl
@[simp] theorem l1_worldOf (f : Tab L1Line → Tab L1Line) (j : Nat) : (apply s (Upd.l1 f)).world j = s.world j := rfl
@[simp] theorem l1_dieOf (f : Tab L1Line → Tab L1Line) (j : Nat) : (apply s (Upd.l1 f)).die j = s.die j := rfl
@[simp] theorem l1_ringOf (f : Tab L1Line → Tab L1Line) (j : Nat) : (apply s (Upd.l1 f)).ring j = s.ring j := rfl
@[simp] theorem l1_opOf (f : Tab L1Line → Tab L1Line) (j : Nat) : (apply s (Upd.l1 f)).op j = s.op j := rfl
@[simp] theorem l1_subOf (f : Tab L1Line → Tab L1Line) (j : Nat) : (apply s (Upd.l1 f)).sub j = s.sub j := rfl

@[simp] theorem l2_time (f : Tab L2Line → Tab L2Line) : (apply s (Upd.l2 f)).time = s.time := rfl
@[simp] theorem l2_mem (f : Tab L2Line → Tab L2Line) : (apply s (Upd.l2 f)).mem = s.mem := rfl
@[simp] theorem l2_tags (f : Tab L2Line → Tab L2Line) : (apply s (Upd.l2 f)).tags = s.tags := rfl
@[simp] theorem l2_oldCode (f : Tab L2Line → Tab L2Line) : (apply s (Upd.l2 f)).oldCode = s.oldCode := rfl
@[simp] theorem l2_l1 (f : Tab L2Line → Tab L2Line) : (apply s (Upd.l2 f)).l1 = s.l1 := rfl
@[simp] theorem l2_l2 (f : Tab L2Line → Tab L2Line) : (apply s (Upd.l2 f)).l2 = f s.l2 := rfl
@[simp] theorem l2_reps (f : Tab L2Line → Tab L2Line) : (apply s (Upd.l2 f)).reps = s.reps := rfl
@[simp] theorem l2_msgs (f : Tab L2Line → Tab L2Line) : (apply s (Upd.l2 f)).msgs = s.msgs := rfl
@[simp] theorem l2_scOrder (f : Tab L2Line → Tab L2Line) : (apply s (Upd.l2 f)).scOrder = s.scOrder := rfl
@[simp] theorem l2_warps (f : Tab L2Line → Tab L2Line) : (apply s (Upd.l2 f)).warps = s.warps := rfl
@[simp] theorem l2_blocks (f : Tab L2Line → Tab L2Line) : (apply s (Upd.l2 f)).blocks = s.blocks := rfl
@[simp] theorem l2_runs (f : Tab L2Line → Tab L2Line) : (apply s (Upd.l2 f)).runs = s.runs := rfl
@[simp] theorem l2_gangs (f : Tab L2Line → Tab L2Line) : (apply s (Upd.l2 f)).gangs = s.gangs := rfl
@[simp] theorem l2_grids (f : Tab L2Line → Tab L2Line) : (apply s (Upd.l2 f)).grids = s.grids := rfl
@[simp] theorem l2_worlds (f : Tab L2Line → Tab L2Line) : (apply s (Upd.l2 f)).worlds = s.worlds := rfl
@[simp] theorem l2_dies (f : Tab L2Line → Tab L2Line) : (apply s (Upd.l2 f)).dies = s.dies := rfl
@[simp] theorem l2_rings (f : Tab L2Line → Tab L2Line) : (apply s (Upd.l2 f)).rings = s.rings := rfl
@[simp] theorem l2_ops (f : Tab L2Line → Tab L2Line) : (apply s (Upd.l2 f)).ops = s.ops := rfl
@[simp] theorem l2_subs (f : Tab L2Line → Tab L2Line) : (apply s (Upd.l2 f)).subs = s.subs := rfl
@[simp] theorem l2_dev (f : Tab L2Line → Tab L2Line) : (apply s (Upd.l2 f)).dev = s.dev := rfl
@[simp] theorem l2_cur (f : Tab L2Line → Tab L2Line) : (apply s (Upd.l2 f)).cur = s.cur := rfl
@[simp] theorem l2_turns (f : Tab L2Line → Tab L2Line) : (apply s (Upd.l2 f)).turns = s.turns := rfl
@[simp] theorem l2_free (f : Tab L2Line → Tab L2Line) : (apply s (Upd.l2 f)).free = s.free := rfl
@[simp] theorem l2_seqNo (f : Tab L2Line → Tab L2Line) : (apply s (Upd.l2 f)).seqNo = s.seqNo := rfl
@[simp] theorem l2_warpOf (f : Tab L2Line → Tab L2Line) (j : Nat) : (apply s (Upd.l2 f)).warp j = s.warp j := rfl
@[simp] theorem l2_blockOf (f : Tab L2Line → Tab L2Line) (j : Nat) : (apply s (Upd.l2 f)).block j = s.block j := rfl
@[simp] theorem l2_runOf (f : Tab L2Line → Tab L2Line) (j : Nat) : (apply s (Upd.l2 f)).runOf j = s.runOf j := rfl
@[simp] theorem l2_gangOf (f : Tab L2Line → Tab L2Line) (j : Nat) : (apply s (Upd.l2 f)).gang j = s.gang j := rfl
@[simp] theorem l2_gridOf (f : Tab L2Line → Tab L2Line) (j : Nat) : (apply s (Upd.l2 f)).grid j = s.grid j := rfl
@[simp] theorem l2_worldOf (f : Tab L2Line → Tab L2Line) (j : Nat) : (apply s (Upd.l2 f)).world j = s.world j := rfl
@[simp] theorem l2_dieOf (f : Tab L2Line → Tab L2Line) (j : Nat) : (apply s (Upd.l2 f)).die j = s.die j := rfl
@[simp] theorem l2_ringOf (f : Tab L2Line → Tab L2Line) (j : Nat) : (apply s (Upd.l2 f)).ring j = s.ring j := rfl
@[simp] theorem l2_opOf (f : Tab L2Line → Tab L2Line) (j : Nat) : (apply s (Upd.l2 f)).op j = s.op j := rfl
@[simp] theorem l2_subOf (f : Tab L2Line → Tab L2Line) (j : Nat) : (apply s (Upd.l2 f)).sub j = s.sub j := rfl

@[simp] theorem reps_time (f : Tab L1Line → Tab L1Line) : (apply s (Upd.reps f)).time = s.time := rfl
@[simp] theorem reps_mem (f : Tab L1Line → Tab L1Line) : (apply s (Upd.reps f)).mem = s.mem := rfl
@[simp] theorem reps_tags (f : Tab L1Line → Tab L1Line) : (apply s (Upd.reps f)).tags = s.tags := rfl
@[simp] theorem reps_oldCode (f : Tab L1Line → Tab L1Line) : (apply s (Upd.reps f)).oldCode = s.oldCode := rfl
@[simp] theorem reps_l1 (f : Tab L1Line → Tab L1Line) : (apply s (Upd.reps f)).l1 = s.l1 := rfl
@[simp] theorem reps_l2 (f : Tab L1Line → Tab L1Line) : (apply s (Upd.reps f)).l2 = s.l2 := rfl
@[simp] theorem reps_reps (f : Tab L1Line → Tab L1Line) : (apply s (Upd.reps f)).reps = f s.reps := rfl
@[simp] theorem reps_msgs (f : Tab L1Line → Tab L1Line) : (apply s (Upd.reps f)).msgs = s.msgs := rfl
@[simp] theorem reps_scOrder (f : Tab L1Line → Tab L1Line) : (apply s (Upd.reps f)).scOrder = s.scOrder := rfl
@[simp] theorem reps_warps (f : Tab L1Line → Tab L1Line) : (apply s (Upd.reps f)).warps = s.warps := rfl
@[simp] theorem reps_blocks (f : Tab L1Line → Tab L1Line) : (apply s (Upd.reps f)).blocks = s.blocks := rfl
@[simp] theorem reps_runs (f : Tab L1Line → Tab L1Line) : (apply s (Upd.reps f)).runs = s.runs := rfl
@[simp] theorem reps_gangs (f : Tab L1Line → Tab L1Line) : (apply s (Upd.reps f)).gangs = s.gangs := rfl
@[simp] theorem reps_grids (f : Tab L1Line → Tab L1Line) : (apply s (Upd.reps f)).grids = s.grids := rfl
@[simp] theorem reps_worlds (f : Tab L1Line → Tab L1Line) : (apply s (Upd.reps f)).worlds = s.worlds := rfl
@[simp] theorem reps_dies (f : Tab L1Line → Tab L1Line) : (apply s (Upd.reps f)).dies = s.dies := rfl
@[simp] theorem reps_rings (f : Tab L1Line → Tab L1Line) : (apply s (Upd.reps f)).rings = s.rings := rfl
@[simp] theorem reps_ops (f : Tab L1Line → Tab L1Line) : (apply s (Upd.reps f)).ops = s.ops := rfl
@[simp] theorem reps_subs (f : Tab L1Line → Tab L1Line) : (apply s (Upd.reps f)).subs = s.subs := rfl
@[simp] theorem reps_dev (f : Tab L1Line → Tab L1Line) : (apply s (Upd.reps f)).dev = s.dev := rfl
@[simp] theorem reps_cur (f : Tab L1Line → Tab L1Line) : (apply s (Upd.reps f)).cur = s.cur := rfl
@[simp] theorem reps_turns (f : Tab L1Line → Tab L1Line) : (apply s (Upd.reps f)).turns = s.turns := rfl
@[simp] theorem reps_free (f : Tab L1Line → Tab L1Line) : (apply s (Upd.reps f)).free = s.free := rfl
@[simp] theorem reps_seqNo (f : Tab L1Line → Tab L1Line) : (apply s (Upd.reps f)).seqNo = s.seqNo := rfl
@[simp] theorem reps_warpOf (f : Tab L1Line → Tab L1Line) (j : Nat) : (apply s (Upd.reps f)).warp j = s.warp j := rfl
@[simp] theorem reps_blockOf (f : Tab L1Line → Tab L1Line) (j : Nat) : (apply s (Upd.reps f)).block j = s.block j := rfl
@[simp] theorem reps_runOf (f : Tab L1Line → Tab L1Line) (j : Nat) : (apply s (Upd.reps f)).runOf j = s.runOf j := rfl
@[simp] theorem reps_gangOf (f : Tab L1Line → Tab L1Line) (j : Nat) : (apply s (Upd.reps f)).gang j = s.gang j := rfl
@[simp] theorem reps_gridOf (f : Tab L1Line → Tab L1Line) (j : Nat) : (apply s (Upd.reps f)).grid j = s.grid j := rfl
@[simp] theorem reps_worldOf (f : Tab L1Line → Tab L1Line) (j : Nat) : (apply s (Upd.reps f)).world j = s.world j := rfl
@[simp] theorem reps_dieOf (f : Tab L1Line → Tab L1Line) (j : Nat) : (apply s (Upd.reps f)).die j = s.die j := rfl
@[simp] theorem reps_ringOf (f : Tab L1Line → Tab L1Line) (j : Nat) : (apply s (Upd.reps f)).ring j = s.ring j := rfl
@[simp] theorem reps_opOf (f : Tab L1Line → Tab L1Line) (j : Nat) : (apply s (Upd.reps f)).op j = s.op j := rfl
@[simp] theorem reps_subOf (f : Tab L1Line → Tab L1Line) (j : Nat) : (apply s (Upd.reps f)).sub j = s.sub j := rfl

@[simp] theorem msgs_time (l : Nat) (t : Tab ByteMsg) : (apply s (Upd.msgs l t)).time = s.time := rfl
@[simp] theorem msgs_mem (l : Nat) (t : Tab ByteMsg) : (apply s (Upd.msgs l t)).mem = s.mem := rfl
@[simp] theorem msgs_tags (l : Nat) (t : Tab ByteMsg) : (apply s (Upd.msgs l t)).tags = s.tags := rfl
@[simp] theorem msgs_oldCode (l : Nat) (t : Tab ByteMsg) : (apply s (Upd.msgs l t)).oldCode = s.oldCode := rfl
@[simp] theorem msgs_l1 (l : Nat) (t : Tab ByteMsg) : (apply s (Upd.msgs l t)).l1 = s.l1 := rfl
@[simp] theorem msgs_l2 (l : Nat) (t : Tab ByteMsg) : (apply s (Upd.msgs l t)).l2 = s.l2 := rfl
@[simp] theorem msgs_reps (l : Nat) (t : Tab ByteMsg) : (apply s (Upd.msgs l t)).reps = s.reps := rfl
@[simp] theorem msgs_msgs (l : Nat) (t : Tab ByteMsg) : (apply s (Upd.msgs l t)).msgs = s.msgs.put l t := rfl
@[simp] theorem msgs_scOrder (l : Nat) (t : Tab ByteMsg) : (apply s (Upd.msgs l t)).scOrder = s.scOrder := rfl
@[simp] theorem msgs_warps (l : Nat) (t : Tab ByteMsg) : (apply s (Upd.msgs l t)).warps = s.warps := rfl
@[simp] theorem msgs_blocks (l : Nat) (t : Tab ByteMsg) : (apply s (Upd.msgs l t)).blocks = s.blocks := rfl
@[simp] theorem msgs_runs (l : Nat) (t : Tab ByteMsg) : (apply s (Upd.msgs l t)).runs = s.runs := rfl
@[simp] theorem msgs_gangs (l : Nat) (t : Tab ByteMsg) : (apply s (Upd.msgs l t)).gangs = s.gangs := rfl
@[simp] theorem msgs_grids (l : Nat) (t : Tab ByteMsg) : (apply s (Upd.msgs l t)).grids = s.grids := rfl
@[simp] theorem msgs_worlds (l : Nat) (t : Tab ByteMsg) : (apply s (Upd.msgs l t)).worlds = s.worlds := rfl
@[simp] theorem msgs_dies (l : Nat) (t : Tab ByteMsg) : (apply s (Upd.msgs l t)).dies = s.dies := rfl
@[simp] theorem msgs_rings (l : Nat) (t : Tab ByteMsg) : (apply s (Upd.msgs l t)).rings = s.rings := rfl
@[simp] theorem msgs_ops (l : Nat) (t : Tab ByteMsg) : (apply s (Upd.msgs l t)).ops = s.ops := rfl
@[simp] theorem msgs_subs (l : Nat) (t : Tab ByteMsg) : (apply s (Upd.msgs l t)).subs = s.subs := rfl
@[simp] theorem msgs_dev (l : Nat) (t : Tab ByteMsg) : (apply s (Upd.msgs l t)).dev = s.dev := rfl
@[simp] theorem msgs_cur (l : Nat) (t : Tab ByteMsg) : (apply s (Upd.msgs l t)).cur = s.cur := rfl
@[simp] theorem msgs_turns (l : Nat) (t : Tab ByteMsg) : (apply s (Upd.msgs l t)).turns = s.turns := rfl
@[simp] theorem msgs_free (l : Nat) (t : Tab ByteMsg) : (apply s (Upd.msgs l t)).free = s.free := rfl
@[simp] theorem msgs_seqNo (l : Nat) (t : Tab ByteMsg) : (apply s (Upd.msgs l t)).seqNo = s.seqNo := rfl
@[simp] theorem msgs_warpOf (l : Nat) (t : Tab ByteMsg) (j : Nat) : (apply s (Upd.msgs l t)).warp j = s.warp j := rfl
@[simp] theorem msgs_blockOf (l : Nat) (t : Tab ByteMsg) (j : Nat) : (apply s (Upd.msgs l t)).block j = s.block j := rfl
@[simp] theorem msgs_runOf (l : Nat) (t : Tab ByteMsg) (j : Nat) : (apply s (Upd.msgs l t)).runOf j = s.runOf j := rfl
@[simp] theorem msgs_gangOf (l : Nat) (t : Tab ByteMsg) (j : Nat) : (apply s (Upd.msgs l t)).gang j = s.gang j := rfl
@[simp] theorem msgs_gridOf (l : Nat) (t : Tab ByteMsg) (j : Nat) : (apply s (Upd.msgs l t)).grid j = s.grid j := rfl
@[simp] theorem msgs_worldOf (l : Nat) (t : Tab ByteMsg) (j : Nat) : (apply s (Upd.msgs l t)).world j = s.world j := rfl
@[simp] theorem msgs_dieOf (l : Nat) (t : Tab ByteMsg) (j : Nat) : (apply s (Upd.msgs l t)).die j = s.die j := rfl
@[simp] theorem msgs_ringOf (l : Nat) (t : Tab ByteMsg) (j : Nat) : (apply s (Upd.msgs l t)).ring j = s.ring j := rfl
@[simp] theorem msgs_opOf (l : Nat) (t : Tab ByteMsg) (j : Nat) : (apply s (Upd.msgs l t)).op j = s.op j := rfl
@[simp] theorem msgs_subOf (l : Nat) (t : Tab ByteMsg) (j : Nat) : (apply s (Upd.msgs l t)).sub j = s.sub j := rfl

@[simp] theorem scOrder_time (l : List (Nat × Inst × View)) : (apply s (Upd.scOrder l)).time = s.time := rfl
@[simp] theorem scOrder_mem (l : List (Nat × Inst × View)) : (apply s (Upd.scOrder l)).mem = s.mem := rfl
@[simp] theorem scOrder_tags (l : List (Nat × Inst × View)) : (apply s (Upd.scOrder l)).tags = s.tags := rfl
@[simp] theorem scOrder_oldCode (l : List (Nat × Inst × View)) : (apply s (Upd.scOrder l)).oldCode = s.oldCode := rfl
@[simp] theorem scOrder_l1 (l : List (Nat × Inst × View)) : (apply s (Upd.scOrder l)).l1 = s.l1 := rfl
@[simp] theorem scOrder_l2 (l : List (Nat × Inst × View)) : (apply s (Upd.scOrder l)).l2 = s.l2 := rfl
@[simp] theorem scOrder_reps (l : List (Nat × Inst × View)) : (apply s (Upd.scOrder l)).reps = s.reps := rfl
@[simp] theorem scOrder_msgs (l : List (Nat × Inst × View)) : (apply s (Upd.scOrder l)).msgs = s.msgs := rfl
@[simp] theorem scOrder_scOrder (l : List (Nat × Inst × View)) : (apply s (Upd.scOrder l)).scOrder = l := rfl
@[simp] theorem scOrder_warps (l : List (Nat × Inst × View)) : (apply s (Upd.scOrder l)).warps = s.warps := rfl
@[simp] theorem scOrder_blocks (l : List (Nat × Inst × View)) : (apply s (Upd.scOrder l)).blocks = s.blocks := rfl
@[simp] theorem scOrder_runs (l : List (Nat × Inst × View)) : (apply s (Upd.scOrder l)).runs = s.runs := rfl
@[simp] theorem scOrder_gangs (l : List (Nat × Inst × View)) : (apply s (Upd.scOrder l)).gangs = s.gangs := rfl
@[simp] theorem scOrder_grids (l : List (Nat × Inst × View)) : (apply s (Upd.scOrder l)).grids = s.grids := rfl
@[simp] theorem scOrder_worlds (l : List (Nat × Inst × View)) : (apply s (Upd.scOrder l)).worlds = s.worlds := rfl
@[simp] theorem scOrder_dies (l : List (Nat × Inst × View)) : (apply s (Upd.scOrder l)).dies = s.dies := rfl
@[simp] theorem scOrder_rings (l : List (Nat × Inst × View)) : (apply s (Upd.scOrder l)).rings = s.rings := rfl
@[simp] theorem scOrder_ops (l : List (Nat × Inst × View)) : (apply s (Upd.scOrder l)).ops = s.ops := rfl
@[simp] theorem scOrder_subs (l : List (Nat × Inst × View)) : (apply s (Upd.scOrder l)).subs = s.subs := rfl
@[simp] theorem scOrder_dev (l : List (Nat × Inst × View)) : (apply s (Upd.scOrder l)).dev = s.dev := rfl
@[simp] theorem scOrder_cur (l : List (Nat × Inst × View)) : (apply s (Upd.scOrder l)).cur = s.cur := rfl
@[simp] theorem scOrder_turns (l : List (Nat × Inst × View)) : (apply s (Upd.scOrder l)).turns = s.turns := rfl
@[simp] theorem scOrder_free (l : List (Nat × Inst × View)) : (apply s (Upd.scOrder l)).free = s.free := rfl
@[simp] theorem scOrder_seqNo (l : List (Nat × Inst × View)) : (apply s (Upd.scOrder l)).seqNo = s.seqNo := rfl
@[simp] theorem scOrder_warpOf (l : List (Nat × Inst × View)) (j : Nat) : (apply s (Upd.scOrder l)).warp j = s.warp j := rfl
@[simp] theorem scOrder_blockOf (l : List (Nat × Inst × View)) (j : Nat) : (apply s (Upd.scOrder l)).block j = s.block j := rfl
@[simp] theorem scOrder_runOf (l : List (Nat × Inst × View)) (j : Nat) : (apply s (Upd.scOrder l)).runOf j = s.runOf j := rfl
@[simp] theorem scOrder_gangOf (l : List (Nat × Inst × View)) (j : Nat) : (apply s (Upd.scOrder l)).gang j = s.gang j := rfl
@[simp] theorem scOrder_gridOf (l : List (Nat × Inst × View)) (j : Nat) : (apply s (Upd.scOrder l)).grid j = s.grid j := rfl
@[simp] theorem scOrder_worldOf (l : List (Nat × Inst × View)) (j : Nat) : (apply s (Upd.scOrder l)).world j = s.world j := rfl
@[simp] theorem scOrder_dieOf (l : List (Nat × Inst × View)) (j : Nat) : (apply s (Upd.scOrder l)).die j = s.die j := rfl
@[simp] theorem scOrder_ringOf (l : List (Nat × Inst × View)) (j : Nat) : (apply s (Upd.scOrder l)).ring j = s.ring j := rfl
@[simp] theorem scOrder_opOf (l : List (Nat × Inst × View)) (j : Nat) : (apply s (Upd.scOrder l)).op j = s.op j := rfl
@[simp] theorem scOrder_subOf (l : List (Nat × Inst × View)) (j : Nat) : (apply s (Upd.scOrder l)).sub j = s.sub j := rfl

@[simp] theorem dev_time (f : Dev → Dev) : (apply s (Upd.dev f)).time = s.time := rfl
@[simp] theorem dev_mem (f : Dev → Dev) : (apply s (Upd.dev f)).mem = s.mem := rfl
@[simp] theorem dev_tags (f : Dev → Dev) : (apply s (Upd.dev f)).tags = s.tags := rfl
@[simp] theorem dev_oldCode (f : Dev → Dev) : (apply s (Upd.dev f)).oldCode = s.oldCode := rfl
@[simp] theorem dev_l1 (f : Dev → Dev) : (apply s (Upd.dev f)).l1 = s.l1 := rfl
@[simp] theorem dev_l2 (f : Dev → Dev) : (apply s (Upd.dev f)).l2 = s.l2 := rfl
@[simp] theorem dev_reps (f : Dev → Dev) : (apply s (Upd.dev f)).reps = s.reps := rfl
@[simp] theorem dev_msgs (f : Dev → Dev) : (apply s (Upd.dev f)).msgs = s.msgs := rfl
@[simp] theorem dev_scOrder (f : Dev → Dev) : (apply s (Upd.dev f)).scOrder = s.scOrder := rfl
@[simp] theorem dev_warps (f : Dev → Dev) : (apply s (Upd.dev f)).warps = s.warps := rfl
@[simp] theorem dev_blocks (f : Dev → Dev) : (apply s (Upd.dev f)).blocks = s.blocks := rfl
@[simp] theorem dev_runs (f : Dev → Dev) : (apply s (Upd.dev f)).runs = s.runs := rfl
@[simp] theorem dev_gangs (f : Dev → Dev) : (apply s (Upd.dev f)).gangs = s.gangs := rfl
@[simp] theorem dev_grids (f : Dev → Dev) : (apply s (Upd.dev f)).grids = s.grids := rfl
@[simp] theorem dev_worlds (f : Dev → Dev) : (apply s (Upd.dev f)).worlds = s.worlds := rfl
@[simp] theorem dev_dies (f : Dev → Dev) : (apply s (Upd.dev f)).dies = s.dies := rfl
@[simp] theorem dev_rings (f : Dev → Dev) : (apply s (Upd.dev f)).rings = s.rings := rfl
@[simp] theorem dev_ops (f : Dev → Dev) : (apply s (Upd.dev f)).ops = s.ops := rfl
@[simp] theorem dev_subs (f : Dev → Dev) : (apply s (Upd.dev f)).subs = s.subs := rfl
@[simp] theorem dev_dev (f : Dev → Dev) : (apply s (Upd.dev f)).dev = f s.dev := rfl
@[simp] theorem dev_cur (f : Dev → Dev) : (apply s (Upd.dev f)).cur = s.cur := rfl
@[simp] theorem dev_turns (f : Dev → Dev) : (apply s (Upd.dev f)).turns = s.turns := rfl
@[simp] theorem dev_free (f : Dev → Dev) : (apply s (Upd.dev f)).free = s.free := rfl
@[simp] theorem dev_seqNo (f : Dev → Dev) : (apply s (Upd.dev f)).seqNo = s.seqNo := rfl
@[simp] theorem dev_warpOf (f : Dev → Dev) (j : Nat) : (apply s (Upd.dev f)).warp j = s.warp j := rfl
@[simp] theorem dev_blockOf (f : Dev → Dev) (j : Nat) : (apply s (Upd.dev f)).block j = s.block j := rfl
@[simp] theorem dev_runOf (f : Dev → Dev) (j : Nat) : (apply s (Upd.dev f)).runOf j = s.runOf j := rfl
@[simp] theorem dev_gangOf (f : Dev → Dev) (j : Nat) : (apply s (Upd.dev f)).gang j = s.gang j := rfl
@[simp] theorem dev_gridOf (f : Dev → Dev) (j : Nat) : (apply s (Upd.dev f)).grid j = s.grid j := rfl
@[simp] theorem dev_worldOf (f : Dev → Dev) (j : Nat) : (apply s (Upd.dev f)).world j = s.world j := rfl
@[simp] theorem dev_dieOf (f : Dev → Dev) (j : Nat) : (apply s (Upd.dev f)).die j = s.die j := rfl
@[simp] theorem dev_ringOf (f : Dev → Dev) (j : Nat) : (apply s (Upd.dev f)).ring j = s.ring j := rfl
@[simp] theorem dev_opOf (f : Dev → Dev) (j : Nat) : (apply s (Upd.dev f)).op j = s.op j := rfl
@[simp] theorem dev_subOf (f : Dev → Dev) (j : Nat) : (apply s (Upd.dev f)).sub j = s.sub j := rfl

@[simp] theorem time_time (t : Nat) : (apply s (Upd.time t)).time = t := rfl
@[simp] theorem time_mem (t : Nat) : (apply s (Upd.time t)).mem = s.mem := rfl
@[simp] theorem time_tags (t : Nat) : (apply s (Upd.time t)).tags = s.tags := rfl
@[simp] theorem time_oldCode (t : Nat) : (apply s (Upd.time t)).oldCode = s.oldCode := rfl
@[simp] theorem time_l1 (t : Nat) : (apply s (Upd.time t)).l1 = s.l1 := rfl
@[simp] theorem time_l2 (t : Nat) : (apply s (Upd.time t)).l2 = s.l2 := rfl
@[simp] theorem time_reps (t : Nat) : (apply s (Upd.time t)).reps = s.reps := rfl
@[simp] theorem time_msgs (t : Nat) : (apply s (Upd.time t)).msgs = s.msgs := rfl
@[simp] theorem time_scOrder (t : Nat) : (apply s (Upd.time t)).scOrder = s.scOrder := rfl
@[simp] theorem time_warps (t : Nat) : (apply s (Upd.time t)).warps = s.warps := rfl
@[simp] theorem time_blocks (t : Nat) : (apply s (Upd.time t)).blocks = s.blocks := rfl
@[simp] theorem time_runs (t : Nat) : (apply s (Upd.time t)).runs = s.runs := rfl
@[simp] theorem time_gangs (t : Nat) : (apply s (Upd.time t)).gangs = s.gangs := rfl
@[simp] theorem time_grids (t : Nat) : (apply s (Upd.time t)).grids = s.grids := rfl
@[simp] theorem time_worlds (t : Nat) : (apply s (Upd.time t)).worlds = s.worlds := rfl
@[simp] theorem time_dies (t : Nat) : (apply s (Upd.time t)).dies = s.dies := rfl
@[simp] theorem time_rings (t : Nat) : (apply s (Upd.time t)).rings = s.rings := rfl
@[simp] theorem time_ops (t : Nat) : (apply s (Upd.time t)).ops = s.ops := rfl
@[simp] theorem time_subs (t : Nat) : (apply s (Upd.time t)).subs = s.subs := rfl
@[simp] theorem time_dev (t : Nat) : (apply s (Upd.time t)).dev = s.dev := rfl
@[simp] theorem time_cur (t : Nat) : (apply s (Upd.time t)).cur = s.cur := rfl
@[simp] theorem time_turns (t : Nat) : (apply s (Upd.time t)).turns = s.turns := rfl
@[simp] theorem time_free (t : Nat) : (apply s (Upd.time t)).free = s.free := rfl
@[simp] theorem time_seqNo (t : Nat) : (apply s (Upd.time t)).seqNo = s.seqNo := rfl
@[simp] theorem time_warpOf (t : Nat) (j : Nat) : (apply s (Upd.time t)).warp j = s.warp j := rfl
@[simp] theorem time_blockOf (t : Nat) (j : Nat) : (apply s (Upd.time t)).block j = s.block j := rfl
@[simp] theorem time_runOf (t : Nat) (j : Nat) : (apply s (Upd.time t)).runOf j = s.runOf j := rfl
@[simp] theorem time_gangOf (t : Nat) (j : Nat) : (apply s (Upd.time t)).gang j = s.gang j := rfl
@[simp] theorem time_gridOf (t : Nat) (j : Nat) : (apply s (Upd.time t)).grid j = s.grid j := rfl
@[simp] theorem time_worldOf (t : Nat) (j : Nat) : (apply s (Upd.time t)).world j = s.world j := rfl
@[simp] theorem time_dieOf (t : Nat) (j : Nat) : (apply s (Upd.time t)).die j = s.die j := rfl
@[simp] theorem time_ringOf (t : Nat) (j : Nat) : (apply s (Upd.time t)).ring j = s.ring j := rfl
@[simp] theorem time_opOf (t : Nat) (j : Nat) : (apply s (Upd.time t)).op j = s.op j := rfl
@[simp] theorem time_subOf (t : Nat) (j : Nat) : (apply s (Upd.time t)).sub j = s.sub j := rfl

@[simp] theorem cur_time (w : Nat) : (apply s (Upd.cur w)).time = s.time := rfl
@[simp] theorem cur_mem (w : Nat) : (apply s (Upd.cur w)).mem = s.mem := rfl
@[simp] theorem cur_tags (w : Nat) : (apply s (Upd.cur w)).tags = s.tags := rfl
@[simp] theorem cur_oldCode (w : Nat) : (apply s (Upd.cur w)).oldCode = s.oldCode := rfl
@[simp] theorem cur_l1 (w : Nat) : (apply s (Upd.cur w)).l1 = s.l1 := rfl
@[simp] theorem cur_l2 (w : Nat) : (apply s (Upd.cur w)).l2 = s.l2 := rfl
@[simp] theorem cur_reps (w : Nat) : (apply s (Upd.cur w)).reps = s.reps := rfl
@[simp] theorem cur_msgs (w : Nat) : (apply s (Upd.cur w)).msgs = s.msgs := rfl
@[simp] theorem cur_scOrder (w : Nat) : (apply s (Upd.cur w)).scOrder = s.scOrder := rfl
@[simp] theorem cur_warps (w : Nat) : (apply s (Upd.cur w)).warps = s.warps := rfl
@[simp] theorem cur_blocks (w : Nat) : (apply s (Upd.cur w)).blocks = s.blocks := rfl
@[simp] theorem cur_runs (w : Nat) : (apply s (Upd.cur w)).runs = s.runs := rfl
@[simp] theorem cur_gangs (w : Nat) : (apply s (Upd.cur w)).gangs = s.gangs := rfl
@[simp] theorem cur_grids (w : Nat) : (apply s (Upd.cur w)).grids = s.grids := rfl
@[simp] theorem cur_worlds (w : Nat) : (apply s (Upd.cur w)).worlds = s.worlds := rfl
@[simp] theorem cur_dies (w : Nat) : (apply s (Upd.cur w)).dies = s.dies := rfl
@[simp] theorem cur_rings (w : Nat) : (apply s (Upd.cur w)).rings = s.rings := rfl
@[simp] theorem cur_ops (w : Nat) : (apply s (Upd.cur w)).ops = s.ops := rfl
@[simp] theorem cur_subs (w : Nat) : (apply s (Upd.cur w)).subs = s.subs := rfl
@[simp] theorem cur_dev (w : Nat) : (apply s (Upd.cur w)).dev = s.dev := rfl
@[simp] theorem cur_cur (w : Nat) : (apply s (Upd.cur w)).cur = w := rfl
@[simp] theorem cur_turns (w : Nat) : (apply s (Upd.cur w)).turns = s.turns := rfl
@[simp] theorem cur_free (w : Nat) : (apply s (Upd.cur w)).free = s.free := rfl
@[simp] theorem cur_seqNo (w : Nat) : (apply s (Upd.cur w)).seqNo = s.seqNo := rfl
@[simp] theorem cur_warpOf (w : Nat) (j : Nat) : (apply s (Upd.cur w)).warp j = s.warp j := rfl
@[simp] theorem cur_blockOf (w : Nat) (j : Nat) : (apply s (Upd.cur w)).block j = s.block j := rfl
@[simp] theorem cur_runOf (w : Nat) (j : Nat) : (apply s (Upd.cur w)).runOf j = s.runOf j := rfl
@[simp] theorem cur_gangOf (w : Nat) (j : Nat) : (apply s (Upd.cur w)).gang j = s.gang j := rfl
@[simp] theorem cur_gridOf (w : Nat) (j : Nat) : (apply s (Upd.cur w)).grid j = s.grid j := rfl
@[simp] theorem cur_worldOf (w : Nat) (j : Nat) : (apply s (Upd.cur w)).world j = s.world j := rfl
@[simp] theorem cur_dieOf (w : Nat) (j : Nat) : (apply s (Upd.cur w)).die j = s.die j := rfl
@[simp] theorem cur_ringOf (w : Nat) (j : Nat) : (apply s (Upd.cur w)).ring j = s.ring j := rfl
@[simp] theorem cur_opOf (w : Nat) (j : Nat) : (apply s (Upd.cur w)).op j = s.op j := rfl
@[simp] theorem cur_subOf (w : Nat) (j : Nat) : (apply s (Upd.cur w)).sub j = s.sub j := rfl

@[simp] theorem turns_time (l : List Turn) : (apply s (Upd.turns l)).time = s.time := rfl
@[simp] theorem turns_mem (l : List Turn) : (apply s (Upd.turns l)).mem = s.mem := rfl
@[simp] theorem turns_tags (l : List Turn) : (apply s (Upd.turns l)).tags = s.tags := rfl
@[simp] theorem turns_oldCode (l : List Turn) : (apply s (Upd.turns l)).oldCode = s.oldCode := rfl
@[simp] theorem turns_l1 (l : List Turn) : (apply s (Upd.turns l)).l1 = s.l1 := rfl
@[simp] theorem turns_l2 (l : List Turn) : (apply s (Upd.turns l)).l2 = s.l2 := rfl
@[simp] theorem turns_reps (l : List Turn) : (apply s (Upd.turns l)).reps = s.reps := rfl
@[simp] theorem turns_msgs (l : List Turn) : (apply s (Upd.turns l)).msgs = s.msgs := rfl
@[simp] theorem turns_scOrder (l : List Turn) : (apply s (Upd.turns l)).scOrder = s.scOrder := rfl
@[simp] theorem turns_warps (l : List Turn) : (apply s (Upd.turns l)).warps = s.warps := rfl
@[simp] theorem turns_blocks (l : List Turn) : (apply s (Upd.turns l)).blocks = s.blocks := rfl
@[simp] theorem turns_runs (l : List Turn) : (apply s (Upd.turns l)).runs = s.runs := rfl
@[simp] theorem turns_gangs (l : List Turn) : (apply s (Upd.turns l)).gangs = s.gangs := rfl
@[simp] theorem turns_grids (l : List Turn) : (apply s (Upd.turns l)).grids = s.grids := rfl
@[simp] theorem turns_worlds (l : List Turn) : (apply s (Upd.turns l)).worlds = s.worlds := rfl
@[simp] theorem turns_dies (l : List Turn) : (apply s (Upd.turns l)).dies = s.dies := rfl
@[simp] theorem turns_rings (l : List Turn) : (apply s (Upd.turns l)).rings = s.rings := rfl
@[simp] theorem turns_ops (l : List Turn) : (apply s (Upd.turns l)).ops = s.ops := rfl
@[simp] theorem turns_subs (l : List Turn) : (apply s (Upd.turns l)).subs = s.subs := rfl
@[simp] theorem turns_dev (l : List Turn) : (apply s (Upd.turns l)).dev = s.dev := rfl
@[simp] theorem turns_cur (l : List Turn) : (apply s (Upd.turns l)).cur = s.cur := rfl
@[simp] theorem turns_turns (l : List Turn) : (apply s (Upd.turns l)).turns = l := rfl
@[simp] theorem turns_free (l : List Turn) : (apply s (Upd.turns l)).free = s.free := rfl
@[simp] theorem turns_seqNo (l : List Turn) : (apply s (Upd.turns l)).seqNo = s.seqNo := rfl
@[simp] theorem turns_warpOf (l : List Turn) (j : Nat) : (apply s (Upd.turns l)).warp j = s.warp j := rfl
@[simp] theorem turns_blockOf (l : List Turn) (j : Nat) : (apply s (Upd.turns l)).block j = s.block j := rfl
@[simp] theorem turns_runOf (l : List Turn) (j : Nat) : (apply s (Upd.turns l)).runOf j = s.runOf j := rfl
@[simp] theorem turns_gangOf (l : List Turn) (j : Nat) : (apply s (Upd.turns l)).gang j = s.gang j := rfl
@[simp] theorem turns_gridOf (l : List Turn) (j : Nat) : (apply s (Upd.turns l)).grid j = s.grid j := rfl
@[simp] theorem turns_worldOf (l : List Turn) (j : Nat) : (apply s (Upd.turns l)).world j = s.world j := rfl
@[simp] theorem turns_dieOf (l : List Turn) (j : Nat) : (apply s (Upd.turns l)).die j = s.die j := rfl
@[simp] theorem turns_ringOf (l : List Turn) (j : Nat) : (apply s (Upd.turns l)).ring j = s.ring j := rfl
@[simp] theorem turns_opOf (l : List Turn) (j : Nat) : (apply s (Upd.turns l)).op j = s.op j := rfl
@[simp] theorem turns_subOf (l : List Turn) (j : Nat) : (apply s (Upd.turns l)).sub j = s.sub j := rfl

@[simp] theorem free_time : (apply s Upd.free).time = s.time := rfl
@[simp] theorem free_mem : (apply s Upd.free).mem = s.mem := rfl
@[simp] theorem free_tags : (apply s Upd.free).tags = s.tags := rfl
@[simp] theorem free_oldCode : (apply s Upd.free).oldCode = s.oldCode := rfl
@[simp] theorem free_l1 : (apply s Upd.free).l1 = s.l1 := rfl
@[simp] theorem free_l2 : (apply s Upd.free).l2 = s.l2 := rfl
@[simp] theorem free_reps : (apply s Upd.free).reps = s.reps := rfl
@[simp] theorem free_msgs : (apply s Upd.free).msgs = s.msgs := rfl
@[simp] theorem free_scOrder : (apply s Upd.free).scOrder = s.scOrder := rfl
@[simp] theorem free_warps : (apply s Upd.free).warps = s.warps := rfl
@[simp] theorem free_blocks : (apply s Upd.free).blocks = s.blocks := rfl
@[simp] theorem free_runs : (apply s Upd.free).runs = s.runs := rfl
@[simp] theorem free_gangs : (apply s Upd.free).gangs = s.gangs := rfl
@[simp] theorem free_grids : (apply s Upd.free).grids = s.grids := rfl
@[simp] theorem free_worlds : (apply s Upd.free).worlds = s.worlds := rfl
@[simp] theorem free_dies : (apply s Upd.free).dies = s.dies := rfl
@[simp] theorem free_rings : (apply s Upd.free).rings = s.rings := rfl
@[simp] theorem free_ops : (apply s Upd.free).ops = s.ops := rfl
@[simp] theorem free_subs : (apply s Upd.free).subs = s.subs := rfl
@[simp] theorem free_dev : (apply s Upd.free).dev = s.dev := rfl
@[simp] theorem free_cur : (apply s Upd.free).cur = s.cur := rfl
@[simp] theorem free_turns : (apply s Upd.free).turns = s.turns := rfl
@[simp] theorem free_free : (apply s Upd.free).free = s.free + 1 := rfl
@[simp] theorem free_seqNo : (apply s Upd.free).seqNo = s.seqNo := rfl
@[simp] theorem free_warpOf (j : Nat) : (apply s Upd.free).warp j = s.warp j := rfl
@[simp] theorem free_blockOf (j : Nat) : (apply s Upd.free).block j = s.block j := rfl
@[simp] theorem free_runOf (j : Nat) : (apply s Upd.free).runOf j = s.runOf j := rfl
@[simp] theorem free_gangOf (j : Nat) : (apply s Upd.free).gang j = s.gang j := rfl
@[simp] theorem free_gridOf (j : Nat) : (apply s Upd.free).grid j = s.grid j := rfl
@[simp] theorem free_worldOf (j : Nat) : (apply s Upd.free).world j = s.world j := rfl
@[simp] theorem free_dieOf (j : Nat) : (apply s Upd.free).die j = s.die j := rfl
@[simp] theorem free_ringOf (j : Nat) : (apply s Upd.free).ring j = s.ring j := rfl
@[simp] theorem free_opOf (j : Nat) : (apply s Upd.free).op j = s.op j := rfl
@[simp] theorem free_subOf (j : Nat) : (apply s Upd.free).sub j = s.sub j := rfl

@[simp] theorem seqNo_time : (apply s Upd.seqNo).time = s.time := rfl
@[simp] theorem seqNo_mem : (apply s Upd.seqNo).mem = s.mem := rfl
@[simp] theorem seqNo_tags : (apply s Upd.seqNo).tags = s.tags := rfl
@[simp] theorem seqNo_oldCode : (apply s Upd.seqNo).oldCode = s.oldCode := rfl
@[simp] theorem seqNo_l1 : (apply s Upd.seqNo).l1 = s.l1 := rfl
@[simp] theorem seqNo_l2 : (apply s Upd.seqNo).l2 = s.l2 := rfl
@[simp] theorem seqNo_reps : (apply s Upd.seqNo).reps = s.reps := rfl
@[simp] theorem seqNo_msgs : (apply s Upd.seqNo).msgs = s.msgs := rfl
@[simp] theorem seqNo_scOrder : (apply s Upd.seqNo).scOrder = s.scOrder := rfl
@[simp] theorem seqNo_warps : (apply s Upd.seqNo).warps = s.warps := rfl
@[simp] theorem seqNo_blocks : (apply s Upd.seqNo).blocks = s.blocks := rfl
@[simp] theorem seqNo_runs : (apply s Upd.seqNo).runs = s.runs := rfl
@[simp] theorem seqNo_gangs : (apply s Upd.seqNo).gangs = s.gangs := rfl
@[simp] theorem seqNo_grids : (apply s Upd.seqNo).grids = s.grids := rfl
@[simp] theorem seqNo_worlds : (apply s Upd.seqNo).worlds = s.worlds := rfl
@[simp] theorem seqNo_dies : (apply s Upd.seqNo).dies = s.dies := rfl
@[simp] theorem seqNo_rings : (apply s Upd.seqNo).rings = s.rings := rfl
@[simp] theorem seqNo_ops : (apply s Upd.seqNo).ops = s.ops := rfl
@[simp] theorem seqNo_subs : (apply s Upd.seqNo).subs = s.subs := rfl
@[simp] theorem seqNo_dev : (apply s Upd.seqNo).dev = s.dev := rfl
@[simp] theorem seqNo_cur : (apply s Upd.seqNo).cur = s.cur := rfl
@[simp] theorem seqNo_turns : (apply s Upd.seqNo).turns = s.turns := rfl
@[simp] theorem seqNo_free : (apply s Upd.seqNo).free = s.free := rfl
@[simp] theorem seqNo_seqNo : (apply s Upd.seqNo).seqNo = s.seqNo + 1 := rfl
@[simp] theorem seqNo_warpOf (j : Nat) : (apply s Upd.seqNo).warp j = s.warp j := rfl
@[simp] theorem seqNo_blockOf (j : Nat) : (apply s Upd.seqNo).block j = s.block j := rfl
@[simp] theorem seqNo_runOf (j : Nat) : (apply s Upd.seqNo).runOf j = s.runOf j := rfl
@[simp] theorem seqNo_gangOf (j : Nat) : (apply s Upd.seqNo).gang j = s.gang j := rfl
@[simp] theorem seqNo_gridOf (j : Nat) : (apply s Upd.seqNo).grid j = s.grid j := rfl
@[simp] theorem seqNo_worldOf (j : Nat) : (apply s Upd.seqNo).world j = s.world j := rfl
@[simp] theorem seqNo_dieOf (j : Nat) : (apply s Upd.seqNo).die j = s.die j := rfl
@[simp] theorem seqNo_ringOf (j : Nat) : (apply s Upd.seqNo).ring j = s.ring j := rfl
@[simp] theorem seqNo_opOf (j : Nat) : (apply s Upd.seqNo).op j = s.op j := rfl
@[simp] theorem seqNo_subOf (j : Nat) : (apply s Upd.seqNo).sub j = s.sub j := rfl

/-! The record or register an update names, and the others. -/

theorem stack_at (j : Nat) (w : Nat) (l : List StackEntry) : (apply s (Upd.stack w l)).warp j = if j = w then { s.warp w with stack := l.take 1024 } else s.warp j := Tab.get_put ..
theorem ctl_at (j : Nat) (w : Nat) (f : Ctl → Ctl) : (apply s (Upd.ctl w f)).warp j = if j = w then { s.warp w with ctl := f (s.warp w).ctl } else s.warp j := Tab.get_put ..
theorem warp_at (j : Nat) (w : Nat) (c : Ctl) : (apply s (Upd.warp w c)).warp j = if j = w then { ctl := c } else s.warp j := Tab.get_put ..
theorem block_at (j : Nat) (b : Nat) (f : Block → Block) : (apply s (Upd.block b f)).block j = if j = b then { f (s.block b) with spad := (s.block b).spad } else s.block j := Tab.get_put ..
theorem spadClear_at (j : Nat) (b : Nat) : (apply s (Upd.spadClear b)).block j = if j = b then { s.block b with spad := [] } else s.block j := Tab.get_put ..
theorem spad_at (j : Nat) (b a : Nat) (x : Byte) : (apply s (Upd.spad b a x)).block j = if j = b then { s.block b with spad := Tab.set 0 (s.block b).spad a x } else s.block j := Tab.get_put ..
theorem run_at (j : Nat) (r : Nat) (f : Run → Run) : (apply s (Upd.run r f)).runOf j = if j = r then f (s.runOf r) else s.runOf j := Tab.get_put ..
theorem gang_at (j : Nat) (g : Nat) (f : Gang → Gang) : (apply s (Upd.gang g f)).gang j = if j = g then f (s.gang g) else s.gang j := Tab.get_put ..
theorem grid_at (j : Nat) (g : Nat) (f : Grid → Grid) : (apply s (Upd.grid g f)).grid j = if j = g then f (s.grid g) else s.grid j := Tab.get_put ..
theorem world_at (j : Nat) (w : Nat) (f : World → World) : (apply s (Upd.world w f)).world j = if j = w then f (s.world w) else s.world j := Tab.get_put ..
theorem die_at (j : Nat) (d : Nat) (f : Die → Die) : (apply s (Upd.die d f)).die j = if j = d then f (s.die d) else s.die j := Tab.get_put ..
theorem ring_at (j : Nat) (c : Nat) (f : Ring → Ring) : (apply s (Upd.ring c f)).ring j = if j = c then f (s.ring c) else s.ring j := Tab.get_put ..
theorem op_at (j : Nat) (k : Nat) (f : Op → Op) : (apply s (Upd.op k f)).op j = if j = k then f (s.op k) else s.op j := Tab.get_put ..
theorem sub_at (j : Nat) (k : Nat) (f : Sub → Sub) : (apply s (Upd.sub k f)).sub j = if j = k then f (s.sub k) else s.sub j := Tab.get_put ..
theorem v_at (j : Nat) (w k : Nat) (x : Word) : (apply s (Upd.v w k x)).warp j =
    if j = w then { s.warp w with regs := { (s.warp w).regs with v := Tab.set 0 (s.warp w).regs.v k x } } else s.warp j := Tab.get_put ..
theorem sreg_at (j : Nat) (w n : Nat) (x : DWord) : (apply s (Upd.sreg w n x)).warp j =
    if j = w then { s.warp w with regs := { (s.warp w).regs with s := Tab.set 0 (s.warp w).regs.s n x } } else s.warp j := Tab.get_put ..
theorem preg_at (j : Nat) (w n : Nat) (x : Mask) : (apply s (Upd.preg w n x)).warp j =
    if j = w then { s.warp w with regs := { (s.warp w).regs with p := Tab.set 0 (s.warp w).regs.p n (x &&& Config.laneMask) } } else s.warp j := Tab.get_put ..
theorem mreg_at (j : Nat) (w n : Nat) (x : Mask) : (apply s (Upd.mreg w n x)).warp j =
    if j = w then { s.warp w with regs := { (s.warp w).regs with m := Tab.set 0 (s.warp w).regs.m n (x &&& Config.laneMask) } } else s.warp j := Tab.get_put ..
theorem fpsr_at (j : Nat) (w l : Nat) (x : BitVec 6) : (apply s (Upd.fpsr w l x)).warp j =
    if j = w then { s.warp w with regs := { (s.warp w).regs with fpsr := Tab.set 0 (s.warp w).regs.fpsr l x } } else s.warp j := Tab.get_put ..
theorem fpcr_at (j w : Nat) (x : Word) : (apply s (Upd.fpcr w x)).warp j =
    if j = w ∧ fpcrOk x = true then { s.warp w with regs := { (s.warp w).regs with fpcr := x } } else s.warp j := by
  simp only [apply]
  split
  · rename_i h; simp only [h, and_true]; exact Tab.get_put ..
  · rename_i h; simp [h]
/-- FPCR's update touches the warp alone. -/
theorem fpcr_only (w : Nat) (x : Word) : apply s (Upd.fpcr w x) = { s with warps := (apply s (Upd.fpcr w x)).warps } := by
  simp only [apply]; split <;> rfl
/-- An update of one warp leaves the rest of the state. -/
theorem regs_only (w : Nat) (f : WRegs → WRegs) : s.regs w f = { s with warps := (s.regs w f).warps } := rfl

end Sys2Proof.Machine.Upd
end

