-- ==== Sys2Proof/Laws/Prog.lean ====
section
/-!
SUPPORT. Laws of programs: how they run, that a property every update keeps is kept by every program, and that a program
which makes only updates of some kinds leaves everything else.
-/
namespace Sys2Proof.Machine

namespace Prog

variable {α β : Type}

@[simp] theorem run_ret (a : α) (s : State) : (Prog.ret a).run s = (a, s) := rfl
@[simp] theorem run_get (k : State → Prog α) (s : State) : (Prog.get k).run s = (k s).run s := rfl
@[simp] theorem run_upd (u : Upd) (k : Prog α) (s : State) : (Prog.upd u k).run s = k.run (u.apply s) := rfl

/-- A program in sequence: the second runs where the first ended. -/
@[simp] theorem run_bind (p : Prog α) (f : α → Prog β) (s : State) :
    (p.bind f).run s = (f (p.run s).1).run (p.run s).2 := by
  induction p generalizing s with
  | ret a => rfl
  | get k ih => exact ih s s
  | upd u k ih => exact ih (u.apply s)

/-- `do` notation is `bind`. -/
@[simp] theorem monad_bind (p : Prog α) (f : α → Prog β) :
    (letI := progMonad; p >>= f) = p.bind f := rfl
@[simp] theorem monad_pure (a : α) : (letI := progMonad; (pure a : Prog α)) = .ret a := rfl

theorem ret_bind (a : α) (f : α → Prog β) : (Prog.ret a).bind f = f a := rfl

/-- What every update keeps, every program keeps. -/
theorem run_keeps {I : State → Prop} (h : ∀ u s, I s → I (Upd.apply s u)) (p : Prog α) (s : State) (hs : I s) :
    I (p.run s).2 := by
  induction p generalizing s with
  | ret a => exact hs
  | get k ih => exact ih s s hs
  | upd u k ih => exact ih _ (h u s hs)

/-- Every update the program can make, from any state, satisfies `P`. -/
def Only (P : Upd → Prop) : Prog α → Prop
  | .ret _ => True
  | .get k => ∀ s, (k s).Only P
  | .upd u k => P u ∧ k.Only P

theorem only_ret {P : Upd → Prop} (a : α) : (Prog.ret a).Only P := trivial
theorem only_get {P : Upd → Prop} {k : State → Prog α} (h : ∀ s, (k s).Only P) : (Prog.get k).Only P := h
theorem only_upd {P : Upd → Prop} {u : Upd} {k : Prog α} (h : P u) (hk : k.Only P) : (Prog.upd u k).Only P := ⟨h, hk⟩

theorem only_bind {P : Upd → Prop} {p : Prog α} {f : α → Prog β} (h : p.Only P) (hf : ∀ a, (f a).Only P) :
    (p.bind f).Only P := by
  induction p with
  | ret a => exact hf a
  | get k ih => exact fun s => ih s (h s)
  | upd u k ih => exact ⟨h.1, ih h.2⟩

theorem Only.mono {P Q : Upd → Prop} {p : Prog α} (h : p.Only P) (pq : ∀ u, P u → Q u) : p.Only Q := by
  induction p with
  | ret a => trivial
  | get k ih => exact fun s => ih s (h s)
  | upd u k ih => exact ⟨pq u h.1, ih h.2⟩

/-- What the updates of a program leave unchanged, the program leaves unchanged. -/
theorem Only.run_eq {P : Upd → Prop} {γ : Type} {f : State → γ} {p : Prog α} (h : p.Only P)
    (hf : ∀ u s, P u → f (Upd.apply s u) = f s) (s : State) : f (p.run s).2 = f s := by
  induction p generalizing s with
  | ret a => rfl
  | get k ih => exact ih s (h s) s
  | upd u k ih => exact (ih h.2 _).trans (hf u s h.1)

end Prog

open Prog

@[simp] theorem run_st (s : State) : st.run s = (s, s) := rfl
@[simp] theorem run_gets {α : Type} (f : State → α) (s : State) : (gets f).run s = (f s, s) := rfl
@[simp] theorem run_updP (u : Upd) (s : State) : (upd u).run s = ((), u.apply s) := rfl
@[simp] theorem run_whenP (b : Bool) (p : Prog Unit) (s : State) :
    (whenP b p).run s = if b then p.run s else ((), s) := by unfold whenP; split <;> rfl
@[simp] theorem run_forAll_nil {α : Type} (f : α → Prog Unit) (s : State) : (forAll [] f).run s = ((), s) := rfl
@[simp] theorem run_forAll_cons {α : Type} (a : α) (t : List α) (f : α → Prog Unit) (s : State) :
    (forAll (a :: t) f).run s = (forAll t f).run ((f a).run s).2 := by simp [forAll]
@[simp] theorem run_mapAll_nil {α β : Type} (f : α → Prog β) (s : State) : (mapAll [] f).run s = ([], s) := rfl
@[simp] theorem run_mapAll_cons {α β : Type} (a : α) (t : List α) (f : α → Prog β) (s : State) :
    (mapAll (a :: t) f).run s =
      (((f a).run s).1 :: ((mapAll t f).run ((f a).run s).2).1, ((mapAll t f).run ((f a).run s).2).2) := by
  simp [mapAll]

/-- A meaning always answers a next state. -/
theorem next_eq (p : Prog Unit) (s : State) : next p s = .next (p.run s).2 := rfl

theorem only_whenP {P : Upd → Prop} {b : Bool} {p : Prog Unit} (h : p.Only P) : (whenP b p).Only P := by
  unfold whenP; split
  · exact h
  · trivial

theorem only_forAll {α : Type} {P : Upd → Prop} {l : List α} {f : α → Prog Unit} (h : ∀ a, (f a).Only P) :
    (forAll l f).Only P := by
  induction l with
  | nil => trivial
  | cons a t ih => exact only_bind (h a) fun _ => ih

theorem only_mapAll {α β : Type} {P : Upd → Prop} {l : List α} {f : α → Prog β} (h : ∀ a, (f a).Only P) :
    (mapAll l f).Only P := by
  induction l with
  | nil => trivial
  | cons a t ih => exact only_bind (h a) fun _ => only_bind ih fun _ => trivial

/-- After a program run once for each element, what each run keeps. -/
theorem forAll_keeps {α : Type} {I : State → Prop} {l : List α} {f : α → Prog Unit}
    (h : ∀ a ∈ l, ∀ s, I s → I ((f a).run s).2) (s : State) (hs : I s) : I ((forAll l f).run s).2 := by
  induction l generalizing s with
  | nil => exact hs
  | cons a t ih =>
    rw [run_forAll_cons]
    exact ih (fun b hb => h b (by simp [hb])) _ (h a (by simp) s hs)

end Sys2Proof.Machine
end

