-- ==== Sys2Proof/Laws/Atomics.lean ====
section
/-!
SUPPORT. The order of the lanes of an atomic (R130, R281): some permutation of them.
-/
namespace Sys2Proof.Machine

/-- A free order is a permutation, and takes free values only. -/
theorem shuffle_spec {α : Type} (l : List α) (s : State) :
    ((shuffle l).run s).1.Perm l ∧ ((shuffle l).run s).2 = { s with free := s.free + l.length } := by
  induction l with
  | nil => exact ⟨.nil, rfl⟩
  | cons a t ih =>
    simp only [shuffle, Prog.run_bind]
    refine ⟨?_, ?_⟩
    · show (List.take _ _ ++ a :: List.drop _ _).Perm _
      refine List.perm_middle.trans ((List.Perm.cons a ?_))
      rw [List.take_append_drop]; exact ih.1
    · show ({ ((shuffle t).run s).2 with free := ((shuffle t).run s).2.free + 1 } : State) = _
      rw [ih.2]; rfl

/-- The order of the lanes of an atomic is a permutation of them. -/
theorem atomOrder_spec (op : AtomOp) (red : Bool) (as : List Acc) (s : State) :
    ((atomOrder op red as).run s).1.Perm as ∧ ∃ n, ((atomOrder op red as).run s).2 = { s with free := n } := by
  unfold atomOrder; split
  · exact ⟨.refl _, s.free, rfl⟩
  · exact ⟨(shuffle_spec as s).1, _, (shuffle_spec as s).2⟩
end Sys2Proof.Machine
end

