-- ==== Sys2Proof/Laws/Mem.lean ====
section
/-!
SUPPORT. Every operation keeps memory in its canonical form, and every instruction and event is a program over the updates.
-/
namespace Sys2Proof.Machine

/-- Every update keeps memory in its canonical form. -/
theorem upd_keeps_memory (u : Upd) (s : State) (h : Memory.wf s.mem) : Memory.wf (Upd.apply s u).mem := by
  cases u with
  | mem a b => exact Tab.wf_set _ _ _ h
  | fpcr w x => rw [Upd.fpcr_only]; exact h
  | powerOn => exact Tab.wf_filter _ h
  | _ => exact h

/-- Every program keeps memory in its canonical form: the named operations over memory among them. -/
theorem run_keeps_memory {α : Type} (p : Prog α) (s : State) (h : Memory.wf s.mem) : Memory.wf (p.run s).2.mem :=
  Prog.run_keeps (I := fun s => Memory.wf s.mem) upd_keeps_memory p s h

/-- Storing bytes at physical addresses keeps the canonical form. -/
theorem physStore_keeps_memory (a : Nat) (bs : List Byte) (s : State) (h : Memory.wf s.mem) :
    Memory.wf ((physStore a bs).run s).2.mem := run_keeps_memory _ s h

/-- Memory at reset is in its canonical form. -/
theorem reset_memory_wf : Memory.wf State.reset.mem := rfl

/-- A read after a write of the same physical byte gives the byte written. -/
theorem mem_read_self (s : State) (a : Nat) (b : Byte) (h : Memory.wf s.mem) :
    Tab.get 0 (Upd.apply s (.mem a b)).mem a = b := by
  simp [Tab.get_set_self _ _ _ (Tab.wf_sorted h)]

/-- A write leaves every other physical byte alone. -/
theorem mem_read_ne (s : State) {a x : Nat} (b : Byte) (h : x ≠ a) :
    Tab.get 0 (Upd.apply s (.mem a b)).mem x = Tab.get 0 s.mem x := by
  simp [Tab.get_set_ne _ _ _ h]

/-- An instruction or event runs one program: it answers a next state, never a fault or a refusal. -/
theorem exec_run (i : Instr) (s : State) : ∃ p : Prog Unit, exec i s = .next (p.run s).2 := by
  cases i <;> exact ⟨_, rfl⟩

end Sys2Proof.Machine
end

