-- ==== Sys2Proof/Laws/Issue.lean ====
section
/-!
SUPPORT. What the shared operations of issue do: one lemma each for the run's bookkeeping, the completion of an
instruction, and the issue of one that completes.
-/
namespace Sys2Proof.Machine

/-- `u` differs from `s` in warp `w` only. -/
structure Near (w : Nat) (s u : State) : Prop where
  rest : OnlyWarps s u
  others : ∀ j, j ≠ w → u.warp j = s.warp j

theorem Near.refl (w : Nat) (s : State) : Near w s s := ⟨rfl, fun _ _ => rfl⟩

theorem Near.trans {w : Nat} {s u v : State} (a : Near w s u) (b : Near w u v) : Near w s v :=
  ⟨by have h := b.rest; have g := a.rest; unfold OnlyWarps at *; rw [h, g], fun j h => (b.others j h).trans (a.others j h)⟩

theorem Near.runOf {w : Nat} {s u : State} (h : Near w s u) (r : Nat) : u.runOf r = s.runOf r := by
  have := h.rest; unfold OnlyWarps at this; rw [this]; rfl
theorem Near.gang {w : Nat} {s u : State} (h : Near w s u) (g : Nat) : u.gang g = s.gang g := by
  have := h.rest; unfold OnlyWarps at this; rw [this]; rfl
theorem Near.grid {w : Nat} {s u : State} (h : Near w s u) (g : Nat) : u.grid g = s.grid g := by
  have := h.rest; unfold OnlyWarps at this; rw [this]; rfl
theorem Near.block {w : Nat} {s u : State} (h : Near w s u) (b : Nat) : u.block b = s.block b := by
  have := h.rest; unfold OnlyWarps at this; rw [this]; rfl
theorem Near.cur {w : Nat} {s u : State} (h : Near w s u) : u.cur = s.cur := by
  have := h.rest; unfold OnlyWarps at this; rw [this]
theorem Near.seqNo {w : Nat} {s u : State} (h : Near w s u) : u.seqNo = s.seqNo := by
  have := h.rest; unfold OnlyWarps at this; rw [this]
theorem Near.time {w : Nat} {s u : State} (h : Near w s u) : u.time = s.time := by
  have := h.rest; unfold OnlyWarps at this; rw [this]
theorem Near.gangOfWarp {w : Nat} {s u : State} (h : Near w s u) (x : Nat) : u.gangOfWarp x = s.gangOfWarp x := by
  unfold State.gangOfWarp; rw [h.runOf]
theorem Near.checkedWarp {w : Nat} {s u : State} (h : Near w s u) (x : Nat) : u.checkedWarp x = s.checkedWarp x := by
  unfold State.checkedWarp; rw [h.gangOfWarp, h.gang]

theorem near_ctl (s : State) (w : Nat) (f : Ctl → Ctl) : Near w s (Upd.apply s (.ctl w f)) :=
  ⟨rfl, fun j h => by rw [Upd.ctl_at, if_neg h]⟩
theorem near_v (s : State) (w k : Nat) (x : Word) : Near w s (Upd.apply s (.v w k x)) :=
  ⟨rfl, fun j h => by rw [Upd.v_at, if_neg h]⟩
theorem near_sreg (s : State) (w k : Nat) (x : DWord) : Near w s (Upd.apply s (.sreg w k x)) :=
  ⟨rfl, fun j h => by rw [Upd.sreg_at, if_neg h]⟩
theorem near_preg (s : State) (w k : Nat) (x : Mask) : Near w s (Upd.apply s (.preg w k x)) :=
  ⟨rfl, fun j h => by rw [Upd.preg_at, if_neg h]⟩
theorem near_mreg (s : State) (w k : Nat) (x : Mask) : Near w s (Upd.apply s (.mreg w k x)) :=
  ⟨rfl, fun j h => by rw [Upd.mreg_at, if_neg h]⟩
theorem near_fpsr (s : State) (w k : Nat) (x : BitVec 6) : Near w s (Upd.apply s (.fpsr w k x)) :=
  ⟨rfl, fun j h => by rw [Upd.fpsr_at, if_neg h]⟩
theorem near_fpcr (s : State) (w : Nat) (x : Word) : Near w s (Upd.apply s (.fpcr w x)) :=
  ⟨Upd.fpcr_only .., fun j h => by rw [Upd.fpcr_at, if_neg (by simp [h])]⟩
theorem near_stack (s : State) (w : Nat) (l : List StackEntry) : Near w s (Upd.apply s (.stack w l)) :=
  ⟨rfl, fun j h => by rw [Upd.stack_at, if_neg h]⟩

/-! ### Folds of an unchecked gang -/

/-- An unchecked warp keeps no signature (R165). -/
theorem foldSig_unchecked {s : State} {w : Nat} (h : s.checkedWarp w = false) (ds : List DWord) :
    (foldSig w ds).run s = ((), s) := by simp [foldSig, h]

/-- An unchecked warp has no segments (R168). -/
theorem segEnd_unchecked {s : State} {w : Nat} (h : s.checkedWarp w = false) (b : Bool) :
    (segEnd w b).run s = ((), s) := by simp [segEnd, h]

theorem copySegEnd_unchecked {s : State} {w : Nat} (h : s.checkedWarp w = false) :
    (copySegEnd w).run s = ((), s) := by simp [copySegEnd, State.isCopy, h]

theorem loggedFault_unchecked {s : State} {w : Nat} (h : s.checkedWarp w = false) : s.loggedFault w = none := by
  simp [State.loggedFault, State.isCopy, h]

/-- A uniform result of an unchecked warp is one register write. -/
theorem writeS_unchecked {s : State} {w : Nat} (h : s.checkedWarp w = false) (r : Nat) (v : DWord) :
    (writeS w r v).run s = ((), Upd.apply s (.sreg w r v)) := by
  have h' : (Upd.apply s (.sreg w r v)).checkedWarp w = false := by rw [(near_sreg s w r v).checkedWarp]; exact h
  simp [writeS, foldSig_unchecked h']

/-! ### The run's bookkeeping -/

/-- Noting a run changes its own list and nothing else. -/
theorem noted_near (i : Instr) (s : State) : Near s.cur s (noted i s) := by
  unfold noted noteRun
  simp only [Prog.run_get]
  split
  · exact Near.refl ..
  · simp only [run_updP]; exact near_ctl ..

theorem noted_warp (i : Instr) (s : State) : (noted i s).warp s.cur =
    { s.warp s.cur with ctl := { (s.warp s.cur).ctl with runOld := ((noted i s).warp s.cur).ctl.runOld } } := by
  unfold noted noteRun
  simp only [Prog.run_get]
  split
  · rfl
  · simp [Upd.ctl_at]

theorem noted_regs (i : Instr) (s : State) : ((noted i s).warp s.cur).regs = (s.warp s.cur).regs := by rw [noted_warp]
theorem noted_stack (i : Instr) (s : State) : ((noted i s).warp s.cur).stack = (s.warp s.cur).stack := by rw [noted_warp]

/-- With no register of the run read unseen, the effect runs as it is (R194). -/
theorem seeEither_seen {w : Nat} {i : Instr} {before : Tab (List Word)} (h : ∀ e ∈ before, readsHidden i e.1 = false)
    (eff : Prog Res) : seeEither w i before eff = eff := by
  have : before.filter (fun e => readsHidden i e.1) = [] := by simpa [List.filter_eq_nil_iff] using h
  simp [seeEither, this]

/-- Issue of an instruction that can issue: its effect, then what it ends in. -/
theorem issue_run {i : Instr} {s : State} (h : CanIssue i s) (eff : Nat → Prog Res) :
    (issue i eff).run s =
      (finish s.cur i ((eff s.cur).run (noted i s)).1).run ((eff s.cur).run (noted i s)).2 := by
  have hn : (noted i s).checkedWarp s.cur = false := by rw [(noted_near i s).checkedWarp]; exact h.unchecked
  have hl := loggedFault_unchecked (s := s) (w := s.cur) h.unchecked
  have hr : ¬((s.warp s.cur).ctl.runCnt.val = 16) := by have := h.room; omega
  simp [issue, h.ready, h.resident, h.checks, hr, copySegEnd_unchecked h.unchecked, hl, seeEither_seen h.seen, noted]

/-- A program is the issue of an instruction. -/
def IsIssue (i : Instr) (p : Prog Unit) : Prop := ∃ eff, p = issue i eff

section
variable (i : Instr) (h : Hd)
theorem isIssue (eff : Nat → Prog Res) : IsIssue i (issue i eff) := ⟨_, rfl⟩
theorem isIssue_U (eff : Nat → Prog Res) : IsIssue i (issueU i h eff) := ⟨_, rfl⟩
theorem isIssue_V (eff : Nat → List Nat → Prog Res) : IsIssue i (issueV i h eff) := ⟨_, rfl⟩
theorem isIssue_L (wr : State → Nat → List Nat → List Nat) (eff : Nat → List Nat → Prog Res) :
    IsIssue i (issueL i h wr eff) := ⟨_, rfl⟩
theorem isIssue_mem (eff : State → Nat → List Nat → Prog Res) : IsIssue i (issueMem i h eff) := ⟨_, rfl⟩
theorem isIssue_uniform (d : SReg) (f : State → Nat → DWord) : IsIssue i (uniformOp i h d f) := isIssue_U ..
theorem isIssue_vector (d : VOp) (k : Nat) (f : State → Nat → List Nat → Nat → Nat) : IsIssue i (vectorOp i h d k f) :=
  isIssue_V ..
theorem isIssue_float (d : VOp) (k : Nat) (f : State → Nat → List Nat → Nat → Nat × Fl) : IsIssue i (floatOp i h d k f) :=
  isIssue_V ..
theorem isIssue_int (o : VBin) (f : Int → Int → Int) : IsIssue i (intOp i o f) := isIssue_vector ..
theorem isIssue_bit (o : VBin) (f : Nat → Nat → Nat) : IsIssue i (bitOp i o f) := isIssue_vector ..
theorem isIssue_ctl (o : VBin) (f : Nat → Nat → Nat) : IsIssue i (ctlOp i o f) := isIssue_vector ..
theorem isIssue_un (o : VUn) (k : Nat) (f : Nat → Nat) : IsIssue i (unOp i o k f) := isIssue_vector ..
theorem isIssue_fbin (o : FBin) (f : FT → RM → Word → Nat → Nat → Nat × Fl) : IsIssue i (floatBin i o f) := isIssue_float ..
theorem isIssue_fun (d a : VOp) (t : FT) (k : Nat) (f : Word → Nat → Nat × Fl) : IsIssue i (floatUn i h d a t k f) :=
  isIssue_float ..
theorem isIssue_rdx (b : Bool) (o : Rdx) : IsIssue i (rdxOp i b o) := isIssue_L ..
end

theorem next_issue {i : Instr} {p : Prog Unit} {s : State} (h : IsIssue i p) : ∃ eff, next p s = next (issue i eff) s :=
  h.elim fun e h => ⟨e, congrArg (next · s) h⟩

/-- Every instruction of the opcode map (not an event) is issued by the one operation of R201. -/
theorem exec_issue (i : Instr) (s : State) (h : i.hd ≠ none) : ∃ eff, exec i s = next (issue i eff) s := by
  cases i <;> first
    | exact absurd rfl h
    | (refine next_issue (p := ?_) ?_
       with_reducible first
         | exact isIssue .. | exact isIssue_U .. | exact isIssue_V .. | exact isIssue_L .. | exact isIssue_mem ..
         | exact isIssue_uniform .. | exact isIssue_vector .. | exact isIssue_float .. | exact isIssue_int ..
         | exact isIssue_bit .. | exact isIssue_ctl .. | exact isIssue_un .. | exact isIssue_fbin ..
         | exact isIssue_fun .. | exact isIssue_rdx ..)

/-- Completing an instruction of an unchecked warp with no deferred fault waiting. -/
theorem complete_run {w : Nat} {i : Instr} {pc : DWord} {st : WStatus} {u : State} (hu : u.checkedWarp w = false)
    (hh : (u.warp w).ctl.held = []) (hs : (u.warp w).ctl.status ≠ .stopped) :
    ∃ t, (complete w i pc st).run u = ((), t) ∧ Near w u t ∧ (t.warp w).regs = (u.warp w).regs ∧
      (t.warp w).stack = (u.warp w).stack ∧
      (t.warp w).ctl = { (u.warp w).ctl with
        pc := pc, contPc := (u.warp w).ctl.pc, issued := (u.warp w).ctl.issued + 1
        runCnt := if marked i then 0 else Fin.ofNat 17 ((u.warp w).ctl.runCnt.val + 1)
        runLog := if marked i then [] else (u.warp w).ctl.runLog ++ [runItem i (u.warp w).ctl.pc]
        runOld := if marked i then [] else (u.warp w).ctl.runOld
        status := if st = .ready ∧ marked i then .parked .results else st
        retry := none, poured := 0, arrived := none, mwDone := 0, mwWords := []
        waitFrom := if st = .ready then none else some u.time
        lastIssue := u.seqNo } := by
  refine ⟨_, rfl, ?_⟩
  simp only [Prog.monad_bind, Prog.run_bind, run_whenP, Prog.run_ret]
  generalize hv : Upd.apply u (.ctl w _) = v
  have hnear : Near w u v := hv ▸ near_ctl ..
  have hc : v.checkedWarp w = false := by rw [hnear.checkedWarp]; exact hu
  have hheld : (v.warp w).ctl.held = [] := by rw [← hv, Upd.ctl_at]; simp [hh]
  have hrec : (recordDeferred w).run v = ((), v) := by simp [recordDeferred, hheld]
  have : (if (decide (st = .ready) && !marked i) = true then (recordDeferred w).run v else ((), v)) = ((), v) := by
    split <;> simp [hrec]
  have seg : (if decide (2048 ≤ (u.warp w).ctl.lines) = true then (segEnd w false).run v else ((), v)) = ((), v) := by
    split <;> simp [segEnd_unchecked hc]
  simp only [seg, this]
  refine ⟨hnear, ?_, ?_, ?_⟩ <;> (rw [← hv, Upd.ctl_at]; simp [hs])

/-- AN INSTRUCTION THAT COMPLETES: if its effect ends well, or with a jump, and leaves the control state `c` (but for the
run's own list), then `i` has issued and goes on at the next address, or at the jump's. -/
theorem issue_ends {i : Instr} {s u : State} {eff : Nat → Prog Res} {r : Res} {a : DWord} {c : Ctl} (h : CanIssue i s)
    (he : (eff s.cur).run (noted i s) = (r, u)) (ha : (r = .ok ∧ a = nextPc c.pc i) ∨ r = .jump a)
    (hu : u.checkedWarp s.cur = false) (hc : ∃ x, (u.warp s.cur).ctl = { c with runOld := x })
    (h1 : c.runCnt = s.ctlOf.runCnt) (h2 : c.issued = s.ctlOf.issued) (h3 : c.held = s.ctlOf.held) (h4 : c.status = s.ctlOf.status) :
    ∃ t, (issue i eff).run s = ((), t) ∧ Near s.cur u t ∧ (t.warp s.cur).regs = (u.warp s.cur).regs ∧
      (t.warp s.cur).stack = (u.warp s.cur).stack ∧
      ((∀ w, w ≠ s.cur → u.warp w = s.warp w) → IssuedAs i s t a (goesOn i) c) := by
  obtain ⟨x, hx0⟩ := hc
  have hheld : (u.warp s.cur).ctl.held = [] := by rw [hx0]; exact h3.trans h.noneHeld
  obtain ⟨t, ht, hn, hr, hst, hx⟩ := complete_run (i := i) (pc := a) (st := .ready) hu hheld
    (by rw [hx0]; simp [h4, h.ready])
  refine ⟨t, ?_, hn, hr, hst, fun ho => ?_⟩
  · rw [issue_run h, he]
    rcases ha with ⟨rfl, rfl⟩ | rfl
    · have : (u.warp s.cur).ctl.pc = c.pc := by rw [hx0]
      simp only [finish, Prog.run_get, this]; exact ht
    · simp only [finish, Prog.run_get]; exact ht
  · refine ⟨fun w hw' => (hn.others w hw').trans (ho w hw'), ?_, ?_, ?_, ?_, ?_⟩
    · rw [hx]
    · rw [hx]; simp [goesOn]
    · rw [hx, hx0]
      have hroom := h.room
      simp only [State.ctlOf] at h1
      by_cases m : marked i <;> simp [m, Fin.ofNat, h1]
      omega
    · rw [hx, hx0]; simp [h2]
    · simp only [hx, hx0]

/-- The control state with which an instruction begins is the warp's, but for the run's own list. -/
theorem noted_ctl (i : Instr) (s : State) : ∃ x, ((noted i s).warp s.cur).ctl = { s.ctlOf with runOld := x } :=
  ⟨_, by rw [noted_warp]⟩

/-- The same where nothing outside the warp changed. -/
theorem issue_completes {i : Instr} {s u : State} {eff : Nat → Prog Res} (h : CanIssue i s)
    (he : (eff s.cur).run (noted i s) = (.ok, u)) (hu : Near s.cur (noted i s) u)
    (hc : (u.warp s.cur).ctl = ((noted i s).warp s.cur).ctl) (hs : (u.warp s.cur).stack = (s.warp s.cur).stack) :
    ∃ t, (issue i eff).run s = ((), t) ∧ Completes i s t ∧ (t.warp s.cur).regs = (u.warp s.cur).regs := by
  have hn := (noted_near i s).trans hu
  obtain ⟨t, ht, hnear, hr, hst, hi⟩ := issue_ends h he (.inl ⟨rfl, rfl⟩) (by rw [hn.checkedWarp]; exact h.unchecked)
    (hc ▸ noted_ctl i s) rfl rfl rfl rfl
  exact ⟨t, ht, ⟨hi hn.others, hst.trans hs, (hn.trans hnear).rest⟩, hr⟩

/-- An instruction that ends in a fault takes it (R60). -/
theorem issue_fault {i : Instr} {s u : State} {eff : Nat → Prog Res} {f : FaultInfo} (h : CanIssue i s)
    (he : (eff s.cur).run (noted i s) = (.fault f, u)) : (issue i eff).run s = (takeFault s.cur f).run u := by
  rw [issue_run h, he]; rfl

end Sys2Proof.Machine
end

