-- ==== Sys2Proof/Laws/Operands.lean ====
section
/-!
SUPPORT. What the operand layer does: reading the state an effect starts in, writing results, and the wrappers of
instructions that act once for the warp or lane by lane.
-/
namespace Sys2Proof.Machine

/-! ### What every step keeps, at the running warp -/

theorem inv_warp {s : State} (h : s.Inv = true) (w : Nat) : (s.warp w).ok = true := by
  simp only [State.Inv, Bool.and_eq_true, List.all_eq_true] at h
  exact Tab.get_forall (P := fun x : Warp => x.ok = true) (d := {}) (fun e he => h.1.2 e he) (by decide) w

theorem ok_v {x : Warp} (h : x.ok = true) : Tab.sortedFrom 0 x.regs.v = true := by
  simp only [Warp.ok, WRegs.ok, Bool.and_eq_true] at h
  exact Tab.wf_sorted h.1.1.1.1.1.1.1.1
theorem ok_s {x : Warp} (h : x.ok = true) : Tab.sortedFrom 0 x.regs.s = true := by
  simp only [Warp.ok, WRegs.ok, Bool.and_eq_true] at h
  exact Tab.wf_sorted h.1.1.1.1.1.1.1.2
theorem ok_p {x : Warp} (h : x.ok = true) : Tab.sortedFrom 0 x.regs.p = true := by
  simp only [Warp.ok, WRegs.ok, Bool.and_eq_true] at h
  exact Tab.wf_sorted h.1.1.1.1.1.1.2
theorem ok_m {x : Warp} (h : x.ok = true) : Tab.sortedFrom 0 x.regs.m = true := by
  simp only [Warp.ok, WRegs.ok, Bool.and_eq_true] at h
  exact Tab.wf_sorted h.1.1.1.1.1.2

/-! ### Reads in the state an effect starts in -/

section
variable (i : Instr) (s : State)
@[simp] theorem noted_sreg (r : Nat) : (noted i s).sreg s.cur r = s.sreg s.cur r := by
  unfold State.sreg; rw [noted_regs]
@[simp] theorem noted_vreg (r l : Nat) : (noted i s).vreg s.cur r l = s.vreg s.cur r l := by
  unfold State.vreg; rw [noted_regs]
@[simp] theorem noted_mreg (n : Nat) : (noted i s).mreg s.cur n = s.mreg s.cur n := by
  unfold State.mreg; rw [noted_regs]
@[simp] theorem noted_m0 : (noted i s).m0 s.cur = s.m0 s.cur := by unfold State.m0; rw [noted_regs]
@[simp] theorem noted_predMask (p : PSrc) : (noted i s).predMask s.cur p = s.predMask s.cur p := by
  unfold State.predMask; rw [noted_regs]
@[simp] theorem noted_vwide (r l n : Nat) : (noted i s).vwide s.cur r l n = s.vwide s.cur r l n := by
  unfold State.vwide; simp
@[simp] theorem noted_vpair (r l : Nat) : (noted i s).vpair s.cur r l = s.vpair s.cur r l := by
  unfold State.vpair; simp
@[simp] theorem noted_fpcr : (noted i s).fpcr s.cur = s.fpcr s.cur := by unfold State.fpcr; rw [noted_regs]
@[simp] theorem noted_fpsr (l : Nat) : (noted i s).fpsr s.cur l = s.fpsr s.cur l := by unfold State.fpsr; rw [noted_regs]
@[simp] theorem noted_srcU (b : SrcU) : (noted i s).srcU s.cur b = s.srcU s.cur b := by cases b <;> simp [State.srcU]
@[simp] theorem noted_cur : (noted i s).cur = s.cur := (noted_near i s).cur
@[simp] theorem noted_effMask (h : Hd) : effMask (noted i s) s.cur h = effMask s s.cur h := by
  have : ((noted i s).warp s.cur).ctl.retry = (s.warp s.cur).ctl.retry := by rw [noted_warp]
  unfold effMask; simp [this]
@[simp] theorem noted_uniformOn (h : Hd) : uniformOn (noted i s) s.cur h = uniformOn s s.cur h := by
  unfold uniformOn; simp
@[simp] theorem noted_predLow (p : PSrc) : (noted i s).predLow s.cur p = s.predLow s.cur p := by
  unfold State.predLow; simp
@[simp] theorem noted_streamOf (q : Nat) : (noted i s).streamOf s.cur q = s.streamOf s.cur q := by
  unfold State.streamOf; rw [noted_warp, (noted_near i s).block]
@[simp] theorem noted_opnd (ls : List Nat) (r : VOp) (k l : Nat) :
    (noted i s).opnd s.cur ls r k l = s.opnd s.cur ls r k l := by cases r <;> simp [State.opnd]
@[simp] theorem noted_srcB (ls : List Nat) (b : SrcB) (k : Nat) (x : Bool) (l : Nat) :
    (noted i s).srcB s.cur ls b k x l = s.srcB s.cur ls b k x l := by cases b <;> simp [State.srcB]
@[simp] theorem noted_opndF (ls : List Nat) (r : VOp) (t : FT) (l : Nat) :
    (noted i s).opndF s.cur ls r t l = s.opndF s.cur ls r t l := by simp [State.opndF]
@[simp] theorem noted_srcF (ls : List Nat) (b : SrcB) (t : FT) (l : Nat) :
    (noted i s).srcF s.cur ls b t l = s.srcF s.cur ls b t l := by cases b <;> simp [State.srcF]
end

/-! ### Instructions that act once for the warp -/

/-- UNIFORM RESULTS (R222): an instruction that executes writes S[d] and completes. -/
theorem uniformOp_spec {i : Instr} {h : Hd} {d : SReg} {f : State → Nat → DWord} {s : State} (inv : s.Inv = true)
    (hi : CanIssue i s) (on : uniformOn s s.cur h = true) :
    ∃ t, next (uniformOp i h d f) s = .next t ∧ Completes i s t ∧ SWrites s t d (f (noted i s) s.cur) := by
  have hn := noted_near i s
  have hc : (noted i s).checkedWarp s.cur = false := by rw [hn.checkedWarp]; exact hi.unchecked
  let u := Upd.apply (noted i s) (.sreg s.cur d.val (f (noted i s) s.cur))
  have hu : u.warp s.cur = { (noted i s).warp s.cur with
      regs := { ((noted i s).warp s.cur).regs with s := Tab.set 0 ((noted i s).warp s.cur).regs.s d.val (f (noted i s) s.cur) } } := by
    simp only [u, Upd.sreg_at, if_pos]
  obtain ⟨t, ht, hcomp, hr⟩ := issue_completes (u := u) (eff := fun w => .get fun s =>
      if uniformOn s w h then .get fun s => .bind (writeS w d.val (f s w)) fun _ => .ret .ok else .ret .ok) hi
    (by simp [on, writeS_unchecked hc, u]) (near_sreg ..) (by rw [hu]) (by rw [hu]; exact noted_stack i s)
  refine ⟨t, by simp [next, uniformOp, issueU, ht], hcomp, ?_⟩
  have hr' : t.regsOf = (u.warp s.cur).regs := by
    have : t.cur = s.cur := by have h := hcomp.rest; unfold OnlyWarps at h; rw [h]
    simp only [State.regsOf, this, hr]
  constructor
  · rw [hr', hu, noted_regs]
  · intro r
    have hs := ok_s (inv_warp inv s.cur)
    simp only [State.sreg]
    rw [hr, hu]
    simp only [noted_regs]
    exact Tab.get_set _ _ _ _ hs

/-- An instruction that acts once for the warp and whose predicate is false there completes with no effect (R191,
R205). -/
theorem issueU_off {i : Instr} {h : Hd} {eff : Nat → Prog Res} {s : State} (hi : CanIssue i s)
    (off : uniformOn s s.cur h = false) :
    ∃ t, next (issueU i h eff) s = .next t ∧ Completes i s t ∧ (t.warp s.cur).regs = (s.warp s.cur).regs := by
  obtain ⟨t, ht, hc, hr⟩ := issue_completes (u := noted i s)
    (eff := fun w => .get fun s => if uniformOn s w h then eff w else .ret .ok) hi (by simp [off]) (Near.refl ..) rfl
    (noted_stack i s)
  exact ⟨t, by simp [next, issueU, ht], hc, hr.trans (noted_regs i s)⟩

/-! ### Instructions that act lane by lane -/

theorem no_q {i : Instr} (h : i.qRefs = []) : ∀ x ∈ i.regs.v, ∃ n, x.r = .v n := by
  intro x hx
  have := List.filterMap_eq_nil_iff.1 h x hx
  split at this
  · simp at this
  · exact ⟨_, by assumption⟩

/-- An instruction that names no queue register is never held by one (R296). -/
theorem qGate_none {i : Instr} (h : i.qRefs = []) (w : Nat) (ls : List Nat) (lw : Nat → List Nat) (s : State) :
    (qGate w i ls lw).run s = (none, s) := by
  have hv := no_q h
  have h1 (n : VRef → Nat) : (i.regs.v.find? fun x => !qUseOk s w x ls.length (n x)) = none := by
    rw [List.find?_eq_none]; intro x hx
    obtain ⟨n, hn⟩ := hv x hx
    simp [qUseOk, hn]
  have h3 : qWrites i = [] := by
    unfold qWrites
    rw [List.filterMap_eq_nil_iff.2]; · rfl
    intro x hx; obtain ⟨n, hn⟩ := hv x hx; simp [hn]
  have h2 : qReads s w i = [] := by
    unfold qReads
    rw [List.filterMap_eq_nil_iff.2]; · rfl
    intro x hx; obtain ⟨n, hn⟩ := hv x hx; simp [hn]
  simp [qGate, h1, h2, h3, pushWait]

theorem qPop_none {i : Instr} (h : i.qRefs = []) (w n : Nat) (s : State) : (qPop w i n).run s = ((), s) := by
  have h2 : qReads s w i = [] := by
    unfold qReads
    rw [List.filterMap_eq_nil_iff.2]; · rfl
    intro x hx; obtain ⟨n, hn⟩ := no_q h x hx; simp [hn]
  simp [qPop, h2]

/-- Writes of vector registers, as the state after them: the warp alone, registers alone. -/
structure VOnly (w : Nat) (s u : State) : Prop where
  near : Near w s u
  warp : u.warp w = { s.warp w with regs := { (s.warp w).regs with v := (u.warp w).regs.v } }
  sorted : Tab.sortedFrom 0 (s.warp w).regs.v = true → Tab.sortedFrom 0 (u.warp w).regs.v = true

theorem VOnly.refl (w : Nat) (s : State) : VOnly w s s := ⟨Near.refl .., rfl, id⟩
theorem VOnly.trans {w : Nat} {s u v : State} (a : VOnly w s u) (b : VOnly w u v) : VOnly w s v :=
  ⟨a.near.trans b.near, by rw [b.warp, a.warp], b.sorted ∘ a.sorted⟩

theorem vOnly_v (s : State) (w k : Nat) (x : Word) : VOnly w s (Upd.apply s (.v w k x)) :=
  ⟨near_v .., by simp [Upd.v_at], fun h => by simp [Upd.v_at, Tab.sortedFrom_set _ h]⟩

theorem vreg_v {s : State} {w k : Nat} {x : Word} (h : Tab.sortedFrom 0 (s.warp w).regs.v = true) (r l : Nat) :
    (Upd.apply s (.v w k x)).vreg w r l = if r * 128 + l = k then x else s.vreg w r l := by
  simp only [State.vreg, Upd.v_at, if_pos]; exact Tab.get_set _ _ _ _ h

/-- One lane's value in consecutive registers (R48). -/
theorem putV_run (w r l words v : Nat) (s : State) (hl : l < 128) (h : Tab.sortedFrom 0 (s.warp w).regs.v = true) :
    ∃ u, (putV w r l words v).run s = ((), u) ∧ VOnly w s u ∧
      ∀ r' l', l' < 128 → u.vreg w r' l' =
        if l' = l ∧ r ≤ r' ∧ r' < r + words then BitVec.ofNat 32 (v / 2 ^ (32 * (r' - r))) else s.vreg w r' l' := by
  unfold putV
  induction words with
  | zero => exact ⟨s, by simp, VOnly.refl .., fun r' l' _ => by rw [if_neg (by omega)]⟩
  | succ n ih =>
    obtain ⟨u, hu, ho, hr⟩ := ih
    refine ⟨Upd.apply u (.v w ((r + n) * 128 + l) (BitVec.ofNat 32 (v / 2 ^ (32 * n)))), ?_, ho.trans (vOnly_v ..), ?_⟩
    · rw [List.range_succ]
      have app : ∀ (a b : List Nat) (f : Nat → Prog Unit) (s : State),
          (forAll (a ++ b) f).run s = (forAll b f).run ((forAll a f).run s).2 := by
        intro a b f s; induction a generalizing s with
        | nil => simp
        | cons x t ih => simp [ih]
      simp [app, hu]
    · intro r' l' hl'
      rw [vreg_v (ho.sorted h), hr r' l' hl']
      by_cases e : r' * 128 + l' = (r + n) * 128 + l
      · have : r' = r + n ∧ l' = l := by omega
        rw [if_pos e, if_pos (by omega), this.1]; simp
      · rw [if_neg e]
        by_cases c : l' = l ∧ r ≤ r' ∧ r' < r + n
        · rw [if_pos c, if_pos (by omega)]
        · rw [if_neg c, if_neg]; rintro ⟨rfl, _, _⟩; apply c; omega

/-- Results of lanes in a list (R33): each listed lane's registers hold its value, every other lane's stay. -/
theorem putLanes_run (w d words : Nat) (f : Nat → Nat) (ls : List Nat) (s : State) (hls : ∀ l ∈ ls, l < 128)
    (h : Tab.sortedFrom 0 (s.warp w).regs.v = true) :
    ∃ u, (forAll (ls.map fun l => (l, f l)) fun e => putV w d e.1 words e.2).run s = ((), u) ∧ VOnly w s u ∧
      ∀ r l, l < 128 → u.vreg w r l =
        if l ∈ ls ∧ d ≤ r ∧ r < d + words then BitVec.ofNat 32 (f l / 2 ^ (32 * (r - d))) else s.vreg w r l := by
  induction ls generalizing s with
  | nil => exact ⟨s, by simp, VOnly.refl .., fun r l _ => by simp⟩
  | cons a t ih =>
    obtain ⟨u, hu, ho, hr⟩ := putV_run w d a words (f a) s (hls a (by simp)) h
    obtain ⟨v, hv, hov, hrv⟩ := ih u (fun l hl => hls l (by simp [hl])) (ho.sorted h)
    refine ⟨v, by simp [hu, hv], ho.trans hov, fun r l hl => ?_⟩
    rw [hrv r l hl, hr r l hl]
    by_cases m : l ∈ t
    · by_cases c : d ≤ r ∧ r < d + words
      · rw [if_pos ⟨m, c⟩, if_pos ⟨by simp [m], c⟩]
      · rw [if_neg (fun x => c x.2), if_neg (fun x => c x.2), if_neg (fun x => c x.2)]
    · by_cases e : l = a
      · subst e; simp [m]
      · simp [m, e]

theorem lanesOf_mem {m : Mask} {l : Nat} : l ∈ lanesOf m ↔ l < Config.W ∧ m.getLsbD l = true := by
  simp [lanesOf, Config.lanes]

theorem lanesOf_lt {m : Mask} : ∀ l ∈ lanesOf m, l < 128 := by
  intro l h; have := (lanesOf_mem.1 h).1; simp [Config.W] at this; omega

/-- Issue of an instruction that names no queue register and acts on vector registers lane by lane. -/
theorem issueV_spec {i : Instr} {h : Hd} {eff : Nat → List Nat → Prog Res} {s u : State} (hi : CanIssue i s)
    (hq : i.qRefs = []) (hl : lanesOf (effMask s s.cur h) ≠ [])
    (he : (eff s.cur (lanesOf (effMask s s.cur h))).run (noted i s) = (.ok, u)) (hu : Near s.cur (noted i s) u)
    (hc : (u.warp s.cur).ctl = ((noted i s).warp s.cur).ctl) (hs : (u.warp s.cur).stack = (s.warp s.cur).stack) :
    ∃ t, next (issueV i h eff) s = .next t ∧ Completes i s t ∧ (t.warp s.cur).regs = (u.warp s.cur).regs := by
  obtain ⟨l, tl, hlt⟩ : ∃ l tl, lanesOf (effMask s s.cur h) = l :: tl := by
    cases hx : lanesOf (effMask s s.cur h) with
    | nil => exact absurd hx hl
    | cons a t => exact ⟨a, t, rfl⟩
  rw [hlt] at he
  have key := issue_completes (u := u) (eff := fun w => letI := progMonad; do
      let s ← st
      match lanesOf (effMask s w h) with
      | [] => pure .ok
      | l :: t => do
        let g ← qGate w i (l :: t) fun _ => l :: t
        match g with
        | some r => pure r
        | none => do
          let r ← eff w (l :: t)
          match r with
          | .ok => do
            qPop w i (t.length + 1)
            pure .ok
          | r => pure r) hi (by simp [hlt, qGate_none hq, he, qPop_none hq]) hu hc hs
  obtain ⟨t, ht, hcomp, hr⟩ := key
  exact ⟨t, congrArg Host.Outcome.next (congrArg Prod.snd ht), hcomp, hr⟩

/-- With no lane to act in, it completes with no effect (R33). -/
theorem issueV_off {i : Instr} {h : Hd} {eff : Nat → List Nat → Prog Res} {s : State} (hi : CanIssue i s)
    (hl : lanesOf (effMask s s.cur h) = []) :
    ∃ t, next (issueV i h eff) s = .next t ∧ Completes i s t ∧ (t.warp s.cur).regs = (s.warp s.cur).regs := by
  obtain ⟨t, ht, hc, hr⟩ := issue_completes (u := noted i s) (eff := fun w => letI := progMonad; do
      let s ← st
      match lanesOf (effMask s w h) with
      | [] => pure .ok
      | l :: t => do
        let g ← qGate w i (l :: t) fun _ => l :: t
        match g with
        | some r => pure r
        | none => do
          let r ← eff w (l :: t)
          match r with
          | .ok => do
            qPop w i (t.length + 1)
            pure .ok
          | r => pure r) hi (by simp [hl]) (Near.refl ..) rfl (noted_stack i s)
  exact ⟨t, congrArg Host.Outcome.next (congrArg Prod.snd ht), hc, hr.trans (noted_regs i s)⟩

/-- VECTOR RESULTS: an instruction with a register destination and no queue source writes each lane with effect, and
completes. -/
theorem vectorOp_spec {i : Instr} {h : Hd} {d : VReg} {words : Nat} {f : State → Nat → List Nat → Nat → Nat} {s : State}
    (inv : s.Inv = true) (hi : CanIssue i s) (hq : i.qRefs = []) :
    ∃ t, next (vectorOp i h (.v d) words f) s = .next t ∧ Completes i s t ∧
      VWrites s t d.val words (effMask s s.cur h) fun l =>
        f (noted i s) s.cur (lanesOf (effMask s s.cur h)) l := by
  have hsv : Tab.sortedFrom 0 ((noted i s).warp s.cur).regs.v = true := by rw [noted_regs]; exact ok_v (inv_warp inv s.cur)
  have hc : (noted i s).checkedWarp s.cur = false := by rw [(noted_near i s).checkedWarp]; exact hi.unchecked
  by_cases hl : lanesOf (effMask s s.cur h) = []
  · obtain ⟨t, ht, hcomp, hr⟩ := issueV_off
      (eff := fun w ls => .get fun s => putRes w (.v d) words (ls.map fun l => (l, f s w ls l))) hi hl
    refine ⟨t, ht, hcomp, ?_⟩
    have hcur : t.cur = s.cur := by have h := hcomp.rest; unfold OnlyWarps at h; rw [h]
    constructor
    · simp only [State.regsOf, hcur, hr]
    · intro r l _
      rw [if_neg]
      · simp only [State.vreg, hr]
      · rintro ⟨h1, h2, -⟩
        have : l ∈ lanesOf (effMask s s.cur h) := lanesOf_mem.2 ⟨h1, h2⟩
        simp [hl] at this
  · obtain ⟨u, hu, ho, hrd⟩ := putLanes_run s.cur d.val words
      (fun l => f (noted i s) s.cur (lanesOf (effMask s s.cur h)) l) (lanesOf (effMask s s.cur h)) (noted i s)
      lanesOf_lt hsv
    have hcu : u.checkedWarp s.cur = false := by rw [ho.near.checkedWarp]; exact hc
    obtain ⟨t, ht, hcomp, hr⟩ := issueV_spec (u := u)
      (eff := fun w ls => .get fun s => putRes w (.v d) words (ls.map fun l => (l, f s w ls l))) hi hq hl
      (by simp [putRes, writeV, hu, foldSig_unchecked hcu]) ho.near (by rw [ho.warp]) (by rw [ho.warp]; exact noted_stack i s)
    refine ⟨t, ht, hcomp, ?_⟩
    have hcur : t.cur = s.cur := by have h := hcomp.rest; unfold OnlyWarps at h; rw [h]
    constructor
    · simp only [State.regsOf, hcur, hr]
      exact (congrArg Warp.regs ho.warp).trans (by simp only [noted_regs])
    · intro r l hl'
      have : t.vreg s.cur r l = u.vreg s.cur r l := by simp only [State.vreg, hr]
      rw [this, hrd r l hl', noted_vreg]
      simp only [lanesOf_mem, and_assoc]

end Sys2Proof.Machine
end

