-- ==== Sys2Proof/Laws/PerInstr.lean ====
section
/-!
SUPPORT. The family EncLen: the length code of every encoding is the one of its class (R184, R186).
-/
namespace Sys2Proof.Laws.EncLen

/-- The len field of the instruction's encoding is its class's (R186). -/
def Statement (i : Instr) : Prop := ∀ r, i.raw = some r → r.len = clsLen r.cls

theorem of_raw {i : Instr} {r : Raw} (h : i.raw = some r) (k : r.len = clsLen r.cls) : Statement i := by
  intro r' h'; rw [h] at h'; cases h'; exact k

theorem rawOf_len (op cls : Nat) (h : Hd) (dst a b c mod ext : Nat) :
    (rawOf op cls h dst a b c mod ext).len = clsLen (rawOf op cls h dst a b c mod ext).cls := rfl
theorem rawB_len (op : Nat) (h : Hd) (dst a : Nat) (b : SrcB) (c mod : Nat) :
    (rawB op h dst a b c mod).len = clsLen (rawB op h dst a b c mod).cls := by
  unfold rawB; split <;> rfl
theorem rawU_len (op : Nat) (h : Hd) (dst a : Nat) (b : SrcU) (c mod : Nat) :
    (rawU op h dst a b c mod).len = clsLen (rawU op h dst a b c mod).cls := by
  unfold rawU; split <;> rfl
theorem rawVS_len (op : Nat) (h : Hd) (dst a : Nat) (b : RegVS) (c mod : Nat) :
    (rawVS op h dst a b c mod).len = clsLen (rawVS op h dst a b c mod).cls := by
  unfold rawVS; split <;> rfl
theorem rawPlain_len (op : Nat) (o : Plain) :
    (rawPlain op o).len = clsLen (rawPlain op o).cls := rfl
theorem rawMem_len (op : Nat) (h : Hd) (dst : Nat) (m : MemAddr) (c hi : Nat) :
    (rawMem op h dst m c hi).len = clsLen (rawMem op h dst m c hi).cls := by
  unfold rawMem; split <;> rfl
theorem encBar_len (op : Nat) (h : Hd) (dst : Nat) (x : BarArg) :
    (encBar op h dst x).len = clsLen (encBar op h dst x).cls := by
  unfold encBar; split <;> rfl
theorem encUBin_len (op : Nat) (o : UBin) :
    (encUBin op o).len = clsLen (encUBin op o).cls := rawU_len ..
theorem encVBin_len (op : Nat) (o : VBin) :
    (encVBin op o).len = clsLen (encVBin op o).cls := rawB_len ..
theorem encVTri_len (op : Nat) (o : VTri) :
    (encVTri op o).len = clsLen (encVTri op o).cls := rawB_len ..
theorem encVUn_len (op : Nat) (o : VUn) :
    (encVUn op o).len = clsLen (encVUn op o).cls := rfl
theorem encMBin_len (op : Nat) (o : MBin) :
    (encMBin op o).len = clsLen (encMBin op o).cls := rfl
theorem encMCnt_len (op : Nat) (o : MCnt) :
    (encMCnt op o).len = clsLen (encMCnt op o).cls := rfl
theorem encVoteP_len (op : Nat) (o : VoteP) :
    (encVoteP op o).len = clsLen (encVoteP op o).cls := rfl
theorem encFBin_len (op : Nat) (o : FBin) :
    (encFBin op o).len = clsLen (encFBin op o).cls := rawB_len ..
theorem encFFma_len (op : Nat) (o : FFma) :
    (encFFma op o).len = clsLen (encFFma op o).cls := rawB_len ..
theorem encFMinMax_len (op : Nat) (o : FMinMax) :
    (encFMinMax op o).len = clsLen (encFMinMax op o).cls := rawB_len ..
theorem encFUn_len (op : Nat) (o : FUn) :
    (encFUn op o).len = clsLen (encFUn op o).cls := rfl
theorem encFUnR_len (op : Nat) (o : FUnR) :
    (encFUnR op o).len = clsLen (encFUnR op o).cls := rfl
theorem encFI_len (op : Nat) (o : FIcvt) :
    (encFI op o).len = clsLen (encFI op o).cls := rfl
theorem encCvt_len (op : Nat) (o : Cvt) :
    (encCvt op o).len = clsLen (encCvt op o).cls := by
  unfold encCvt; split <;> rfl
theorem encMov_len (op cls : Nat) (h : Hd) (d : Nat) (v : MovImm) :
    (encMov op cls h d v).len = clsLen (encMov op cls h d v).cls := by
  unfold encMov; split <;> rfl
theorem encRdx_len (op : Nat) (o : Rdx) :
    (encRdx op o).len = clsLen (encRdx op o).cls := by
  unfold encRdx; split <;> rfl
theorem encLdSt_len (op : Nat) (o : LdSt) :
    (encLdSt op o).len = clsLen (encLdSt op o).cls := rawMem_len ..
theorem encLdaStr_len (op ord : Nat) (o : LdaStr) :
    (encLdaStr op ord o).len = clsLen (encLdaStr op ord o).cls := rawMem_len ..
theorem encMloop_len (op : Nat) (o : Mloop) :
    (encMloop op o).len = clsLen (encMloop op o).cls := rfl
theorem encNb_len (op : Nat) (o : Nb) (push : Bool) :
    (encNb op o push).len = clsLen (encNb op o push).cls := by
  unfold encNb; split <;> rfl
theorem encS2_len (op : Nat) (o : S2) :
    (encS2 op o).len = clsLen (encS2 op o).cls := rfl
theorem encS2f_len (op : Nat) (o : S2f) :
    (encS2f op o).len = clsLen (encS2f op o).cls := rfl
theorem encGridOp_len (op : Nat) (o : GridOp) :
    (encGridOp op o).len = clsLen (encGridOp op o).cls := rfl

theorem nop (o : Plain) : Statement (.nop o) := of_raw rfl (rawPlain_len ..)
theorem bra (o : Br) : Statement (.bra o) := of_raw rfl (rawOf_len ..)
theorem brd (o : Brd) : Statement (.brd o) := of_raw rfl (rawOf_len ..)
theorem join (o : Plain) : Statement (.join o) := of_raw rfl (rawPlain_len ..)
theorem call (o : Br) : Statement (.call o) := of_raw rfl (rawOf_len ..)
theorem ret (o : Plain) : Statement (.ret o) := of_raw rfl (rawPlain_len ..)
theorem jmpi (o : Src1) : Statement (.jmpi o) := of_raw rfl (rawOf_len ..)
theorem exit (o : Plain) : Statement (.exit o) := of_raw rfl (rawPlain_len ..)
theorem bar (o : BarOp) : Statement (.bar o) := of_raw rfl (encBar_len ..)
theorem arrv (o : Arrv) : Statement (.arrv o) := of_raw rfl (encBar_len ..)
theorem await (o : Await) : Statement (.await o) := by
  intro r h; simp only [Instr.raw] at h; first | (cases h; rfl) | (split at h <;> cases h <;> first | rfl | exact rawVS_len ..)
theorem gbar (o : Plain) : Statement (.gbar o) := of_raw rfl (rawPlain_len ..)
theorem yield (o : Plain) : Statement (.yield o) := of_raw rfl (rawPlain_len ..)
theorem trap (o : Trap) : Statement (.trap o) := of_raw rfl (rawOf_len ..)
theorem bkpt (o : Plain) : Statement (.bkpt o) := of_raw rfl (rawPlain_len ..)
theorem segend (o : Plain) : Statement (.segend o) := of_raw rfl (rawPlain_len ..)
theorem srd (o : Srd) : Statement (.srd o) := by
  intro r h; simp only [Instr.raw] at h; first | (cases h; rfl) | (split at h <;> cases h <;> first | rfl | exact rawVS_len ..)
theorem srw (o : Srw) : Statement (.srw o) := of_raw rfl (rawU_len ..)
theorem sadd (o : UBin) : Statement (.sadd o) := of_raw rfl (encUBin_len ..)
theorem ssub (o : UBin) : Statement (.ssub o) := of_raw rfl (encUBin_len ..)
theorem smul (o : UBin) : Statement (.smul o) := of_raw rfl (encUBin_len ..)
theorem smad (o : UMad) : Statement (.smad o) := of_raw rfl (rawOf_len ..)
theorem sand (o : UBin) : Statement (.sand o) := of_raw rfl (encUBin_len ..)
theorem sor (o : UBin) : Statement (.sor o) := of_raw rfl (encUBin_len ..)
theorem sxor (o : UBin) : Statement (.sxor o) := of_raw rfl (encUBin_len ..)
theorem sshl (o : UBin) : Statement (.sshl o) := of_raw rfl (encUBin_len ..)
theorem sshr (o : UBin) : Statement (.sshr o) := of_raw rfl (encUBin_len ..)
theorem ssra (o : UBin) : Statement (.ssra o) := of_raw rfl (encUBin_len ..)
theorem smin (o : UBin) : Statement (.smin o) := of_raw rfl (encUBin_len ..)
theorem smax (o : UBin) : Statement (.smax o) := of_raw rfl (encUBin_len ..)
theorem ssel (o : USel) : Statement (.ssel o) := of_raw rfl (rawOf_len ..)
theorem smov (o : UMov) : Statement (.smov o) := of_raw rfl (rawOf_len ..)
theorem smovi (o : UMovi) : Statement (.smovi o) := of_raw rfl (encMov_len ..)
theorem scmp (o : Scmp) : Statement (.scmp o) := of_raw rfl (rawU_len ..)
theorem sld (o : Sld) : Statement (.sld o) := of_raw rfl (rawU_len ..)
theorem mand (o : MBin) : Statement (.mand o) := of_raw rfl (encMBin_len ..)
theorem mor (o : MBin) : Statement (.mor o) := of_raw rfl (encMBin_len ..)
theorem mxor (o : MBin) : Statement (.mxor o) := of_raw rfl (encMBin_len ..)
theorem mnot (o : MUn) : Statement (.mnot o) := of_raw rfl (rawOf_len ..)
theorem mpopc (o : MCnt) : Statement (.mpopc o) := of_raw rfl (encMCnt_len ..)
theorem mfind (o : MCnt) : Statement (.mfind o) := of_raw rfl (encMCnt_len ..)
theorem vote (o : Vote) : Statement (.vote o) := of_raw rfl (rawOf_len ..)
theorem voteAny (o : VoteP) : Statement (.voteAny o) := of_raw rfl (encVoteP_len ..)
theorem voteAll (o : VoteP) : Statement (.voteAll o) := of_raw rfl (encVoteP_len ..)
theorem iadd (o : VBin) : Statement (.iadd o) := of_raw rfl (encVBin_len ..)
theorem iaddc (o : Iaddc) : Statement (.iaddc o) := of_raw rfl (rawB_len ..)
theorem isub (o : VBin) : Statement (.isub o) := of_raw rfl (encVBin_len ..)
theorem imul (o : VBin) : Statement (.imul o) := of_raw rfl (encVBin_len ..)
theorem imulh (o : VBin) : Statement (.imulh o) := of_raw rfl (encVBin_len ..)
theorem imad (o : VTri) : Statement (.imad o) := of_raw rfl (encVTri_len ..)
theorem imadw (o : VTri) : Statement (.imadw o) := of_raw rfl (encVTri_len ..)
theorem imin (o : VBin) : Statement (.imin o) := of_raw rfl (encVBin_len ..)
theorem imax (o : VBin) : Statement (.imax o) := of_raw rfl (encVBin_len ..)
theorem iabs (o : VUn) : Statement (.iabs o) := of_raw rfl (encVUn_len ..)
theorem ineg (o : VUn) : Statement (.ineg o) := of_raw rfl (encVUn_len ..)
theorem vand (o : VBin) : Statement (.vand o) := of_raw rfl (encVBin_len ..)
theorem vor (o : VBin) : Statement (.vor o) := of_raw rfl (encVBin_len ..)
theorem vxor (o : VBin) : Statement (.vxor o) := of_raw rfl (encVBin_len ..)
theorem vnot (o : VUn) : Statement (.vnot o) := of_raw rfl (encVUn_len ..)
theorem lut3 (o : Lut3) : Statement (.lut3 o) := of_raw rfl (rawB_len ..)
theorem shl (o : VBin) : Statement (.shl o) := of_raw rfl (encVBin_len ..)
theorem shr (o : VBin) : Statement (.shr o) := of_raw rfl (encVBin_len ..)
theorem sra (o : VBin) : Statement (.sra o) := of_raw rfl (encVBin_len ..)
theorem rot (o : VBin) : Statement (.rot o) := of_raw rfl (encVBin_len ..)
theorem shf (o : VTri) : Statement (.shf o) := of_raw rfl (encVTri_len ..)
theorem bfe (o : VBin) : Statement (.bfe o) := of_raw rfl (encVBin_len ..)
theorem bfi (o : VTri) : Statement (.bfi o) := of_raw rfl (encVTri_len ..)
theorem popc (o : VUn) : Statement (.popc o) := of_raw rfl (encVUn_len ..)
theorem clz (o : VUn) : Statement (.clz o) := of_raw rfl (encVUn_len ..)
theorem brev (o : VUn) : Statement (.brev o) := of_raw rfl (encVUn_len ..)
theorem icmp (o : Icmp) : Statement (.icmp o) := of_raw rfl (rawOf_len ..)
theorem pbool (o : Pbool) : Statement (.pbool o) := of_raw rfl (rawOf_len ..)
theorem sel (o : Sel) : Statement (.sel o) := of_raw rfl (rawB_len ..)
theorem mov (o : Mov) : Statement (.mov o) := by
  intro r h; simp only [Instr.raw] at h; first | (cases h; rfl) | (split at h <;> cases h <;> first | rfl | exact rawVS_len ..)
theorem movi (o : Movi) : Statement (.movi o) := of_raw rfl (encMov_len ..)
theorem lea (o : Lea) : Statement (.lea o) := of_raw rfl (rawB_len ..)
theorem fadd (o : FBin) : Statement (.fadd o) := of_raw rfl (encFBin_len ..)
theorem fsub (o : FBin) : Statement (.fsub o) := of_raw rfl (encFBin_len ..)
theorem fmul (o : FBin) : Statement (.fmul o) := of_raw rfl (encFBin_len ..)
theorem ffma (o : FFma) : Statement (.ffma o) := of_raw rfl (encFFma_len ..)
theorem fmin (o : FMinMax) : Statement (.fmin o) := of_raw rfl (encFMinMax_len ..)
theorem fmax (o : FMinMax) : Statement (.fmax o) := of_raw rfl (encFMinMax_len ..)
theorem fcmp (o : Fcmp) : Statement (.fcmp o) := of_raw rfl (rawOf_len ..)
theorem fclass (o : FUn) : Statement (.fclass o) := of_raw rfl (encFUn_len ..)
theorem fdiv (o : FBin) : Statement (.fdiv o) := of_raw rfl (encFBin_len ..)
theorem fsqrt (o : FUnR) : Statement (.fsqrt o) := of_raw rfl (encFUnR_len ..)
theorem frcp (o : FUn) : Statement (.frcp o) := of_raw rfl (encFUn_len ..)
theorem frsq (o : FUn) : Statement (.frsq o) := of_raw rfl (encFUn_len ..)
theorem fex2 (o : FUn) : Statement (.fex2 o) := of_raw rfl (encFUn_len ..)
theorem flg2 (o : FUn) : Statement (.flg2 o) := of_raw rfl (encFUn_len ..)
theorem fsin (o : FUn) : Statement (.fsin o) := of_raw rfl (encFUn_len ..)
theorem fcos (o : FUn) : Statement (.fcos o) := of_raw rfl (encFUn_len ..)
theorem frnd (o : FUnR) : Statement (.frnd o) := of_raw rfl (encFUnR_len ..)
theorem fscale (o : FBin) : Statement (.fscale o) := of_raw rfl (encFBin_len ..)
theorem fgetx (o : FUn) : Statement (.fgetx o) := of_raw rfl (encFUn_len ..)
theorem f2f (o : F2f) : Statement (.f2f o) := of_raw rfl (rawOf_len ..)
theorem f2i (o : FIcvt) : Statement (.f2i o) := of_raw rfl (encFI_len ..)
theorem i2f (o : FIcvt) : Statement (.i2f o) := of_raw rfl (encFI_len ..)
theorem pkfma (o : FFma) : Statement (.pkfma o) := of_raw rfl (encFFma_len ..)
theorem pkadd (o : FBin) : Statement (.pkadd o) := of_raw rfl (encFBin_len ..)
theorem pkmul (o : FBin) : Statement (.pkmul o) := of_raw rfl (encFBin_len ..)
theorem cvtn (o : Cvt) : Statement (.cvtn o) := of_raw rfl (encCvt_len ..)
theorem cvtw (o : Cvt) : Statement (.cvtw o) := of_raw rfl (encCvt_len ..)
theorem fpstr (o : Fpstr) : Statement (.fpstr o) := of_raw rfl (rawOf_len ..)
theorem fpstw (o : Fpstw) : Statement (.fpstw o) := by
  intro r h; simp only [Instr.raw] at h; first | (cases h; rfl) | (split at h <;> cases h <;> first | rfl | exact rawVS_len ..)
theorem shfl (o : Shfl) : Statement (.shfl o) := of_raw rfl (rawB_len ..)
theorem perm (o : Perm) : Statement (.perm o) := of_raw rfl (rawB_len ..)
theorem bcast (o : VBin) : Statement (.bcast o) := of_raw rfl (encVBin_len ..)
theorem rdx (o : Rdx) : Statement (.rdx o) := of_raw rfl (encRdx_len ..)
theorem scanx (o : Rdx) : Statement (.scanx o) := of_raw rfl (encRdx_len ..)
theorem matchX (o : MatchOp) : Statement (.matchX o) := by
  intro r h; simp only [Instr.raw] at h; first | (cases h; rfl) | (split at h <;> cases h <;> first | rfl | exact rawVS_len ..)
theorem ld (o : LdSt) : Statement (.ld o) := of_raw rfl (encLdSt_len ..)
theorem st (o : LdSt) : Statement (.st o) := of_raw rfl (encLdSt_len ..)
theorem lda (o : LdaStr) : Statement (.lda o) := of_raw rfl (encLdaStr_len ..)
theorem str (o : LdaStr) : Statement (.str o) := of_raw rfl (encLdaStr_len ..)
theorem atom (o : Atom) : Statement (.atom o) := of_raw rfl (rawOf_len ..)
theorem red (o : Red) : Statement (.red o) := of_raw rfl (rawOf_len ..)
theorem fence (o : Fence) : Statement (.fence o) := of_raw rfl (rawOf_len ..)
theorem cctl (o : Cctl) : Statement (.cctl o) := of_raw rfl (rawMem_len ..)
theorem pref (o : Pref) : Statement (.pref o) := of_raw rfl (rawMem_len ..)
theorem disc (o : Disc) : Statement (.disc o) := of_raw rfl (rawMem_len ..)
theorem mwait (o : Mwait) : Statement (.mwait o) := by
  intro r h; simp only [Instr.raw] at h; first | (cases h; rfl) | (split at h <;> cases h <;> first | rfl | exact rawVS_len ..)
theorem pwait (o : Pwait) : Statement (.pwait o) := by
  intro r h; simp only [Instr.raw] at h; first | (cases h; rfl) | (split at h <;> cases h <;> first | rfl | exact rawVS_len ..)
theorem subs (o : Subs) : Statement (.subs o) := of_raw rfl (rawVS_len ..)
theorem unsub (o : Unsub) : Statement (.unsub o) := of_raw rfl (rawVS_len ..)
theorem spoll (o : Spoll) : Statement (.spoll o) := of_raw rfl (rawOf_len ..)
theorem qcfg (o : Qcfg) : Statement (.qcfg o) := by
  intro r h; simp only [Instr.raw] at h; first | (cases h; rfl) | (split at h <;> cases h <;> first | rfl | exact rawVS_len ..)
theorem qfence (o : Qfence) : Statement (.qfence o) := of_raw rfl (rawOf_len ..)
theorem mloop (o : Mloop) : Statement (.mloop o) := of_raw rfl (encMloop_len ..)
theorem mstep (o : Mloop) : Statement (.mstep o) := of_raw rfl (encMloop_len ..)
theorem rinit (o : Rinit) : Statement (.rinit o) := of_raw rfl (rawOf_len ..)
theorem rwait (o : Rwait) : Statement (.rwait o) := of_raw rfl (rawOf_len ..)
theorem epi (o : Epi) : Statement (.epi o) := of_raw rfl (rawOf_len ..)
theorem tstore (o : Tstore) : Statement (.tstore o) := of_raw rfl (rawOf_len ..)
theorem tcopy (o : Tcopy) : Statement (.tcopy o) := of_raw rfl (rawOf_len ..)
theorem tcopym (o : Tcopym) : Statement (.tcopym o) := of_raw rfl (rawOf_len ..)
theorem slotret (o : Slotret) : Statement (.slotret o) := of_raw rfl (rawOf_len ..)
theorem gath (o : Gath) : Statement (.gath o) := of_raw rfl (rawOf_len ..)
theorem nbpush (o : Nb) : Statement (.nbpush o) := of_raw rfl (encNb_len ..)
theorem nbpop (o : Nb) : Statement (.nbpop o) := of_raw rfl (encNb_len ..)
theorem coll (o : Coll) : Statement (.coll o) := by
  intro r h; simp only [Instr.raw] at h; first | (cases h; rfl) | (split at h <;> cases h <;> first | rfl | exact rawVS_len ..)
theorem cabort (o : Cabort) : Statement (.cabort o) := by
  intro r h; simp only [Instr.raw] at h; first | (cases h; rfl) | (split at h <;> cases h <;> first | rfl | exact rawVS_len ..)
theorem rngx (o : Rngx) : Statement (.rngx o) := of_raw rfl (rawVS_len ..)
theorem rngu (o : Rngu) : Statement (.rngu o) := by
  intro r h; simp only [Instr.raw] at h; first | (cases h; rfl) | (split at h <;> cases h <;> first | rfl | exact rawVS_len ..)
theorem grid (o : GridOp) : Statement (.grid o) := of_raw rfl (encGridOp_len ..)
theorem gwait (o : GridOp) : Statement (.gwait o) := of_raw rfl (encGridOp_len ..)
theorem mbxrd (o : Mbxrd) : Statement (.mbxrd o) := by
  intro r h; simp only [Instr.raw] at h; first | (cases h; rfl) | (split at h <;> cases h <;> first | rfl | exact rawVS_len ..)
theorem mbxwr (o : Mbxwr) : Statement (.mbxwr o) := by
  intro r h; simp only [Instr.raw] at h; first | (cases h; rfl) | (split at h <;> cases h <;> first | rfl | exact rawVS_len ..)
theorem seqopen (o : Seqopen) : Statement (.seqopen o) := of_raw rfl (rawOf_len ..)
theorem seqbind (o : S2) : Statement (.seqbind o) := of_raw rfl (encS2_len ..)
theorem seqend (o : S2) : Statement (.seqend o) := of_raw rfl (encS2_len ..)
theorem hnote (o : Hnote) : Statement (.hnote o) := by
  intro r h; simp only [Instr.raw] at h; first | (cases h; rfl) | (split at h <;> cases h <;> first | rfl | exact rawVS_len ..)
theorem wstate (o : Wstate) : Statement (.wstate o) := of_raw rfl (rawU_len ..)
theorem wresume (o : S2f) : Statement (.wresume o) := of_raw rfl (encS2f_len ..)
theorem wkill (o : S2f) : Statement (.wkill o) := of_raw rfl (encS2f_len ..)
theorem tlbi (o : S2) : Statement (.tlbi o) := of_raw rfl (encS2_len ..)
theorem eret (o : Plain) : Statement (.eret o) := of_raw rfl (rawPlain_len ..)
theorem unassignedOpcode : Statement (.unassignedOpcode) := nofun
theorem fetchFault (protect : Bool) : Statement (.fetchFault protect) := nofun
theorem runResultsReturned (w : Nat) : Statement (.runResultsReturned w) := nofun
theorem runCounterLimit (w : Nat) : Statement (.runCounterLimit w) := nofun
theorem waitConditionMet (w : Nat) : Statement (.waitConditionMet w) := nofun
theorem mwaitSatisfied (w lane : Nat) : Statement (.mwaitSatisfied w lane) := nofun
theorem presenceSet (blk line : Nat) : Statement (.presenceSet blk line) := nofun
theorem watchdog (w : Nat) : Statement (.watchdog w) := nofun
theorem deferredFault (op : Nat) : Statement (.deferredFault op) := nofun
theorem faultPostWaiting (world : Nat) : Statement (.faultPostWaiting world) := nofun
theorem mloopStep (op : Nat) : Statement (.mloopStep op) := nofun
theorem mloopComplete (op : Nat) : Statement (.mloopComplete op) := nofun
theorem epiComplete (op : Nat) : Statement (.epiComplete op) := nofun
theorem copyComplete (op : Nat) : Statement (.copyComplete op) := nofun
theorem aonVersionRetry (op : Nat) : Statement (.aonVersionRetry op) := nofun
theorem tcopyVerRetry (op : Nat) : Statement (.tcopyVerRetry op) := nofun
theorem streamReadAhead (blk eng : Nat) : Statement (.streamReadAhead blk eng) := nofun
theorem streamStorePerform (blk eng : Nat) : Statement (.streamStorePerform blk eng) := nofun
theorem push (sub : Nat) : Statement (.push sub) := nofun
theorem peerAccessArrival (acc : PeerAcc) : Statement (.peerAccessArrival acc) := nofun
theorem blockRetire (blk : Nat) : Statement (.blockRetire blk) := nofun
theorem gridComplete (grid : Nat) : Statement (.gridComplete grid) := nofun
theorem waitStampSatisfied (grid k : Nat) : Statement (.waitStampSatisfied grid k) := nofun
theorem firmwarePlace (world : Nat) (recs : List BindWrite) : Statement (.firmwarePlace world recs) := nofun
theorem queueHeadBlock (world grid : Nat) : Statement (.queueHeadBlock world grid) := nofun
theorem bindValidSet (die idx : Nat) : Statement (.bindValidSet die idx) := nofun
theorem dispatchReserve (die idx : Nat) : Statement (.dispatchReserve die idx) := nofun
theorem bindGateClear (recs : List (Nat × Nat)) : Statement (.bindGateClear recs) := nofun
theorem gangStart (die idx : Nat) : Statement (.gangStart die idx) := nofun
theorem bindValidClear (die idx : Nat) : Statement (.bindValidClear die idx) := nofun
theorem bindEvict (recs : List (Nat × Nat)) (saves : List (BitVec 64)) : Statement (.bindEvict recs saves) := nofun
theorem saveComplete (die idx : Nat) : Statement (.saveComplete die idx) := nofun
theorem shadowStart (die idx : Nat) : Statement (.shadowStart die idx) := nofun
theorem feedRecordAvailable (w : Nat) : Statement (.feedRecordAvailable w) := nofun
theorem feedExtentTaken (w : Nat) : Statement (.feedExtentTaken w) := nofun
theorem fettlerCompare (gang warp seg : Nat) : Statement (.fettlerCompare gang warp seg) := nofun
theorem arbiterStart (gang : Nat) (w : BindWrite) : Statement (.arbiterStart gang w) := nofun
theorem pour (gang : Nat) : Statement (.pour gang) := nofun
theorem ladleWayFreed (w : Nat) : Statement (.ladleWayFreed w) := nofun
theorem seqendRetire (world slot : Nat) : Statement (.seqendRetire world slot) := nofun
theorem collPacket (world : Nat) (group attempt : BitVec 16) (rank sig : Nat) (data : List Byte) : Statement (.collPacket world group attempt rank sig data) := nofun
theorem collComplete (op : Nat) : Statement (.collComplete op) := nofun
theorem collTimeout (op : Nat) : Statement (.collTimeout op) := nofun
theorem abortToken (world : Nat) (group attempt : BitVec 16) : Statement (.abortToken world group attempt) := nofun
theorem cabortUnreachable (world : Nat) (group : BitVec 16) (rank : Nat) : Statement (.cabortUnreachable world group rank) := nofun
theorem tableWalk (die world asid core : Nat) (off : Nat) : Statement (.tableWalk die world asid core off) := nofun
theorem contextEnd (world asid : Nat) (cause : BitVec 16) : Statement (.contextEnd world asid cause) := nofun
theorem pageEvict (world : Nat) (k : Nat) : Statement (.pageEvict world k) := nofun
theorem pageReturn (world : Nat) (k : Nat) : Statement (.pageReturn world k) := nofun
theorem pageMigrate (world : Nat) (k : Nat) : Statement (.pageMigrate world k) := nofun
theorem pageClearcnt (world : Nat) (k : Nat) : Statement (.pageClearcnt world k) := nofun
theorem pagingComplete (world : Nat) (k : Nat) : Statement (.pagingComplete world k) := nofun
theorem delayedNotification (world : Nat) : Statement (.delayedNotification world) := nofun
theorem hostWrite (fn : HostFn) (off : Nat) (bytes : List Byte) : Statement (.hostWrite fn off bytes) := nofun
theorem msixUnmask (world vec : Nat) : Statement (.msixUnmask world vec) := nofun
theorem worldAssign (m : Master) (world : Nat) (mask : BitVec 64) (port : Nat) (regs : List (Nat × BitVec 64 × BitVec 64 × BitVec 64)) : Statement (.worldAssign m world mask port regs) := nofun
theorem worldRelease (m : Master) (world : Nat) (regs : List (Nat × BitVec 64 × BitVec 64 × BitVec 64)) : Statement (.worldRelease m world regs) := nofun
theorem worldStart (m : Master) (world : Nat) (img : BitVec 64) (len hdr : Nat) (ch : StartChoice) : Statement (.worldStart m world img len hdr ch) := nofun
theorem worldReset (m : Master) (world : Nat) : Statement (.worldReset m world) := nofun
theorem worldStatus (m : Master) (code : Nat) : Statement (.worldStatus m code) := nofun
theorem heatRead (m : Master) (world off : Nat) : Statement (.heatRead m world off) := nofun
theorem crashlogRead (m : Master) (world off : Nat) : Statement (.crashlogRead m world off) := nofun
theorem setcfg (m : Master) (world : Nat) (hi : BitVec 8) (lo : BitVec 32) : Statement (.setcfg m world hi lo) := nofun
theorem worldStop (world : Nat) (cause : BitVec 8) : Statement (.worldStop world cause) := nofun
theorem dlatchLatchChange (die world : Nat) : Statement (.dlatchLatchChange die world) := nofun
theorem scrubComplete (die : Nat) : Statement (.scrubComplete die) := nofun
theorem dlatchHoldClear (die : Nat) : Statement (.dlatchHoldClear die) := nofun
theorem corestatFenceClear (die core : Nat) : Statement (.corestatFenceClear die core) := nofun
theorem secalmRaise (die det : Nat) (level : BitVec 2) : Statement (.secalmRaise die det level) := nofun
theorem secalmTripClear (die : Nat) (bits : BitVec 10) : Statement (.secalmTripClear die bits) := nofun
theorem heartbeatBeat (world : Nat) (beat : BitVec 32) (inStream : Bool) : Statement (.heartbeatBeat world beat inStream) := nofun
theorem heartbeatTimeout (world : Nat) : Statement (.heartbeatTimeout world) := nofun
theorem registerWrite (reg : RegName) (val : BitVec 64) : Statement (.registerWrite reg val) := nofun
theorem detectorTrip (die det : Nat) : Statement (.detectorTrip die det) := nofun
theorem hbmUncorrectable (die pa : Nat) : Statement (.hbmUncorrectable die pa) := nofun
theorem dirtyLineError (die slice set way : Nat) (pa : Nat) : Statement (.dirtyLineError die slice set way pa) := nofun
theorem sramUncorrectable (place : SramPlace) : Statement (.sramUncorrectable place) := nofun
theorem frameRetire (die frame : Nat) (cause : BitVec 2) (spare : Nat) : Statement (.frameRetire die frame cause spare) := nofun
theorem patrolScrub (die : Nat) : Statement (.patrolScrub die) := nofun
theorem demeritDecay (die core : Nat) : Statement (.demeritDecay die core) := nofun
theorem ageingMeasure (cluster : Nat) (count : BitVec 16) : Statement (.ageingMeasure cluster count) := nofun
theorem flitReplay (link : LinkName) : Statement (.flitReplay link) := nofun
theorem linkDown (link : LinkName) : Statement (.linkDown link) := nofun
theorem routerWatchdog (die : Nat) : Statement (.routerWatchdog die) := nofun
theorem ulitebyPacket (p : UlbPacket) : Statement (.ulitebyPacket p) := nofun
theorem epochAdvance (port : Nat) : Statement (.epochAdvance port) := nofun
theorem hostTlp (fn : HostFn) (stream : Nat) (off : Nat) (acc : HostAcc) : Statement (.hostTlp fn stream off acc) := nofun
theorem ptpMessage (act : PtpAct) : Statement (.ptpMessage act) := nofun
theorem getCertificate (slot : Nat) : Statement (.getCertificate slot) := nofun
theorem challenge (nonce : BitVec 256) : Statement (.challenge nonce) := nofun
theorem getMeasurements (index : Nat) (signed : Bool) : Statement (.getMeasurements index signed) := nofun
theorem keyExchange (world : Nat) : Statement (.keyExchange world) := nofun
theorem ideKm (world stream port : Nat) : Statement (.ideKm world stream port) := nofun
theorem domainSecretInstall (secret node : Nat) : Statement (.domainSecretInstall secret node) := nofun
theorem coldBoot (find : BootFind) : Statement (.coldBoot find) := nofun
theorem detectorReadsNormal (die det : Nat) : Statement (.detectorReadsNormal die det) := nofun

end Sys2Proof.Laws.EncLen
end

