-- ==== Sys2Proof/Tests/Slice0.lean ====
section
/-!
SUPPORT. Tests of the model on single steps: ill-formed terms, decoding of words written from R184 to R200, worked examples
of the rules, and for each statement states and operands that meet its hypotheses.
-/
namespace Sys2Proof.Tests
open Sys2Proof Sys2Proof.Machine
set_option Elab.async false

/-! ### A small machine -/

/-- Predicate pt, with and without the marker; !pt, never true; p1. -/
def pt : Hd := ⟨false, ⟨false, 15⟩⟩
def mk : Hd := ⟨true, ⟨false, 15⟩⟩
def never : Hd := ⟨false, ⟨true, 15⟩⟩
def mkNever : Hd := ⟨true, ⟨true, 15⟩⟩
def onP1 : Hd := ⟨false, ⟨false, 1⟩⟩
def mkP1 : Hd := ⟨true, ⟨false, 1⟩⟩
def yes : PSrc := ⟨false, 15⟩
def isP1 : PSrc := ⟨false, 1⟩

/-- World 1 running on die 0 with one resident warp of two live lanes: key 256, its block 4, its run 1. -/
def base : State :=
  let s := State.reset.withFetchWord 64 0
  { s with
    turns := [], cur := 256, seqNo := 100, time := 1000
    warps := [(256, { regs := { m := [(0, 3)] }
                      ctl := { pc := 0xFFF8000000000000, launched := 3, status := .ready, epoch := 1, alloc := 384 } })] }

def setRegs (s : State) (f : WRegs → WRegs) : State := s.regs 256 f
def setCtl (s : State) (f : Ctl → Ctl) : State := Upd.apply s (.ctl 256 f)
def setBlock (s : State) (f : Block → Block) : State := { s with blocks := s.blocks.put 4 (f (s.block 4)) }
def setV (s : State) (l : List (Nat × Nat × Nat)) : State :=
  setRegs s fun r => { r with v := l.foldl (fun t e => Tab.set 0 t (e.1 * 128 + e.2.1) (BitVec.ofNat 32 e.2.2)) r.v }
def setS (s : State) (l : List (Nat × Nat)) : State :=
  setRegs s fun r => { r with s := l.foldl (fun t e => Tab.set 0 t e.1 (BitVec.ofNat 64 e.2)) r.s }
def setP (s : State) (n : Nat) (m : Mask) : State := setRegs s fun r => { r with p := Tab.set 0 r.p n m }
def setM (s : State) (n : Nat) (m : Mask) : State := setRegs s fun r => { r with m := Tab.set 0 r.m n m }
/-- Little-endian bytes in the block's scratchpad. -/
def setPad (s : State) (l : List (Nat × Nat × Nat)) : State :=
  setBlock s fun b => { b with spad := l.foldl (fun t e =>
    (leBytes e.2.1 e.2.2).zipIdx.foldl (fun t x => Tab.set (0 : Byte) t (e.1 + x.2) x.1) t) b.spad }

/-- The window address of the block's own scratchpad (R94). -/
def win : Nat := 0x1FFE * 2 ^ 51

/-- What a test reads of the state after one instruction. -/
def after {α : Type} (i : Instr) (s : State) (f : State → α) : α :=
  match exec i s with | .next t => f t | _ => f s

/-- `CanIssue` as one check. -/
def canB (i : Instr) (s : State) : Bool :=
  decide ((s.warp s.cur).ctl.status = .ready) && decide ((s.warp s.cur).ctl.runCnt.val < 16)
    && decide ((s.runOf (runOfWarp s.cur)).st = .resident) && (issueCheck s s.cur i).isNone && !s.checkedWarp s.cur
    && (s.warp s.cur).ctl.held.isEmpty && (s.warp s.cur).ctl.runOld.all fun e => !readsHidden i e.1

theorem canIssue_of {i : Instr} {s : State} (h : canB i s = true) : CanIssue i s := by
  simp only [canB, Bool.and_eq_true, decide_eq_true_eq, Option.isNone_iff_eq_none, Bool.not_eq_true', List.isEmpty_iff,
    List.all_eq_true] at h
  obtain ⟨⟨⟨⟨⟨⟨h1, h2⟩, h3⟩, h4⟩, h5⟩, h6⟩, h7⟩ := h
  exact ⟨h1, h2, h3, h4, h5, h6, h7⟩

/-- A state and an instruction meet the hypotheses that most statements share. -/
def meets (i : Instr) (s : State) : Bool := s.Inv && canB i s

theorem meets_of {i : Instr} {s : State} (h : meets i s = true) : s.Inv = true ∧ CanIssue i s := by
  simp only [meets, Bool.and_eq_true] at h
  exact ⟨h.1, canIssue_of h.2⟩

/-- Hypotheses most statements share, and the predicate true in the lowest lane of m0. -/
abbrev Met (i : Instr) (s : State) : Prop := s.Inv = true ∧ CanIssue i s
def onU (i : Instr) (s : State) : Bool := match i.hd with | some h => uniformOn s s.cur h | none => false

theorem allMet {l : List (Instr × State)} (h : l.all (fun e => meets e.1 e.2) = true) : ∀ e ∈ l, Met e.1 e.2 :=
  fun e he => meets_of (List.all_eq_true.mp h e he)
theorem allMetOn {l : List (Instr × State)} (h : l.all (fun e => meets e.1 e.2 && onU e.1 e.2) = true) :
    ∀ e ∈ l, Met e.1 e.2 ∧ onU e.1 e.2 = true := fun e he => by
  have := List.all_eq_true.mp h e he
  simp only [Bool.and_eq_true] at this
  exact ⟨meets_of this.1, this.2⟩
/-! ### Ill-formed instructions: one for each check of `Instr.wf` -/

/-- R48: a misaligned pair, a pair past v383, a q code for a 128-bit operand; R188: a q code named twice. -/
theorem test_wf_registers :
    (Instr.wf (.iadd ⟨pt, .s64, .v 5, .v 6, .v (.v 8), false⟩) || Instr.wf (.imadw ⟨pt, .s32, .v 383, .v 1, .v (.v 2), .v 4, false⟩)
      || Instr.wf (.cvtw ⟨pt, .f4, false, false, .q 1, .v 4, .imm 0⟩)
      || Instr.wf (.iadd ⟨pt, .s32, .v 5, .q 3, .v (.q 3), false⟩)) = false := by decide +kernel

/-- One ill-formed term for each field check of the control, uniform and mask pages (R214, R220 to R229). -/
theorem test_wf_uniform :
    ([.bar ⟨mk, .imm 0 65⟩, .arrv ⟨mk, 1, .imm 0 65⟩, .srd ⟨pt, .s 1, 0x30⟩, .srw ⟨mk, 0x05, .s 1⟩, .sadd ⟨pt, .b32, 1, 2, .s 3⟩,
      .sand ⟨pt, .s64, 1, 2, .s 3⟩, .sshr ⟨pt, .s64, 1, 2, .s 3⟩, .ssra ⟨pt, .b64, 1, 2, .s 3⟩, .smin ⟨pt, .b64, 1, 2, .s 3⟩,
      .smad ⟨pt, .s32, 1, 2, 3, 4⟩, .smovi ⟨pt, 1, .short .n32 0⟩, .scmp ⟨pt, .b64, .lt, 1, 2, .s 3⟩, .sld ⟨pt, .b128, 1, 2, .s 3⟩,
      .mpopc ⟨pt, 1, 2, true⟩] : List Instr).all (fun i => !i.wf) = true := by decide +kernel

/-- The same for the vector integer page (R230 to R241). -/
theorem test_wf_vector :
    ([.iadd ⟨pt, .b32, .v 4, .v 5, .v (.v 6), true⟩, .imul ⟨pt, .s32, .v 4, .v 5, .v (.v 6), true⟩,
      .imulh ⟨pt, .b32, .v 4, .v 5, .v (.v 6), false⟩, .imad ⟨pt, .s32, .v 4, .v 5, .v (.v 6), .v 7, true⟩,
      .imadw ⟨pt, .b32, .v 4, .v 6, .v (.v 7), .v 8, false⟩, .iaddc ⟨pt, .s32, .v 4, .v 5, .v (.v 6), false, 0, 0⟩,
      .imin ⟨pt, .b32, .v 4, .v 5, .v (.v 6), false⟩, .iabs ⟨pt, .n32, .v 4, .v 5⟩, .vand ⟨pt, .s32, .v 4, .v 5, .v (.v 6), false⟩,
      .sra ⟨pt, .b32, .v 4, .v 5, .v (.v 6), false⟩, .vnot ⟨pt, .s32, .v 4, .v 5⟩, .lut3 ⟨pt, .v 4, .v 5, .imm 1, 6, 0⟩,
      .shf ⟨pt, .s32, .v 4, .v 5, .v (.v 6), .v 7, true⟩, .bfe ⟨pt, .s32, .v 4, .v 5, .imm 0x10000, false⟩,
      .bfi ⟨pt, .b32, .v 4, .v 5, .s 1, .v 7, false⟩, .icmp ⟨pt, .b32, .lt, 1, .v 4, .v 5, yes⟩, .sel ⟨pt, .s32, .v 4, .v 5, .v (.v 6), yes⟩,
      .mov ⟨pt, .s32, .v 4, .v (.v 5)⟩, .movi ⟨pt, .v 4, .short .n32 1⟩, .lea ⟨pt, .b32, .v 4, .v 6, .v (.v 8), 0⟩] :
      List Instr).all (fun i => !i.wf) = true := by decide +kernel

/-- The same for the floating-point and cross-lane pages (R242 to R269). -/
theorem test_wf_float :
    ([.fadd ⟨pt, .f16, .rne, .v 4, .v 5, .imm 0x10000⟩, .ffma ⟨pt, .f32, false, .rne, .v 4, .v 5, .imm 1, .v 6⟩,
      .fmin ⟨pt, .f32, false, .v 4, .v 5, .imm 1⟩, .fcmp ⟨pt, .f32, true, .num, 1, .v 4, .v 5, yes⟩,
      .fdiv ⟨pt, .f16, .rne, .v 4, .v 5, .v (.v 6)⟩, .fsqrt ⟨pt, .f32, .rne, true, .v 4, .v 5⟩, .frcp ⟨pt, .f64, .v 4, .v 6⟩,
      .fscale ⟨pt, .f32, .rne, .v 4, .v 5, .imm 1⟩, .f2f ⟨pt, .f32, .f32, .rne, .v 4, .v 5⟩, .f2i ⟨pt, .f32, .b32, .rne, .v 4, .v 5⟩,
      .i2f ⟨pt, .f32, .s16, .rne, .v 4, .v 5⟩, .pkfma ⟨pt, .f32, false, .rne, .v 4, .v 5, .v (.v 6), .v 7⟩,
      .pkadd ⟨pt, .f32, .rne, .v 4, .v 5, .v (.v 6)⟩, .cvtn ⟨pt, .i8, false, true, .v 4, .v 8, .imm 0⟩,
      .cvtw ⟨pt, .i8, true, false, .v 4, .v 8, .v (.v 9)⟩, .shfl ⟨pt, .b32, .idx, 6, .v 4, 1, .v 5, .imm 0⟩,
      .perm ⟨pt, .v 4, .v 5, .imm 1, .v 6⟩, .bcast ⟨pt, .b32, .v 4, .v 5, .imm 32, false⟩, .rdx ⟨pt, .i .and .s32, .v 4, .v 5⟩,
      .scanx ⟨pt, .f .min .f16, .v 4, .v 5⟩, .matchX ⟨pt, .s32, .all 1, .v 4, 1⟩] : List Instr).all (fun i => !i.wf) = true := by
  decide +kernel

/-- The same for the memory, engine and system pages (R270 to R340). -/
theorem test_wf_memory :
    ([.st ⟨mk, .b32, 4, .vi 6 0, none, .nc⟩, .str ⟨mk, .b32, 4, .vi 6 0, .gg, .nc⟩, .atom ⟨mk, .i .add .s32, .sc, .gg, 4, 6, 8, 0, 0⟩,
      .atom ⟨mk, .i .add .s32, .rlx, .gg, 4, 6, 8, 9, 0⟩, .red ⟨mk, .i .exch .b32, .rlx, .gg, 6, 8, 0⟩, .red ⟨mk, .fadd .f16, .rlx, .gg, 6, 8, 0⟩,
      .fence ⟨mk, .rlx, .gg⟩, .pwait ⟨mk, 6, .imm 0⟩, .subs ⟨mk, 0, false, 1, .gg, 4, 6, .s 1⟩, .subs ⟨mk, 0, true, 1, .ln, 4, 6, .s 1⟩,
      .qfence ⟨mk, 0x200000⟩, .mloop ⟨mk, .f64, .rne, 8, none, none, true, false⟩, .mstep ⟨mk, .f16, .rtz, 8, none, none, false, false⟩,
      .epi ⟨mk, 121, .none, 0, none⟩, .tcopy ⟨mk, 119, 0, false, none⟩, .tstore ⟨mk, 119, 0, none⟩, .tcopym ⟨mk, 119, 0, 1, none⟩,
      .gath ⟨mk, false, 126, 4⟩, .coll ⟨mk, .gather, .i .s32, .gg, 1, 8⟩, .coll ⟨mk, .sum, .i .s32, .bk, 1, 8⟩,
      .rngx ⟨pt, 4, 8, .s 1⟩, .rngu ⟨pt, .below (.s 1), false, 4, 5⟩, .mbxrd ⟨pt, 1, .imm 0x400⟩] : List Instr).all (fun i => !i.wf) = true := by
  decide +kernel

/-! ### Decoding: words written from the encodings of R184 to R188 and of each instruction's own rule -/

/-- The word decodes to the instruction. -/
def dec (w : Nat) (i : Instr) : Bool := match decodeWord w with | .ok j => i == j | .error _ => false

/-- R206 to R221. Words: length code, marker, predicate, opcode, class, dst, a, b, c, mod, bits from 64 up. -/
theorem test_decode_control :
    [dec (wordOf 0 1 15 0x001 0 0 0 0 0 0 0) (.nop ⟨mk⟩), dec (wordOf 1 0 1 0x002 6 0 0 0 0 0 0xFFFFFFFF) (.bra ⟨onP1, 0xFFFFFFFF⟩),
     dec (0x0000002000000010 * 2 ^ 64 + 0x00000000001C030A) (.brd ⟨onP1, 0x10, 0x20⟩), dec (wordOf 0 0 15 0x004 0 0 0 0 0 0 0) (.join ⟨pt⟩),
     dec (wordOf 1 0 15 0x005 6 0 0 0 0 0 7) (.call ⟨pt, 7⟩), dec (wordOf 0 0 15 0x006 0 0 0 0 0 0 0) (.ret ⟨pt⟩),
     dec (wordOf 0 0 15 0x007 3 0 9 0 0 0 0) (.jmpi ⟨pt, 9⟩), dec (wordOf 0 0 17 0x008 0 0 0 0 0 0 0) (.exit ⟨false, ⟨true, 1⟩⟩),
     dec (wordOf 0 1 15 0x009 3 0 5 6 0 0 0) (.bar ⟨mk, .reg 5 6⟩), dec (wordOf 1 1 15 0x009 4 0 0 0 0 0 0x4002) (.bar ⟨mk, .imm 2 64⟩),
     dec (wordOf 1 1 15 0x00A 4 3 0 0 0 0 0x0302) (.arrv ⟨mk, 3, .imm 2 3⟩), dec (wordOf 0 1 15 0x00B 3 0 4 5 0 0 0) (.await ⟨mk, 4, .reg 5⟩),
     dec (wordOf 1 1 15 0x00B 4 0 4 0 0 0 15) (.await ⟨mk, 4, .imm 15⟩), dec (wordOf 0 0 15 0x00C 0 0 0 0 0 0 0) (.gbar ⟨pt⟩),
     dec (wordOf 0 0 15 0x00D 0 0 0 0 0 0 0) (.yield ⟨pt⟩), dec (wordOf 1 0 15 0x00E 4 0 0 0 0 0 0xDEADBEEF) (.trap ⟨pt, 0xDEADBEEF⟩),
     dec (wordOf 0 0 15 0x00F 0 0 0 0 0 0 0) (.bkpt ⟨pt⟩), dec (wordOf 0 0 15 0x010 0 0 0 0 0 0 0) (.segend ⟨pt⟩),
     dec (wordOf 0 0 15 0x011 3 7 0x06 0 0 0 0) (.srd ⟨pt, .s 7, 0x06⟩), dec (wordOf 0 0 15 0x011 0 6 0x00 0 0 0x10 0) (.srd ⟨pt, .v32 (.v 6), 0⟩),
     dec (wordOf 0 0 15 0x011 0 6 0x05 0 0 0x18 0) (.srd ⟨pt, .v64 (.v 6), 5⟩), dec (wordOf 0 0 15 0x012 3 0 0x10 7 0 0 0) (.srw ⟨pt, 0x10, .s 7⟩)].all id
      = true := by decide +kernel

/-- R222 to R229. Bits 63:60 hold the type, so type code k counts 8·k in the modifier field. -/
theorem test_decode_uniform :
    [dec (wordOf 1 0 15 0x040 4 3 4 0 0 0x40 0x80000000) (.sadd ⟨pt, .s64, 3, 4, .imm 0x80000000⟩),
     dec (wordOf 0 0 15 0x041 3 3 4 5 0 0x18 0) (.ssub ⟨pt, .b64, 3, 4, .s 5⟩), dec (wordOf 0 0 15 0x042 3 3 4 5 0 0x60 0) (.smul ⟨pt, .n64, 3, 4, .s 5⟩),
     dec (wordOf 0 0 15 0x043 3 3 4 5 6 0x18 0) (.smad ⟨pt, .b64, 3, 4, 5, 6⟩), dec (wordOf 0 0 15 0x044 3 3 4 5 0 0x18 0) (.sand ⟨pt, .b64, 3, 4, .s 5⟩),
     dec (wordOf 0 0 15 0x045 3 3 4 5 0 0x18 0) (.sor ⟨pt, .b64, 3, 4, .s 5⟩), dec (wordOf 0 0 15 0x046 3 3 4 5 0 0x18 0) (.sxor ⟨pt, .b64, 3, 4, .s 5⟩),
     dec (wordOf 0 0 15 0x047 3 3 4 5 0 0x18 0) (.sshl ⟨pt, .b64, 3, 4, .s 5⟩), dec (wordOf 0 0 15 0x048 3 3 4 5 0 0x18 0) (.sshr ⟨pt, .b64, 3, 4, .s 5⟩),
     dec (wordOf 0 0 15 0x049 3 3 4 5 0 0x40 0) (.ssra ⟨pt, .s64, 3, 4, .s 5⟩), dec (wordOf 0 0 15 0x04A 3 3 4 5 0 0x40 0) (.smin ⟨pt, .s64, 3, 4, .s 5⟩),
     dec (wordOf 0 0 15 0x04B 3 3 4 5 0 0x60 0) (.smax ⟨pt, .n64, 3, 4, .s 5⟩), dec (wordOf 0 0 15 0x04C 3 3 4 5 0x12 0 0) (.ssel ⟨pt, 3, 4, 5, ⟨true, 2⟩⟩),
     dec (wordOf 0 0 15 0x04D 3 3 127 0 0 0 0) (.smov ⟨pt, 3, 127⟩), dec (wordOf 1 0 15 0x04E 4 3 0 0 0 0x40 7) (.smovi ⟨pt, 3, .short .s64 7⟩),
     dec (wordOf 2 0 15 0x04E 7 3 0 0 0 0x18 0x123456789ABCDEF0) (.smovi ⟨pt, 3, .long 0x123456789ABCDEF0⟩),
     dec (wordOf 0 0 15 0x04F 3 2 4 5 0 0x45 0) (.scmp ⟨pt, .s64, .ge, 2, 4, .s 5⟩), dec (wordOf 1 0 15 0x050 4 3 4 0 0 0x28 16) (.sld ⟨pt, .s8, 3, 4, .imm 16⟩),
     dec (wordOf 0 0 15 0x058 5 16 1 2 0 0 0) (.mand ⟨pt, 0, 1, 2⟩), dec (wordOf 0 0 15 0x059 5 23 1 2 0 0 0) (.mor ⟨pt, 7, 1, 2⟩),
     dec (wordOf 0 0 15 0x05A 5 17 1 2 0 0 0) (.mxor ⟨pt, 1, 1, 2⟩), dec (wordOf 0 0 15 0x05B 5 17 2 0 0 0 0) (.mnot ⟨pt, 1, 2⟩),
     dec (wordOf 0 0 15 0x05C 3 4 2 0 0 0 0) (.mpopc ⟨pt, 4, 2, false⟩), dec (wordOf 0 0 15 0x05D 3 4 2 0 0 1 0) (.mfind ⟨pt, 4, 2, true⟩),
     dec (wordOf 0 0 15 0x060 5 17 0x11 0 0 0 0) (.vote ⟨pt, 1, ⟨true, 1⟩⟩), dec (wordOf 0 0 15 0x061 5 3 1 0 0 0 0) (.voteAny ⟨pt, 3, isP1⟩),
     dec (wordOf 0 0 15 0x062 5 15 1 0 0 0 0) (.voteAll ⟨pt, 15, isP1⟩)].all id = true := by decide +kernel

/-- R230 to R241, the worked words of IADD and ICMP among them. -/
theorem test_decode_vector :
    [dec (0x100 * 2 ^ 64 + 0x7000000140888079) (.iadd ⟨pt, .s32, .v 4, .v 5, .imm 0x100, false⟩),
     dec (wordOf 0 0 15 0x080 1 4 390 7 0 0x39 0) (.iadd ⟨pt, .s32, .v 4, .q 6, .s 7, true⟩),
     dec (wordOf 0 0 15 0x081 0 4 5 6 0x123 0x58 0) (.iaddc ⟨pt, .n32, .v 4, .v 5, .v (.v 6), true, 2, 3⟩),
     dec (wordOf 0 0 15 0x082 0 4 5 6 0 0x38 0) (.isub ⟨pt, .s32, .v 4, .v 5, .v (.v 6), false⟩),
     dec (wordOf 0 0 15 0x083 0 4 6 8 0 0x60 0) (.imul ⟨pt, .n64, .v 4, .v 6, .v (.v 8), false⟩),
     dec (wordOf 0 0 15 0x084 0 4 5 6 0 0x38 0) (.imulh ⟨pt, .s32, .v 4, .v 5, .v (.v 6), false⟩),
     dec (wordOf 0 0 15 0x085 0 4 5 6 7 0x38 0) (.imad ⟨pt, .s32, .v 4, .v 5, .v (.v 6), .v 7, false⟩),
     dec (wordOf 0 0 15 0x086 0 4 5 6 8 0x58 0) (.imadw ⟨pt, .n32, .v 4, .v 5, .v (.v 6), .v 8, false⟩),
     dec (wordOf 0 0 15 0x087 0 4 5 6 0 0x38 0) (.imin ⟨pt, .s32, .v 4, .v 5, .v (.v 6), false⟩),
     dec (wordOf 0 0 15 0x088 0 4 5 6 0 0x58 0) (.imax ⟨pt, .n32, .v 4, .v 5, .v (.v 6), false⟩),
     dec (wordOf 0 0 15 0x089 0 4 5 0 0 0x38 0) (.iabs ⟨pt, .s32, .v 4, .v 5⟩), dec (wordOf 0 0 15 0x08A 0 4 6 0 0 0x40 0) (.ineg ⟨pt, .s64, .v 4, .v 6⟩),
     dec (wordOf 0 0 15 0x090 0 4 5 6 0 0x10 0) (.vand ⟨pt, .b32, .v 4, .v 5, .v (.v 6), false⟩),
     dec (wordOf 0 0 15 0x091 0 4 5 6 0 0x10 0) (.vor ⟨pt, .b32, .v 4, .v 5, .v (.v 6), false⟩),
     dec (wordOf 0 0 15 0x092 0 4 5 6 0 0x10 0) (.vxor ⟨pt, .b32, .v 4, .v 5, .v (.v 6), false⟩),
     dec (wordOf 0 0 15 0x093 0 4 5 0 0 0x10 0) (.vnot ⟨pt, .b32, .v 4, .v 5⟩),
     dec (wordOf 0 0 15 0x094 0 4 5 6 0x107 0x16 0) (.lut3 ⟨pt, .v 4, .v 5, .v (.v 6), 7, 0x96⟩),
     dec (wordOf 0 0 15 0x098 0 4 5 6 0 0x10 0) (.shl ⟨pt, .b32, .v 4, .v 5, .v (.v 6), false⟩),
     dec (wordOf 0 0 15 0x099 0 4 5 6 0 0x10 0) (.shr ⟨pt, .b32, .v 4, .v 5, .v (.v 6), false⟩),
     dec (wordOf 0 0 15 0x09A 0 4 5 6 0 0x38 0) (.sra ⟨pt, .s32, .v 4, .v 5, .v (.v 6), false⟩),
     dec (wordOf 0 0 15 0x09B 0 4 5 6 0 0x10 0) (.rot ⟨pt, .b32, .v 4, .v 5, .v (.v 6), false⟩),
     dec (wordOf 0 0 15 0x09C 0 4 5 6 7 0x11 0) (.shf ⟨pt, .b32, .v 4, .v 5, .v (.v 6), .v 7, true⟩),
     dec (wordOf 1 0 15 0x09D 2 4 5 0 0 0x58 0x0804) (.bfe ⟨pt, .n32, .v 4, .v 5, .imm 0x0804, false⟩),
     dec (wordOf 0 0 15 0x09E 0 4 5 6 7 0x10 0) (.bfi ⟨pt, .b32, .v 4, .v 5, .v (.v 6), .v 7, false⟩),
     dec (wordOf 0 0 15 0x09F 0 4 5 0 0 0x10 0) (.popc ⟨pt, .b32, .v 4, .v 5⟩), dec (wordOf 0 0 15 0x0A0 0 4 6 0 0 0x18 0) (.clz ⟨pt, .b64, .v 4, .v 6⟩),
     dec (wordOf 0 0 15 0x0A1 0 4 5 0 0 0x10 0) (.brev ⟨pt, .b32, .v 4, .v 5⟩), dec 0x740F02810074A878 (.icmp ⟨pt, .s32, .lt, 3, .v 4, .v 5, yes⟩),
     dec (wordOf 0 0 15 0x0A9 5 3 1 0x12 3 0x28 0) (.pbool ⟨pt, .or, .or, 3, ⟨false, 1⟩, ⟨true, 2⟩, ⟨false, 3⟩⟩),
     dec (wordOf 0 0 15 0x0AA 0 4 5 6 1 0x10 0) (.sel ⟨pt, .b32, .v 4, .v 5, .v (.v 6), isP1⟩),
     dec (wordOf 0 0 15 0x0AB 1 4 0 9 0 0x18 0) (.mov ⟨pt, .b64, .v 4, .s 9⟩), dec (wordOf 0 0 15 0x0AB 0 391 5 0 0 0x10 0) (.mov ⟨pt, .b32, .q 7, .v (.v 5)⟩),
     dec (wordOf 2 0 15 0x0AC 7 4 0 0 0 0x18 0xFEDCBA9876543210) (.movi ⟨pt, .v 4, .long 0xFEDCBA9876543210⟩),
     dec (wordOf 1 0 15 0x0AC 2 4 0 0 0 0x10 5) (.movi ⟨pt, .v 4, .short .b32 5⟩),
     dec (wordOf 0 0 15 0x0AD 1 4 6 9 0 0x3B 0) (.lea ⟨pt, .s32, .v 4, .v 6, .s 9, 3⟩)].all id = true := by decide +kernel

/-- R242 to R269, the worked words of FFMA and SHFL among them. Bits 63:61 hold the floating type: code k counts 16·k. -/
theorem test_decode_float :
    [dec 0x420B05024100C314 (.ffma ⟨⟨true, ⟨false, 2⟩⟩, .f32, false, .rtz, .v 8, .v 9, .v (.v 10), .v 11⟩),
     dec (wordOf 0 0 15 0x0C0 0 4 5 6 0 0x20 0) (.fadd ⟨pt, .f32, .rne, .v 4, .v 5, .v (.v 6)⟩),
     dec (wordOf 1 0 15 0x0C1 2 4 6 0 0 0x32 0x3FF00000) (.fsub ⟨pt, .f64, .rup, .v 4, .v 6, .imm 0x3FF00000⟩),
     dec (wordOf 0 0 15 0x0C2 1 4 5 6 0 0x17 0) (.fmul ⟨pt, .bf16, .dyn, .v 4, .v 5, .s 6⟩),
     dec (wordOf 0 0 15 0x0C4 0 4 5 6 0 0x28 0) (.fmin ⟨pt, .f32, true, .v 4, .v 5, .v (.v 6)⟩),
     dec (wordOf 0 0 15 0x0C5 0 4 5 6 0 0x20 0) (.fmax ⟨pt, .f32, false, .v 4, .v 5, .v (.v 6)⟩),
     dec (wordOf 0 0 15 0x0C6 5 3 5 6 0x11 0x29 0) (.fcmp ⟨pt, .f32, true, .ne, 3, .v 5, .v 6, ⟨true, 1⟩⟩),
     dec (wordOf 0 0 15 0x0C7 0 4 5 0 0 0 0) (.fclass ⟨pt, .f16, .v 4, .v 5⟩), dec (wordOf 0 0 15 0x0C8 0 4 5 6 0 0x23 0) (.fdiv ⟨pt, .f32, .rdn, .v 4, .v 5, .v (.v 6)⟩),
     dec (wordOf 0 0 15 0x0C9 0 4 5 0 0 0x24 0) (.fsqrt ⟨pt, .f32, .rna, false, .v 4, .v 5⟩), dec (wordOf 0 0 15 0x0D0 0 4 5 0 0 0x20 0) (.frcp ⟨pt, .f32, .v 4, .v 5⟩),
     dec (wordOf 0 0 15 0x0D1 0 4 5 0 0 0x20 0) (.frsq ⟨pt, .f32, .v 4, .v 5⟩), dec (wordOf 0 0 15 0x0D2 0 4 5 0 0 0x20 0) (.fex2 ⟨pt, .f32, .v 4, .v 5⟩),
     dec (wordOf 0 0 15 0x0D3 0 4 5 0 0 0x20 0) (.flg2 ⟨pt, .f32, .v 4, .v 5⟩), dec (wordOf 0 0 15 0x0D4 0 4 5 0 0 0x20 0) (.fsin ⟨pt, .f32, .v 4, .v 5⟩),
     dec (wordOf 0 0 15 0x0D5 0 4 5 0 0 0x20 0) (.fcos ⟨pt, .f32, .v 4, .v 5⟩), dec (wordOf 0 0 15 0x0D8 0 4 5 0 0 0x29 0) (.frnd ⟨pt, .f32, .rtz, true, .v 4, .v 5⟩),
     dec (wordOf 0 0 15 0x0D9 0 4 5 6 0 0x20 0) (.fscale ⟨pt, .f32, .rne, .v 4, .v 5, .v (.v 6)⟩), dec (wordOf 0 0 15 0x0DA 0 4 6 0 0 0x30 0) (.fgetx ⟨pt, .f64, .v 4, .v 6⟩),
     dec (wordOf 0 0 15 0x0E0 0 4 6 0 3 0x20 0) (.f2f ⟨pt, .f32, .f64, .rne, .v 4, .v 6⟩), dec (wordOf 0 0 15 0x0E1 0 4 6 0 7 0x31 0) (.f2i ⟨pt, .f64, .s32, .rtz, .v 4, .v 6⟩),
     dec (wordOf 0 0 15 0x0E2 0 4 6 0 12 0x20 0) (.i2f ⟨pt, .f32, .n64, .rne, .v 4, .v 6⟩),
     dec (wordOf 0 0 15 0x0E8 0 4 5 6 7 0x08 0) (.pkfma ⟨pt, .f16, true, .rne, .v 4, .v 5, .v (.v 6), .v 7⟩),
     dec (wordOf 0 0 15 0x0E9 0 4 5 6 0 0x10 0) (.pkadd ⟨pt, .bf16, .rne, .v 4, .v 5, .v (.v 6)⟩),
     dec (wordOf 0 0 15 0x0EA 1 4 5 6 0 0 0) (.pkmul ⟨pt, .f16, .rne, .v 4, .v 5, .s 6⟩),
     dec (wordOf 0 0 15 0x0F0 0 4 8 12 1 0x38 0) (.cvtn ⟨pt, .f4, true, true, .v 4, .v 8, .v (.v 12)⟩),
     dec (wordOf 2 0 15 0x0F1 7 4 8 0 0 0x20 0x7F) (.cvtw ⟨pt, .t8, false, false, .v 4, .v 8, .imm 0x7F⟩),
     dec (wordOf 0 0 15 0x0F8 0 4 0 0 0 0x3F 0) (.fpstr ⟨pt, .v 4, 0x3F⟩), dec (wordOf 1 0 15 0x0F9 2 0 0 0 0 0 0x21) (.fpstw ⟨pt, .imm 0x21⟩),
     dec (wordOf 1 0 15 0x100 2 10 4 0 0x13 0x14 1) (.shfl ⟨pt, .b32, .down, 3, .v 10, 2, .v 4, .imm 1⟩),
     dec (wordOf 0 0 15 0x101 0 4 5 6 7 0x10 0) (.perm ⟨pt, .v 4, .v 5, .v (.v 6), .v 7⟩),
     dec (wordOf 1 0 15 0x102 2 4 5 0 0 0x10 31) (.bcast ⟨pt, .b32, .v 4, .v 5, .imm 31, false⟩),
     dec (wordOf 0 0 15 0x103 0 4 5 0 8 0x21 0) (.rdx ⟨pt, .f (.add .rtz) .f32, .v 4, .v 5⟩), dec (wordOf 0 0 15 0x104 0 4 5 0 1 0x38 0) (.scanx ⟨pt, .i .min .s32, .v 4, .v 5⟩),
     dec (wordOf 0 0 15 0x105 5 17 4 3 0 0x10 0) (.matchX ⟨pt, .b32, .first 1, .v 4, 3⟩), dec (wordOf 0 0 15 0x105 5 2 4 3 0 0x11 0) (.matchX ⟨pt, .b32, .all 2, .v 4, 3⟩)].all id
      = true := by decide +kernel

/-- R270 to R297, the worked words of LD, STR and MWAIT among them. -/
theorem test_decode_memory :
    [dec 0x3600020081054078 (.ld ⟨pt, .b64, 8, .vs 4 2 3, none, .none⟩), dec (wordOf 0 0 15 0x141 0 4 6 8 0x84 0x12 0) (.st ⟨pt, .b32, 4, .vr 6 8 2, some .gg, .none⟩),
     dec (wordOf 1 0 15 0x142 2 4 6 0 0xE9 0x18 0x80) (.lda ⟨pt, .b64, 4, .vi 6 0x80, .wd, .ev⟩),
     dec 0x30EC058301454314 (.str ⟨⟨true, ⟨false, 2⟩⟩, .b64, 10, .vs 11 12 0, .wd, .none⟩),
     dec (wordOf 2 1 15 0x144 7 4 6 8 9 0x10 (0x744 + 2 ^ 32 * 0xFFFFFFF0)) (.atom ⟨mk, .i .cas .b32, .ar, .gg, 4, 6, 8, 9, 0xFFFFFFF0⟩),
     dec (wordOf 2 1 15 0x145 7 0 6 8 0 0x20 0x937) (.red ⟨mk, .fadd .f32, .rel, .wd, 6, 8, 0⟩), dec (wordOf 0 1 15 0x146 0 0 0 0 0xF4 0 0) (.fence ⟨mk, .sc, .wd⟩),
     dec (wordOf 1 1 15 0x147 2 0 6 0 0 0x10 0) (.cctl ⟨mk, .drep, .vi 6 0⟩), dec (wordOf 1 0 15 0x148 2 0 6 0 0 0x08 0) (.pref ⟨pt, true, .vi 6 0⟩),
     dec (wordOf 1 1 15 0x149 2 0 6 0 0 0 8) (.disc ⟨mk, .vi 6 8⟩), dec 0x00E8050181054A7C (.mwait ⟨mk, some 8, 6, .s 10, .wd⟩),
     dec (wordOf 1 1 15 0x14A 2 0 6 0 0xEA 0 5) (.mwait ⟨mk, none, 6, .imm 5, .wd⟩), dec (wordOf 0 1 15 0x14B 0 0 6 8 0 0 0) (.pwait ⟨mk, 6, .v 8⟩),
     dec (wordOf 0 1 15 0x14C 1 4 6 9 0x80 0x4B 0) (.subs ⟨mk, 4, true, 3, .gg, 4, 6, .s 9⟩), dec (wordOf 0 1 15 0x14D 0 4 0 8 0 0 0) (.unsub ⟨mk, 4, .v 8⟩),
     dec (wordOf 0 1 15 0x14E 0 4 0 8 0 0 0) (.spoll ⟨mk, 4, 8⟩), dec (wordOf 0 1 15 0x14F 1 391 0 9 0 0 0) (.qcfg ⟨mk, 7, .s 9⟩),
     dec (wordOf 1 1 15 0x150 2 0 0 0 0 0 0x1FF) (.qfence ⟨mk, 0x1FF⟩)].all id = true := by decide +kernel

/-- R308 to R330. -/
theorem test_decode_engines :
    [dec (wordOf 2 1 15 0x180 7 0 8 20 30 0x08 (0x0F0201)) (.mloop ⟨mk, .f8b, .rne, 8, some ⟨20, 1⟩, some ⟨30, 2⟩, true, true⟩),
     dec (wordOf 2 1 15 0x181 7 0 8 0 0 0x41 0) (.mstep ⟨mk, .f64, .rtz, 8, none, none, false, false⟩), dec (wordOf 1 1 15 0x182 4 0 0 0 0 0 1) (.rinit ⟨mk, true⟩),
     dec (wordOf 1 1 15 0x183 4 0 0 0 0 0 1) (.rwait ⟨mk, true⟩), dec (wordOf 2 1 15 0x184 7 0 8 0 0 0 0x7F0104) (.epi ⟨mk, 8, .relu, 0x7F, some .gg⟩),
     dec (wordOf 2 1 15 0x188 7 0 8 0 0 0 0x300) (.tstore ⟨mk, 8, 3, none⟩), dec (wordOf 2 1 15 0x189 7 0 8 0 0 0 0x504) (.tcopy ⟨mk, 8, 1, true, some .gg⟩),
     dec (wordOf 2 1 15 0x18A 7 0 8 0 0 0 0xA200) (.tcopym ⟨mk, 8, 2, 0xA, none⟩), dec (wordOf 1 1 15 0x18B 4 0 0 0 0 0 6) (.slotret ⟨mk, 6⟩),
     dec (wordOf 2 1 15 0x18C 7 0 8 20 0 0 1) (.gath ⟨mk, true, 8, 20⟩), dec (wordOf 0 1 15 0x1C0 0 0 20 0 0 5 0) (.nbpush ⟨mk, .next, 20⟩),
     dec (wordOf 0 1 15 0x1C1 0 20 0 0 0 4 0) (.nbpop ⟨mk, .prev, 20⟩), dec (wordOf 2 1 15 0x1C2 7 3 8 0 0 0x20 0x1007) (.coll ⟨mk, .sum, .f .f32, .wd, 3, 8⟩),
     dec (wordOf 2 1 15 0x1C2 7 3 8 0 0 0 0x307) (.coll ⟨mk, .gather, .i .b8, .wd, 3, 8⟩), dec (wordOf 1 1 15 0x1C3 4 0 0 0 0 0 0xFFFF) (.cabort ⟨mk, .imm 0xFFFF⟩),
     dec (wordOf 0 0 15 0x1C8 1 8 4 126 0 0 0) (.rngx ⟨pt, 8, 4, .s 126⟩), dec (wordOf 0 0 15 0x1C9 0 8 4 6 0 8 0) (.rngu ⟨pt, .below (.v 6), false, 8, 4⟩),
     dec (wordOf 0 0 15 0x1C9 0 8 4 0 0 0x20 0) (.rngu ⟨pt, .f32, false, 8, 4⟩), dec (wordOf 0 1 15 0x1D0 3 3 4 0 0 0 0) (.grid ⟨mk, 3, 4⟩),
     dec (wordOf 0 1 15 0x1D1 3 3 4 0 0 0 0) (.gwait ⟨mk, 3, 4⟩), dec (wordOf 1 1 15 0x1D2 4 3 0 0 0 0 0x31F) (.mbxrd ⟨mk, 3, .imm 0x31F⟩),
     dec (wordOf 1 1 15 0x1D3 4 0 4 0 0 0 31) (.mbxwr ⟨mk, .imm 31 4⟩), dec (wordOf 0 1 15 0x1D3 3 0 4 5 0 0 0) (.mbxwr ⟨mk, .reg 4 5⟩)].all id = true := by
  decide +kernel

/-- R331; and what decodes to nothing: an opcode of no table, a class the opcode has not, a nonzero unused field, a mode code
that raises ILLOP, length code 3 (R184, R187, R190, R200). -/
theorem test_decode_s_level :
    [dec (wordOf 0 1 15 0x200 3 3 0 0 0 0 0) (.seqopen ⟨mk, 3⟩), dec (wordOf 0 1 15 0x201 3 0 3 4 0 0 0) (.seqbind ⟨mk, 3, 4⟩),
     dec (wordOf 0 1 15 0x202 3 0 3 4 0 0 0) (.seqend ⟨mk, 3, 4⟩), dec (wordOf 1 1 15 0x203 4 0 0 0 0 0 31) (.hnote ⟨mk, .imm 31⟩),
     dec (wordOf 0 1 15 0x203 3 0 3 0 0 0 0) (.hnote ⟨mk, .reg 3⟩), dec (wordOf 1 0 15 0x204 4 5 3 0 0 0 0x180) (.wstate ⟨pt, 5, 3, .imm 0x180⟩),
     dec (wordOf 0 1 15 0x205 3 0 3 4 0 1 0) (.wresume ⟨mk, 3, 4, true⟩), dec (wordOf 0 1 15 0x206 3 0 3 4 0 0 0) (.wkill ⟨mk, 3, 4, false⟩),
     dec (wordOf 0 1 15 0x207 3 0 3 4 0 0 0) (.tlbi ⟨mk, 3, 4⟩), dec (wordOf 0 1 15 0x208 0 0 0 0 0 0 0) (.eret ⟨mk⟩)].all id = true
    ∧ [wordOf 0 0 15 0x000 0 0 0 0 0 0 0, wordOf 0 0 15 0x209 0 0 0 0 0 0 0, wordOf 0 0 15 0x0C8 1 4 5 6 0 0x20 0, wordOf 0 0 15 0x080 0 4 5 6 0 0x6B 0,
        wordOf 0 0 15 0x040 3 3 4 5 1 0x18 0, wordOf 1 0 15 0x080 0 4 5 6 0 0x38 0, wordOf 0 0 15 0x0C0 0 4 5 6 0 0x25 0, wordOf 0 0 15 0x080 0 4 393 6 0 0x38 0,
        wordOf 3 0 15 0x001 0 0 0 0 0 0 0].all (fun w => match decodeWord w with | .ok _ => false | .error _ => true) = true := by decide +kernel

/-! ### Results the rules tabulate -/

/-- V[4] of lane 0 after an instruction on V[5] = a, V[6] = b. -/
def v4 (i : Instr) (a b : Nat) : Nat := after i (setV base [(5, 0, a), (6, 0, b)]) fun t => (t.vreg 256 4 0).toNat

/-- The boundary table after R241. -/
theorem test_vector_boundaries :
    v4 (.iadd ⟨pt, .s32, .v 4, .v 5, .v (.v 6), true⟩) 0x7FFFFFF0 0x20 = 0x7FFFFFFF
    ∧ v4 (.iadd ⟨pt, .s32, .v 4, .v 5, .v (.v 6), false⟩) 0x7FFFFFF0 0x20 = 0x80000010
    ∧ v4 (.isub ⟨pt, .n32, .v 4, .v 5, .v (.v 6), true⟩) 5 7 = 0 ∧ v4 (.imulh ⟨pt, .s32, .v 4, .v 5, .v (.v 6), false⟩) 0xFFFFFFFF 2 = 0xFFFFFFFF
    ∧ v4 (.imulh ⟨pt, .n32, .v 4, .v 5, .v (.v 6), false⟩) 0xFFFFFFFF 2 = 1 ∧ v4 (.imin ⟨pt, .s32, .v 4, .v 5, .v (.v 6), false⟩) 0xFFFFFFFF 1 = 0xFFFFFFFF
    ∧ v4 (.imin ⟨pt, .n32, .v 4, .v 5, .v (.v 6), false⟩) 0xFFFFFFFF 1 = 1 ∧ v4 (.iabs ⟨pt, .s32, .v 4, .v 5⟩) 0x80000000 0 = 0x80000000
    ∧ v4 (.shl ⟨pt, .b32, .v 4, .v 5, .v (.v 6), false⟩) 1 32 = 0 ∧ v4 (.sra ⟨pt, .s32, .v 4, .v 5, .v (.v 6), false⟩) 0x80000000 40 = 0xFFFFFFFF
    ∧ v4 (.rot ⟨pt, .b32, .v 4, .v 5, .v (.v 6), false⟩) 0x80000001 33 = 3 ∧ v4 (.bfe ⟨pt, .s32, .v 4, .v 5, .v (.v 6), false⟩) 0xF00 0x408 = 0xFFFFFFFF
    ∧ v4 (.bfe ⟨pt, .n32, .v 4, .v 5, .v (.v 6), false⟩) 0xA0000000 0x81C = 0xA ∧ v4 (.clz ⟨pt, .b32, .v 4, .v 5⟩) 0 0 = 32 := by decide +kernel

/-- R233: the tables 0xE8, 0x96 and 0x22 with sources 0b1100, 0b1010 and 0. -/
theorem test_lut3 :
    v4 (.lut3 ⟨pt, .v 4, .v 5, .v (.v 6), 7, 0xE8⟩) 12 10 = 8 ∧ v4 (.lut3 ⟨pt, .v 4, .v 5, .v (.v 6), 7, 0x96⟩) 12 10 = 6
    ∧ v4 (.lut3 ⟨pt, .v 4, .v 5, .v (.v 6), 7, 0x22⟩) 12 10 = 4 := by decide +kernel

/-- R253: FRND of 2.5 and of −0.25; R251: special results; R245: 1.0 + 2^24 is a tie. -/
theorem test_float_examples :
    v4 (.frnd ⟨pt, .f32, .rna, false, .v 4, .v 5⟩) 0x40200000 0 = 0x40400000 ∧ v4 (.frnd ⟨pt, .f32, .rne, false, .v 4, .v 5⟩) 0x40200000 0 = 0x40000000
    ∧ v4 (.frnd ⟨pt, .f32, .rup, false, .v 4, .v 5⟩) 0xBE800000 0 = 0x80000000 ∧ v4 (.frcp ⟨pt, .f32, .v 4, .v 5⟩) 0x80000000 0 = 0xFF800000
    ∧ v4 (.frsq ⟨pt, .f32, .v 4, .v 5⟩) 0 0 = 0x7F800000 ∧ v4 (.fex2 ⟨pt, .f32, .v 4, .v 5⟩) 0x3F800000 0 = 0x40000000
    ∧ v4 (.flg2 ⟨pt, .f32, .v 4, .v 5⟩) 0x3F800000 0 = 0 ∧ v4 (.fsin ⟨pt, .f32, .v 4, .v 5⟩) 0x80000000 0 = 0x80000000
    ∧ v4 (.fcos ⟨pt, .f32, .v 4, .v 5⟩) 0 0 = 0x3F800000 ∧ v4 (.fadd ⟨pt, .f32, .rne, .v 4, .v 5, .v (.v 6)⟩) 0x3F800000 0x4B800000 = 0x4B800000 := by
  decide +kernel

/-- R247: with A = 1.0 and B a quiet NaN, .lt is false, .lt.u and .ne.u true; the first two set IV, the third no flag. -/
theorem test_fcmp_unordered :
    ([(FCmp.lt, false), (.lt, true), (.ne, true)].map fun e => after (.fcmp ⟨pt, .f32, e.2, e.1, 3, .v 5, .v 6, yes⟩)
      (setV base [(5, 0, 0x3F800000), (6, 0, 0x7FC00000)]) fun t => ((t.regsOf.p.get 0 3).getLsbD 0, (t.fpsr 256 0).toNat))
      = [(false, 1), (true, 1), (true, 0)] := by decide +kernel

/-- The warp of the lane traces after R269: 31 launched lanes, lane 3 exited, lane 5 outside m0. -/
def laneBase : State :=
  setM (setCtl base fun c => { c with launched := 0x7FFFFFFF, exitedLanes := 8 }) 0 0x7FFFFFD7

/-- The first lane trace: SHFL.down.w8 v10, p2, v4, 1 with V[4][l] = 100 + l in every live lane. -/
theorem test_shfl_trace :
    (let t := setV laneBase (((List.range 31).filter (· != 3)).map fun l => (4, l, 100 + l))
     after (.shfl ⟨pt, .b32, .down, 3, .v 10, 2, .v 4, .imm 1⟩) t fun u =>
       [0, 2, 3, 4, 5, 7, 29, 30].map fun l => ((u.vreg 256 10 l).toNat, (u.regsOf.p.get 0 2).getLsbD l))
      = [(101, true), (0, false), (0, false), (105, true), (0, false), (107, false), (130, true), (0, false)] := by decide +kernel

/-- R90: 1.0, 2^24, 1.0 and 1.0 in lanes 0 to 3, the others absent, add up to 0x4B800001 in every lane of m0. -/
theorem test_rdx_example :
    (let t := setP (setV (setM (setCtl base fun c => { c with launched := 0xFFFFFFFF }) 0 0xFFFFFFFF)
       [(5, 0, 0x3F800000), (5, 1, 0x4B800000), (5, 2, 0x3F800000), (5, 3, 0x3F800000)]) 1 0xF
     after (.rdx ⟨onP1, .f (.add .rne) .f32, .v 4, .v 5⟩) t fun u => [0, 3, 31].map fun l => (u.vreg 256 4 l).toNat)
      = [0x4B800001, 0x4B800001, 0x4B800001] := by decide +kernel

/-- The second lane trace: a trapped overflow inside RDX raises FPEXC for lane 0 with OF in FADDR and writes nothing. -/
theorem test_rdx_trap :
    (let t := setV (setRegs laneBase fun r => { r with fpcr := 0x20 }) [(5, 0, 0x7F7FFFFF), (5, 1, 0x7F7FFFFF)]
     after (.rdx ⟨pt, .f (.add .rne) .f32, .v 4, .v 5⟩) t fun u =>
       ((u.warp 256).ctl.status, (u.warp 256).ctl.fault.fcause.toNat, (u.warp 256).ctl.fault.flanesl, (u.warp 256).ctl.fault.faddr, u.regsOf.fpsr == []))
      = (.faulted, Cause.fpexc.code, 1, 4, true) := by decide +kernel

/-- The example after R261: lane 9 of block 1 narrows 1.0, −30.0, 0.1 and 200.0 to F8A with scale code 125. -/
theorem test_cvtn_example :
    (let t := setV (setM (setCtl base fun c => { c with launched := 0xFFFFFFFF }) 0 0xFF00)
       [(12, 8, 125), (20, 9, 0x3F800000), (21, 9, 0xC1F00000), (22, 9, 0x3DCCCCCD), (23, 9, 0x43480000)]
     after (.cvtn ⟨pt, .f8a, false, false, .v 5, .v 20, .v (.v 12)⟩) t fun u => ((u.vreg 256 5 9).toNat, (u.fpsr 256 9).toNat))
      = (0x7F2DEF48, 0x14) := by decide +kernel

/-- The trace of R125: the status word after each push and poll of a queue of depth 2. -/
theorem test_status_words :
    (let s0 : DWord := 0x30000
     let p (v : DWord) (n : Nat) : DWord := (pushStatus v n).1
     let a := p s0 0
     let b := p a 1
     let c := p b 2
     let d := pollStatus c
     let e := p d 3
     [a, b, c, d, e, pollStatus e, pollStatus (pollStatus e)])
      = [0x1030000, 0x102030000, 0x182030001, 0x101130001, 0x302130001, 0x301030001, 0x300130001] := by decide +kernel

/-! ### Hypotheses that can be met: the machine, uniform, mask and vector instructions -/

/-- StepKeepsInvariant, StepRunsDecoded, FetchDecodes: the state withFetchWord builds steps; after its first fetch the
translation is cached and the warp's next turn finds IADD. -/
def fetched : State :=
  let s := State.reset.withFetchWord 64 0x7003000140800079
  ((fetch 256).run { s with turns := [], cur := 256 }).2
def iaddWord : Nat := wordOf 0 0 15 0x080 0 4 5 6 0 0x38 0
def iaddI : Instr := .iadd ⟨pt, .s32, .v 4, .v 5, .v (.v 6), false⟩
def coded : State :=
  let s := State.reset.withFetchWord 64 iaddWord
  ((fetch 256).run { s with turns := [], cur := 256 }).2

theorem wit_StepKeepsInvariant : (State.reset.withFetchWord 64 iaddWord).Inv = true ∧ Safe (State.reset.withFetchWord 64 iaddWord) := by
  refine ⟨by decide +kernel, ?_⟩
  have : (match step (State.reset.withFetchWord 64 iaddWord) with | .next _ => true | _ => false) = true := by decide +kernel
  cases h : step (State.reset.withFetchWord 64 iaddWord) with
  | next t => exact ⟨t, h⟩
  | fault _ => rw [h] at this; exact Bool.noConfusion this
  | refused _ => rw [h] at this; exact Bool.noConfusion this

theorem wit_StepRunsDecoded :
    (let s := State.reset.withFetchWord 64 iaddWord
     s.turns == [.warp 256] && decide ((s.warp 256).ctl.status = .ready) && decide ((s.warp 256).ctl.runCnt.val ≠ 16)
       && heldBack { tick s with turns := [] } 256 == none && match ((fetch 256).run { tick s with turns := [], cur := 256 }).1 with
         | .instr i => i == iaddI | _ => false) = true := by decide +kernel

/-- Two warps of one port that are ready; the first has issued since the second became ready. -/
theorem wit_StepServesTheOther :
    (let one := setCtl coded fun c => { c with lastIssue := 60 }
     let s := { one with turns := [.warp 256], seqNo := 100, readyAt := [(260, 50)], warps := one.warps.put 260 (coded.warp 256) }
     let r := { tick s with turns := [] }
     decide ((s.warp 256).ctl.status = .ready) && decide ((s.warp 256).ctl.runCnt.val ≠ 16) && heldBack r 256 == some 260
       && decide ((s.runOf (runOfWarp 256)).st = .resident) && decide ((s.warp 260).ctl.status = .ready) && decide ((s.warp 260).ctl.runCnt.val ≠ 16)
       && match ((fetch 260).run { r with cur := 260 }).1 with | .instr i => i == iaddI | _ => false) = true := by decide +kernel

theorem wit_FetchDecodes :
    (let s := coded
     let pc := (s.warp 256).ctl.pc
     targetOk pc && s.latched 0 (s.worldOfWarp 256) && s.oldCode.isEmpty && ownAddr s pc == some (0, 0)
       && match (s.die 0).tlb.find? (fun e => e.hits (s.asidOfWarp 256) 0) with
         | some e =>
           let x := Xl.ofEntry 0 (s.asidOfWarp 256) 0 e.w0 e.w1 e.leaf e.level
           bitAt x.w0 58 && x.gen == (slotGen s 0 x.slot).toNat && !x.past && tagOk (s.tags.get {} x.line) (x.want s)
             && !(s.tags.get {} x.line).poison && field (s.die 0).trcfg 40 16 == 0 && s.coreOfWarp 256 / 16 == 0 && field x.w0 53 3 == 0
             && match decodeBlock (physBytes s (x.key / 32 * 32) 32) (pc.toNat % 32) with | .instr i => i == iaddI | _ => false
         | none => false) = true := by decide +kernel

theorem wit_DecodeOfEncode : iaddI.wf = true ∧ encode iaddI = some iaddWord := by decide +kernel

theorem wit_UniformArithmetic : ∀ e ∈ ([.sadd ⟨pt, .b64, 3, 4, .s 5⟩, .ssub ⟨pt, .s64, 127, 4, .imm 0xFFFFFFFF⟩, .smul ⟨pt, .n64, 3, 3, .s 3⟩,
      .smad ⟨pt, .b64, 3, 4, 5, 6⟩, .sand ⟨pt, .b64, 3, 4, .s 5⟩, .sor ⟨pt, .b64, 3, 4, .s 5⟩, .sxor ⟨pt, .b64, 3, 4, .s 5⟩,
      .sshl ⟨pt, .b64, 3, 4, .imm 64⟩, .sshr ⟨pt, .b64, 3, 4, .imm 63⟩, .ssra ⟨pt, .s64, 3, 4, .imm 64⟩, .smin ⟨pt, .s64, 3, 4, .s 5⟩,
      .smax ⟨pt, .n64, 3, 4, .s 5⟩] : List Instr).map (·, base), Met e.1 e.2 ∧ onU e.1 e.2 = true := allMetOn (by decide +kernel)

theorem wit_UniformMovesAndCompares : ∀ e ∈ ([.ssel ⟨pt, 3, 4, 5, isP1⟩, .smov ⟨pt, 3, 4⟩, .smovi ⟨pt, 3, .short .s64 0xFFFFFFFF⟩,
      .smovi ⟨pt, 3, .long 0x8000000000000000⟩, .scmp ⟨pt, .s64, .ge, 15, 4, .s 5⟩, .scmp ⟨pt, .b64, .eq, 2, 4, .imm 0xFFFFFFFF⟩] :
      List Instr).map (·, base), Met e.1 e.2 ∧ onU e.1 e.2 = true := allMetOn (by decide +kernel)

def offForms : List Instr :=
  [.nop ⟨never⟩, .call ⟨onP1, 4⟩, .bar ⟨mkNever, .imm 0 1⟩, .sadd ⟨never, .b64, 3, 4, .s 5⟩, .mand ⟨never, 0, 1, 2⟩, .qcfg ⟨mkNever, 2, .s 7⟩,
    .mloop ⟨mkNever, .f8a, .rne, 8, none, none, false, true⟩, .epi ⟨mkNever, 8, .none, 0, none⟩, .tcopy ⟨mkNever, 8, 3, false, none⟩, .slotret ⟨mkNever, 1⟩,
    .coll ⟨mkNever, .sum, .i .s32, .gg, 3, 8⟩, .cabort ⟨mkNever, .imm 6⟩, .grid ⟨mkNever, 3, 4⟩, .mbxrd ⟨mkNever, 3, .imm 0⟩, .seqopen ⟨mkNever, 3⟩,
    .wkill ⟨mkNever, 4, 5, true⟩, .tlbi ⟨mkNever, 4, 5⟩, .eret ⟨mkNever⟩]
def offLanes : List Instr :=
  [.ld ⟨never, .b64, 8, .vi 6 0, none, .none⟩, .st ⟨never, .b64, 8, .vi 6 0, none, .none⟩, .fence ⟨mkNever, .acq, .gg⟩, .mwait ⟨mkNever, none, 6, .imm 1, .bk⟩,
    .rngx ⟨never, 8, 4, .v 12⟩, .spoll ⟨mkNever, 8, 5⟩, .nbpush ⟨mkNever, .e, 20⟩, .gath ⟨mkNever, true, 8, 20⟩]

theorem wit_PredicatedOffHasNoEffect : (offForms.all fun i => canB i base && i.hd.isSome && !onU i base) = true
    ∧ (offLanes.all fun i => canB i base && i.hd.any fun h => lanesOf (effMask base 256 h) == []) = true := ⟨by decide +kernel, by decide +kernel⟩

/-- MAND to m0 that leaves a lane, and one that leaves none and faults; MOR, MXOR, MNOT, VOTE to m7; MPOPC, MFIND of a
full and an empty mask; ANY and ALL, to pt too. -/
theorem wit_MasksAndVotes : (∀ e ∈ [((.mand ⟨pt, 0, 1, 1⟩ : Instr), setM base 1 2), (.mand ⟨pt, 0, 1, 1⟩, base), (.mor ⟨pt, 7, 1, 2⟩, base),
      (.mxor ⟨pt, 1, 1, 2⟩, base), (.mnot ⟨pt, 0, 1⟩, base), (.mpopc ⟨pt, 3, 1, false⟩, setM base 1 0xFFFFFFFF), (.mfind ⟨pt, 3, 1, true⟩, setM base 1 0x80000000),
      (.mfind ⟨pt, 3, 1, false⟩, base)], Met e.1 e.2 ∧ onU e.1 e.2 = true)
    ∧ (∀ e ∈ [((.vote ⟨pt, 1, isP1⟩ : Instr), base), (.voteAny ⟨pt, 15, isP1⟩, base), (.voteAll ⟨pt, 14, yes⟩, base)], Met e.1 e.2)
    ∧ maskNew (setM base 1 2) 0 2 ≠ 0 ∧ maskNew base 0 0 = 0 :=
  ⟨allMetOn (by decide +kernel), allMet (by decide +kernel), by decide +kernel, by decide +kernel⟩

/-- No queue register is named, and the destination is a vector register. -/
abbrev Plainly (e : Instr × State) : Prop := Met e.1 e.2 ∧ e.1.qRefs = []
theorem allPlain {l : List (Instr × State)} (h : l.all (fun e => meets e.1 e.2 && e.1.qRefs.isEmpty) = true) : ∀ e ∈ l, Plainly e :=
  fun e he => by
    have := List.all_eq_true.mp h e he
    simp only [Bool.and_eq_true, List.isEmpty_iff] at this
    exact ⟨meets_of this.1, this.2⟩

theorem wit_VectorArithmetic : ∀ e ∈ ([.iadd ⟨pt, .s32, .v 383, .v 5, .v (.v 6), true⟩, .iadd ⟨never, .s64, .v 382, .v 4, .imm 0x80000000, false⟩,
      .isub ⟨pt, .n32, .v 4, .v 5, .s 6, true⟩, .imul ⟨pt, .n64, .v 4, .v 6, .v (.v 8), false⟩, .imulh ⟨pt, .s64, .v 4, .v 6, .v (.v 8), false⟩,
      .imin ⟨pt, .s32, .v 4, .v 5, .v (.v 6), false⟩, .imax ⟨pt, .n32, .v 4, .v 5, .v (.v 6), false⟩, .iabs ⟨pt, .s32, .v 4, .v 5⟩,
      .ineg ⟨pt, .s64, .v 4, .v 6⟩, .imad ⟨pt, .s32, .v 4, .v 5, .v (.v 6), .v 7, false⟩] : List Instr).map (·, base), Plainly e := allPlain (by decide +kernel)

theorem wit_CarryAndWideMultiply : ∀ e ∈ ([.iaddc ⟨pt, .n32, .v 4, .v 5, .v (.v 6), true, 1, 2⟩, .iaddc ⟨pt, .n64, .v 4, .v 6, .s 8, false, 0, 15⟩,
      .imadw ⟨pt, .s32, .v 4, .v 6, .v (.v 7), .v 8, false⟩, .imadw ⟨pt, .n32, .v 382, .v 6, .s 7, .v 8, false⟩] : List Instr).map (·, base), Plainly e :=
  allPlain (by decide +kernel)

theorem wit_BitwiseAndShifts : ∀ e ∈ ([.vand ⟨pt, .b32, .v 4, .v 5, .v (.v 6), false⟩, .vor ⟨pt, .b64, .v 4, .v 6, .imm 1, false⟩,
      .vxor ⟨pt, .b32, .v 4, .v 5, .s 6, false⟩, .vnot ⟨pt, .b64, .v 4, .v 6⟩, .lut3 ⟨pt, .v 4, .v 5, .v (.v 6), 255, 0xE8⟩,
      .shl ⟨pt, .b64, .v 4, .v 6, .imm 64, false⟩, .shr ⟨pt, .b32, .v 4, .v 5, .imm 0xFFFFFFFF, false⟩, .sra ⟨pt, .s32, .v 4, .v 5, .imm 32, false⟩,
      .rot ⟨pt, .b32, .v 4, .v 5, .imm 33, false⟩, .shf ⟨pt, .b32, .v 4, .v 5, .v (.v 6), .v 7, true⟩, .shf ⟨pt, .b64, .v 4, .v 6, .s 8, .v 10, false⟩] :
      List Instr).map (·, base), Plainly e := allPlain (by decide +kernel)

theorem wit_BitFieldsAndCounts : ∀ e ∈ ([.bfe ⟨pt, .s64, .v 4, .v 6, .v (.v 8), false⟩, .bfe ⟨pt, .n32, .v 4, .v 5, .imm 0xFFFF, false⟩,
      .bfi ⟨pt, .b32, .v 4, .v 5, .imm 0x0820, .v 7, false⟩, .popc ⟨pt, .b64, .v 4, .v 6⟩, .clz ⟨pt, .b32, .v 4, .v 5⟩, .brev ⟨pt, .b64, .v 4, .v 6⟩] :
      List Instr).map (·, base), Plainly e := allPlain (by decide +kernel)

theorem wit_PredicateResults : ∀ e ∈ ([.icmp ⟨pt, .s32, .lt, 3, .v 4, .v 5, yes⟩, .icmp ⟨pt, .b64, .ne, 15, .v 4, .v 6, ⟨true, 1⟩⟩,
      .pbool ⟨pt, .xor, .and, 14, isP1, ⟨true, 2⟩, yes⟩] : List Instr).map (·, base), Plainly e := allPlain (by decide +kernel)

theorem wit_MovesAndAddresses : ∀ e ∈ ([.sel ⟨pt, .b64, .v 4, .v 6, .imm 1, isP1⟩, .mov ⟨pt, .b32, .v 4, .v (.v 5)⟩, .mov ⟨pt, .b64, .v 4, .s 5⟩,
      .movi ⟨pt, .v 4, .short .s64 0x80000000⟩, .movi ⟨pt, .v 4, .long 1⟩, .lea ⟨pt, .s32, .v 4, .v 6, .v (.v 8), 7⟩, .lea ⟨pt, .n32, .v 4, .v 6, .s 8, 0⟩,
      .lea ⟨pt, .b64, .v 4, .v 6, .imm 0x80000000, 3⟩] : List Instr).map (·, base), Plainly e := allPlain (by decide +kernel)

/-! ### Floating-point and cross-lane instructions -/

theorem wit_FloatResults : (∀ e ∈ ([.fadd ⟨pt, .f32, .rne, .v 4, .v 5, .v (.v 6)⟩, .fsub ⟨pt, .f64, .dyn, .v 4, .v 6, .imm 0x3FF00000⟩, .fmul ⟨pt, .bf16, .rtz, .v 4, .v 5, .s 6⟩,
      .fdiv ⟨pt, .f32, .rne, .v 4, .v 5, .v (.v 6)⟩, .ffma ⟨pt, .f64, true, .rup, .v 4, .v 6, .v (.v 8), .v 10⟩, .fmin ⟨pt, .f16, true, .v 4, .v 5, .v (.v 6)⟩,
      .fmax ⟨pt, .f32, false, .v 4, .v 5, .s 6⟩, .fsqrt ⟨pt, .f64, .rna, false, .v 4, .v 6⟩, .frnd ⟨pt, .f32, .rdn, true, .v 4, .v 5⟩,
      .fscale ⟨pt, .f32, .rne, .v 4, .v 5, .v (.v 6)⟩, .fgetx ⟨pt, .f64, .v 4, .v 6⟩, .f2f ⟨pt, .f64, .f16, .rne, .v 4, .v 5⟩, .f2i ⟨pt, .f64, .n64, .rtz, .v 4, .v 6⟩,
      .i2f ⟨pt, .f32, .s64, .rne, .v 4, .v 6⟩] : List Instr).map (·, base), Plainly e)
    ∧ trapBits (base.fpcr 256) (fDiv .f32 .rne (base.fpcr 256) 0x3F800000 0).2 = 0
    ∧ (let s := setV (setRegs base fun r => { r with fpcr := 0x10 }) [(5, 1, 0x3F800000)]
       s.Inv && canB (.fdiv ⟨pt, .f32, .rne, .v 4, .v 5, .v (.v 6)⟩) s
         && trapBits (s.fpcr 256) (fDiv .f32 .rne (s.fpcr 256) (fA s .f32 (.v 5) 1) (fB s .f32 (.v (.v 6)) 1)).2 != 0) = true :=
  ⟨allPlain (by decide +kernel), by decide +kernel, by decide +kernel⟩

theorem wit_ApproximationsAndPairs : (∀ e ∈ ([.frcp ⟨pt, .f32, .v 4, .v 5⟩, .frsq ⟨pt, .f32, .v 4, .v 5⟩, .fex2 ⟨pt, .f32, .v 4, .v 5⟩, .flg2 ⟨pt, .f32, .v 4, .v 5⟩,
      .fsin ⟨pt, .f32, .v 4, .v 5⟩, .fcos ⟨pt, .f32, .v 4, .v 5⟩, .pkfma ⟨pt, .f16, false, .rne, .v 4, .v 5, .v (.v 6), .v 7⟩,
      .pkadd ⟨pt, .bf16, .rne, .v 4, .v 5, .s 6⟩, .pkmul ⟨pt, .f16, .rtz, .v 4, .v 5, .v (.v 6)⟩] : List Instr).map (·, base), Plainly e)
    ∧ trapBits 0x10 (fApprox .rcp 0x10 0).2 ≠ 0 ∧ trapBits 0 (fApprox .rcp 0 0).2 = 0 :=
  ⟨allPlain (by decide +kernel), by decide +kernel, by decide +kernel⟩

/-- 1.5 + 2.5 = 4 and 1.5 · 2 = 3, with the largest exponent's neighbours 2^127 + 2^126 and 2^−126 · 2^−23. -/
theorem wit_ExactResultsDelivered :
    (fFlush 0 .f32 = false ∧ fExact .f32 0x3FC00000 + fExact .f32 0x40200000 = fExact .f32 0x40800000
      ∧ fExact .f32 0x3FC00000 * fExact .f32 0x40000000 = fExact .f32 0x40400000 * 2 ^ 1200)
    ∧ (fExact .f32 0x7F000000 + fExact .f32 0x7E800000 = fExact .f32 0x7F400000
      ∧ fExact .f32 0x00800000 * fExact .f32 0x34000000 = fExact .f32 1 * 2 ^ 1200 ∧ fExact .f32 1 ≠ 0)
    ∧ (∃ n m e, fVal .f32 1 = .fin n m e) ∧ ∃ n m e, fVal .f32 0x7F400000 = .fin n m e :=
  ⟨by decide +kernel, by decide +kernel, ⟨_, _, _, rfl⟩, _, _, _, rfl⟩

theorem wit_FloatCompareClassStatus : (∀ e ∈ ([.fcmp ⟨pt, .f32, true, .lt, 3, .v 5, .v 6, yes⟩, .fcmp ⟨pt, .f64, false, .nan, 15, .v 4, .v 6, isP1⟩,
      .fclass ⟨pt, .f16, .v 4, .v 5⟩, .fpstr ⟨pt, .v 4, 0x3F⟩, .fpstw ⟨pt, .v (.v 5)⟩, .fpstw ⟨pt, .imm 0x3F⟩] : List Instr).map (·, base), Plainly e)
    ∧ trapBits 0 (fCompare .f32 .lt true 0 0x3F800000 0x7FC00000).2 = 0 := ⟨allPlain (by decide +kernel), by decide +kernel⟩

theorem wit_NarrowConversions : (∀ e ∈ ([.cvtn ⟨pt, .f8a, false, false, .v 4, .v 8, .v (.v 12)⟩, .cvtn ⟨pt, .f4, true, true, .v 12, .v 8, .v (.v 12)⟩,
      .cvtn ⟨pt, .i8, false, false, .v 383, .v 8, .imm 254⟩, .cvtw ⟨pt, .t8, false, false, .v 4, .v 8, .imm 0⟩, .cvtw ⟨pt, .f4, false, true, .v 380, .v 8, .v (.v 12)⟩] :
      List Instr).map (·, base), Plainly e)
    ∧ (((cvtBlocks (lanesOf (effMask base 256 pt))).flatMap (cvtnBlock base 256 ⟨pt, .f8a, false, false, .v 4, .v 8, .v (.v 12)⟩)).all
        fun r => trapBits (base.fpcr 256) r.2.2.1 == 0) = true := ⟨allPlain (by decide +kernel), by decide +kernel⟩

theorem wit_LaneExchange : ∀ e ∈ ([.shfl ⟨pt, .b32, .down, 3, .v 10, 2, .v 4, .imm 1⟩, .shfl ⟨pt, .b64, .xor, 0, .v 10, 15, .v 4, .s 1⟩,
      .shfl ⟨pt, .b32, .idx, 5, .v 10, 0, .v 4, .v (.v 5)⟩, .shfl ⟨pt, .b32, .up, 1, .v 10, 0, .v 4, .imm 0xFFFFFFFF⟩, .perm ⟨pt, .v 4, .v 5, .v (.v 6), .v 7⟩,
      .bcast ⟨pt, .b32, .v 4, .v 5, .imm 31, false⟩, .bcast ⟨pt, .b64, .v 4, .v 6, .v (.v 5), false⟩] : List Instr).map (·, base), Plainly e :=
  allPlain (by decide +kernel)

theorem wit_ReductionsAndMatch : (∀ e ∈ ([.rdx ⟨pt, .i .add .s64, .v 4, .v 6⟩, .rdx ⟨never, .f (.add .rne) .f32, .v 4, .v 5⟩, .scanx ⟨onP1, .f .max .f64, .v 4, .v 6⟩,
      .scanx ⟨pt, .i .xor .b32, .v 4, .v 5⟩, .matchX ⟨pt, .b32, .first 1, .v 4, 0⟩, .matchX ⟨pt, .b32, .first 0, .v 4, 1⟩, .matchX ⟨pt, .b64, .all 15, .v 4, 0⟩] :
      List Instr).map (·, base), Plainly e) ∧ field (base.fpcr 256) 3 5 = 0 := ⟨allPlain (by decide +kernel), by decide +kernel⟩

/-! ### Control, faults, special registers, barriers -/

def setStack (l : List StackEntry) (s : State) : State := Upd.apply s (.stack 256 l)
/-- n return entries for both lanes. -/
def deep (n : Nat) : List StackEntry := List.replicate n ⟨.ret, 0xFFF8000000000000, 3⟩

theorem wit_NoEffectInstructions : ∀ e ∈ ([.nop ⟨pt⟩, .yield ⟨mkNever⟩, .segend ⟨mk⟩] : List Instr).map (·, base), Met e.1 e.2 := allMet (by decide +kernel)

/-- BRA taken, not taken and divergent; CALL on a stack of 1,023 and of 1,024 entries; JMPI. -/
theorem wit_Branches : (∀ e ∈ [((.bra ⟨pt, 4⟩ : Instr), base), (.bra ⟨never, 4⟩, base), (.bra ⟨onP1, 4⟩, setP base 1 1)], Met e.1 e.2)
    ∧ (∀ e ∈ [((.call ⟨pt, 0x80000000⟩ : Instr), setStack (deep 1023) base), (.call ⟨pt, 4⟩, setStack (deep 1024) base), (.jmpi ⟨pt, 5⟩, base)],
        Met e.1 e.2 ∧ onU e.1 e.2 = true)
    ∧ (base.m0 256 &&& base.predMask 256 pt.pr = base.m0 256) ∧ (base.m0 256 &&& base.predMask 256 never.pr = 0 ∧ base.m0 256 ≠ 0)
    ∧ ((setP base 1 1).m0 256 &&& (setP base 1 1).predMask 256 onP1.pr ≠ base.m0 256 ∧ (setP base 1 1).m0 256 &&& (setP base 1 1).predMask 256 onP1.pr ≠ 0) :=
  ⟨allMet (by decide +kernel), allMetOn (by decide +kernel), by and_intros <;> decide +kernel⟩

/-- BRD split, all taken and none taken; the split at 1,022 and at 1,023 entries, the others at 1,024. -/
theorem wit_BrdSplitsTheWarp : (∀ e ∈ [((.brd ⟨onP1, 4, 8⟩ : Instr), setStack (deep 1022) (setP base 1 1)), (.brd ⟨onP1, 4, 8⟩, setStack (deep 1023) (setP base 1 1)),
      (.brd ⟨pt, 4, 8⟩, setStack (deep 1023) base), (.brd ⟨pt, 4, 8⟩, setStack (deep 1024) base), (.brd ⟨never, 4, 8⟩, setStack (deep 1024) base)], Met e.1 e.2)
    ∧ base.m0 256 &&& (setP base 1 1).predMask 256 onP1.pr ≠ 0 ∧ base.m0 256 &&& ~~~((setP base 1 1).predMask 256 onP1.pr) ≠ 0 :=
  ⟨allMet (by decide +kernel), by decide +kernel, by decide +kernel⟩

/-- JOIN on an empty stack, a path, its own join, another join, a return entry, an entry without lanes; RET. -/
theorem wit_JoinAndReturn : ∀ e ∈ (([[], [⟨.path, 0xFFF8000000000040, 1⟩], [⟨.join, 0xFFF8000000000000, 3⟩], [⟨.join, 0xFFF8000000000008, 3⟩], deep 1,
      [⟨.path, 0xFFF8000000000040, 0⟩, ⟨.join, 0xFFF8000000000000, 2⟩], [⟨.path, 0xFFF8000000000040, 0⟩]] : List (List StackEntry)).flatMap fun l =>
      [((.join ⟨pt⟩ : Instr), setStack l base), (.ret ⟨pt⟩, setStack l base)]), Met e.1 e.2 ∧ onU e.1 e.2 = true := allMetOn (by decide +kernel)

/-- EXIT with no lane, with one of two, with both and an empty stack, with both and an entry whose lanes remain. -/
theorem wit_ExitEndsLanes : ∀ e ∈ [((.exit ⟨never⟩ : Instr), base), (.exit ⟨onP1⟩, setP base 1 2), (.exit ⟨pt⟩, base), (.exit ⟨pt⟩, setStack [⟨.path, 0xFFF8000000000040, 2⟩] (setM base 0 1))],
    Met e.1 e.2 := allMet (by decide +kernel)

theorem wit_TrapAndBreakpoint : ∀ e ∈ ([.trap ⟨pt, 0xFFFFFFFF⟩, .bkpt ⟨pt⟩] : List Instr).map (·, base), Met e.1 e.2 ∧ onU e.1 e.2 = true := allMetOn (by decide +kernel)

theorem wit_FaultEntry : 256 ∉ (base.world (base.worldOfWarp 256)).handlers := by decide +kernel

/-- The same warp in another role: U level. -/
def uLevel : State := setCtl base fun c => { c with role := 1 }

/-- An ill-formed term, a register at the allotment, an S-level opcode at U level, a conflict in the run, a missing marker. -/
theorem wit_IssueChecksInOrder :
    (let ready (s : State) : Bool := decide ((s.warp s.cur).ctl.status = .ready) && decide ((s.warp s.cur).ctl.runCnt.val ≠ 16)
       && decide ((s.runOf (runOfWarp s.cur)).st = .resident)
     let small := setCtl base fun c => { c with alloc := 8 }
     let i : Instr := .iadd ⟨pt, .s32, .v 4, .v 5, .v (.v 6), false⟩
     let ran := setCtl base fun c => { c with runCnt := 1, runLog := [runItem (.mov ⟨pt, .b32, .v 5, .s 1⟩) c.pc] }
     ready base && !(Instr.smovi ⟨pt, 1, .short .n32 0⟩).wf && ready small && !belowAllot (.mov ⟨pt, .b32, .v 8, .s 1⟩) 8
       && i.wf && belowAllot i 384 && (ran.ctlOf.runLog.find? fun e => conflicts e (runItem i ran.ctlOf.pc)).isSome && ready ran
       && !sLevel uLevel 256 && isS (.eret ⟨mk⟩) && ready uLevel && (Instr.eret ⟨mk⟩).wf && (runItem (.str ⟨pt, .b32, 4, .vi 6 0, .gg, .none⟩) 0).side) = true := by
  decide +kernel

theorem wit_SpecialRegisterReads : ∀ e ∈ ([.srd ⟨pt, .s 7, 0⟩, .srd ⟨pt, .s 7, 0x06⟩, .srd ⟨pt, .v32 (.v 383), 0⟩, .srd ⟨pt, .v64 (.v 382), 0x05⟩] : List Instr).map (·, base),
    Met e.1 e.2 ∧ onU e.1 e.2 = true := allMetOn (by decide +kernel)

/-- FPCR takes 1,020 + 0 … 4 at most; 1,024 and a reserved rounding code do not; S-level registers at S level and at U level. -/
theorem wit_SpecialRegisterWrites : (∀ e ∈ ([.srw ⟨mk, 0x10, .imm 1020⟩, .srw ⟨mk, 0x10, .imm 1024⟩, .srw ⟨mk, 0x10, .imm 5⟩, .srw ⟨mk, 0x18, .s 4⟩, .srw ⟨mk, 0x19, .imm 0xFFFFFFFF⟩,
      .srw ⟨mk, 0x1A, .s 4⟩, .srw ⟨mk, 0x1B, .s 4⟩, .srw ⟨mk, 0x1C, .s 4⟩, .srw ⟨mk, 0x1D, .s 4⟩] : List Instr).map (·, base), Met e.1 e.2 ∧ onU e.1 e.2 = true)
    ∧ sLevel base 256 = true
    ∧ (Met (.srw ⟨mk, 0x18, .s 4⟩) uLevel ∧ onU (.srw ⟨mk, 0x18, .s 4⟩) uLevel = true) ∧ sLevel uLevel 256 = false :=
  ⟨allMetOn (by decide +kernel), by decide +kernel, ⟨meets_of (by decide +kernel), by decide +kernel⟩, by decide +kernel⟩

/-- Block 4 with a barrier record. -/
def barAt (b : Bar) : State := setBlock base fun x => { x with bars := x.bars.put 15 b }
/-- One warp more in the block, so that one arrival does not complete a phase of all warps. -/
def twoWarps (s : State) : State := { setBlock s fun b => { b with nwarps := 2 } with warps := s.warps.put 257 ((s.warp 256)) }

/-- BAR with the phase completing, waiting, of another count, out of range, and re-issued after its phase and before it;
ARRV, AWAIT and GBAR in the same cases. -/
theorem wit_BlockAndGangBarriers : (∀ e ∈ [((.bar ⟨mk, .imm 15 1⟩ : Instr), base), (.bar ⟨mk, .imm 15 64⟩, barAt { c := 0, arr := 62, cnt := 64, isOpen := true }),
      (.bar ⟨mk, .imm 15 0⟩, base), (.bar ⟨mk, .imm 15 2⟩, base), (.bar ⟨mk, .imm 15 2⟩, barAt { c := 0, arr := 1, cnt := 3, isOpen := true }),
      (.bar ⟨mk, .reg 4 5⟩, setS base [(4, 16)]), (.bar ⟨mk, .reg 4 5⟩, setS base [(4, 15), (5, 65)]),
      (.bar ⟨mk, .imm 15 1⟩, setCtl (barAt { c := 1, arr := 0, cnt := 0, isOpen := false }) fun c => { c with arrived := some 0 }),
      (.bar ⟨mk, .imm 15 1⟩, setCtl (barAt { c := 1, arr := 0, cnt := 0, isOpen := false }) fun c => { c with arrived := some 1 }),
      (.arrv ⟨mk, 3, .imm 15 1⟩, base), (.arrv ⟨mk, 3, .reg 4 5⟩, setS base [(4, 16)]), (.arrv ⟨mk, 3, .imm 15 2⟩, barAt { c := 0, arr := 1, cnt := 3, isOpen := true }),
      (.await ⟨mk, 4, .imm 15⟩, barAt { c := 1, arr := 0, cnt := 0, isOpen := false }), (.await ⟨mk, 4, .imm 0⟩, base), (.await ⟨mk, 4, .reg 5⟩, setS base [(5, 16)]),
      (.gbar ⟨mk⟩, base), (.gbar ⟨mk⟩, twoWarps base), (.gbar ⟨mk⟩, setCtl base fun c => { c with arrived := some 0 })], Met e.1 e.2 ∧ onU e.1 e.2 = true)
    ∧ base.cur / 64 ∈ base.blocksOfRun 1 ∧ liveCount base (base.warpsOfRun 1) = 1 ∧ liveCount (twoWarps base) ((twoWarps base).warpsOfRun 1) = 2 :=
  ⟨allMetOn (by decide +kernel), by and_intros <;> decide +kernel⟩

/-! ### Memory, standing loads, queues -/

/-- `SpadFound`, `SpadAt`, `HitAt` with a further check, and `HitAt` with `Readable`, as checks. -/
def foundB (s : State) (a : DWord) (n : Nat) (need : Need) (p : Nat × Nat) : Bool :=
  decide (a.toNat % n = 0) && inWindow a && match locWindow s (s.whoWarp s.cur) a n need with | .ok (.spad b o) => (b, o) == p | _ => false
def spadB (s : State) (a : DWord) (n : Nat) (need : Need) (p : Nat × Nat) : Bool := foundB s a n need p && !absent s p.1 (p.2 / 128)
def atB (s : State) (a : DWord) (n : Nat) (rd wr : Bool) (f : Xl → Bool) : Bool :=
  (n == 0 || a.toNat % n == 0) && !inWindow a && (ownAddr s a).any fun e =>
    s.latched e.1 (s.worldOfWarp s.cur) && ((s.die e.1).tlb.find? fun x => x.hits (s.asidOfWarp s.cur) e.2).any fun y =>
      let x := Xl.ofEntry e.1 (s.asidOfWarp s.cur) e.2 y.w0 y.w1 y.leaf y.level
      (!rd || bitAt x.w0 60) && (!wr || bitAt x.w0 59) && x.gen == (slotGen s e.1 x.slot).toNat && x.die == e.1 && x.off == e.2 && f x
def hitB (s : State) (a : DWord) (n : Nat) (rd wr : Bool) : Bool := atB s a n rd wr fun x =>
  tagOk (s.tags.get {} x.line) (x.want s) && !(s.tags.get {} x.line).poison && !unreachable s (s.coreOfWarp s.cur) x.die
    && !x.past && field (s.die x.die).trcfg 40 16 == 0 && !inTable s x.die x.pa

/-- The pair v6 of both lanes at `a` and `a` + `step`, and v4 to v13 counting up. -/
def addrs (s : State) (a step : Nat) : State :=
  setV s ((List.range 2).flatMap fun l => let x := a + step * l
    (6, l, x % 2 ^ 32) :: (7, l, x / 2 ^ 32) :: ([4, 5, 8, 9, 10, 11, 12, 13].map fun r => (r, l, r + 16 * l)))
/-- Addresses at the start and at the end of the scratchpad (65,536 bytes), and misaligned in lane 1. -/
def low : State := addrs base win 8
def high : State := addrs base (win + 65520) 8
def odd : State := addrs base win 9
/-- The first line of the scratchpad absent. -/
def gone : State := setBlock low fun b => { b with unset := [(0, 1)] }
/-- The same machine with its page cached, and addresses in the page. -/
def cached : State := ((fetch 256).run base).2
def inPage : State := addrs (setP cached 1 1) 0xFFF8000000000040 8

/-- A write of the warp to another device is under way. -/
def abroad (s : State) : State := setCtl s fun c => { c with away := [(0, false, 1)] }
/-- Both lanes meet the scratchpad's hypotheses. -/
def lanesB (s : State) (h : Hd) (addr : Nat → DWord) (n : Nat) (need : Need) (place : Nat → Nat × Nat) : Bool :=
  (s.onLanes h).length == 2 && (s.onLanes h).all fun l => spadB s (addr l) n need (place l)

theorem wit_ScratchpadLoads : (∀ e ∈ [((.ld ⟨pt, .b64, 8, .vi 6 0, none, .none⟩ : Instr), low), (.ld ⟨pt, .s8, 8, .vi 6 0, some .bk, .none⟩, high),
      (.lda ⟨pt, .b64, 8, .vi 6 0, .gg, .none⟩, high), (.ld ⟨pt, .b64, 8, .vi 6 0, none, .none⟩, odd)], Met e.1 e.2)
    ∧ (∀ e ∈ [((.sld ⟨pt, .s16, 3, 4, .imm 2⟩ : Instr), setS base [(4, win)])], Met e.1 e.2 ∧ onU e.1 e.2 = true)
    ∧ (lanesB low pt (memAddrOf low 256 (.vi 6 0)) 8 { rd := true, ringOk := true } fun l => (4, 8 * l)) = true
    ∧ (lanesB high pt (memAddrOf high 256 (.vi 6 0)) 8 { rd := true } fun l => (4, 65520 + 8 * l)) = true
    ∧ spadB (setS base [(4, win)]) (BitVec.ofNat 64 (win + 2)) 2 { rd := true, ringOk := true } (4, 2) = true
    ∧ ((memAddrOf odd 256 (.vi 6 0) 1).toNat % 8 ≠ 0 ∧ spadB odd (memAddrOf odd 256 (.vi 6 0) 0) 8 { rd := true, ringOk := true } (4, 0) = true) :=
  ⟨allMet (by decide +kernel), allMetOn (by decide +kernel), by and_intros <;> decide +kernel⟩

theorem wit_ScratchpadStores : (∀ e ∈ [((.st ⟨pt, .b64, 8, .vi 6 0, none, .none⟩ : Instr), low), (.st ⟨pt, .b8, 8, .vi 6 0, some .bk, .none⟩, high),
      (.str ⟨mk, .b64, 8, .vi 6 0, .bk, .none⟩, high)], Met e.1 e.2)
    ∧ (lanesB low pt (memAddrOf low 256 (.vi 6 0)) 8 { wr := true } fun l => (4, 8 * l)) = true
    ∧ (lanesB high pt (memAddrOf high 256 (.vi 6 0)) 8 { wr := true } fun l => (4, 65520 + 8 * l)) = true
    ∧ (high.block 4).strongs = [] ∧ Met (.str ⟨mk, .b64, 8, .vi 6 0, .dm, .none⟩) (abroad high)
    ∧ awaitRemote (abroad high) 256 .dm = true ∧ awaitRemote high 256 .dm = false ∧ awaitRemote (abroad high) 256 .wd = false :=
  ⟨allMet (by decide +kernel), by decide +kernel, by decide +kernel, by decide +kernel, meets_of (by decide +kernel), by and_intros <;> decide +kernel⟩

theorem wit_DeviceMemoryAccess : (∀ e ∈ [((.ld ⟨onP1, .b64, 8, .vi 6 0, none, .none⟩ : Instr), inPage), (.st ⟨onP1, .b64, 8, .vi 6 0, none, .none⟩, inPage),
      (.st ⟨onP1, .b32, 8, .vi 6 0, some .wd, .none⟩, inPage)], Met e.1 e.2)
    ∧ inPage.onLanes onP1 = [0] ∧ hitB inPage (memAddrOf inPage 256 (.vi 6 0) 0) 8 true true = true ∧ inPage.l1 = []
    ∧ bitAt (inPage.world 1).cfg 60 = false ∧ inPage.msgs = [] :=
  ⟨allMet (by decide +kernel), by and_intros <;> decide +kernel⟩

def needs : List Need := [{ rd := true }, { rd := true, ringOk := true }, { wr := true }]
/-- Lane 0 aligned and lane 1 not; the line of both lanes absent. -/
theorem wit_MemoryMisses :
    ([Instr.ld ⟨pt, .b64, 8, .vi 6 0, none, .none⟩, .lda ⟨pt, .b64, 8, .vi 6 0, .gg, .none⟩, .st ⟨pt, .b64, 8, .vi 6 0, some .bk, .none⟩,
        .str ⟨mk, .b64, 8, .vi 6 0, .bk, .none⟩].all fun i =>
      meets i odd && (odd.onLanes pt) == [0, 1] && (memAddrOf odd 256 (.vi 6 0) 1).toNat % 8 != 0 && (odd.block 4).strongs.isEmpty
        && needs.all (fun n => spadB odd (memAddrOf odd 256 (.vi 6 0) 0) 8 n (4, 0))
        && meets i gone && absent gone 4 0 && [0, 1].all fun l => needs.all fun n => foundB gone (memAddrOf gone 256 (.vi 6 0) l) 8 n (4, 8 * l)) = true
    ∧ (let i : Instr := .sld ⟨pt, .s16, 3, 4, .imm 0⟩
       meets i (setS base [(4, win + 1)]) && onU i base && meets i (setS gone [(4, win)]) && onU i gone
         && foundB (setS gone [(4, win)]) (BitVec.ofNat 64 win) 2 { rd := true, ringOk := true } (4, 0)) = true := ⟨by decide +kernel, by decide +kernel⟩

/-- A page without R, and a line whose MAC fails. -/
theorem wit_DeviceLoadFaults :
    ([true, false].all fun r =>
      let s := if r then { inPage with tags := inPage.tags.put 0 { key := 1, tweak := 1 } } else
        { inPage with dies := inPage.dies.put 0 { inPage.die 0 with tlb := (inPage.die 0).tlb.map fun e => { e with w0 := setField e.w0 60 1 0 } } }
      meets (.ld ⟨onP1, .b64, 8, .vi 6 0, none, .none⟩) s && s.onLanes onP1 == [0] && s.l1.isEmpty && s.reps.isEmpty
        && atB s (memAddrOf s 256 (.vi 6 0) 0) 8 false false fun x => bitAt x.w0 60 == r && (!r || (match lineRead s x with | .error .integrity => true | _ => false)
          && !unreachable s (s.coreOfWarp 256) 0 && field (s.die 0).trcfg 40 16 == 0)) = true := by decide +kernel

theorem wit_ScratchpadAtomics : (∀ e ∈ [((.atom ⟨mk, .i .add .s64, .acq, .bk, 4, 6, 8, 0, 0⟩ : Instr), low), (.atom ⟨mk, .i .cas .b64, .rlx, .gg, 4, 6, 8, 10, 0⟩, high),
      (.red ⟨mk, .fadd .f64, .rel, .bk, 6, 8, 0⟩, high), (.atom ⟨mk, .i .add .s64, .rel, .dm, 4, 6, 8, 0, 0⟩, abroad high), (.red ⟨mk, .fadd .f64, .rel, .dm, 6, 8, 0⟩, abroad high)], Met e.1 e.2)
    ∧ ([AtomOp.i .add .s64, .i .cas .b64, .fadd .f64].all fun o => atomBytes o == 8 && [(low, 0), (high, 65520)].all fun e =>
        lanesB e.1 mk (fun l => e.1.vpair 256 6 l + BitVec.signExtend 64 (0 : BitVec 32)) 8 { rd := true, wr := true, hostOk := atomHostOk o } fun l => (4, e.2 + 8 * l)) = true :=
  ⟨allMet (by decide +kernel), by decide +kernel⟩

theorem wit_FencesAndCaches : (∀ e ∈ [((.fence ⟨mk, .acq, .gg⟩ : Instr), base), (.fence ⟨mk, .rel, .wd⟩, base), (.fence ⟨mk, .sc, .dm⟩, abroad base), (.cctl ⟨mk, .evl2, .vi 6 0⟩, inPage), (.cctl ⟨mk, .il1, .vi 6 0⟩, low),
      (.pref ⟨pt, true, .vi 6 0⟩, inPage), (.disc ⟨mk, .vi 6 0⟩, inPage)], Met e.1 e.2)
    ∧ base.onLanes mk ≠ [] ∧ ([0, 1].all fun l => hitB inPage (memAddrOf inPage 256 (.vi 6 0) l) 1 true false && hitB inPage (memAddrOf inPage 256 (.vi 6 0) l) 0 false true
      && inWindow (memAddrOf low 256 (.vi 6 0) l)) = true := ⟨allMet (by decide +kernel), by decide +kernel, by decide +kernel⟩

/-- MWAIT met in both lanes (0 ≤ 0), and not in lane 1; PWAIT with every line present, and with one absent. -/
theorem wit_MemoryWaits : (∀ e ∈ [((.mwait ⟨mk, some 4, 6, .imm 0, .bk⟩ : Instr), high), (.mwait ⟨mk, none, 6, .imm 1, .bk⟩, setPad low [(0, 8, 1)]), (.pwait ⟨mk, 6, .imm 65536⟩, addrs base win 0),
      (.pwait ⟨mk, 6, .imm 1⟩, setBlock low fun b => { b with unset := [(0, 1)] })], Met e.1 e.2)
    ∧ high.ctlOf.mwDone = 0 ∧ (lanesB high mk (fun l => high.vpair 256 6 l) 8 { rd := true } fun l => (4, 65520 + 8 * l)) = true
    ∧ (let s := setPad low [(0, 8, 1)]; s.spadNum (4, 0) 8 = 1 ∧ s.spadNum (4, 8) 8 = 0)
    ∧ ([0, 1].all fun l => match pwaitLane (addrs base win 0) 256 ((addrs base win 0).vpair 256 6 l) 65536 with | .ok x => x.length == 512 | _ => false) = true
    ∧ absent (setBlock low fun b => { b with unset := [(0, 1)] }) 4 0 = true :=
  ⟨allMet (by decide +kernel), by and_intros <;> decide +kernel⟩

/-- A queue region of depth 2 at 0, with one entry to read. -/
def region : State :=
  let s := setP (setBlock cached fun b => { b with regions := [(0, { depth := 2, queue := true, size := 8, active := true, sub := 7, scope := .gg })] }) 1 1
  addrs (setPad s [(0, 8, 0x1030000)]) 0xFFF8000000000040 8

theorem wit_StandingLoads : (∀ e ∈ [((.subs ⟨⟨true, ⟨false, 1⟩⟩, 0, true, 7, .gg, 4, 6, .v 5⟩ : Instr), setV inPage [(5, 0, 0)]), (.unsub ⟨⟨true, ⟨false, 1⟩⟩, 8, .v 5⟩, setV region [(5, 0, 0)]),
      (.unsub ⟨⟨true, ⟨false, 1⟩⟩, 8, .v 5⟩, setV inPage [(5, 0, 0)]), (.spoll ⟨⟨true, ⟨false, 1⟩⟩, 8, 5⟩, setV region [(5, 0, 0)]), (.spoll ⟨⟨true, ⟨false, 1⟩⟩, 8, 5⟩, setV inPage [(5, 0, 0)])], Met e.1 e.2)
    ∧ inPage.onLanes ⟨true, ⟨false, 1⟩⟩ = [0] ∧ hitB inPage (inPage.vpair 256 6 0) 8 true false = true
    ∧ subsOffBad inPage 256 [(0, 0)] 8 (0, 0) = none ∧ subsOn inPage 0 < 4096 ∧ pollOffBad region 256 0 = none
    ∧ (region.block 4).regions.find? (fun e => e.1 == 0 && e.2.active) ≠ none ∧ (inPage.block 4).regions = [] ∧ field (statusWord region 4 0) 24 4 = 1 :=
  ⟨allMet (by decide +kernel), by and_intros <;> decide +kernel⟩

/-! ### Queues, engines, links, grids -/

/-- The page of 2 MiB at the die's address 0 cached, unwritten lines reading zeros (F set), and where the world's tables lie. -/
def big : State :=
  { base with
    dies := base.dies.put 0 { base.die 0 with tlb := [⟨1, 0, 0, 2, 0xFC00000000000000, 0, 0x10100000, 0, false, false, 0⟩] }
    worlds := base.worlds.put 1 { base.world 1 with mbx := 0xFFF8000000010000, fq := 0xFFF8000000080000, info := 0xFFF8000000100000 } }
/-- Little-endian numbers in that page: offset, bytes, value. -/
def putMem (s : State) (l : List (Nat × Nat × Nat)) : State :=
  { s with
    mem := l.foldl (fun m e => placeBytes m e.1 e.2.1 e.2.2) s.mem
    tags := l.foldl (fun t e => (List.range ((e.1 % 128 + e.2.1 + 127) / 128)).foldl
      (fun t i => Tab.set {} t (e.1 / 128 + i) { key := 1, die := 0, page := e.1 / 65536 }) t) s.tags }
def own (off : Nat) : Nat := 0xFFF8000000000000 + off
/-- The program runs from `u` to `u` itself, and its answer passes. -/
def stays {α : Type} (p : Prog α) (u : State) (f : α → Bool) : Bool := let r := p.run u; r.2 == u && f r.1
/-- The same where it only reads memory; the answer is judged in the state it leaves. -/
def reads {α : Type} (p : Prog α) (u : State) (f : State → α → Bool) : Bool :=
  let r := p.run u
  let c := (r.2.warp 256).ctl
  let w := { u.warp 256 with ctl := { (u.warp 256).ctl with view := c.view, acq := c.acq } }
  r.2 == { u with l1 := r.2.l1, reps := r.2.reps, free := r.2.free, warps := u.warps.put 256 w } && f r.2 r.1
def okD {ε α : Type} (f : α → Bool) (r : Except ε α) : Bool := match r with | .ok x => f x | .error _ => false

/-- A legal stream record at scratchpad offset 0: base own(0x2000), stride 8, 4 elements of 8 bytes, engine 1. -/
def record : State := setPad (setS big [(5, win), (6, win + 8)]) [(0, 8, own 0x2000), (8, 8, 8), (16, 8, 4), (24, 8, 0x23)]
/-- Queue register q2 bound to load engine 1 with one element read ahead. -/
def bound : State :=
  setCtl (setBlock big fun b => { b with streams := [(1, { warp := 256, q := 2, bound := true, base := 0, stride := 8, count := 4, esize := 8, ahead := [.val 7] })] })
    fun c => { c with qbind := [(2, 2)] }
def bound2 : State := setBlock bound fun b => { b with streams := [(1, { warp := 256, q := 2, bound := true, base := 0, stride := 8, count := 4, esize := 8, ahead := [.val 7, .val 9] })] }

/-- Queue register q3 bound to store engine 2, whose next addresses lie in lines that hold bytes; with an element not performed. -/
def storing (pend : List PushedElem) : State :=
  putMem (setCtl (setBlock big fun b => { b with streams :=
      [(2, { warp := 256, q := 3, bound := true, base := BitVec.ofNat 64 (own 0x2000), stride := 8, count := 4, store := true, esize := 8, pend })] })
    fun c => { c with qbind := [(3, 3)] }) [(0x2000, 16, 7)]
def pushed1 : PushedElem := { n := 0, addr := BitVec.ofNat 64 (own 0x2000), val := 7, seg := 0, hold := 0 }

/-- Queue register q2 reads two elements of load engine 1, q3 pushes to store engine 2, both of elements of n bytes. -/
def queues (n : Nat) : State :=
  putMem (setCtl (setBlock big fun b => { b with streams :=
      [(1, { warp := 256, q := 2, bound := true, stride := 8, count := 4, esize := n, ahead := [.val 0x3F800000, .val 0x40000000] }),
       (2, { warp := 256, q := 3, bound := true, base := BitVec.ofNat 64 (own 0x2000), stride := 8, count := 4, store := true, esize := n })] })
    fun c => { c with qbind := [(2, 2), (3, 3)] }) [(0x2000, 16, 7)]
/-- The queue registers serve the instruction for its lanes with effect, of which `to` push. -/
def fedB (s : State) (i : Instr) (h : Hd) (dst : List Nat) : Bool :=
  let n := (s.onLanes h).length
  meets i s && !i.qRefs.isEmpty && n == 2 && (i.regs.v.all fun x => qUseOk s 256 x n dst.length)
    && ((qReads s 256 i).all fun e => decide (n ≤ (s.engine e).ahead.length) && (s.engine e).ahead.all fun x => match x with | .val _ => true | _ => false)
    && (qWrites i).all fun q => (s.streamOf 256 q).any fun e => (s.engine e.1).pend.isEmpty && dst.zipIdx.all fun k =>
        hitB s ((s.engine e.1).base + BitVec.ofNat 64 ((s.engine e.1).pos + k.2) * (s.engine e.1).stride) (s.engine e.1).esize false true
def queueForms4 : List Instr :=
  [.iadd ⟨mk, .s32, .v 4, .q 2, .v (.v 6), false⟩, .iadd ⟨mk, .s32, .q 3, .q 2, .v (.v 6), true⟩, .iaddc ⟨mk, .n32, .v 4, .q 2, .s 8, true, 1, 2⟩,
    .icmp ⟨mk, .s32, .lt, 3, .q 2, .v 5, yes⟩, .vand ⟨mk, .b32, .q 3, .v 5, .v (.v 6), false⟩, .lut3 ⟨mk, .v 4, .q 2, .v (.v 6), 255, 0xE8⟩,
    .bfe ⟨mk, .n32, .v 4, .q 2, .imm 0x0808, false⟩, .popc ⟨mk, .b32, .q 3, .v 6⟩, .sel ⟨mk, .b32, .q 3, .q 2, .imm 1, isP1⟩, .mov ⟨mk, .b32, .q 3, .v (.q 2)⟩,
    .fadd ⟨mk, .f32, .rne, .q 3, .q 2, .v (.v 6)⟩, .fdiv ⟨mk, .f32, .rne, .v 4, .q 2, .v (.v 6)⟩, .fcmp ⟨mk, .f32, true, .lt, 3, .q 2, .v 6, yes⟩,
    .fclass ⟨mk, .f32, .v 4, .q 2⟩, .fpstr ⟨mk, .q 3, 0x3F⟩, .fpstw ⟨mk, .v (.q 2)⟩, .cvtn ⟨mk, .i8, false, false, .q 3, .v 8, .imm 254⟩,
    .cvtw ⟨mk, .t8, false, false, .v 4, .q 2, .imm 0⟩, .frcp ⟨mk, .f32, .q 3, .q 2⟩, .pkadd ⟨mk, .bf16, .rne, .v 4, .q 2, .s 6⟩,
    .shfl ⟨mk, .b32, .xor, 0, .v 10, 15, .q 2, .imm 1⟩, .perm ⟨mk, .q 3, .q 2, .v (.v 6), .v 7⟩, .bcast ⟨mk, .b32, .v 4, .q 2, .imm 0, false⟩,
    .rdx ⟨mk, .i .add .s32, .v 4, .q 2⟩, .scanx ⟨mk, .f .max .f32, .q 3, .q 2⟩, .matchX ⟨mk, .b32, .first 1, .q 2, 0⟩, .matchX ⟨mk, .b32, .all 4, .q 2, 0⟩]
def queueForms8 : List Instr :=
  [.iadd ⟨mk, .s64, .q 3, .q 2, .imm 1, false⟩, .imadw ⟨mk, .s32, .v 4, .v 6, .v (.v 7), .q 2, false⟩,
    .imadw ⟨mk, .s32, .q 3, .v 6, .v (.v 7), .v 8, false⟩, .lea ⟨mk, .n32, .q 3, .q 2, .v (.v 8), 7⟩,
    .icmp ⟨mk, .b64, .ne, 15, .v 4, .q 2, yes⟩, .fadd ⟨mk, .f64, .dyn, .q 3, .q 2, .imm 0x3FF00000⟩, .movi ⟨mk, .q 3, .long 1⟩]

/-- Arithmetic, floating-point and cross-lane instructions that read and write queue registers, of each element size; a division by
zero that traps. -/
theorem wit_QueueRegisters : ((queueForms4.map fun i => (queues 4, i)) ++ queueForms8.map fun i => (queues 8, i)).all (fun e => fedB e.1 e.2 mk [0, 1]) = true
    ∧ field ((queues 4).fpcr 256) 3 5 = 0
    ∧ (let s := setRegs (queues 4) fun r => { r with fpcr := 0x10 }
       let i : Instr := .fdiv ⟨mk, .f32, .rne, .v 4, .q 2, .v (.v 6)⟩
       fedB s i mk [0, 1] && qWrites i == [] && [0, 1].any fun l => trapBits (s.fpcr 256)
         (byLane mk (fun s l => fDiv .f32 .rne (s.fpcr 256) (fA s .f32 (.q 2) l) (fB s .f32 (.v (.v 6)) l)) s l).2 != 0) = true :=
  by and_intros <;> decide +kernel

/-- Enabled flags raised by FCMP, CVTN and RDX; an integer RDX with traps enabled, which raises none. -/
theorem wit_FloatTraps :
    (let s := setV (setRegs base fun r => { r with fpcr := 8 }) [(5, 0, 0x3F800000), (6, 0, 0x7FC00000)]
     meets (.fcmp ⟨pt, .f32, true, .lt, 3, .v 5, .v 6, yes⟩) s
       && trapBits (s.fpcr 256) (fCompare .f32 .lt true (s.fpcr 256) (fA s .f32 (.v 5) 0) (fA s .f32 (.v 6) 0)).2 != 0) = true
    ∧ (let s := setV (setRegs (setM (setCtl base fun c => { c with launched := 0xFFFFFFFF }) 0 0xFF00) fun r => { r with fpcr := 0xF8 })
         [(12, 8, 125), (20, 9, 0x3F800000), (21, 9, 0xC1F00000), (22, 9, 0x3DCCCCCD), (23, 9, 0x43480000)]
       let o : Cvt := ⟨pt, .f8a, false, false, .v 5, .v 20, .v (.v 12)⟩
       meets (.cvtn o) s && (((cvtBlocks (lanesOf (effMask s 256 pt))).flatMap (cvtnBlock s 256 o)).find? fun r => r.1 == 9).any
         fun r => trapBits (s.fpcr 256) r.2.2.1 != 0) = true
    ∧ ([(RdxOp.f (.add .rne) .f32, true), (.i .add .s32, false)].all fun e =>
       let s := setV (setRegs laneBase fun r => { r with fpcr := 0x20 }) [(5, 0, 0x7F7FFFFF), (5, 1, 0x7F7FFFFF)]
       let x (l : Nat) : Option Nat := if l ∈ s.onLanes pt then some (s.opnd 256 (s.onLanes pt) (.v 5) 1 l) else none
       meets (.rdx ⟨pt, e.1, .v 4, .v 5⟩) s
         && (lanesOf (s.m0 256)).any (fun l => trapBits (s.fpcr 256) (rdxFl e.1 (s.fpcr 256) false x (s.m0 256) l) != 0) == e.2) = true :=
  by and_intros <;> decide +kernel

theorem wit_StoreQueues : (∀ e ∈ [((.qcfg ⟨mk, 3, .s 7⟩ : Instr), storing []), (.qcfg ⟨mk, 3, .s 7⟩, storing [pushed1])], Met e.1 e.2 ∧ onU e.1 e.2 = true)
    ∧ Met (.mov ⟨mk, .b64, .q 3, .v (.v 8)⟩) (storing [])
    ∧ (((storing []).streamOf 256 3).any fun e => e.2.store && e.2.pend.isEmpty && esizeOk 2 e.2.esize && decide (((storing []).onLanes mk).length ≤ e.2.count - e.2.pos)) = true
    ∧ ([0x2000, 0x2008].all fun a => hitB (storing []) (BitVec.ofNat 64 (own a)) 8 false true) = true
    ∧ (storing []).onLanes mk = [0, 1] ∧ engineBusy (storing []) 4 2 = false ∧ engineBusy (storing [pushed1]) 4 2 = true ∧ (storing [pushed1]).sreg 256 7 = 0 :=
  ⟨allMetOn (by decide +kernel), meets_of (by decide +kernel), by and_intros <;> decide +kernel⟩

theorem wit_Queues : (∀ e ∈ [((.qcfg ⟨mk, 2, .s 7⟩ : Instr), big), (.qcfg ⟨mk, 2, .s 7⟩, bound), (.qcfg ⟨mk, 2, .s 6⟩, record), (.qcfg ⟨mk, 2, .s 5⟩, record), (.qfence ⟨mk, 0x1FF⟩, big)],
      Met e.1 e.2 ∧ onU e.1 e.2 = true)
    ∧ (∀ e ∈ [((.mov ⟨mk, .b64, .v 8, .v (.q 2)⟩ : Instr), big), (.mov ⟨mk, .b64, .v 8, .v (.q 2)⟩, bound2), (.mov ⟨mk, .b64, .v 8, .v (.q 2)⟩, bound)], Met e.1 e.2)
    ∧ (spadB record (BitVec.ofNat 64 win) 32 { rd := true, ringOk := true } (4, 0)
        && (streamRecord 256 2 ((List.range 32).map fun i => record.spadByte 4 i)).any (fun r => r.1 == 1 && r.2.count == 4)
        && !engineTaken record 256 2 1 && !engineBusy record 4 1 && (record.streamOf 256 2).isNone && (win + 8) % 32 != 0) = true
    ∧ ((bound.streamOf 256 2).any (fun e => e.2.pend.isEmpty && !e.2.store && esizeOk 2 e.2.esize && decide (2 ≤ e.2.count - e.2.pos) && e.2.ahead.length == 1)
        && (bound2.streamOf 256 2).any (fun e => e.2.ahead.length == 2)) = true :=
  ⟨allMetOn (by decide +kernel), allMet (by decide +kernel), by decide +kernel, by decide +kernel⟩

def withRing (g : Ring) (s : State) : State := { s with rings := s.rings.put 0 g }
/-- The ring held by block 4, with slot 0 as given; a legal MLOOP descriptor at s8 (one step, one row, one column). -/
def ringS (x : RSlot) : State := withRing { holder := some 4, slots := [(0, x)] } (setS big [(13, 1)])
/-- An operation of the block in flight on the ring. -/
def busyRing (s : State) : State := { s with ops := [(9, { blk := 4, warp := 256, queue := 6 })] }
/-- An F32 map of 4 elements at own(0x1000), its descriptor at s8, the data at own(0x2000). -/
def mapped (s : State) : State :=
  putMem (setS s [(8, own 0x1000), (15, win)]) [(0x1000, 8, own 0x2000), (0x1008, 8, 2 ^ 56 + 8 * 2 ^ 52), (0x1010, 8, 0), (0x1018, 8, 0x303), (0x1020, 96, 0)]

theorem wit_RingAndMatrix : (∀ e ∈ [((.rinit ⟨mk, true⟩ : Instr), big), (.rinit ⟨mk, true⟩, ringS {}), (.rinit ⟨mk, false⟩, ringS {}), (.rinit ⟨mk, false⟩, big),
      (.rinit ⟨mk, false⟩, busyRing (ringS {})), (.rinit ⟨mk, true⟩, withRing { holder := some 9 } big), (.rwait ⟨mk, false⟩, big), (.rwait ⟨mk, true⟩, big),
      (.rwait ⟨mk, true⟩, ringS { st := .full }), (.mloop ⟨mk, .f8a, .rne, 8, none, none, false, true⟩, big),
      (.mloop ⟨mk, .f8a, .rne, 8, none, none, false, true⟩, withRing { holder := some 4 } big), (.mloop ⟨mk, .f8a, .rne, 8, some ⟨383, 0⟩, none, false, true⟩, ringS {}),
      (.mloop ⟨mk, .f64, .rup, 8, none, none, false, false⟩, ringS { st := .full }), (.mstep ⟨mk, .f32, .rne, 8, none, none, false, false⟩, ringS { st := .filling, mf := .f32, rows := 1, cols := 1, opn := true }),
      (.mstep ⟨mk, .f16, .rne, 8, none, none, false, false⟩, ringS { st := .filling, mf := .f32, rows := 1, cols := 1, opn := true }),
      (.epi ⟨mk, 8, .none, 0, none⟩, mapped (ringS { st := .full, rows := 1, cols := 1 })), (.epi ⟨mk, 8, .none, 0, none⟩, mapped (ringS {}))], Met e.1 e.2 ∧ onU e.1 e.2 = true)
    ∧ ((busyRing (ringS {})).coreOfWarp 256 = 0 ∧ ringBusy (busyRing (ringS {})) 4 = true ∧ ringBusy (ringS {}) 4 = false)
    ∧ (let s := ringS {}
       (mloopOp s 256 ⟨mk, .f8a, .rne, 8, some ⟨383, 0⟩, none, false, true⟩).any (fun m => (mloopAlign m).isNone && scaleFits s 256 (some ⟨383, 0⟩) m.count)
         && (openSlot s 0).isNone && (mloopOp big 256 ⟨mk, .f8a, .rne, 8, none, none, false, true⟩).isNone) = true
    ∧ openSlot (ringS { st := .filling, mf := .f32, rows := 1, cols := 1, opn := true }) 0 = some 0
    ∧ ([RSlot.mk .full .f32 1 1 false false [], {}].all fun x =>
        let s := mapped (ringS x)
        let o : Epi := ⟨mk, 8, .none, 0, none⟩
        let u := noted (.epi o) s
        reads (readMap 256 (s.sreg 256 8)) u (fun u => okD fun m => m.walks.all (fun t => !t.on) && !m.aon && decide (m.dims.length ≤ 4) && decide (6 ≤ m.fmt)
          && scAgrees (epiOp s 256 o m).stamp.isSome o.sc && f4Ok m (epiOp s 256 o m).c [] && stays (firstCause (wordChecks 256 (epiOp s 256 o m).stamp none false)) u (·.isNone) && stays (epiChecks 256 (epiOp s 256 o m) (s.slot 0 0)) u (·.isNone))) = true :=
  ⟨allMetOn (by decide +kernel), by and_intros <;> decide +kernel⟩

/-- Block 5 beside block 4 in the gang; n slots of it in use. -/
def pair (n : Nat) (s : State) : State :=
  { setBlock s fun b => { b with used := [(1, n)].filter fun e => e.2 != 0 } with
    blocks := (setBlock s fun b => { b with used := [(1, n)].filter fun e => e.2 != 0 }).blocks.put 5 { run := 1, idx := 1, core := 1, spadSize := 65536 }
    runs := s.runs.put 1 { s.runOf 1 with cores := [0, 1] } }
/-- A 4 × 4 map of F32 for GATH, its descriptor at s8. -/
def gathS : State :=
  putMem (setV (setS big [(8, own 0x1000), (10, win)]) [(20, 0, 0), (20, 1, 3)])
    [(0x1000, 8, own 0x2000), (0x1008, 8, 2 ^ 56 + 8 * 2 ^ 52 + 2 ^ 48), (0x1010, 8, 0), (0x1018, 8, 0x303), (0x1020, 8, 2 ^ 32 + 0x303), (0x1028, 88, 0)]

theorem wit_TileEngine : (∀ e ∈ [((.tcopy ⟨mk, 8, 3, false, none⟩ : Instr), mapped big), (.tstore ⟨mk, 8, 0, none⟩, mapped big), (.tstore ⟨mk, 8, 0, none⟩, setS (mapped big) [(15, own 0x3000)]),
      (.tcopym ⟨mk, 8, 0, 2, none⟩, mapped (pair 14 big)), (.tcopym ⟨mk, 8, 0, 2, none⟩, mapped (pair 15 big)), (.slotret ⟨mk, 1⟩, pair 0 big), (.slotret ⟨mk, 4⟩, pair 0 big),
      (.slotret ⟨mk, 2⟩, pair 0 big)], Met e.1 e.2 ∧ onU e.1 e.2 = true)
    ∧ Met (.gath ⟨mk, true, 8, 20⟩) gathS
    ∧ (let s := mapped big
       let o : Tcopy := ⟨mk, 8, 3, false, none⟩
       let u := noted (.tcopy o) s
       reads (copyDesc 256 o.a o.sc o.ver false) u (fun u => okD fun d => inWindow d.dst && (spadRange s 256 d.dst d.map.dense).isNone
         && stays (tcopyChecks 256 o d (boxElts d.map d.c d.h) false) u (·.isNone))) = true
    ∧ (let s := mapped big
       let o : Tstore := ⟨mk, 8, 0, none⟩
       let u := noted (.tstore o) s
       reads (copyDesc 256 o.a o.sc false true) u (fun u => okD fun d => !d.map.bnd && inWindow d.dst && (spadRange s 256 d.dst d.map.dense).isNone
         && stays (tstoreChecks 256 d (insideElts (boxElts d.map d.c d.h))) u (·.isNone))) = true
    ∧ (let s := mapped (pair 14 big)
       let o : Tcopym := ⟨mk, 8, 0, 2, none⟩
       let u := noted (.tcopym o) s
       reads (copyDesc 256 o.a o.sc false false) u (fun u => okD fun d => inWindow d.dst && field d.dst 40 11 == 0
         && stays (tcopymChecks 256 d (field d.dst 0 40) o.mask (boxElts d.map d.c d.h)) u (·.isNone)) && (s.block 4).used.get 0 1 == 14 && (s.block 5).spadSize == 65536
         && (maskBlocks o.mask == [1]) && (s.runOf 1).cores.length == 2) = true
    ∧ (let s := gathS
       let o : Gath := ⟨mk, true, 8, 20⟩
       let u := noted (.gath o) s
       reads (readMap 256 (s.sreg 256 8)) u (fun u => okD fun m => m.dims.length == 2 && f4Ok m [0, 0] [] && !m.aon && (spadRange s 256 (s.sreg 256 10) (2 * m.pitch)).isNone
         && stays (gathBad 256 m 0 (s.sreg 256 10) ((s.onLanes mk).map fun l => (l, (s.vreg 256 20 l).toNat))) u (·.isEmpty))) = true :=
  ⟨allMetOn (by decide +kernel), meets_of (by decide +kernel), by and_intros <;> decide +kernel⟩

theorem wit_RandomNumbers : ∀ e ∈ ([.rngx ⟨pt, 8, 4, .v 12⟩, .rngx ⟨pt, 8, 4, .s 126⟩, .rngu ⟨pt, .f32, false, 8, 4⟩, .rngu ⟨pt, .f64, true, 8, 4⟩, .rngu ⟨pt, .below (.v 6), false, 8, 4⟩,
      .rngu ⟨pt, .below (.s 6), true, 8, 4⟩] : List Instr).map (·, base), Met e.1 e.2 := allMet (by decide +kernel)

/-! ### Links, collectives, grids, the S level -/

def g1 : Nat := 2 ^ 48 + 1
/-- Two stages in a chain, east of one another: this warp's block in cluster 0, block 8 in cluster 1. -/
def chained : State :=
  { big with
    grids := big.grids.put g1 { big.grid g1 with hdr := { (big.grid g1).hdr with chain := 2 } }
    gangs := (big.gangs.put (g1 * 2 ^ 32) { big.gang (g1 * 2 ^ 32) with place := some 0 }).put (g1 * 2 ^ 32 + 1) { primary := 2, place := some 1 }
    runs := big.runs.put 2 { world := 1, gang := g1 * 2 ^ 32 + 1, kind := 4, cluster := 1, cores := [4], st := .resident }
    blocks := big.blocks.put 8 { run := 2, core := 4, spadSize := 65536, nwarps := 1 } }
def peer (f : Block → Block) : State := { chained with blocks := chained.blocks.put 8 (f (chained.block 8)) }
def entries (n : Nat) : List (List Word) := List.replicate n (List.replicate 32 7)

/-- The group table with group 5 enrolled alone and a record of group 6 of no member; a COLL descriptor for it at s8. -/
def enrolled : State :=
  putMem (setS big [(8, own 0x2000), (9, own 0x2100), (10, 1), (11, 5), (12, own 0x3000), (13, 1)])
    [(0xD0000, 2, 5), (0xD0002, 2, 1), (0xD0004, 2, 0), (0xD0006, 2, 0x8000), (0xD0008, 8, 0), (0xD0010, 8, own 0x3100), (0xD0018, 8, 0), (0xD0020, 2, 6), (0xD0022, 4, 0), (0xD0026, 2, 0x8000), (0xD0028, 24, 0), (0x3100, 8, 0x1FFF)]
def collI : Coll := ⟨mk, .sum, .i .s32, .gg, 3, 8⟩

theorem wit_Links : (∀ e ∈ [((.nbpush ⟨mk, .next, 20⟩ : Instr), chained), (.nbpush ⟨mk, .e, 20⟩, peer fun b => { b with fifos := [(1, entries 15)] }),
      (.nbpush ⟨mk, .e, 20⟩, peer fun b => { b with fifos := [(1, entries 16)] }), (.nbpush ⟨mk, .e, 20⟩, peer fun b => { b with retired := true }), (.nbpush ⟨mk, .w, 20⟩, chained),
      (.nbpush ⟨mk, .e, 20⟩, { chained with dev := { chained.dev with linksDown := [.neighbour 0 1] } }), (.nbpop ⟨mk, .e, 20⟩, chained),
      (.nbpop ⟨mk, .next, 20⟩, setBlock chained fun b => { b with fifos := [(0, entries 1)] }), (.nbpop ⟨mk, .prev, 20⟩, chained)], Met e.1 e.2) :=
  allMet (by decide +kernel)

theorem wit_LinkClauses : nbResolve chained 1 .next = some true ∧ nbResolve chained 1 .e = some true ∧ nbResolve chained 1 .w = none ∧ nbResolve chained 1 .prev = none ∧ nbCode chained 1 true = 0
      ∧ linked chained 0 1 = true ∧ linked { chained with dev := { chained.dev with linksDown := [.neighbour 0 1] } } 0 1 = false ∧ chained.onLanes mk ≠ [] := by decide +kernel

theorem wit_Collectives : ∀ e ∈ [((.coll collI : Instr), big), (.coll collI, setS enrolled [(11, 6)]), (.coll collI, enrolled), (.cabort ⟨mk, .imm 6⟩, enrolled), (.cabort ⟨mk, .imm 5⟩, enrolled)],
    Met e.1 e.2 ∧ onU e.1 e.2 = true := allMetOn (by decide +kernel)

def liveColl (s : State) : Option (Option COp × State) :=
  (collDesc s 256 collI).bind fun c => match (collLive 256 c).run (noted (.coll collI) s) with
    | (.ok d, u) => some (d, u) | _ => none

theorem wit_CollectiveClauses : (collDesc big 256 collI).isNone = true
    ∧ (liveColl enrolled).any (fun r => r.1.any fun d => d.attempt == (r.2.group 1 d.group).attempt && (r.2.group 1 d.group).pkts.isEmpty) = true
    ∧ (liveColl (setS enrolled [(11, 6)])).any (fun r => r.1.isNone) = true := by decide +kernel

theorem wit_CollectiveAborts : ((groupRec 1 6).run (noted (.cabort ⟨mk, .imm 6⟩) enrolled)).1.isNone = true
    ∧ ((groupRec 1 5).run (noted (.cabort ⟨mk, .imm 5⟩) enrolled)).1.isSome = true ∧ (enrolled.world 1).handlers = [] := by decide +kernel
/-- A legal header at own(0x4000): one role of one warp, one gang. -/
def header (roles : Nat) : State :=
  putMem (setS big [(4, own 0x4000)])
    [(0x4000, 8, 2 ^ 56 + roles * 2 ^ 52), (0x4008, 8, 1 + 2 ^ 16 + 2 ^ 32), (0x4010, 16, 0), (0x4020, 8, 0xFFF8000000000000), (0x4028, 8, 2 ^ 16 + 8), (0x4030, 80, 0), (0x4080, 128, 0)]

theorem wit_GridsAndMailboxes : (∀ e ∈ [((.grid ⟨mk, 3, 4⟩ : Instr), setS big [(4, own 0x4080)]), (.grid ⟨mk, 3, 4⟩, setS big [(4, win)]), (.grid ⟨mk, 3, 4⟩, header 0), (.grid ⟨mk, 3, 4⟩, header 1),
      (.gwait ⟨mk, 3, 4⟩, setS big [(4, (handleOf g1).toNat)]), (.gwait ⟨mk, 3, 4⟩, setS big [(4, 1)]), (.mbxrd ⟨mk, 3, .s 4⟩, setS big [(4, 0x20)]), (.mbxrd ⟨mk, 3, .imm 0⟩, big),
      (.mbxrd ⟨mk, 3, .imm 0x11F⟩, big), (.mbxrd ⟨mk, 3, .imm 0x200⟩, big), (.mbxrd ⟨mk, 3, .imm 0x31F⟩, big), (.mbxwr ⟨mk, .reg 4 5⟩, setS big [(4, 32)]), (.mbxwr ⟨mk, .imm 31 5⟩, big)],
        Met e.1 e.2 ∧ onU e.1 e.2 = true)
    ∧ (gwaitWord big 1 (handleOf g1) = none ∧ gwaitWord big 1 1 = some 0)
    ∧ ([(0, true), (1, false)].all fun e =>
        let s := header e.1
        reads (readHeader 256 (s.sreg 256 4)) (noted (.grid ⟨mk, 3, 4⟩) s) fun u => okD fun b => (hdrStatus u 1 true (parseHdr b.1) != 0) == e.2
          && (e.2 || (parseHdr b.1).any fun h => h.boundTab == 0 && (hdrAddrs h).isEmpty)) = true
    ∧ stays (devRead64 1 0 ((big.world 1).mbx + 0x3E010)) (noted (.mbxrd ⟨mk, 3, .imm 0x31F⟩) big) (fun _ => true) = true :=
  ⟨allMetOn (by decide +kernel), by and_intros <;> decide +kernel⟩

/-- Every slot of the die's crucible taken: slot 0 the world's, 1 to 4,095 others. -/
def slotsAre (l : List (Nat × Slot)) : State := { big with dies := big.dies.put 0 { big.die 0 with slots := l } }
theorem slotsAre_slots (l : List (Nat × Slot)) : ((slotsAre l).die 0).slots = l := rfl
def fullSlots : State := slotsAre ((List.range' 0 4096).map fun n => (n, ⟨1, 0⟩))
theorem get_range (m a n : Nat) (h : a ≤ n) (h' : n < a + m) :
    Tab.get ({} : Slot) ((List.range' a m).map fun n => (n, (⟨1, 0⟩ : Slot))) n = ⟨1, 0⟩ := by
  induction m generalizing a with
  | zero => omega
  | succ m ih =>
    simp only [List.range'_succ, List.map_cons, Tab.get]
    by_cases e : a = n
    · simp [e]
    · rw [if_neg (by simpa using Ne.symm e)]
      exact ih (a + 1) (by omega) (by omega)
def slotted : State := { big with dies := big.dies.put 0 { big.die 0 with slots := [(0, ⟨1, 0⟩), (1, ⟨9, 3⟩)] } }

theorem wit_SequesterNotifyInvalidate : (∀ e ∈ [((.seqopen ⟨mk, 3⟩ : Instr), big), (.seqopen ⟨mk, 3⟩, fullSlots), (.seqbind ⟨mk, 4, 5⟩, setS cached [(4, own 0)]),
      (.seqbind ⟨mk, 4, 5⟩, setS cached [(4, own 0), (5, 2 ^ 52 + 1)]), (.seqbind ⟨mk, 4, 5⟩, setS cached [(4, own 0x8000), (5, 1)]), (.seqbind ⟨mk, 4, 5⟩, setS cached [(4, own 0), (5, 1)]),
      (.seqbind ⟨mk, 4, 5⟩, setS cached [(4, own 0), (5, 2 ^ 44 + 1)]), (.seqend ⟨mk, 4, 5⟩, setS slotted [(4, 2 ^ 20)]), (.seqend ⟨mk, 4, 5⟩, slotted),
      (.seqend ⟨mk, 4, 5⟩, setS slotted [(4, 2)]), (.seqend ⟨mk, 4, 5⟩, setS slotted [(4, 0x3001), (5, own 4)]), (.seqend ⟨mk, 4, 5⟩, setS slotted [(4, 0x3001), (5, own 0x3000)]),
      (.hnote ⟨mk, .reg 4⟩, setS big [(4, 32)]), (.hnote ⟨mk, .imm 31⟩, big), (.hnote ⟨mk, .imm 0⟩, { big with worlds := big.worlds.put 1 { big.world 1 with msixMask := 0xFFFFFFFE } }),
      (.tlbi ⟨mk, 4, 5⟩, setS cached [(5, 3)]), (.tlbi ⟨mk, 4, 5⟩, setS cached [(5, 1)]), (.tlbi ⟨mk, 4, 5⟩, setS cached [(5, 2)]), (.tlbi ⟨mk, 4, 5⟩, setS cached [(4, own 0)])],
        Met e.1 e.2 ∧ onU e.1 e.2 = true)
    ∧ (List.range 4096).filter (fun n => n != 0 && slotKey fullSlots (firstDie fullSlots 1) n == 0 && !slotEnding fullSlots 1 n) = []
    ∧ (List.range 4096).filter (fun n => n != 0 && slotKey big (firstDie big 1) n == 0 && !slotEnding big 1 n) ≠ []
    ∧ (ownAddr cached 0xFFF8000000000000 = some (0, 0) ∧ cached.latched 0 1 = true ∧ slotKey cached 0 0 ≠ 0 ∧ (slotGen cached 0 0).toNat = 0
        ∧ ((cached.die 0).tlb.find? fun e => e.hits 0 0).any (fun e => e.level == 1) = true)
    ∧ (slotKey slotted 0 1 ≠ 0 ∧ (slotGen slotted 0 1).toNat = 3 ∧ slotKey slotted 0 2 = 0 ∧ slotEnding slotted 1 1 = false)
    ∧ (big.world 1).msixMask = 0xFFFFFFFF := by
  refine ⟨allMetOn (by decide +kernel), ?_, ?_, by and_intros <;> decide +kernel⟩
  · have hd : firstDie fullSlots 1 = 0 := by decide +kernel
    have hs := slotsAre_slots ((List.range' 0 4096).map fun n => (n, (⟨1, 0⟩ : Slot)))
    refine List.filter_eq_nil_iff.mpr fun n hn => ?_
    have h : slotKey fullSlots 0 n = 1 := by
      unfold slotKey fullSlots
      rw [hs, get_range 4096 0 n (by omega) (by have := List.mem_range.mp hn; omega)]
    simp [hd, h]
  · exact List.ne_nil_of_mem (a := 1) (List.mem_filter.mpr ⟨List.mem_range.mpr (by decide), by decide +kernel⟩)

/-- Warp 512 of another live grid of the world, parked at a fault of a load with lane 0 in FLANES. -/
def faulted : State :=
  let f : FaultRec := { fpc := 0xFFF8000000000040, fcause := 1, flanesl := 1 }
  { big with
    grids := big.grids.put (2 ^ 48 + 2) { asid := 1, hdr := { roles := [⟨0xFFF8000000000000, 1, 1, 384⟩] }, placed := [0] }
    gangs := big.gangs.put ((2 ^ 48 + 2) * 2 ^ 32) { primary := 2 }
    runs := big.runs.put 2 { world := 1, gang := (2 ^ 48 + 2) * 2 ^ 32, cores := [1], st := .resident }
    blocks := big.blocks.put 8 { run := 2, core := 1, spadSize := 65536, nwarps := 1 }
    warps := big.warps.put 512 { ctl := { pc := 0xFFF8000000000040, launched := 1, status := .faulted, fault := f, contPc := 0xFFF8000000000040, memFault := true, epoch := 1, home := 1, alloc := 384 } } }
def refS (s : State) (l : List (Nat × Nat)) : State := setS s ((4, (warpRef s 512).toNat) :: l)
def at512 (s : State) (f : Ctl → Ctl) : State := Upd.apply s (.ctl 512 f)
def saved : State := { faulted with runs := faulted.runs.put 2 { faulted.runOf 2 with st := .saved } }

theorem wit_FaultHandling : (∀ e ∈ [((.wstate ⟨pt, 5, 4, .imm 0⟩ : Instr), faulted), (.wstate ⟨pt, 5, 4, .imm 8⟩, refS faulted []), (.wstate ⟨pt, 5, 4, .imm 0x1017F⟩, refS faulted []), (.wstate ⟨pt, 5, 4, .imm 0x1017F⟩, refS saved []),
      (.wresume ⟨mk, 4, 5, false⟩, faulted), (.wresume ⟨mk, 4, 5, false⟩, refS (at512 saved fun c => { c with pending := some .retry }) []), (.wresume ⟨mk, 4, 5, true⟩, refS (at512 faulted fun c => { c with noLen := true }) []),
      (.wresume ⟨mk, 4, 5, false⟩, refS saved []), (.wresume ⟨mk, 4, 5, false⟩, refS faulted []), (.wkill ⟨mk, 4, 5, false⟩, refS faulted [(5, 0x15)]), (.wkill ⟨mk, 4, 5, false⟩, refS faulted [(5, 1)]),
      (.wkill ⟨mk, 4, 5, false⟩, refS faulted [(5, 0x14)]), (.wkill ⟨mk, 4, 5, true⟩, refS saved [(5, 1)]), (.eret ⟨mk⟩, putMem big [(0x80000, 8, 1)]), (.eret ⟨mk⟩, big)], Met e.1 e.2 ∧ onU e.1 e.2 = true)
    ∧ (refWarp faulted 1 0 = none ∧ refWarp (refS faulted []) 1 ((refS faulted []).sreg 256 4) = some 512 ∧ refWarp (refS saved []) 1 ((refS saved []).sreg 256 4) = some 512
      ∧ itemOf 8 = none ∧ (itemOf 0x1017F).isSome = true)
    ∧ (savedWarp saved 512 = true ∧ savedWarp faulted 512 = false ∧ faulted.checkedWarp 512 = false ∧ faulted.gridOfWarp 512 ≠ faulted.gridOfWarp 256 ∧ (faulted.grid (faulted.gridOfWarp 512)).resident = false ∧ (faulted.grid (faulted.gridOfWarp 512)).st = .live)
    ∧ (let n (s : State) : DWord := ((devRead64 1 0 (s.world 1).fq).run (Upd.apply (noted (.eret ⟨mk⟩) s) (.ctl 256 fun c => { c with entry := 0 }))).1
       n (putMem big [(0x80000, 8, 1)]) = 1 ∧ n big = 0 ∧ (big.world 1).delivered = 0 ∧ (big.world 1).handlers = [] ∧ big.ctlOf.entry = 0) :=
  ⟨allMetOn (by decide +kernel), by and_intros <;> decide +kernel⟩

/-- Warp 512's handler names a patch list at own(0x8000): code and value of each patch, and its end. -/
def patching (l : List (Nat × Nat)) : State :=
  putMem (refS faulted [(5, own 0x8000)]) ((l.concat (2 ^ 64 - 1, 0)).zipIdx.flatMap fun x : (Nat × Nat) × Nat => [(0x8000 + 16 * x.2, 8, x.1.1), (0x8008 + 16 * x.2, 8, x.1.2)])
def readsPatches (s : State) (f : Bool) (ok : List (DWord × DWord) → Bool) : Bool :=
  let i : Instr := .wresume ⟨mk, 4, 5, f⟩
  meets i s && onU i s && reads (readPatches 256 4096 (s.sreg 256 5)) (noted i s) fun _ r => match r with | .ok (some ps) => ok ps | _ => false
/-- A deferred fault of warp 512. -/
def deferring : State := { refS (at512 faulted fun c => { c with deferred := some 9 }) [] with ops := [(9, { blk := 8, warp := 512, queue := 1, stopped := true })] }

/-- A patch of the pc with .skip, of a scalar and of a lane's vector register, and one that may not be patched; the operation of a
deferred fault; .skip past an instruction of eight bytes; an entry held at ERET. -/
theorem wit_Resolutions :
    (([([(0, 0xFFF8000000000080)], true), ([(0x103, 5)], false), ([(0x10200, 7)], false)] : List (List (Nat × Nat) × Bool)).all fun e =>
      let s := patching e.1
      readsPatches s e.2 fun ps => ps.map (fun p => (p.1.toNat, p.2.toNat)) == e.1 && checkPatches (s.warp 512).ctl (s.m0 512) ps == none && movesWarp ps == e.2) = true
    ∧ readsPatches (patching [(1, 0)]) false (fun ps => ps.all fun p => (itemOf p.1.toNat).all fun i => (itemWidth i).isNone) = true
    ∧ ([false, true].all fun f => meets (.wresume ⟨mk, 4, 5, f⟩) deferring && onU (.wresume ⟨mk, 4, 5, f⟩) deferring && (deferring.warp 512).ctl.held.isEmpty
        && refWarp deferring 1 (deferring.sreg 256 4) == some 512) = true
    ∧ (meets (.wresume ⟨mk, 4, 5, true⟩) (refS faulted []) && (faulted.warp 512).ctl.parkedIn.isNone && !(faulted.warp 512).ctl.noLen) = true
    ∧ (let s := setCtl big fun c => { c with entry := 1 }
       meets (.eret ⟨mk⟩) s && s.ctlOf.entry == 1) = true := by and_intros <;> decide +kernel

/-! ### Events of warps and engines -/

def ran (i : Instr) (s : State) : State := after i s id
def can (s : State) : Bool := decide (s.ctlOf.status = .ready) && decide (s.ctlOf.runCnt.val ≠ 16) && decide ((s.runOf (s.cur / 256)).st = .resident)
def fetches (s : State) (f : Fetched) : Bool := can s && stays (fetch s.cur) s (· == f)
/-- The state after the fetch of a word at the pc has cached its translation. -/
def holding (w : Nat) : State := ((fetch 256).run { State.reset.withFetchWord 64 w with turns := [], cur := 256 }).2
def waiting (k : Wait) (s : State) : State := setCtl s fun c => { c with status := .waiting k, waitFrom := some 0 }
def ready (s : State) : State := setCtl s fun c => { c with status := .ready }
/-- The key of the one operation in flight. -/
def theOp (s : State) : Nat := (s.ops.head?.map (·.1)).getD 0
/-- A TCOPY into the scratchpad in flight, and the same with a line of its source poisoned. -/
def copying : State := ready (ran (.tcopy ⟨mk, 8, 3, false, none⟩) (mapped big))
def failing : State := { copying with tags := copying.tags.put 64 { key := 1, poison := true } }
def mwaiting : State :=
  setCtl base fun c => { c with status := .waiting (.mwait [(0, BitVec.ofNat 64 win), (1, BitVec.ofNat 64 (win + 65528))] [] .bk), waitFrom := some 0 }

theorem wit_WarpEventFetches : (fetches (holding (2 ^ 64 - 2)) (.illop false) && fetches (holding 3) (.illop true)
    && fetches (setCtl base fun c => { c with pc := BitVec.ofNat 64 win }) (.trap .protect (BitVec.ofNat 64 win))) = true := by decide +kernel

/-- The same in what the TLB and the tables hold: an unassigned opcode, a page without X, a page without an entry. -/
theorem wit_WarpEventPages :
    ([2 ^ 64 - 2, 3].all fun word =>
        let s := holding word
        let pc := s.ctlOf.pc
        can s && targetOk pc && s.latched 0 (s.worldOfWarp 256) && s.oldCode.isEmpty && ownAddr s pc == some (0, 0)
          && match (s.die 0).tlb.find? (fun e => e.hits (s.asidOfWarp 256) 0) with
            | some e =>
              let x := Xl.ofEntry 0 (s.asidOfWarp 256) 0 e.w0 e.w1 e.leaf e.level
              bitAt x.w0 58 && x.gen == (slotGen s 0 x.slot).toNat && !x.past && tagOk (s.tags.get {} x.line) (x.want s)
                && !(s.tags.get {} x.line).poison && field (s.die 0).trcfg 40 16 == 0 && (match decodeBlock (physBytes s (x.key / 32 * 32) 32) 0 with | .illop _ => true | _ => false)
            | none => false) = true
    ∧ (let s := { big with dies := big.dies.put 0 { big.die 0 with tlb := [⟨1, 0, 0, 2, 0xF800000000000000, 0, 0x10100000, 0, false, false, 0⟩] } }
       can s ∧ targetOk s.ctlOf.pc = true ∧ ownAddr s s.ctlOf.pc = some (0, 0)
         ∧ (((s.die 0).tlb.find? fun e => e.hits (s.asidOfWarp 256) 0).any fun e => !bitAt e.w0 58) = true)
    ∧ (let s := setCtl base fun c => { c with pc := BitVec.ofNat 64 (own 0x10000) }
       can s && targetOk s.ctlOf.pc && ownAddr s s.ctlOf.pc == some (0, 0x10000) && s.latched 0 (s.worldOfWarp 256)
         && ((s.die 0).tlb.find? fun e => e.hits (s.asidOfWarp 256) 0x10000).isNone
         && match walk s 0 (s.asidOfWarp 256) 0x10000 with | (.entry w0 _ _ _, []) => !bitAt w0 63 && !bitAt w0 62 | _ => false) = true :=
  by and_intros <;> decide +kernel

theorem wit_WarpEvents :
    (let s := setCtl base fun c => { c with status := .parked .results }
     (s.warp 256).ctl.status = .parked .results ∧ residentWarp s 256 = true ∧ parkOver s 256 .results false = true ∧ (s.warp 256).ctl.held = [])
    ∧ (let s := setCtl base fun c => { c with status := .parked (.queues 0xFFFFFFFF 1000), held := [⟨9, {}⟩] }
       parkOver s 256 (.queues 0xFFFFFFFF 1000) false = true ∧ (s.warp 256).ctl.held ≠ [] ∧ (s.warp 256).ctl.deferred = none ∧ (s.world (s.worldOfWarp 256)).handlers = [])
    ∧ (let s := setCtl base fun c => { c with runCnt := 16 }; (s.warp 256).ctl.status = .ready ∧ (s.warp 256).ctl.runCnt.val = 16)
    ∧ (let s := waiting (.line 4 511 0) base; residentWarp s 256 = true ∧ waitMet s 256 (.line 4 511 0) = true)
    ∧ ([0, 1].all fun l =>
        let s := mwaiting
        let a := BitVec.ofNat 64 (win + 65528 * l)
        residentWarp s 256 && a.toNat % 8 == 0 && inWindow a && !absent s 4 (65528 * l / 128)
          && (match locWindow s (s.whoWarp 256) a 8 { rd := true } with | .ok (.spad b o) => (b, o) == (4, 65528 * l) | _ => false)
          && decide ((Tab.get (0 : DWord) [] l).toNat ≤ s.spadNum (4, 65528 * l) 8)) = true
    ∧ (let s := setBlock base fun b => { b with unset := [(511, 3)] }; (s.block 4).busy.get 0 511 = 0 ∧ (s.block 4).unset.get 0 511 % 2 = 1)
    ∧ (let s := { waiting (.gbar 0) base with time := 1000000000 }
       watchdogAddr s 256 (.gbar 0) = some 0 ∧ (s.warp 256).ctl.waitFrom = some 0 ∧ 0 + watchdogNs s (s.worldOfWarp 256) ≤ s.time ∧ residentWarp s 256 = true)
    ∧ (let s := failing
       (match ((nextOfOp (theOp s)).run s).1 with | .error (.cause c a, _) => c == .integrity && a == BitVec.ofNat 64 (own 0x2000) | _ => false) = true ∧ opRuns s (theOp s) = true
         ∧ (let u := ((spoilOp (theOp s) .integrity).run s).2
            (u.op (theOp s)).warp = 256 ∧ (u.warp 256).ctl.status = .ready ∧ (u.warp 256).ctl.held = [] ∧ (u.warp 256).ctl.deferred = none ∧ (u.world (u.worldOfWarp 256)).handlers = []))
    ∧ (let e : Op := { blk := 4, warp := 256, queue := 10, kind := .elem 2 8 { n := 0, addr := BitVec.ofNat 64 (own 0x2000), val := 7, seg := 0, hold := 0 } }
       let s := { big with ops := [(9, e)], dies := big.dies.put 0 { big.die 0 with slots := [(0, ⟨1, 1⟩)] } }
       opRuns s 9 = true ∧ opHead s 9 = true ∧ (8 : Nat) ∈ [1, 2, 4, 8] ∧ own 0x2000 % 8 = 0 ∧ ownAddr s (BitVec.ofNat 64 (own 0x2000)) = some (0, 0x2000)
         ∧ s.latched 0 1 = true ∧ (((s.die 0).tlb.find? fun e => e.hits 0 0x2000).any fun e =>
             let x := Xl.ofEntry 0 0 0x2000 e.w0 e.w1 e.leaf e.level
             bitAt x.w0 59 && x.gen != (slotGen s 0 x.slot).toNat) = true ∧ (s.world 1).handlers = [])
    ∧ (let s := { setCtl big fun c => { c with status := .faulted } with worlds := big.worlds.put 1 { big.world 1 with unposted := [256] } }
       let n := (devRead64 1 0 (s.world 1).fq).run s
       let m := (devRead64 1 0 ((s.world 1).fq + 8)).run s
       (s.world 1).unposted = [256] ∧ n.2 = s ∧ m.2 = s ∧ n.1.toNat < m.1.toNat + 4096) :=
  by and_intros <;> decide +kernel

/-- An operation in flight whose engine's attempt succeeds, and its kind passes. -/
def engB (s : State) (f : OpKind → Bool) (p : Nat → Prog (Except Stop Unit)) : Bool :=
  let k := theOp s
  opRuns s k && f (s.op k).kind && okD (fun _ => true) ((p k).run s).1
def looping : State := ran (.mloop ⟨mk, .f32, .rne, 8, none, none, false, true⟩) (ringS {})
/-- A map with aon and its version word (0, or v) at own(0x6000). -/
def aonMap (v : Nat) : State :=
  putMem (setS big [(8, own 0x1000), (15, win)])
    [(0x1000, 8, own 0x2000), (0x1008, 8, 2 ^ 56 + 8 * 2 ^ 52 + 2 ^ 43), (0x1010, 8, own 0x6000), (0x1018, 8, 0x303), (0x1020, 96, 0), (0x6000, 8, v)]

/-- A TLBI's park that is over, and one of mode 2 while a copy uses a translation; a version-checked copy that retries too long for
a QFENCE that waits for it. -/
theorem wit_Parks :
    (let s := setCtl base fun c => { c with status := .parked (.drops [] [] [] 5 []) }
     parkOver s 256 (.drops [] [] [] 5 []) false && residentWarp s 256) = true
    ∧ (let s := setS copying [(5, 2)]
       let k := theOp s
       meets (.tlbi ⟨mk, 4, 5⟩) s && onU (.tlbi ⟨mk, 4, 5⟩) s && opRuns s k && (opAddrs s (s.op k)).any fun v => (ownAddr s v).any fun e =>
         (s.die e.1).tlb.any fun x => x.world == 1 && x.hits (s.asidOfWarp 256) e.2) = true
    ∧ (let s := { setCtl (ran (.tcopy ⟨mk, 8, 3, true, some .gg⟩) (aonMap 1)) fun c =>
           { c with status := .parked (.queues 0xFFFFFFFF 1000), waitFrom := some 0 } with time := 1000000000 }
       let t := Upd.apply s (.op (theOp s) fun o => { o with retryFrom := some 0 })
       retryingCopy t 256 (.queues 0xFFFFFFFF 1000) == some (BitVec.ofNat 64 (own 0x6000), 0) && residentWarp t 256
         && decide (watchdogNs t (t.worldOfWarp 256) ≤ t.time) && (t.world 1).handlers.isEmpty) = true := by and_intros <;> decide +kernel

theorem wit_EngineOperations :
    (let s := looping; opRuns s (theOp s) && (match (s.op (theOp s)).kind with | .mloop _ => true | _ => false) && okD (fun _ => true) ((mloopAttempt (theOp s)).run s).1) = true
    ∧ (let s := ran (.mloopStep (theOp looping)) looping
       s.Inv && opRuns s (theOp s) && opHead s (theOp s) && (match (s.op (theOp s)).kind with | .mloop m => m.step == m.count && (s.slot 0 m.slot).st == .filling | _ => false)) = true
    ∧ engB (ran (.epi ⟨mk, 8, .none, 0, none⟩) (mapped (ringS { st := .full, rows := 1, cols := 1 }))) (fun | .epi _ => true | _ => false) epiAttempt = true
    ∧ engB (ran (.tcopy ⟨mk, 8, 3, false, none⟩) (mapped big)) (fun | .copy .. => true | _ => false) engineAttempt = true
    ∧ engB (ran (.tstore ⟨mk, 8, 0, none⟩) (mapped big)) (fun | .store .. => true | _ => false) engineAttempt = true
    ∧ engB (ran (.tcopym ⟨mk, 8, 0, 2, none⟩) (mapped (pair 14 big))) (fun | .mcast .. => true | _ => false) engineAttempt = true
    ∧ engB (ran (.gath ⟨mk, true, 8, 20⟩) gathS) (fun | .gath .. => true | _ => false) engineAttempt = true
    ∧ (let s := ran (.tstore ⟨mk, 8, 0, some .gg⟩) (aonMap 2)
       engB s (fun | .store m .. => m.aon | _ => false) engineAttempt && (s.op (theOp s)).phase == 0 && !s.checkedWarp (s.op (theOp s)).warp) = true
    ∧ (let s := ran (.tcopy ⟨mk, 8, 3, true, some .gg⟩) (aonMap 1)
       match (s.op (theOp s)).kind with
       | .copy m c _ _ _ (some _) =>
         let r := (engFetch 256 (s.op (theOp s)).turn false [(verAddr m c, 8)]).run s
         opRuns s (theOp s) && opHead s (theOp s) && !s.isCopy 256
           && (match r.1 with | .ok lines => eltBits r.2 lines 64 (verAddr m c) false % 2 ^ 64 % 2 == 1 | _ => false)
       | _ => false) = true :=
  by and_intros <;> decide +kernel

def asOp (s : State) (k : Nat) : State := { s with cur := (s.op k).warp }
/-- An operation that runs, at its queue's head. -/
def runsB (s : State) (k : Nat) : Bool := s.Inv && opRuns s k && opHead s k
def unlogged (s : State) (k : Nat) : Bool := !s.checkedWarp (s.op k).warp && (s.op k).log.isNone && (s.op k).wrote.isEmpty
def writableB (s : State) (k : Nat) (ws : List WByte) : Bool := ws.all fun b => hitB (asOp s k) b.1 1 false true
/-- The place of a window address of the block's own scratchpad. -/
def padOf (a : DWord) : Nat × Nat := (4, a.toNat - win)
/-- An MLOOP of one step whose operands lie in the scratchpad; an EPI of a drained slot into lines that hold bytes. -/
def multiplying : State := ran (.mloop ⟨mk, .f32, .rne, 8, none, none, false, true⟩) (setS (ringS {}) [(8, win), (9, win + 64)])
def draining : State :=
  ran (.epi ⟨mk, 8, .none, 0, none⟩) (putMem (mapped (ringS { st := .full, rows := 1, cols := 1 })) [(0x2000, 16, 7)])

/-- A TCOPY of one element. -/
def one : State := ran (.tcopy ⟨mk, 8, 3, false, none⟩) (putMem (mapped big) [(0x1018, 8, 0), (0x2000, 4, 7)])

theorem wit_EngineSteps :
    (let s := multiplying
     let k := theOp s
     runsB s k && match (s.op k).kind with
       | .mloop m => decide (m.step < m.count) && ((((List.range m.rows).map (rowA m)).flatten ++ ((List.range m.cols).map (colB m)).flatten).all
           fun e => spadB (asOp s k) e.1 4 { rd := true } (padOf e.1)) && (s.slot (s.coreOfWarp 256) m.slot).st == .filling
       | _ => false) = true
    ∧ (let s := draining
       let k := theOp s
       runsB s k && unlogged s k && match (s.op k).kind with
         | .epi e => e.beta.toNat % 2 ^ 31 == 0 && e.bias == 0 && !e.map.bnd && e.stamp.isNone && (s.slot 0 e.slot).st == .draining
             && writableB s k (epiWrites e (s.slot 0 e.slot))
         | _ => false) = true
    ∧ (let s := ran (.tcopy ⟨mk, 8, 3, false, none⟩) (putMem (mapped big) [(0x2000, 16, 7)])
       let k := theOp s
       runsB s k && unlogged s k && match (s.op k).kind with
         | .copy m c h dst none none =>
           let els := writtenElts (boxElts m c h)
           decide ((engLines s (denseMask m dst els)).length ≤ 32) && (insideElts els).all (fun e => hitB (asOp s k) e.addr m.ebytes true false)
             && (denseMask m dst els).all fun b => inWindow b.1 && (match locWindow s (s.whoWarp (s.op k).warp) b.1 1 { wr := true } with
               | .ok (.spad p o) => (p, o) == padOf b.1 | _ => false)
         | _ => false) = true
    ∧ (match (one.op (theOp one)).kind with
       | .copy m c h _ none none => (match writtenElts (boxElts m c h) with
           | [e] => e.st == .inside && decide (8 ≤ m.ebits) && m.ebytes == 4 && hitB (asOp one (theOp one)) e.addr 4 true false
           | _ => false)
       | _ => false) = true
    ∧ ([0, 1].all fun v =>
        let s := ran (.tstore ⟨mk, 8, 0, some .gg⟩) (aonMap v)
        let k := theOp s
        runsB s k && !s.checkedWarp (s.op k).warp && s.msgs.isEmpty && match (s.op k).kind with
          | .store m c h src _ _ => m.aon && !m.bnd && (s.op k).phase == 0 && ((insideElts (boxElts m c h)).all fun e =>
              spadB (asOp s k) (denseAddr src e) m.ebytes { rd := true } (padOf (denseAddr src e)))
              && hitB (asOp s k) (verAddr m c) 8 true true && leNat (physBytes s 0x6000 8) % 2 == v
          | _ => false) = true
    ∧ (let s := ran (.tcopy ⟨mk, 8, 3, true, some .gg⟩) (aonMap 1)
       match (s.op (theOp s)).kind with
       | .copy m c _ _ _ (some _) => !s.checkedWarp (s.op (theOp s)).warp && hitB (asOp s (theOp s)) (verAddr m c) 8 true false
           && leNat (physBytes s 0x6000 8) % 2 == 1
       | _ => false) = true :=
  by and_intros <;> decide +kernel

/-- A load stream of block 4 about to read its last element at an address, and a store stream with an element to perform. -/
def stream (base : Nat) : State := setBlock big fun b =>
  { b with streams := [(1, { warp := 256, q := 2, bound := true, base := BitVec.ofNat 64 base, stride := 8, count := 1, esize := 8 }),
                       (2, { warp := 256, q := 3, bound := true, store := true, esize := 8, pend := [{ n := 0, addr := BitVec.ofNat 64 (own 0x2000), val := 7, seg := 0, hold := 0 }] })] }
/-- A subscription of block 4 with a push on its way into its region at 0. -/
def pushed : State := { setBlock big fun b => { b with regions := [(0, { depth := 16, active := true, sub := 7 })] } with
  subs := [(7, { world := 1, blk := 4, flight := [(1, List.replicate 128 5, {})], live := true })] }
/-- A peer access of lane 0 of the warp's next instruction to block 5, at the end of its scratchpad; the block may have retired. -/
def away (write : Option (List Byte)) : PeerAcc :=
  { warp := 256, lane := 0, va := peerAddr 1 65532, target := 5, off := 65532, size := 4, write := write, dst := 8 }
def loadI : LdSt := ⟨pt, .b32, 8, .vi 6 0, none, .none⟩
def peering (i : Instr) (gone : Bool) : State :=
  let s := setV (pair 0 (holding ((encode i).getD 0))) [(6, 0, (peerAddr 1 65532).toNat), (7, 0, (peerAddr 1 65532).toNat / 2 ^ 32), (8, 0, 0x04030201)]
  { s with blocks := s.blocks.put 5 { s.block 5 with retired := gone } }

theorem wit_EngineEvents :
    ([win, own 0x2004].all fun a =>
        let s := stream a
        let x := (s.block 4).streams.get {} 1
        let r := (locate (s.whoWarp x.warp) (BitVec.ofNat 64 a) 8 { rd := true, winOk := false }).run s
        x.bound && !x.store && decide (x.pos + x.ahead.length < x.count) && x.ahead.isEmpty && decide ((s.runOf (4 / 4)).st = .resident)
          && (match r.1 with | .error _ => true | .ok _ => false) && (inWindow (BitVec.ofNat 64 a) == (a == win)) && (a == win || a % 8 != 0)) = true
    ∧ (let s := putMem (stream (own 0x2000)) [(0x2000, 8, 7)]
       let x := (s.block 4).streams.get {} 1
       let p := (s.block 4).streams.get {} 2
       s.Inv && hitB { s with cur := x.warp } (BitVec.ofNat 64 (own 0x2000)) 8 true true && s.l1.isEmpty && s.reps.isEmpty && !s.checkedWarp x.warp
         && p.pend.length == 1 && s.ops.isEmpty && p.esize == 8) = true
    ∧ (pushed.Inv && (pushed.sub 7).live && (pushed.sub 7).flight == [(1, List.replicate 128 5, {})] && (pushStatus (statusWord pushed 4 0) 1).2.isSome) = true
    ∧ (let s := setCtl big fun c => { c with status := .exited }
       (s.blocks.any fun e => e.1 == 4) && !(s.block 4).retired && decide ((s.runOf 1).st = .resident) && warpsGone s 4 && !blockBusy s 4) = true :=
  by and_intros <;> decide +kernel

theorem wit_PeerAccesses :
    ([(Instr.ld loadI, none, false), (.ld loadI, none, true), (.st loadI, some [1, 2, 3, 4], false), (.st loadI, some [1, 2, 3, 4], true)].all
      fun e : Instr × Option (List Byte) × Bool =>
        let s := peering e.1 e.2.2
        let x := away e.2.1
        s.Inv && stays (fetch 256) s (· == .instr e.1) && (peerAccess s x e.1).isSome && canB e.1 s && (effMask s 256 pt).getLsbD 0
          && (s.block 5).retired == e.2.2 && x.va == memAddrOf s 256 loadI.mem 0 && x.va == peerVa s 5 65532
          && (e.2.2 || spadB s x.va 4 { rd := e.2.1.isNone, wr := e.2.1.isSome } (5, 65532))) = true := by decide +kernel

/-! ### Events of scheduling, redundancy and collectives -/

def gq : Nat := 2 ^ 48 + 2
/-- A grid of one gang of one block of one warp queued beside the resident one, eligible since time 0. -/
def queued (f : Grid → Grid) : State :=
  { big with grids := big.grids.put gq (f { asid := 0, eligibleAt := some 0, hdr := { roles := [⟨0xFFF8000000000000, 1, 1, 8⟩], spad := 1 } }) }
def bind : BindWrite := ⟨0, 0, 0, 0, 0, 0, [1], handleOf gq, 0, 0, 0, 0, none, 0, false, 0, false⟩
def written (b : BindWrite) (s : State) : State := ran (.firmwarePlace 1 [b]) s
def reserved (b : BindWrite) (s : State) : State := ran (.bindValidSet b.die b.idx) (written b s)
def started (b : BindWrite) (s : State) : State := ran (.gangStart b.die b.idx) (reserved b s)
def fence (m : BitVec 16) (s : State) : State := { s with dies := s.dies.put 0 { s.die 0 with fenced := m } }
/-- The same gang evicted from a fenced core; saved, and a record to restore it on another core reserved. -/
def evicting : State := ran (.bindEvict [(0, 0)] [0x1000]) (fence 2 (started bind (queued id)))
def savedRun : State :=
  let s := started bind (queued id)
  let k := (bindAt s 0 0).run
  putMem { s with runs := s.runs.put k { s.runOf k with st := .saved, save := BitVec.ofNat 64 (own 0x40000) }, dies := s.dies.put 0 { s.die 0 with binds := [] } }
    [(0x40000, 8, 2 ^ 56)]
def restoring : State := reserved { bind with coremap := [2], save := BitVec.ofNat 64 (own 0x40000) } savedRun
/-- A checked gang started as primary, and a record of its shadow reserved in another cluster. -/
def checkedG (g : Grid) : Grid :=
  { g with hdr := { g.hdr with redund := 2, feedBase := BitVec.ofNat 64 (own 0x20000), feedSize := 65536 }, freeExt := [0] }
def primaryS : State := started { bind with kind := 1 } (queued checkedG)
def shadowed : State :=
  reserved { bind with kind := 2, idx := 1, cluster := 1, slink := some (0, 0), start := BitVec.ofNat 64 (primaryS.time + 10000) }
    { primaryS with time := primaryS.time + 10000 }
def waitsOn (v : Nat) : State := { putMem (queued fun g => { g with hdr := { g.hdr with waits := [(BitVec.ofNat 64 (own 0x2000), 5)] }, sat := [false] }) [(0x2000, 8, v)] with cur := 256 }

theorem wit_SchedulingEvents :
    ([0, own 0x2000].all fun a =>
        let s := queued fun g => { g with hdr := { g.hdr with compl := BitVec.ofNat 64 a }, placed := [0], done := [0] }
        (s.grids.any fun e => e.1 == gq) && gridOver s gq && (a == 0 || ((stampAs { gridWho s gq with view := (s.grid gq).released } (s.grid gq).hdr.compl (completionWord (s.grid gq))).run s).1.isNone)) = true
    ∧ ([4, 5].all fun v =>
        let s := waitsOn v
        (s.grid gq).hdr.waits[0]? == some (BitVec.ofNat 64 (own 0x2000), 5) && decide ((s.grid gq).st = .live) && !(s.grid gq).sat.getD 0 false
          && okD (fun bs => leNat bs == v) ((readAs (gridWho s gq) (BitVec.ofNat 64 (own 0x2000)) 8).run s).1) = true
    ∧ placeOk (queued id) 1 [bind] = true
    ∧ (let s := { queued id with time := 50000000 }
       (queueHead s 1 (s.grid gq).hdr.prio == some gq && eligible s (s.grid gq) && (s.grid gq).placed.isEmpty && decide (eligibleSince (s.grid gq) + 50000000 ≤ s.time)
         && (s.world 1).blocked.isEmpty) = true)
    ∧ ([(written bind (queued id), 0, true), (fence 2 (written bind (queued id)), 1, true), (written { bind with coremap := [0] } (queued fun g => { g with hdr := { g.hdr with spad := 7 } }), 0, false)].all fun e =>
        let b := bindAt e.1 0 0
        e.1.Inv && b.valid && b.st == .pending && refuseWhy e.1 b.w (bitAt (Config.freeBits e.1.free) 0) == e.2.1 && recFits e.1 b.w == e.2.2 && !lowerFits e.1 0 0) = true
    ∧ refuseWhy (written bind (queued id)) (bindAt (written bind (queued id)) 0 0).w true = 0
    ∧ gateOk (reserved { bind with gate := true } (queued id)) [(0, 0)] = true :=
  by and_intros <;> decide +kernel

theorem wit_SchedulingStarts :
    (let s := reserved bind (queued id)
     mayStart s 0 0 && decide ((bindAt s 0 0).w.start.toNat ≤ s.time) && (bindAt s 0 0).w.save == 0 && (bindAt s 0 0).w.kind == 0
       && !(s.grid (gridOfGang (s.runOf (bindAt s 0 0).run).gang)).hdr.tstart && !(s.grid (gridOfGang (s.runOf (bindAt s 0 0).run).gang)).hdr.allres && decide ((warpRoles (s.grid gq).hdr).length ≤ 64) && (bindAt s 0 0).valid && (bindAt s 0 0).st == .reserved) = true
    ∧ (let s := restoring
       mayStart s 0 0 && decide ((bindAt s 0 0).w.start.toNat ≤ s.time) && (bindAt s 0 0).w.save != 0 && ringsFree s (bindAt s 0 0).run
         && !(s.grid gq).hdr.allres) = true
    ∧ (let s := reserved bind (queued fun g => { g with hdr := { g.hdr with allres := true } })
       (s.grid (gridOfGang (s.runOf (bindAt s 0 0).run).gang)).hdr.allres && decide ((bindAt s 0 0).w.kind ≤ 1) && (groupRecs s 0 0).length == 1
         && (groupRecs s 0 0).all fun r => startDue s r.1 r.2.1 && (bindAt s r.1 r.2.1).w.save == 0) = true
    ∧ (let s := shadowed
       let p := s.runOf (s.gang (s.runOf (bindAt s 0 1).run).gang).primary
       mayStart s 0 1 && decide ((bindAt s 0 1).w.start.toNat ≤ s.time) && (bindAt s 0 1).w.kind == 2 && (bindAt s 0 1).w.save == 0 && p.st == .resident
         && p.startAt + (s.grid gq).hdr.shift == s.time) = true
    ∧ ((bindAt (started bind (queued id)) 0 0).valid && (bindAt (started bind (queued id)) 0 0).st == .resident) = true
    ∧ evictOk (fence 2 (started bind (queued id))) [(0, 0)] [0x1000] = true
    ∧ (let s := evicting
       let k := savingRun s 0 0
       (s.runOf k).st == .saving && (bindAt s 0 0).valid && (bindAt s 0 0).st == .saving && (s.world (s.runOf k).world).st == .running
         && (s.blocksOfRun k).all fun b => (s.block b).streams.all fun x => x.2.pend.isEmpty) = true :=
  by and_intros <;> decide +kernel

def gk : Nat := gq * 2 ^ 32
/-- A checked gang whose three runs have ended segment 0 of their one warp with the signatures given. -/
def trio (p h a : DWord) (f : Gang → Gang) : State :=
  let s := queued checkedG
  let run (k c : Nat) : Run := { world := 1, gang := gk, kind := k, idx := k, cluster := c, cores := [4 * c + 1], st := .resident }
  let blk (r k c : Nat) : Block := { run := r, core := 4 * c + 1, spadSize := 65536, nwarps := k }
  let w : Warp := { ctl := { pc := 0xFFF8000000000000, launched := 1, status := .ready, epoch := 1, alloc := 8, seg := 1, issued := 2 } }
  let e (r : Nat) (c : DWord) : SegEnd := ⟨r, 0, 0, c, 1, 5, 6, 0, false⟩
  { s with
    gangs := s.gangs.put gk (f { primary := 5, shadow := 6, checked := true, extents := [0], extUsed := 16, segs := [e 5 p, e 6 h, e 7 a] })
    runs := ((s.runs.put 5 (run 1 0)).put 6 (run 2 1)).put 7 (run 3 2)
    blocks := ((s.blocks.put 20 (blk 5 1 0)).put 24 (blk 6 1 1)).put 28 (blk 7 1 2)
    warps := ((s.warps.put 1280 w).put 1536 w).put 1792 w }
def voting (g : Gang) : Gang := { g with mismatch := some (0, 0), arbiter := 7 }
def ctlAt (s : State) (w : Nat) (f : Ctl → Ctl) : State := Upd.apply s (.ctl w f)
/-- A logged record of instruction n, with a resolution or none. -/
def logRec (res : Option Resolution) (n : Nat) (g : Gang) : Gang :=
  { g with log := [{ warp := 0, fault := res.map fun _ => ⟨5, 64, 1, false, true⟩, res := res, issued := n }] }
def holding1 (k : HeldKind) : State :=
  trio 1 1 1 fun g => { g with holds := [{ hold := 1, run := 5, warp := 0, seg := 0, asid := 0, kind := k }], verdicts := [(0, 0, .matched)], nextHold := 2 }
def arbiterRec : BindWrite := { bind with kind := 3, idx := 9, cluster := 2, coremap := [2], slink := some (0, 1) }
def retiring : State := { big with worlds := big.worlds.put 1 { big.world 1 with seqEnds := [⟨1, 3, BitVec.ofNat 64 (own 0x3000), 0⟩] } }

/-- The gang with so much of its last extent used, a status of the primary's warp, and records that wait -/
def logged (used : Nat) (ext : List Nat) (st : WStatus) (l : List LogWait) : State :=
  let s := ctlAt (trio 1 1 1 fun g => { g with extents := ext, extUsed := used, backlog := l }) 1280 fun c => { c with status := st }
  { s with grids := s.grids.put gq { s.grid gq with freeExt := if used = 65536 ∧ ext = [] then [] else [0] } }
def extended (s : State) : State := ((takeExtent gk).run ((reclaim (gridOfGang gk)).run s).2).2
def primaryB (s : State) : Bool :=
  s.checkedWarp 1280 && s.isPrimary 1280 && s.gangOfWarp 1280 == gk && residentWarp s 1280 && (s.grid (gridOfGang gk)).st == .live
/-- A vote that the shadow wins while it is being restored. -/
def waitingVote : State :=
  let s := trio 1 2 2 voting
  { s with runs := s.runs.put 6 { s.runOf 6 with st := .reserved } }

theorem wit_RedundancyEvents :
    ([(none, 2, WStatus.waiting .record, 64), (some .retry, 2, .waiting .record, 64), (some .skip, 3, .waiting .record, 64), (some .kill, 2, .faulted, 64), (some .kill, 2, .faulted, 128)].all fun e =>
        let s := ctlAt (trio 1 1 1 (logRec e.1 e.2.1)) 1536 fun c => { c with status := e.2.2.1, fault := { fcause := 5, faddr := e.2.2.2 } }
        let c := (s.warp 1536).ctl
        s.isCopy 1536 && residentWarp s 1536 && c.status == e.2.2.1 && c.deferred.isNone && (s.gang (s.gangOfWarp 1536)).mismatch.isNone && !s.isPrimary 1536 && !c.posted
          && (s.nextRec 1536).any fun r => r.ready && r.res == e.1 && r.resolves == e.1.isSome && (r.issued == c.issued) == (e.2.1 == 2) && (e.2.2.1 != .faulted || sameFault c r == (e.2.2.2 == 64))) = true
    ∧ ([(0, [], true), (16, [0], true), (65536, [1], true), (65536, [], false)].all fun e =>
        let s := logged e.1 e.2.1 (.waiting (.extent 16)) []
        primaryB s && (s.gang gk).backlog.isEmpty && (s.warp 1280).ctl.status == .waiting (.extent 16)
          && ((logReady gk 16).run (if (s.gang gk).fits 16 then s else extended s)).1 == e.2.2) = true
    ∧ ([(16, true), (65536, false)].all fun e =>
        let s := logged e.1 [1] .ready [.seg ⟨5, 0, 0, 1, 1, 5, 6, 0, false⟩]
        primaryB s && (((drainLog gk (s.gang gk).backlog).run s).2.gang gk).backlog.isEmpty == e.2) = true
    ∧ ([(trio 1 1 1 id, 1, 1), (trio 1 2 1 id, 1, 2), (trio 1 2 1 voting, 1, 2), (trio 1 2 2 voting, 1, 2), (waitingVote, 1, 2), (trio 1 2 3 voting, 1, 2)].all fun e =>
        let s := e.1
        let g := s.gang gk
        g.checked && (s.grid (gridOfGang gk)).st == .live && g.lost.isNone && comparable g 0 0 && shown s g.primary 0 0 == some e.2.1 && shown s g.shadow 0 0 == some e.2.2
          && (g.arbiter == 0 || (g.mismatch == some (0, 0) && (shown s g.arbiter 0 0).isSome)) && g.early.isEmpty) = true
    ∧ mayTakeOver (trio 1 2 2 voting) ((trio 1 2 2 voting).gang gk) = true ∧ mayTakeOver waitingVote (waitingVote.gang gk) = false
    ∧ ([true, false].all fun b =>
        let s := trio 1 1 1 fun g => { g with lost := some (0, 0, b) }
        (s.gang gk).checked && (s.grid (gridOfGang gk)).st == .live && mayTakeOver s (s.gang gk) && (s.gang gk).lost == some (0, 0, b)) = true
    ∧ arbiterOk (trio 1 2 3 fun g => { g with mismatch := some (0, 0) }) gk arbiterRec = true
    ∧ ([0x2000, 2 ^ 44].all fun a =>
        let s := holding1 (.bytes (BitVec.ofNat 64 (own a)) [(0, 7)] 0)
        (s.grid (gridOfGang gk)).st == .live && (nextPour s gk).any fun h => ((pourHeld gk h).run s).1 == (a == 0x2000)) = true
    ∧ (let s := ctlAt (trio 1 1 1 id) 1280 fun c => { c with status := .waiting .ladle }; (s.warp 1280).ctl.status = .waiting .ladle ∧ residentWarp s 1280 = true)
    ∧ ((retiring.world 1).seqEnds.find? fun e => e.slot == 1).any (fun e =>
        ((stampAs { world := 1, asid := e.asid, core := 2 ^ 20, blk := none } e.stamp (BitVec.ofNat 64 (2 ^ 63 + 2 ^ 8 + 3))).run
          ((whenP (slotGen retiring (firstDie retiring 1) 1 == e.gen) (retireSlot 1 1)).run retiring).2).1.isNone) = true :=
  by and_intros <;> decide +kernel

def collecting : State := ready (ran (.coll collI) enrolled)
def collOp (f : Op → Op) : State := Upd.apply collecting (.op (theOp collecting) f)
/-- The COLL in flight waits for the data of a second member. -/
def twoMembers (o : Op) : Op := { o with kind := match o.kind with | .coll c => .coll { c with n := 2 } | k => k }

/-- Group 5 with 64 KiB of packets of attempt 2. -/
def crowded (s : State) : State :=
  { s with worlds := s.worlds.put 1 { s.world 1 with groups := (s.world 1).groups.put 5 { pkts := List.replicate 64 ⟨2, 0, 0, List.replicate 1024 0⟩ } } }

theorem wit_CollectivePackets : (big.world 1).st = .running ∧ (big.group 1 5).size = 0 ∧ collOps big 1 5 = [] ∧ (big.group 1 5).pkts = []
    ∧ (([([], true), ([0], false)] : List (List Byte × Bool)).all fun e =>
        collOps (crowded big) 1 5 == [] && decide (((crowded big).group 1 5).pkts.foldl (fun n p => n + p.data.length) 0 + e.1.length ≤ 65536) == e.2) = true
    ∧ (collecting.group 1 5).size ≠ 0 ∧ olderAttempt 0xFFFF (collecting.group 1 5).attempt = true ∧ olderAttempt 0x8001 (collecting.group 1 5).attempt = true :=
  by and_intros <;> decide +kernel

theorem wit_CollectiveEvents :
    ([(id, 0), (fun o => { o with phase := 0 }, 1), (fun o => twoMembers { o with phase := 0 }, 2)].all fun e : (Op → Op) × Nat =>
        let s := collOp e.1
        let k := theOp s
        let r := (collAttempt k).run s
        opRuns s k && (match (s.op k).kind with | .coll _ => true | _ => false) && okD (fun _ => true) r.1 && opRuns r.2 k
          && (if e.2 = 0 then (r.2.op k).phase != 1
              else (match (r.2.op k).kind with | .coll _ => true | _ => false) && (r.2.op k).phase == 1 && okD (fun _ => true) ((collAttempt k).run r.2).1 == (e.2 == 1))) = true
    ∧ (let s := { collOp (fun o => { twoMembers o with phase := 1, retryFrom := some 1000 }) with time := 1000001001 }
       let k := theOp s
       opHead s k && (s.op k).phase == 1 && (s.op k).retryFrom == some 1000 && 1000 + watchdogNs s (s.worldOfWarp (s.op k).warp) + 1 == s.time
         && (match (s.op k).kind with | .coll c => (collData (s.group 1 c.group) c).isNone | _ => false)
         && (let u := ((spoilOp k .collabort).run s).2
             (u.op k).warp == 256 && (u.warp 256).ctl.status == .ready && (u.warp 256).ctl.held.isEmpty && (u.warp 256).ctl.deferred.isNone
               && (u.world (u.worldOfWarp 256)).handlers.isEmpty)) = true
    ∧ (let u := ((groupRec 1 5).run enrolled).2
       (enrolled.world 1).st = .running ∧ (1 : BitVec 16) ≠ (u.group 1 5).attempt ∧ olderAttempt 1 (u.group 1 5).attempt = false ∧ olderAttempt 0xFFFF (u.group 1 5).attempt = true)
    ∧ (let s := { setCtl enrolled fun c => { c with status := .parked (.tokens 5), waitFrom := some 0 } with time := 10000000 }
       cabortSince s 1 5 = some 0 ∧ 0 + 10000000 ≤ s.time ∧ 8188 ∉ (s.group 1 5).answered) :=
  by and_intros <;> decide +kernel

/-- The collective in flight at its second phase, its source sent, its destination and stamp written once. -/
def collSent : State :=
  let s := collOp fun o => { o with phase := 1, kind := match o.kind with
    | .coll c => .coll { c with stamp := { c.stamp with addr := BitVec.ofNat 64 (own 0x3200) } }
    | k => k }
  let g := s.group 1 5
  let w := s.world 1
  putMem { s with worlds := s.worlds.put 1 { w with groups := w.groups.put 5 { g with pkts := [⟨g.attempt, 0, 0, leBytes 4 7⟩] } } }
    [(0x2100, 8, 1), (0x3200, 8, 1)]
theorem wit_CollectiveCompletes :
    (let s := collSent
     let v := { s with cur := (s.op (theOp s)).warp }
     s.Inv && opHead s (theOp s) && (s.op (theOp s)).phase == 1 && s.msgs.isEmpty
       && (match (s.op (theOp s)).kind with
         | .coll c =>
           let g := s.group (s.worldOfWarp v.cur) c.group
           !olderAttempt c.attempt g.attempt && hitB v c.stamp.addr 8 false true
             && (match collData g c with
               | none => false
               | some data =>
                 let out := rangeWrites c.dst (collResult c data)
                 decide (out ≠ []) && out.all fun b => hitB v b.1 1 false true)
         | _ => false)) = true := by decide +kernel

/-! ### Events of paging, worlds and hosts -/

/-- Paging command 0 of the world: its code, location and frame number for the page at the die's address 0. -/
def command (code loc frame : Nat) (s : State) : State :=
  putMem s [(0xC1000, 8, 1), (0xC1040, 8, code), (0xC1048, 8, own 0), (0xC1050, 8, loc * 2 ^ 61 + frame * 65536), (0xC1058, 8, 0), (0xC1060, 8, 0)]
/-- The page at the die's address 0 evicted: its leaf entry has V clear and E set. -/
def evicted : State :=
  { big with mem := placeBytes big.mem 0x10102000 8 (2 ^ 62 + 2 ^ 60 + 2 ^ 59 + 2 ^ 58 + 2 ^ 57 + 2 ^ 53) }
/-- What the walk of command 0 finds: the number it is, its code, and its statuses; `none` where its fields are bad. -/
def commandIs (s : State) : Option (Nat × List Nat) :=
  let pq := pagingQueue s 1
  let r1 := (devRead64 1 0 pq).run s
  let r2 := (devRead64 1 0 (pq + 8)).run r1.2
  let bs := ((devRead 1 0 (pq + 0x40) 64).run r2.2).1.getD []
  if (r2.2.world 1).st == .running && r2.1.toNat + (r2.2.world 1).cmds.length == 0 && decide (0 < r1.1.toNat) then
    some (cmdField bs 0 0 8, if badCmd r2.2 1 bs then [7] else
      cmdStatuses r2.2 1 0 (cmdField bs 0 0 8) (walk r2.2 0 0 0).1 (cmdField bs 2 61 3) (cmdField bs 2 16 36 * 65536))
  else none
def pageCmd (code status : Nat) : PageCmd := ⟨0, code, status, 0, 0x10102000, BitVec.ofNat 64 (own 0), 0, 1, 0x20000, 0, 0, false⟩
def inWorld (f : World → World) (s : State) : State := { s with worlds := s.worlds.put 1 (f (s.world 1)) }
def late (o : Bool) : State :=
  { inWorld (fun x => { x with overflow := [(0, 0x10100000)] }) big with
    dies := big.dies.put 0 { big.die 0 with tlb := (big.die 0).tlb.map fun e => { e with ovfl := o } } }

theorem wit_PagingCommands :
    [command 1 1 2 big, command 2 0 7 evicted, command 3 0 7 big, command 4 0 0 big].map commandIs = [some (1, []), some (2, []), some (3, []), some (4, [])]
    ∧ [command 1 0 2 big, command 2 0 7 big, command 3 3 7 big, command 4 0 0 evicted].map commandIs = [some (1, [4]), some (2, [2]), some (3, [4]), some (4, [2])]
    ∧ [command 0 0 0 big, command 5 0 0 big, command 257 0 0 big].map commandIs = [some (0, [7]), some (5, [7]), some (1, [7])] :=
  by and_intros <;> decide +kernel

theorem wit_PagingEvents :
    (base.latched (15 / 16) 1 = true ∧ base.latched 0 1 = true ∧ (base.die 0).tlb.length < 16384 ∧ ((base.die 0).tlb.find? fun e => e.hits 0 0) = none
      ∧ (match walk base 0 0 0 with | (.entry w0 w1 _ level, []) => (judge base 0 w0 w1 level).isNone | _ => false) = true)
    ∧ (let s := { big with dev := { big.dev with failedNodes := [(0, 0x10102000)] } }
       s.Inv = true ∧ (s.dev.failedNodes.any fun f => s.latched f.1 1 && reachesNode s f.1 0 f.2) = true)
    ∧ (let s := { big with dev := { big.dev with lost := [⟨1, 1023, 0, 0, 0, 0, false⟩] } }; s.Inv = true ∧ s.dev.lost ≠ [])
    ∧ ([(1, 0), (1, 2), (2, 5), (3, 0), (4, 1)].all fun e =>
        let s := inWorld (fun x => { x with cmds := [pageCmd e.1 e.2] }) big
        ((s.world 1).cmds.find? fun c => c.k == 0 && !c.done).isSome && (s.world 1).st == .running && !heldOnLeaf s 1 0 0x10102000) = true
    ∧ (((late false).die 0).tlb.find? (fun e => e.leaf == 0x10100000 && e.ovfl) = none)
    ∧ (((late true).die 0).tlb.find? (fun e => e.leaf == 0x10100000 && e.ovfl)).any (fun e => ((notify 1 0 e.asid e true).run (late true)).1) = true :=
  by and_intros <;> decide +kernel

def booted (s : State) : State := { s with dev := { s.dev with boot := .ready, idKeys := true, secret := some 9, ide := [(1, 0, 0)] } }
def secured (s : State) : State := inWorld (fun x => { x with wctl := setField x.wctl 59 1 1, cfg := setField x.cfg 59 1 1 }) s
/-- World 1 assigned die 0 with nothing of it loaded, an image of one resident warp at the host's address 0x1000, and firmware's
choice of where its tables and structures lie. -/
def assigned : State :=
  { booted State.reset with
    mem := [(0, 2, 0), (0x1000, 8, 2 ^ 56 + 2 ^ 52 + 7 * 2 ^ 48 + 2 ^ 42 + 2 ^ 32), (0x1008, 8, 2 ^ 32 + 2 ^ 16 + 1), (0x1020, 8, 0xFFF8000000000000), (0x1028, 8, 2 ^ 16 + 8)].foldl
      (fun m e => placeBytes m (65 * 2 ^ 64 + e.1) e.2.1 e.2.2) []
    dies := [(0, { dlatch := 0x101, tblreg := 0x0000200010000000, trcfg := 0x20000000 })]
    worlds := [(1, { st := .assigned, mask := 1 })] }
def choice : StartChoice :=
  { mbx := BitVec.ofNat 64 (own 0x200000), fq := BitVec.ofNat 64 (own 0x240000), hwt := 0, info := BitVec.ofNat 64 (own 0x10000)
    tables := (placeTables ++ [(0x10102000, 2 ^ 64 - 2 ^ 58), (0x10102010, 2 ^ 63 + 2 ^ 62 + 2 ^ 61 + 2 ^ 60 + 0x10000), (0x10102018, 0),
      (0x10100010, 2 ^ 64 - 2 ^ 58 + 0x200000), (0x10100018, 0)] : List (Nat × Nat)).map fun e => ⟨0, e.1, leBytes 8 e.2⟩
    place := [{ bind with kind := 4, coremap := [0], prio := 7 }] }
/-- The first part of the START. -/
def begunAs (ch : StartChoice) : Option Bool × State := (startLoad 1 0x1000 256 ch).run assigned
/-- What the second part needs of the first: the key, the tables and the image, in STARTING. -/
def begun (ch : StartChoice) : State :=
  let r := Prog.bind (setSlotKey 1 0 { key := 5, gen := 0 }) fun _ => .bind (forAll ch.tables (placeTable 1)) fun _ =>
    devWrite 1 0 0xFFF8000000000000 (physBytes assigned (physKey 65 0x1000) 256)
  let u := (r.run (inWorld (fun x => { x with st := .starting, tkey := 6, mbx := ch.mbx, fq := ch.fq, info := ch.info }) assigned)).2
  { u with dev := { u.dev with starts := [⟨.host, 1, 0x1000, 256, 0, true⟩] } }
/-- The second part. -/
def endsAs (hdr : Nat) : Option Bool := ((startPlace 1 hdr choice.place).run (begun choice)).1

theorem wit_WorldEventsHost :
    ((big.world 1).st = .running ∧ bitAt (big.world 1).wctl 59 = false ∧ field (big.world 1).wctl 53 1 = 0
      ∧ (([(0xFFFE, 1), (0x4FFFF, 1), (0x50000, 0)] : List (Nat × Nat)).all fun e =>
        ((([1, 2, 3] : List Byte).drop (0x10000 - e.1)).take (min (e.1 + 3) 0x50000 - max e.1 0x10000)).length == e.2) = true)
    ∧ (bitAt ((secured big).world 1).wctl 59 = true ∧ field ((secured big).world 1).wctl 53 1 = 0)
    ∧ (let s := booted { big with dies := big.dies.put 63 { dlatch := 0x100 } }
       answers s .host = true ∧ assignBad s .host 15 (2 ^ 63) 1 = []
         ∧ regsOk ((List.range 64).filter fun d => bitAt (2 ^ 63 : DWord) d) (fun d => decide (d < 64) && bitAt (2 ^ 63 : DWord) d) [(63, 0x0000200010000000, 63 * 2 ^ 58 + 0x20000000, 0)] = true
         ∧ regsOk (s.world 1).dies (fun d => (s.world 1).dies.contains d || s.latched d 0) [(0, 0x0000200010000000, 63 * 2 ^ 58 + 0x10000000, 0)] = true)
    ∧ (answers (booted big) .host = true ∧ assignBad (booted big) .phiham 16 0 2 ≠ [] ∧ assignBad (booted big) .host 1 1 0 ≠ [])
    ∧ (let s := booted (inWorld (fun x => { x with st := .stopped }) big)
       releaseBad s .host 1 = [] ∧ releaseBad (booted big) .host 1 ≠ [] ∧ setcfgBad s .host 1 = [] ∧ setcfgBad (booted big) .host 1 ≠ [])
    ∧ (resetBad (booted big) 1 = [] ∧ resetBad (booted big) 15 ≠ [] ∧ (statusIf (badWorld 16) 3 : List Nat) ≠ []) :=
  by and_intros <;> decide +kernel

theorem wit_WorldEvents :
    (startBad assigned .host 1 256 0 = [] ∧ (assigned.world 1).st ≠ .stopping ∧ startBad assigned .host 1 255 0 ≠ [])
    ∧ ((inWorld (fun x => { x with st := .stopping, stop := 6 }) big).world 1).stop = 6
    ∧ (let s := setCtl big fun c => { c with status := .exited }; (s.world 1).st = .running ∧ roleZeroGone s 1 = true)
    ∧ (let s := { big with grids := big.grids.put g1 { big.grid g1 with st := .stopping } }
       (s.world 1).st = .running ∧ (s.grid (s.world 1).resident).st = .stopping) :=
  by and_intros <;> decide +kernel

theorem wit_WorldStarts : (begunAs choice).1 = some true ∧ endsAs 0 = some true
    ∧ ((begun choice).dev.starts.find? fun e => e.world == 1) = some ⟨.host, 1, 0x1000, 256, 0, true⟩ :=
  by and_intros <;> decide +kernel
theorem wit_WorldStartFails : (begunAs { choice with tables := [] }).1 = some false ∧ endsAs 256 = some false :=
  ⟨by decide +kernel, by decide +kernel⟩
/-- Choices that firmware may not make leave the START where it is: an information block that can be written, no placement. -/
theorem wit_WorldStartStays : (begunAs { choice with info := choice.mbx }).1 = none ∧ ((startPlace 1 0 []).run (begun choice)).1 = none :=
  ⟨by decide +kernel, by decide +kernel⟩
/-- No START under way, one that waited for the stop to end, one in STOPPING, and a START of another kept before it. -/
theorem wit_WorldStartWaits :
    (assigned.dev.starts.find? fun e => e.world == 1) = none
    ∧ (let s := { assigned with dev := { assigned.dev with starts := [⟨.host, 1, 0x1000, 256, 0, false⟩] } }
       (s.dev.starts.find? fun e => e.world == 1) = some ⟨.host, 1, 0x1000, 256, 0, false⟩ ∧ presents s .host = true ∧ (s.world 1).st ≠ .stopping
         ∧ startBad s .host 1 256 0 = [] ∧ (s.dev.starts.filter fun e => e.world != 1) = [] ∧ startBad s .host 1 255 0 ≠ []
         ∧ (⟨.host, 1, 0x1000, 256, 0, false⟩ : StartCmd) ≠ ⟨.host, 1, 0x2000, 256, 0, false⟩)
    ∧ (let s := booted (inWorld (fun x => { x with st := .stopping }) big)
       (s.dev.starts.find? fun e => e.world == 1) = none ∧ answers s .host = true ∧ (s.world 1).st = .stopping) :=
  by and_intros <;> decide +kernel

/-! ### Events of boundaries, reliability, links and security -/

def dieIs (d : Nat) (f : Die → Die) (s : State) : State := { s with dies := s.dies.put d (f (s.die d)) }
def devIs (f : Dev → Dev) (s : State) : State := { s with dev := f s.dev }

theorem wit_BoundaryEvents :
    (dieOccupied big 63 = false ∧ dlatchWorld big 63 ≠ 15 ∧ dlatchValid big 63 = false ∧ dlatchScrub big 63 = false ∧ dieOccupied big 0 = true)
    ∧ (field (big.die 63).tblreg 40 20 = 0 ∧ field (big.die 0).tblreg 40 20 = 0x20 ∧ field (big.die 0).tblreg 16 20 = 0x1000
        ∧ dlatchWorld big (field (0x20000000 : DWord) 58 6) = dlatchWorld big 0 ∧ 0x1000 + 0x20 ≤ field (0x20000000 : DWord) 16 20)
    ∧ (let s := dieIs 0 (fun d => { d with dlatch := 0x201 }) big; dlatchScrub s 0 = true ∧ s.Inv = true ∧ (s.block 4).core / 16 = 0)
    ∧ (tablesSet big 0 = true ∧ tablesSet (dieIs 0 (fun d => { d with trcfg := d.tblreg }) big) 0 = false)
    ∧ coreFenced (dieIs 63 (fun d => { d with fenced := 0x8000 }) big) (63 * 16 + 15) = true
    ∧ (let s := { devIs (fun v => { v with ide := [(1, 0, 0)] }) (secured big) with time := 999999999 }
       let x := s.world 1
       bitAt x.wctl 59 = true ∧ x.st = .running ∧ (∃ e ∈ s.dev.ide, e.1 = 1) ∧ (1 : Word) = x.beat + 1 ∧ s.time < max x.runningAt x.beatAt + 1000 * 1000000)
    ∧ (let s := { secured big with time := 1000000000 }
       let x := s.world 1
       bitAt x.cfg 59 = true ∧ x.st = .running ∧ x.period = 1000 ∧ max x.runningAt x.beatAt + 1000 * 1000000 ≤ s.time ∧ s.dev.ide = [])
    ∧ (pkgDet 4 = true ∧ pkgDet 0 = false ∧ detLevel big 63 4 = 3 ∧ detLevel big 0 0 = 2 ∧ dieWorld big 0 = 1 ∧ (big.world 1).st ≠ .free)
    ∧ bitAt ((dieIs 63 (fun d => { d with secalm := 16 }) big).die 63).secalm 4 = true :=
  by and_intros <;> decide +kernel

/-- A dirty line of die 0 at a physical address, in its own die's memory. -/
def dirtyAt (pa : Nat) : State := { big with l2 := [(0, { dirty := true, phys := pa })] }

theorem wit_ReliabilityEvents :
    ([0x2000, 0x10000000].all fun pa =>
        let s := dirtyAt pa
        (s.l2.find? fun e => e.1 / 2 ^ 60 == 0 && e.2.dirty && e.2.phys % 2 ^ 64 / 128 == pa / 128).isSome && s.dev.heat.quarantine.isEmpty
          && inTable s 0 pa == (pa != 0x2000)) = true
    ∧ ((big.runOf 1).st = .resident ∧ (big.blocks.any fun e => e.1 == 1 * 4 + 0) = true ∧ (big.block 4).retired = false ∧ (big.gang (big.runOf 1).gang).checked = false
        ∧ (big.grid (gridOfGang (big.runOf 1).gang)).st = .live)
    ∧ ([5, 6].all fun r => let s := trio 1 1 1 id; (s.runOf r).st == .resident && (s.blocks.any fun e => e.1 == r * 4) && !(s.block (r * 4)).retired && (s.gang gk).checked
        && ((s.gang gk).primary == r) == (r == 5)) = true
    ∧ (((holding1 (.bytes 0 [] 0)).gang gk).holds.find? fun h => h.hold == 1).isSome = true
    ∧ (let s := devIs (fun v => { v with scrubbedAt := [(63, 1000)] }) { big with time := 86400000001000 }
       ∀ e, s.dev.scrubbedAt.find? (fun e => e.1 == 63) = some e → e.2 + 86400000000000 ≤ s.time)
    ∧ (let s := devIs (fun v => { v with heat := { v.heat with cores := [(1023, { demerits := 15, since := 1000 })] } }) { big with time := 86400000001000 }
       0 < (s.dev.heat.cores.get {} 1023).demerits.val ∧ (s.dev.heat.cores.get {} 1023).since + 86400000000000 ≤ s.poweredNs)
    ∧ (let s := devIs (fun v => { v with agedAt := [(255, 1000)] }) { big with time := 600000001000 }
       ∀ e, s.dev.agedAt.find? (fun e => e.1 == 255) = some e → e.2 + 600000000000 ≤ s.time)
    ∧ (let s := devIs (fun v => { v with replays := [(.port 71, 8, [])] }) big; LinkName.port 71 ∉ s.dev.linksDown ∧ 8 ≤ (replaysOf s (.port 71)).1)
    ∧ (let s := devIs (fun v => { v with replays := [(.port 0, 1, List.replicate 1000 1)] }) { big with time := 1000000000 }
       LinkName.port 0 ∉ s.dev.linksDown ∧ ((replaysOf s (.port 0)).2.filter fun t => decide (s.time < t + 1000000000)).length = 1000) :=
  ⟨by decide +kernel, by decide +kernel, by decide +kernel, by decide +kernel, fun e h => by cases h; decide, by decide +kernel, fun e h => by cases h; decide, by decide +kernel, by decide +kernel⟩

/-- A frame whose errors are not correctable, one with four corrected errors within a day, and the frame of a lost page. -/
theorem wit_FrameRetires : ([(0, devIs (fun v => { v with badFrames := [(63, 5)] }) big),
    (1, devIs (fun v => { v with corrected := List.replicate 4 (63, 5, 0) }) { big with time := 86400000000000 }),
    (2, devIs (fun v => { v with lost := [⟨1, 0, 63, 0, 63 * 2 ^ 64 + 5 * 65536, 0, true⟩] }) big),
    (2, devIs (fun v => { v with lost := [⟨1, 0, 63, 0, 65 * 2 ^ 64 + 5 * 65536, 0, true⟩] }) big)].all fun e : BitVec 2 × State =>
      frameGoes e.2 63 5 e.1 732420) = true := by decide +kernel

theorem wit_LinkAndBootEvents :
    (let s := booted (crowded big)
     let p (b : UlbBody) : UlbPacket := ⟨8188, 71, true, 1, some (linkKey 9 8188 1), b⟩
     s.dev.boot = .ready ∧ ([(UlbBody.read 1 0 0 8, false), (.coll 1 5 1 0 0 [0], true)].all fun e =>
       (rxFor s (p e.1)).any (fun x => rxTakes x 1) && heldInFabric s e.1 == e.2) = true)
    ∧ (rxFor (booted big) ⟨8188, 71, true, 1, none, .read 1 0 0 8⟩ = none ∧ rxTakes { top := 1 } 1 = true ∧ rxTakes { top := 257, seen := [] } 0 = false)
    ∧ (bitAt ((secured big).world 1).wctl 59 = true ∧ (secured big).dev.ide = [] ∧ bitAt (big.world 1).wctl 59 = false ∧ (big.world 1).st ≠ .free
        ∧ field (big.world 1).wctl 53 1 = 0 ∧ (big.world 1).st = .running)
    ∧ (let s := inWorld (fun x => { x with st := .stopped }) big; (s.world 1).st ≠ .running ∧ field (s.world 1).wctl 53 1 = 0)
    ∧ stays (devRead 1 0 ((big.world 1).mbx + BitVec.ofNat 64 (0x4FFFC - 0x10000)) 4) big (·.isSome) = true :=
  by and_intros <;> decide +kernel

end Sys2Proof.Tests
end

section
/-!
PROOFS. Control flow of a warp (R34 to R38, R207 to R213): what a branch, a split and an exit leave of the mask m0, the
reconvergence stack and the exited lanes; with it O25, O26 and O28.
-/
namespace Sys2Proof.Machine

/-! ### Programs and one warp -/

/-- What each update of a program keeps, the program keeps. -/
theorem Prog.Only.run_keeps {α : Type} {P : Upd → Prop} {I : State → Prop} {p : Prog α} (h : p.Only P)
    (hI : ∀ u s, P u → I s → I (Upd.apply s u)) (s : State) (hs : I s) : I (p.run s).2 := by
  induction p generalizing s with
  | ret a => exact hs
  | get k ih => exact ih s (h s) s hs
  | upd u k ih => exact ih h.2 _ (hI u s h.1 hs)

theorem Near.mem {w : Nat} {s u : State} (h : Near w s u) : u.mem = s.mem := by rw [h.rest]

/-! ### Steering a warp -/

/-- The effect of a control-flow instruction so far: `s` with active mask `m`, stack `stk` and exited lanes `ex` in the
running warp, and nothing else changed but the run's own list. -/
structure Steered (s u : State) (m : Mask) (stk : List StackEntry) (ex : Mask) : Prop where
  near : Near s.cur s u
  ctl : ∃ x, (u.warp s.cur).ctl = { s.ctlOf with exitedLanes := ex, runOld := x }
  stack : (u.warp s.cur).stack = stk
  regs : (u.warp s.cur).regs = { s.regsOf with m := (u.warp s.cur).regs.m }
  masks : ∀ n, u.mreg s.cur n = if n = 0 then m else s.mreg s.cur n
  sorted : Tab.sortedFrom 0 (u.warp s.cur).regs.m = true

/-- The active mask holds no lane from W on (R51). -/
theorem m0_within_lanes {s : State} (inv : s.Inv = true) : s.m0 s.cur &&& Config.laneMask = s.m0 s.cur := by
  have hok := inv_warp inv s.cur
  simp only [Warp.ok, WRegs.ok, Bool.and_eq_true, List.all_eq_true, beq_iff_eq] at hok
  obtain ⟨⟨⟨-, masks⟩, -⟩, -⟩ := hok
  have outside : s.m0 s.cur &&& ~~~Config.laneMask = 0 :=
    Tab.get_forall (P := fun x : Mask => x &&& ~~~Config.laneMask = 0) masks (BitVec.zero_and ..) 0
  calc s.m0 s.cur &&& Config.laneMask
      = (s.m0 s.cur &&& Config.laneMask) ||| (s.m0 s.cur &&& ~~~Config.laneMask) := by
        rw [outside]; exact (BitVec.or_zero ..).symm
    _ = s.m0 s.cur := by rw [← BitVec.and_or_distrib_left, BitVec.or_not_self, BitVec.and_allOnes]

/-- Nor does any part of it. -/
theorem m0_part_within_lanes {s : State} (inv : s.Inv = true) (k : Mask) :
    s.m0 s.cur &&& k &&& Config.laneMask = s.m0 s.cur &&& k := by
  rw [BitVec.and_assoc, BitVec.and_comm k, ← BitVec.and_assoc, m0_within_lanes inv]

/-- The running warp's stack is at most 1,024 deep (R35). -/
theorem stack_depth {s : State} (inv : s.Inv = true) : (s.warp s.cur).stack.length ≤ 1024 := by
  have hok := inv_warp inv s.cur
  simp only [Warp.ok, Bool.and_eq_true, decide_eq_true_eq] at hok
  exact hok.2

theorem noted_steered {s : State} (inv : s.Inv = true) (i : Instr) :
    Steered s (noted i s) (s.m0 s.cur) (s.warp s.cur).stack s.ctlOf.exitedLanes where
  near := noted_near i s
  ctl := noted_ctl i s
  stack := noted_stack i s
  regs := by rw [noted_regs]
  masks n := by
    rw [noted_mreg]; split
    · next h => rw [h]; rfl
    · rfl
  sorted := by rw [noted_regs]; exact ok_m (inv_warp inv s.cur)

section
variable {s u : State} {m : Mask} {stk : List StackEntry} {ex : Mask}

theorem Steered.toStack (h : Steered s u m stk ex) {l : List StackEntry} (hl : l.length ≤ 1024) :
    Steered s (Upd.apply u (.stack s.cur l)) m l ex where
  near := h.near.trans (near_stack ..)
  ctl := by simpa [Upd.stack_at] using h.ctl
  stack := by simp [Upd.stack_at, List.take_of_length_le hl]
  regs := by simpa [Upd.stack_at] using h.regs
  masks n := by simpa [State.mreg, Upd.stack_at] using h.masks n
  sorted := by simpa [Upd.stack_at] using h.sorted

theorem Steered.toMask (h : Steered s u m stk ex) (k : Mask) :
    Steered s (Upd.apply u (.mreg s.cur 0 k)) (k &&& Config.laneMask) stk ex where
  near := h.near.trans (near_mreg ..)
  ctl := by simpa [Upd.mreg_at] using h.ctl
  stack := by simpa [Upd.mreg_at] using h.stack
  regs := by rw [Upd.mreg_at, if_pos rfl, h.regs]
  masks n := by
    have hm := h.masks n
    simp only [State.mreg, Upd.mreg_at, if_pos] at hm ⊢
    rw [Tab.get_set _ _ _ _ h.sorted]
    split
    · rfl
    · next hn => rw [hm, if_neg hn]
  sorted := by rw [Upd.mreg_at, if_pos rfl]; exact Tab.sortedFrom_set _ h.sorted (Nat.zero_le _)

theorem Steered.toExited (h : Steered s u m stk ex) (ls : Mask) :
    Steered s (Upd.apply u (.ctl s.cur fun c => { c with exitedLanes := c.exitedLanes ||| ls })) m stk (ex ||| ls) where
  near := h.near.trans (near_ctl ..)
  ctl := by
    obtain ⟨x, hx⟩ := h.ctl
    exact ⟨x, by rw [Upd.ctl_at, if_pos rfl, hx]⟩
  stack := by simpa [Upd.ctl_at] using h.stack
  regs := by simpa [Upd.ctl_at] using h.regs
  masks n := by simpa [State.mreg, Upd.ctl_at] using h.masks n
  sorted := by simpa [Upd.ctl_at] using h.sorted

theorem Steered.unchecked {i : Instr} (h : Steered s u m stk ex) (hi : CanIssue i s) : u.checkedWarp s.cur = false := by
  rw [h.near.checkedWarp]; exact hi.unchecked

/-- AN INSTRUCTION THAT STEERS THE WARP: its effect leaves mask, stack and exited lanes, and control goes to the next
address, or to the jump's. -/
theorem Steered.goes {i : Instr} {eff : Nat → Prog Res} {r : Res} {a : DWord} (h : Steered s u m stk ex) (hi : CanIssue i s)
    (hx : exec i s = next (issue i eff) s) (he : (eff s.cur).run (noted i s) = (r, u))
    (ha : (r = .ok ∧ a = nextPc s.ctlOf.pc i) ∨ r = .jump a) : Yields i s fun t => Goes i s t a m stk ex := by
  obtain ⟨t, ht, hn, hr, hst, hiss⟩ := issue_ends (c := { s.ctlOf with exitedLanes := ex }) hi he ha (h.unchecked hi)
    h.ctl rfl rfl rfl rfl
  refine ⟨t, by rw [hx, next_eq, ht], hiss h.near.others, hst.trans h.stack, ?_, fun n => ?_, (h.near.trans hn).rest⟩
  · rw [hr]; exact h.regs
  · simp only [State.mreg, hr]; exact h.masks n
end

/-- DIVERGE is raised with sub-reason `n` (R59), no register and no stack entry changed. -/
abbrev DivergesAs (i : Instr) (s : State) (n : DWord) : Prop :=
  ∃ u, u.regsOf = s.regsOf ∧ (u.warp s.cur).stack = (s.warp s.cur).stack ∧ OnlyWarps s u ∧
    Faults i s u { cause := .diverge, faddr := n }

/-- AN INSTRUCTION THAT DIVERGES: its effect changes nothing and ends in DIVERGE. -/
theorem diverges {s : State} {i : Instr} {eff : Nat → Prog Res} {n : Nat} (hi : CanIssue i s)
    (hx : exec i s = next (issue i eff) s) (he : (eff s.cur).run (noted i s) = (diverge n, noted i s)) :
    DivergesAs i s (BitVec.ofNat 64 n) := by
  refine ⟨noted i s, ?_, noted_stack i s, (noted_near i s).rest, ?_⟩
  · simp only [State.regsOf, noted_cur, noted_regs]
  · rw [Faults, hx, next_eq, issue_fault hi he]

/-- AN INSTRUCTION THAT IDLES: its effect changes nothing, and it completes. -/
theorem idles {s : State} {i : Instr} {eff : Nat → Prog Res} (hi : CanIssue i s) (hx : exec i s = next (issue i eff) s)
    (he : (eff s.cur).run (noted i s) = (.ok, noted i s)) : Yields i s fun t => Completes i s t ∧ t.regsOf = s.regsOf := by
  obtain ⟨t, ht, hc, hr⟩ := issue_completes hi he (Near.refl ..) rfl (noted_stack ..)
  have hcur : t.cur = s.cur := by rw [hc.rest]
  exact ⟨t, by rw [hx, next_eq, ht], hc, by rw [State.regsOf, hcur, hr, noted_regs]⟩

/-! ### Branches -/

/-- An offset counts instruction words of 4 bytes from the branch's own address (R207). -/
theorem branchTo_eq (s : State) (w : Nat) (off : BitVec 32) :
    branchTo s w off = (s.warp w).ctl.pc + off.signExtend 64 * 4 := by
  rw [branchTo, BitVec.shiftLeft_eq_mul_twoPow]; rfl

@[simp] theorem noted_branchTo (i : Instr) (s : State) (off : BitVec 32) :
    branchTo (noted i s) s.cur off = branchTo s s.cur off := by
  rw [branchTo, noted_warp]; rfl

@[simp] theorem noted_pc (i : Instr) (s : State) : ((noted i s).warp s.cur).ctl.pc = (s.warp s.cur).ctl.pc := by
  rw [noted_warp]

theorem pushes_deep {w : Nat} {es : List StackEntry} {u : State} (h : 1024 < (u.warp w).stack.length + es.length)
    (p : Prog Res) : (pushes w es p).run u = (diverge 2, u) := by
  simp [pushes, h]

theorem pushes_fit {w : Nat} {es : List StackEntry} {u : State} (h : (u.warp w).stack.length + es.length ≤ 1024)
    (p : Prog Res) : (pushes w es p).run u = p.run (Upd.apply u (.stack w (es ++ (u.warp w).stack))) := by
  simp [pushes, Nat.not_lt.2 h]

section
variable {s : State}

/-- R34, R207: BRA goes to its target when every active lane takes it. -/
theorem bra_taken {o : Br} (inv : s.Inv = true) (hi : CanIssue (.bra o) s)
    (ht : s.m0 s.cur &&& s.predMask s.cur o.hd.pr = s.m0 s.cur) :
    Yields (.bra o) s fun u => Goes (.bra o) s u ((s.warp s.cur).ctl.pc + o.off.signExtend 64 * 4) (s.m0 s.cur)
      (s.warp s.cur).stack (s.warp s.cur).ctl.exitedLanes :=
  (noted_steered inv (.bra o)).goes (r := .jump (branchTo s s.cur o.off)) hi rfl (by simp [ht])
    (.inr (by rw [branchTo_eq]))

/-- R34: with no lane taking it, BRA goes on at the next address. -/
theorem bra_not_taken {o : Br} (inv : s.Inv = true) (hi : CanIssue (.bra o) s)
    (ht : s.m0 s.cur &&& s.predMask s.cur o.hd.pr = 0) (hm : s.m0 s.cur ≠ 0) :
    Yields (.bra o) s fun u => Goes (.bra o) s u (nextPc (s.warp s.cur).ctl.pc (.bra o)) (s.m0 s.cur)
      (s.warp s.cur).stack (s.warp s.cur).ctl.exitedLanes :=
  (noted_steered inv (.bra o)).goes (r := .ok) hi rfl
    (by simp only [Prog.run_get, Prog.run_ret, noted_m0, noted_predMask, ht, if_neg hm.symm, reduceIte]) (.inl ⟨rfl, rfl⟩)

/-- R34: BRA raises DIVERGE 1 when some active lanes take it and others do not. -/
theorem bra_diverges {o : Br} (hi : CanIssue (.bra o) s)
    (hall : s.m0 s.cur &&& s.predMask s.cur o.hd.pr ≠ s.m0 s.cur) (hnone : s.m0 s.cur &&& s.predMask s.cur o.hd.pr ≠ 0) :
    DivergesAs (.bra o) s 1 :=
  diverges (n := 1) hi rfl (by simp only [Prog.run_get, Prog.run_ret, noted_m0, noted_predMask, if_neg hall, if_neg hnone])

/-- R210: CALL pushes its return entry and goes to its target. -/
theorem call_pushes {o : Br} (inv : s.Inv = true) (hi : CanIssue (.call o) s) (on : uniformOn s s.cur o.hd = true)
    (hd : (s.warp s.cur).stack.length < 1024) :
    Yields (.call o) s fun u => Goes (.call o) s u ((s.warp s.cur).ctl.pc + o.off.signExtend 64 * 4) (s.m0 s.cur)
      (⟨.ret, nextPc (s.warp s.cur).ctl.pc (.call o), s.m0 s.cur⟩ :: (s.warp s.cur).stack)
      (s.warp s.cur).ctl.exitedLanes :=
  ((noted_steered inv (.call o)).toStack (by rw [List.length_cons]; omega)).goes (r := .jump (branchTo s s.cur o.off)) hi rfl
    (by simp [on, pushes_fit, noted_stack, Nat.succ_le_of_lt hd]) (.inr (by rw [branchTo_eq]))

/-- R35, R210: a CALL on a full stack raises DIVERGE 2. -/
theorem call_diverges {o : Br} (hi : CanIssue (.call o) s) (on : uniformOn s s.cur o.hd = true)
    (hd : ¬(s.warp s.cur).stack.length < 1024) :
    DivergesAs (.call o) s 2 :=
  diverges (n := 2) hi rfl (by
    have deep : 1024 < (s.warp s.cur).stack.length + 1 := by omega
    simp [on, pushes_deep, noted_stack, deep])

/-- R212: JMPI goes to the address in its register. -/
theorem jmpi_jumps {o : Src1} (inv : s.Inv = true) (hi : CanIssue (.jmpi o) s) (on : uniformOn s s.cur o.hd = true) :
    Yields (.jmpi o) s fun u => Goes (.jmpi o) s u (s.sreg s.cur o.a.val) (s.m0 s.cur) (s.warp s.cur).stack
      (s.warp s.cur).ctl.exitedLanes :=
  (noted_steered inv (.jmpi o)).goes (r := .jump (s.sreg s.cur o.a.val)) hi rfl (by simp [on]) (.inr rfl)
end

/-- Settles O25: each branch by the lanes that take it, CALL by the depth of the stack. -/
theorem branches : Obligations.Branches := by
  refine ⟨fun o s inv hi => ⟨bra_taken inv hi, bra_not_taken inv hi, bra_diverges hi⟩, fun o s inv hi on => ?_,
    fun o s inv hi on => jmpi_jumps inv hi on⟩
  split
  · next hd => exact call_pushes inv hi on hd
  · next hd => exact call_diverges hi on hd

/-! ### BRD -/

section
variable {s : State} {o : Brd}

/-- What BRD pushes first: the place where the lanes join again, with all of them (R36). -/
def joinEntry (s : State) (o : Brd) : StackEntry :=
  ⟨.join, (s.warp s.cur).ctl.pc + o.joff.signExtend 64 * 4, s.m0 s.cur⟩

/-- What BRD pushes when lanes part: the path of the lanes that take it (R36). -/
def pathEntry (s : State) (o : Brd) : StackEntry :=
  ⟨.path, (s.warp s.cur).ctl.pc + o.toff.signExtend 64 * 4, s.m0 s.cur &&& s.predMask s.cur o.hd.pr⟩

/-- R36: with lanes on both sides, those that do not take BRD go on first. -/
theorem brd_parts (inv : s.Inv = true) (hi : CanIssue (.brd o) s)
    (ht : s.m0 s.cur &&& s.predMask s.cur o.hd.pr ≠ 0) (hn : s.m0 s.cur &&& ~~~(s.predMask s.cur o.hd.pr) ≠ 0)
    (hd : (s.warp s.cur).stack.length + 2 ≤ 1024) :
    Yields (.brd o) s fun u => Goes (.brd o) s u (nextPc (s.warp s.cur).ctl.pc (.brd o))
      (s.m0 s.cur &&& ~~~(s.predMask s.cur o.hd.pr)) (pathEntry s o :: joinEntry s o :: (s.warp s.cur).stack)
      (s.warp s.cur).ctl.exitedLanes := by
  have st := ((noted_steered inv (.brd o)).toStack (l := pathEntry s o :: joinEntry s o :: (s.warp s.cur).stack)
    (by simp only [List.length_cons]; exact hd)).toMask (s.m0 s.cur &&& ~~~(s.predMask s.cur o.hd.pr))
  rw [m0_part_within_lanes inv] at st
  refine st.goes (r := .ok) hi rfl ?_ (.inl ⟨rfl, rfl⟩)
  simp only [Prog.run_get, noted_m0, noted_predMask]
  rw [if_pos ⟨ht, hn⟩, pushes_fit (by rw [noted_stack]; exact hd)]
  simp [noted_stack, setM0, pathEntry, joinEntry, branchTo_eq]

/-- R36: BRD that every active lane takes. -/
theorem brd_taken (inv : s.Inv = true) (hi : CanIssue (.brd o) s)
    (ht : s.m0 s.cur &&& s.predMask s.cur o.hd.pr ≠ 0) (hn : s.m0 s.cur &&& ~~~(s.predMask s.cur o.hd.pr) = 0)
    (hd : (s.warp s.cur).stack.length + 1 ≤ 1024) :
    Yields (.brd o) s fun u => Goes (.brd o) s u ((s.warp s.cur).ctl.pc + o.toff.signExtend 64 * 4) (s.m0 s.cur)
      (joinEntry s o :: (s.warp s.cur).stack) (s.warp s.cur).ctl.exitedLanes := by
  refine ((noted_steered inv (.brd o)).toStack (l := joinEntry s o :: (s.warp s.cur).stack) hd).goes
    (r := .jump (branchTo s s.cur o.toff)) hi rfl ?_ (.inr (by rw [branchTo_eq]))
  simp only [Prog.run_get, noted_m0, noted_predMask]
  rw [if_neg (fun h => h.2 hn), if_pos ht, pushes_fit (by rw [noted_stack]; exact hd)]
  simp [noted_stack, joinEntry, branchTo_eq]

/-- R36: BRD that no active lane takes. -/
theorem brd_not_taken (inv : s.Inv = true) (hi : CanIssue (.brd o) s)
    (ht : s.m0 s.cur &&& s.predMask s.cur o.hd.pr = 0) (hd : (s.warp s.cur).stack.length + 1 ≤ 1024) :
    Yields (.brd o) s fun u => Goes (.brd o) s u (nextPc (s.warp s.cur).ctl.pc (.brd o)) (s.m0 s.cur)
      (joinEntry s o :: (s.warp s.cur).stack) (s.warp s.cur).ctl.exitedLanes := by
  refine ((noted_steered inv (.brd o)).toStack (l := joinEntry s o :: (s.warp s.cur).stack) hd).goes
    (r := .ok) hi rfl ?_ (.inl ⟨rfl, rfl⟩)
  simp only [Prog.run_get, noted_m0, noted_predMask]
  rw [if_neg (fun h => h.1 ht), if_neg (fun h => h ht), pushes_fit (by rw [noted_stack]; exact hd)]
  simp [noted_stack, joinEntry, branchTo_eq]

/-- R35, R208: BRD raises DIVERGE 2 where one entry does not fit, and where lanes part and two do not. -/
theorem brd_diverges (hi : CanIssue (.brd o) s)
    (hd : 1024 < (s.warp s.cur).stack.length + 1 ∨ (1024 < (s.warp s.cur).stack.length + 2 ∧
      s.m0 s.cur &&& s.predMask s.cur o.hd.pr ≠ 0 ∧ s.m0 s.cur &&& ~~~(s.predMask s.cur o.hd.pr) ≠ 0)) :
    DivergesAs (.brd o) s 2 := by
  refine diverges (n := 2) hi rfl ?_
  simp only [Prog.run_get, noted_m0, noted_predMask]
  rcases hd with one | ⟨two, ht, hn⟩
  · have two : 1024 < (s.warp s.cur).stack.length + 2 := by omega
    split
    · exact pushes_deep (by rw [noted_stack]; exact two) _
    · split <;> exact pushes_deep (by rw [noted_stack]; exact one) _
  · rw [if_pos ⟨ht, hn⟩]
    exact pushes_deep (by rw [noted_stack]; exact two) _
end

/-- Settles O26: by whether lanes part, all take the branch or none does, each by the depth of the stack. -/
theorem brdSplitsTheWarp : Obligations.BrdSplitsTheWarp := by
  refine fun o s inv hi => ⟨fun ht hn => ?_, fun ht hn => ?_, fun ht => ?_⟩
  · split
    · next hd => exact brd_parts inv hi ht hn hd
    · next hd => exact brd_diverges hi (.inr ⟨Nat.not_le.1 hd, ht, hn⟩)
  · split
    · next hd => exact brd_taken inv hi ht hn hd
    · next hd => exact brd_diverges hi (.inl (Nat.not_le.1 hd))
  · split
    · next hd => exact brd_not_taken inv hi ht hd
    · next hd => exact brd_diverges hi (.inl (Nat.not_le.1 hd))

/-! ### The end of a warp -/

/-- Updates that change a warp only in what it knows to happen before and has acquired, and no run's gang. -/
def Upd.TeachesOnly : Upd → Prop
  | .ctl _ f => ∀ c, ∃ v a, f c = { c with view := v, acq := a }
  | .block _ _ => True
  | .run _ f => ∀ r, (f r).gang = r.gang
  | _ => False

/-- From `s` to `t` memory is the same, every warp but for what it knows to happen before and has acquired, and which gangs
are checked. -/
structure Taught (s t : State) : Prop where
  mem : t.mem = s.mem
  warp : ∀ j, ∃ v a, t.warp j = { s.warp j with ctl := { (s.warp j).ctl with view := v, acq := a } }
  checked : ∀ j, t.checkedWarp j = s.checkedWarp j

theorem Taught.refl (s : State) : Taught s s := ⟨rfl, fun _ => ⟨_, _, rfl⟩, fun _ => rfl⟩

theorem Taught.upd {s t : State} (h : Taught s t) {u : Upd} (hu : u.TeachesOnly) : Taught s (u.apply t) := by
  cases u with
  | ctl w f =>
    refine ⟨h.mem, fun j => ?_, h.checked⟩
    rw [Upd.ctl_at]
    split
    · next e =>
      obtain ⟨v, a, hv⟩ := h.warp j
      obtain ⟨v', a', hf⟩ := hu (t.warp w).ctl
      exact ⟨v', a', by rw [hf, ← e, hv]⟩
    · exact h.warp j
  | block b f => exact ⟨h.mem, h.warp, h.checked⟩
  | run r f =>
    refine ⟨h.mem, h.warp, fun j => ?_⟩
    have same : ((Upd.apply t (.run r f)).runOf (runOfWarp j)).gang = (t.runOf (runOfWarp j)).gang := by
      rw [Upd.run_at]; split
      · next e => rw [hu, e]
      · rfl
    rw [State.checkedWarp, State.gangOfWarp, same]
    exact h.checked j
  | _ => exact hu.elim

theorem Taught.run {α : Type} {s t : State} (h : Taught s t) {p : Prog α} (hp : p.Only Upd.TeachesOnly) :
    Taught s (p.run t).2 :=
  hp.run_keeps (fun _ _ hu ht => ht.upd hu) t h

theorem barCheck_teaches (b n : Nat) (leaving : Option Nat) : (barCheck b n leaving).Only Upd.TeachesOnly := by
  refine Prog.only_get fun s => ?_
  dsimp only
  split
  · exact Prog.only_upd trivial (Prog.only_ret _)
  · exact Prog.only_ret _

theorem joinView_teaches (w : Nat) (v : View) : (joinView w v).Only Upd.TeachesOnly := by
  unfold joinView
  split
  · exact Prog.only_ret _
  · exact Prog.only_upd (fun c => ⟨_, c.acq, rfl⟩) (Prog.only_ret _)

theorem acquireFence_teaches (w : Nat) (sc : Scope) : (acquireFence w sc).Only Upd.TeachesOnly :=
  Prog.only_get fun _ => Prog.only_upd (fun c => ⟨_, c.acq, rfl⟩) (Prog.only_ret _)

theorem acquire_teaches (w : Nat) (sc : Scope) : (acquire w sc).Only Upd.TeachesOnly :=
  Prog.only_get fun _ => Prog.only_upd (fun c => ⟨c.view, _, rfl⟩) (Prog.only_ret _)

theorem gbarCheck_teaches (r : Nat) (leaving : Option Nat) : (gbarCheck r leaving).Only Upd.TeachesOnly :=
  Prog.only_get fun _ => only_whenP <| Prog.only_bind (Prog.only_upd (fun _ => rfl) (Prog.only_ret _)) fun _ =>
    Prog.only_bind (only_forAll fun _ => Prog.only_upd trivial (Prog.only_ret _)) fun _ =>
      only_forAll fun w => Prog.only_bind (joinView_teaches w _) fun _ =>
        Prog.only_bind (acquireFence_teaches w _) fun _ => acquire_teaches w _

/-- R38, R40: a warp without a path left has every launched lane exited; a phase that completes at a barrier only teaches
the warps it frees. -/
theorem warpExits_run {w : Nat} {u : State} (hu : u.checkedWarp w = false) :
    ∃ v, (warpExits w).run u = (.exited, v) ∧
      Taught (Upd.apply u (.ctl w fun c => { c with exitedLanes := c.launched })) v := by
  generalize hx : Upd.apply u (.ctl w fun c => { c with exitedLanes := c.launched }) = x
  have hc : x.checkedWarp w = false := by rw [← hx, (near_ctl u w _).checkedWarp]; exact hu
  have bars := only_forAll (l := List.range 16) fun n => barCheck_teaches (blockOfWarp w) n (some w)
  exact ⟨_, by simp [warpExits, hx, segEnd_unchecked hc],
    ((Taught.refl x).run bars).run (gbarCheck_teaches (runOfWarp w) (some w))⟩

section
variable {s u : State} {m : Mask} {stk : List StackEntry} {ex : Mask}

/-- R38: a warp whose stack holds no entry with lanes exits. -/
theorem Steered.exits {i : Instr} {eff : Nat → Prog Res} (h : Steered s u m stk ex) (hi : CanIssue i s)
    (hx : exec i s = next (issue i eff) s) (he : (eff s.cur).run (noted i s) = (warpExits s.cur).run u) :
    Yields i s fun t => Exits s t := by
  obtain ⟨v, hv, taught⟩ := warpExits_run (h.unchecked hi)
  generalize hy : Upd.apply u (.ctl s.cur fun c => { c with exitedLanes := c.launched }) = y at taught
  have near : Near s.cur s y := h.near.trans (hy ▸ near_ctl ..)
  have hctl : (v.warp s.cur).ctl.held = [] ∧ (v.warp s.cur).ctl.status = .ready ∧
      (v.warp s.cur).ctl.exitedLanes = s.ctlOf.launched := by
    obtain ⟨x, hu⟩ := h.ctl
    obtain ⟨_, _, hw⟩ := taught.warp s.cur
    rw [hw, ← hy, Upd.ctl_at, if_pos rfl, hu]
    exact ⟨hi.noneHeld, hi.ready, rfl⟩
  obtain ⟨hheld, hready, hlanes⟩ := hctl
  obtain ⟨t, ht, last, -, -, ht'⟩ := complete_run (i := i) (pc := (v.warp s.cur).ctl.pc) (st := .exited)
    ((taught.checked _).trans ((near.checkedWarp _).trans hi.unchecked)) hheld (by rw [hready]; decide)
  refine ⟨t, by rw [hx, next_eq, issue_run hi, he, hv]; simp only [finish, Prog.run_get, ht], ?_, ?_, fun w hw => ?_, ?_⟩
  · rw [ht']; simp
  · rw [ht']; exact hlanes
  · obtain ⟨_, _, he⟩ := taught.warp w
    rw [last.others w hw, he, near.others w hw]
    exact ⟨rfl, rfl⟩
  · rw [last.mem, taught.mem, near.mem]

/-- Where control goes on when EXIT pops an entry (R38). -/
def popAddr (e : StackEntry) : DWord := match e.kind with | .join => skip28 (e.addr + 8) | _ => e.addr

theorem popExit_exits {w : Nat} {l : List StackEntry} (h : l.dropWhile (fun e => e.mask == 0) = []) (u : State) :
    (popExit w l).run u = (warpExits w).run (Upd.apply u (.stack w [])) := by
  induction l with
  | nil => simp [popExit]
  | cons e t ih =>
    rw [List.dropWhile_cons] at h
    split at h
    · next he => rw [popExit, if_pos (by simpa using he)]; exact ih h
    · cases h

theorem popExit_resumes {w : Nat} {l r : List StackEntry} {e : StackEntry}
    (h : l.dropWhile (fun e => e.mask == 0) = e :: r) (u : State) :
    (popExit w l).run u =
      (.jump (popAddr e), Upd.apply (Upd.apply u (.stack w r)) (.mreg w 0 e.mask)) := by
  induction l with
  | nil => cases h
  | cons a t ih =>
    rw [List.dropWhile_cons] at h
    split at h
    · next he => rw [popExit, if_pos (by simpa using he)]; exact ih h
    · next he =>
      obtain ⟨rfl, rfl⟩ := List.cons.inj h
      rw [popExit, if_neg (by simpa using he)]
      rfl

/-- R38: an instruction whose effect pops the stack as EXIT does. -/
theorem Steered.pops {i : Instr} {eff : Nat → Prog Res} {l : List StackEntry} (h : Steered s u m stk ex) (hi : CanIssue i s)
    (hx : exec i s = next (issue i eff) s) (hl : l.length ≤ 1024)
    (he : (eff s.cur).run (noted i s) = (popExit s.cur l).run u) : PopsTo i s l ex := by
  unfold PopsTo
  split
  · next hp => exact (h.toStack (l := []) (Nat.zero_le _)).exits hi hx (he.trans (popExit_exits hp u))
  · next e r hp =>
    have hr : r.length ≤ 1024 := by
      have rest := (List.dropWhile_sublist (fun e : StackEntry => e.mask == 0) (l := l)).length_le
      rw [hp, List.length_cons] at rest
      omega
    exact ((h.toStack hr).toMask e.mask).goes hi hx (he.trans (popExit_resumes hp u)) (.inr rfl)
end

section
variable {s : State} {o : Plain}

/-- The lanes that execute EXIT: those of m0 whose predicate is true (R213). -/
abbrev exitLanes (s : State) (o : Plain) : Mask := s.m0 s.cur &&& s.predMask s.cur o.hd.pr

/-- A stack without the lanes of a mask (R38). -/
abbrev stackWithout (stk : List StackEntry) (ls : Mask) : List StackEntry :=
  stk.map fun e => { e with mask := e.mask &&& ~~~ls }

/-- R213: with no lane that executes it, EXIT has no effect. -/
theorem exit_none (hi : CanIssue (.exit o) s) (hl : exitLanes s o = 0) :
    Yields (.exit o) s fun t => Completes (.exit o) s t ∧ t.regsOf = s.regsOf :=
  idles hi rfl (by simp only [Prog.run_get, noted_m0, noted_predMask]; rw [if_pos hl]; rfl)

/-- R38: the lanes that stay active go on. -/
theorem exit_some (inv : s.Inv = true) (hi : CanIssue (.exit o) s) (hl : exitLanes s o ≠ 0)
    (hm : s.m0 s.cur &&& ~~~(exitLanes s o) ≠ 0) :
    Yields (.exit o) s fun t => Goes (.exit o) s t (nextPc (s.warp s.cur).ctl.pc (.exit o))
      (s.m0 s.cur &&& ~~~(exitLanes s o)) (stackWithout (s.warp s.cur).stack (exitLanes s o))
      ((s.warp s.cur).ctl.exitedLanes ||| exitLanes s o) := by
  have st := (((noted_steered inv (.exit o)).toExited (exitLanes s o)).toStack
    (l := stackWithout (s.warp s.cur).stack (exitLanes s o)) (by rw [List.length_map]; exact stack_depth inv)).toMask
    (s.m0 s.cur &&& ~~~(exitLanes s o))
  rw [m0_part_within_lanes inv] at st
  refine st.goes (r := .ok) hi rfl ?_ (.inl ⟨rfl, rfl⟩)
  simp only [Prog.run_get, noted_m0, noted_predMask, noted_stack]
  rw [if_neg hl, Prog.run_bind, if_pos hm]
  rfl

/-- R38: with no active lane left, EXIT pops. -/
theorem exit_all (inv : s.Inv = true) (hi : CanIssue (.exit o) s) (hl : exitLanes s o ≠ 0)
    (hm : s.m0 s.cur &&& ~~~(exitLanes s o) = 0) :
    PopsTo (.exit o) s (stackWithout (s.warp s.cur).stack (exitLanes s o))
      ((s.warp s.cur).ctl.exitedLanes ||| exitLanes s o) := by
  refine (((noted_steered inv (.exit o)).toExited (exitLanes s o)).toMask 0).pops hi rfl
    (by rw [List.length_map]; exact stack_depth inv) ?_
  simp only [Prog.run_get, noted_m0, noted_predMask, noted_stack]
  rw [if_neg hl, Prog.run_bind, if_neg fun h => h hm]
  rfl
end

/-- Settles O28: EXIT with no lane, with active lanes left, and with none. -/
theorem exitEndsLanes : Obligations.ExitEndsLanes :=
  fun _ _ inv hi => ⟨exit_none hi, exit_some inv hi, exit_all inv hi⟩

end Sys2Proof.Machine
end

section
/-!
PROOFS. NOP, YIELD and SEGEND (R206, R217, R219), and what JOIN and RET do with the top of the reconvergence stack (R37,
R211): O24 and O27.
-/
namespace Sys2Proof.Machine

/-! ### Instructions that act once for the warp -/

/-- One that executes runs its effect, which steers the warp. -/
theorem Steered.goesU {s u : State} {m : Mask} {stk : List StackEntry} {ex : Mask} {i : Instr} {h : Hd}
    {eff : Nat → Prog Res} {r : Res} {a : DWord} (st : Steered s u m stk ex) (hi : CanIssue i s)
    (hx : exec i s = next (issueU i h eff) s) (on : uniformOn s s.cur h = true)
    (he : (eff s.cur).run (noted i s) = (r, u)) (ha : (r = .ok ∧ a = nextPc s.ctlOf.pc i) ∨ r = .jump a) :
    Yields i s fun t => Goes i s t a m stk ex :=
  st.goes hi hx (by rw [Prog.run_get, noted_uniformOn, if_pos on, he]) ha

/-- One that executes and whose effect diverges takes DIVERGE. -/
theorem divergesU {s : State} {i : Instr} {h : Hd} {eff : Nat → Prog Res} {n : Nat} (hi : CanIssue i s)
    (hx : exec i s = next (issueU i h eff) s) (on : uniformOn s s.cur h = true)
    (he : (eff s.cur).run (noted i s) = (diverge n, noted i s)) : DivergesAs i s (BitVec.ofNat 64 n) :=
  diverges hi hx (by rw [Prog.run_get, noted_uniformOn, if_pos on, he])

/-- One that changes nothing, executed or not, idles. -/
theorem idlesU {s : State} {i : Instr} {h : Hd} {eff : Nat → Prog Res} (hi : CanIssue i s)
    (hx : exec i s = next (issueU i h eff) s) (he : (eff s.cur).run (noted i s) = (.ok, noted i s)) :
    Yields i s fun t => Completes i s t ∧ t.regsOf = s.regsOf :=
  idles hi hx (by
    rw [Prog.run_get]
    split
    · exact he
    · rfl)

/-! ### Instructions without effect -/

/-- R219: outside a checked gang SEGEND ends no segment. -/
theorem segend_idles {s : State} {o : Plain} (hi : CanIssue (.segend o) s) :
    Yields (.segend o) s fun t => Completes (.segend o) s t ∧ t.regsOf = s.regsOf :=
  idlesU hi rfl (by
    have unchecked : (noted (.segend o) s).checkedWarp s.cur = false := by
      rw [(noted_near _ s).checkedWarp]; exact hi.unchecked
    rw [Prog.run_bind, segEnd_unchecked unchecked, Prog.run_ret])

/-- Settles O24: NOP and YIELD have an empty effect, and SEGEND in an unchecked gang. -/
theorem noEffectInstructions : Obligations.NoEffectInstructions := by
  intro i s hi hk
  cases i with
  | nop o => exact idlesU hi rfl rfl
  | yield o => exact idlesU hi rfl rfl
  | segend o => exact segend_idles hi
  | _ => exact hk.elim

/-! ### Taking the top of the stack -/

/-- What JOIN and RET share: DIVERGE 4 on an empty stack, a pop as EXIT's at an entry without lanes, and `act` on the entry
otherwise. -/
def onTop (act : State → Nat → StackEntry → List StackEntry → Prog Res) (w : Nat) : Prog Res :=
  .get fun s => match (s.warp w).stack with
    | [] => .ret (diverge 4)
    | e :: t => if e.mask = 0 then popExit w t else act s w e t

/-- The entry leaves the stack, and its lanes are active. -/
def resumeWith (w : Nat) (e : StackEntry) (t : List StackEntry) (r : Res) : Prog Res :=
  .bind (upd (.stack w t)) fun _ => .bind (setM0 w e.mask) fun _ => .ret r

/-- What JOIN does with an entry that has lanes (R37). -/
def joinTop (s : State) (w : Nat) (e : StackEntry) (t : List StackEntry) : Prog Res :=
  match e.kind with
  | .path => resumeWith w e t (.jump e.addr)
  | .join => if e.addr = (s.warp w).ctl.pc then resumeWith w e t .ok else .ret (diverge 3)
  | .ret => .ret (diverge 3)

/-- What RET does with an entry that has lanes (R211). -/
def retTop (_ : State) (w : Nat) (e : StackEntry) (t : List StackEntry) : Prog Res := resumeWith w e t (.jump e.addr)

theorem exec_join (o : Plain) (s : State) : exec (.join o) s = next (issueU (.join o) o.hd (onTop joinTop)) s := rfl
theorem exec_ret (o : Plain) (s : State) : exec (.ret o) s = next (issueU (.ret o) o.hd (onTop retTop)) s := rfl

section
variable {s : State} {i : Instr} {h : Hd} {act : State → Nat → StackEntry → List StackEntry → Prog Res} {e : StackEntry}
  {r : List StackEntry}

/-- With nothing on the stack DIVERGE 4 is raised. -/
theorem onTop_empty (hi : CanIssue i s) (hx : exec i s = next (issueU i h (onTop act)) s)
    (on : uniformOn s s.cur h = true) (hs : (s.warp s.cur).stack = []) : DivergesAs i s 4 :=
  divergesU (n := 4) hi hx on (by rw [onTop, Prog.run_get, noted_stack, hs]; rfl)

/-- An entry without lanes pops as EXIT does (R38). -/
theorem onTop_no_lanes (inv : s.Inv = true) (hi : CanIssue i s) (hx : exec i s = next (issueU i h (onTop act)) s)
    (on : uniformOn s s.cur h = true) (hs : (s.warp s.cur).stack = e :: r) (he : e.mask = 0) :
    PopsTo i s r (s.warp s.cur).ctl.exitedLanes := by
  have depth := stack_depth inv
  rw [hs, List.length_cons] at depth
  refine (noted_steered inv i).pops hi hx (Nat.le_of_succ_le depth) ?_
  rw [Prog.run_get, noted_uniformOn, if_pos on, onTop, Prog.run_get, noted_stack, hs]
  exact congrArg (Prog.run · _) (if_pos he)

/-- On an entry with lanes it acts. -/
theorem onTop_run (hs : (s.warp s.cur).stack = e :: r) (he : e.mask ≠ 0) :
    (onTop act s.cur).run (noted i s) = (act (noted i s) s.cur e r).run (noted i s) := by
  rw [onTop, Prog.run_get, noted_stack, hs]
  exact congrArg (Prog.run · _) (if_neg he)

/-- An entry with lanes that resumes: control goes on with them, the entry off the stack. -/
theorem onTop_resumes {res : Res} {a : DWord} (inv : s.Inv = true) (hi : CanIssue i s)
    (hx : exec i s = next (issueU i h (onTop act)) s) (on : uniformOn s s.cur h = true)
    (hs : (s.warp s.cur).stack = e :: r) (he : e.mask ≠ 0) (ht : act (noted i s) s.cur e r = resumeWith s.cur e r res)
    (ha : (res = .ok ∧ a = nextPc s.ctlOf.pc i) ∨ res = .jump a) :
    Yields i s fun u => Goes i s u a (e.mask &&& Config.laneMask) r (s.warp s.cur).ctl.exitedLanes := by
  have depth := stack_depth inv
  rw [hs, List.length_cons] at depth
  have st := ((noted_steered inv i).toStack (Nat.le_of_succ_le depth)).toMask e.mask
  exact st.goesU hi hx on (by rw [onTop_run hs he, ht]; rfl) ha

/-- An entry with lanes that the instruction refuses. -/
theorem onTop_refuses {n : Nat} (hi : CanIssue i s) (hx : exec i s = next (issueU i h (onTop act)) s)
    (on : uniformOn s s.cur h = true) (hs : (s.warp s.cur).stack = e :: r) (he : e.mask ≠ 0)
    (ht : act (noted i s) s.cur e r = .ret (diverge n)) : DivergesAs i s (BitVec.ofNat 64 n) :=
  divergesU hi hx on (by rw [onTop_run hs he, ht]; rfl)
end

/-- R37: JOIN at an entry with lanes, by the entry's kind. -/
theorem join_top {s : State} {o : Plain} {e : StackEntry} {r : List StackEntry} (inv : s.Inv = true)
    (hi : CanIssue (.join o) s) (on : uniformOn s s.cur o.hd = true) (hs : (s.warp s.cur).stack = e :: r)
    (he : e.mask ≠ 0) :
    let goes (pc : DWord) : Prop := Yields (.join o) s fun u =>
      Goes (.join o) s u pc (e.mask &&& Config.laneMask) r (s.warp s.cur).ctl.exitedLanes
    match e.kind with
    | .path => goes e.addr
    | .join => if e.addr = (s.warp s.cur).ctl.pc then goes (nextPc (s.warp s.cur).ctl.pc (.join o)) else DivergesAs (.join o) s 3
    | .ret => DivergesAs (.join o) s 3 := by
  intro goes
  have hx := exec_join o s
  split
  · next hk => exact onTop_resumes inv hi hx on hs he (by rw [joinTop, hk]) (.inr rfl)
  · next hk =>
    split
    · next ha =>
      exact onTop_resumes inv hi hx on hs he (by rw [joinTop, hk, noted_pc]; exact if_pos ha) (.inl ⟨rfl, rfl⟩)
    · next ha => exact onTop_refuses (n := 3) hi hx on hs he (by rw [joinTop, hk, noted_pc]; exact if_neg ha)
  · next hk => exact onTop_refuses (n := 3) hi hx on hs he (by rw [joinTop, hk])

/-- Settles O27: by the top of the stack, whether it has lanes, and for JOIN its kind. -/
theorem joinAndReturn : Obligations.JoinAndReturn := by
  refine ⟨fun o s inv hi on => ?_, fun o s inv hi on => ?_⟩
  · split
    · next hs => exact onTop_empty hi (exec_join o s) on hs
    · next e r hs =>
      dsimp only
      split
      · next he => exact onTop_no_lanes inv hi (exec_join o s) on hs he
      · next he => exact join_top inv hi on hs he
  · split
    · next hs => exact onTop_empty hi (exec_ret o s) on hs
    · next e r hs =>
      split
      · next he => exact onTop_no_lanes inv hi (exec_ret o s) on hs he
      · next he => exact onTop_resumes inv hi (exec_ret o s) on hs he rfl (.inr rfl)

end Sys2Proof.Machine
end

section
/-!
PROOFS. Mask operations, their counts, and the votes (R51, R227 to R229): O10.
-/
namespace Sys2Proof.Machine

/-! ### Writing a mask -/

section
variable {s : State} {i : Instr} {eff : Nat → Prog Res}

/-- A mask result of an unchecked warp is one register write. -/
theorem writeM_unchecked {w : Nat} (h : s.checkedWarp w = false) (n : Nat) (v : Mask) (acts : Bool) :
    (writeM w n v acts).run s = ((), Upd.apply s (.mreg w n v)) := by
  have still : (Upd.apply s (.mreg w n v)).checkedWarp w = false := by rw [(near_mreg s w n v).checkedWarp]; exact h
  rw [writeM, Prog.run_bind, run_updP, foldSig_unchecked still]

theorem noted_unchecked (hi : CanIssue i s) : (noted i s).checkedWarp s.cur = false := by
  rw [(noted_near i s).checkedWarp]; exact hi.unchecked

theorem noted_live : ((noted i s).warp s.cur).ctl.live = (s.warp s.cur).ctl.live := by rw [noted_warp]; rfl

/-- R51: a write to m0 that leaves no live lane raises DIVERGE 6; every other write takes the mask, to m0 its live lanes. -/
theorem setMask_run (hi : CanIssue i s) (d : MReg) (v : Mask) (acts : Bool) :
    (setMask s.cur d v acts).run (noted i s) = if d.val = 0 ∧ maskNew s d v = 0 then (diverge 6, noted i s)
      else (.ok, Upd.apply (noted i s) (.mreg s.cur d.val (maskNew s d v))) := by
  rw [setMask, Prog.run_get, noted_live]
  by_cases hd : d.val = 0
  · have new : maskNew s d v = v &&& (s.warp s.cur).ctl.live &&& Config.laneMask := if_pos hd
    rw [if_pos hd, ← new]
    by_cases hz : maskNew s d v = 0
    · rw [if_pos hz, if_pos ⟨hd, hz⟩, Prog.run_ret]
    · rw [if_neg hz, if_neg (fun h => hz h.2), Prog.run_bind, writeM_unchecked (noted_unchecked hi), hd]; rfl
  · have new : maskNew s d v = v &&& Config.laneMask := if_neg hd
    have same : Upd.apply (noted i s) (.mreg s.cur d.val v) =
        Upd.apply (noted i s) (.mreg s.cur d.val (v &&& Config.laneMask)) := by
      simp only [Upd.apply, BitVec.and_assoc, BitVec.and_self]
    rw [if_neg hd, if_neg (fun h => hd h.1), Prog.run_bind, writeM_unchecked (noted_unchecked hi), same, new]; rfl

theorem maskNew_within_lanes (d : MReg) (v : Mask) : maskNew s d v &&& Config.laneMask = maskNew s d v := by
  unfold maskNew
  split <;> rw [BitVec.and_assoc, BitVec.and_self]

/-- An instruction whose effect writes one mask register writes it and completes. -/
theorem writes_mask (inv : s.Inv = true) (hi : CanIssue i s) (hx : exec i s = next (issue i eff) s) {d : Nat} {x : Mask}
    (hw : x &&& Config.laneMask = x) (he : (eff s.cur).run (noted i s) = (.ok, Upd.apply (noted i s) (.mreg s.cur d x))) :
    Yields i s fun t => Completes i s t ∧ MWrites s t d x := by
  have at_ := Upd.mreg_at (noted i s) s.cur s.cur d x
  rw [if_pos rfl] at at_
  obtain ⟨t, ht, hc, hr⟩ := issue_completes hi he (near_mreg ..) (by rw [at_]) (by rw [at_]; exact noted_stack i s)
  have hcur : t.cur = s.cur := by rw [hc.rest]
  refine ⟨t, by rw [hx, next_eq, ht], hc, ?_, fun n => ?_⟩
  · simp only [State.regsOf, hcur, hr, at_, noted_regs]
  · simp only [State.mreg, hr, at_, noted_regs, hw]
    exact Tab.get_set _ _ _ _ (ok_m (inv_warp inv s.cur))

/-- R51, R227: an instruction whose effect is a mask write gives the mask, or DIVERGE 6. -/
theorem setMask_result {d : MReg} {v : Mask} {acts : Bool} (inv : s.Inv = true) (hi : CanIssue i s)
    (hx : exec i s = next (issue i eff) s)
    (he : (eff s.cur).run (noted i s) = (setMask s.cur d v acts).run (noted i s)) :
    if d.val = 0 ∧ maskNew s d v = 0
    then ∃ u, u.regsOf = s.regsOf ∧ OnlyWarps s u ∧ Faults i s u { cause := .diverge, faddr := 6 }
    else Yields i s fun t => Completes i s t ∧ MWrites s t d.val (maskNew s d v) := by
  rw [setMask_run hi] at he
  split
  · next hz =>
    rw [if_pos hz] at he
    obtain ⟨u, hr, -, ho, hf⟩ := diverges hi hx he
    exact ⟨u, hr, ho, hf⟩
  · next hz =>
    rw [if_neg hz] at he
    exact writes_mask inv hi hx (maskNew_within_lanes d v) he
end

/-- R227: a mask operation acts once for the warp. -/
theorem maskOp_result {i : Instr} {h : Hd} {d : MReg} {v : State → Nat → Mask}
    (hx : ∀ s, exec i s = next (issueU i h fun w => .get fun u => setMask w d (v u w) true) s)
    (hv : ∀ s, v (noted i s) s.cur = v s s.cur) : MResult i (fun s => uniformOn s s.cur h) d fun s => v s s.cur :=
  fun s inv hi _ on => setMask_result inv hi (hx s) (by rw [Prog.run_get, noted_uniformOn, if_pos on, Prog.run_get, hv])

theorem mand_result (o : MBin) : MResult (.mand o) (fun s => uniformOn s s.cur o.hd) o.d fun s =>
    s.mreg s.cur o.a.val &&& s.mreg s.cur o.b.val :=
  maskOp_result (v := fun u w => u.mreg w o.a.val &&& u.mreg w o.b.val) (fun _ => rfl) fun s => by rw [noted_mreg, noted_mreg]

theorem mor_result (o : MBin) : MResult (.mor o) (fun s => uniformOn s s.cur o.hd) o.d fun s =>
    s.mreg s.cur o.a.val ||| s.mreg s.cur o.b.val :=
  maskOp_result (v := fun u w => u.mreg w o.a.val ||| u.mreg w o.b.val) (fun _ => rfl) fun s => by rw [noted_mreg, noted_mreg]

theorem mxor_result (o : MBin) : MResult (.mxor o) (fun s => uniformOn s s.cur o.hd) o.d fun s =>
    s.mreg s.cur o.a.val ^^^ s.mreg s.cur o.b.val :=
  maskOp_result (v := fun u w => u.mreg w o.a.val ^^^ u.mreg w o.b.val) (fun _ => rfl) fun s => by rw [noted_mreg, noted_mreg]

/-- MNOT complements within the lanes, where a mask write keeps nothing else. -/
theorem maskNew_lanes (s : State) (d : MReg) (v : Mask) : maskNew s d (v &&& Config.laneMask) = maskNew s d v := by
  unfold maskNew
  split
  · rw [BitVec.and_assoc, BitVec.and_assoc, BitVec.and_comm Config.laneMask, BitVec.and_assoc, BitVec.and_self,
      ← BitVec.and_assoc]
  · rw [BitVec.and_assoc, BitVec.and_self]

theorem mnot_result (o : MUn) : MResult (.mnot o) (fun s => uniformOn s s.cur o.hd) o.d fun s => ~~~(s.mreg s.cur o.a.val) := by
  intro s inv hi hq on
  have masked := maskOp_result (i := .mnot o) (v := fun u w => ~~~(u.mreg w o.a.val) &&& Config.laneMask) (fun s => rfl)
    (fun s => by rw [noted_mreg]) s inv hi hq on
  simpa only [maskNew_lanes] using masked

/-- R229: VOTE writes a mask with or without a voting lane. -/
theorem vote_result (o : Vote) : MResult (.vote o) (fun _ => true) o.d fun s =>
    s.m0 s.cur &&& s.predMask s.cur o.hd.pr &&& s.predMask s.cur o.a :=
  fun _ inv hi _ _ => setMask_result inv hi rfl (by rw [Prog.run_get, voters, noted_m0, noted_predMask, noted_predMask])

/-! ### Counts (R228) -/

/-- An instruction that writes one uniform register from the state gives the value there. -/
theorem uniformOp_result {i : Instr} {h : Hd} {d : SReg} {f : State → Nat → DWord} {val : State → DWord}
    (hx : ∀ s, exec i s = next (uniformOp i h d f) s) (hf : ∀ s, f (noted i s) s.cur = val s) : UResult i h d val := by
  intro s inv hi on
  obtain ⟨t, ht, hc, hw⟩ := uniformOp_spec (f := f) (d := d) inv hi on
  exact ⟨t, (hx s).trans ht, hc, hf s ▸ hw⟩

theorem mpopc_result (o : MCnt) : UResult (.mpopc o) o.hd o.d fun s =>
    BitVec.ofNat 64 ((List.range 32).countP fun l => (s.mreg s.cur o.a.val).getLsbD l) :=
  uniformOp_result (f := fun u w => BitVec.ofNat 64 (lanesOf (u.mreg w o.a.val)).length) (fun s => rfl)
    fun s => by rw [noted_mreg, List.countP_eq_length_filter]; rfl

/-- What MFIND finds: the lowest or the highest lane of a mask, or all ones in an empty one (R228). -/
def foundLane (hi : Bool) (m : Mask) : DWord :=
  match (if hi then (lanesOf m).getLast? else (lanesOf m).head?) with
  | some k => BitVec.ofNat 64 k
  | none => 0xFFFFFFFFFFFFFFFF

theorem lanesOf_eq_nil {m : Mask} (h : ∀ l, l < 32 → m.getLsbD l = false) : lanesOf m = [] :=
  List.eq_nil_iff_forall_not_mem.2 fun l hl => by
    obtain ⟨lt, bit⟩ := lanesOf_mem.1 hl
    rw [h l lt] at bit
    cases bit

theorem lanesOf_sorted (m : Mask) : (lanesOf m).Pairwise (· < ·) := List.pairwise_lt_range.filter _

theorem foundLane_none {hi : Bool} {m : Mask} (h : ∀ l, l < 32 → m.getLsbD l = false) :
    foundLane hi m = 0xFFFFFFFFFFFFFFFF := by
  simp only [foundLane, lanesOf_eq_nil h, List.getLast?_nil, List.head?_nil, ite_self]

/-- The lane that MFIND finds is the set lane that no other passes. -/
theorem foundLane_some {hi : Bool} {m : Mask} {l : Nat} (hl : l < 32) (hm : m.getLsbD l = true)
    (best : ∀ k, k < 32 → m.getLsbD k = true → if hi then k ≤ l else l ≤ k) : foundLane hi m = BitVec.ofNat 64 l := by
  have mem : l ∈ lanesOf m := lanesOf_mem.2 ⟨hl, hm⟩
  have passes : ∀ k ∈ lanesOf m, if hi then k ≤ l else l ≤ k := fun k hk => best k (lanesOf_mem.1 hk).1 (lanesOf_mem.1 hk).2
  have sorted := lanesOf_sorted m
  cases hi with
  | false =>
    obtain ⟨a, t, hat⟩ := List.exists_cons_of_ne_nil (List.ne_nil_of_mem mem)
    rw [hat] at mem passes sorted
    have first : a = l := by
      rcases List.mem_cons.1 mem with h | h
      · exact h.symm
      · exact absurd (passes a (List.mem_cons_self ..)) (Nat.not_le.2 (List.rel_of_pairwise_cons sorted h))
    simp only [foundLane, hat, Bool.false_eq_true, if_false, List.head?_cons, first]
  | true =>
    obtain ⟨t, a, hat⟩ : ∃ t a, lanesOf m = t ++ [a] := ⟨_, _, (List.dropLast_concat_getLast (List.ne_nil_of_mem mem)).symm⟩
    rw [hat] at mem passes sorted
    have last : a = l := by
      rcases List.mem_append.1 mem with h | h
      · exact absurd (passes a (List.mem_append_right _ (List.mem_cons_self ..)))
          (Nat.not_le.2 ((List.pairwise_append.1 sorted).2.2 l h a (List.mem_cons_self ..)))
      · exact (List.mem_singleton.1 h).symm
    simp only [foundLane, hat, if_true, List.getLast?_concat, last]

theorem mfind_result (o : MCnt) : UResult (.mfind o) o.hd o.d fun s => foundLane o.hi (s.mreg s.cur o.a.val) :=
  uniformOp_result (f := fun u w => foundLane o.hi (u.mreg w o.a.val)) (fun s => rfl) fun s => by rw [noted_mreg]

/-! ### Votes with a predicate result (R229) -/

theorem getLsbD_laneMask (l : Nat) : Config.laneMask.getLsbD l = decide (l < Config.W) := by
  rw [Config.laneMask, BitVec.getLsbD_ofNat, Nat.testBit_two_pow_sub_one]
  by_cases h : l < Config.W
  · rw [decide_eq_true h, decide_eq_true (Nat.lt_trans h (by decide)), Bool.and_self]
  · rw [decide_eq_false h, Bool.and_false]

/-- A mask within the lanes is zero when no lane is set. -/
theorem eq_zero_of_no_lane {m : Mask} (hm : m &&& Config.laneMask = m) (h : ∀ l, l < Config.W → m.getLsbD l = false) : m = 0 := by
  refine BitVec.eq_of_getLsbD_eq fun l _ => ?_
  rw [← hm, BitVec.getLsbD_and, getLsbD_laneMask, show (0 : Mask) = 0#128 from rfl, BitVec.getLsbD_zero]
  by_cases hl : l < Config.W
  · rw [h l hl, Bool.false_and]
  · rw [decide_eq_false hl, Bool.and_false]

/-- Whether a mask within the lanes has one set. -/
theorem ne_zero_eq_any {m : Mask} (hm : m &&& Config.laneMask = m) : (m != 0) = (List.range Config.W).any fun l => m.getLsbD l := by
  rw [Bool.eq_iff_iff, bne_iff_ne, List.any_eq_true]
  constructor
  · refine fun hne => Classical.byContradiction fun none => hne (eq_zero_of_no_lane hm fun l hl => ?_)
    cases set : m.getLsbD l with
    | false => rfl
    | true => exact absurd ⟨l, List.mem_range.2 hl, set⟩ none
  · rintro ⟨l, -, set⟩ rfl
    rw [show (0 : Mask) = 0#128 from rfl, BitVec.getLsbD_zero] at set
    cases set

/-- A predicate result of an unchecked warp changes P[p] alone, in the lanes that receive it; pt discards it (R50). -/
theorem writeP_run {w : Nat} {u : State} (hu : u.checkedWarp w = false) (hp : Tab.sortedFrom 0 (u.warp w).regs.p = true)
    (p : PReg) (lanes val on : Mask) :
    ∃ v, (writeP w p lanes val on).run u = ((), v) ∧ Near w u v ∧
      v.warp w = { u.warp w with regs := { (u.warp w).regs with p := (v.warp w).regs.p } } ∧
      ∀ n l, l < Config.W → ((v.warp w).regs.p.get 0 n).getLsbD l =
        if n = p.val ∧ p.val ≠ 15 ∧ lanes.getLsbD l = true then val.getLsbD l else ((u.warp w).regs.p.get 0 n).getLsbD l := by
  by_cases pt : p.val = 15
  · exact ⟨u, by rw [writeP, if_pos pt, Prog.run_ret], Near.refl .., rfl, fun n l _ => (if_neg fun h => h.2.1 pt).symm⟩
  · generalize hx : (((u.warp w).regs.p.get 0 p.val &&& ~~~lanes) ||| (val &&& lanes)) = x
    have still : (Upd.apply u (.preg w p.val x)).checkedWarp w = false := by rw [(near_preg ..).checkedWarp]; exact hu
    have at_ := Upd.preg_at u w w p.val x
    rw [if_pos rfl] at at_
    refine ⟨Upd.apply u (.preg w p.val x), ?_, near_preg .., by rw [at_], fun n l hl => ?_⟩
    · rw [writeP, if_neg pt, Prog.run_get]; dsimp only; rw [hx, Prog.run_bind, run_updP, foldSig_unchecked still]
    · have wide : l < 128 := Nat.lt_trans hl (by decide)
      rw [at_, Tab.get_set _ _ _ _ hp]
      by_cases hn : n = p.val
      · rw [if_pos hn, hn, ← hx, BitVec.getLsbD_and, getLsbD_laneMask, decide_eq_true hl, Bool.and_true,
          BitVec.getLsbD_or, BitVec.getLsbD_and, BitVec.getLsbD_and, BitVec.getLsbD_not, decide_eq_true wide, Bool.true_and]
        cases lanes.getLsbD l <;> simp [pt]
      · rw [if_neg hn, if_neg fun h => hn h.1]

/-- An instruction whose effect is a predicate write completes with it. -/
theorem writeP_result {s : State} {i : Instr} {eff : Nat → Prog Res} {p : PReg} {lanes val on : Mask} (inv : s.Inv = true)
    (hi : CanIssue i s) (hx : exec i s = next (issue i eff) s)
    (he : (eff s.cur).run (noted i s) = (.ok, ((writeP s.cur p lanes val on).run (noted i s)).2)) :
    Yields i s fun t => Completes i s t ∧ PWrites s t p lanes val.getLsbD := by
  obtain ⟨u, hu, near, hw, hp⟩ := writeP_run (noted_unchecked hi) (by rw [noted_regs]; exact ok_p (inv_warp inv s.cur)) p
    lanes val on
  rw [hu] at he
  obtain ⟨t, ht, hc, hr⟩ := issue_completes hi he near (by rw [hw]) (by rw [hw]; exact noted_stack i s)
  have hcur : t.cur = s.cur := by rw [hc.rest]
  refine ⟨t, by rw [hx, next_eq, ht], hc, ?_, fun n l hl => ?_⟩
  · rw [State.regsOf, hcur, hr, hw, noted_regs]
  · rw [State.regsOf, hcur, hr, hp n l hl, noted_regs]

theorem PWrites.congr {s t : State} {d : PReg} {on : Mask} {val val' : Nat → Bool} (h : PWrites s t d on val)
    (hv : ∀ l, l < Config.W → val l = val' l) : PWrites s t d on val' :=
  ⟨h.1, fun n l hl => by rw [h.2 n l hl, hv l hl]⟩

/-- R229: a vote gives every lane of m0 its one result. -/
theorem votePred_result {i : Instr} {d : PReg} {on : State → Nat → Mask} {r : State → Nat → Bool}
    (hx : ∀ s, exec i s = next (issue i fun w => .get fun s => votePred w d (on s w) (r s w)) s)
    (hr : ∀ s, r (noted i s) s.cur = r s s.cur) : PResult i d (fun s => s.m0 s.cur) fun s _ => r s s.cur := by
  intro s inv hi _
  obtain ⟨t, ht, hc, hw⟩ := writeP_result (p := d) (lanes := s.m0 s.cur)
    (val := if r s s.cur then Config.laneMask else 0) (on := on (noted i s) s.cur) inv hi (hx s)
    (by rw [Prog.run_get, votePred, Prog.run_get, hr, noted_m0, Prog.run_bind, Prog.run_ret])
  refine ⟨t, ht, hc, hw.congr fun l hl => ?_⟩
  dsimp only
  cases r s s.cur
  · exact BitVec.getLsbD_zero
  · exact (getLsbD_laneMask l).trans (decide_eq_true hl)

theorem PResult.congr {i : Instr} {d : PReg} {on : State → Mask} {val val' : State → Nat → Bool} (h : PResult i d on val)
    (hv : ∀ s l, s.Inv = true → val s l = val' s l) : PResult i d on val' := by
  intro s inv hi hq
  obtain ⟨t, ht, hc, hw⟩ := h s inv hi hq
  exact ⟨t, ht, hc, hw.congr fun l _ => hv s l inv⟩

theorem voteAny_result (o : VoteP) : PResult (.voteAny o) o.d (fun s => s.m0 s.cur) fun s _ =>
    (List.range 32).any fun l =>
      (s.m0 s.cur).getLsbD l && (s.predMask s.cur o.hd.pr).getLsbD l && (s.predMask s.cur o.a).getLsbD l := by
  refine (votePred_result (on := fun s w => voters s w o.hd) (r := fun s w => voters s w o.hd &&& s.predMask w o.a != 0)
    (fun s => rfl) fun s => by rw [voters, noted_m0, noted_predMask, noted_predMask]; rfl).congr fun s _ inv => ?_
  have within : voters s s.cur o.hd &&& s.predMask s.cur o.a &&& Config.laneMask
      = voters s s.cur o.hd &&& s.predMask s.cur o.a := by
    rw [voters, BitVec.and_assoc (s.m0 s.cur), m0_part_within_lanes inv]
  rw [ne_zero_eq_any within]
  simp only [voters, BitVec.getLsbD_and, Config.W]

theorem voteAll_result (o : VoteP) : PResult (.voteAll o) o.d (fun s => s.m0 s.cur) fun s _ =>
    (List.range 32).all fun l =>
      !((s.m0 s.cur).getLsbD l && (s.predMask s.cur o.hd.pr).getLsbD l) || (s.predMask s.cur o.a).getLsbD l := by
  refine (votePred_result (on := fun s w => voters s w o.hd) (r := fun s w => voters s w o.hd &&& ~~~(s.predMask w o.a) == 0)
    (fun s => rfl) fun s => by rw [voters, noted_m0, noted_predMask, noted_predMask]; rfl).congr fun s _ inv => ?_
  have within : voters s s.cur o.hd &&& ~~~(s.predMask s.cur o.a) &&& Config.laneMask
      = voters s s.cur o.hd &&& ~~~(s.predMask s.cur o.a) := by
    rw [voters, BitVec.and_assoc (s.m0 s.cur), m0_part_within_lanes inv]
  rw [← Bool.not_not (_ == _), ← bne, ne_zero_eq_any within, List.not_any_eq_all_not,
    Bool.eq_iff_iff, List.all_eq_true, List.all_eq_true]
  refine forall₂_congr fun l hl => ?_
  have wide : l < 128 := Nat.lt_trans (List.mem_range.1 hl) (by decide)
  simp only [voters, BitVec.getLsbD_and, BitVec.getLsbD_not, decide_eq_true wide, Bool.true_and, Bool.not_and, Bool.not_not]

/-- Settles O10: each mask write by the live lanes it leaves, each count by the set lanes, each vote by the voting lanes. -/
theorem masksAndVotes : Obligations.MasksAndVotes :=
  ⟨⟨mand_result, mor_result, mxor_result, mnot_result, vote_result⟩, ⟨mpopc_result, fun o s inv hi on => by
    obtain ⟨t, ht, hc, hw⟩ := mfind_result o s inv hi on
    exact ⟨t, ht, hc, _, hw, foundLane_none, fun _ hl hm best => foundLane_some hl hm best⟩⟩,
   voteAny_result, voteAll_result⟩

end Sys2Proof.Machine
end

section
/-!
PROOFS. Queue registers (R118, R296): an instruction that they serve meets no fault and no wait, takes its lanes' elements
from every engine it reads, and a result that is pushed enters the store engine's queue.
-/
namespace Sys2Proof.Machine

/-! ### Programs -/

/-- A program in sequence, from what its first part is known to do. -/
theorem Prog.run_bind_eq {α β : Type} {p : Prog α} {f : α → Prog β} {s t : State} {a : α} {x : β × State}
    (hp : p.run s = (a, t)) (hf : (f a).run t = x) : (p.bind f).run s = x := by
  rw [Prog.run_bind, hp, hf]

theorem run_mapAll_same {α β : Type} {l : List α} {f : α → Prog β} {g : α → β} {u : State}
    (h : ∀ a ∈ l, (f a).run u = (g a, u)) : (mapAll l f).run u = (l.map g, u) := by
  induction l with
  | nil => rfl
  | cons a t ih =>
    rw [run_mapAll_cons, h a (List.mem_cons_self ..), ih fun b hb => h b (List.mem_cons_of_mem _ hb)]
    rfl

theorem forAll_map {α β : Type} (l : List α) (g : α → β) (f : β → Prog Unit) :
    forAll (l.map g) f = forAll l fun a => f (g a) := by
  induction l with
  | nil => rfl
  | cons a t ih => rw [List.map_cons, forAll, forAll, ih]

theorem nodup_eraseDups : ∀ l : List Nat, l.eraseDups.Nodup
  | [] => by rw [List.eraseDups_nil]; exact List.nodup_nil
  | a :: t => by
    rw [List.eraseDups_cons, List.nodup_cons]
    refine ⟨fun h => ?_, nodup_eraseDups _⟩
    rw [List.mem_eraseDups, List.mem_filter] at h
    simp at h
  termination_by l => l.length
  decreasing_by exact Nat.lt_succ_of_le (List.length_filter_le ..)

/-! ### A write that reaches device memory -/

/-- Changes of warps alone leave where an access leads. -/
theorem HitAt.of_onlyWarps {s u : State} {a : DWord} {n : Nat} {rd wr : Bool} {x : Xl} (h : HitAt s a n rd wr x)
    (hu : OnlyWarps s u) : HitAt u a n rd wr x := by
  unfold OnlyWarps at hu
  generalize u.warps = ws at hu
  subst hu
  exact ⟨h.aligned, h.window, h.own, h.latched, h.entry, h.read, h.write, h.gen⟩

/-- R273: an access that the TLB answers and the permissions allow is located, and nothing changes. -/
theorem locate_hit {s : State} {a : DWord} {n : Nat} {x : Xl} {need : Need} (h : HitAt s a n need.rd need.wr x) :
    (locate (s.whoWarp s.cur) a n need).run s = (.ok (.mem x), s) := by
  obtain ⟨e, found, hx⟩ := h.entry
  have hit : ((s.die x.die).tlb.any fun e => e.hits (s.asidOfWarp s.cur) x.off) = true :=
    List.any_eq_true.2 ⟨e, List.mem_of_find?_eq_some found, by simpa using List.find?_some found⟩
  have aligned : ¬(n ≠ 0 ∧ a.toNat % n ≠ 0) := fun g => g.2 (h.aligned g.1)
  have notWindow : ¬(field a 51 13 = 0x1FFE) := by simpa [inWindow] using h.window
  have translated : (xlateAt (s.whoWarp s.cur).issued (s.whoWarp s.cur).core (s.whoWarp s.cur).world x.die
      (s.whoWarp s.cur).asid x.off).run s = (.ok x, s) := by
    simp [xlateAt, State.whoWarp, xlateFor, xlate, found, hit, ← hx]
  have latched : s.latched x.die (s.whoWarp s.cur).world = true := h.latched
  simpa [locate, aligned, notWindow, h.own, latched, translated, h.gen] using ⟨h.read, h.write⟩

/-! ### The machine while queue registers serve an instruction -/

/-- `u` is `s` while the running warp's instruction is served: the warp's registers are `r`, its block's engines are as `f`
gives, and nothing else changed but the run's own list and free values. -/
structure Serving (s u : State) (f : Nat → Stream) (r : WRegs) : Prop where
  engines : Engines s u f
  others : ∀ w, w ≠ s.cur → u.warp w = s.warp w
  warp : ∃ x, u.warp s.cur = { s.warp s.cur with regs := r, ctl := { s.ctlOf with runOld := x } }

theorem noted_serving (i : Instr) (s : State) : Serving s (noted i s) s.engine s.regsOf where
  engines := by
    have rest := (noted_near i s).rest
    unfold OnlyWarps at rest
    exact ⟨by rw [rest], fun b _ => (noted_near i s).block b, by rw [(noted_near i s).block],
      fun e => by rw [State.engine, noted_cur, (noted_near i s).block]⟩
  others := (noted_near i s).others
  warp := ⟨_, noted_warp i s⟩

section
variable {s u : State} {f : Nat → Stream} {r : WRegs}

theorem Serving.cur (h : Serving s u f r) : u.cur = s.cur := by rw [h.engines.rest]

theorem Serving.engine (h : Serving s u f r) (e : Nat) : (u.block (s.cur / 64)).streams.get {} e = f e := by
  rw [← h.engines.engines e, State.engine, h.cur]

theorem Serving.regs (h : Serving s u f r) : (u.warp s.cur).regs = r := by
  obtain ⟨x, hx⟩ := h.warp
  rw [hx]

theorem Serving.unchecked {i : Instr} (h : Serving s u f r) (hi : CanIssue i s) : u.checkedWarp s.cur = false := by
  rw [h.engines.rest]; exact hi.unchecked

/-- A further change of warps and of the block's engines is one change from the start. -/
theorem Serving.engines_next {v : State} {g : Nat → Stream} (h : Serving s u f r)
    (rest : v = { u with warps := v.warps, blocks := v.blocks, free := v.free })
    (others : ∀ b, b ≠ s.cur / 64 → v.block b = u.block b)
    (mine : v.block (s.cur / 64) = { u.block (s.cur / 64) with streams := (v.block (s.cur / 64)).streams })
    (engines : ∀ e, (v.block (s.cur / 64)).streams.get {} e = g e) : Engines s v g where
  rest := by rw [rest, h.engines.rest]
  others b hb := (others b hb).trans (h.engines.others b hb)
  mine := by rw [mine, h.engines.mine]
  engines e := by
    have : v.cur = s.cur := by rw [rest]; exact h.cur
    rw [State.engine, this, engines]

/-- Changes of the running warp alone leave the engines. -/
theorem Serving.engines_near {v : State} (h : Serving s u f r) (near : Near s.cur u v) : Engines s v f :=
  h.engines_next (by have rest := near.rest; unfold OnlyWarps at rest; rw [rest]) (fun b _ => near.block b)
    (by rw [near.block]) fun e => by rw [near.block]; exact h.engine e

/-- An update of one engine of the block. -/
def engineUpd (b e : Nat) (g : Stream → Stream) : Upd :=
  .block b fun x => { x with streams := x.streams.put e (g (x.streams.get {} e)) }

theorem engineUpd_block (u : State) (b e : Nat) (g : Stream → Stream) : (Upd.apply u (engineUpd b e g)).block b =
    { u.block b with streams := (u.block b).streams.put e (g ((u.block b).streams.get {} e)) } :=
  (Upd.block_at ..).trans (if_pos rfl)

theorem Serving.toEngine (h : Serving s u f r) (e : Nat) (g : Stream → Stream) :
    Serving s (Upd.apply u (engineUpd (s.cur / 64) e g)) (fun k => if k = e then g (f k) else f k) r where
  engines := by
    refine h.engines_next rfl (fun b hb => (Upd.block_at ..).trans (if_neg hb)) (by rw [engineUpd_block]) fun k => ?_
    rw [engineUpd_block]
    refine (Tab.get_put ..).trans ?_
    rw [h.engine, h.engine]
    split
    · next hk => rw [hk]
    · rfl
  others := h.others
  warp := h.warp

/-- The same update of several engines. -/
theorem Serving.toEngines {es : List Nat} (hn : es.Nodup) (h : Serving s u f r) (g : Stream → Stream) :
    ∃ v, (forAll es fun e => upd (engineUpd (s.cur / 64) e g)).run u = ((), v) ∧
      Serving s v (fun k => if k ∈ es then g (f k) else f k) r := by
  induction es generalizing u f with
  | nil => exact ⟨u, rfl, by simpa using h⟩
  | cons e t ih =>
    obtain ⟨he, ht⟩ := List.nodup_cons.1 hn
    obtain ⟨v, hv, hs⟩ := ih ht (h.toEngine e g)
    refine ⟨v, by rw [run_forAll_cons, run_updP, hv], ?_⟩
    have same : (fun k => if k ∈ t then g (if k = e then g (f k) else f k) else if k = e then g (f k) else f k)
        = fun k => if k ∈ e :: t then g (f k) else f k := by
      funext k
      by_cases hk : k = e
      · rw [hk, if_neg he, if_pos rfl, if_pos (List.mem_cons_self ..)]
      · simp only [List.mem_cons, hk, false_or, if_false]
    rwa [same] at hs

/-- Results written in vector registers. -/
theorem Serving.toVector {v : State} (h : Serving s u f r) (hv : VOnly s.cur u v) :
    Serving s v f { r with v := (v.warp s.cur).regs.v } where
  engines := h.engines_near hv.near
  others w hw := (hv.near.others w hw).trans (h.others w hw)
  warp := by
    obtain ⟨x, hx⟩ := h.warp
    exact ⟨x, by rw [hv.warp, hx]⟩

/-- The stream that a queue register is bound to. -/
theorem Serving.streamOf (h : Serving s u f r) (q : Nat) :
    u.streamOf s.cur q = (s.streamOf s.cur q).map fun x => (x.1, f x.1) := by
  obtain ⟨x, hx⟩ := h.warp
  have bound : (u.warp s.cur).ctl.qbind = s.ctlOf.qbind := by rw [hx]
  unfold State.streamOf
  rw [bound]
  cases s.ctlOf.qbind.get 0 q with
  | zero => rfl
  | succ e => exact congrArg (fun y => some (e, y)) (h.engine e)
end

/-! ### The gate (R296) -/

theorem streamOf_engine {s : State} {q e : Nat} {b : Stream} (h : s.streamOf s.cur q = some (e, b)) : b = s.engine e := by
  unfold State.streamOf at h
  split at h
  · cases h
  · cases h; rfl

theorem Serving.qReads {s u : State} {f : Nat → Stream} {r : WRegs} (h : Serving s u f r) (i : Instr) :
    qReads u s.cur i = qReads s s.cur i := by
  unfold Machine.qReads
  simp only [h.streamOf, Option.map_map]
  rfl

theorem noted_qUseOk (i : Instr) (s : State) (x : VRef) (n k : Nat) :
    qUseOk (noted i s) s.cur x n k = qUseOk s s.cur x n k := by
  unfold qUseOk; simp only [noted_streamOf]

/-- The elements of one store engine reach memory, so none has a cause. -/
theorem badPushes_run {s : State} {i : Instr} {q e : Nat} {b : Stream} {ls : List Nat} (hq : s.streamOf s.cur q = some (e, b))
    (takes : Takes s e ls.length) : (badPushes s.cur q ls).run (noted i s) = ([], noted i s) := by
  have hb := streamOf_engine hq
  have located : ∀ x ∈ pushElems (noted i s) s.cur q ls, ∃ l,
      (locate ((noted i s).whoWarp s.cur) x.2.2 b.esize { wr := true, winOk := false }).run (noted i s) = (.ok l, noted i s) := by
    intro x hx
    simp only [pushElems, noted_streamOf, hq, List.mem_map] at hx
    obtain ⟨k, hk, rfl⟩ := hx
    obtain ⟨y, hy⟩ := takes.open_ k.2 (List.snd_lt_of_mem_zipIdx hk)
    rw [← hb] at hy
    have reached := locate_hit (need := { wr := true, winOk := false }) (hy.of_onlyWarps (noted_near i s).rest)
    rw [noted_cur] at reached
    exact ⟨_, reached⟩
  simp only [badPushes, Prog.monad_bind, Prog.monad_pure, Prog.run_bind, run_st, noted_streamOf, hq]
  rw [run_mapAll_same (g := fun _ => none) fun x hx => ?_]
  · simp
  · obtain ⟨l, hl⟩ := located x hx
    rw [Prog.run_bind, hl]
    rfl

theorem badElems_good {ls : List Nat} {es : List Elem} (h : ∀ x ∈ es, ∃ v, x = .val v) : badElems ls es = [] :=
  List.filterMap_eq_nil_iff.2 fun e he => by
    obtain ⟨v, hv⟩ := h e.2 (List.of_mem_zip he).2
    rw [hv]

theorem pushWait_empty {u : State} {w : Nat} {qs : List Nat} (h : ∀ q ∈ qs, ∀ e b, u.streamOf w q = some (e, b) → b.pend = []) :
    (pushWait w qs).run u = (none, u) := by
  have none_waits : (qs.findSome? fun q => (u.streamOf w q).bind fun e =>
      if e.2.pend.isEmpty then none else some (e.1, e.2.pend.length)) = none := by
    rw [List.findSome?_eq_none_iff]
    intro q hq
    cases hb : u.streamOf w q with
    | none => rfl
    | some e => simp [h q hq e.1 e.2 hb]
  rw [pushWait, Prog.run_get, none_waits]
  rfl

theorem takeWhile_all {α : Type} {p : α → Bool} {l : List α} (h : ∀ a ∈ l, p a = true) : l.takeWhile p = l := by
  induction l with
  | nil => rfl
  | cons a t ih =>
    rw [List.takeWhile_cons_of_pos (h a (List.mem_cons_self ..)), ih fun b hb => h b (List.mem_cons_of_mem _ hb)]

/-- An element without a cause. -/
def Elem.isVal : Elem → Bool | .val _ => true | .bad _ _ => false

section
variable {s : State} {i : Instr} {ls : List Nat} (fed : Fed i s ls.length ls.length)
include fed

/-- No use of a queue register is refused; `n` counts the lanes that push to one. -/
theorem fed_uses (n : VRef → Nat) (hn : ∀ x k, x.r = .q k → n x = ls.length) :
    (i.regs.v.find? fun x => !qUseOk (noted i s) s.cur x ls.length (n x)) = none := by
  rw [List.find?_eq_none]
  intro x hx
  have ok : qUseOk s s.cur x ls.length (n x) = true := by
    cases hr : x.r with
    | v m => simp only [qUseOk, hr]
    | q k => rw [hn x k hr]; exact fed.uses x hx
  simp [noted_qUseOk, ok]

/-- No element that a lane would take has a cause. -/
theorem fed_no_bad : ((qReads s s.cur i).map fun e => (e, (s.engine e).ahead)).flatMap
    (fun e => badElems ls (e.2.take ls.length)) = [] := by
  rw [List.flatMap_eq_nil_iff]
  intro e he
  obtain ⟨k, hk, rfl⟩ := List.mem_map.1 he
  exact badElems_good fun x hx => fed.good k hk x (List.mem_of_mem_take hx)

/-- No engine holds too few elements. -/
theorem fed_enough : (((qReads s s.cur i).map fun e => (e, (s.engine e).ahead)).find?
    fun e => decide (e.2.length < ls.length)) = none := by
  rw [List.find?_eq_none]
  intro e he
  obtain ⟨k, hk, rfl⟩ := List.mem_map.1 he
  simpa using fed.enough k hk

/-- No engine has elements to read again. -/
theorem fed_keeps (k : Nat) : (if k ∈ qReads s s.cur i
    then { s.engine k with ahead := (s.engine k).ahead.takeWhile Elem.isVal } else s.engine k) = s.engine k := by
  split
  · next hk =>
    have all : (s.engine k).ahead.takeWhile Elem.isVal = (s.engine k).ahead :=
      takeWhile_all fun x hx => by obtain ⟨v, rfl⟩ := fed.good k hk x hx; rfl
    rw [all]
  · rfl

/-- R296: an instruction that its queue registers serve passes the gate, and the engines hold what they held. -/
theorem qGate_serves (takes : ∀ q ∈ qWrites i, ∃ e b, s.streamOf s.cur q = some (e, b) ∧ Takes s e ls.length) :
    ∃ u, (qGate s.cur i ls fun _ => ls).run (noted i s) = (none, u) ∧ Serving s u s.engine s.regsOf := by
  have start := noted_serving i s
  have ahead (e : Nat) : ((noted i s).block (blockOfWarp s.cur)).streams.get {} e = s.engine e := start.engine e
  obtain ⟨u, hu, hs⟩ := start.toEngines (es := qReads s s.cur i) (nodup_eraseDups _)
    fun t => { t with ahead := t.ahead.takeWhile Elem.isVal }
  rw [funext (fed_keeps fed)] at hs
  refine ⟨u, ?_, hs⟩
  unfold qGate
  refine Prog.run_bind_eq (run_st _) ?_
  dsimp only
  rw [fed_uses fed _ fun x k h => by rw [h]]
  simp only [ahead, start.qReads, fed_no_bad fed, fed_enough fed, List.isEmpty_nil, if_true]
  refine Prog.run_bind_eq (run_mapAll_same (g := fun _ => []) fun q hq => ?_) ?_
  · obtain ⟨e, b, hb, ht⟩ := takes q hq
    exact badPushes_run hb ht
  · rw [forAll_map]
    refine Prog.run_bind_eq hu ?_
    have none_bad : ([] ++ ((qWrites i).map fun _ => ([] : List Bad)).flatten).isEmpty = true := by simp
    rw [if_pos none_bad]
    refine pushWait_empty fun q hq e b hb => ?_
    obtain ⟨e', b', hb', ht⟩ := takes q hq
    rw [hs.streamOf, hb'] at hb
    cases hb
    exact ht.empty
end

/-! ### Delivering results -/

theorem newHold_unchecked {u : State} {w : Nat} (h : u.checkedWarp w = false) : (newHold w).run u = (0, u) := by
  simp [newHold, h]

theorem countLines_unchecked {u : State} {w : Nat} (h : u.checkedWarp w = false) (n : Nat) : (countLines w n).run u = ((), u) := by
  simp [countLines, h]

/-- A store engine after elements have entered its queue. -/
def Stream.enqueue (t : Stream) (p : List PushedElem) (n : Nat) : Stream := { t with pend := t.pend ++ p, pos := t.pos + n }

/-- Elements with the addresses of an engine and the results of lanes (R118). -/
def AddressesResults (t : Stream) (ls : List Nat) (val : Nat → Nat) (p : List PushedElem) : Prop :=
  p.map (fun x => (x.addr, x.val)) =
    ls.zipIdx.map fun x => (t.base + BitVec.ofNat 64 (t.pos + x.2) * t.stride, BitVec.ofNat 64 (val x.1 % 2 ^ (8 * t.esize)))

theorem AddressesResults.length {t : Stream} {ls : List Nat} {val : Nat → Nat} {p : List PushedElem}
    (h : AddressesResults t ls val p) : p.length = ls.length := by
  have := congrArg List.length h
  simpa using this

/-- The results of lanes beside the elements they would push. -/
theorem pushElems_zip {s u : State} {f : Nat → Stream} {r : WRegs} (h : Serving s u f r) {q e : Nat} {b : Stream}
    (hq : s.streamOf s.cur q = some (e, b)) (ls : List Nat) (val : Nat → Nat) :
    (pushElems u s.cur q ((ls.map fun l => (l, val l)).map (·.1))).zip ((ls.map fun l => (l, val l)).map (·.2)) =
      ls.zipIdx.map fun x =>
        ((x.1, (f e).pos + x.2, (f e).base + BitVec.ofNat 64 ((f e).pos + x.2) * (f e).stride), val x.1) := by
  have lanes : (ls.map fun l => (l, val l)).map (·.1) = ls := by rw [List.map_map]; exact List.map_id ls
  have vals : (ls.map fun l => (l, val l)).map (·.2) = ls.zipIdx.map fun x => val x.1 := by
    rw [List.map_map, ← List.zipIdx_map_fst 0 ls, List.map_map]
    simp
  rw [lanes, vals, pushElems, h.streamOf, hq]
  exact List.zip_map' ..

/-- The element that an unchecked warp pushes for a lane: number, address and result, of elements of `esize` bytes (R118). -/
def pushedElem (u : State) (w esize : Nat) (x : (Nat × Nat × DWord) × Nat) : PushedElem :=
  { n := x.1.2.1, addr := x.1.2.2, val := BitVec.ofNat 64 (x.2 % 2 ^ (8 * esize)), seg := (u.warp w).ctl.seg, hold := 0,
    fpc := (u.warp w).ctl.pc, lanes := u.m0 w, turn := u.seqNo }

/-- R118, R296: results pushed to a store engine enter its queue with the engine's next addresses. -/
theorem qPush_serves {s u : State} {f : Nat → Stream} {r : WRegs} {i : Instr} (h : Serving s u f r) (hi : CanIssue i s)
    {q e : Nat} {b : Stream} (hq : s.streamOf s.cur q = some (e, b)) (ls : List Nat) (val : Nat → Nat) :
    ∃ v p, (qPush s.cur q (ls.map fun l => (l, val l))).run u = ((), v) ∧ AddressesResults (f e) ls val p ∧
      Serving s v (fun k => if k = e then (f k).enqueue p ls.length else f k) r := by
  have unchecked := h.unchecked hi
  generalize hp : (ls.zipIdx.map fun x =>
      ((x.1, (f e).pos + x.2, (f e).base + BitVec.ofNat 64 ((f e).pos + x.2) * (f e).stride), val x.1)).map (pushedElem u s.cur (f e).esize) = p
  have results : AddressesResults (f e) ls val p := by
    rw [AddressesResults, ← hp, List.map_map, List.map_map]; rfl
  have hs := h.toEngine e fun t => t.enqueue p p.length
  rw [results.length] at hs
  refine ⟨_, p, ?_, results, hs⟩
  refine Prog.run_bind_eq (run_st _) ?_
  rw [h.streamOf, hq]
  simp only [Option.map_some]
  rw [pushElems_zip h hq]
  refine Prog.run_bind_eq (run_mapAll_same (g := pushedElem u s.cur (f e).esize) fun x _ =>
    Prog.run_bind_eq (newHold_unchecked unchecked) rfl) ?_
  rw [hp]
  refine Prog.run_bind_eq (run_updP _ _) ?_
  rw [← results.length]
  exact countLines_unchecked (by rw [results.length]; exact hs.unchecked hi) _

/-- What follows a result that has been delivered. -/
def andThen (p tail : Prog Res) : Prog Res := p.bind fun r => match r with | .ok => tail | r => .ret r

theorem andThen_run {p tail : Prog Res} {u v : State} (h : p.run u = (.ok, v)) : (andThen p tail).run u = tail.run v :=
  Prog.run_bind_eq h rfl

theorem andThen_ok (p : Prog Res) (u : State) : (andThen p (.ret .ok)).run u = p.run u := by
  rw [andThen, Prog.run_bind]
  generalize p.run u = x
  obtain ⟨r, v⟩ := x
  cases r <;> rfl

/-- A program that ends well and at most leaves other predicates in the running warp, those of `pd`. -/
def EndsWith (s : State) (tail : Prog Res) (pd : Nat → Nat → Bool) : Prop :=
  ∀ v, v.checkedWarp s.cur = false → (v.warp s.cur).regs.p = s.regsOf.p →
    ∃ v', tail.run v = (.ok, v') ∧ Near s.cur v v' ∧
      v'.warp s.cur = { v.warp s.cur with regs := { (v.warp s.cur).regs with p := (v'.warp s.cur).regs.p } } ∧
      ∀ k l, l < Config.W → ((v'.warp s.cur).regs.p.get 0 k).getLsbD l = pd k l

theorem endsWith_ok (s : State) : EndsWith s (.ret .ok) fun k l => (s.regsOf.p.get 0 k).getLsbD l :=
  fun v _ hp => ⟨v, rfl, Near.refl .., rfl, fun k l _ => by rw [hp]⟩

theorem Serving.toPredicates {s u v : State} {f : Nat → Stream} {r : WRegs} (h : Serving s u f r) (near : Near s.cur u v)
    (hw : v.warp s.cur = { u.warp s.cur with regs := { (u.warp s.cur).regs with p := (v.warp s.cur).regs.p } }) :
    Serving s v f { r with p := (v.warp s.cur).regs.p } where
  engines := h.engines_near near
  others w hw := (near.others w hw).trans (h.others w hw)
  warp := by
    obtain ⟨x, hx⟩ := h.warp
    exact ⟨x, by rw [hw, hx]⟩

/-- The engines that an instruction reads, each after n elements were taken. -/
def takenFrom (es : List Nat) (n : Nat) (f : Nat → Stream) (e : Nat) : Stream :=
  if e ∈ es then { f e with ahead := (f e).ahead.drop n, pos := (f e).pos + n } else f e

theorem qPop_serves {s u : State} {f : Nat → Stream} {r : WRegs} (h : Serving s u f r) (i : Instr) (n : Nat) :
    ∃ v, (qPop s.cur i n).run u = ((), v) ∧ Serving s v (takenFrom (qReads s s.cur i) n f) r := by
  obtain ⟨v, hv, hs⟩ := h.toEngines (es := qReads s s.cur i) (nodup_eraseDups _)
    fun t => { t with ahead := t.ahead.drop n, pos := t.pos + n }
  refine ⟨v, ?_, hs⟩
  rw [qPop, Prog.run_get, h.qReads]
  exact hv

/-- What the issue of an instruction that acts per lane runs (R33, R296). -/
def laneEffect (i : Instr) (h : Hd) (eff : Nat → List Nat → Prog Res) (w : Nat) : Prog Res :=
  letI := progMonad
  do
    let s ← st
    match lanesOf (effMask s w h) with
    | [] => pure .ok
    | l :: t => do
      let g ← qGate w i (l :: t) fun _ => l :: t
      match g with
      | some r => pure r
      | none => do
        let r ← eff w (l :: t)
        match r with
        | .ok => do
          qPop w i (t.length + 1)
          pure .ok
        | r => pure r

theorem issueV_eq (i : Instr) (h : Hd) (eff : Nat → List Nat → Prog Res) : issueV i h eff = issue i (laneEffect i h eff) := rfl

/-- R296: an instruction that passes the gate, and whose effect ends well, takes its elements and goes on. -/
theorem issueV_serves {s u v : State} {f : Nat → Stream} {r : WRegs} {i : Instr} {h : Hd} {eff : Nat → List Nat → Prog Res}
    (hi : CanIssue i s) (hx : exec i s = next (issueV i h eff) s) (hl : s.onLanes h ≠ [])
    (gate : (qGate s.cur i (s.onLanes h) fun _ => s.onLanes h).run (noted i s) = (none, u))
    (he : (eff s.cur (s.onLanes h)).run u = (.ok, v)) (hv : Serving s v f r) :
    Yields i s fun t => IssuedAs i s t (nextPc s.ctlOf.pc i) (goesOn i) s.ctlOf ∧
      (t.warp s.cur).stack = (s.warp s.cur).stack ∧ t.regsOf = r ∧
      Engines s t (takenFrom (qReads s s.cur i) (s.onLanes h).length f) := by
  obtain ⟨w, hw, hs⟩ := qPop_serves hv i (s.onLanes h).length
  obtain ⟨x, hctl⟩ := hs.warp
  obtain ⟨l, tl, hlt⟩ := List.exists_cons_of_ne_nil hl
  have effect : (laneEffect i h eff s.cur).run (noted i s) = (.ok, w) := by
    have lanes : lanesOf (effMask (noted i s) s.cur h) = l :: tl := by rw [noted_effMask]; exact hlt
    rw [hlt] at gate he hw
    refine Prog.run_bind_eq (run_st _) ?_
    rw [lanes]
    exact Prog.run_bind_eq gate (Prog.run_bind_eq he (Prog.run_bind_eq hw rfl))
  obtain ⟨t, ht, hn, hr, hst, hiss⟩ := issue_ends (c := s.ctlOf) (eff := laneEffect i h eff) hi effect (.inl ⟨rfl, rfl⟩)
    (hs.unchecked hi) ⟨x, by rw [hctl]⟩ rfl rfl rfl rfl
  have hcur : t.cur = s.cur := hn.cur.trans hs.cur
  refine ⟨t, hx.trans (congrArg Host.Outcome.next (congrArg Prod.snd ht)), hiss hs.others, by rw [hst, hctl], ?_,
    hs.engines_near hn⟩
  rw [State.regsOf, hcur, hr, hs.regs]

/-! ### Instructions that give a result in each lane -/

/-- An engine that an instruction reads, by the queue register that names it. -/
theorem exists_of_mem_qReads {s : State} {i : Instr} {e : Nat} (h : e ∈ qReads s s.cur i) :
    ∃ x ∈ i.regs.v, ∃ n, x.r = .q n ∧ x.rd = true ∧ s.streamOf s.cur n.val = some (e, s.engine e) := by
  rw [qReads, List.mem_eraseDups, List.mem_filterMap] at h
  obtain ⟨x, hx, h⟩ := h
  refine ⟨x, hx, ?_⟩
  split at h
  · next n hr =>
    split at h
    · next hrd =>
      obtain ⟨⟨e', b⟩, hb, rfl⟩ := Option.map_eq_some_iff.1 h
      exact ⟨n, hr, hrd, by rw [hb, streamOf_engine hb]⟩
    · cases h
  · cases h

/-- A queue register that an instruction writes. -/
theorem exists_of_mem_qWrites {i : Instr} {q : Nat} (h : q ∈ qWrites i) :
    ∃ x ∈ i.regs.v, ∃ n, x.r = .q n ∧ x.wr = true ∧ n.val = q := by
  rw [qWrites, List.mem_eraseDups, List.mem_filterMap] at h
  obtain ⟨x, hx, h⟩ := h
  refine ⟨x, hx, ?_⟩
  split at h
  · next n hr =>
    split at h
    · next hwr => exact ⟨n, hr, hwr, Option.some.inj h⟩
    · cases h
  · cases h

/-- An instruction that the gate lets push to a store engine does not read that engine (R296). -/
theorem not_read_of_write {s : State} {i : Instr} {ls : List Nat} (fed : Fed i s ls.length ls.length) {q e : Nat} {b : Stream}
    (hw : q ∈ qWrites i) (hq : s.streamOf s.cur q = some (e, b)) : e ∉ qReads s s.cur i := by
  intro hr
  obtain ⟨x, hx, n, hxr, hrd, hn⟩ := exists_of_mem_qReads hr
  obtain ⟨y, hy, m, hyr, hwr, rfl⟩ := exists_of_mem_qWrites hw
  have load : (s.engine e).store = false := by
    have use := fed.uses x hx
    simp only [qUseOk, hxr, hn, hrd, Bool.not_true, Bool.false_or, Bool.and_eq_true, Bool.not_eq_true'] at use
    exact use.1.2.1
  have store : b.store = true := by
    have use := fed.uses y hy
    simp only [qUseOk, hyr, hq, hwr, Bool.not_true, Bool.false_or, Bool.and_eq_true] at use
    exact use.2.1
  rw [streamOf_engine hq, load] at store
  cases store

/-- A result in vector registers, where queue registers serve the instruction. -/
theorem putRes_register {s u : State} {f : Nat → Stream} {i : Instr} (inv : s.Inv = true) (hi : CanIssue i s)
    (h : Serving s u f s.regsOf) (n : VReg) (words : Nat) (ls : List Nat) (hls : ∀ l ∈ ls, l < 128) (val : Nat → Nat) :
    ∃ v, (putRes s.cur (.v n) words (ls.map fun l => (l, val l))).run u = (.ok, v) ∧
      Serving s v f { s.regsOf with v := (v.warp s.cur).regs.v } ∧
      ∀ r l, l < 128 → v.vreg s.cur r l = if l ∈ ls ∧ n.val ≤ r ∧ r < n.val + words
        then BitVec.ofNat 32 (val l / 2 ^ (32 * (r - n.val))) else s.vreg s.cur r l := by
  obtain ⟨v, hv, only, hr⟩ := putLanes_run s.cur n.val words val ls u hls (by rw [h.regs]; exact ok_v (inv_warp inv s.cur))
  have hs := h.toVector only
  refine ⟨v, ?_, hs, fun r l hl => ?_⟩
  · exact Prog.run_bind_eq (Prog.run_bind_eq hv (foldSig_unchecked (hs.unchecked hi) _)) rfl
  · rw [hr r l hl, State.vreg, h.regs]; rfl

/-- A result pushed to a store engine. -/
theorem putRes_queue {s u : State} {f : Nat → Stream} {r : WRegs} {i : Instr} (h : Serving s u f r) (hi : CanIssue i s)
    {q : Fin 8} {e : Nat} {b : Stream} (hq : s.streamOf s.cur q.val = some (e, b)) (words : Nat) (ls : List Nat) (val : Nat → Nat) :
    ∃ v p, (putRes s.cur (.q q) words (ls.map fun l => (l, val l))).run u = (.ok, v) ∧ AddressesResults (f e) ls val p ∧
      Serving s v (fun k => if k = e then (f k).enqueue p ls.length else f k) r := by
  obtain ⟨v, p, hv, hp, hs⟩ := qPush_serves h hi hq ls val
  exact ⟨v, p, Prog.run_bind_eq hv rfl, hp, hs⟩

/-- The engines after a push to one that is not read and whose queue was empty. -/
theorem takenFrom_enqueue {s : State} {i : Instr} {e n k : Nat} {p : List PushedElem} (he : e ∉ qReads s s.cur i)
    (hp : (s.engine e).pend = []) :
    takenFrom (qReads s s.cur i) n (fun k => if k = e then (s.engine k).enqueue p n else s.engine k) k =
      if k = e then { s.engine e with pos := (s.engine e).pos + n, pend := p } else took i s n k := by
  by_cases hk : k = e
  · rw [takenFrom, hk, if_neg he, if_pos rfl, if_pos rfl, Stream.enqueue, hp]; rfl
  · simp only [takenFrom, took, if_neg hk]

/-- An effect that puts a result in each lane, and then ends as `tail` does. -/
def Puts (s : State) (h : Hd) (d : VOp) (words : Nat) (val : Nat → Nat) (eff : Nat → List Nat → Prog Res)
    (tail : Prog Res) : Prop :=
  ∀ u, Serving s u s.engine s.regsOf → (eff s.cur (s.onLanes h)).run u =
    (andThen (putRes s.cur d words ((s.onLanes h).map fun l => (l, val l))) tail).run u

/-- Once the result is put, the instruction ends with its predicates, its elements taken. -/
theorem puts_ends {s u v : State} {i : Instr} {h : Hd} {d : VOp} {words : Nat} {val : Nat → Nat}
    {eff : Nat → List Nat → Prog Res} {tail : Prog Res} {pd : Nat → Nat → Bool} {f : Nat → Stream} {vs : Tab Word}
    (hi : CanIssue i s) (hx : exec i s = next (issueV i h eff) s) (hl : s.onLanes h ≠ [])
    (he : Puts s h d words val eff tail) (ht : EndsWith s tail pd)
    (gate : (qGate s.cur i (s.onLanes h) fun _ => s.onLanes h).run (noted i s) = (none, u))
    (hu : Serving s u s.engine s.regsOf)
    (put : (putRes s.cur d words ((s.onLanes h).map fun l => (l, val l))).run u = (.ok, v))
    (hv : Serving s v f { s.regsOf with v := vs }) :
    Yields i s fun t => IssuedAs i s t (nextPc s.ctlOf.pc i) (goesOn i) s.ctlOf ∧
      (t.warp s.cur).stack = (s.warp s.cur).stack ∧
      ((t.warp s.cur).regs = { s.regsOf with v := vs, p := (t.warp s.cur).regs.p } ∧
        ∀ k l, l < Config.W → ((t.warp s.cur).regs.p.get 0 k).getLsbD l = pd k l) ∧
      Engines s t (takenFrom (qReads s s.cur i) (s.onLanes h).length f) := by
  obtain ⟨v', hv', near, hw, hp⟩ := ht v (hv.unchecked hi) (by rw [hv.regs])
  obtain ⟨t, hnext, issued, stack, regs, engines⟩ := issueV_serves hi hx hl gate
    ((he u hu).trans ((andThen_run put).trans hv')) (hv.toPredicates near hw)
  have hcur : t.cur = s.cur := by rw [engines.rest]
  rw [State.regsOf, hcur] at regs
  refine ⟨t, hnext, issued, stack, ⟨by rw [regs], fun k l hl => ?_⟩, engines⟩
  rw [regs]
  exact hp k l hl

/-- R296: an instruction with queue registers whose effect puts a result in each lane. -/
theorem queue_result {i : Instr} {h : Hd} {d : VOp} {words : Nat} {R : State → Nat → Nat → Prop}
    {pd : State → Nat → Nat → Bool} {eff : Nat → List Nat → Prog Res} (val : State → Nat → Nat) (tail : State → Prog Res)
    (hx : ∀ s, exec i s = next (issueV i h eff) s) (he : ∀ s, Puts s h d words (val s) eff (tail s))
    (ht : ∀ s, s.Inv = true → EndsWith s (tail s) (pd s))
    (hR : ∀ s, CanIssue i s → ∀ l ∈ s.onLanes h, R s l (val s l)) : QResult i h (some d) words R (pd := pd) := by
  intro s inv hi _ hl ls fed _ ends
  have delivered {t : State} {vs : Tab Word} {f : Nat → Stream}
      (issued : IssuedAs i s t (nextPc s.ctlOf.pc i) (goesOn i) s.ctlOf) (stack : (t.warp s.cur).stack = (s.warp s.cur).stack)
      (regs : (t.warp s.cur).regs = { s.regsOf with v := vs, p := (t.warp s.cur).regs.p })
      (preds : ∀ k l, l < Config.W → ((t.warp s.cur).regs.p.get 0 k).getLsbD l = pd s k l)
      (engines : Engines s t f) : ends t (val s) ∧ t.regsOf.v = vs := by
    have hcur : t.cur = s.cur := by rw [engines.rest]
    have flags (l : Nat) : t.fpsr s.cur l = s.fpsr s.cur l := by rw [State.fpsr, regs]; rfl
    refine ⟨⟨issued, stack, hR s hi, ?_, fun l _ => (flags l).trans (ite_self _).symm, ?_⟩, ?_⟩
    · rw [State.regsOf, hcur, regs]
    · rw [State.regsOf, hcur]; exact preds
    · rw [State.regsOf, hcur, regs]
  refine ⟨nofun, fun n hd nowrites => ?_, fun q e b hd writes hq takes => ?_⟩
  · cases hd
    obtain ⟨u, gate, hu⟩ := qGate_serves fed (by rw [nowrites]; exact fun q hq => absurd hq List.not_mem_nil)
    obtain ⟨v, put, hv, hreg⟩ := putRes_register inv hi hu n words ls lanesOf_lt (val s)
    obtain ⟨t, hnext, issued, stack, ⟨regs, preds⟩, engines⟩ := puts_ends hi (hx s) hl (he s) (ht s inv) gate hu put hv
    refine ⟨t, hnext, val s, (delivered issued stack regs preds engines).1, engines, fun r l hl => ?_⟩
    rw [State.vreg, regs]
    exact hreg r l (Nat.lt_trans hl (by decide))
  · cases hd
    have mem : q.val ∈ qWrites i := by rw [writes]; exact List.mem_singleton_self _
    have queues (p : List PushedElem) (k : Nat) := takenFrom_enqueue (k := k) (n := ls.length) (p := p)
      (not_read_of_write fed mem hq) takes.empty
    obtain ⟨u, gate, hu⟩ := qGate_serves fed fun q' hq' => by
      rw [writes, List.mem_singleton] at hq'
      exact ⟨e, b, hq' ▸ hq, takes⟩
    obtain ⟨v, p, put, hp, hv⟩ := putRes_queue hu hi hq words ls (val s)
    obtain ⟨t, hnext, issued, stack, ⟨regs, preds⟩, engines⟩ := puts_ends (vs := s.regsOf.v) hi (hx s) hl (he s) (ht s inv)
      gate hu put hv
    obtain ⟨hends, hvs⟩ := delivered issued stack regs preds engines
    exact ⟨t, hnext, val s, hends, hvs, p,
      ⟨engines.rest, engines.others, engines.mine, fun k => (engines.engines k).trans (queues p k)⟩, hp⟩

end Sys2Proof.Machine
end

section
/-!
PROOFS. What an instruction that acts lane by lane reads and writes (R33, R202, R203, R296): its operands as one lane sees
them, and its result with and without queue registers.
-/
namespace Sys2Proof.Machine

/-! ### Operands -/

/-- Another state gives the running warp the same registers and streams. -/
structure SameOperands (s u : State) : Prop where
  regs : (u.warp s.cur).regs = (s.warp s.cur).regs
  streams : ∀ q, u.streamOf s.cur q = s.streamOf s.cur q

theorem SameOperands.noted (i : Instr) (s : State) : SameOperands s (noted i s) := ⟨noted_regs i s, noted_streamOf i s⟩

theorem Serving.sameOperands {s u : State} (h : Serving s u s.engine s.regsOf) : SameOperands s u where
  regs := h.regs
  streams q := by
    rw [h.streamOf]
    cases hq : s.streamOf s.cur q with
    | none => rfl
    | some x => rw [Option.map_some, ← streamOf_engine (b := x.2) hq]

section
variable {s u : State} (h : SameOperands s u)
include h

theorem SameOperands.sreg (r : Nat) : u.sreg s.cur r = s.sreg s.cur r := by unfold State.sreg; rw [h.regs]
theorem SameOperands.vreg (r l : Nat) : u.vreg s.cur r l = s.vreg s.cur r l := by unfold State.vreg; rw [h.regs]
theorem SameOperands.predMask (p : PSrc) : u.predMask s.cur p = s.predMask s.cur p := by unfold State.predMask; rw [h.regs]
theorem SameOperands.opnd (ls : List Nat) (r : VOp) (k l : Nat) : u.opnd s.cur ls r k l = s.opnd s.cur ls r k l := by
  cases r with
  | v n => simp only [State.opnd, State.vwide, h.vreg]
  | q n => simp only [State.opnd, h.streams]
theorem SameOperands.srcB (ls : List Nat) (b : SrcB) (k : Nat) (sx : Bool) (l : Nat) :
    u.srcB s.cur ls b k sx l = s.srcB s.cur ls b k sx l := by
  cases b with
  | v r => exact h.opnd ls r k l
  | s r => simp only [State.srcB, h.sreg]
  | imm i => rfl
end

/-- A lane that is alone in `u` finds in the operands of `i` what it finds in `s` among the lanes `ls`. -/
structure LaneSees (i : Instr) (s u : State) (ls : List Nat) (l : Nat) : Prop where
  cur : u.cur = s.cur
  regs : (u.warp s.cur).regs = (s.warp s.cur).regs
  element : ∀ x ∈ i.regs.v, ∀ k, s.opnd s.cur ls x.r k l = u.opnd s.cur [] x.r k l

/-- Without queue registers a lane finds the same whichever lanes act. -/
theorem LaneSees.plain {i : Instr} (hq : i.qRefs = []) (s : State) (ls : List Nat) (l : Nat) : LaneSees i s s ls l :=
  ⟨rfl, rfl, fun x hx k => by obtain ⟨n, hn⟩ := no_q hq x hx; rw [hn]; rfl⟩

theorem get_map {α : Type} {d : α} {g : α → α} (hd : g d = d) (t : Tab α) (k : Nat) :
    Tab.get d (t.map fun e => (e.1, g e.2)) k = g (t.get d k) := by
  induction t with
  | nil => exact hd.symm
  | cons e t ih =>
    rw [List.map_cons, Tab.get_cons, Tab.get_cons, ih]
    split <;> rfl

theorem lane_streamOf (s : State) (ls : List Nat) (l q : Nat) : (s.lane ls l).streamOf s.cur q =
    (s.streamOf s.cur q).map fun x => (x.1, { x.2 with ahead := x.2.ahead.drop (rankOf ls l) }) := by
  have engine (e : Nat) : ((s.lane ls l).block (s.cur / 64)).streams.get {} e =
      { s.engine e with ahead := (s.engine e).ahead.drop (rankOf ls l) } := by
    have mine : (s.lane ls l).block (s.cur / 64) = { s.block (s.cur / 64) with
        streams := (s.block (s.cur / 64)).streams.map fun x => (x.1, { x.2 with ahead := x.2.ahead.drop (rankOf ls l) }) } :=
      Tab.get_put_self ..
    rw [mine]
    exact get_map (g := fun x : Stream => { x with ahead := x.ahead.drop (rankOf ls l) }) (by rw [List.drop_nil]) _ e
  unfold State.streamOf
  rw [show (s.lane ls l).warp s.cur = s.warp s.cur from rfl]
  cases (s.warp s.cur).ctl.qbind.get 0 q with
  | zero => rfl
  | succ e => exact congrArg (fun y => some (e, y)) (engine e)

/-- With queue registers each lane finds its own elements (R296). -/
theorem LaneSees.lane (i : Instr) (s : State) (ls : List Nat) (l : Nat) : LaneSees i s (s.lane ls l) ls l := by
  refine ⟨rfl, rfl, fun x _ k => ?_⟩
  cases x.r with
  | v n => rfl
  | q n =>
    simp only [State.opnd, lane_streamOf]
    cases s.streamOf s.cur n.val with
    | none => rfl
    | some e =>
      simp only [Option.map_some, rankOf, List.filter_nil, List.length_nil, List.getElem?_drop, Nat.add_zero]

section
variable {i : Instr} {s u : State} {ls : List Nat} {l : Nat} (h : LaneSees i s u ls l)
include h

theorem LaneSees.sreg (r : Nat) : s.sreg s.cur r = u.sreg u.cur r := by unfold State.sreg; rw [h.cur, h.regs]
theorem LaneSees.vreg (r k : Nat) : s.vreg s.cur r k = u.vreg u.cur r k := by unfold State.vreg; rw [h.cur, h.regs]
theorem LaneSees.predMask (p : PSrc) : s.predMask s.cur p = u.predMask u.cur p := by
  unfold State.predMask; rw [h.cur, h.regs]
theorem LaneSees.opnd {x : VRef} (hx : x ∈ i.regs.v) (k : Nat) : s.opnd s.cur ls x.r k l = u.opnd u.cur [] x.r k l := by
  rw [h.cur]; exact h.element x hx k
theorem LaneSees.srcB {b : SrcB} {n : Nat} (hb : b.vrefs n ⊆ i.regs.v) (k : Nat) (sx : Bool) :
    s.srcB s.cur ls b k sx l = u.srcB u.cur [] b k sx l := by
  cases b with
  | v r => exact h.opnd (hb (List.mem_singleton_self (rdV r n))) k
  | s r => simp only [State.srcB, h.sreg]
  | imm i => rfl
end

/-! ### Results -/

/-- A result of lanes without queue registers, and what may follow it. -/
theorem plain_result {s : State} {i : Instr} {h : Hd} {n : VReg} {words : Nat} {val : Nat → Nat}
    {eff : Nat → List Nat → Prog Res} {tail : Prog Res} {pd : Nat → Nat → Bool} (inv : s.Inv = true) (hi : CanIssue i s)
    (hq : i.qRefs = []) (hx : exec i s = next (issueV i h eff) s) (he : Puts s h (.v n) words val eff tail)
    (ht : EndsWith s tail pd) (idle : s.onLanes h = [] → ∀ k l, l < Config.W → (s.regsOf.p.get 0 k).getLsbD l = pd k l) :
    Yields i s fun t => Completes i s t ∧
      (∀ r l, l < Config.W → t.vreg s.cur r l = if l ∈ s.onLanes h ∧ n.val ≤ r ∧ r < n.val + words
        then BitVec.ofNat 32 (val l / 2 ^ (32 * (r - n.val))) else s.vreg s.cur r l) ∧
      (∀ k l, l < Config.W → (t.regsOf.p.get 0 k).getLsbD l = pd k l) ∧
      t.regsOf = { s.regsOf with v := t.regsOf.v, p := t.regsOf.p } := by
  by_cases hl : s.onLanes h = []
  · obtain ⟨t, hnext, hc, hr⟩ := issueV_off (eff := eff) hi hl
    have hcur : t.cur = s.cur := by rw [hc.rest]
    refine ⟨t, hx.trans hnext, hc, fun r l _ => ?_, fun k l hlt => ?_, ?_⟩
    · rw [hl, if_neg fun g => List.not_mem_nil g.1, State.vreg, hr]; rfl
    · rw [State.regsOf, hcur, hr]; exact idle hl k l hlt
    · rw [State.regsOf, hcur, hr]
  · have h0 := noted_serving i s
    obtain ⟨u, hrun, hv, hreg⟩ := putLanes_run s.cur n.val words val (s.onLanes h) (noted i s) lanesOf_lt
      (by rw [noted_regs]; exact ok_v (inv_warp inv s.cur))
    have hs := h0.toVector hv
    obtain ⟨v, hend, near, hw, hp⟩ := ht u (hs.unchecked hi) (by rw [hs.regs])
    have put : (putRes s.cur (.v n) words ((s.onLanes h).map fun l => (l, val l))).run (noted i s) = (.ok, u) :=
      Prog.run_bind_eq (Prog.run_bind_eq hrun (foldSig_unchecked (hs.unchecked hi) _)) rfl
    have warp : v.warp s.cur = { (noted i s).warp s.cur with
        regs := { s.regsOf with v := (u.warp s.cur).regs.v, p := (v.warp s.cur).regs.p } } := by
      rw [hw, hv.warp, noted_regs]
    obtain ⟨t, hnext, hc, hr⟩ := issueV_spec hi hq hl ((he _ h0).trans ((andThen_run put).trans hend)) (hv.near.trans near)
      (by rw [warp]) (by rw [warp]; exact noted_stack i s)
    have hcur : t.cur = s.cur := by rw [hc.rest]
    refine ⟨t, hx.trans hnext, hc, fun r l hlt => ?_, fun k l hlt => ?_, ?_⟩
    · rw [State.vreg, hr, warp]
      exact (hreg r l (Nat.lt_trans hlt (by decide))).trans (by rw [noted_vreg])
    · rw [State.regsOf, hcur, hr]; exact hp k l hlt
    · rw [State.regsOf, hcur, hr, warp]

theorem mem_onLanes {s : State} {h : Hd} {l : Nat} : l ∈ s.onLanes h ↔ l < Config.W ∧ (effMask s s.cur h).getLsbD l = true :=
  lanesOf_mem

/-- An instruction that can issue is well formed (R201). -/
theorem CanIssue.wf {i : Instr} {s : State} (h : CanIssue i s) : i.wf = true := by
  have legal := h.checks
  unfold issueCheck at legal
  dsimp only at legal
  split at legal
  · cases legal
  · next ok =>
    rw [Bool.or_eq_true, not_or] at ok
    simpa using ok.1

/-- Its field values are accepted (R187). -/
theorem CanIssue.fieldsOk {i : Instr} {s : State} (h : CanIssue i s) : i.fieldsOk = true := by
  have wf := h.wf
  simp only [Instr.wf, Bool.and_eq_true] at wf
  exact wf.1.1

/-! ### One result in each lane -/

/-- An instruction that computes a V destination from what each lane sees of its operands (R33, R230, R296). -/
theorem vectorOp_rel {i : Instr} {h : Hd} {d : VOp} {words : Nat} {f : State → Nat → List Nat → Nat → Nat}
    {R : State → Nat → Nat → Prop} (hx : ∀ s, exec i s = next (vectorOp i h d words f) s)
    (same : ∀ s u ls l, SameOperands s u → f u s.cur ls l = f s s.cur ls l)
    (sees : ∀ s u ls l, CanIssue i s → LaneSees i s u ls l → R u l (f s s.cur ls l)) : VRel i h d words R := by
  refine ⟨fun s n inv hi hq hd => ?_, ?_⟩
  · subst hd
    obtain ⟨t, ht, hc, hw⟩ := vectorOp_spec (f := f) (words := words) (d := n) inv hi hq
    refine ⟨t, (hx s).trans ht, hc, _, hw, fun l _ _ => ?_⟩
    rw [same s _ _ _ (.noted i s)]
    exact sees s s _ l hi (.plain hq s _ l)
  · refine queue_result (fun s l => f s s.cur (s.onLanes h) l) (fun _ => .ret .ok) hx (fun s u hu => ?_)
      (fun s _ => endsWith_ok s) fun s hi l _ => sees s _ _ l hi (.lane i s _ l)
    have vals : ((s.onLanes h).map fun l => (l, f u s.cur (s.onLanes h) l)) =
        (s.onLanes h).map fun l => (l, f s s.cur (s.onLanes h) l) :=
      List.map_congr_left fun l _ => by rw [same s u _ l hu.sameOperands]
    rw [Prog.run_get, vals, andThen_ok]

/-- The same where the value is a function of the state. -/
theorem VRel.result {i : Instr} {h : Hd} {d : VOp} {words : Nat} {val : State → Nat → Nat}
    (hr : VRel i h d words fun s l x => x = val s l) : VResult i h d words val := by
  refine ⟨fun s n inv hi hq hd => ?_, hr.2⟩
  obtain ⟨t, ht, hc, v, ⟨rest, writes⟩, hv⟩ := hr.1 s n inv hi hq hd
  refine ⟨t, ht, hc, rest, fun r l hl => (writes r l hl).trans ?_⟩
  by_cases on : l < Config.W ∧ (effMask s s.cur h).getLsbD l = true ∧ n.val ≤ r ∧ r < n.val + words
  · rw [if_pos on, if_pos on, hv l on.1 on.2.1]
  · rw [if_neg on, if_neg on]

end Sys2Proof.Machine
end

section
/-!
PROOFS. Bitwise operations, shifts and rotation (R233 to R235), and the moves and LEA (R239 to R241): O13 and O16.
-/
namespace Sys2Proof.Machine

/-! ### Families of instructions -/

section
variable {i : Instr} {s u : State} {ls : List Nat} {l : Nat}

theorem LaneSees.bitsA (h : LaneSees i s u ls l) {r : VOp} {n : Nat} (hx : rdV r n ∈ i.regs.v) (ty : IT) :
    s.opnd s.cur ls r ty.words l = bitsA u ty r l := h.opnd hx ty.words

theorem LaneSees.bitsB (h : LaneSees i s u ls l) {b : SrcB} {n : Nat} (hb : b.vrefs n ⊆ i.regs.v) (ty : IT) :
    s.srcB s.cur ls b ty.words ty.signed l = bitsB u ty b l := h.srcB hb ty.words ty.signed

theorem LaneSees.ctlB (h : LaneSees i s u ls l) {b : SrcB} {n : Nat} (hb : b.vrefs n ⊆ i.regs.v) :
    s.srcB s.cur ls b 1 false l = ctlB u b l := h.srcB hb 1 false
end

theorem vbin_a {o : VBin} {wb wd : Nat} : rdV o.a o.ty.words ∈ (vbin o wb wd).v :=
  List.mem_append_left _ (List.mem_cons_of_mem _ (List.mem_cons_self ..))
theorem vbin_b {o : VBin} {wb wd : Nat} : o.b.vrefs wb ⊆ (vbin o wb wd).v := List.subset_append_right ..
theorem vtri_a {o : VTri} {wb wc wd : Nat} : rdV o.a o.ty.words ∈ (vtri o wb wc wd).v :=
  List.mem_append_left _ (List.mem_cons_of_mem _ (List.mem_cons_self ..))
theorem vtri_c {o : VTri} {wb wc wd : Nat} : rdV o.c wc ∈ (vtri o wb wc wd).v :=
  List.mem_append_left _ (List.mem_cons_of_mem _ (List.mem_cons_of_mem _ (List.mem_cons_self ..)))
theorem vtri_b {o : VTri} {wb wc wd : Nat} : o.b.vrefs wb ⊆ (vtri o wb wc wd).v := List.subset_append_right ..

/-- A V operand is no wider than its registers (R48), and neither is a queue element as an operand (R296). -/
theorem opnd_lt (s : State) (w : Nat) (ls : List Nat) (r : VOp) (k l : Nat) : s.opnd w ls r k l < 2 ^ (32 * k) := by
  cases r with
  | v n =>
    show s.vwide w n.val l k < _
    unfold State.vwide
    induction k with
    | zero => exact Nat.one_pos
    | succ k ih =>
      rw [List.range_succ, List.foldl_append, List.foldl_cons, List.foldl_nil, Nat.mul_succ, Nat.pow_add]
      have word := (s.vreg w (n.val + k) l).isLt
      calc _ < 2 ^ (32 * k) + (s.vreg w (n.val + k) l).toNat * 2 ^ (32 * k) := Nat.add_lt_add_right ih _
        _ = ((s.vreg w (n.val + k) l).toNat + 1) * 2 ^ (32 * k) := by
          rw [Nat.add_mul, Nat.one_mul]; exact Nat.add_comm ..
        _ ≤ 2 ^ 32 * 2 ^ (32 * k) := Nat.mul_le_mul_right _ word
        _ = 2 ^ (32 * k) * 2 ^ 32 := Nat.mul_comm ..
  | q n =>
    have pos : 0 < 2 ^ (32 * k) := Nat.two_pow_pos _
    simp only [State.opnd]
    split
    · exact pos
    · split
      · exact Nat.mod_lt _ pos
      · exact pos

/-- The untyped operands of 32 and 64 bits fill their registers. -/
theorem bits_of_bb {t : IT} (h : t.bb = true) : t.bits = 32 * t.words := by
  revert h
  cases t <;> decide

theorem bitsA_lt {s : State} {t : IT} (h : t.bits = 32 * t.words) (r : VOp) (l : Nat) : bitsA s t r l < 2 ^ t.bits := by
  rw [h]; exact opnd_lt ..

/-- Instructions of sources a and b as bits. -/
theorem bitOp_result {i : Instr} {o : VBin} {g : Nat → Nat → Nat} (hr : i.regs = vbin o o.ty.words o.ty.words)
    (hx : ∀ s, exec i s = next (bitOp i o g) s) : VResult i o.hd o.d o.ty.words fun s l =>
      g (bitsA s o.ty o.a l) (bitsB s o.ty o.b l) % 2 ^ o.ty.bits :=
  (vectorOp_rel hx (fun s u ls l h => by rw [h.opnd, h.srcB]) fun s u ls l _ h => by
    rw [h.bitsA (hr ▸ vbin_a), h.bitsB (hr ▸ vbin_b)]).result

/-- Instructions of source a and a 32-bit source b. -/
theorem ctlOp_rel {i : Instr} {o : VBin} {g : Nat → Nat → Nat} {R : Nat → Nat → Nat → Prop} (hr : i.regs = vbin o 1 o.ty.words)
    (hx : ∀ s, exec i s = next (ctlOp i o g) s)
    (hR : i.fieldsOk = true → ∀ a n, (o.ty.bits = 32 * o.ty.words → a < 2 ^ o.ty.bits) → R a n (g a n % 2 ^ o.ty.bits)) :
    VRel i o.hd o.d o.ty.words fun s l x => R (bitsA s o.ty o.a l) (ctlB s o.b l) x :=
  vectorOp_rel hx (fun s u ls l h => by rw [h.opnd, h.srcB]) fun s u ls l hi h => by
    rw [h.bitsA (hr ▸ vbin_a), h.ctlB (hr ▸ vbin_b)]
    exact hR hi.fieldsOk _ _ fun h => bitsA_lt h _ _

/-- The same where the value is a function of the two. -/
theorem ctlOp_result {i : Instr} {o : VBin} {g val : Nat → Nat → Nat} (hr : i.regs = vbin o 1 o.ty.words)
    (hx : ∀ s, exec i s = next (ctlOp i o g) s)
    (hv : i.fieldsOk = true → ∀ a n, (o.ty.bits = 32 * o.ty.words → a < 2 ^ o.ty.bits) → g a n % 2 ^ o.ty.bits = val a n) :
    VResult i o.hd o.d o.ty.words fun s l => val (bitsA s o.ty o.a l) (ctlB s o.b l) :=
  (ctlOp_rel (R := fun a n x => x = val a n) hr hx hv).result

/-- Instructions of source a alone. -/
theorem unOp_result {i : Instr} {o : VUn} {words : Nat} {g : Nat → Nat} (ha : rdV o.a o.ty.words ∈ i.regs.v)
    (hx : ∀ s, exec i s = next (unOp i o words g) s) : VResult i o.hd o.d words fun s l => g (bitsA s o.ty o.a l) :=
  (vectorOp_rel hx (fun s u ls l h => by rw [h.opnd]) fun s u ls l _ h => by rw [h.bitsA ha]).result

/-! ### Shifts and rotation (R234) -/

theorem shlBits_mod (w a n : Nat) : shlBits w a n % 2 ^ w = a * 2 ^ n % 2 ^ w := by
  unfold shlBits
  split
  · exact Nat.mod_mod ..
  · next h =>
    rw [Nat.zero_mod]
    exact (Nat.mod_eq_zero_of_dvd (Nat.dvd_mul_left_of_dvd (Nat.pow_dvd_pow 2 (Nat.not_lt.1 h)) a)).symm

theorem shrBits_mod {w a n : Nat} (ha : a < 2 ^ w) : shrBits w a n % 2 ^ w = a / 2 ^ n := by
  unfold shrBits
  split
  · exact Nat.mod_eq_of_lt (Nat.lt_of_le_of_lt (Nat.div_le_self ..) ha)
  · next h =>
    rw [Nat.zero_mod, Nat.div_eq_of_lt]
    exact Nat.lt_of_lt_of_le ha (Nat.pow_le_pow_right (by decide) (Nat.not_lt.1 h))

theorem wrInt_lt (w : Nat) (x : Int) : wrInt w x < 2 ^ w := by
  have pos : (0 : Int) < (2 ^ w : Nat) := Int.natCast_pos.2 (Nat.two_pow_pos w)
  have below := Int.emod_lt_of_pos x pos
  have nonneg := Int.emod_nonneg x (Int.ne_of_gt pos)
  unfold wrInt
  omega

theorem cast_two_pow (w : Nat) : ((2 ^ w : Nat) : Int) = 2 ^ w := Int.natCast_pow 2 w

theorem wrInt_eq (w : Nat) (x : Int) : wrInt w x = (x % 2 ^ w).toNat := by
  rw [wrInt, cast_two_pow]

theorem sraBits_mod (w a n : Nat) : sraBits w a n % 2 ^ w = (signed w a / 2 ^ min n (w - 1) % 2 ^ w).toNat := by
  rw [sraBits, Nat.mod_eq_of_lt (wrInt_lt ..), wrInt_eq, cast_two_pow]

/-- The rotation takes bit i of A to bit i + n modulo w. -/
theorem rotBits_testBit {w a n i : Nat} (ha : a < 2 ^ w) (hi : i < w) :
    (rotBits w a n % 2 ^ w).testBit ((i + n) % w) = a.testBit i := by
  have hk : n % w < w := Nat.mod_lt _ (by omega)
  have place : (i + n) % w = if i + n % w < w then i + n % w else i + n % w - w := by
    rw [← Nat.add_mod_mod]
    split
    · next fits => exact Nat.mod_eq_of_lt fits
    · next past => rw [Nat.mod_eq_sub_mod (Nat.not_lt.1 past), Nat.mod_eq_of_lt (by omega)]
  have low : a / 2 ^ (w - n % w) < 2 ^ (n % w) := by
    rw [Nat.div_lt_iff_lt_mul (Nat.two_pow_pos _), ← Nat.pow_add]
    rwa [Nat.add_sub_cancel' (Nat.le_of_lt hk)]
  rw [rotBits, Nat.mod_mod, Nat.testBit_mod_two_pow, decide_eq_true (Nat.mod_lt _ (by omega)), Bool.true_and, Nat.mul_comm a,
    Nat.testBit_two_pow_mul_add a low, place]
  by_cases fits : i + n % w < w
  · rw [if_pos fits, if_neg (by omega), Nat.add_sub_cancel]
  · rw [if_neg fits, if_pos (by omega), Nat.testBit_div_two_pow]
    congr 1; omega

/-! ### LUT3 (R233) -/

theorem lut3_fold (lut : BitVec 8) (a b c : Word) (i : Nat) (hi : i < 32) (ks : List Nat) (r : Word) :
    (ks.foldl (fun r k => if lut.getLsbD k then
        r ||| ((if k % 2 = 1 then a else ~~~a) &&& (if k / 2 % 2 = 1 then b else ~~~b) &&& (if k / 4 = 1 then c else ~~~c))
      else r) r).getLsbD i =
    (r.getLsbD i || ks.any fun k => lut.getLsbD k &&
      (((k % 2 == 1) == a.getLsbD i) && ((k / 2 % 2 == 1) == b.getLsbD i) && ((k / 4 == 1) == c.getLsbD i))) := by
  induction ks generalizing r with
  | nil => simp
  | cons k t ih =>
    have entry (p : Prop) [Decidable p] (x : Word) : (if p then x else ~~~x).getLsbD i = (decide p == x.getLsbD i) := by
      by_cases hp : p <;> simp [hp, hi]
    rw [List.foldl_cons, ih, List.any_cons, ← Bool.or_assoc]
    congr 1
    cases lut.getLsbD k with
    | false => simp
    | true => simp only [if_true, BitVec.getLsbD_or, BitVec.getLsbD_and, entry, Bool.true_and, Bool.beq_eq_decide_eq]

theorem lut3Word_getLsbD (lut : BitVec 8) (a b c : Word) {i : Nat} (hi : i < 32) :
    (lut3Word lut a b c).getLsbD i =
      lut.getLsbD ((a.getLsbD i).toNat + 2 * (b.getLsbD i).toNat + 4 * (c.getLsbD i).toNat) := by
  rw [lut3Word, lut3_fold _ _ _ _ _ hi]
  cases a.getLsbD i <;> cases b.getLsbD i <;> cases c.getLsbD i <;> simp [List.range_succ]

theorem vnot_result (o : VUn) : VResult (.vnot o) o.hd o.d o.ty.words fun s l =>
    2 ^ o.ty.bits - 1 - bitsA s o.ty o.a l % 2 ^ o.ty.bits :=
  unOp_result (g := fun a => 2 ^ o.ty.bits - 1 - a % 2 ^ o.ty.bits) (List.mem_cons_of_mem _ (List.mem_cons_self ..)) fun _ => rfl

theorem lut3_result (o : Lut3) : VRel (.lut3 o) o.hd o.d 1 fun s l x => ∀ i, i < 32 →
    x.testBit i = o.lut.getLsbD (((bitsA s .b32 o.a l).testBit i).toNat + 2 * ((ctlB s o.b l).testBit i).toNat
      + 4 * ((s.vreg s.cur o.c.val l).getLsbD i).toNat) := by
  refine vectorOp_rel (fun s => rfl) (fun s u ls l h => by rw [h.opnd, h.srcB, h.vreg]) fun s u ls l _ h i hi => ?_
  have a : rdV o.a 1 ∈ (Instr.lut3 o).regs.v := List.mem_append_left _ (List.mem_cons_of_mem _ (List.mem_cons_self ..))
  have b : o.b.vrefs 1 ⊆ (Instr.lut3 o).regs.v := List.subset_append_right ..
  have first : s.opnd s.cur ls o.a 1 l = bitsA u .b32 o.a l := h.opnd a 1
  have bit (x : Nat) : (BitVec.ofNat 32 x).getLsbD i = x.testBit i := by
    rw [BitVec.getLsbD_ofNat, decide_eq_true hi, Bool.true_and]
  rw [BitVec.testBit_toNat, lut3Word_getLsbD _ _ _ _ hi, bit, bit, first, h.ctlB b, h.vreg]

theorem shr_result (o : VBin) : VResult (.shr o) o.hd o.d o.ty.words fun s l => bitsA s o.ty o.a l / 2 ^ ctlB s o.b l :=
  ctlOp_result (val := fun a n => a / 2 ^ n) rfl (fun _ => rfl) fun ok a n ha => by
    simp only [Instr.fieldsOk, Bool.and_eq_true] at ok
    exact shrBits_mod (ha (bits_of_bb ok.1))

theorem shl_result (o : VBin) : VResult (.shl o) o.hd o.d o.ty.words fun s l =>
    bitsA s o.ty o.a l * 2 ^ ctlB s o.b l % 2 ^ o.ty.bits :=
  ctlOp_result (val := fun a n => a * 2 ^ n % 2 ^ o.ty.bits) rfl (fun _ => rfl) fun _ _ _ _ => shlBits_mod ..

theorem sra_result (o : VBin) : VResult (.sra o) o.hd o.d o.ty.words fun s l =>
    (signed o.ty.bits (bitsA s o.ty o.a l) / 2 ^ min (ctlB s o.b l) (o.ty.bits - 1) % 2 ^ o.ty.bits).toNat :=
  ctlOp_result (val := fun a n => (signed o.ty.bits a / 2 ^ min n (o.ty.bits - 1) % 2 ^ o.ty.bits).toNat) rfl (fun _ => rfl)
    fun _ _ _ _ => sraBits_mod ..

theorem rot_result (o : VBin) : VRel (.rot o) o.hd o.d o.ty.words fun s l x => x < 2 ^ o.ty.bits ∧
    ∀ i, i < o.ty.bits → x.testBit ((i + ctlB s o.b l) % o.ty.bits) = (bitsA s o.ty o.a l).testBit i :=
  ctlOp_rel (R := fun a n x => x < 2 ^ o.ty.bits ∧ ∀ i, i < o.ty.bits → x.testBit ((i + n) % o.ty.bits) = a.testBit i)
    rfl (fun _ => rfl) fun ok a n ha => by
    simp only [Instr.fieldsOk, Bool.and_eq_true] at ok
    exact ⟨Nat.mod_lt _ (Nat.two_pow_pos _), fun i hi => rotBits_testBit (ha (bits_of_bb ok.1)) hi⟩

theorem shf_result (o : VTri) : VResult (.shf o) o.hd o.d o.ty.words fun s l =>
    shfBits o.ty.bits o.left (bitsA s o.ty o.c l) (bitsA s o.ty o.a l) (ctlB s o.b l) :=
  (vectorOp_rel (fun s => rfl) (fun s u ls l h => by rw [h.opnd, h.opnd, h.srcB]) fun s u ls l _ h => by
    rw [h.bitsA (r := o.c) vtri_c, h.bitsA (r := o.a) vtri_a, h.ctlB vtri_b]).result

/-- Settles O13: each instruction by its operands as bits, LUT3 and ROT bit by bit. -/
theorem bitwiseAndShifts : Obligations.BitwiseAndShifts :=
  ⟨fun _ => bitOp_result rfl fun _ => rfl, fun _ => bitOp_result rfl fun _ => rfl, fun _ => bitOp_result rfl fun _ => rfl,
    vnot_result, lut3_result,
    shl_result, shr_result, sra_result, rot_result, shf_result⟩

theorem sel_result (o : Sel) : VResult (.sel o) o.hd o.d o.ty.words fun s l =>
    if (s.predMask s.cur o.q).getLsbD l then bitsA s o.ty o.a l else bitsB s o.ty o.b l :=
  (vectorOp_rel (fun s => rfl) (fun s u ls l h => by rw [h.predMask, h.opnd, h.srcB]) fun s u ls l _ h => by
    have a : rdV o.a o.ty.words ∈ (Instr.sel o).regs.v := List.mem_append_left _ (List.mem_cons_of_mem _ (List.mem_cons_self ..))
    have b : o.b.vrefs o.ty.words ⊆ (Instr.sel o).regs.v := List.subset_append_right ..
    rw [h.predMask, h.bitsA a, h.bitsB b]).result

theorem mov_result (o : Mov) : VResult (.mov o) o.hd o.d o.ty.words fun s l => match o.src with
    | .v r => bitsA s o.ty r l
    | .s r => (s.sreg s.cur r.val).toNat % 2 ^ o.ty.bits := by
  obtain ⟨hd, ty, d, src⟩ := o
  cases src with
  | v r => exact (vectorOp_rel (f := fun s w ls l => s.opnd w ls r ty.words l) (fun s => rfl) (fun s u ls l h => h.opnd ..)
      fun s u ls l _ h => h.bitsA (List.mem_cons_of_mem _ (List.mem_cons_self ..)) ty).result
  | s r => exact (vectorOp_rel (f := fun s w ls l => (s.sreg w r.val).toNat % 2 ^ ty.bits) (fun s => rfl)
      (fun s u ls l h => by rw [h.sreg]) fun s u ls l _ h => by rw [h.sreg]).result

/-- R240: the immediate of MOVI at the destination's width. -/
theorem moveImm_mod (v : MovImm) : (moveImm v).toNat % 2 ^ (32 * v.words) = match v with
    | .short ty i => (if ty.signed then (i.signExtend 64).toNat else i.toNat) % 2 ^ (32 * ty.words)
    | .long i => i.toNat := by
  cases v with
  | short ty i =>
    have fits : extImm ty.signed i < 2 ^ 64 := by
      unfold extImm
      split
      · exact (i.signExtend 64).isLt
      · exact Nat.lt_trans i.isLt (by decide)
    show (BitVec.ofNat 64 (extImm ty.signed i)).toNat % _ = _
    rw [BitVec.toNat_ofNat, Nat.mod_eq_of_lt fits]; rfl
  | long i => exact Nat.mod_eq_of_lt i.isLt

theorem movi_result (o : Movi) : VResult (.movi o) o.hd o.d o.v.words fun _ _ => match o.v with
    | .short ty i => (if ty.signed then (i.signExtend 64).toNat else i.toNat) % 2 ^ (32 * ty.words)
    | .long i => i.toNat :=
  (vectorOp_rel (fun _ => rfl) (fun _ _ _ _ _ => rfl) fun _ _ _ _ _ _ => moveImm_mod o.v).result

/-! ### LEA (R241) -/

/-- The index of LEA, as the rule gives it by type and operand. -/
def leaOffset (s : State) (o : Lea) (l : Nat) : Int :=
  if o.ty = .s32 then (BitVec.ofNat 32 (ctlB s o.b l)).toInt
  else if o.ty = .n32 then (ctlB s o.b l : Int)
  else match o.b with
    | .v _ => (bitsB s .b64 o.b l : Int)
    | .s r => ((s.sreg s.cur r.val).toNat : Int)
    | .imm i => i.toInt

theorem signed_eq_toInt (x : Nat) : signed 32 x = (BitVec.ofNat 32 x).toInt := by
  rw [signed, BitVec.toInt_eq_toNat_cond, BitVec.toNat_ofNat]
  split <;> split <;> omega

theorem ctlB_lt (s : State) (b : SrcB) (l : Nat) : ctlB s b l < 2 ^ 32 := by
  cases b with
  | v r => exact opnd_lt s s.cur [] r 1 l
  | s r => exact Nat.mod_lt _ (by decide)
  | imm i => exact i.isLt

/-- R241: the index that LEA scales is, modulo 2^64, the one its type and operand give. -/
theorem leaIndex_emod {s u : State} {o : Lea} {ls : List Nat} {l : Nat} (hi : CanIssue (.lea o) s)
    (h : LaneSees (.lea o) s u ls l) : leaIndex s s.cur ls o l % 2 ^ 64 = leaOffset u o l % 2 ^ 64 := by
  have b : o.b.vrefs (if o.ty = .b64 then 2 else 1) ⊆ (Instr.lea o).regs.v := List.subset_append_right ..
  have ty := hi.fieldsOk
  simp only [Instr.fieldsOk, decide_eq_true_eq, List.mem_cons, List.not_mem_nil, or_false] at ty
  unfold leaIndex leaOffset
  rcases ty with ty | ty | ty
  · rw [if_neg (by rw [ty]; decide), if_pos ty, h.ctlB b, ty]
    exact congrArg (· % _) (signed_eq_toInt _)
  · rw [if_neg (by rw [ty]; decide), if_neg (by rw [ty]; decide), if_pos ty, h.ctlB b, ty]
    exact congrArg (fun x : Nat => (x : Int) % _) (Nat.mod_eq_of_lt (ctlB_lt ..))
  · rw [if_pos ty, if_neg (by rw [ty]; decide), if_neg (by rw [ty]; decide), h.srcB b]
    split
    · next hb => rw [hb]; rfl
    · next r hb =>
      rw [hb]
      exact congrArg (fun x : Nat => (x : Int) % _) (Nat.mod_eq_of_lt (u.sreg u.cur r.val).isLt)
    · next i hb =>
      have wide : ((i.signExtend 64).toNat : Int) = i.toInt % 2 ^ 64 := by
        rw [BitVec.signExtend, BitVec.toNat_ofInt, Int.toNat_of_nonneg (Int.emod_nonneg _ (by decide))]; rfl
      rw [hb]
      show ((i.signExtend 64).toNat : Int) % 2 ^ 64 = _
      rw [wide]
      exact Int.emod_emod ..

/-- What is the same modulo m is so scaled and added to a base. -/
theorem emod_add_mul {x y m : Int} (h : x % m = y % m) (a c : Int) : (a + x * c) % m = (a + y * c) % m := by
  rw [Int.add_emod, Int.mul_emod, h, ← Int.mul_emod, ← Int.add_emod]

theorem lea_result (o : Lea) : VResult (.lea o) o.hd o.d 2 fun s l =>
    (((bitsA s .b64 o.a l : Int) + leaOffset s o l * 2 ^ o.sh.val) % 2 ^ 64).toNat := by
  refine (vectorOp_rel (fun s => rfl) (fun s u ls l h => by simp only [leaIndex, h.opnd, h.srcB])
    fun s u ls l hi h => ?_).result
  have a : rdV o.a 2 ∈ (Instr.lea o).regs.v := List.mem_append_left _ (List.mem_cons_of_mem _ (List.mem_cons_self ..))
  have base : s.opnd s.cur ls o.a 2 l = bitsA u .b64 o.a l := h.opnd a 2
  rw [wrInt_eq, base, cast_two_pow]
  exact congrArg Int.toNat (emod_add_mul (leaIndex_emod hi h) ..)

/-- Settles O16: each instruction by its operands, LEA by the index that its type gives. -/
theorem movesAndAddresses : Obligations.MovesAndAddresses := ⟨sel_result, mov_result, movi_result, lea_result⟩

end Sys2Proof.Machine
end

section
/-!
PROOFS. IADDC with its carry, and IMADW (R231, R232): O12.
-/
namespace Sys2Proof.Machine

/-! ### Masks of lists of lanes -/

theorem foldl_or_testBit (ls : List Nat) (a k : Nat) :
    (ls.foldl (fun a n => a ||| 2 ^ n) a).testBit k = (a.testBit k || decide (k ∈ ls)) := by
  induction ls generalizing a with
  | nil => simp
  | cons n t ih =>
    rw [List.foldl_cons, ih, Nat.testBit_or, Nat.testBit_two_pow, Bool.or_assoc, ← Bool.decide_or]
    congr 1
    simp only [List.mem_cons, eq_comm]

theorem getLsbD_maskOf (ls : List Nat) {l : Nat} (h : l < 128) : (maskOf ls).getLsbD l = decide (l ∈ ls) := by
  rw [maskOf, BitVec.getLsbD_ofNat, decide_eq_true h, Bool.true_and, foldl_or_testBit, Nat.zero_testBit, Bool.false_or]

/-! ### IADDC (R231) -/

/-- The sum with the carry predicate, of one lane among those that act. -/
def carrySum (o : Iaddc) (s : State) (ls : List Nat) (l : Nat) : Nat :=
  s.opnd s.cur ls o.a o.ty.words l + s.srcB s.cur ls o.b o.ty.words o.ty.signed l
    + (o.cien && (s.predMask s.cur ⟨false, o.ci⟩).getLsbD l).toNat

/-- The same of a lane alone. -/
def carrySum1 (o : Iaddc) (s : State) (l : Nat) : Nat :=
  bitsA s o.ty o.a l + bitsB s o.ty o.b l + (o.cien && (s.predMask s.cur ⟨false, o.ci⟩).getLsbD l).toNat

theorem carrySum_sees {o : Iaddc} {s u : State} {ls : List Nat} {l : Nat} (h : LaneSees (.iaddc o) s u ls l) :
    carrySum o s ls l = carrySum1 o u l := by
  have a : rdV o.a o.ty.words ∈ (Instr.iaddc o).regs.v := List.mem_append_left _ (List.mem_cons_of_mem _ (List.mem_cons_self ..))
  have b : o.b.vrefs o.ty.words ⊆ (Instr.iaddc o).regs.v := List.subset_append_right ..
  rw [carrySum, h.bitsA a, h.bitsB b, h.predMask, carrySum1]

/-- The carry out of the sums of lanes, in the lanes with effect. -/
def carryOut (o : Iaddc) (s : State) (ls : List Nat) : Prog Res :=
  .bind (writeP s.cur o.co (maskOf ls) (maskOf (ls.filter fun l => decide (2 ^ o.ty.bits ≤ carrySum o s ls l)))) fun _ => .ret .ok

theorem carryOut_ends {o : Iaddc} {s : State} (inv : s.Inv = true) (ls : List Nat) :
    EndsWith s (carryOut o s ls) fun k l => if k = o.co.val ∧ o.co.val ≠ 15 ∧ l ∈ ls
      then decide (2 ^ o.ty.bits ≤ carrySum o s ls l) else (s.regsOf.p.get 0 k).getLsbD l := by
  intro v hv hp
  obtain ⟨v', run, near, hw, bits⟩ := writeP_run hv (by rw [hp]; exact ok_p (inv_warp inv s.cur)) o.co (maskOf ls)
    (maskOf (ls.filter fun l => decide (2 ^ o.ty.bits ≤ carrySum o s ls l))) (maskOf ls)
  refine ⟨v', Prog.run_bind_eq run rfl, near, hw, fun k l hl => ?_⟩
  have wide : l < 128 := Nat.lt_trans hl (by decide)
  rw [bits k l hl, getLsbD_maskOf _ wide, getLsbD_maskOf _ wide, hp]
  by_cases hm : l ∈ ls <;> simp [hm]

/-- The effect of IADDC puts the sums modulo 2^w, and the carries out follow. -/
theorem iaddc_puts (o : Iaddc) : ∃ eff, (∀ s, exec (.iaddc o) s = next (issueV (.iaddc o) o.hd eff) s) ∧
    ∀ s, Puts s o.hd o.d o.ty.words (fun l => carrySum o s (s.onLanes o.hd) l % 2 ^ o.ty.bits) eff
      (carryOut o s (s.onLanes o.hd)) := by
  refine ⟨_, fun s => rfl, fun s u hu => ?_⟩
  have same := hu.sameOperands
  have carry (l : Nat) : (if o.cien = true then s.predMask s.cur ⟨false, o.ci⟩ else 0).getLsbD l =
      (o.cien && (s.predMask s.cur ⟨false, o.ci⟩).getLsbD l) := by
    cases o.cien
    · exact BitVec.getLsbD_zero
    · rfl
  simp only [Prog.run_get, same.opnd, same.srcB, same.predMask, carry]
  rfl

/-- R231: IADDC with vector registers alone. -/
theorem iaddc_plain {o : Iaddc} {s : State} {n : VReg} (inv : s.Inv = true) (hi : CanIssue (.iaddc o) s)
    (hq : (Instr.iaddc o).qRefs = []) (hd : o.d = .v n) :
    Yields (.iaddc o) s fun t => Completes (.iaddc o) s t ∧
      (∀ r l, l < 32 → t.vreg s.cur r l =
        if (effMask s s.cur o.hd).getLsbD l = true ∧ n.val ≤ r ∧ r < n.val + o.ty.words
        then BitVec.ofNat 32 (carrySum1 o s l % 2 ^ o.ty.bits / 2 ^ (32 * (r - n.val))) else s.vreg s.cur r l) ∧
      (∀ k l, l < 32 → (t.regsOf.p.get 0 k).getLsbD l =
        if k = o.co.val ∧ o.co.val ≠ 15 ∧ (effMask s s.cur o.hd).getLsbD l = true
        then decide (2 ^ o.ty.bits ≤ carrySum1 o s l) else (s.regsOf.p.get 0 k).getLsbD l) ∧
      t.regsOf = { s.regsOf with v := t.regsOf.v, p := t.regsOf.p } := by
  obtain ⟨eff, hx, puts⟩ := iaddc_puts o
  have puts := puts s
  rw [hd] at puts
  obtain ⟨t, ht, hc, hv, hp, hr⟩ := plain_result inv hi hq (hx s) puts (carryOut_ends inv _) fun hl k l _ => by
    rw [if_neg]; rw [hl]; exact fun g => List.not_mem_nil g.2.2
  have sums (l : Nat) : carrySum o s (s.onLanes o.hd) l = carrySum1 o s l := carrySum_sees (.plain hq s _ l)
  have on {l : Nat} (hl : l < 32) : l ∈ s.onLanes o.hd ↔ (effMask s s.cur o.hd).getLsbD l = true :=
    mem_onLanes.trans (and_iff_right hl)
  refine ⟨t, ht, hc, fun r l hl => ?_, fun k l hl => ?_, hr⟩
  · rw [hv r l hl]; simp only [on hl, sums]
  · rw [hp k l hl]; simp only [on hl, sums]

/-- R231, R296: IADDC with queue registers. -/
theorem iaddc_queue (o : Iaddc) : QResult (.iaddc o) o.hd (some o.d) o.ty.words
    (fun s l x => x = byLane o.hd (carrySum1 o) s l % 2 ^ o.ty.bits)
    (pd := fun s k l => if k = o.co.val ∧ o.co.val ≠ 15 ∧ l ∈ s.onLanes o.hd
      then decide (2 ^ o.ty.bits ≤ byLane o.hd (carrySum1 o) s l) else (s.regsOf.p.get 0 k).getLsbD l) := by
  obtain ⟨eff, hx, puts⟩ := iaddc_puts o
  have sums (s : State) (l : Nat) : carrySum o s (s.onLanes o.hd) l = byLane o.hd (carrySum1 o) s l :=
    carrySum_sees (.lane _ s _ l)
  refine queue_result _ _ hx puts (fun s inv => ?_) fun s _ l _ => by rw [sums]
  simpa only [sums] using carryOut_ends (o := o) inv (s.onLanes o.hd)

/-! ### IMADW (R232) -/

theorem imadw_result (o : VTri) (ty : o.ty = .s32 ∨ o.ty = .n32) : VResult (.imadw o) o.hd o.d 2 fun s l =>
    ((intA s o.ty o.a l * intB s o.ty o.b l + (bitsA s .b64 o.c l : Int)) % 2 ^ 64).toNat := by
  have words : o.ty.words = 1 := by rcases ty with h | h <;> rw [h] <;> rfl
  refine (vectorOp_rel (fun s => rfl) (fun s u ls l h => by rw [h.opnd, h.srcB, h.opnd]) fun s u ls l _ h => ?_).result
  have a := h.bitsA (r := o.a) vtri_a o.ty
  have b := h.bitsB (b := o.b) vtri_b o.ty
  have c : s.opnd s.cur ls o.c 2 l = bitsA u .b64 o.c l := h.bitsA (r := o.c) vtri_c .b64
  rw [words] at a b
  rw [wrInt_eq, a, b, c]
  rfl

/-- Settles O12: IADDC with and without queue registers, and IMADW. -/
theorem carryAndWideMultiply : Obligations.CarryAndWideMultiply :=
  ⟨fun _ _ _ inv hi hq hd => iaddc_plain inv hi hq hd, iaddc_queue, imadw_result⟩

end Sys2Proof.Machine
end

section
/-!
PROOFS. Effects that compute a result in each lane, deliver it, and then change predicates and flags (R33, R50, R244, R263),
with queue registers (R296) and without.
-/
namespace Sys2Proof.Machine

/-! ### Delivering results and what follows -/

/-- The delivery of the results of lanes to a V destination, where the instruction has one. -/
def deliverTo (w : Nat) (d : Option VOp) (words : Nat) (res : List (Nat × Nat)) : Prog Res :=
  match d with
  | none => .ret .ok
  | some r => putRes w r words res

/-- The vector registers after results of lanes were delivered other than to a queue register. -/
structure Delivered (w : Nat) (d : Option VOp) (words : Nat) (ls : List Nat) (val : Nat → Nat) (u v : State) : Prop where
  kept : d = none → (v.warp w).regs.v = (u.warp w).regs.v
  written : ∀ n, d = some (.v n) → ∀ r l, l < 128 → v.vreg w r l =
    if l ∈ ls ∧ n.val ≤ r ∧ r < n.val + words then BitVec.ofNat 32 (val l / 2 ^ (32 * (r - n.val))) else u.vreg w r l

/-- Without lanes nothing is delivered. -/
theorem Delivered.idle {w words : Nat} {d : Option VOp} {val : Nat → Nat} {u v : State}
    (h : (v.warp w).regs = (u.warp w).regs) : Delivered w d words [] val u v where
  kept _ := by rw [h]
  written _ _ _ _ _ := by rw [if_neg fun g => List.not_mem_nil g.1, State.vreg, h]; rfl

theorem deliverTo_run {w words : Nat} {d : Option VOp} {ls : List Nat} {u : State} (noQueue : ∀ q, d ≠ some (.q q))
    (hu : u.checkedWarp w = false) (sorted : Tab.sortedFrom 0 (u.warp w).regs.v = true) (hls : ∀ l ∈ ls, l < 128)
    (val : Nat → Nat) : ∃ v, (deliverTo w d words (ls.map fun l => (l, val l))).run u = (.ok, v) ∧ VOnly w u v ∧
      Delivered w d words ls val u v := by
  match d with
  | none => exact ⟨u, rfl, .refl .., fun _ => rfl, nofun⟩
  | some (.q q) => exact absurd rfl (noQueue q)
  | some (.v n) =>
    obtain ⟨v, hv, only, writes⟩ := putLanes_run w n.val words val ls u hls sorted
    have still : v.checkedWarp w = false := by rw [only.near.checkedWarp]; exact hu
    refine ⟨v, Prog.run_bind_eq (Prog.run_bind_eq hv (foldSig_unchecked still _)) rfl, only, nofun, fun m hm => ?_⟩
    cases hm
    exact writes

/-- A program that ends well and at most leaves other predicates and flags in the running warp: from `p` and `f`, those that
`post` allows. -/
def Leaves (s : State) (p : Tab Mask) (f : Tab (BitVec 6)) (tail : Prog Res) (post : Tab Mask → Tab (BitVec 6) → Prop) : Prop :=
  ∀ v, v.checkedWarp s.cur = false → (v.warp s.cur).regs.p = p → (v.warp s.cur).regs.fpsr = f →
    ∃ v' p' f', tail.run v = (.ok, v') ∧ Near s.cur v v' ∧
      v'.warp s.cur = { v.warp s.cur with regs := { (v.warp s.cur).regs with p := p', fpsr := f' } } ∧ post p' f'

section
variable {s : State} {p : Tab Mask} {f : Tab (BitVec 6)}

theorem leaves_ok : Leaves s p f (.ret .ok) fun p' f' => p' = p ∧ f' = f :=
  fun v _ hp hf => ⟨v, p, f, rfl, .refl .., by rw [← hp, ← hf], rfl, rfl⟩

theorem Leaves.andThen {a b : Prog Res} {mid post : Tab Mask → Tab (BitVec 6) → Prop} (ha : Leaves s p f a mid)
    (hb : ∀ p' f', mid p' f' → Leaves s p' f' b post) : Leaves s p f (andThen a b) post := by
  intro v hv hp hf
  obtain ⟨v1, p1, f1, run1, near1, warp1, mid1⟩ := ha v hv hp hf
  obtain ⟨v2, p2, f2, run2, near2, warp2, post2⟩ :=
    hb p1 f1 mid1 v1 (by rw [near1.checkedWarp]; exact hv) (by rw [warp1]) (by rw [warp1])
  exact ⟨v2, p2, f2, (andThen_run run1).trans run2, near1.trans near2, by rw [warp2, warp1], post2⟩

theorem Leaves.mono {a : Prog Res} {post post' : Tab Mask → Tab (BitVec 6) → Prop} (ha : Leaves s p f a post)
    (h : ∀ p' f', post p' f' → post' p' f') : Leaves s p f a post' := fun v hv hp hf => by
  obtain ⟨v', p', f', run, near, warp, hpost⟩ := ha v hv hp hf
  exact ⟨v', p', f', run, near, warp, h _ _ hpost⟩

/-- A predicate destination holds the value of each lane listed; pt holds none (R50). -/
def PredsAfter (p : Tab Mask) (d : PReg) (ls : List Nat) (val : Nat → Bool) (p' : Tab Mask) : Prop :=
  ∀ k l, l < Config.W → (p'.get 0 k).getLsbD l =
    if k = d.val ∧ d.val ≠ 15 ∧ l ∈ ls then val l else (p.get 0 k).getLsbD l

theorem PredsAfter.idle (p : Tab Mask) (d : PReg) (val : Nat → Bool) : PredsAfter p d [] val p :=
  fun _ _ _ => by rw [if_neg fun g => List.not_mem_nil g.2.2]

/-- R50: a predicate result of lanes. -/
theorem predRes_leaves (sorted : Tab.sortedFrom 0 p = true) (d : PReg) (ls : List Nat) (val : Nat → Bool) :
    Leaves s p f (predRes s.cur d ls (ls.filter val)) fun p' f' => PredsAfter p d ls val p' ∧ f' = f := by
  intro v hv hp hf
  obtain ⟨v', run, near, warp, bits⟩ := writeP_run hv (by rw [hp]; exact sorted) d (maskOf ls) (maskOf (ls.filter val)) (maskOf ls)
  refine ⟨v', _, f, Prog.run_bind_eq run rfl, near, by rw [warp, ← hf], fun k l hl => ?_, rfl⟩
  have wide : l < 128 := Nat.lt_trans hl (by decide)
  rw [bits k l hl, getLsbD_maskOf _ wide, getLsbD_maskOf _ wide, hp]
  by_cases hm : l ∈ ls <;> simp [hm]
end

/-! ### Effects -/

theorem mem_onLanes_of_lt {s : State} {h : Hd} {l : Nat} (hl : l < Config.W) :
    l ∈ s.onLanes h ↔ (effMask s s.cur h).getLsbD l = true := mem_onLanes.trans (and_iff_right hl)

theorem fpsr_eq_regsOf {s t : State} (hcur : t.cur = s.cur) (l : Nat) : t.fpsr s.cur l = t.regsOf.fpsr.get 0 l := by
  rw [State.fpsr, State.regsOf, hcur]

/-- While queue registers serve the instruction, its effect gives each lane with effect a result that `R` allows, delivers
the results, and leaves predicates and flags that `post` allows. Where it names a queue register it may take free values
first. -/
def Computes (i : Instr) (s : State) (h : Hd) (d : Option VOp) (words : Nat) (eff : Nat → List Nat → Prog Res)
    (R : Nat → Nat → Prop) (post : Tab Mask → Tab (BitVec 6) → Prop) : Prop :=
  ∀ u, Serving s u s.engine s.regsOf → ∃ v, ∃ val : Nat → Nat, ∃ tail, Serving s v s.engine s.regsOf ∧ (i.qRefs = [] → v = u) ∧
    (∀ l ∈ s.onLanes h, R l (val l)) ∧ Leaves s s.regsOf.p s.regsOf.fpsr tail post ∧
    (eff s.cur (s.onLanes h)).run u =
      (andThen (deliverTo s.cur d words ((s.onLanes h).map fun l => (l, val l))) tail).run v

section
variable {i : Instr} {s : State} {h : Hd} {d : Option VOp} {words : Nat} {eff : Nat → List Nat → Prog Res}
  {R : Nat → Nat → Prop} {post : Tab Mask → Tab (BitVec 6) → Prop}

theorem Computes.mono {R' : Nat → Nat → Prop} (he : Computes i s h d words eff R post) (hR : ∀ l x, R l x → R' l x) :
    Computes i s h d words eff R' post := fun u hu => by
  obtain ⟨v, val, tail, hv, same, allowed, leaves, run⟩ := he u hu
  exact ⟨v, val, tail, hv, same, fun l hl => hR l _ (allowed l hl), leaves, run⟩

/-- R33: without queue registers the instruction completes with its results, predicates and flags. -/
theorem Computes.plain (he : Computes i s h d words eff R post) (inv : s.Inv = true) (hi : CanIssue i s) (hq : i.qRefs = [])
    (hx : exec i s = next (issueV i h eff) s) (noQueue : ∀ q, d ≠ some (.q q))
    (idle : s.onLanes h = [] → post s.regsOf.p s.regsOf.fpsr) :
    Yields i s fun t => Completes i s t ∧ post t.regsOf.p t.regsOf.fpsr ∧
      t.regsOf = { s.regsOf with v := t.regsOf.v, p := t.regsOf.p, fpsr := t.regsOf.fpsr } ∧
      ∃ val, (∀ l ∈ s.onLanes h, R l (val l)) ∧ Delivered s.cur d words (s.onLanes h) val s t := by
  by_cases hl : s.onLanes h = []
  · obtain ⟨t, hnext, hc, hr⟩ := issueV_off (eff := eff) hi hl
    have hcur : t.cur = s.cur := by rw [hc.rest]
    have hr' : t.regsOf = s.regsOf := by rw [State.regsOf, hcur, hr]
    refine ⟨t, hx.trans hnext, hc, by rw [hr']; exact idle hl, by rw [hr'], fun _ => 0, fun l g => ?_, ?_⟩
    · rw [hl] at g; exact absurd g List.not_mem_nil
    · rw [hl]; exact .idle hr
  · obtain ⟨v, val, tail, hv, same, allowed, leaves, run⟩ := he _ (noted_serving i s)
    rw [same hq] at run hv
    obtain ⟨u, put, only, delivered⟩ := deliverTo_run (words := words) noQueue (noted_unchecked hi)
      (by rw [noted_regs]; exact ok_v (inv_warp inv s.cur)) (lanesOf_lt (m := effMask s s.cur h)) val
    obtain ⟨w, p, f, tailRun, near, warp, hpost⟩ := leaves u (by rw [only.near.checkedWarp]; exact noted_unchecked hi)
      (by rw [only.warp, noted_regs]) (by rw [only.warp, noted_regs])
    have regs : (w.warp s.cur).regs = { s.regsOf with v := (u.warp s.cur).regs.v, p := p, fpsr := f } := by
      rw [warp, only.warp, noted_regs]
    obtain ⟨t, hnext, hc, hr⟩ := issueV_spec hi hq hl (run.trans ((andThen_run put).trans tailRun)) (only.near.trans near)
      (by rw [warp, only.warp]) (by rw [warp, only.warp]; exact noted_stack i s)
    have hcur : t.cur = s.cur := by rw [hc.rest]
    have hr' : t.regsOf = { s.regsOf with v := (u.warp s.cur).regs.v, p := p, fpsr := f } := by
      rw [State.regsOf, hcur, hr, regs]
    refine ⟨t, hx.trans hnext, hc, by rw [hr']; exact hpost, by rw [hr'], val, allowed, fun hd => ?_, fun n hd r l hlt => ?_⟩
    · rw [hr, regs]
      exact (delivered.kept hd).trans (by rw [noted_regs])
    · rw [State.vreg, hr, regs]
      exact (delivered.written n hd r l hlt).trans (by rw [noted_vreg])

/-- R296: with queue registers it goes on with its results, predicates and flags, its elements taken; `P` says what the
delivery leaves of engines and vector registers. -/
theorem Computes.serves {P : (Nat → Nat) → (Nat → Stream) → Tab Word → Prop} {u : State} (he : Computes i s h d words eff R post)
    (hi : CanIssue i s) (hx : exec i s = next (issueV i h eff) s) (hl : s.onLanes h ≠ [])
    (gate : (qGate s.cur i (s.onLanes h) fun _ => s.onLanes h).run (noted i s) = (none, u))
    (hu : Serving s u s.engine s.regsOf)
    (put : ∀ v val, Serving s v s.engine s.regsOf → ∃ v' g vs,
      (deliverTo s.cur d words ((s.onLanes h).map fun l => (l, val l))).run v = (.ok, v') ∧
        Serving s v' g { s.regsOf with v := vs } ∧ P val g vs) :
    Yields i s fun t => ∃ val g, IssuedAs i s t (nextPc s.ctlOf.pc i) (goesOn i) s.ctlOf ∧
      (t.warp s.cur).stack = (s.warp s.cur).stack ∧ (∀ l ∈ s.onLanes h, R l (val l)) ∧
      t.regsOf = { s.regsOf with v := t.regsOf.v, p := t.regsOf.p, fpsr := t.regsOf.fpsr } ∧
      post t.regsOf.p t.regsOf.fpsr ∧ Engines s t (takenFrom (qReads s s.cur i) (s.onLanes h).length g) ∧
      P val g t.regsOf.v := by
  obtain ⟨v, val, tail, hv, -, allowed, leaves, run⟩ := he u hu
  obtain ⟨v1, g, vs, put1, hs1, hP⟩ := put v val hv
  obtain ⟨v2, p, f, tailRun, near, warp, hpost⟩ := leaves v1 (hs1.unchecked hi) (by rw [hs1.regs]) (by rw [hs1.regs])
  have hs2 : Serving s v2 g { s.regsOf with v := vs, p := p, fpsr := f } := by
    obtain ⟨x, hw⟩ := hs1.warp
    exact ⟨hs1.engines_near near, fun w hw => (near.others w hw).trans (hs1.others w hw), x, by rw [warp, hw]⟩
  obtain ⟨t, hnext, issued, stack, regs, engines⟩ := issueV_serves hi hx hl gate
    (run.trans ((andThen_run put1).trans tailRun)) hs2
  exact ⟨t, hnext, val, g, issued, stack, allowed, by rw [regs], by rw [regs]; exact hpost, engines, by rw [regs]; exact hP⟩
end

/-- R296: an instruction with queue registers, from what its effect computes. -/
theorem queue_computes {i : Instr} {h : Hd} {d : Option VOp} {words : Nat} {R : State → Nat → Nat → Prop}
    {traps : State → Nat → Nat} {fpsr : State → Nat → BitVec 6} {pd : State → Nat → Nat → Bool}
    {eff : Nat → List Nat → Prog Res} {post : State → Tab Mask → Tab (BitVec 6) → Prop}
    (hx : ∀ s, exec i s = next (issueV i h eff) s)
    (he : ∀ s, s.Inv = true → CanIssue i s → (∀ l ∈ s.onLanes h, traps s l = 0) →
      Computes i s h d words eff (R s) (post s))
    (preds : ∀ s p f, post s p f → ∀ k l, l < Config.W → (p.get 0 k).getLsbD l = pd s k l)
    (flags : ∀ s p f, post s p f → ∀ l, l < Config.W → f.get 0 l = if l ∈ s.onLanes h then fpsr s l else s.fpsr s.cur l) :
    QResult i h d words R traps fpsr pd := by
  intro s inv hi _ hl ls fed quiet ends
  have he := he s inv hi quiet
  have ended {t : State} {val : Nat → Nat} {g : Nat → Stream}
      (issued : IssuedAs i s t (nextPc s.ctlOf.pc i) (goesOn i) s.ctlOf) (stack : (t.warp s.cur).stack = (s.warp s.cur).stack)
      (allowed : ∀ l ∈ ls, R s l (val l))
      (regs : t.regsOf = { s.regsOf with v := t.regsOf.v, p := t.regsOf.p, fpsr := t.regsOf.fpsr })
      (hpost : post s t.regsOf.p t.regsOf.fpsr) (engines : Engines s t g) : ends t val := by
    have hcur : t.cur = s.cur := by rw [engines.rest]
    refine ⟨issued, stack, allowed, regs, fun l hl => ?_, preds s _ _ hpost⟩
    exact (fpsr_eq_regsOf hcur l).trans (flags s _ _ hpost l hl)
  have noPush (hw : qWrites i = []) : ∀ q ∈ qWrites i, ∃ e b, s.streamOf s.cur q = some (e, b) ∧ Takes s e ls.length := by
    rw [hw]; exact fun q hq => absurd hq List.not_mem_nil
  refine ⟨fun hd nowrites => ?_, fun n hd nowrites => ?_, fun q e b hd writes hq takes => ?_⟩
  · subst hd
    obtain ⟨u, gate, hu⟩ := qGate_serves fed (noPush nowrites)
    obtain ⟨t, hnext, val, g, issued, stack, allowed, regs, hpost, engines, rfl, hv⟩ :=
      he.serves (P := fun _ g vs => g = s.engine ∧ vs = s.regsOf.v) hi (hx s) hl gate hu
        fun v val hv => ⟨v, _, _, rfl, hv, rfl, rfl⟩
    exact ⟨t, hnext, val, ended issued stack allowed regs hpost engines, hv, engines⟩
  · subst hd
    obtain ⟨u, gate, hu⟩ := qGate_serves fed (noPush nowrites)
    obtain ⟨t, hnext, val, g, issued, stack, allowed, regs, hpost, engines, rfl, hv⟩ :=
      he.serves (P := fun val g vs => g = s.engine ∧ ∀ r l, l < 128 → vs.get 0 (r * 128 + l) =
          if l ∈ ls ∧ n.val ≤ r ∧ r < n.val + words then BitVec.ofNat 32 (val l / 2 ^ (32 * (r - n.val))) else s.vreg s.cur r l)
        hi (hx s) hl gate hu fun v val hv => by
          obtain ⟨v', put, hs, writes⟩ := putRes_register inv hi hv n words ls lanesOf_lt val
          exact ⟨v', _, _, put, hs, rfl, writes⟩
    have hcur : t.cur = s.cur := by rw [engines.rest]
    refine ⟨t, hnext, val, ended issued stack allowed regs hpost engines, engines, fun r l hl => ?_⟩
    rw [State.vreg, ← hcur]
    exact (hv r l (Nat.lt_trans hl (by decide))).trans (by rw [hcur])
  · subst hd
    have mem : q.val ∈ qWrites i := by rw [writes]; exact List.mem_singleton_self _
    obtain ⟨u, gate, hu⟩ := qGate_serves fed fun q' hq' => by
      rw [writes, List.mem_singleton] at hq'
      exact ⟨e, b, hq' ▸ hq, takes⟩
    obtain ⟨t, hnext, val, g, issued, stack, allowed, regs, hpost, engines, hv, p, hp, rfl⟩ :=
      he.serves (P := fun val g vs => vs = s.regsOf.v ∧ ∃ p, AddressesResults (s.engine e) ls val p ∧
          g = fun k => if k = e then (s.engine k).enqueue p ls.length else s.engine k)
        hi (hx s) hl gate hu fun v val hv => by
          obtain ⟨v', p, put, hp, hs⟩ := putRes_queue hv hi hq words ls val
          exact ⟨v', _, _, put, hs, rfl, p, hp, rfl⟩
    have queues (k : Nat) := takenFrom_enqueue (k := k) (n := ls.length) (p := p) (not_read_of_write fed mem hq) takes.empty
    exact ⟨t, hnext, val, ended issued stack allowed regs hpost engines, hv, p,
      ⟨engines.rest, engines.others, engines.mine, fun k => (engines.engines k).trans (queues k)⟩, hp⟩

end Sys2Proof.Machine
end

section
/-!
PROOFS. Comparison, class and status of floating-point numbers (R246 to R248, R262), with the flags that instructions raise
(R53, R63, R72): O20.
-/
namespace Sys2Proof.Machine

/-! ### Writing FPSR -/

theorem ok_fpsr {x : Warp} (h : x.ok = true) : Tab.sortedFrom 0 x.regs.fpsr = true := by
  simp only [Warp.ok, WRegs.ok, Bool.and_eq_true] at h
  exact Tab.wf_sorted h.1.1.1.1.2

/-- Writes of FPSR, as the state after them: the warp alone, those registers alone. -/
structure FpsrOnly (w : Nat) (s u : State) : Prop where
  near : Near w s u
  warp : u.warp w = { s.warp w with regs := { (s.warp w).regs with fpsr := (u.warp w).regs.fpsr } }
  sorted : Tab.sortedFrom 0 (s.warp w).regs.fpsr = true → Tab.sortedFrom 0 (u.warp w).regs.fpsr = true

theorem FpsrOnly.refl (w : Nat) (s : State) : FpsrOnly w s s := ⟨.refl .., rfl, id⟩
theorem FpsrOnly.trans {w : Nat} {s u v : State} (a : FpsrOnly w s u) (b : FpsrOnly w u v) : FpsrOnly w s v :=
  ⟨a.near.trans b.near, by rw [b.warp, a.warp], b.sorted ∘ a.sorted⟩

/-- A program that turns a lane's FPSR into what `new` makes of it, in an unchecked warp. -/
def WritesFpsr (w l : Nat) (new : BitVec 6 → BitVec 6) (p : Prog Unit) : Prop :=
  ∀ u, u.checkedWarp w = false → Tab.sortedFrom 0 (u.warp w).regs.fpsr = true → ∃ v, p.run u = ((), v) ∧ FpsrOnly w u v ∧
    ∀ k, v.fpsr w k = if k = l then new (u.fpsr w l) else u.fpsr w k

/-- A write that is left out where it would change nothing. -/
theorem writesFpsr_unless {w l : Nat} {new : BitVec 6 → BitVec 6} {p : Prog Unit} (same : State → Prop)
    [DecidablePred same] (folds : State → List DWord)
    (hp : ∀ u, p.run u = (if same u then .ret () else
      .bind (upd (.fpsr w l (new (u.fpsr w l)))) fun _ => foldSig w (folds u) : Prog Unit).run u)
    (hs : ∀ u, same u → new (u.fpsr w l) = u.fpsr w l) : WritesFpsr w l new p := by
  intro u hu sorted
  rw [hp]
  by_cases h : same u
  · refine ⟨u, by rw [if_pos h, Prog.run_ret], .refl .., fun k => ?_⟩
    split
    · next hk => rw [hs u h, hk]
    · rfl
  · have still : (Upd.apply u (.fpsr w l (new (u.fpsr w l)))).checkedWarp w = false := by
      rw [(near_fpsr ..).checkedWarp]; exact hu
    have at_ := Upd.fpsr_at u w w l (new (u.fpsr w l))
    rw [if_pos rfl] at at_
    refine ⟨_, by rw [if_neg h]; exact Prog.run_bind_eq (run_updP ..) (foldSig_unchecked still _),
      ⟨near_fpsr .., by rw [at_], fun g => by rw [at_]; exact Tab.sortedFrom_set _ g (Nat.zero_le _)⟩, fun k => ?_⟩
    rw [State.fpsr, at_]
    exact Tab.get_set _ _ _ _ sorted

/-- R262: FPSTR and FPSTW write a lane's FPSR. -/
theorem setFpsr_writes (w l : Nat) (x : BitVec 6) : WritesFpsr w l (fun _ => x) (setFpsr w l x) :=
  writesFpsr_unless (fun u => u.fpsr w l = x) (fun _ => [BitVec.ofNat 64 (l * 256 + x.toNat)]) (fun _ => rfl) fun _ h => h.symm

/-- The same in each of several lanes. -/
theorem forAll_fpsr {w : Nat} {p : Nat → Prog Unit} {new : Nat → BitVec 6 → BitVec 6} (hp : ∀ l, WritesFpsr w l (new l) (p l))
    {ls : List Nat} (distinct : ls.Nodup) (u : State) (hu : u.checkedWarp w = false)
    (sorted : Tab.sortedFrom 0 (u.warp w).regs.fpsr = true) : ∃ v, (forAll ls p).run u = ((), v) ∧ FpsrOnly w u v ∧
      ∀ k, v.fpsr w k = if k ∈ ls then new k (u.fpsr w k) else u.fpsr w k := by
  induction ls generalizing u with
  | nil => exact ⟨u, rfl, .refl .., fun k => by rw [if_neg List.not_mem_nil]⟩
  | cons a t ih =>
    obtain ⟨ha, ht⟩ := List.nodup_cons.1 distinct
    obtain ⟨u1, run1, only1, get1⟩ := hp a u hu sorted
    obtain ⟨u2, run2, only2, get2⟩ := ih ht u1 (by rw [only1.near.checkedWarp]; exact hu) (only1.sorted sorted)
    refine ⟨u2, by rw [run_forAll_cons, run1, run2], only1.trans only2, fun k => ?_⟩
    rw [get2, get1]
    by_cases hk : k = a
    · rw [hk, if_neg ha, if_pos rfl, if_pos (List.mem_cons_self ..)]
    · simp only [List.mem_cons, hk, false_or, if_false]

/-- FPSR after the lanes listed wrote theirs. -/
def FlagsAfter (f : Tab (BitVec 6)) (ls : List Nat) (new : Nat → BitVec 6 → BitVec 6) (f' : Tab (BitVec 6)) : Prop :=
  ∀ l, f'.get 0 l = if l ∈ ls then new l (f.get 0 l) else f.get 0 l

theorem FlagsAfter.idle (f : Tab (BitVec 6)) (new : Nat → BitVec 6 → BitVec 6) : FlagsAfter f [] new f :=
  fun _ => by rw [if_neg List.not_mem_nil]

theorem forAll_fpsr_leaves {s : State} {p : Tab Mask} {f : Tab (BitVec 6)} {q : Nat → Prog Unit}
    {new : Nat → BitVec 6 → BitVec 6} (sorted : Tab.sortedFrom 0 f = true) (hq : ∀ l, WritesFpsr s.cur l (new l) (q l))
    {ls : List Nat} (distinct : ls.Nodup) :
    Leaves s p f (.bind (forAll ls q) fun _ => .ret .ok) fun p' f' => p' = p ∧ FlagsAfter f ls new f' := by
  intro v hv hp hf
  obtain ⟨v', run, only, get⟩ := forAll_fpsr hq distinct v hv (by rw [hf]; exact sorted)
  refine ⟨v', p, _, Prog.run_bind_eq run rfl, only.near, by rw [only.warp, ← hp], rfl, fun l => ?_⟩
  rw [← hf]
  exact get l

theorem onLanes_nodup (s : State) (h : Hd) : (s.onLanes h).Nodup := List.nodup_range.filter _

/-! ### Flags and FPEXC (R53, R63, R72) -/

/-- R53: the flags of lanes are merged into FPSR. -/
theorem raiseFlags_leaves {s : State} {p : Tab Mask} {f : Tab (BitVec 6)} (sorted : Tab.sortedFrom 0 f = true) {ls : List Nat}
    (distinct : ls.Nodup) (fl : Nat → Fl) (on : Nat → Bool) :
    Leaves s p f (.bind (raiseFlags s.cur (ls.map fun l => (l, fl l)) on) fun _ => .ret .ok) fun p' f' =>
      p' = p ∧ FlagsAfter f ls (fun l x => x ||| fl l) f' := by
  rw [raiseFlags, forAll_map]
  exact forAll_fpsr_leaves sorted (fun l => writesFpsr_unless (fun u => u.fpsr s.cur l ||| fl l = u.fpsr s.cur l)
    (fun u => if on l then [BitVec.ofNat 64 (l * 256 + (u.fpsr s.cur l ||| fl l).toNat)] else []) (fun _ => rfl)
    fun _ h => h) distinct

theorem fpTrap_none {fpcr : Word} {fl : List (Nat × Fl)} (h : ∀ e ∈ fl, trapBits fpcr e.2 = 0) : fpTrap fpcr fl = none := by
  have none_left : (fl.filter fun e => trapBits fpcr e.2 != 0) = [] :=
    List.filter_eq_nil_iff.2 fun e he => by rw [h e he]; decide
  rw [fpTrap, none_left]
  rfl

theorem foldl_or_testBit_of {α : Type} (g : α → Nat) (l : List α) (a k : Nat) :
    (l.foldl (fun a e => a ||| g e) a).testBit k = (a.testBit k || l.any fun e => (g e).testBit k) := by
  induction l generalizing a with
  | nil => rw [List.foldl_nil, List.any_nil, Bool.or_false]
  | cons e t ih => rw [List.foldl_cons, ih, Nat.testBit_or, List.any_cons, Bool.or_assoc]

/-- R63, R72: the FPEXC of lanes that would raise an enabled flag names those lanes, and the enabled flags of each. -/
theorem fpTrap_some {fpcr : Word} {ls : List Nat} {fl : Nat → Fl}
    (h : ∃ l ∈ ls, trapBits fpcr (fl l) ≠ 0) :
    ∃ f m, fpTrap fpcr (ls.map fun l => (l, fl l)) = some f ∧ f.cause = .fpexc ∧ f.lanes = some m ∧
      (∀ l, l < 128 → (m.getLsbD l = true ↔ l ∈ ls ∧ trapBits fpcr (fl l) ≠ 0)) ∧
      ∀ k, k < 64 → (f.faddr.getLsbD k = true ↔ ∃ l ∈ ls, (trapBits fpcr (fl l)).testBit k = true) := by
  generalize ht : ls.filter (fun l => trapBits fpcr (fl l) != 0) = t
  have mem (l : Nat) : l ∈ t ↔ l ∈ ls ∧ trapBits fpcr (fl l) ≠ 0 := by rw [← ht, List.mem_filter, bne_iff_ne]
  have left : (ls.map fun l => (l, fl l)).filter (fun e => trapBits fpcr e.2 != 0) = t.map fun l => (l, fl l) := by
    rw [List.filter_map, ← ht]; rfl
  have some_left : (t.map fun l => (l, fl l)).isEmpty = false := by
    obtain ⟨l, hl, hn⟩ := h
    rw [List.isEmpty_map, List.isEmpty_eq_false_iff]
    exact List.ne_nil_of_mem ((mem l).2 ⟨hl, hn⟩)
  have lanes : (t.map fun l => (l, fl l)).map (·.1) = t := by rw [List.map_map]; exact List.map_id t
  refine ⟨_, maskOf t, by rw [fpTrap, left, some_left, if_neg Bool.false_ne_true], rfl, by rw [lanes], fun l hl => ?_,
    fun k hk => ?_⟩
  · rw [getLsbD_maskOf _ hl, decide_eq_true_iff, mem]
  · rw [BitVec.getLsbD_ofNat, decide_eq_true hk, Bool.true_and, foldl_or_testBit_of, Nat.zero_testBit, Bool.false_or,
      List.any_map, List.any_eq_true]
    refine exists_congr fun l => ?_
    rw [mem, and_assoc]
    refine and_congr_right fun _ => and_iff_right_of_imp fun hbit hz => ?_
    rw [Function.comp_apply, hz, Nat.zero_testBit] at hbit
    cases hbit

/-- An instruction without queue registers whose effect faults raises that fault. -/
theorem issueV_faults {i : Instr} {s : State} {h : Hd} {eff : Nat → List Nat → Prog Res} {f : FaultInfo} (hi : CanIssue i s)
    (hq : i.qRefs = []) (hx : exec i s = next (issueV i h eff) s) (hl : s.onLanes h ≠ [])
    (he : (eff s.cur (s.onLanes h)).run (noted i s) = (.fault f, noted i s)) : Faults i s (noted i s) f := by
  obtain ⟨l, t, hlt⟩ := List.exists_cons_of_ne_nil hl
  have effect : (laneEffect i h eff s.cur).run (noted i s) = (.fault f, noted i s) := by
    have lanes : lanesOf (effMask (noted i s) s.cur h) = l :: t := by rw [noted_effMask]; exact hlt
    rw [hlt] at he
    refine Prog.run_bind_eq (run_st _) ?_
    rw [lanes]
    exact Prog.run_bind_eq (qGate_none hq ..) (Prog.run_bind_eq he rfl)
  rw [Faults, hx, next_eq, issueV_eq, issue_fault hi effect]

/-- R63, R72: an instruction that ends as a floating-point instruction does raises FPEXC where a lane with effect would raise
an enabled flag. -/
theorem finishFp_traps {i : Instr} {s : State} {h : Hd} {eff : Nat → List Nat → Prog Res} {fl : Nat → Fl} {write : Prog Res}
    {on : Nat → Bool} (hi : CanIssue i s) (hq : i.qRefs = []) (hx : exec i s = next (issueV i h eff) s)
    (he : (eff s.cur (s.onLanes h)).run (noted i s) =
      (finishFp s.cur ((s.onLanes h).map fun l => (l, fl l)) write on).run (noted i s)) :
    Traps i s (fun l => l < Config.W ∧ (effMask s s.cur h).getLsbD l = true) fl := by
  rintro ⟨l, hl, hn⟩
  have hmem := mem_onLanes.2 hl
  obtain ⟨f, m, trap, cause, lanes, laneBits, flagBits⟩ := fpTrap_some (fpcr := s.fpcr s.cur) (fl := fl)
    ⟨l, hmem, hn⟩
  refine ⟨noted i s, f, m, by rw [State.regsOf, noted_cur, noted_regs], (noted_near i s).rest,
    issueV_faults hi hq hx (List.ne_nil_of_mem hmem) ?_, cause, lanes, fun k hk => ?_, fun k hk => ?_⟩
  · rw [he, finishFp, Prog.run_get, noted_fpcr, trap, Prog.run_ret]
  · rw [laneBits k (Nat.lt_trans hk (by decide)), mem_onLanes]
  · rw [flagBits k hk]
    simp only [mem_onLanes]

/-- R63, R244: without an enabled flag it writes, then merges the flags. -/
theorem finishFp_run {u : State} {w : Nat} {ls : List Nat} {fl : Nat → Fl} {write : Prog Res} {on : Nat → Bool}
    (quiet : ∀ l ∈ ls, trapBits (u.fpcr w) (fl l) = 0) : (finishFp w (ls.map fun l => (l, fl l)) write on).run u =
      (andThen write (.bind (raiseFlags w (ls.map fun l => (l, fl l)) on) fun _ => .ret .ok)).run u := by
  rw [finishFp, Prog.run_get, fpTrap_none fun e he => ?_]
  · rfl
  · obtain ⟨l, hl, rfl⟩ := List.mem_map.1 he
    exact quiet l hl

/-! ### FCMP (R247) -/

section
variable {s u : State}

theorem SameOperands.opndF (h : SameOperands s u) (ls : List Nat) (r : VOp) (t : FT) (l : Nat) :
    u.opndF s.cur ls r t l = s.opndF s.cur ls r t l := by rw [State.opndF, State.opndF, h.opnd]
theorem SameOperands.fpcr (h : SameOperands s u) : u.fpcr s.cur = s.fpcr s.cur := by rw [State.fpcr, h.regs]; rfl
theorem SameOperands.fpsr (h : SameOperands s u) (l : Nat) : u.fpsr s.cur l = s.fpsr s.cur l := by
  rw [State.fpsr, h.regs]; rfl

theorem LaneSees.opndF {i : Instr} {ls : List Nat} {l : Nat} (h : LaneSees i s u ls l) {r : VOp} {t : FT}
    (hx : rdV r t.words ∈ i.regs.v) : s.opndF s.cur ls r t l = fA u t r l := by
  have read : s.opnd s.cur ls r t.words l = u.opnd u.cur [] r t.words l := h.opnd hx t.words
  rw [State.opndF, read, fA, State.opndF]
theorem LaneSees.fpcr {i : Instr} {ls : List Nat} {l : Nat} (h : LaneSees i s u ls l) : s.fpcr s.cur = u.fpcr u.cur := by
  rw [State.fpcr, State.fpcr, h.cur, h.regs]
end

/-- The comparison of one lane among those that act, and its flags. -/
def compareIn (o : Fcmp) (s : State) (ls : List Nat) (l : Nat) : Bool × Fl :=
  fCompare o.ft o.cmp o.u (s.fpcr s.cur) (s.opndF s.cur ls o.a o.ft l) (s.opndF s.cur ls o.b o.ft l)

/-- The same of a lane alone. -/
def compareOf (o : Fcmp) (s : State) (l : Nat) : Bool × Fl :=
  fCompare o.ft o.cmp o.u (s.fpcr s.cur) (fA s o.ft o.a l) (fA s o.ft o.b l)

theorem compareIn_sees {o : Fcmp} {s u : State} {ls : List Nat} {l : Nat} (h : LaneSees (.fcmp o) s u ls l) :
    compareIn o s ls l = compareOf o u l := by
  have a : rdV o.a o.ft.words ∈ (Instr.fcmp o).regs.v := List.mem_cons_self ..
  have b : rdV o.b o.ft.words ∈ (Instr.fcmp o).regs.v := List.mem_cons_of_mem _ (List.mem_cons_self ..)
  rw [compareIn, h.fpcr, h.opndF a, h.opndF b, compareOf]

/-- Predicates and flags after FCMP. -/
def CompareLeaves (o : Fcmp) (s : State) (p : Tab Mask) (f : Tab (BitVec 6)) : Prop :=
  PredsAfter s.regsOf.p o.d (s.onLanes o.hd)
      (fun l => (compareIn o s (s.onLanes o.hd) l).1 && (s.predMask s.cur o.c).getLsbD l) p ∧
    FlagsAfter s.regsOf.fpsr (s.onLanes o.hd) (fun l x => x ||| (compareIn o s (s.onLanes o.hd) l).2) f

/-- The end of FCMP: FPEXC, or predicate and flags. -/
def compareEnds (o : Fcmp) (s : State) : Prog Res :=
  finishFp s.cur ((s.onLanes o.hd).map fun l => (l, (compareIn o s (s.onLanes o.hd) l).2))
    (predRes s.cur o.d (s.onLanes o.hd) ((s.onLanes o.hd).filter fun l =>
      (compareIn o s (s.onLanes o.hd) l).1 && (s.predMask s.cur o.c).getLsbD l))

theorem fcmp_effect (o : Fcmp) : ∃ eff, (∀ s, exec (.fcmp o) s = next (issueV (.fcmp o) o.hd eff) s) ∧
    ∀ s u, SameOperands s u → (eff s.cur (s.onLanes o.hd)).run u = (compareEnds o s).run u := by
  refine ⟨_, fun s => rfl, fun s u h => ?_⟩
  have trues (ls : List Nat) (c : Nat → Bool × Fl) (m : Nat → Bool) :
      (((ls.map fun l => (l, c l)).filter fun r => r.2.1 && m r.1).map (·.1)) = ls.filter fun l => (c l).1 && m l := by
    rw [List.filter_map, List.map_map]; exact List.map_id _
  simp only [Prog.run_get, h.fpcr, h.opndF, h.predMask, List.map_map, trues]
  rfl

theorem fcmp_computes {o : Fcmp} {s : State} {eff : Nat → List Nat → Prog Res} (inv : s.Inv = true)
    (run : ∀ u, SameOperands s u → (eff s.cur (s.onLanes o.hd)).run u = (compareEnds o s).run u)
    (quiet : ∀ l ∈ s.onLanes o.hd, trapBits (s.fpcr s.cur) (compareIn o s (s.onLanes o.hd) l).2 = 0) :
    Computes (.fcmp o) s o.hd none 1 eff (fun _ _ => True) (CompareLeaves o s) := by
  intro u hu
  have same := hu.sameOperands
  refine ⟨u, fun _ => 0, _, hu, fun _ => rfl, fun _ _ => trivial,
    Leaves.andThen (predRes_leaves (ok_p (inv_warp inv s.cur)) _ _ _) fun p f ⟨preds, hf⟩ => ?_,
    (run u same).trans (finishFp_run fun l hl => by rw [same.fpcr]; exact quiet l hl)⟩
  subst hf
  exact (raiseFlags_leaves (ok_fpsr (inv_warp inv s.cur)) (onLanes_nodup s o.hd) _ _).mono fun _ _ ⟨hp, flags⟩ =>
    ⟨hp ▸ preds, flags⟩

theorem CompareLeaves.idle {o : Fcmp} {s : State} (h : s.onLanes o.hd = []) : CompareLeaves o s s.regsOf.p s.regsOf.fpsr := by
  rw [CompareLeaves, h]
  exact ⟨PredsAfter.idle _ _ _, FlagsAfter.idle _ _⟩

/-- R247: FCMP with vector registers alone, where no enabled flag would be raised. -/
theorem fcmp_plain {o : Fcmp} {s : State} (inv : s.Inv = true) (hi : CanIssue (.fcmp o) s) (hq : (Instr.fcmp o).qRefs = [])
    (quiet : ∀ l, l < 32 → (effMask s s.cur o.hd).getLsbD l = true → trapBits (s.fpcr s.cur) (compareOf o s l).2 = 0) :
    Yields (.fcmp o) s fun t => Completes (.fcmp o) s t ∧
      t.regsOf = { s.regsOf with p := t.regsOf.p, fpsr := t.regsOf.fpsr } ∧
      (∀ n l, l < 32 → (t.regsOf.p.get 0 n).getLsbD l =
        if n = o.d.val ∧ o.d.val ≠ 15 ∧ (effMask s s.cur o.hd).getLsbD l = true
        then (compareOf o s l).1 && (s.predMask s.cur o.c).getLsbD l else (s.regsOf.p.get 0 n).getLsbD l) ∧
      ∀ l, l < 32 → t.fpsr s.cur l =
        if (effMask s s.cur o.hd).getLsbD l = true then s.fpsr s.cur l ||| (compareOf o s l).2 else s.fpsr s.cur l := by
  obtain ⟨eff, hx, run⟩ := fcmp_effect o
  have same (l : Nat) : compareIn o s (s.onLanes o.hd) l = compareOf o s l := compareIn_sees (.plain hq s _ l)
  obtain ⟨t, ht, hc, ⟨preds, flags⟩, regs, val, -, kept, -⟩ := (fcmp_computes inv (run s) fun l hl => by
    rw [same]; exact quiet l (mem_onLanes.1 hl).1 (mem_onLanes.1 hl).2).plain inv hi hq (hx s) nofun CompareLeaves.idle
  have hcur : t.cur = s.cur := by rw [hc.rest]
  have hv : t.regsOf.v = s.regsOf.v := by rw [State.regsOf, hcur]; exact kept rfl
  rw [hv] at regs
  refine ⟨t, ht, hc, regs, fun n l hl => ?_, fun l hl => ?_⟩
  · rw [preds n l hl]; simp only [mem_onLanes_of_lt hl, same]
  · rw [fpsr_eq_regsOf hcur, flags]; simp only [mem_onLanes_of_lt hl, same]; rfl

/-- R63, R72: FCMP raises FPEXC. -/
theorem fcmp_traps {o : Fcmp} {s : State} (hi : CanIssue (.fcmp o) s) (hq : (Instr.fcmp o).qRefs = []) :
    Traps (.fcmp o) s (fun l => l < 32 ∧ (effMask s s.cur o.hd).getLsbD l = true) fun l => (compareOf o s l).2 := by
  obtain ⟨eff, hx, run⟩ := fcmp_effect o
  have same (l : Nat) : compareIn o s (s.onLanes o.hd) l = compareOf o s l := compareIn_sees (.plain hq s _ l)
  have fl : (fun l => (compareOf o s l).2) = fun l => (compareIn o s (s.onLanes o.hd) l).2 := by simp only [same]
  rw [fl]
  exact finishFp_traps hi hq (hx s) (run s _ (.noted _ s))

/-- R247, R296: FCMP with queue registers. -/
theorem fcmp_queue (o : Fcmp) : QResult (.fcmp o) o.hd none 1 (fun _ _ _ => True)
    (fun s l => trapBits (s.fpcr s.cur) (byLane o.hd (compareOf o) s l).2)
    (fun s l => s.fpsr s.cur l ||| (byLane o.hd (compareOf o) s l).2)
    (fun s k l => if k = o.d.val ∧ o.d.val ≠ 15 ∧ l ∈ s.onLanes o.hd
      then (byLane o.hd (compareOf o) s l).1 && (s.predMask s.cur o.c).getLsbD l else (s.regsOf.p.get 0 k).getLsbD l) := by
  obtain ⟨eff, hx, run⟩ := fcmp_effect o
  have same (s : State) (l : Nat) : compareIn o s (s.onLanes o.hd) l = byLane o.hd (compareOf o) s l :=
    compareIn_sees (.lane _ s _ l)
  refine queue_computes hx (fun s inv _ quiet => fcmp_computes inv (run s) fun l hl => by rw [same]; exact quiet l hl)
    (fun s p f ⟨preds, _⟩ k l hl => ?_) fun s p f ⟨_, flags⟩ l _ => ?_
  · rw [preds k l hl]; simp only [same]
  · rw [flags l]; simp only [same]; rfl

/-! ### FCLASS (R248) -/

/-- The bit that FCLASS sets for an encoding. -/
def classBit (t : FT) (x : Nat) : Nat :=
  match fVal t x with
  | .nan sg => if sg then 0 else 1
  | .inf n => if n then 2 else 9
  | .fin n m _ => if m = 0 then (if n then 5 else 6)
    else if fSubnormal t x then (if n then 4 else 7) else (if n then 3 else 8)

theorem classBit_lt (t : FT) (x : Nat) : classBit t x < 10 := by
  unfold classBit
  cases fVal t x with
  | nan sg => dsimp only; cases sg <;> decide
  | inf n => dsimp only; cases n <;> decide
  | fin n m e =>
    dsimp only
    split
    · cases n <;> decide
    · split <;> cases n <;> decide

theorem fClass_eq (t : FT) (x : Nat) : fClass t x = 2 ^ classBit t x := by
  unfold fClass classBit
  cases fVal t x with
  | nan sg => cases sg <;> rfl
  | inf n => cases n <;> rfl
  | fin n m e =>
    dsimp only
    by_cases zero : m = 0
    · rw [if_pos zero, if_pos zero]; cases n <;> rfl
    · rw [if_neg zero, if_neg zero]; cases fSubnormal t x <;> cases n <;> rfl

/-- R248: FCLASS gives one bit. -/
theorem fclass_rel {o : FUn} {R : State → Nat → Nat → Prop} (hR : ∀ s l, R s l (2 ^ classBit o.ft (fA s o.ft o.a l))) :
    VRel (.fclass o) o.hd o.d 1 R := by
  refine vectorOp_rel (fun s => rfl) (fun s u ls l h => by rw [h.opndF]) fun s u ls l _ h => ?_
  have a : rdV o.a o.ft.words ∈ (Instr.fclass o).regs.v := List.mem_cons_of_mem _ (List.mem_cons_self ..)
  rw [h.opndF a, fClass_eq]
  exact hR u l

/-! ### FPSTR and FPSTW (R262) -/

/-- Only FPSR changed, in the lanes with effect. -/
def StatusLeaves (s : State) (h : Hd) (new : Nat → BitVec 6) (p : Tab Mask) (f : Tab (BitVec 6)) : Prop :=
  p = s.regsOf.p ∧ FlagsAfter s.regsOf.fpsr (s.onLanes h) (fun l _ => new l) f

theorem StatusLeaves.idle {s : State} {h : Hd} (new : Nat → BitVec 6) (hl : s.onLanes h = []) :
    StatusLeaves s h new s.regsOf.p s.regsOf.fpsr := by
  rw [StatusLeaves, hl]
  exact ⟨rfl, FlagsAfter.idle _ _⟩

theorem StatusLeaves.lane {s : State} {h : Hd} {new : Nat → BitVec 6} {p : Tab Mask} {f : Tab (BitVec 6)}
    (hs : StatusLeaves s h new p f) (l : Nat) : f.get 0 l = if l ∈ s.onLanes h then new l else s.fpsr s.cur l := hs.2 l

theorem setFpsr_leaves {s : State} (inv : s.Inv = true) (h : Hd) (new : Nat → BitVec 6) :
    Leaves s s.regsOf.p s.regsOf.fpsr (.bind (forAll (s.onLanes h) fun l => setFpsr s.cur l (new l)) fun _ => .ret .ok)
      (StatusLeaves s h new) :=
  forAll_fpsr_leaves (ok_fpsr (inv_warp inv s.cur)) (fun l => setFpsr_writes s.cur l _) (onLanes_nodup s h)

theorem fpstr_computes (o : Fpstr) : ∃ eff, (∀ s, exec (.fpstr o) s = next (issueV (.fpstr o) o.hd eff) s) ∧
    ∀ s, s.Inv = true → Computes (.fpstr o) s o.hd (some o.d) 1 eff (fun l x => x = (s.fpsr s.cur l).toNat)
      (StatusLeaves s o.hd fun l => s.fpsr s.cur l &&& ~~~o.clr) := by
  refine ⟨_, fun s => rfl, fun s inv u hu => ⟨u, _, _, hu, fun _ => rfl, fun _ _ => rfl, setFpsr_leaves inv o.hd _, ?_⟩⟩
  simp only [Prog.run_get, hu.sameOperands.fpsr]
  rfl

/-- R262: FPSTR with a vector register as destination. -/
theorem fpstr_plain {o : Fpstr} {s : State} {n : VReg} (inv : s.Inv = true) (hi : CanIssue (.fpstr o) s)
    (hq : (Instr.fpstr o).qRefs = []) (hd : o.d = .v n) : Yields (.fpstr o) s fun t => Completes (.fpstr o) s t ∧
      t.regsOf = { s.regsOf with v := t.regsOf.v, fpsr := t.regsOf.fpsr } ∧
      (∀ r l, l < 32 → t.vreg s.cur r l = if (effMask s s.cur o.hd).getLsbD l = true ∧ r = n.val
        then (s.fpsr s.cur l).setWidth 32 else s.vreg s.cur r l) ∧
      ∀ l, l < 32 → t.fpsr s.cur l =
        if (effMask s s.cur o.hd).getLsbD l = true then s.fpsr s.cur l &&& ~~~o.clr else s.fpsr s.cur l := by
  obtain ⟨eff, hx, computes⟩ := fpstr_computes o
  obtain ⟨t, ht, hc, status, regs, val, vals, -, written⟩ := (computes s inv).plain inv hi hq (hx s)
    (fun q h => by rw [hd] at h; cases h) (StatusLeaves.idle _)
  have hcur : t.cur = s.cur := by rw [hc.rest]
  rw [status.1] at regs
  refine ⟨t, ht, hc, regs, fun r l hl => ?_, fun l hl => ?_⟩
  · have one : n.val ≤ r ∧ r < n.val + 1 ↔ r = n.val := by omega
    rw [written n (by rw [hd]) r l (Nat.lt_trans hl (by decide))]
    simp only [mem_onLanes_of_lt hl, one]
    split
    · next h =>
      rw [vals l ((mem_onLanes_of_lt hl).2 h.1), h.2, Nat.sub_self]
      exact BitVec.eq_of_toNat_eq (by simp)
    · rfl
  · rw [fpsr_eq_regsOf hcur, status.lane]; simp only [mem_onLanes_of_lt hl]

/-- R262, R296: FPSTR with a queue register. -/
theorem fpstr_queue (o : Fpstr) : QResult (.fpstr o) o.hd (some o.d) 1 (fun s l x => x = (s.fpsr s.cur l).toNat)
    (fpsr := fun s l => s.fpsr s.cur l &&& ~~~o.clr) := by
  obtain ⟨eff, hx, computes⟩ := fpstr_computes o
  exact queue_computes hx (fun s inv _ _ => computes s inv) (fun s p f h k l _ => by rw [h.1]) fun s p f h l _ => h.lane l

/-- What FPSTW writes in a lane, of those that act. -/
def statusIn (o : Fpstw) (s : State) (ls : List Nat) (l : Nat) : BitVec 6 :=
  match o.src with
  | .v r => BitVec.ofNat 6 (s.opnd s.cur ls r 1 l)
  | .imm i => i

theorem fpstw_computes (o : Fpstw) : ∃ eff, (∀ s, exec (.fpstw o) s = next (issueV (.fpstw o) o.hd eff) s) ∧
    ∀ s, s.Inv = true → Computes (.fpstw o) s o.hd none 1 eff (fun _ _ => True)
      (StatusLeaves s o.hd (statusIn o s (s.onLanes o.hd))) := by
  obtain ⟨hd, src⟩ := o
  refine ⟨_, fun s => rfl, fun s inv u hu => ⟨u, fun _ => 0, _, hu, fun _ => rfl, fun _ _ => trivial,
    setFpsr_leaves inv hd _, ?_⟩⟩
  cases src with
  | v r => simp only [Prog.run_get, hu.sameOperands.opnd]; rfl
  | imm i => rfl

/-- R262: FPSTW with a vector register or an immediate. -/
theorem fpstw_plain {o : Fpstw} {s : State} (inv : s.Inv = true) (hi : CanIssue (.fpstw o) s)
    (hq : (Instr.fpstw o).qRefs = []) : Yields (.fpstw o) s fun t => Completes (.fpstw o) s t ∧
      t.regsOf = { s.regsOf with fpsr := t.regsOf.fpsr } ∧
      ∀ l, l < 32 → t.fpsr s.cur l =
        if (effMask s s.cur o.hd).getLsbD l = true then statusIn o s (s.onLanes o.hd) l else s.fpsr s.cur l := by
  obtain ⟨eff, hx, computes⟩ := fpstw_computes o
  obtain ⟨t, ht, hc, status, regs, val, -, kept, -⟩ := (computes s inv).plain inv hi hq (hx s) nofun (StatusLeaves.idle _)
  have hcur : t.cur = s.cur := by rw [hc.rest]
  have hv : t.regsOf.v = s.regsOf.v := by rw [State.regsOf, hcur]; exact kept rfl
  rw [hv, status.1] at regs
  refine ⟨t, ht, hc, regs, fun l hl => ?_⟩
  rw [fpsr_eq_regsOf hcur, status.lane]; simp only [mem_onLanes_of_lt hl]

theorem fpstw_src {o : Fpstw} {r : VOp} (hr : o.src = .v r) : rdV r 1 ∈ (Instr.fpstw o).regs.v := by
  obtain ⟨hd, src⟩ := o
  obtain rfl : src = .v r := hr
  exact List.mem_singleton_self _

/-- R262, R296: FPSTW with a queue register. -/
theorem fpstw_queue {o : Fpstw} {r : VOp} (hr : o.src = .v r) : QResult (.fpstw o) o.hd none 1 (fun _ _ _ => True)
    (fpsr := fun s l => BitVec.ofNat 6 (byLane o.hd (fun s l => bitsA s .b32 r l) s l)) := by
  obtain ⟨eff, hx, computes⟩ := fpstw_computes o
  refine queue_computes hx (fun s inv _ _ => computes s inv) (fun s p f h k l _ => by rw [h.1]) fun s p f h l _ => ?_
  have sees : s.opnd s.cur (s.onLanes o.hd) r 1 l = byLane o.hd (fun s l => bitsA s .b32 r l) s l :=
    (LaneSees.lane (.fpstw o) s _ l).bitsA (fpstw_src hr) .b32
  rw [h.lane, statusIn, hr]
  dsimp only
  rw [sees]

/-- Settles O20: FCMP by the comparison of each lane, FCLASS by its bit, FPSTR and FPSTW by what each lane's FPSR becomes. -/
theorem floatCompareClassStatus : Obligations.FloatCompareClassStatus := by
  refine ⟨fun o s inv hi hq => ⟨fcmp_traps hi hq, fcmp_plain inv hi hq⟩, fcmp_queue,
    fun o => fclass_rel fun s l => ⟨_, classBit_lt .., rfl, ?_⟩, fun _ _ _ inv hi hq hd => fpstr_plain inv hi hq hd, fpstr_queue,
    fun _ _ hr => fpstw_queue hr, fun o s inv hi hq => ?_⟩
  · unfold classBit
    generalize fVal o.ft (fA s o.ft o.a l) = v
    cases v <;> rfl
  · obtain ⟨t, ht, hc, regs, status⟩ := fpstw_plain inv hi hq
    refine ⟨t, ht, hc, regs, fun l hl => (status l hl).trans ?_⟩
    have plain (r : VOp) (hr : o.src = .v r) : s.opnd s.cur (s.onLanes o.hd) r 1 l = bitsA s .b32 r l :=
      (LaneSees.plain hq s _ l).bitsA (fpstw_src hr) .b32
    obtain ⟨hd, src⟩ := o
    cases src with
    | v r => simp only [statusIn, plain r rfl]
    | imm i => rfl

end Sys2Proof.Machine
end

section
/-!
PROOFS. What SHFL, PERM and BCAST receive from another lane (R263 to R266): O22.
-/
namespace Sys2Proof.Machine

/-! ### Values of every lane (R263) -/

/-- A program run for each element, from what each run keeps and what its answer satisfies. -/
theorem run_mapAll_of {α β : Type} {I : State → Prop} {P : α → β → Prop} {f : α → Prog β} {l : List α}
    (step : ∀ a ∈ l, ∀ u, I u → I ((f a).run u).2 ∧ P a ((f a).run u).1) (u : State) (hu : I u) :
    I ((mapAll l f).run u).2 ∧ ∀ (k : Nat) (a : α), l[k]? = some a → ∃ b, ((mapAll l f).run u).1[k]? = some b ∧ P a b := by
  induction l generalizing u with
  | nil => exact ⟨hu, nofun⟩
  | cons a t ih =>
    obtain ⟨hi, hp⟩ := step a (List.mem_cons_self ..) u hu
    obtain ⟨hj, hq⟩ := ih (fun b hb => step b (List.mem_cons_of_mem _ hb)) _ hi
    rw [run_mapAll_cons]
    refine ⟨hj, fun k x hx => ?_⟩
    cases k with
    | zero =>
      obtain rfl : a = x := Option.some.inj hx
      exact ⟨_, rfl, hp⟩
    | succ k => exact hq k x hx

/-- A free value is taken; the engines and the warp stay. -/
theorem Serving.freeTaken {s u : State} {f : Nat → Stream} {r : WRegs} (h : Serving s u f r) :
    Serving s (Upd.apply u .free) f r where
  engines := h.engines_next rfl (fun _ _ => rfl) rfl h.engine
  others := h.others
  warp := h.warp

/-- An operand gives a value in a lane: a vector register in every lane, a queue register in the lanes with effect (R296). -/
def Gives (r : VOp) (ls : List Nat) (k : Nat) : Prop := (∃ n, r = .v n) ∨ k ∈ ls

/-- R263: the values of a source are those that the lanes hold, wherever the source gives one. -/
theorem laneVals_run {s u : State} (hu : Serving s u s.engine s.regsOf) (r : VOp) (words : Nat) (ls : List Nat) :
    ∃ vals v, (laneVals s.cur ls r words).run u = (vals, v) ∧ Serving s v s.engine s.regsOf ∧ ((∃ n, r = .v n) → v = u) ∧
      ∀ k, k < Config.W → Gives r ls k → vals[k]?.getD 0 = s.opnd s.cur ls r words k := by
  have same := hu.sameOperands
  cases r with
  | v n =>
    refine ⟨_, u, rfl, hu, fun _ => rfl, fun k hk _ => ?_⟩
    rw [Config.lanes, List.getElem?_map, List.getElem?_range hk, Option.map_some, Option.getD_some, same.opnd]
  | q n =>
    obtain ⟨serving, vals⟩ := run_mapAll_of (I := fun v => Serving s v s.engine s.regsOf)
      (P := fun k x => k ∈ ls → x = s.opnd s.cur ls (.q n) words k) (l := Config.lanes)
      (f := fun l => if ls.contains l then .ret (u.opnd s.cur ls (.q n) words l)
        else .bind freeVal fun f => .ret (f.toNat % 2 ^ (32 * words))) (fun k _ v hv => by
        by_cases hk : k ∈ ls
        · rw [if_pos (List.contains_iff_mem.2 hk)]
          have own : u.opnd s.cur ls (.q n) words k = s.opnd s.cur ls (.q n) words k := same.opnd ..
          exact ⟨hv, fun _ => own⟩
        · rw [if_neg fun h => hk (List.contains_iff_mem.1 h)]
          exact ⟨hv.freeTaken, fun h => absurd h hk⟩) u hu
    refine ⟨_, _, rfl, serving, nofun, fun k hk gives => ?_⟩
    obtain ⟨x, at_, value⟩ := vals k k (List.getElem?_range hk)
    rw [at_, Option.getD_some]
    exact value (gives.resolve_left nofun)

/-- A lane is live: launched and not exited. -/
abbrev State.liveLane (s : State) (l : Nat) : Bool := (s.warp s.cur).ctl.live.getLsbD l

/-- R263: a live lane gives its value and validity, another lane 0. -/
theorem crossRead_serving {s u : State} (hu : Serving s u s.engine s.regsOf) (vals : List Nat) (k : Nat) :
    crossRead u s.cur vals k = (if s.liveLane k then vals[k]?.getD 0 else 0, s.liveLane k) := by
  have live : (u.warp s.cur).ctl.live = (s.warp s.cur).ctl.live := by
    obtain ⟨x, hx⟩ := hu.warp
    rw [hx]; rfl
  rw [crossRead, live, State.liveLane]
  cases (s.warp s.cur).ctl.live.getLsbD k <;> rfl

/-- `x` is what a lane receives from lane k, as far as the source gives lane k a value. -/
def Receives (s : State) (h : Hd) (r : VOp) (words k x : Nat) : Prop :=
  Gives r (s.onLanes h) k → x = if s.liveLane k then s.opnd s.cur (s.onLanes h) r words k else 0

theorem receives_crossRead {s u : State} {h : Hd} {r : VOp} {words k : Nat} {vals : List Nat}
    (hu : Serving s u s.engine s.regsOf) (hk : k < Config.W)
    (hv : ∀ k, k < Config.W → Gives r (s.onLanes h) k → vals[k]?.getD 0 = s.opnd s.cur (s.onLanes h) r words k) :
    Receives s h r words k (crossRead u s.cur vals k).1 := fun gives => by
  rw [crossRead_serving hu, hv k hk gives]

/-- Predicates and flags stay. -/
def Stays (s : State) (p : Tab Mask) (f : Tab (BitVec 6)) : Prop := p = s.regsOf.p ∧ f = s.regsOf.fpsr

/-- An instruction that leaves predicates and flags, with vector registers alone. -/
theorem vPlain_of_computes {i : Instr} {h : Hd} {d : VOp} {words : Nat} {eff : Nat → List Nat → Prog Res}
    {R : State → Nat → Nat → Prop} {val : State → Nat → Nat} (hx : ∀ s, exec i s = next (issueV i h eff) s)
    (he : ∀ s, s.Inv = true → Computes i s h (some d) words eff (R s) (Stays s))
    (hR : ∀ s l x, s.Inv = true → i.qRefs = [] → R s l x → x = val s l) : VPlain i h d words val := by
  intro s n inv hi hq hd
  obtain ⟨t, ht, hc, ⟨preds, flags⟩, regs, x, allowed, -, written⟩ := (he s inv).plain inv hi hq (hx s)
    (fun q g => by rw [hd] at g; cases g) fun _ => ⟨rfl, rfl⟩
  rw [preds, flags] at regs
  refine ⟨t, ht, hc, regs, fun r l hl => (written n (by rw [hd]) r l hl).trans ?_⟩
  simp only [mem_onLanes, and_assoc]
  split
  · next g => rw [hR s l _ inv hq (allowed l (mem_onLanes.2 ⟨g.1, g.2.1⟩))]
  · rfl

/-- The same with queue registers. -/
theorem queue_of_stays {i : Instr} {h : Hd} {d : VOp} {words : Nat} {eff : Nat → List Nat → Prog Res}
    {R : State → Nat → Nat → Prop} (hx : ∀ s, exec i s = next (issueV i h eff) s)
    (he : ∀ s, s.Inv = true → Computes i s h (some d) words eff (R s) (Stays s)) : QResult i h (some d) words R :=
  queue_computes hx (fun s inv _ _ => he s inv) (fun s p f h k l _ => by rw [h.1])
    fun s p f h l _ => by rw [h.2, ite_self]; rfl

/-- Without queue registers every operand gives a value. -/
theorem gives_of_plain {i : Instr} (hq : i.qRefs = []) {x : VRef} (hx : x ∈ i.regs.v) (ls : List Nat) (k : Nat) :
    Gives x.r ls k := .inl (no_q hq x hx)

/-- The value that a lane receives from lane k of a vector register. -/
def received (s : State) (ty : IT) (r : VOp) (k : Nat) : Nat := if s.liveLane k then bitsA s ty r k else 0

theorem Receives.eq {i : Instr} {s : State} {h : Hd} {r : VOp} {n k x : Nat} {ty : IT} (hr : Receives s h r ty.words k x)
    (hq : i.qRefs = []) (hx : rdV r n ∈ i.regs.v) : x = received s ty r k := by
  rw [hr (gives_of_plain hq hx _ k), received, (LaneSees.plain hq s _ k).bitsA hx ty]

/-! ### SHFL (R264) -/

/-- The lane within its segment that a lane reads, by mode, count and the lane's place there; none outside the segment. -/
def shflPlace (mode : ShflMode) (seg n j : Nat) : Option Nat :=
  match mode with
  | .idx => some (n % seg)
  | .up => if n ≤ j then some (j - n) else none
  | .down => if j + n < seg then some (j + n) else none
  | .xor => if j ^^^ n < seg then some (j ^^^ n) else none

theorem shflLane_eq (mode : ShflMode) (seg n l : Nat) :
    shflLane mode seg n l = (shflPlace mode seg n (l % seg)).map fun t => l - l % seg + t := by
  cases mode with
  | idx => rfl
  | up => simp only [shflLane, shflPlace]; split <;> rfl
  | down => simp only [shflLane, shflPlace]; split <;> rfl
  | xor => simp only [shflLane, shflPlace]; split <;> rfl

theorem shflPlace_lt {mode : ShflMode} {seg n j t : Nat} (hj : j < seg) (h : shflPlace mode seg n j = some t) : t < seg := by
  cases mode with
  | idx => cases h; exact Nat.mod_lt _ (Nat.zero_lt_of_lt hj)
  | up =>
    obtain ⟨_, ht⟩ := Option.ite_none_right_eq_some.1 h
    cases ht
    omega
  | down =>
    obtain ⟨lt, ht⟩ := Option.ite_none_right_eq_some.1 h
    cases ht
    exact lt
  | xor =>
    obtain ⟨lt, ht⟩ := Option.ite_none_right_eq_some.1 h
    cases ht
    exact lt

/-- The segments of an instruction that can issue divide the warp. -/
theorem shflSeg_dvd {o : Shfl} {s : State} (hi : CanIssue (.shfl o) s) : shflSeg o.seg ∣ Config.W := by
  have ok := hi.fieldsOk
  simp only [Instr.fieldsOk, Bool.and_eq_true, decide_eq_true_eq] at ok
  unfold shflSeg
  split
  · exact Nat.dvd_refl _
  · exact Nat.pow_dvd_pow 2 (n := 5) ((Nat.pow_le_pow_iff_right (by decide)).1 ok.2)

/-- A segment lies within the warp. -/
theorem shflLane_lt {mode : ShflMode} {seg n l k : Nat} (dvd : seg ∣ Config.W) (hl : l < Config.W)
    (h : shflLane mode seg n l = some k) : k < Config.W := by
  obtain ⟨c, hc⟩ := dvd
  have pos : 0 < seg := Nat.pos_of_ne_zero fun hz => by rw [hz, Nat.zero_mul] at hc; cases hc
  rw [shflLane_eq, Option.map_eq_some_iff] at h
  obtain ⟨t, ht, rfl⟩ := h
  have lt := shflPlace_lt (Nat.mod_lt l pos) ht
  have base : l - l % seg = seg * (l / seg) := by have := Nat.div_add_mod l seg; omega
  have within : l / seg + 1 ≤ c := Nat.div_lt_of_lt_mul (hc ▸ hl)
  calc l - l % seg + t < seg * (l / seg) + seg := by rw [base]; exact Nat.add_lt_add_left lt _
    _ = seg * (l / seg + 1) := (Nat.mul_succ ..).symm
    _ ≤ seg * c := Nat.mul_le_mul_left _ within
    _ = Config.W := hc.symm

/-- The lane that a lane reads, among those that act. -/
def shflFrom (o : Shfl) (s : State) (ls : List Nat) (l : Nat) : Option Nat :=
  shflLane o.mode (shflSeg o.seg) (s.srcB s.cur ls o.n 1 false l) l

/-- Value and validity that a lane takes of the lanes' values. -/
def shflTakes (src : Nat → Option Nat) (u : State) (w : Nat) (vals : List Nat) (l : Nat) : Nat × Bool :=
  match src l with
  | some k => crossRead u w vals k
  | none => (vals[l]?.getD 0, false)

theorem shflTakes_valid {s u : State} (hu : Serving s u s.engine s.regsOf) (src : Nat → Option Nat) (vals : List Nat)
    (l : Nat) : (shflTakes src u s.cur vals l).2 = (src l).any s.liveLane := by
  rw [shflTakes]
  cases src l with
  | none => rfl
  | some k => exact congrArg Prod.snd (crossRead_serving hu vals k)

/-- What SHFL gives a lane: the value received, or outside the segment its own. -/
def Shuffled (o : Shfl) (s : State) (l x : Nat) : Prop :=
  (∀ k, shflFrom o s (s.onLanes o.hd) l = some k → Receives s o.hd o.a o.ty.words k x) ∧
    (shflFrom o s (s.onLanes o.hd) l = none → x = s.opnd s.cur (s.onLanes o.hd) o.a o.ty.words l)

/-- What SHFL leaves of predicates and flags: validity where it has effect. -/
def ShuffleLeaves (o : Shfl) (s : State) (p : Tab Mask) (f : Tab (BitVec 6)) : Prop :=
  PredsAfter s.regsOf.p o.p (s.onLanes o.hd) (fun l => (shflFrom o s (s.onLanes o.hd) l).any s.liveLane) p ∧
    f = s.regsOf.fpsr

theorem ShuffleLeaves.idle {o : Shfl} {s : State} (h : s.onLanes o.hd = []) : ShuffleLeaves o s s.regsOf.p s.regsOf.fpsr := by
  rw [ShuffleLeaves, h]
  exact ⟨PredsAfter.idle _ _ _, rfl⟩

theorem shfl_a {o : Shfl} : rdV o.a o.ty.words ∈ (Instr.shfl o).regs.v :=
  List.mem_append_left _ (List.mem_cons_of_mem _ (List.mem_cons_self ..))

theorem shfl_computes (o : Shfl) : ∃ eff, (∀ s, exec (.shfl o) s = next (issueV (.shfl o) o.hd eff) s) ∧
    ∀ s, s.Inv = true → CanIssue (.shfl o) s →
      Computes (.shfl o) s o.hd (some o.d) o.ty.words eff (Shuffled o s) (ShuffleLeaves o s) := by
  refine ⟨_, fun s => rfl, fun s inv hi u hu => ?_⟩
  obtain ⟨vals, v, run, hv, same, values⟩ := laneVals_run hu o.a o.ty.words (s.onLanes o.hd)
  refine ⟨v, fun l => (shflTakes (shflFrom o s (s.onLanes o.hd)) v s.cur vals l).1, _, hv, fun hq => same (no_q hq _ shfl_a),
    fun l hl => ⟨fun k hk => ?_, fun none => ?_⟩, predRes_leaves (ok_p (inv_warp inv s.cur)) o.p _ _, ?_⟩
  · simp only [shflTakes, hk]
    exact receives_crossRead hv (shflLane_lt (shflSeg_dvd hi) (mem_onLanes.1 hl).1 hk) values
  · simp only [shflTakes, none]
    exact values l (mem_onLanes.1 hl).1 (.inr hl)
  · have valid : (fun l => (shflFrom o s (s.onLanes o.hd) l).any s.liveLane) =
        fun l => (shflTakes (shflFrom o s (s.onLanes o.hd)) v s.cur vals l).2 := funext fun l => (shflTakes_valid hv ..).symm
    refine Prog.run_bind_eq run ?_
    rw [valid, Prog.run_get]
    simp only [hv.sameOperands.srcB]
    rfl

/-- What SHFL gives a lane with vector registers alone. -/
def shuffled (o : Shfl) (s : State) (l : Nat) : Nat :=
  (shflFrom o s [] l).elim (bitsA s o.ty o.a l) (received s o.ty o.a)

theorem shflFrom_plain {o : Shfl} (hq : (Instr.shfl o).qRefs = []) (s : State) (ls : List Nat) (l : Nat) :
    shflFrom o s ls l = shflFrom o s [] l := by
  have n : o.n.vrefs 1 ⊆ (Instr.shfl o).regs.v := List.subset_append_right ..
  rw [shflFrom, (LaneSees.plain hq s ls l).srcB n, shflFrom]

theorem Shuffled.eq {o : Shfl} {s : State} {l x : Nat} (h : Shuffled o s l x) (hq : (Instr.shfl o).qRefs = []) :
    x = shuffled o s l := by
  obtain ⟨inside, outside⟩ := h
  rw [shflFrom_plain hq] at inside outside
  unfold shuffled
  cases hs : shflFrom o s [] l with
  | none => rw [outside hs, (LaneSees.plain hq s _ l).bitsA shfl_a o.ty]; rfl
  | some k => exact (inside k hs).eq hq shfl_a

/-- R264: SHFL with vector registers alone. -/
theorem shfl_plain {o : Shfl} {s : State} {n : VReg} (inv : s.Inv = true) (hi : CanIssue (.shfl o) s)
    (hq : (Instr.shfl o).qRefs = []) (hd : o.d = .v n) : Yields (.shfl o) s fun t => Completes (.shfl o) s t ∧
      t.regsOf = { s.regsOf with v := t.regsOf.v, p := t.regsOf.p } ∧
      (∀ r l, l < 32 → t.vreg s.cur r l =
        if (effMask s s.cur o.hd).getLsbD l = true ∧ n.val ≤ r ∧ r < n.val + o.ty.words
        then BitVec.ofNat 32 (shuffled o s l / 2 ^ (32 * (r - n.val))) else s.vreg s.cur r l) ∧
      ∀ p l, l < 32 → (t.regsOf.p.get 0 p).getLsbD l =
        if p = o.p.val ∧ o.p.val ≠ 15 ∧ (effMask s s.cur o.hd).getLsbD l = true
        then (shflFrom o s [] l).any s.liveLane else (s.regsOf.p.get 0 p).getLsbD l := by
  obtain ⟨eff, hx, computes⟩ := shfl_computes o
  obtain ⟨t, ht, hc, ⟨preds, flags⟩, regs, x, allowed, -, written⟩ := (computes s inv hi).plain inv hi hq (hx s)
    (fun q g => by rw [hd] at g; cases g) ShuffleLeaves.idle
  rw [flags] at regs
  refine ⟨t, ht, hc, regs, fun r l hl => ?_, fun p l hl => ?_⟩
  · rw [written n (by rw [hd]) r l (Nat.lt_trans hl (by decide))]
    simp only [mem_onLanes_of_lt hl]
    split
    · next g => rw [(allowed l ((mem_onLanes_of_lt hl).2 g.1)).eq hq]
    · rfl
  · rw [preds p l hl]
    simp only [mem_onLanes_of_lt hl, shflFrom_plain hq]

/-- R264, R296: SHFL with queue registers. -/
theorem shfl_queue {o : Shfl} {R : State → Nat → Nat → Prop} {pd : State → Nat → Nat → Bool}
    (hR : ∀ s l x, Shuffled o s l x → R s l x)
    (hpd : ∀ s k l, pd s k l = if k = o.p.val ∧ o.p.val ≠ 15 ∧ l ∈ s.onLanes o.hd
      then (shflFrom o s (s.onLanes o.hd) l).any s.liveLane else (s.regsOf.p.get 0 k).getLsbD l) :
    QResult (.shfl o) o.hd (some o.d) o.ty.words R (pd := pd) := by
  obtain ⟨eff, hx, computes⟩ := shfl_computes o
  exact queue_computes hx (fun s inv hi _ => (computes s inv hi).mono (hR s))
    (fun s p f h k l hl => (h.1 k l hl).trans (hpd s k l).symm) fun s p f h l _ => by rw [h.2, ite_self]; rfl

/-! ### PERM (R265) -/

/-- The place that a lane names in the two sources. -/
def permPlace (o : Perm) (s : State) (ls : List Nat) (l : Nat) : Nat := s.srcB s.cur ls o.b 1 false l % 64

/-- What PERM gives a lane. -/
def Permuted (o : Perm) (s : State) (l x : Nat) : Prop :=
  let n := permPlace o s (s.onLanes o.hd) l
  if n < 32 then Receives s o.hd o.a 1 n x else Receives s o.hd o.c 1 (n - 32) x

/-- The value that a lane takes of the lanes' values. -/
def permTakes (n : Nat) (u : State) (w : Nat) (va vc : List Nat) : Nat :=
  if n < 32 then (crossRead u w va n).1 else (crossRead u w vc (n - 32)).1

theorem perm_a {o : Perm} : rdV o.a 1 ∈ (Instr.perm o).regs.v :=
  List.mem_append_left _ (List.mem_cons_of_mem _ (List.mem_cons_self ..))
theorem perm_c {o : Perm} : rdV o.c 1 ∈ (Instr.perm o).regs.v :=
  List.mem_append_left _ (List.mem_cons_of_mem _ (List.mem_cons_of_mem _ (List.mem_cons_self ..)))
theorem perm_b {o : Perm} : o.b.vrefs 1 ⊆ (Instr.perm o).regs.v := List.subset_append_right ..

theorem perm_computes (o : Perm) : ∃ eff, (∀ s, exec (.perm o) s = next (issueV (.perm o) o.hd eff) s) ∧
    ∀ s, s.Inv = true → Computes (.perm o) s o.hd (some o.d) 1 eff (Permuted o s) (Stays s) := by
  refine ⟨_, fun s => rfl, fun s inv u hu => ?_⟩
  obtain ⟨va, v, runA, hv, sameA, valuesA⟩ := laneVals_run hu o.a 1 (s.onLanes o.hd)
  obtain ⟨vc, w, runC, hw, sameC, valuesC⟩ := laneVals_run hv o.c 1 (s.onLanes o.hd)
  refine ⟨w, fun l => permTakes (permPlace o s (s.onLanes o.hd) l) w s.cur va vc, _, hw,
    fun hq => (sameC (no_q hq _ perm_c)).trans (sameA (no_q hq _ perm_a)), fun l _ => ?_, leaves_ok, ?_⟩
  · have lt : permPlace o s (s.onLanes o.hd) l < 64 := Nat.mod_lt _ (by decide)
    unfold Permuted permTakes
    by_cases first : permPlace o s (s.onLanes o.hd) l < 32
    · simp only [if_pos first]
      exact receives_crossRead hw first valuesA
    · simp only [if_neg first]
      exact receives_crossRead hw (Nat.sub_lt_left_of_lt_add (Nat.not_lt.1 first) lt) valuesC
  · refine Prog.run_bind_eq runA (Prog.run_bind_eq runC ?_)
    rw [Prog.run_get, andThen_ok]
    simp only [hw.sameOperands.srcB]
    rfl

theorem perm_plain (o : Perm) : VPlain (.perm o) o.hd o.d 1 fun s l =>
    let n := ctlB s o.b l % 64
    if n < 32 then received s .b32 o.a n else received s .b32 o.c (n - 32) := by
  obtain ⟨eff, hx, computes⟩ := perm_computes o
  refine vPlain_of_computes hx computes fun s l x _ hq h => ?_
  have place : permPlace o s (s.onLanes o.hd) l = ctlB s o.b l % 64 := by
    rw [permPlace, (LaneSees.plain hq s _ l).ctlB perm_b]
  unfold Permuted at h
  rw [place] at h
  dsimp only at h ⊢
  split at h
  · next first => rw [if_pos first]; exact Receives.eq (ty := .b32) h hq perm_a
  · next second => rw [if_neg second]; exact Receives.eq (ty := .b32) h hq perm_c

/-! ### BCAST (R266) -/

/-- The lowest-numbered lane of m0. -/
def lowLane (s : State) : Nat := (lowest (s.m0 s.cur)).getD 0

theorem lowLane_lt (s : State) : lowLane s < Config.W := by
  unfold lowLane lowest
  cases hl : (lanesOf (s.m0 s.cur)).head? with
  | none => decide
  | some l => exact (lanesOf_mem.1 (List.mem_of_mem_head? hl)).1

/-- The number that source b of BCAST holds, in the lowest-numbered lane of m0 where it is a V operand. -/
def bcastNumber (b : SrcB) (s : State) (ls : List Nat) : Nat :=
  match b with
  | .v r => s.opnd s.cur ls r 1 (lowLane s)
  | .s r => (s.sreg s.cur r.val).toNat % 2 ^ 32
  | .imm i => i.toNat

/-- The values of source b in every lane, where it is a V operand. -/
def bcastVals (w : Nat) (ls : List Nat) (b : SrcB) : Prog (List Nat) :=
  match b with
  | .v r => laneVals w ls r 1
  | _ => .ret []

/-- The number taken from those values. -/
def bcastPick (b : SrcB) (s : State) (w : Nat) (vals : List Nat) : Nat :=
  match b with
  | .v _ => vals[(lowest (s.m0 w)).getD 0]?.getD 0
  | .s r => (s.sreg w r.val).toNat % 2 ^ 32
  | .imm i => i.toNat

theorem SameOperands.m0 {s u : State} (h : SameOperands s u) : u.m0 s.cur = s.m0 s.cur := by rw [State.m0, h.regs]; rfl

theorem bcastVals_run {s u : State} (hu : Serving s u s.engine s.regsOf) (b : SrcB) (ls : List Nat) :
    ∃ vals v, (bcastVals s.cur ls b).run u = (vals, v) ∧ Serving s v s.engine s.regsOf ∧
      ((∀ q, b ≠ .v (.q q)) → v = u) ∧
      ((∀ q, b = .v (.q q) → lowLane s ∈ ls) → bcastPick b v s.cur vals = bcastNumber b s ls) := by
  cases b with
  | v r =>
    obtain ⟨vals, v, run, hv, same, values⟩ := laneVals_run hu r 1 ls
    refine ⟨vals, v, run, hv, fun noQueue => ?_, fun low => ?_⟩
    · cases r with
      | v n => exact same ⟨n, rfl⟩
      | q q => exact absurd rfl (noQueue q)
    · have gives : Gives r ls (lowLane s) := by
        cases r with
        | v n => exact .inl ⟨n, rfl⟩
        | q q => exact .inr (low q rfl)
      rw [bcastPick, hv.sameOperands.m0]
      exact values _ (lowLane_lt s) gives
  | s r => exact ⟨[], u, rfl, hu, fun _ => rfl, fun _ => by rw [bcastPick, hu.sameOperands.sreg, bcastNumber]⟩
  | imm i => exact ⟨[], u, rfl, hu, fun _ => rfl, fun _ => rfl⟩

/-- What BCAST gives a lane, where source b gives a number. -/
def Broadcast (o : VBin) (s : State) (_ x : Nat) : Prop :=
  (∀ q, o.b = .v (.q q) → lowLane s ∈ s.onLanes o.hd) →
    Receives s o.hd o.a o.ty.words (bcastNumber o.b s (s.onLanes o.hd) % 32) x

theorem bcast_noQueue {o : VBin} (hq : (Instr.bcast o).qRefs = []) (q : Fin 8) : o.b ≠ .v (.q q) := fun hb => by
  have mem : rdV (.q q) 1 ∈ (Instr.bcast o).regs.v := vbin_b (hb ▸ List.mem_singleton_self _)
  obtain ⟨n, hn⟩ := no_q hq _ mem
  cases hn

theorem bcast_computes (o : VBin) : ∃ eff, (∀ s, exec (.bcast o) s = next (issueV (.bcast o) o.hd eff) s) ∧
    ∀ s, s.Inv = true → Computes (.bcast o) s o.hd (some o.d) o.ty.words eff (Broadcast o s) (Stays s) := by
  refine ⟨_, fun s => rfl, fun s inv u hu => ?_⟩
  have a : rdV o.a o.ty.words ∈ (Instr.bcast o).regs.v := vbin_a
  obtain ⟨va, v, runA, hv, sameA, valuesA⟩ := laneVals_run hu o.a o.ty.words (s.onLanes o.hd)
  obtain ⟨vb, w, runB, hw, sameB, picks⟩ := bcastVals_run hv o.b (s.onLanes o.hd)
  refine ⟨w, fun _ => (crossRead w s.cur va (bcastPick o.b w s.cur vb % 32)).1, _, hw,
    fun hq => (sameB (bcast_noQueue hq)).trans (sameA (no_q hq _ a)), fun l _ low => ?_, leaves_ok, ?_⟩
  · rw [picks low]
    exact receives_crossRead hw (Nat.mod_lt _ (by decide)) valuesA
  · refine Prog.run_bind_eq runA (Prog.run_bind_eq runB ?_)
    rw [andThen_ok]
    rfl

theorem bcast_plain (o : VBin) : VPlain (.bcast o) o.hd o.d o.ty.words fun s _ =>
    received s o.ty o.a (bcastNumber o.b s [] % 32) := by
  obtain ⟨eff, hx, computes⟩ := bcast_computes o
  refine vPlain_of_computes hx computes fun s l x _ hq h => ?_
  have number : bcastNumber o.b s (s.onLanes o.hd) = bcastNumber o.b s [] := by
    cases hb : o.b with
    | v r => exact (LaneSees.plain hq s _ _).bitsA (n := 1) (vbin_b (hb ▸ List.mem_singleton_self _)) .b32
    | s r => rfl
    | imm i => rfl
  rw [← number]
  exact (h fun q hb => absurd hb (bcast_noQueue hq q)).eq hq vbin_a

/-- Settles O22: SHFL by the lane that it reads within its segment, PERM and BCAST by the lane that their source names. -/
theorem laneExchange : Obligations.LaneExchange := by
  refine ⟨fun o s n inv hi hq hd => ?_, perm_plain, bcast_plain, fun o => shfl_queue (fun s l x h => ?_) fun s k l => ?_,
    fun o => ?_, fun o => ?_⟩
  · intro seg j k src val ok
    obtain ⟨t, ht, hc, regs, writes, preds⟩ := shfl_plain inv hi hq hd
    have place (l : Nat) : shflFrom o s [] l = (src l).map fun t => l - l % seg + t := shflLane_eq ..
    refine ⟨t, ht, hc, regs, fun r l hl => (writes r l hl).trans ?_, fun p l hl => (preds p l hl).trans ?_⟩
    · have value : shuffled o s l = val l := by
        simp only [shuffled, val, place]
        cases src l <;> rfl
      rw [value]
    · have valid : (shflFrom o s [] l).any s.liveLane = ok l := by
        simp only [ok, place]
        cases src l <;> rfl
      rw [valid]
  · have place : shflFrom o s (s.onLanes o.hd) l = _ := shflLane_eq ..
    obtain ⟨inside, outside⟩ := h
    split
    · next k hk => exact inside k (place.trans hk)
    · next hk => exact outside (place.trans hk)
  · have place : shflFrom o s (s.onLanes o.hd) l = _ := shflLane_eq ..
    refine ite_congr rfl (fun _ => ?_) fun _ => rfl
    split
    · next k hk => rw [place.trans hk]; rfl
    · next hk => rw [place.trans hk]; rfl
  · obtain ⟨eff, hx, computes⟩ := perm_computes o
    exact queue_of_stays hx computes
  · obtain ⟨eff, hx, computes⟩ := bcast_computes o
    exact queue_of_stays hx computes

end Sys2Proof.Machine
end
